-- ==== Sys2Proof/Word.lean ====
section
/-! DEFINITION. The word types of the Izerazen Z8 (spec 00_scope R7, R9) and the key-sorted lists that hold sparse state. -/

namespace Sys2Proof

/-- One byte of memory. -/
abbrev Byte := BitVec 8
/-- One instruction word (R48). -/
abbrev Word32 := BitVec 32
/-- A 64-bit doubleword: an integer register's value, a cursor, a counter. -/
abbrev Word64 := BitVec 64
/-- The 128 bits of a capability register (R78). -/
abbrev Word128 := BitVec 128
/-- The 64 bytes of a vector register or a queue entry, byte 0 in the low bits (R7, R89). -/
abbrev Vec512 := BitVec 512
/-- A register field of an instruction word (R51). -/
abbrev RegNum := BitVec 5

/-- State held sparsely: pairs of a key and a value, keys strictly rising. -/
abbrev NMap (α : Type) := List (Nat × α)

end Sys2Proof
end

