-- ==== Sys2Proof/Config.lean ====
section
/-! DEFINITION. What an implementation fixes, and the free values: what the spec leaves open has no body here, so
nothing can rest on a value of it. Numbers are those of 01_machine R17, 13_counters R250, 14_scheduling R282-R288. -/

namespace Sys2Proof.Config

open Sys2Proof

/-- Which of the enabled actions happens next, drawn by the step's tick. Free (log entry 1). -/
opaque choice : Nat → Nat
/-- The nanoseconds that a step takes on the global time base. Free (log entry 2). -/
opaque stepNs : Nat → Nat
/-- The core cycles that the issuing thread's slot is held for by one word. Free (log entry 2). -/
opaque wordCycles : Nat → Nat
/-- How many stream-frame entries have completed when a trap, a park or an srd of STRMCNT looks (R190, R191). Free (log entry 8). -/
opaque streamDone : Nat → Nat
/-- The cycles that Moaly grants for sysc 0x004 before the device's bounds (R288), and whether it refuses a call. Free (log entry
9). -/
opaque grant : Nat → Nat
opaque refuses : Nat → Bool
/-- What hides the model's own names in the continuation references and handles that a program sees (R288, R290): their bits are
private to the device. Free (log entry 10). -/
opaque handleKey : Word64
/-- Bytes of the window spill area of a continuation (R132): the hardware allocates it, the spec gives no size (log entry 11). -/
opaque spillBytes : Nat → Nat
/-- The device serial number (R349), the digest of the Moaly image, and the digest of a configuration given as bytes (R348).
Free (log entry 12). -/
opaque serial : Word64
opaque firmwareDigest : BitVec 512
opaque configDigest : List Byte → BitVec 512
/-- The Ed25519 signature over a report (R349): the private key never leaves the key store (R348). Free (log entry 12). -/
opaque signature : List Byte → BitVec 512
/-- The enciphered bytes and the tag of a context image (R372). Their layout is private. Free (log entry 13). -/
opaque imageByte : Nat → Nat → Byte
opaque imageTag : List Byte → Nat → BitVec 56
/-- The address at which a partition's save area holds the bitmap records of paused jobs (R412). Hardware-owned. Free (log entry
14). -/
opaque saveArea : Nat → Word64
/-- Which dies fail the health test of turnover order 7 or the self test of stage 4 (R350, R408). Free (log entry 15). -/
opaque dieFails : Nat → BitVec 8
/-- Which HBM stacks fail training at stage 3, and whether stages 1 and 2 succeed (R408). Free (log entry 15). -/
opaque stackFails : Nat → BitVec 12
opaque bootOk : Nat → Bool
/-- Whether a row of the repair list finds no spare row (R410). Free (log entry 15). -/
opaque noSpare : Nat → Nat → Bool
/-- The sizes in bytes of the expanders attached to a port, and which Neltur links train at stage 5 (R405, R408). Free (log entry
15). -/
opaque expandersUp : Nat → Nat → List Nat
opaque linksUp : Nat → BitVec 32
/-- The links from which the scale-up switches have a path to a peer id (R406, R407). Free (log entry 15). -/
opaque peerLinks : Nat → BitVec 32
/-- The peer id of this package, which the flits that it sends name as their source (R406). Free (log entry 29). -/
opaque ownPeer : Nat
/-- The bytes that a flit's payload holds (R406). -/
def flitPayload : Nat := 112
/-- The generation that a peer's home compares with at a use of the 64 KiB unit of its window (R407): the exporting domain's, which this
package does not hold. Free (log entry 29). -/
opaque peerGen : Nat → Nat → Nat → BitVec 12
/-- The HBM stack, 0 to 11, that holds a physical line: the spec gives no interleaving. Free (log entry 17). -/
opaque stackOf : Nat → Nat
/-- The pseudo-channel, 0 to 383, of that stack. Free (log entry 17). -/
opaque channelOf : Nat → Nat
/-- The addresses of hardware-owned blocks that a continuation record names: the context block, the spill area, the top
domain-stack entry (R267). Free (log entry 11). -/
opaque contextBlock : Nat → Word64
opaque spillBase : Nat → Nat
opaque domainStackTop : Nat → Nat → Nat
/-- The check code over a digit record (R192), which the model names by a number: its form is private to the device. Free (log
entry 8). -/
opaque digitCheck : Nat → Word64
/-- How many k-groups of a started command the unit has rounded into the slot when its domain is killed (R239). Free (log entry
46). -/
opaque groupsDone : Nat → Nat
/-- How many arrivals the area of a record-mode log holds (R393). Free (log entry 22). -/
opaque recordArea : Nat → Nat
/-- A value that the spec does not state (log entry 6 names each use). -/
opaque unstated : Nat → Word64

/-- Core cycles of a quantum (R282). -/
def quantum : Nat := 65536
/-- Nanoseconds after which a waiting thread parks (R20). -/
def parkNs : Nat := 4000
/-- Nanoseconds after which an idle core steals (R284). -/
def stealNs : Nat := 10000
/-- Entries of the system-call ring (R288). -/
def ringSize : Nat := 256
/-- Records of a world's fault queue (R367). -/
def faultQueueSize : Nat := 4096
/-- Cards of a copy engine's queue (R153). -/
def cardSlots : Nat := 64
/-- Matrix-unit entries of a core, and those for remote commands (R234, R236). -/
def coreEntries : Nat := 8
def remoteEntries : Nat := 16
/-- Stream-frame entries (R191). -/
def streamSlots : Nat := 16
/-- Depths of lq and sq (R89). -/
def lqDepth : Nat := 32
def sqDepth : Nat := 16
/-- Stamped operations that a sheaf holds per thread and step (R385). -/
def sheafSlots : Nat := 64
/-- Records of a cluster's pool, and how many of them a new record may take (R286). -/
def poolRecords : Nat := 4096
def poolNew : Nat := 3840
/-- PRI requests of a PASID, and ATS requests, outstanding at once (R344). -/
def priSlots : Nat := 256
def atsSlots : Nat := 32
/-- Bytes of HBM: 1,152 GiB (R17). -/
def hbmBytes : Nat := 1152 * 2 ^ 30
/-- Undo-log lines of a partition's step (R384). -/
def undoLines : Nat := 4096
/-- Bytes of a task log (R389). -/
def taskBytes : Nat := 65536

end Sys2Proof.Config
end

