-- ==== Sys2Proof/Syntax.lean ====
section
/-! DEFINITION. The instructions and events of spec/opcode_table.json: one constructor per row.
A word's constructor holds the fields that its meaning reads; fields that the spec calls ignored or reserved
for it (R75) are not held. An event's constructor holds what the event is about. -/

namespace Sys2Proof

/-- Element types of ET (R53); codes 110 and 111 are illegal and have no constructor. -/
inductive ElemTy where
  | f32 | bf16 | i8 | i16 | i32 | i64
  deriving DecidableEq, Repr

/-- Number formats of the FC codes (R69). -/
inductive Fmt where
  | f32 | bf16 | e5m2 | e4m3 | e2m1 | t8 | t6 | i8 | i16 | i32 | i64
  deriving DecidableEq, Repr

/-- The host's answer to a page request (R345). -/
inductive PriCode where
  | success | invalidRequest | responseFailure
  deriving DecidableEq, Repr

/-- The host's answer to an ATS translation request (R344). `frame` is the host physical address of the page. -/
inductive AtsAnswer where
  | translation (frame : Nat) (canRead canWrite : Bool)
  | notPresent
  deriving DecidableEq, Repr

/-- The homes that acknowledge a generation bump (R347). -/
inductive Home where
  | hbm | expanders | clusterMemories | hostPort | matrixUnits | counterHomes | translationCaches
  deriving DecidableEq, Repr

/-- What a flit from a peer package asks of its home (R406). -/
inductive FlitOp where
  | counterAdd (value : Word64)
  | counterInit (value : Word64)
  | counterWait (threshold : Word64) (limit : Option Nat)
  | counterRead
  | copyWrite (bytes : List Byte)
  | copyRead (len : Nat)
  deriving DecidableEq, Repr

/-- A Neltur flit that reaches its home (R406). `dst` is the destination peer id; `cref`, `stepNo`, `sseq` are the stamp, with `sector`
where an engine adds the bytes of one (R387); `gen` is the generation that the PEER capability bears, which the home checks
(R407). -/
structure Flit where
  src : Nat
  dst : Nat
  seq : Nat
  world : Nat
  gen : Nat
  cref : Word64
  stepNo : Nat
  sseq : Nat
  sector : Option Nat
  target : Nat
  op : FlitOp
  deriving DecidableEq, Repr

/-- Where a host access goes: the HDM region of R404, or the host's own memory, which HOST accesses reach. -/
inductive HostTarget where
  | hdm | ownMemory
  deriving DecidableEq, Repr

/-- A host access (R404): `write = some bytes` stores, `none` reads `len` bytes. -/
structure HostAccess where
  target : HostTarget
  offset : Nat
  len : Nat
  write : Option (List Byte)
  deriving DecidableEq, Repr

/-- What Moaly gives a domain when it creates it (R310, R311, R344). -/
structure DomainSpec where
  id : Nat
  rootBits : Word128
  rootTag : Bool
  ptroot : Nat
  pasid : Nat
  trapGate : Option Nat
  deriving DecidableEq, Repr

/-- A row of HBM (R391, R410). -/
structure HbmRow where
  stack : Nat
  pch : Nat
  bank : Nat
  row : Nat
  deriving DecidableEq, Repr

/-- One constructor per row of spec/opcode_table.json. -/
inductive Instr where
  -- access integer register forms (R57, R123)
  | add (s : BitVec 4) (b a d : RegNum)
  | sub (s : BitVec 4) (b a d : RegNum)
  | mul (b a d : RegNum)
  | mulh (b a d : RegNum)
  | and (s : BitVec 4) (b a d : RegNum)
  | or (s : BitVec 4) (b a d : RegNum)
  | xor (s : BitVec 4) (b a d : RegNum)
  | shl (b a d : RegNum)
  | shr (b a d : RegNum)
  | sra (b a d : RegNum)
  | min (s : BitVec 4) (b a d : RegNum)
  | max (s : BitVec 4) (b a d : RegNum)
  | slt (s : BitVec 4) (b a d : RegNum)
  | slo (s : BitVec 4) (b a d : RegNum)
  -- access immediate forms (R32, R57: shifts use IMM13[5:0])
  | addi (i : BitVec 13) (a d : RegNum)
  | andi (i : BitVec 13) (a d : RegNum)
  | ori (i : BitVec 13) (a d : RegNum)
  | xori (i : BitVec 13) (a d : RegNum)
  | shli (i : BitVec 6) (a d : RegNum)
  | shri (i : BitVec 6) (a d : RegNum)
  | srai (i : BitVec 6) (a d : RegNum)
  | slti (i : BitVec 13) (a d : RegNum)
  | ahi (i : BitVec 21) (d : RegNum)
  -- capability operations (R58, R126)
  | cpbound (b a d : RegNum)
  | cpperm (b a d : RegNum)
  | cpaddr (b a d : RegNum)
  | cpinc (b a d : RegNum)
  | cpget (s : BitVec 3) (a d : RegNum)
  | cptest (b a d : RegNum)
  | cpmove (a d : RegNum)
  -- control transfer (R42, R59, R60)
  | beq (o : BitVec 13) (b a : RegNum)
  | bne (o : BitVec 13) (b a : RegNum)
  | blt (o : BitVec 13) (b a : RegNum)
  | bge (o : BitVec 13) (b a : RegNum)
  | blo (o : BitVec 13) (b a : RegNum)
  | bhs (o : BitVec 13) (b a : RegNum)
  | btag (o : BitVec 13) (a : RegNum)
  | bnotag (o : BitVec 13) (a : RegNum)
  | jmp (o : BitVec 21)
  | call (o : BitVec 21) (d : RegNum)
  | callr (a d : RegNum)
  | jmpr (a : RegNum)
  | ret (a : RegNum)
  | enter (frame : BitVec 13) (argw : BitVec 3)
  -- loads, stores, reductions, pages (R54, R61, R63)
  | ld (q m : BitVec 2) (l : BitVec 4) (z : BitVec 3) (b a d : RegNum)
  | st (q m : BitVec 2) (z : BitVec 3) (b a d : RegNum)
  | mredAdd (l : BitVec 4) (z : BitVec 3) (b a d : RegNum)
  | mredAnd (l : BitVec 4) (z : BitVec 3) (b a d : RegNum)
  | mredOr (l : BitVec 4) (z : BitVec 3) (b a d : RegNum)
  | mredXor (l : BitVec 4) (z : BitVec 3) (b a d : RegNum)
  | mredMin (l : BitVec 4) (z : BitVec 3) (b a d : RegNum)
  | mredMax (l : BitVec 4) (z : BitVec 3) (b a d : RegNum)
  | mredMinUn (l : BitVec 4) (z : BitVec 3) (b a d : RegNum)
  | mredMaxUn (l : BitVec 4) (z : BitVec 3) (b a d : RegNum)
  | mredAddFloat (l : BitVec 4) (z : BitVec 3) (b a d : RegNum)
  | mredMinFloat (l : BitVec 4) (z : BitVec 3) (b a d : RegNum)
  | mredMaxFloat (l : BitVec 4) (z : BitVec 3) (b a d : RegNum)
  | pref (m : BitVec 2) (z : BitVec 3) (b a : RegNum)
  | pgalloc (l : BitVec 4) (z : BitVec 3) (a d : RegNum)
  | pgfree (z : BitVec 3) (a : RegNum)
  -- counters (R64); in a word with lookahead bit 24 is both l[0] and s[1] (R55)
  | ctadd (l : BitVec 4) (s k : BitVec 2) (b a d : RegNum)
  | ctwait (s k : BitVec 2) (b a : RegNum)
  | ctwaitt (s k : BitVec 2) (b a d : RegNum)
  | ctread (l : BitVec 4) (s k : BitVec 2) (a d : RegNum)
  | ctinit (b a : RegNum)
  | ctarr (s : BitVec 2) (a : RegNum)
  | ctarrDrop (s : BitVec 2) (a : RegNum)
  | ctarrJoin (s : BitVec 2) (a : RegNum)
  -- copy engine (R65)
  | cpyj (a : RegNum)
  | cpyq (a d : RegNum)
  -- vector integer (R66)
  | vadd (e : ElemTy) (b a d : RegNum)
  | vsub (e : ElemTy) (b a d : RegNum)
  | vmul (e : ElemTy) (b a d : RegNum)
  | vmulh (u : Bool) (e : ElemTy) (b a d : RegNum)
  | vmad (e : ElemTy) (b a d : RegNum)
  | vand (e : ElemTy) (b a d : RegNum)
  | vor (e : ElemTy) (b a d : RegNum)
  | vxor (e : ElemTy) (b a d : RegNum)
  | vshl (e : ElemTy) (b a d : RegNum)
  | vshr (e : ElemTy) (b a d : RegNum)
  | vsra (e : ElemTy) (b a d : RegNum)
  | vmin (ka kb u : Bool) (e : ElemTy) (b a d : RegNum)
  | vmax (ka kb u : Bool) (e : ElemTy) (b a d : RegNum)
  | vabs (e : ElemTy) (a d : RegNum)
  | vclz (e : ElemTy) (a d : RegNum)
  | vpop (e : ElemTy) (a d : RegNum)
  -- floating point (R66, R62)
  | fadd (r : BitVec 2) (e : ElemTy) (b a d : RegNum)
  | fsub (r : BitVec 2) (e : ElemTy) (b a d : RegNum)
  | fmul (r : BitVec 2) (e : ElemTy) (b a d : RegNum)
  | fmin (ka kb : Bool) (e : ElemTy) (b a d : RegNum)
  | fmax (ka kb : Bool) (e : ElemTy) (b a d : RegNum)
  | fabs (e : ElemTy) (a d : RegNum)
  | fneg (e : ElemTy) (a d : RegNum)
  | fsgn (e : ElemTy) (b a d : RegNum)
  | ffma (r : BitVec 2) (e : ElemTy) (c b a d : RegNum)
  | ffms (r : BitVec 2) (e : ElemTy) (c b a d : RegNum)
  | ffnma (r : BitVec 2) (e : ElemTy) (c b a d : RegNum)
  | ffnms (r : BitVec 2) (e : ElemTy) (c b a d : RegNum)
  | fdiv (r : BitVec 2) (e : ElemTy) (b a d : RegNum)
  | fsqrt (r : BitVec 2) (e : ElemTy) (a d : RegNum)
  | frcp (r : BitVec 2) (e : ElemTy) (a d : RegNum)
  | frsq (r : BitVec 2) (e : ElemTy) (a d : RegNum)
  | fexp2 (r : BitVec 2) (e : ElemTy) (a d : RegNum)
  | flog2 (r : BitVec 2) (e : ElemTy) (a d : RegNum)
  -- compares (R67)
  | vcmpEq (ka kb u : Bool) (e : ElemTy) (b a d : RegNum)
  | vcmpNe (ka kb u : Bool) (e : ElemTy) (b a d : RegNum)
  | vcmpLt (ka kb u : Bool) (e : ElemTy) (b a d : RegNum)
  | vcmpLe (ka kb u : Bool) (e : ElemTy) (b a d : RegNum)
  | vcmpGt (ka kb u : Bool) (e : ElemTy) (b a d : RegNum)
  | vcmpGe (ka kb u : Bool) (e : ElemTy) (b a d : RegNum)
  | fcmpEq (ka kb : Bool) (e : ElemTy) (b a d : RegNum)
  | fcmpNe (ka kb : Bool) (e : ElemTy) (b a d : RegNum)
  | fcmpLt (ka kb : Bool) (e : ElemTy) (b a d : RegNum)
  | fcmpLe (ka kb : Bool) (e : ElemTy) (b a d : RegNum)
  | fcmpGt (ka kb : Bool) (e : ElemTy) (b a d : RegNum)
  | fcmpGe (ka kb : Bool) (e : ElemTy) (b a d : RegNum)
  | fthrGe (ka kb : Bool) (e : ElemTy) (b a d : RegNum)
  | fthrLt (ka kb : Bool) (e : ElemTy) (b a d : RegNum)
  -- moves of elements (R68)
  | vsel (ka kb : Bool) (e : ElemTy) (b a d : RegNum)
  | vperm (e : ElemTy) (b a d : RegNum)
  | vbcast (e : ElemTy) (n a d : RegNum)
  | vslide (e : ElemTy) (n a d : RegNum)
  -- conversions (R69)
  | fcvtFromFc (r : BitVec 2) (e : ElemTy) (f : Fmt) (a d : RegNum)
  | fcvtToFc (r : BitVec 2) (e : ElemTy) (f : Fmt) (a d : RegNum)
  | icvtToInt (r : BitVec 2) (e : ElemTy) (f : Fmt) (a d : RegNum)
  | icvtToFloat (r : BitVec 2) (e : ElemTy) (f : Fmt) (a d : RegNum)
  | vpack (e : ElemTy) (b a d : RegNum)
  -- reductions over lanes (R70)
  | vredAdd (e : ElemTy) (a d : RegNum)
  | vredMin (u : Bool) (e : ElemTy) (a d : RegNum)
  | vredMax (u : Bool) (e : ElemTy) (a d : RegNum)
  | fredAdd (r : BitVec 2) (e : ElemTy) (a d : RegNum)
  | fredMin (e : ElemTy) (a d : RegNum)
  | fredMax (e : ElemTy) (a d : RegNum)
  -- between the halves, immediates, views (R71)
  | xins (e : ElemTy) (n a d : RegNum)
  | xext (e : ElemTy) (n a d : RegNum)
  | xmov (a d : RegNum)
  | xli (i : BitVec 16) (e : ElemTy) (d : RegNum)
  | xliHi (i : BitVec 16) (d : RegNum)
  | xliLo (i : BitVec 16) (d : RegNum)
  | xview (b a d : RegNum)
  | xshape (a : RegNum) (n : BitVec 3)
  | xflags (a d : RegNum)
  -- matrix (R72)
  | mfmt (b a : RegNum)
  | mmaAcc (c : BitVec 4) (y t : BitVec 3) (p : RegNum)
  | mmaNew (l c : BitVec 4) (y t : BitVec 3) (p : RegNum)
  | mmaZero (c : BitVec 4) (p : RegNum)
  | mmarAcc (c : BitVec 4) (y t : BitVec 3) (p : RegNum)
  | mmarNew (l c : BitVec 4) (y t : BitVec 3) (p : RegNum)
  | mmarZero (c : BitVec 4) (p : RegNum)
  | aread (e : ElemTy) (blk a : RegNum) (d : BitVec 3)
  | arel (a : RegNum)
  -- scheduling (R73)
  | spawn (l : BitVec 4) (a d : RegNum)
  | exit (a : RegNum)
  | sysc (n : BitVec 11) (a d : RegNum)
  | allot (a d : RegNum)
  | getid (sel : BitVec 3) (d : RegNum)
  | time (d : RegNum)
  -- gates (R73)
  | gcall (a : RegNum)
  | gmake (a d : RegNum)
  | grevoke (a : RegNum)
  | grevokeEject (a : RegNum)
  | dstat (sel : BitVec 2) (d : RegNum)
  -- system (R73)
  | srd (n : BitVec 12) (d : RegNum)
  | swr (n : BitVec 12) (a : RegNum)
  | ctxst (a d : RegNum)
  | ctxld (a d : RegNum)
  | engrd (n : BitVec 11) (a d : RegNum)
  | engwr (n : BitVec 11) (a d : RegNum)
  | dbgstop (n : BitVec 11)
  | haltg (a d : RegNum)
  -- hint region (R74, R380)
  | hint (p : BitVec 26)
  | sig (crc : BitVec 20) (len : BitVec 6)
  -- events
  | launchRecord (slot : Nat)
  | counterRecordAdd (slot : Nat)
  | counterRecordWait (slot : Nat)
  | invalidRecordType (slot : Nat)
  | hostWaitReply (id : Nat)
  | completionRecord (launch : Nat)
  | waiterWake (t : Nat)
  | waitLimitExpiry (t : Nat)
  | park (t : Nat)
  | continuationTake (core slot : Nat)
  | quantumEnd (t : Nat)
  | priorityAging (t : Nat)
  | steal (core slot : Nat)
  | allotmentExhausted (t : Nat)
  | continuationLimitRelease (t : Nat)
  | syscReply (w : Nat) (refuse : Bool) (grant : Nat)
  | streamEntryComplete (t : Nat)
  | lookaheadWrite (t : Nat)
  | copyQueueGrant (cluster : Nat)
  | copyJobStart (cluster entry : Nat)
  | sectorLand (cluster entry sector : Nat)
  | priResponse (pasid page : Nat) (code : PriCode)
  | atsResponse (pasid page : Nat) (answer : AtsAnswer)
  | atsInvalidation (pasid page : Nat)
  | invalidationCompletion (pasid page : Nat)
  | translationInvalidation (w address : Nat) (entry : Word64)
  | matrixQueueGrant (cluster : Nat)
  | matrixCommandStart (cluster : Nat)
  | matrixCommandComplete (cluster cmd : Nat)
  | areadTileWrite (cluster cmd : Nat)
  | slotRelease (cluster cmd : Nat)
  | domainKill (w dom : Nat)
  | worldKill (w : Nat)
  | generationBumpAck (kill : Nat) (home : Home)
  | killUnwind (t : Nat)
  | ejectUnwind (t : Nat)
  | budgetEnd (t : Nat)
  | farGateLanding (hop : Nat)
  | farGateReturn (hop : Nat)
  | rekey (w : Nat)
  | keySweepLine (w home : Nat)
  | keySlotDestroy (w : Nat)
  | dlatchWrite (die : Nat) (v : Word64)
  | turnoverStart (w : Nat)
  | hubRegisterWrite (trusted : Bool) (page offset : Nat) (write : Option Word64)
  | switchAnnounce (outgoing incoming at_ : Nat)
  | switchStop (p : Nat)
  | bankSwap (p : Nat)
  | partitionResume (p : Nat)
  | stepBoundary (p : Nat)
  | stepReplay (p : Nat)
  | replayResume (p : Nat)
  | taskRerun (t : Nat)
  | uncorrectableError (address : Nat)
  | powerLimit (mhz : Nat)
  | nelturFlit (f : Flit)
  | linkFailure (link : Nat)
  | expanderRemoval (expander : Nat)
  | hostMemoryAccess (acc : HostAccess)
  | haltResume (stop : Nat)
  | engineStop (cluster : Nat)
  | engineResume (cluster : Nat)
  | engineEntryWrite (cluster entry : Nat) (v : Word64)
  | faultedResume (t allot : Nat)
  | faultedFree (t : Nat)
  | domainCreate (w : Nat) (dom : DomainSpec)
  | worldKeyLoad (w : Nat)
  | faultQueueDrain (w : Nat)
  | linkRetrainComplete (link : Nat)
  | correctedError (row : HbmRow)
  | pgfreeFramePush (w : Nat)
  | partitionSave (p : Nat)
  | recordModeRerun (t : Nat)
  -- words with no operand
  | gret
  | tret
  | tretSkip
  | yield
  | step
  | nop
  -- events about nothing that has a name
  | illegalInstruction
  | turnoverOrderComplete
  | sounariReport
  | softRepair
  | softRepairComplete
  | reset
  | bringupStageComplete
  deriving DecidableEq, Repr

end Sys2Proof
end

