-- ==== Sys2Proof/WellFormed.lean ====
section
/-! DEFINITION. Which instructions are well formed: the illegal operand codes of 03_encoding R51, R53-R75 and of the
entries of 10_vector R203, R210, R215, R218, R222, and the ranges of the places that events name (01_machine R13). -/

namespace Sys2Proof

/-- The data of an operation fits a flit's payload (R406). -/
def FlitOp.fits : FlitOp → Bool
  | .copyWrite bs => bs.length ≤ Config.flitPayload
  | _ => true

/-- Count(ET) of R200. -/
def ElemTy.count : ElemTy → Nat
  | .f32 | .i32 => 16
  | .bf16 | .i16 => 32
  | .i8 => 64
  | .i64 => 8

/-- The bytes of one element (R200). -/
def ElemTy.bytes : ElemTy → Nat
  | .f32 | .i32 => 4
  | .bf16 | .i16 => 2
  | .i8 => 1
  | .i64 => 8

/-- f32 and bf16, the types of the float majors (R66). -/
def ElemTy.isFloat : ElemTy → Bool
  | .f32 | .bf16 => true
  | _ => false

/-- The integer types of major 0x20 (R66). -/
def ElemTy.isInt (e : ElemTy) : Bool := !e.isFloat

/-- The float formats of FC (R69). -/
def Fmt.isFloat : Fmt → Bool
  | .i8 | .i16 | .i32 | .i64 => false
  | _ => true

/-- A vector source may be v0-v27, lq0 or lq1 (R51). -/
def srcOk (r : RegNum) : Bool := r.toNat < 30

/-- A vector destination may be v0-v27, sq0 or sq1 (R51). -/
def dstOk (r : RegNum) : Bool := r.toNat < 28 || 30 ≤ r.toNat

/-- A destination that the word also reads must be a v-register (R203, R210, R215, R218). -/
def readDstOk (r : RegNum) : Bool := r.toNat < 28

/-- KIND and the counter number it takes (R54, R39). -/
def kindOk (k : BitVec 2) (a : RegNum) : Bool := k == 1 || ((k == 0 || k == 2) && a.toNat < 16)

/-- Bit 24 is both LK[0] and SC[1] in a counter word with lookahead (R55). -/
def lkScOk (l : BitVec 4) (s : BitVec 2) : Bool := l.getLsbD 0 == s.getLsbD 1

/-- The system registers of R368. -/
def sysRegOk (n : BitVec 12) : Bool :=
  let m := n.toNat
  m == 0x001 || (0x010 ≤ m && m ≤ 0x012) || (0x018 ≤ m && m ≤ 0x020) || (0x040 ≤ m && m ≤ 0x04F)
    || (0x800 ≤ m && m ≤ 0x806) || (0x810 ≤ m && m ≤ 0x812)

/-- A two-source vector word. -/
def vec3Ok (b a d : RegNum) : Bool := srcOk b && srcOk a && dstOk d

/-- A one-source vector word. -/
def vec2Ok (a d : RegNum) : Bool := srcOk a && dstOk d

/-- The words whose bits are an instruction; events have no bits. -/
def Instr.isWord : Instr → Bool
  | .illegalInstruction | .launchRecord _ | .counterRecordAdd _ | .counterRecordWait _ | .invalidRecordType _
  | .hostWaitReply _ | .completionRecord _ | .waiterWake _ | .waitLimitExpiry _ | .park _ | .continuationTake _ _
  | .quantumEnd _ | .priorityAging _ | .steal _ _ | .allotmentExhausted _ | .continuationLimitRelease _
  | .syscReply _ _ _ | .streamEntryComplete _ | .lookaheadWrite _ | .copyQueueGrant _ | .copyJobStart _ _
  | .sectorLand _ _ _ | .priResponse _ _ _ | .atsResponse _ _ _ | .atsInvalidation _ _ | .invalidationCompletion _ _
  | .translationInvalidation _ _ _ | .matrixQueueGrant _ | .matrixCommandStart _ | .matrixCommandComplete _ _
  | .areadTileWrite _ _ | .slotRelease _ _ | .domainKill _ _ | .worldKill _ | .generationBumpAck _ _ | .killUnwind _
  | .ejectUnwind _ | .budgetEnd _ | .farGateLanding _ | .farGateReturn _ | .rekey _ | .keySweepLine _ _
  | .keySlotDestroy _ | .dlatchWrite _ _ | .turnoverStart _ | .turnoverOrderComplete | .sounariReport
  | .hubRegisterWrite _ _ _ _ | .switchAnnounce _ _ _ | .switchStop _ | .bankSwap _ | .partitionResume _
  | .stepBoundary _ | .stepReplay _ | .replayResume _ | .taskRerun _ | .uncorrectableError _ | .softRepair
  | .softRepairComplete | .reset | .bringupStageComplete | .powerLimit _ | .nelturFlit _ | .linkFailure _
  | .expanderRemoval _ | .hostMemoryAccess _ | .haltResume _ | .engineStop _ | .engineResume _ | .engineEntryWrite _ _ _
  | .faultedResume _ _ | .faultedFree _ | .domainCreate _ _ | .worldKeyLoad _ | .faultQueueDrain _
  | .linkRetrainComplete _ | .correctedError _ | .pgfreeFramePush _ | .partitionSave _ | .recordModeRerun _ => false
  | _ => true

/-- An uncorrectable error names a byte of cluster memory, of HBM (R17) or of the second tier, a HOST or PEER line that it was met
on, or, from 6 × 2^64 on, one of the hardware-owned areas of R392. -/
def errorPlace (a : Nat) : Bool :=
  match a / 2 ^ 64 with
  | 0 => a < 2 ^ 30
  | 1 => a - 2 ^ 64 < Config.hbmBytes
  | 2 => a - 2 * 2 ^ 64 < 2 ^ 43
  | 5 => false
  | n => n < 11

/-- No operand holds a code that the spec calls illegal, and every place that an event names exists. -/
def Instr.wf : Instr → Bool
  | .call _ d => d != 0
  | .enter f w => 1 ≤ f.toNat && f.toNat ≤ 512 && w.toNat ≤ 4
  | .ld q _ _ z _ _ _ => q != 3 && (z != 7 || q == 0)
  | .st q _ z _ _ _ => q != 3 && (z != 7 || q == 0)
  | .mredAdd _ z _ _ _ | .mredAnd _ z _ _ _ | .mredOr _ z _ _ _ | .mredXor _ z _ _ _ | .mredMin _ z _ _ _
  | .mredMax _ z _ _ _ | .mredMinUn _ z _ _ _ | .mredMaxUn _ z _ _ _ => z.toNat ≤ 3
  | .mredAddFloat _ z _ _ _ | .mredMinFloat _ z _ _ _ | .mredMaxFloat _ z _ _ _ => z == 1 || z == 2
  | .pgalloc _ z _ _ | .pgfree z _ => z.toNat ≤ 2
  | .ctadd l s k _ a _ => kindOk k a && lkScOk l s
  | .ctwait _ k _ a | .ctwaitt _ k _ a _ => kindOk k a
  | .ctread l s k a _ => kindOk k a && lkScOk l s
  | .ctarr _ a | .ctarrDrop _ a | .ctarrJoin _ a => a.toNat < 16
  | .vadd e b a d | .vsub e b a d | .vmul e b a d | .vmulh _ e b a d | .vand e b a d | .vor e b a d | .vxor e b a d
  | .vshl e b a d | .vshr e b a d | .vsra e b a d | .vmin _ _ _ e b a d | .vmax _ _ _ e b a d
  | .vcmpEq _ _ _ e b a d | .vcmpNe _ _ _ e b a d | .vcmpLt _ _ _ e b a d | .vcmpLe _ _ _ e b a d
  | .vcmpGt _ _ _ e b a d | .vcmpGe _ _ _ e b a d => e.isInt && vec3Ok b a d
  | .vmad e b a d => e.isInt && srcOk b && srcOk a && readDstOk d
  | .vabs e a d | .vclz e a d | .vpop e a d | .vredAdd e a d | .vredMin _ e a d | .vredMax _ e a d =>
      e.isInt && vec2Ok a d
  | .fadd _ e b a d | .fsub _ e b a d | .fmul _ e b a d | .fdiv _ e b a d | .fsgn e b a d
  | .fmin _ _ e b a d | .fmax _ _ e b a d | .fcmpEq _ _ e b a d | .fcmpNe _ _ e b a d | .fcmpLt _ _ e b a d
  | .fcmpLe _ _ e b a d | .fcmpGt _ _ e b a d | .fcmpGe _ _ e b a d | .fthrGe _ _ e b a d | .fthrLt _ _ e b a d =>
      e.isFloat && vec3Ok b a d
  | .fabs e a d | .fneg e a d | .fsqrt _ e a d | .frcp _ e a d | .frsq _ e a d | .fexp2 _ e a d | .flog2 _ e a d
  | .fredAdd _ e a d | .fredMin e a d | .fredMax e a d => e.isFloat && vec2Ok a d
  | .ffma _ e c b a d | .ffms _ e c b a d | .ffnma _ e c b a d | .ffnms _ e c b a d =>
      e.isFloat && srcOk c && vec3Ok b a d
  | .vsel _ _ _ b a d => srcOk b && srcOk a && readDstOk d
  | .vperm _ b a d => vec3Ok b a d
  | .vbcast e n a d => n.toNat < e.count && vec2Ok a d
  | .vslide _ _ a d => vec2Ok a d
  | .fcvtFromFc _ e f a d | .fcvtToFc _ e f a d => e.isFloat && f.isFloat && vec2Ok a d
  | .icvtToInt _ e f a d | .icvtToFloat _ e f a d => e.isInt && f.isFloat && vec2Ok a d
  | .vpack e b a d => (e == .i16 || e == .i32 || e == .i64) && vec3Ok b a d
  | .xins e n _ d => n.toNat < e.count && readDstOk d
  | .xext e n a _ => n.toNat < e.count && srcOk a
  | .xmov a d => vec2Ok a d
  | .xli _ _ d | .xliHi _ d => dstOk d
  | .xliLo _ d => readDstOk d
  | .aread e _ _ _ => e.isFloat
  | .srd n _ | .swr n _ => sysRegOk n
  | .hint p => p != 0
  | .sig crc len => !(crc == 0xFFFFF && len == 0x3F)
  | .launchRecord s | .counterRecordAdd s | .counterRecordWait s | .invalidRecordType s => s < 4096
  | .continuationTake c s | .steal c s => c < 1024 && s < 8
  | .copyQueueGrant c | .matrixQueueGrant c | .matrixCommandStart c | .matrixCommandComplete c _ | .areadTileWrite c _
  | .slotRelease c _ | .engineStop c | .engineResume c => c < 64
  | .copyJobStart c e | .sectorLand c e _ | .engineEntryWrite c e _ => c < 64 && e < 64
  | .syscReply w _ _ | .translationInvalidation w _ _ | .worldKill w | .rekey w | .keySlotDestroy w
  | .worldKeyLoad w | .faultQueueDrain w | .pgfreeFramePush w => w < 64
  | .domainKill w d => w < 64 && d < 4096
  | .domainCreate w d => w < 64 && d.id < 4096
  | .keySweepLine w h => w < 64 && h < 16
  | .dlatchWrite d _ => d < 8
  | .linkFailure l | .linkRetrainComplete l => l < 32
  | .nelturFlit f => f.src < 4096 && f.dst < 4096 && f.world < 64 && f.gen < 4096 && f.target < Config.hbmBytes && f.op.fits
  | .uncorrectableError a => errorPlace a
  | .correctedError r => r.stack < 12 && r.pch < 384 && r.bank < 64 && r.row < 524288
  | _ => true

end Sys2Proof
end

