-- ==== Sys2Proof/Decode.lean ====
section
/-! DEFINITION. The decoder and the encoder of 32-bit words: the formats of 03_encoding R50 and the function codes of
R57-R74, with the fate of every word of R75. Bits that R75 never examines take no part; the encoder writes them as 0. -/

namespace Sys2Proof

/-- Why a word is no instruction (R75), and what the decoder says of fewer than four bytes. -/
inductive DecodeError where
  | truncated
  | illegalWord
  | reservedMajor
  | illegalFunction
  | illegalOperand
  deriving DecidableEq, Repr

/-- The five parts into which every format of R50 cuts a word: [31:21], [20:16], [15:11], [10:6], [5:0]. -/
structure Fields where
  top : BitVec 11
  b : RegNum
  a : RegNum
  d : RegNum
  maj : BitVec 6
  deriving DecidableEq, Repr

/-- The parts of a word. -/
def Fields.of (w : Word32) : Fields :=
  ⟨w.extractLsb' 21 11, w.extractLsb' 16 5, w.extractLsb' 11 5, w.extractLsb' 6 5, w.extractLsb' 0 6⟩

/-- The word of its parts. -/
def Fields.pack (f : Fields) : Word32 := f.top ++ (f.b ++ (f.a ++ (f.d ++ f.maj)))

/-! ## Field codes -/

/-- The ET codes of R53; 110 and 111 are illegal. -/
def ElemTy.ofCode (c : BitVec 3) : Option ElemTy :=
  match c.toNat with
  | 0 => some .f32 | 1 => some .bf16 | 2 => some .i8 | 3 => some .i16 | 4 => some .i32 | 5 => some .i64
  | _ => none

def ElemTy.code : ElemTy → BitVec 3
  | .f32 => 0 | .bf16 => 1 | .i8 => 2 | .i16 => 3 | .i32 => 4 | .i64 => 5

/-- The FC codes of R69. -/
def Fmt.ofCode (c : BitVec 5) : Option Fmt :=
  match c.toNat with
  | 0 => some .f32 | 1 => some .bf16 | 2 => some .e5m2 | 3 => some .e4m3 | 4 => some .e2m1 | 5 => some .t8
  | 6 => some .t6 | 8 => some .i8 | 9 => some .i16 | 10 => some .i32 | 11 => some .i64
  | _ => none

def Fmt.code : Fmt → BitVec 5
  | .f32 => 0 | .bf16 => 1 | .e5m2 => 2 | .e4m3 => 3 | .e2m1 => 4 | .t8 => 5 | .t6 => 6
  | .i8 => 8 | .i16 => 9 | .i32 => 10 | .i64 => 11

/-! ## Decoding, major by major -/

/-- A function code that its major does not assign. -/
def badFn : Except DecodeError Instr := .error .illegalFunction

/-- An operand code that its word marks illegal. -/
def badOp : Except DecodeError Instr := .error .illegalOperand

/-- S ≠ 0 is illegal on the words that take no shift (R57, R58). -/
def noShift (s : BitVec 4) (i : Instr) : Except DecodeError Instr := if s = 0 then .ok i else badOp

/-- Major 0x01 (R57). -/
def decInt (f : Fields) : Except DecodeError Instr :=
  let s := f.top.extractLsb' 7 4
  match (f.top.extractLsb' 0 7).toNat with
  | 0 => .ok (.add s f.b f.a f.d)
  | 1 => .ok (.sub s f.b f.a f.d)
  | 2 => noShift s (.mul f.b f.a f.d)
  | 3 => noShift s (.mulh f.b f.a f.d)
  | 4 => .ok (.and s f.b f.a f.d)
  | 5 => .ok (.or s f.b f.a f.d)
  | 6 => .ok (.xor s f.b f.a f.d)
  | 7 => noShift s (.shl f.b f.a f.d)
  | 8 => noShift s (.shr f.b f.a f.d)
  | 9 => noShift s (.sra f.b f.a f.d)
  | 10 => .ok (.min s f.b f.a f.d)
  | 11 => .ok (.max s f.b f.a f.d)
  | 12 => .ok (.slt s f.b f.a f.d)
  | 13 => .ok (.slo s f.b f.a f.d)
  | _ => badFn

/-- IMM13 or OFF13: [31:19]. -/
def Fields.imm13 (f : Fields) : BitVec 13 := f.top ++ f.b.extractLsb' 3 2

/-- F3 or CND: [18:16]. -/
def Fields.f3 (f : Fields) : BitVec 3 := f.b.extractLsb' 0 3

/-- IMM21 or OFF21: [31:11]. -/
def Fields.imm21 (f : Fields) : BitVec 21 := f.top ++ (f.b ++ f.a)

/-- Major 0x02 (R32, R57). -/
def decImm (f : Fields) : Except DecodeError Instr :=
  let i := f.imm13
  match f.f3.toNat with
  | 0 => .ok (.addi i f.a f.d)
  | 1 => .ok (.andi i f.a f.d)
  | 2 => .ok (.ori i f.a f.d)
  | 3 => .ok (.xori i f.a f.d)
  | 4 => .ok (.shli (i.extractLsb' 0 6) f.a f.d)
  | 5 => .ok (.shri (i.extractLsb' 0 6) f.a f.d)
  | 6 => .ok (.srai (i.extractLsb' 0 6) f.a f.d)
  | _ => .ok (.slti i f.a f.d)

/-- Major 0x04 (R58). -/
def decCap (f : Fields) : Except DecodeError Instr :=
  let s := f.top.extractLsb' 7 4
  match (f.top.extractLsb' 0 7).toNat with
  | 0 => noShift s (.cpbound f.b f.a f.d)
  | 1 => noShift s (.cpperm f.b f.a f.d)
  | 2 => noShift s (.cpaddr f.b f.a f.d)
  | 3 => noShift s (.cpinc f.b f.a f.d)
  | 4 => if s.extractLsb' 3 1 = 0 then .ok (.cpget (s.extractLsb' 0 3) f.a f.d) else badOp
  | 5 => noShift s (.cptest f.b f.a f.d)
  | 6 => noShift s (.cpmove f.a f.d)
  | _ => badFn

/-- Major 0x05 (R42, R50): A is [10:6] and B is [15:11]. -/
def decBranch (f : Fields) : Except DecodeError Instr :=
  let o := f.imm13
  match f.f3.toNat with
  | 0 => .ok (.beq o f.a f.d)
  | 1 => .ok (.bne o f.a f.d)
  | 2 => .ok (.blt o f.a f.d)
  | 3 => .ok (.bge o f.a f.d)
  | 4 => .ok (.blo o f.a f.d)
  | 5 => .ok (.bhs o f.a f.d)
  | 6 => .ok (.btag o f.d)
  | _ => .ok (.bnotag o f.d)

/-- Majors 0x06 and 0x07 (R59). -/
def decJump (f : Fields) : Except DecodeError Instr :=
  if f.d = 0 then .ok (.jmp f.imm21) else .ok (.call f.imm21 f.d)

def decJumpReg (f : Fields) : Except DecodeError Instr :=
  match (f.top.extractLsb' 0 7).toNat with
  | 0 => .ok (.callr f.a f.d)
  | 1 => .ok (.jmpr f.a)
  | 2 => .ok (.ret f.a)
  | _ => badFn

/-- Major 0x12 (R63): [31:28] hold ROP. -/
def decMred (f : Fields) : Except DecodeError Instr :=
  let l := f.top.extractLsb' 3 4
  let z := f.top.extractLsb' 0 3
  match (f.top.extractLsb' 7 4).toNat with
  | 0 => .ok (.mredAdd l z f.b f.a f.d)
  | 1 => .ok (.mredAnd l z f.b f.a f.d)
  | 2 => .ok (.mredOr l z f.b f.a f.d)
  | 3 => .ok (.mredXor l z f.b f.a f.d)
  | 4 => .ok (.mredMin l z f.b f.a f.d)
  | 5 => .ok (.mredMax l z f.b f.a f.d)
  | 6 => .ok (.mredMinUn l z f.b f.a f.d)
  | 7 => .ok (.mredMaxUn l z f.b f.a f.d)
  | 8 => .ok (.mredAddFloat l z f.b f.a f.d)
  | 9 => .ok (.mredMinFloat l z f.b f.a f.d)
  | 10 => .ok (.mredMaxFloat l z f.b f.a f.d)
  | _ => badFn

/-- Major 0x14 (R61): MODE 10 and 11 are illegal. -/
def decPage (f : Fields) : Except DecodeError Instr :=
  let z := f.top.extractLsb' 0 3
  match (f.top.extractLsb' 7 2).toNat with
  | 0 => .ok (.pgalloc (f.top.extractLsb' 3 4) z f.a f.d)
  | 1 => .ok (.pgfree z f.a)
  | _ => badOp

/-- Majors 0x18-0x1B (R64); LK is [27:24] and SC [24:23], which share bit 24 (R55). -/
def decCounter (f : Fields) : Except DecodeError Instr :=
  let fn := (f.top.extractLsb' 7 4).toNat
  let l := f.top.extractLsb' 3 4
  let s := f.top.extractLsb' 2 2
  let k := f.top.extractLsb' 0 2
  match f.maj.toNat, fn with
  | 0x18, 0 => .ok (.ctadd l s k f.b f.a f.d)
  | 0x19, 0 => .ok (.ctwait s k f.b f.a)
  | 0x19, 1 => .ok (.ctwaitt s k f.b f.a f.d)
  | 0x1A, 0 => .ok (.ctread l s k f.a f.d)
  | 0x1A, 1 => if k = 1 then .ok (.ctinit f.b f.a) else badOp
  | 0x1B, 0 => if k = 2 then .ok (.ctarr s f.a) else badOp
  | 0x1B, 1 => if k = 2 then .ok (.ctarrDrop s f.a) else badOp
  | 0x1B, 2 => if k = 2 then .ok (.ctarrJoin s f.a) else badOp
  | _, _ => badFn

/-- Major 0x1C (R65). -/
def decCopy (f : Fields) : Except DecodeError Instr :=
  match (f.top.extractLsb' 0 7).toNat with
  | 0 => .ok (.cpyj f.a)
  | 1 => .ok (.cpyq f.a f.d)
  | _ => badFn

/-- KA, KB, RM, ET and FN of the XR format (R50). -/
def Fields.ka (f : Fields) : Bool := f.top.getLsbD 10
def Fields.kb (f : Fields) : Bool := f.top.getLsbD 9
def Fields.rm (f : Fields) : BitVec 2 := f.top.extractLsb' 7 2
def Fields.un (f : Fields) : Bool := f.top.getLsbD 7
def Fields.et (f : Fields) : BitVec 3 := f.top.extractLsb' 4 3
def Fields.xfn (f : Fields) : BitVec 4 := f.top.extractLsb' 0 4

/-- KA and KB are illegal outside the list of R28 (R29). -/
def noKill (f : Fields) (i : Instr) : Except DecodeError Instr := if f.ka || f.kb then badOp else .ok i

/-- Major 0x20 (R66). RM is dropped in every row that does not read it, as R26, R53, R201 and R203 say; R222 calls a `vadd` with RM[28] = 1
and a `fmin` with RM 10 illegal all the same (DESIGN CHOICE, log entry 81). -/
def decVecInt (f : Fields) (e : ElemTy) : Except DecodeError Instr :=
  match f.xfn.toNat with
  | 0 => noKill f (.vadd e f.b f.a f.d)
  | 1 => noKill f (.vsub e f.b f.a f.d)
  | 2 => noKill f (.vmul e f.b f.a f.d)
  | 3 => noKill f (.vmulh f.un e f.b f.a f.d)
  | 4 => noKill f (.vmad e f.b f.a f.d)
  | 5 => noKill f (.vand e f.b f.a f.d)
  | 6 => noKill f (.vor e f.b f.a f.d)
  | 7 => noKill f (.vxor e f.b f.a f.d)
  | 8 => noKill f (.vshl e f.b f.a f.d)
  | 9 => noKill f (.vshr e f.b f.a f.d)
  | 10 => noKill f (.vsra e f.b f.a f.d)
  | 11 => .ok (.vmin f.ka f.kb f.un e f.b f.a f.d)
  | 12 => .ok (.vmax f.ka f.kb f.un e f.b f.a f.d)
  | 13 => noKill f (.vabs e f.a f.d)
  | 14 => noKill f (.vclz e f.a f.d)
  | _ => noKill f (.vpop e f.a f.d)

/-- Major 0x21 (R66). -/
def decFloat (f : Fields) (e : ElemTy) : Except DecodeError Instr :=
  match f.xfn.toNat with
  | 0 => noKill f (.fadd f.rm e f.b f.a f.d)
  | 1 => noKill f (.fsub f.rm e f.b f.a f.d)
  | 2 => noKill f (.fmul f.rm e f.b f.a f.d)
  | 3 => .ok (.fmin f.ka f.kb e f.b f.a f.d)
  | 4 => .ok (.fmax f.ka f.kb e f.b f.a f.d)
  | 5 => noKill f (.fabs e f.a f.d)
  | 6 => noKill f (.fneg e f.a f.d)
  | 7 => noKill f (.fsgn e f.b f.a f.d)
  | _ => badFn

/-- Major 0x22 (R62): the XF format, where ET 100 and 101 subtract C. -/
def decFused (f : Fields) : Except DecodeError Instr :=
  let neg := f.top.getLsbD 10
  let r := f.top.extractLsb' 8 2
  let c := f.top.extractLsb' 0 5
  match (f.top.extractLsb' 5 3).toNat with
  | 0 => .ok (if neg then .ffnma r .f32 c f.b f.a f.d else .ffma r .f32 c f.b f.a f.d)
  | 1 => .ok (if neg then .ffnma r .bf16 c f.b f.a f.d else .ffma r .bf16 c f.b f.a f.d)
  | 4 => .ok (if neg then .ffnms r .f32 c f.b f.a f.d else .ffms r .f32 c f.b f.a f.d)
  | 5 => .ok (if neg then .ffnms r .bf16 c f.b f.a f.d else .ffms r .bf16 c f.b f.a f.d)
  | _ => badOp

/-- Major 0x23 (R66). -/
def decRoot (f : Fields) (e : ElemTy) : Except DecodeError Instr :=
  match f.xfn.toNat with
  | 0 => noKill f (.fdiv f.rm e f.b f.a f.d)
  | 1 => noKill f (.fsqrt f.rm e f.a f.d)
  | 2 => noKill f (.frcp f.rm e f.a f.d)
  | 3 => noKill f (.frsq f.rm e f.a f.d)
  | 4 => noKill f (.fexp2 f.rm e f.a f.d)
  | 5 => noKill f (.flog2 f.rm e f.a f.d)
  | _ => badFn

/-- Major 0x24 (R67). -/
def decCompare (f : Fields) (e : ElemTy) : Except DecodeError Instr :=
  match f.xfn.toNat with
  | 0 => .ok (.vcmpEq f.ka f.kb f.un e f.b f.a f.d)
  | 1 => .ok (.vcmpNe f.ka f.kb f.un e f.b f.a f.d)
  | 2 => .ok (.vcmpLt f.ka f.kb f.un e f.b f.a f.d)
  | 3 => .ok (.vcmpLe f.ka f.kb f.un e f.b f.a f.d)
  | 4 => .ok (.vcmpGt f.ka f.kb f.un e f.b f.a f.d)
  | 5 => .ok (.vcmpGe f.ka f.kb f.un e f.b f.a f.d)
  | 6 => .ok (.fcmpEq f.ka f.kb e f.b f.a f.d)
  | 7 => .ok (.fcmpNe f.ka f.kb e f.b f.a f.d)
  | 8 => .ok (.fcmpLt f.ka f.kb e f.b f.a f.d)
  | 9 => .ok (.fcmpLe f.ka f.kb e f.b f.a f.d)
  | 10 => .ok (.fcmpGt f.ka f.kb e f.b f.a f.d)
  | 11 => .ok (.fcmpGe f.ka f.kb e f.b f.a f.d)
  | 12 => .ok (.fthrGe f.ka f.kb e f.b f.a f.d)
  | 13 => .ok (.fthrLt f.ka f.kb e f.b f.a f.d)
  | _ => badFn

/-- Major 0x25 (R68). -/
def decSelect (f : Fields) (e : ElemTy) : Except DecodeError Instr :=
  match f.xfn.toNat with
  | 0 => .ok (.vsel f.ka f.kb e f.b f.a f.d)
  | 1 => noKill f (.vperm e f.b f.a f.d)
  | 2 => noKill f (.vbcast e f.b f.a f.d)
  | 3 => noKill f (.vslide e f.b f.a f.d)
  | _ => badFn

/-- Major 0x26 (R69): B is FC but for `vpack`. -/
def decConvert (f : Fields) (e : ElemTy) : Except DecodeError Instr :=
  match f.xfn.toNat, Fmt.ofCode f.b with
  | 4, _ => noKill f (.vpack e f.b f.a f.d)
  | 0, some c => noKill f (.fcvtFromFc f.rm e c f.a f.d)
  | 1, some c => noKill f (.fcvtToFc f.rm e c f.a f.d)
  | 2, some c => noKill f (.icvtToInt f.rm e c f.a f.d)
  | 3, some c => noKill f (.icvtToFloat f.rm e c f.a f.d)
  | n, _ => if n < 5 then badOp else badFn

/-- Major 0x27 (R70). -/
def decReduce (f : Fields) (e : ElemTy) : Except DecodeError Instr :=
  match f.xfn.toNat with
  | 0 => noKill f (.vredAdd e f.a f.d)
  | 1 => noKill f (.vredMin f.un e f.a f.d)
  | 2 => noKill f (.vredMax f.un e f.a f.d)
  | 4 => noKill f (.fredAdd f.rm e f.a f.d)
  | 5 => noKill f (.fredMin e f.a f.d)
  | 6 => noKill f (.fredMax e f.a f.d)
  | _ => badFn

/-- Major 0x28 (R71). -/
def decMove (f : Fields) (e : ElemTy) : Except DecodeError Instr :=
  match f.xfn.toNat with
  | 0 => noKill f (.xins e f.b f.a f.d)
  | 1 => noKill f (.xext e f.b f.a f.d)
  | 2 => noKill f (.xmov f.a f.d)
  | _ => badFn

/-- Major 0x29, the XI format (R71): A[13:11] is an ET code and A[15:14] the placement. -/
def decXli (f : Fields) : Except DecodeError Instr :=
  let imm : BitVec 16 := f.top ++ f.b
  match ElemTy.ofCode (f.a.extractLsb' 0 3), (f.a.extractLsb' 3 2).toNat with
  | some e, 0 => .ok (.xli imm e f.d)
  | some _, 1 => .ok (.xliHi imm f.d)
  | some _, 2 => .ok (.xliLo imm f.d)
  | _, _ => badOp

/-- A tile number in a register field: 8-31 is illegal (R71, R72). -/
def tileNum (r : RegNum) (k : BitVec 3 → Instr) : Except DecodeError Instr :=
  if r.extractLsb' 3 2 = 0 then .ok (k (r.extractLsb' 0 3)) else badOp

/-- Major 0x2A (R71). -/
def decView (f : Fields) : Except DecodeError Instr :=
  match f.xfn.toNat with
  | 0 => noKill f (.xview f.b f.a f.d)
  | 1 => if f.ka || f.kb then badOp else tileNum f.d (.xshape f.a)
  | 2 => noKill f (.xflags f.a f.d)
  | _ => badFn

/-- Majors 0x30, 0x33 and 0x34 (R72). -/
def decMfmt (f : Fields) : Except DecodeError Instr :=
  if f.xfn = 0 then noKill f (.mfmt f.b f.a) else badFn

def decAread (f : Fields) : Except DecodeError Instr :=
  match f.xfn.toNat, f.et.toNat with
  | 0, 0 => if f.ka || f.kb then badOp else tileNum f.d (.aread .f32 f.b f.a)
  | 0, 1 => if f.ka || f.kb then badOp else tileNum f.d (.aread .bf16 f.b f.a)
  | 0, _ => badOp
  | _, _ => badFn

def decArel (f : Fields) : Except DecodeError Instr :=
  if f.xfn = 0 then noKill f (.arel f.a) else badFn

/-- Majors 0x31 and 0x32, the MM format (R50, R72). REM must be 0 in 0x31 and 1 in 0x32. -/
def decMma (f : Fields) : Except DecodeError Instr :=
  let l := f.top.extractLsb' 3 4
  let c : BitVec 4 := f.b.extractLsb' 1 4
  let y : BitVec 3 := f.b.extractLsb' 0 1 ++ f.a.extractLsb' 3 2
  let t : BitVec 3 := f.a.extractLsb' 0 3
  match f.maj.toNat, (f.top.extractLsb' 0 3).toNat with
  | 0x31, 0 => .ok (.mmaAcc c y t f.d)
  | 0x31, 1 => .ok (.mmaNew l c y t f.d)
  | 0x31, 2 => .ok (.mmaZero c f.d)
  | 0x32, 4 => .ok (.mmarAcc c y t f.d)
  | 0x32, 5 => .ok (.mmarNew l c y t f.d)
  | 0x32, 6 => .ok (.mmarZero c f.d)
  | _, _ => badOp

/-- Majors 0x36-0x3C, the SY format (R73): `top` is IMM11 and `b` is FN. -/
def decSystem (f : Fields) : Except DecodeError Instr :=
  match f.maj.toNat, f.b.toNat with
  | 0x36, 0 => .ok (.spawn (f.top.extractLsb' 3 4) f.a f.d)
  | 0x36, 1 => .ok (.exit f.a)
  | 0x36, 2 => .ok .yield
  | 0x37, 0 => .ok (.sysc f.top f.a f.d)
  | 0x37, 1 => .ok .step
  | 0x37, 2 => .ok (.allot f.a f.d)
  | 0x37, 3 => if f.top.extractLsb' 3 8 = 0 then .ok (.getid (f.top.extractLsb' 0 3) f.d) else badOp
  | 0x37, 4 => .ok (.time f.d)
  | 0x38, 0 => .ok (.gcall f.a)
  | 0x38, 1 => .ok .gret
  | 0x39, 0 => .ok (.gmake f.a f.d)
  | 0x39, 1 => .ok (if f.top.getLsbD 0 then .grevokeEject f.a else .grevoke f.a)
  | 0x39, 2 => if f.top.extractLsb' 2 9 = 0 then .ok (.dstat (f.top.extractLsb' 0 2) f.d) else badOp
  | 0x3A, 0 => .ok (if f.top.getLsbD 0 then .tretSkip else .tret)
  | 0x3A, 2 => .ok (.srd ((0 : BitVec 1) ++ f.top) f.d)
  | 0x3A, 3 => .ok (.srd ((1 : BitVec 1) ++ f.top) f.d)
  | 0x3A, 4 => .ok (.swr ((0 : BitVec 1) ++ f.top) f.a)
  | 0x3A, 5 => .ok (.swr ((1 : BitVec 1) ++ f.top) f.a)
  | 0x3B, 0 => .ok (.ctxst f.a f.d)
  | 0x3B, 1 => .ok (.ctxld f.a f.d)
  | 0x3B, 2 => .ok (.engrd f.top f.a f.d)
  | 0x3B, 3 => .ok (.engwr f.top f.a f.d)
  | 0x3C, 0 => .ok (.dbgstop f.top)
  | 0x3C, 1 => .ok (.haltg f.a f.d)
  | _, _ => badFn

/-- PAYLOAD of the HN format (R50). -/
def Fields.payload (f : Fields) : BitVec 26 := f.top ++ (f.b ++ (f.a ++ f.d))

/-- Majors 0x3E and 0x3F (R74, R381). -/
def decHint (f : Fields) : Except DecodeError Instr :=
  .ok (if f.payload = 0 then .nop else .hint f.payload)

def decSig (f : Fields) : Except DecodeError Instr :=
  .ok (.sig (f.payload.extractLsb' 6 20) (f.payload.extractLsb' 0 6))

/-- A word whose ET code must be an element type (R53). -/
def withEt (f : Fields) (k : ElemTy → Except DecodeError Instr) : Except DecodeError Instr :=
  match ElemTy.ofCode f.et with
  | some e => k e
  | none => badOp

/-- The major map (R56). -/
def decodeMajor (f : Fields) : Except DecodeError Instr :=
  match f.maj.toNat with
  | 0x00 => .error .illegalWord
  | 0x01 => decInt f
  | 0x02 => decImm f
  | 0x03 => .ok (.ahi f.imm21 f.d)
  | 0x04 => decCap f
  | 0x05 => decBranch f
  | 0x06 => decJump f
  | 0x07 => decJumpReg f
  | 0x08 => .ok (.enter f.imm13 f.f3)
  | 0x10 => .ok (.ld (f.top.extractLsb' 9 2) (f.top.extractLsb' 7 2) (f.top.extractLsb' 3 4) (f.top.extractLsb' 0 3) f.b f.a f.d)
  | 0x11 => .ok (.st (f.top.extractLsb' 9 2) (f.top.extractLsb' 7 2) (f.top.extractLsb' 0 3) f.b f.a f.d)
  | 0x12 => decMred f
  | 0x13 => .ok (.pref (f.top.extractLsb' 7 2) (f.top.extractLsb' 0 3) f.b f.a)
  | 0x14 => decPage f
  | 0x18 | 0x19 | 0x1A | 0x1B => decCounter f
  | 0x1C => decCopy f
  | 0x20 => withEt f (decVecInt f)
  | 0x21 => withEt f (decFloat f)
  | 0x22 => decFused f
  | 0x23 => withEt f (decRoot f)
  | 0x24 => withEt f (decCompare f)
  | 0x25 => withEt f (decSelect f)
  | 0x26 => withEt f (decConvert f)
  | 0x27 => withEt f (decReduce f)
  | 0x28 => withEt f (decMove f)
  | 0x29 => decXli f
  | 0x2A => decView f
  | 0x30 => decMfmt f
  | 0x31 | 0x32 => decMma f
  | 0x33 => decAread f
  | 0x34 => decArel f
  | 0x36 | 0x37 | 0x38 | 0x39 | 0x3A | 0x3B | 0x3C => decSystem f
  | 0x3E => decHint f
  | 0x3F => decSig f
  | _ => .error .reservedMajor

/-- The fate of a word (R75): its instruction, or the reason that it is illegal. -/
def decodeWord (w : Word32) : Except DecodeError Instr :=
  if w = 0xFFFFFFFF then .error .illegalWord
  else match decodeMajor (Fields.of w) with
    | .ok i => if i.wf then .ok i else .error .illegalOperand
    | .error e => .error e

/-- A word from its bytes, little-endian (R48). -/
def wordOfBytes (b0 b1 b2 b3 : Byte) : Word32 := b3 ++ (b2 ++ (b1 ++ b0))

/-- The bytes of a word, lowest address first (R48). -/
def bytesOfWord (w : Word32) : List Byte :=
  [w.extractLsb' 0 8, w.extractLsb' 8 8, w.extractLsb' 16 8, w.extractLsb' 24 8]

/-- The decoder: the instruction at the head of the bytes, and the bytes after it. -/
def decode : List Byte → Except DecodeError (Instr × List Byte)
  | b0 :: b1 :: b2 :: b3 :: rest =>
    match decodeWord (wordOfBytes b0 b1 b2 b3) with
    | .ok i => .ok (i, rest)
    | .error e => .error e
  | _ => .error .truncated

/-- The instruction whose bits are `w`, numbered as the opcode table numbers them. -/
def decodeTableWord (nbits w : Nat) : Option Instr :=
  match decode (bytesOfWord (BitVec.ofNat 32 (w % 2 ^ nbits))) with
  | .ok (i, _) => some i
  | .error _ => none

/-! ## Encoding -/

/-- A word of the AR format (R50). -/
def encAR (maj : BitVec 6) (fn : BitVec 7) (s : BitVec 4) (b a d : RegNum) : Fields := ⟨s ++ fn, b, a, d, maj⟩

/-- A word of the AI or BR format: the 13-bit immediate and the three-bit function. -/
def encAI (maj : BitVec 6) (fn : BitVec 3) (i : BitVec 13) (a d : RegNum) : Fields :=
  ⟨i.extractLsb' 2 11, i.extractLsb' 0 2 ++ fn, a, d, maj⟩

/-- A word of the AU or JL format. -/
def encAU (maj : BitVec 6) (i : BitVec 21) (d : RegNum) : Fields :=
  ⟨i.extractLsb' 10 11, i.extractLsb' 5 5, i.extractLsb' 0 5, d, maj⟩

/-- A word of the LS format; `hi` is QK and MODE, or ROP. -/
def encLS (maj : BitVec 6) (hi : BitVec 4) (l : BitVec 4) (z : BitVec 3) (b a d : RegNum) : Fields :=
  ⟨hi ++ (l ++ z), b, a, d, maj⟩

/-- A word of the CT format whose lookahead bits [27:25] are given with the scope. -/
def encCT (maj : BitVec 6) (fn : BitVec 4) (l : BitVec 3) (s k : BitVec 2) (b a d : RegNum) : Fields :=
  ⟨fn ++ (l ++ (s ++ k)), b, a, d, maj⟩

/-- A bit as a one-bit field. -/
def flag (x : Bool) : BitVec 1 := if x then 1 else 0

/-- A word of the XR format. -/
def encXR (maj : BitVec 6) (fn : BitVec 4) (ka kb : Bool) (r : BitVec 2) (et : BitVec 3) (b a d : RegNum) : Fields :=
  ⟨flag ka ++ (flag kb ++ (r ++ (et ++ fn))), b, a, d, maj⟩

/-- A word of the XF format. -/
def encXF (neg : Bool) (r : BitVec 2) (et : BitVec 3) (c b a d : RegNum) : Fields :=
  ⟨flag neg ++ (r ++ (et ++ c)), b, a, d, 0x22⟩

/-- A word of the XI format (R71). -/
def encXI (p : BitVec 2) (et : BitVec 3) (i : BitVec 16) (d : RegNum) : Fields :=
  ⟨i.extractLsb' 5 11, i.extractLsb' 0 5, p ++ et, d, 0x29⟩

/-- A word of the MM format. -/
def encMM (maj : BitVec 6) (l : BitVec 4) (m : BitVec 3) (c : BitVec 4) (y t : BitVec 3) (p : RegNum) : Fields :=
  ⟨(0 : BitVec 4) ++ (l ++ m), c ++ y.extractLsb' 2 1, y.extractLsb' 0 2 ++ t, p, maj⟩

/-- A word of the SY format. -/
def encSY (maj : BitVec 6) (fn : BitVec 5) (i : BitVec 11) (a d : RegNum) : Fields := ⟨i, fn, a, d, maj⟩

/-- A word of the HN format. -/
def encHN (maj : BitVec 6) (p : BitVec 26) : Fields :=
  ⟨p.extractLsb' 15 11, p.extractLsb' 10 5, p.extractLsb' 5 5, p.extractLsb' 0 5, maj⟩

/-- The RM bits of a word whose RM[28] is the `.un` bit (R53). -/
def unBits (u : Bool) : BitVec 2 := (0 : BitVec 1) ++ flag u

/-- ET of the fused family: 000 and 001 add C, 100 and 101 subtract it (R62). -/
def fusedEt (minus : Bool) (e : ElemTy) : BitVec 3 :=
  match e with
  | .bf16 => if minus then 5 else 1
  | _ => if minus then 4 else 0

/-- The fields of an instruction's word; an event has none and encodes to zeros. -/
def encodeFields : Instr → Fields
  | .add s b a d => encAR 0x01 0 s b a d
  | .sub s b a d => encAR 0x01 1 s b a d
  | .mul b a d => encAR 0x01 2 0 b a d
  | .mulh b a d => encAR 0x01 3 0 b a d
  | .and s b a d => encAR 0x01 4 s b a d
  | .or s b a d => encAR 0x01 5 s b a d
  | .xor s b a d => encAR 0x01 6 s b a d
  | .shl b a d => encAR 0x01 7 0 b a d
  | .shr b a d => encAR 0x01 8 0 b a d
  | .sra b a d => encAR 0x01 9 0 b a d
  | .min s b a d => encAR 0x01 10 s b a d
  | .max s b a d => encAR 0x01 11 s b a d
  | .slt s b a d => encAR 0x01 12 s b a d
  | .slo s b a d => encAR 0x01 13 s b a d
  | .addi i a d => encAI 0x02 0 i a d
  | .andi i a d => encAI 0x02 1 i a d
  | .ori i a d => encAI 0x02 2 i a d
  | .xori i a d => encAI 0x02 3 i a d
  | .shli i a d => encAI 0x02 4 ((0 : BitVec 7) ++ i) a d
  | .shri i a d => encAI 0x02 5 ((0 : BitVec 7) ++ i) a d
  | .srai i a d => encAI 0x02 6 ((0 : BitVec 7) ++ i) a d
  | .slti i a d => encAI 0x02 7 i a d
  | .ahi i d => encAU 0x03 i d
  | .cpbound b a d => encAR 0x04 0 0 b a d
  | .cpperm b a d => encAR 0x04 1 0 b a d
  | .cpaddr b a d => encAR 0x04 2 0 b a d
  | .cpinc b a d => encAR 0x04 3 0 b a d
  | .cpget s a d => encAR 0x04 4 ((0 : BitVec 1) ++ s) 0 a d
  | .cptest b a d => encAR 0x04 5 0 b a d
  | .cpmove a d => encAR 0x04 6 0 0 a d
  | .beq o b a => encAI 0x05 0 o b a
  | .bne o b a => encAI 0x05 1 o b a
  | .blt o b a => encAI 0x05 2 o b a
  | .bge o b a => encAI 0x05 3 o b a
  | .blo o b a => encAI 0x05 4 o b a
  | .bhs o b a => encAI 0x05 5 o b a
  | .btag o a => encAI 0x05 6 o 0 a
  | .bnotag o a => encAI 0x05 7 o 0 a
  | .jmp o => encAU 0x06 o 0
  | .call o d => encAU 0x06 o d
  | .callr a d => encAR 0x07 0 0 0 a d
  | .jmpr a => encAR 0x07 1 0 0 a 0
  | .ret a => encAR 0x07 2 0 0 a 0
  | .enter f w => encAI 0x08 w f 0 0
  | .ld q m l z b a d => encLS 0x10 (q ++ m) l z b a d
  | .st q m z b a d => encLS 0x11 (q ++ m) 0 z b a d
  | .mredAdd l z b a d => encLS 0x12 0 l z b a d
  | .mredAnd l z b a d => encLS 0x12 1 l z b a d
  | .mredOr l z b a d => encLS 0x12 2 l z b a d
  | .mredXor l z b a d => encLS 0x12 3 l z b a d
  | .mredMin l z b a d => encLS 0x12 4 l z b a d
  | .mredMax l z b a d => encLS 0x12 5 l z b a d
  | .mredMinUn l z b a d => encLS 0x12 6 l z b a d
  | .mredMaxUn l z b a d => encLS 0x12 7 l z b a d
  | .mredAddFloat l z b a d => encLS 0x12 8 l z b a d
  | .mredMinFloat l z b a d => encLS 0x12 9 l z b a d
  | .mredMaxFloat l z b a d => encLS 0x12 10 l z b a d
  | .pref m z b a => encLS 0x13 ((0 : BitVec 2) ++ m) 0 z b a 0
  | .pgalloc l z a d => encLS 0x14 0 l z 0 a d
  | .pgfree z a => encLS 0x14 1 0 z 0 a 0
  | .ctadd l s k b a d => encCT 0x18 0 (l.extractLsb' 1 3) s k b a d
  | .ctwait s k b a => encCT 0x19 0 0 s k b a 0
  | .ctwaitt s k b a d => encCT 0x19 1 0 s k b a d
  | .ctread l s k a d => encCT 0x1A 0 (l.extractLsb' 1 3) s k 0 a d
  | .ctinit b a => encCT 0x1A 1 0 0 1 b a 0
  | .ctarr s a => encCT 0x1B 0 0 s 2 0 a 0
  | .ctarrDrop s a => encCT 0x1B 1 0 s 2 0 a 0
  | .ctarrJoin s a => encCT 0x1B 2 0 s 2 0 a 0
  | .cpyj a => encAR 0x1C 0 0 0 a 0
  | .cpyq a d => encAR 0x1C 1 0 0 a d
  | .vadd e b a d => encXR 0x20 0 false false 0 e.code b a d
  | .vsub e b a d => encXR 0x20 1 false false 0 e.code b a d
  | .vmul e b a d => encXR 0x20 2 false false 0 e.code b a d
  | .vmulh u e b a d => encXR 0x20 3 false false (unBits u) e.code b a d
  | .vmad e b a d => encXR 0x20 4 false false 0 e.code b a d
  | .vand e b a d => encXR 0x20 5 false false 0 e.code b a d
  | .vor e b a d => encXR 0x20 6 false false 0 e.code b a d
  | .vxor e b a d => encXR 0x20 7 false false 0 e.code b a d
  | .vshl e b a d => encXR 0x20 8 false false 0 e.code b a d
  | .vshr e b a d => encXR 0x20 9 false false 0 e.code b a d
  | .vsra e b a d => encXR 0x20 10 false false 0 e.code b a d
  | .vmin ka kb u e b a d => encXR 0x20 11 ka kb (unBits u) e.code b a d
  | .vmax ka kb u e b a d => encXR 0x20 12 ka kb (unBits u) e.code b a d
  | .vabs e a d => encXR 0x20 13 false false 0 e.code 0 a d
  | .vclz e a d => encXR 0x20 14 false false 0 e.code 0 a d
  | .vpop e a d => encXR 0x20 15 false false 0 e.code 0 a d
  | .fadd r e b a d => encXR 0x21 0 false false r e.code b a d
  | .fsub r e b a d => encXR 0x21 1 false false r e.code b a d
  | .fmul r e b a d => encXR 0x21 2 false false r e.code b a d
  | .fmin ka kb e b a d => encXR 0x21 3 ka kb 0 e.code b a d
  | .fmax ka kb e b a d => encXR 0x21 4 ka kb 0 e.code b a d
  | .fabs e a d => encXR 0x21 5 false false 0 e.code 0 a d
  | .fneg e a d => encXR 0x21 6 false false 0 e.code 0 a d
  | .fsgn e b a d => encXR 0x21 7 false false 0 e.code b a d
  | .ffma r e c b a d => encXF false r (fusedEt false e) c b a d
  | .ffms r e c b a d => encXF false r (fusedEt true e) c b a d
  | .ffnma r e c b a d => encXF true r (fusedEt false e) c b a d
  | .ffnms r e c b a d => encXF true r (fusedEt true e) c b a d
  | .fdiv r e b a d => encXR 0x23 0 false false r e.code b a d
  | .fsqrt r e a d => encXR 0x23 1 false false r e.code 0 a d
  | .frcp r e a d => encXR 0x23 2 false false r e.code 0 a d
  | .frsq r e a d => encXR 0x23 3 false false r e.code 0 a d
  | .fexp2 r e a d => encXR 0x23 4 false false r e.code 0 a d
  | .flog2 r e a d => encXR 0x23 5 false false r e.code 0 a d
  | .vcmpEq ka kb u e b a d => encXR 0x24 0 ka kb (unBits u) e.code b a d
  | .vcmpNe ka kb u e b a d => encXR 0x24 1 ka kb (unBits u) e.code b a d
  | .vcmpLt ka kb u e b a d => encXR 0x24 2 ka kb (unBits u) e.code b a d
  | .vcmpLe ka kb u e b a d => encXR 0x24 3 ka kb (unBits u) e.code b a d
  | .vcmpGt ka kb u e b a d => encXR 0x24 4 ka kb (unBits u) e.code b a d
  | .vcmpGe ka kb u e b a d => encXR 0x24 5 ka kb (unBits u) e.code b a d
  | .fcmpEq ka kb e b a d => encXR 0x24 6 ka kb 0 e.code b a d
  | .fcmpNe ka kb e b a d => encXR 0x24 7 ka kb 0 e.code b a d
  | .fcmpLt ka kb e b a d => encXR 0x24 8 ka kb 0 e.code b a d
  | .fcmpLe ka kb e b a d => encXR 0x24 9 ka kb 0 e.code b a d
  | .fcmpGt ka kb e b a d => encXR 0x24 10 ka kb 0 e.code b a d
  | .fcmpGe ka kb e b a d => encXR 0x24 11 ka kb 0 e.code b a d
  | .fthrGe ka kb e b a d => encXR 0x24 12 ka kb 0 e.code b a d
  | .fthrLt ka kb e b a d => encXR 0x24 13 ka kb 0 e.code b a d
  | .vsel ka kb e b a d => encXR 0x25 0 ka kb 0 e.code b a d
  | .vperm e b a d => encXR 0x25 1 false false 0 e.code b a d
  | .vbcast e n a d => encXR 0x25 2 false false 0 e.code n a d
  | .vslide e n a d => encXR 0x25 3 false false 0 e.code n a d
  | .fcvtFromFc r e f a d => encXR 0x26 0 false false r e.code f.code a d
  | .fcvtToFc r e f a d => encXR 0x26 1 false false r e.code f.code a d
  | .icvtToInt r e f a d => encXR 0x26 2 false false r e.code f.code a d
  | .icvtToFloat r e f a d => encXR 0x26 3 false false r e.code f.code a d
  | .vpack e b a d => encXR 0x26 4 false false 0 e.code b a d
  | .vredAdd e a d => encXR 0x27 0 false false 0 e.code 0 a d
  | .vredMin u e a d => encXR 0x27 1 false false (unBits u) e.code 0 a d
  | .vredMax u e a d => encXR 0x27 2 false false (unBits u) e.code 0 a d
  | .fredAdd r e a d => encXR 0x27 4 false false r e.code 0 a d
  | .fredMin e a d => encXR 0x27 5 false false 0 e.code 0 a d
  | .fredMax e a d => encXR 0x27 6 false false 0 e.code 0 a d
  | .xins e n a d => encXR 0x28 0 false false 0 e.code n a d
  | .xext e n a d => encXR 0x28 1 false false 0 e.code n a d
  | .xmov a d => encXR 0x28 2 false false 0 0 0 a d
  | .xli i e d => encXI 0 e.code i d
  | .xliHi i d => encXI 1 0 i d
  | .xliLo i d => encXI 2 0 i d
  | .xview b a d => encXR 0x2A 0 false false 0 0 b a d
  | .xshape a n => encXR 0x2A 1 false false 0 0 0 a ((0 : BitVec 2) ++ n)
  | .xflags a d => encXR 0x2A 2 false false 0 0 0 a d
  | .mfmt b a => encXR 0x30 0 false false 0 0 b a 0
  | .mmaAcc c y t p => encMM 0x31 0 0 c y t p
  | .mmaNew l c y t p => encMM 0x31 l 1 c y t p
  | .mmaZero c p => encMM 0x31 0 2 c 0 0 p
  | .mmarAcc c y t p => encMM 0x32 0 4 c y t p
  | .mmarNew l c y t p => encMM 0x32 l 5 c y t p
  | .mmarZero c p => encMM 0x32 0 6 c 0 0 p
  | .aread e blk a d => encXR 0x33 0 false false 0 e.code blk a ((0 : BitVec 2) ++ d)
  | .arel a => encXR 0x34 0 false false 0 0 0 a 0
  | .spawn l a d => encSY 0x36 0 ((0 : BitVec 4) ++ (l ++ (0 : BitVec 3))) a d
  | .exit a => encSY 0x36 1 0 a 0
  | .yield => encSY 0x36 2 0 0 0
  | .sysc n a d => encSY 0x37 0 n a d
  | .step => encSY 0x37 1 0 0 0
  | .allot a d => encSY 0x37 2 0 a d
  | .getid sel d => encSY 0x37 3 ((0 : BitVec 8) ++ sel) 0 d
  | .time d => encSY 0x37 4 0 0 d
  | .gcall a => encSY 0x38 0 0 a 0
  | .gret => encSY 0x38 1 0 0 0
  | .gmake a d => encSY 0x39 0 0 a d
  | .grevoke a => encSY 0x39 1 0 a 0
  | .grevokeEject a => encSY 0x39 1 1 a 0
  | .dstat sel d => encSY 0x39 2 ((0 : BitVec 9) ++ sel) 0 d
  | .tret => encSY 0x3A 0 0 0 0
  | .tretSkip => encSY 0x3A 0 1 0 0
  | .srd n d => encSY 0x3A ((1 : BitVec 4) ++ n.extractLsb' 11 1) (n.extractLsb' 0 11) 0 d
  | .swr n a => encSY 0x3A ((2 : BitVec 4) ++ n.extractLsb' 11 1) (n.extractLsb' 0 11) a 0
  | .ctxst a d => encSY 0x3B 0 0 a d
  | .ctxld a d => encSY 0x3B 1 0 a d
  | .engrd n a d => encSY 0x3B 2 n a d
  | .engwr n a d => encSY 0x3B 3 n a d
  | .dbgstop n => encSY 0x3C 0 n 0 0
  | .haltg a d => encSY 0x3C 1 0 a d
  | .nop => encHN 0x3E 0
  | .hint p => encHN 0x3E p
  | .sig crc len => encHN 0x3F (crc ++ len)
  | _ => ⟨0, 0, 0, 0, 0⟩

/-- The word of a well-formed instruction. -/
def encode (i : Instr) : Word32 := (encodeFields i).pack

/-- The bytes of a well-formed instruction. -/
def encodeBytes (i : Instr) : List Byte := bytesOfWord (encode i)

end Sys2Proof
end

