-- ==== Sys2Proof/Machine/State.lean ====
section
/-! DEFINITION. The state of the Izerazen Z8 as plain data: one continuation's context, the hardware-owned
tables of worlds, partitions, clusters and the hub, and all memory. Reset is as 22_platform R408 leaves it before stage 1. -/

namespace Sys2Proof.Machine

open Sys2Proof

/-! ## One continuation -/

/-- A capability or an integer: 128 bits and the hidden tag (R78). -/
structure Cap where
  bits : Word128
  tag : Bool
  deriving DecidableEq, Repr

/-- A fault found away from the core, waiting for its delivery word (R364). `born` orders causing words. -/
structure Deferred where
  code : BitVec 8
  addr : Word64
  orig : Word64
  born : Nat
  deriving DecidableEq, Repr

/-- A queue entry: 64 bytes, and the mark of refused data (R89, R364). `ready` says that the word which pushed it has completed: an
execute-half word holds its stream entry until then (R186, R191). -/
structure QEntry where
  data : Vec512
  mark : Option Deferred
  ready : Bool
  deriving DecidableEq, Repr

/-- A register write that a lookahead word deferred (R93). While the result of a `.new` is still on its way, `cmd` is the unit's
entry that will bring it (R234). -/
structure PendWrite where
  reg : RegNum
  val : Option Cap
  mark : Option Deferred
  left : Nat
  cmd : Option Nat
  deriving DecidableEq, Repr

/-- A stream-frame entry (R191, R192). ECHO, DOFF, DKIND, DELIV, TOTAL, CAN, FROZEN, DREC and DCHK are the fields of R192; AGE is the
place in the list. The digit record is private to the device: the number `digits` names its contents, of which DCHK is the check
code; `new` are the window bytes that the entry's word writes, `old` what they replace. `flags` are PFLAGS, and VOID with
them: R192 keeps XFLAGS[4:0] there and says neither where a pending entry keeps VOID nor whether it accrues at the read or at
the completion; the model keeps it here and accrues it with the others (DESIGN CHOICE, log entry 8). -/
structure StreamEntry where
  echo : Word32
  doff : Nat
  dkind : BitVec 2
  deliv : Nat
  total : Nat
  can : Bool
  frozen : Bool
  drec : Nat
  digits : Nat
  dchk : Word64
  new : List Host.Cell
  old : List Host.Cell
  flags : BitVec 6
  deriving DecidableEq, Repr

/-- A window-stack record (R129); `mark` is the record of a gate, which no CDEPTH matches (R317). -/
structure WRec where
  base : Nat
  size : Nat
  depth : BitVec 32
  mark : Bool
  deriving DecidableEq, Repr

/-- The signature checker of R381. `inBlock`: a `sig` was loaded and its block runs; `landed`: the last word transferred. -/
structure Checker where
  inBlock : Bool
  crc : BitVec 20
  want : BitVec 20
  left : Nat
  sigPc : Word64
  landed : Bool
  deriving DecidableEq, Repr

/-- SWMASKn as the thread has it (R253); MEMBERS is derived from the group. -/
structure SwMask where
  span : BitVec 2
  member : Bool
  dropping : Bool
  deriving DecidableEq, Repr

/-- What the tree of a sward counter holds of a thread beside its count (R254): whether it counts in the group's minimum, and the count
that its drop had, where that drop has not yet taken effect. A replay leaves it as it stands (R387). -/
structure SwTree where
  member : Bool
  dropAt : Option Word64
  deriving DecidableEq, Repr

/-- A domain-stack entry (R318), with what a trap saves beside it (R328, R371): `sir` is the word at the entry, `deliv` the
deferred fault that the trap delivered. `gworld` is the world of GATE, and `hop` the hop record that a landing continuation's
entry answers (R326). -/
structure DomEntry where
  retpc : Word64
  ccode : Cap
  cdom : Nat
  cgen : Nat
  cworld : Nat
  far : Bool
  trap : Bool
  eject : Bool
  grace : Bool
  status : BitVec 8
  argw : Nat
  cwbase : Nat
  cfs : Nat
  ccdepth : BitVec 32
  allotIn : Nat
  gate : Nat
  gworld : Nat
  hop : Option Nat
  ggen : Nat
  edomain : Nat
  saved : Vector Cap 32
  cvbase : BitVec 9
  ctbase : BitVec 9
  ctstride : BitVec 9
  cxflags : BitVec 6
  clast : BitVec 8
  blim : Nat
  high : Nat
  frozen : List StreamEntry
  slq0 : List QEntry
  slq1 : List QEntry
  ssq0 : List QEntry
  ssq1 : List QEntry
  spend : List PendWrite
  smarks : NMap Deferred
  schecker : Checker
  sir : Word32
  deliv : Option Deferred
  deriving DecidableEq, Repr

/-- A counter that a word names (R97). A memory counter is named by the physical byte address of its line. -/
inductive CtrRef where
  | loc (k : BitVec 4)
  | mem (pa : Nat)
  | sward (n : BitVec 4)
  deriving DecidableEq, Repr

/-- What has become of a held wait at its home: nothing yet; met by an add that raised the value to `v` (R257); ended by its limit,
with the value read then (R257, R376); refused, with the fault code, since its line is no counter line any more (R258), cannot be
read (R390), or is a peer's of another generation (R407). -/
inductive Verdict where
  | held
  | met (v : Word64)
  | expired (v : Word64)
  | broken (code : BitVec 8)
  deriving DecidableEq, Repr

/-- A counter wait held at a home (R145, R256; dw5 and dw6 of R267). `cursor` is what TRAPADDR shows of it. `gen` is the generation that
the home of a peer's line has still to compare, where no path reached it when the word issued (R260, R407). -/
structure WaitReq where
  ctr : CtrRef
  thr : Word64
  limit : Option Nat
  dest : Option RegNum
  order : Nat
  cursor : Word64
  gen : Option (BitVec 12)
  since : Nat
  verdict : Verdict
  deriving DecidableEq, Repr

/-- Events that the spec says are logged for Moaly. -/
inductive LogEvent where
  | unassignedSlot (slot : Nat)
  | unknownType (slot : Nat)
  | latchDropped (die : Nat)
  | turnoverDropped
  | untrustedAccess (page : Nat)
  | slotRetired (cluster slot : Nat)
  | repairListFull
  | unbackedHost (offset : Nat)
  | farStoreDropped (address : Nat)
  | dieFailed (die : Nat)
  | portRefused (die world : Nat)
  | recordTruncated (t : Nat)
  | recordMismatch (t pos slot time : Nat)
  | unreadRecord (slot : Nat)
  deriving DecidableEq, Repr

/-- A fault as R363 and R364 describe it: code, TRAPADDR, the fault that is due where it is a deferred one, the page that a
PRI request asks for beside it, the page whose answer "not present" it used up (R344), whether it is an error of a save area,
whose route R392 gives, and the event that a port logs of it (R336). -/
structure FaultInfo where
  code : BitVec 8
  addr : Word64
  due : Option Deferred
  pri : Option (Nat × Nat)
  used : Option (Nat × Nat)
  save : Bool
  event : Option LogEvent
  deriving DecidableEq, Repr

/-- What a word that waits (R10) is waiting for; the word issues again when the wait is over. A thread that has found the
world's fault queue full keeps its fault, which is taken once the queue has room (R367). -/
inductive Stall where
  | ats (pasid page : Nat)
  | copyQueue (cluster order : Nat)
  | copyGranted (cluster : Nat)
  | matrixQueue (cluster order : Nat) (core : Option Nat)
  | matrixGranted (cluster : Nat) (core : Option Nat)
  | contLimit (order : Nat)
  | contGranted
  | ring (ticket : Nat)
  | sysc (dest : RegNum) (ticket : Nat)
  | boundary
  | faultQueue (f : FaultInfo)
  | recovery
  | revoke (world gate gen : Nat)
  | target (t : Nat)
  | arrival
  | peerPath (peer : Nat)
  | line (line : Nat)
  deriving DecidableEq, Repr

/-- The context block of R269, the resident window and the domain stack: all that a program sees of its thread. `told` names
the marks that a handler has passed over (R364, by `born`); `dgen` is the generation of the current domain under which the thread
stands in it (R310, R324). -/
structure Ctx where
  code : Cap
  regs : Vector Cap 32
  regMarks : NMap Deferred
  kctr : Vector Word64 16
  win : List Host.Cell
  wbase : Nat
  fs : Nat
  cdepth : BitVec 32
  wstack : List WRec
  spill : Nat
  vbase : BitVec 9
  tbase : BitVec 9
  tstride : BitVec 9
  tshape : Vector (BitVec 19) 8
  fmtWord : Word64
  tscale : BitVec 16
  xflags : BitVec 6
  stream : List StreamEntry
  lq0 : List QEntry
  lq1 : List QEntry
  sq0 : List QEntry
  sq1 : List QEntry
  pend : List PendWrite
  late : List Deferred
  told : List Nat
  checker : Checker
  trapCause : Word64
  trapAddr : Word64
  trapPc : Word64
  dstack : List DomEntry
  lastStatus : BitVec 8
  domain : Nat
  dgen : Nat
  allot : Nat
  swmask : Vector SwMask 16
  swcount : Vector Word64 16
  swtree : Vector SwTree 16
  sseq : BitVec 16
  stamped : Nat
  lastTime : Nat
  spawned : Nat
  ir : Word32
  deriving DecidableEq, Repr

/-- STATUS of a continuation record (R268). `vacant` is the model's own: no continuation stands here. -/
inductive Status where
  | vacant | ready | running | waiting | gated | done | faulted | killed
  deriving DecidableEq, Repr

/-- A value that a task log holds (R389). -/
structure TaskVal where
  val : Cap
  wide : Vec512
  deriving DecidableEq, Repr

/-- An entry of a task log: a value, or the fault that its word met away from the core, with its address as the value. -/
structure TaskEntry where
  val : TaskVal
  fault : BitVec 8
  deriving DecidableEq, Repr

/-- A `mmar` or a `cpyj` that one member of a redundant pair has had accepted and the other has not yet presented (R388): its word,
the card's bytes 0-175, the registers it read, and what the slot register received; `cmd` is the unit's entry that will bring
it where it is still on its way. -/
structure PairRec where
  word : Word32
  card : List Byte
  regs : List Cap
  reply : Option Cap
  cmd : Option Nat
  deriving DecidableEq, Repr

/-- The task log of a RESTARTABLE continuation (R389): the context at the log's start, the logged values, the bytes
they take, the count of effects; while it is re-run, the values still to give and the effects still to skip. -/
structure TaskLog where
  start : Ctx
  vals : List TaskEntry
  bytes : Nat
  effects : Nat
  reruns : Nat
  giving : List TaskEntry
  skip : Nat
  deriving DecidableEq, Repr

/-- What a record-mode log keeps of an input that arrives (R393): a counter value returned; a completion add of the thread's own work;
an answer for a page of the host; a reply of `sysc`; the return of a far call; the slot that a `.new` brought, or none; a matrix
unit or a copy engine that served the thread's request, or another's before it. -/
inductive Arrival where
  | counter (v : Word64)
  | completion (k : BitVec 4) (v : Word64)
  | answer (page : Nat)
  | reply (v : Word64)
  | back (status : BitVec 8)
  | slot (cluster : Nat) (n : Option Nat)
  | served (engine : Bool) (cluster : Nat)
  | passed (engine : Bool) (cluster : Nat)
  deriving DecidableEq, Repr

/-- A continuation (R267): its record and its context. `tid` is the model's own name for it; `cref` is the reference
that programs see (R290); `member` is 1 for the second member of a redundant pair (R388). `named` is dw1.CLUSTER and `cluster`
the cluster of its queue or slot; `ctxb` is dw7.CTXB; `overflow` says that its record stands in the overflow queue (R286);
`broken` and `logBroken` that its context block or its task log holds a broken line (R392); `captured` that a `ctxst` has suspended
it (R373). -/
structure Thread where
  tid : Nat
  cref : Word64
  member : Nat
  world : Nat
  baseDomain : Nat
  part : Nat
  launch : Option Nat
  status : Status
  level : BitVec 2
  cls : BitVec 2
  named : Nat
  cluster : Nat
  ctxb : Word64
  overflow : Bool
  broken : Bool
  logBroken : Bool
  captured : Bool
  record : Bool
  tunnelled : Bool
  paired : Bool
  restartable : Bool
  prio : Nat
  effLevel : Nat
  place : Option Nat
  spanPlace : Nat
  readyOrder : Nat
  readySince : Nat
  slotSince : Nat
  wait : Option WaitReq
  stall : Option Stall
  waitSince : Nat
  hop : Option Nat
  task : Option TaskLog
  recGiving : List Arrival
  pairOut : List PairRec
  exitStatus : Option (BitVec 8)
  ctx : Ctx
  deriving DecidableEq, Repr

/-- The area of a record-mode log (R393): the continuation as it was created, and the arrivals logged, oldest first. -/
structure RecArea where
  start : Thread
  log : List Arrival
  deriving DecidableEq, Repr

/-! ## Worlds -/

/-- STATE of a domain entry (R311). -/
inductive DomState where
  | free | live | dead | retired
  deriving DecidableEq, Repr

/-- A domain entry (R311), with the PASID that HOST accesses use (R344). -/
structure Domain where
  state : DomState
  gen : Nat
  trapGate : Option Nat
  ptroot : Nat
  root : Cap
  pasid : Nat
  deriving DecidableEq, Repr

/-- A gate-table entry (R315): the descriptor's copy, its generation and the threads that hold an entry through it. -/
structure Gate where
  live : Bool
  domain : Nat
  code : Cap
  root : Cap
  frameCap : Cap
  budget : Nat
  frame : Nat
  argw : Nat
  far : Bool
  pr : Bool
  gen : Nat
  count : Nat
  revoked : Bool
  retired : Bool
  deriving DecidableEq, Repr

/-- A request of the system-call ring (R288). -/
structure SyscReq where
  ticket : Nat
  n : BitVec 11
  arg : Cap
  domain : Nat
  tid : Nat
  cref : Word64
  part : Nat
  stepNo : Nat
  sseq : Nat
  deriving DecidableEq, Repr

/-- A host counter handle (R259, R288): the line it names. -/
structure CtrHandle where
  pa : Nat
  cursor : Word64
  deriving DecidableEq, Repr

/-- A registered program (R288, R277). -/
structure Prog where
  code : Cap
  domain : Nat
  deriving DecidableEq, Repr

/-- A fault-queue record of 32 bytes (R155, R367). -/
structure FaultRec where
  addr : Word64
  code : BitVec 8
  kind : BitVec 8
  cluster : BitVec 8
  unit : BitVec 8
  info : BitVec 32
  ref : Word64
  time : Word64
  deriving DecidableEq, Repr

/-- A frame on its way back to its stack after `pgfree` (R142). -/
structure FreeFrame where
  frame : Nat
  size : BitVec 2
  deriving DecidableEq, Repr

/-- STATE of a key slot (R334). -/
inductive KeyState where
  | empty | active | rekeying | destroying
  deriving DecidableEq, Repr

/-- A world: its domains, gates, page tables, stacks, rings, handles, images, fault queue and key slot. `keyLoad` names the assignment of
keys, which a rekey does not change. -/
structure World where
  domains : NMap Domain
  gates : NMap Gate
  ptes : NMap Word64
  free64k : List Nat
  free32m : List Nat
  free16g : List Nat
  freeing : List FreeFrame
  contLimit : Nat
  ringTail : Nat
  ringFree : Nat
  ring : List SyscReq
  ctrHandles : NMap CtrHandle
  capHandles : NMap Cap
  progs : NMap Prog
  nextTicket : Nat
  images : NMap Thread
  faultQ : List FaultRec
  sigCheck : Bool
  landing : Option Nat
  keyState : KeyState
  keyEpoch : BitVec 8
  keyId : Nat
  keyLoad : Nat
  oldKeyId : Option Nat
  sweeps : Vector Nat 16
  swept : BitVec 16
  deriving DecidableEq, Repr

/-! ## Partitions -/

/-- Where a partition stands in a switch (R298, R299). -/
inductive Phase where
  | active | announced | stopped | entering | shadow | saved
  deriving DecidableEq, Repr

/-- An undo-log line (R384): a 64-byte line as it stood at the boundary. -/
structure UndoLine where
  line : Nat
  cells : List Host.Cell
  tags : List Nat
  deriving DecidableEq, Repr

/-- A page snapshot (R384): a 4 KiB page of cluster memory as it stood at the boundary. -/
structure PageSnap where
  page : Nat
  cells : List Host.Cell
  tags : List Nat
  deriving DecidableEq, Repr

/-- An accumulator slot (R223, R231): SINC, who holds it, its elements other than +0. `next` is one past the last incarnation that the
slot has had, those that stand in save areas among them (R240). -/
structure MSlot where
  sinc : BitVec 46
  next : Nat
  used : Bool
  retired : Bool
  world : Nat
  domain : Nat
  gen : Nat
  core : Option Nat
  part : Nat
  elems : NMap (BitVec 32)
  deriving DecidableEq, Repr

/-- A slot as it stood before its first modification in a step (R240, R384). -/
structure SlotSnap where
  cluster : Nat
  slot : Nat
  val : MSlot
  deriving DecidableEq, Repr

/-- A byte range of physical memory. -/
structure Range where
  base : Nat
  len : Nat
  deriving DecidableEq, Repr

/-- A detected error waiting for the partition's recovery (R383, R386). `cref` and `member` name the thread, which a replay may
create again; `save` marks an error of a save area, whose route R392 gives; `replay` says that the step was restartable when the
error was detected (R385). -/
structure StepError where
  code : BitVec 8
  tid : Nat
  pc : Word64
  cref : Word64
  member : Nat
  save : Bool
  replay : Bool
  deriving DecidableEq, Repr

/-- A child that a step has created (R387, R388): its parent's reference, its place among the parent's spawns, its own reference, and
whether the step as it now runs has made it already. -/
structure Reborn where
  parent : Word64
  nth : Nat
  ref : Word64
  made : Bool
  deriving DecidableEq, Repr

/-- STATE of a copy job (R156). -/
inductive JobState where
  | queued | running | paused | done | faulted
  deriving DecidableEq, Repr

/-- A queue entry of a copy engine: its copy of the card (R150, R153), its progress, its stamp (R387, R397). After a resume the
sectors below `ascendTo` land in ascending order (R155). `owed`: its record waits for an entry of the fault queue (R367). -/
structure Job where
  state : JobState
  card : List Byte
  srcTag : Bool
  dstTag : Bool
  ccapTag : Bool
  landed : List Nat
  ascendTo : Nat
  owed : Bool
  fault : BitVec 8
  faultAddr : Word64
  faultKind : BitVec 8
  bmap : Word64
  order : Nat
  cardAddr : Word64
  tid : Nat
  cref : Word64
  world : Nat
  domain : Nat
  gen : Nat
  part : Nat
  stepNo : Nat
  sseq : Nat
  deps : List Nat
  readFoot : List Range
  writeFoot : List Range
  deriving DecidableEq, Repr

/-- A queue entry of a copy engine in the partition's save area (R298, R300). -/
structure SavedJob where
  cluster : Nat
  entry : Nat
  job : Job
  deriving DecidableEq, Repr

/-- What a core's banks hold of halt groups while its partition is switched out (R376). -/
structure SavedCore where
  cluster : Nat
  core : Nat
  groups : BitVec 8
  stopped : BitVec 8
  halted : Bool
  stop : Nat
  deriving DecidableEq, Repr

/-- A partition (R298), its step (R294) and its step records (R384, R385). `savedSlots` are the accumulator slots in its save area
(R240). `saveBroken` says that its save area holds a broken line,
`recordsBroken` that its step records do (R392). -/
structure Partition where
  world : Nat
  clusters : List Nat
  phase : Phase
  switchAt : Nat
  incoming : Option Nat
  stepNo : Nat
  launches : Nat
  keeps : Bool
  restartable : Bool
  errors : List StepError
  repeated : List StepError
  stopped : Bool
  restored : Bool
  snaps : List Thread
  pages : List PageSnap
  undo : List UndoLine
  slotSnaps : List SlotSnap
  storeGranules : List Nat
  mredGranules : List Nat
  readRanges : List Range
  writeRanges : List Range
  created : List Nat
  reborn : List Reborn
  saveBroken : Bool
  recordsBroken : Bool
  exited : List Thread
  reports : List (Nat × BitVec 8)
  dbgen : Bool
  folds : List Flit
  savedJobs : List SavedJob
  savedCores : List SavedCore
  savedSlots : List SlotSnap
  deriving DecidableEq, Repr

/-! ## Clusters -/

/-- What a matrix unit's accepted entry does. -/
inductive MKind where
  | acc | new | zero | aread | arel
  deriving DecidableEq, Repr

/-- The operands of an accepted command: shapes, formats and the tile bytes the unit took (R227, R234). -/
structure MShape where
  m : Nat
  n : Nat
  k : Nat
  fa : Fmt
  fb : Fmt
  blk : Nat
  scale : Option Fmt
  deriving DecidableEq, Repr

/-- An entry accepted by a matrix unit, in its slot's order (R105, R234). For a remote command `aAddr` and `bAddr` are the
physical addresses of the operand bytes, read when the command starts (R236). `sinc` is the incarnation of the slot that it acts on
(R231). A `queued` command is a `.new` that waits for a free entry while its thread goes on (R234). -/
structure MCmd where
  id : Nat
  pc : Word64
  queued : Bool
  kind : MKind
  tid : Nat
  core : Option Nat
  world : Nat
  domain : Nat
  part : Nat
  cref : Word64
  slot : Option Nat
  sinc : BitVec 46
  shape : MShape
  aBytes : List Byte
  bBytes : List Byte
  saBytes : List Byte
  sbBytes : List Byte
  aAddr : Option Nat
  bAddr : Option Nat
  kctr : BitVec 4
  tile : BitVec 3
  tileOff : Nat
  rows : Nat
  cols : Nat
  blkIdx : Nat
  outFmt : Fmt
  ts : BitVec 16
  started : Bool
  deriving DecidableEq, Repr

/-- A copy engine (R153, R375). -/
structure Engine where
  entries : NMap Job
  stop : Bool
  stopped : Bool
  nextOrder : Nat
  deriving DecidableEq, Repr

/-- A matrix unit (R223): its slots other than those as at reset, and its accepted entries. -/
structure MUnit where
  slots : NMap MSlot
  cmds : List MCmd
  lastCore : Nat
  deriving DecidableEq, Repr

/-- A core (R271, R377); `stop` is the model's own name of the debug stop that halted it (R376). -/
structure Core where
  offered : Nat
  groups : BitVec 8
  stopped : BitVec 8
  halted : Bool
  stop : Nat
  idleSince : Nat
  deriving DecidableEq, Repr

/-- A run of cluster memory that a launch holds (R278), in 64 KiB units. -/
structure Alloc where
  unit : Nat
  count : Nat
  world : Nat
  domain : Nat
  launch : Nat
  deriving DecidableEq, Repr

/-- A cluster (R12). `former` names, for a unit of 64 KiB that no launch holds, the domain whose launch held it last (R309, R312). -/
structure Cluster where
  mat : MUnit
  engine : Engine
  cores : NMap Core
  allocs : List Alloc
  former : NMap Nat
  deriving DecidableEq, Repr

/-! ## The hub -/

/-- DLATCHn (R335). -/
structure DLatch where
  latched : Bool
  clean : Bool
  world : Nat
  deriving DecidableEq, Repr

/-- A launch in progress (R274-R278). `todo` are the roots that wait for the world's continuation limit (R286); `started` says
that the start counter has been added to; `status` is decided when the done counter reaches TARGET or the last continuation ends.
-/
structure Launch where
  id : Nat
  slot : Nat
  roots : Nat
  startPa : Nat
  todo : List Thread
  started : Bool
  go : Word64
  world : Nat
  domain : Nat
  part : Nat
  restartable : Bool
  donePa : Nat
  target : Nat
  cpos : Nat
  firstExit : BitVec 8
  status : Option (BitVec 8)
  written : Bool
  deriving DecidableEq, Repr

/-- A record as it stood when its go store arrived (R273); `held` holds launch records for a switched-out partition or a world
at its limit (R280, R301). -/
structure HeldRecord where
  slot : Nat
  bytes : List Byte
  deriving DecidableEq, Repr

/-- A wait that the host registered by a counter record (R259). -/
structure HostWait where
  id : Nat
  pa : Nat
  thr : Word64
  limit : Option Nat
  reply : Nat
  world : Nat
  verdict : Verdict
  deriving DecidableEq, Repr

/-- An expander of a second-tier port (R405): the part of the port's offsets that it backs, while it is present. -/
structure Expander where
  port : Nat
  base : Nat
  size : Nat
  present : Bool
  deriving DecidableEq, Repr

/-- What a flit that this package sends carries (R406): a request for a place of the destination's window, with the generation that its
capability bears (R407), the number of the sector that an add counts (R387) and the operation with its data, or the answer to one of the
destination's. -/
inductive SentBody where
  | request (gen target : Nat) (sector : Option Nat) (op : FlitOp)
  | answer (cref : Word64) (value : Word64) (fault : BitVec 8)
  | bytes (cref : Word64) (data : List Byte) (fault : BitVec 8)
  deriving DecidableEq, Repr

/-- A flit that this package has sent (R406): the source and the destination peer id, the world, the number in the sequence to that
destination, the stamp. -/
structure SentFlit where
  src : Nat
  dst : Nat
  seq : Nat
  world : Nat
  cref : Word64
  stepNo : Nat
  sseq : Nat
  body : SentBody
  deriving DecidableEq, Repr

/-- A peer's wait that a home here holds (R259, R260); `order` is its place in arrival order. -/
structure PeerWait where
  src : Nat
  order : Nat
  cref : Word64
  world : Nat
  pa : Nat
  thr : Word64
  limit : Option Nat
  verdict : Verdict
  deriving DecidableEq, Repr

/-- A hop record on its way through the gate switch (R326, R327). -/
structure Hop where
  id : Nat
  caller : Nat
  gateWorld : Nat
  gate : Nat
  grant : Nat
  cworld : Nat
  cdom : Nat
  argw : Nat
  args : List Cap
  window : List Byte
  landing : Option Nat
  back : Bool
  remain : Nat
  status : BitVec 8
  orphan : Bool
  deriving DecidableEq, Repr

/-- A kill whose homes have not all acknowledged (R106, R347); `domain = none` kills the whole world. -/
structure Kill where
  id : Nat
  world : Nat
  domain : Option Nat
  homes : List Home
  deriving DecidableEq, Repr

/-- A sheaf entry (R387). `sseq` counts the thread's stamps in the step, past the 16 bits of dw7.SSEQ too. `sectors` are the
sectors of an engine's byte adds already recorded. -/
structure SheafEntry where
  world : Nat
  part : Nat
  cref : Word64
  stepNo : Nat
  sseq : Nat
  maj : BitVec 8
  func : BitVec 8
  operand : Word64
  result : Word64
  fault : BitVec 8
  second : Bool
  sectors : List Nat
  deriving DecidableEq, Repr

/-- A cached translation of the hub (R344). -/
structure AtcEntry where
  pasid : Nat
  page : Nat
  frame : Nat
  canRead : Bool
  canWrite : Bool
  deriving DecidableEq, Repr

/-- The seal of a line (R337): the world and the key it was sealed under. -/
structure Seal where
  world : Nat
  key : Nat
  deriving DecidableEq, Repr

/-- Where a hub register access stands (R352): what the last read returned to its requester. -/
structure HubReply where
  page : Nat
  offset : Nat
  value : Word64
  deriving DecidableEq, Repr

/-- The hub die: bring-up, latches, turnover, attestation, repair, command window, host translation, links, kills. `compWorld` is the
seal of an entry of the completion area (R337); `atsStale` are requests that an invalidation or a kill has overtaken, whose answers are
ignored (R346, R347); `hostReply` is what the host's last read of the region brought back, nothing where
the data was refused; `peerPaths` are the links from which a peer id is reached. -/
structure Hub where
  stage : Nat
  stackOk : BitVec 12
  degraded : Bool
  failed : Bool
  measured : Bool
  started : Bool
  dlatch : Vector DLatch 8
  turnCmd : Nat
  turnWorld : Nat
  turnStage : Nat
  turnBusy : Bool
  turnDone : Bool
  turnFail : BitVec 8
  turnStart : Nat
  turnElapsed : Nat
  attNonce : BitVec 512
  attWorld : Nat
  attGo : Bool
  attReport : List Byte
  fwMeas : BitVec 512
  cfgMeas : BitVec 512
  turns : Nat
  repairList : List Word64
  corrections : List (HbmRow × Nat)
  quiesced : List HbmRow
  spared : List HbmRow
  slotPart : NMap Nat
  goPending : List HeldRecord
  held : List HeldRecord
  atc : List AtcEntry
  noAnswer : List (Nat × Nat)
  priOut : List (Nat × Nat)
  priFailed : List (Nat × Nat)
  priQueue : List (Nat × Nat)
  atsOut : List (Nat × Nat)
  atsStale : List (Nat × Nat)
  invOut : List (Nat × Nat)
  hops : List Hop
  farFrames : NMap (Nat × Nat)
  expanders : List Expander
  share : NMap (Nat × Nat)
  compWorld : NMap Seal
  hostReply : Option (List Byte)
  links : BitVec 32
  peerPaths : NMap (BitVec 32)
  peerSeq : NMap Nat
  peerEarly : List Flit
  peerWaits : List PeerWait
  sentSeq : NMap Nat
  sent : List SentFlit
  reply : Option HubReply
  clockMhz : Nat
  kills : List Kill
  log : List LogEvent
  deriving DecidableEq, Repr

/-- Whose group value a sward counter holds (R253, R254): launch, counter, span and the span's place. -/
structure SwKey where
  launch : Nat
  n : Nat
  span : BitVec 2
  place : Nat
  deriving DecidableEq, Repr

/-- A member of a sward group whose thread has exited: it stays a member until the group value reaches the count of its drop (R254,
R291). -/
structure Leaver where
  key : SwKey
  count : Word64
  dropAt : Word64
  world : Nat
  cref : Word64
  deriving DecidableEq, Repr

/-! ## The machine -/

/-- The whole machine. `thr` is the continuation whose word issues next and `rest` are the others; memory is one list of
cells over the physical address spaces of Machine/Mem.lean, zero where nothing is listed. `inputs` are events that the
outside world brings, oldest first; `tick` counts the free values already used (both the model's own). -/
structure State where
  thr : Thread
  rest : List Thread
  mem : List Host.Cell
  tags : List Nat
  ctrLines : List Nat
  poison : List Nat
  broken : List Nat
  seals : NMap Seal
  worlds : NMap World
  parts : NMap Partition
  clusters : NMap Cluster
  hub : Hub
  launches : List Launch
  hostWaits : List HostWait
  sheaf : List SheafEntry
  swards : List (SwKey × Word64)
  leavers : List Leaver
  recAreas : NMap RecArea
  now : Nat
  cycle : Nat
  inputs : List Instr
  tick : Nat
  nextId : Nat
  deriving DecidableEq, Repr

/-! ## Values at reset -/

/-- The null capability: all zeros, tag clear (R78). -/
def Cap.null : Cap := ⟨0, false⟩

/-- A checker with no block loaded. -/
def Checker.idle : Checker := ⟨false, 0, 0, 0, 0, false⟩

/-- SWMASK with no group (R253). -/
def SwMask.none : SwMask := ⟨0, false, false⟩

/-- A tree that holds no member (R254). -/
def SwTree.none : SwTree := ⟨false, Option.none⟩

/-- The context of a new continuation before its creator fills it (R129, R277, R290). -/
def Ctx.empty : Ctx :=
  { code := Cap.null, regs := Vector.replicate 32 Cap.null, regMarks := [], kctr := Vector.replicate 16 0, win := [],
    wbase := 0, fs := 0, cdepth := 0, wstack := [], spill := 0, vbase := 0, tbase := 0, tstride := 0,
    tshape := Vector.replicate 8 0, fmtWord := 0, tscale := 0, xflags := 0, stream := [], lq0 := [], lq1 := [],
    sq0 := [], sq1 := [], pend := [], late := [], told := [], checker := Checker.idle, trapCause := 0, trapAddr := 0, trapPc := 0,
    dstack := [], lastStatus := 0, domain := 0, dgen := 0, allot := 0, swmask := Vector.replicate 16 SwMask.none,
    swcount := Vector.replicate 16 0, swtree := Vector.replicate 16 SwTree.none, sseq := 0, stamped := 0, lastTime := 0, spawned := 0, ir := 0 }

/-- No continuation. -/
def Thread.vacant : Thread :=
  { tid := 0, cref := 0, member := 0, world := 0, baseDomain := 0, part := 0, launch := none, status := .vacant,
    level := 0, cls := 0, named := 0, cluster := 0, ctxb := 0, overflow := false, broken := false, logBroken := false
    captured := false, record := false, tunnelled := false, paired := false, restartable := false,
    prio := 0, effLevel := 0, place := none, spanPlace := 0, readyOrder := 0, readySince := 0,
    slotSince := 0, wait := none, stall := none, waitSince := 0, hop := none,
    task := none, recGiving := [], pairOut := [], exitStatus := none, ctx := Ctx.empty }

/-- A world with nothing in it and an empty key slot (R310, R315, R334). -/
def World.empty : World :=
  { domains := [], gates := [], ptes := [], free64k := [], free32m := [], free16g := [], freeing := [],
    contLimit := 0, ringTail := 0, ringFree := 0, ring := [], ctrHandles := [], capHandles := [], progs := [],
    nextTicket := 0, images := [], faultQ := [], sigCheck := false, landing := none, keyState := .empty, keyEpoch := 0,
    keyId := 0, keyLoad := 0, oldKeyId := none, sweeps := Vector.replicate 16 0, swept := 0 }

/-- A domain entry never created (R310, R311). -/
def Domain.free : Domain := ⟨.free, 0, none, 0, Cap.null, 0⟩

/-- A gate entry never used (R315). -/
def Gate.free : Gate :=
  { live := false, domain := 0, code := Cap.null, root := Cap.null, frameCap := Cap.null, budget := 0, frame := 0,
    argw := 0, far := false, pr := false, gen := 0, count := 0, revoked := false, retired := false }

/-- A slot at SINC 0 on the free list (R231). -/
def MSlot.free : MSlot := ⟨0, 0, false, false, 0, 0, 0, none, 0, []⟩

/-- A core that offers its eight slots. R15 and R271 say that a repaired core offers fewer and give no number for any core: that
every core starts with eight, at reset as well, is a DESIGN CHOICE (log entry 64). -/
def Core.idle : Core := ⟨8, 0, 0, false, 0, 0⟩

/-- A cluster with nothing accepted and nothing allocated. -/
def Cluster.empty : Cluster := ⟨⟨[], [], 0⟩, ⟨[], false, false, 0⟩, [], [], []⟩

/-- A partition that Moaly has not formed. -/
def Partition.empty : Partition :=
  { world := 0, clusters := [], phase := .saved, switchAt := 0, incoming := none, stepNo := 0, launches := 0,
    keeps := false, restartable := false, errors := [], repeated := [], stopped := false, restored := false,
    snaps := [], pages := [], undo := [], slotSnaps := [], storeGranules := [], mredGranules := [], readRanges := [],
    writeRanges := [], created := [], reborn := [], saveBroken := false, recordsBroken := false, exited := [], reports := [], dbgen := false, folds := [],
    savedJobs := [], savedCores := [], savedSlots := [] }

/-- The hub before bring-up stage 1 (R334, R335, R353, R408, R409). -/
def Hub.reset : Hub :=
  { stage := 0, stackOk := 0, degraded := false, failed := false, measured := false, started := false,
    dlatch := Vector.replicate 8 ⟨false, true, 0⟩, turnCmd := 0, turnWorld := 0, turnStage := 0, turnBusy := false,
    turnDone := false, turnFail := 0, turnStart := 0, turnElapsed := 0, attNonce := 0, attWorld := 0, attGo := false,
    attReport := [], fwMeas := 0, cfgMeas := 0, turns := 0, repairList := [], corrections := [], quiesced := [],
    spared := [], slotPart := [], goPending := [], held := [], atc := [], noAnswer := [], priOut := [],
    priFailed := [], priQueue := [], atsOut := [], atsStale := [], invOut := [], hops := [], farFrames := [], expanders := [], share := [],
    compWorld := [], hostReply := none, links := 0, peerPaths := [], peerSeq := [], peerEarly := [], peerWaits := [], sentSeq := [],
    sent := [], reply := none, clockMhz := 4000, kills := [], log := [] }

/-- The machine right after reset is released (R408): bring-up has completed no stage, no world is live, no continuation
exists, nothing is listed in memory. -/
def State.reset : State :=
  { thr := Thread.vacant, rest := [], mem := [], tags := [], ctrLines := [], poison := [], broken := [], seals := [],
    worlds := [], parts := [], clusters := [], hub := Hub.reset, launches := [], hostWaits := [], sheaf := [],
    swards := [], leavers := [], recAreas := [], now := 0, cycle := 0, inputs := [], tick := 0, nextId := 1 }

/-! ## How a step can stop -/

/-- The machine stops. -/
inductive Fault where
  /-- Raised by `step` when bring-up has stopped at stage 1 or 2 (BOOTSTAT.FAILED, R408) and no input is waiting.
  Safe: the spec lets nothing happen until the next reset. -/
  | bringUpStopped
  deriving DecidableEq, Repr

/-- No meaning for what was asked. -/
inductive Refusal where
  /-- Raised by an arm of `exec` whose instruction has no meaning yet. Safe. -/
  | notModelled (mnemonic : String)
  deriving DecidableEq, Repr

end Sys2Proof.Machine
end

