-- ==== Sys2Proof/Machine/Maps.lean ====
section
/-! DEFINITION. Operations over the sorted lists that hold sparse state: byte cells, keyed maps, sets of numbers, and the
little-endian order of bytes (00_scope R7). -/

namespace Sys2Proof.Machine

open Sys2Proof

/-! ## Byte cells: an unlisted address holds 0, and no listed byte is 0 -/

/-- The canonical form of cells whose addresses are at least `lo`. -/
def Cells.wfFrom : Nat → List Host.Cell → Bool
  | _, [] => true
  | lo, (a, v) :: r => lo ≤ a && v != 0 && Cells.wfFrom (a + 1) r

/-- The canonical form: addresses strictly rising, no entry equal to what an unlisted address reads as. -/
def Cells.wf (m : List Host.Cell) : Bool := Cells.wfFrom 0 m

/-- What an address reads as where nothing is listed (log entry 3). -/
def unlisted : Byte := 0

/-- The byte at an address. -/
def Cells.get : List Host.Cell → Nat → Byte
  | [], _ => unlisted
  | (b, w) :: r, a => if a = b then w else Cells.get r a

/-- List a byte at its place in the order. -/
def Cells.insert : List Host.Cell → Nat → Byte → List Host.Cell
  | [], a, v => [(a, v)]
  | (b, w) :: r, a, v =>
    if a < b then (a, v) :: (b, w) :: r
    else if a = b then (a, v) :: r
    else (b, w) :: Cells.insert r a v

/-- Write a byte: writing what an unlisted address reads as removes the entry. -/
def Cells.put (m : List Host.Cell) (a : Nat) (v : Byte) : List Host.Cell :=
  if v = unlisted then m.filter (fun c => c.1 ≠ a) else Cells.insert m a v

/-- The `n` bytes from `a` up. -/
def Cells.read (m : List Host.Cell) (a : Nat) : Nat → List Byte
  | 0 => []
  | n + 1 => Cells.get m a :: Cells.read m (a + 1) n

/-- Write bytes from `a` up. -/
def Cells.write (m : List Host.Cell) (a : Nat) : List Byte → List Host.Cell
  | [] => m
  | v :: r => Cells.write (Cells.put m a v) (a + 1) r

/-- Write listed cells one by one. -/
def Cells.apply (m : List Host.Cell) : List Host.Cell → List Host.Cell
  | [] => m
  | (a, v) :: r => Cells.apply (Cells.put m a v) r

/-- The bytes as cells from `a` up, zeros listed too. -/
def cellsAt (a : Nat) : List Byte → List Host.Cell
  | [] => []
  | v :: r => (a, v) :: cellsAt (a + 1) r

/-- What the addresses of `cs` hold in `m`, as cells. -/
def Cells.under (m : List Host.Cell) (cs : List Host.Cell) : List Host.Cell := cs.map fun c => (c.1, Cells.get m c.1)

/-- Drop every listed cell in [a, a + n). -/
def Cells.clear (m : List Host.Cell) (a n : Nat) : List Host.Cell := m.filter (fun c => c.1 < a || a + n ≤ c.1)

/-- The listed cells in [a, a + n). -/
def Cells.within (m : List Host.Cell) (a n : Nat) : List Host.Cell := m.filter (fun c => a ≤ c.1 && c.1 < a + n)

/-! ## Little-endian order -/

/-- The number whose lowest byte comes first. -/
def leNat : List Byte → Nat
  | [] => 0
  | b :: r => b.toNat + 256 * leNat r

/-- The `n` lowest bytes of a number, lowest first. -/
def toLe : Nat → Nat → List Byte
  | 0, _ => []
  | n + 1, x => BitVec.ofNat 8 (x % 256) :: toLe n (x / 256)

/-! ## Keyed maps -/

def NMap.get? {α : Type} : NMap α → Nat → Option α
  | [], _ => none
  | (j, x) :: r, k => if k = j then some x else NMap.get? r k

def NMap.set {α : Type} : NMap α → Nat → α → NMap α
  | [], k, x => [(k, x)]
  | (j, y) :: r, k, x => if k < j then (k, x) :: (j, y) :: r else if k = j then (k, x) :: r else (j, y) :: NMap.set r k x

def NMap.del {α : Type} (m : NMap α) (k : Nat) : NMap α := m.filter (fun c => c.1 ≠ k)

/-- The value at a key, or a default where none is held. -/
def NMap.getD {α : Type} (m : NMap α) (k : Nat) (x : α) : α := (NMap.get? m k).getD x

/-! ## Sets of numbers, rising -/

def NSet.add : List Nat → Nat → List Nat
  | [], k => [k]
  | j :: r, k => if k < j then k :: j :: r else if k = j then j :: r else j :: NSet.add r k

def NSet.del (m : List Nat) (k : Nat) : List Nat := m.filter (· ≠ k)

/-- Put a number in the set or take it out. -/
def NSet.assign (m : List Nat) (k : Nat) (x : Bool) : List Nat := if x then NSet.add m k else NSet.del m k

/-- Drop every number in [a, a + n). -/
def NSet.clear (m : List Nat) (a n : Nat) : List Nat := m.filter (fun k => k < a || a + n ≤ k)

/-- The multiples of `g`, divided by `g`, whose blocks meet [a, a + n). -/
def blocksOf (g a n : Nat) : List Nat :=
  if n = 0 then [] else (List.range ((a + n - 1) / g - a / g + 1)).map (· + a / g)

/-- The first index in `0 .. n-1` that satisfies `p`. -/
def firstIdx (n : Nat) (p : Nat → Bool) : Option Nat := (List.range n).find? p

end Sys2Proof.Machine
end

