-- ==== Sys2Proof/Machine/Caps.lean ====
section
/-! DEFINITION. Capabilities as bits: the fields of 04_spaces R78-R79, the bounds of R80-R81, the cursor layouts of R84, the
mesh walk of R85 and the derivations of 06_access R125-R126. -/

namespace Sys2Proof.Machine

open Sys2Proof

/-! ## Fields (R78, R79) -/

def Cap.space (c : Cap) : Nat := (c.bits.extractLsb' 125 3).toNat
def Cap.perm (c : Cap) : BitVec 9 := c.bits.extractLsb' 116 9
def Cap.gen (c : Cap) : BitVec 12 := c.bits.extractLsb' 104 12
def Cap.expo (c : Cap) : Nat := (c.bits.extractLsb' 98 6).toNat
def Cap.mant (c : Cap) : Nat := (c.bits.extractLsb' 81 17).toNat
def Cap.lenm (c : Cap) : Nat := (c.bits.extractLsb' 64 17).toNat
def Cap.cursor (c : Cap) : Word64 := c.bits.extractLsb' 0 64

def Cap.permR (c : Cap) : Bool := c.perm.getLsbD 0
def Cap.permW (c : Cap) : Bool := c.perm.getLsbD 1
def Cap.permX (c : Cap) : Bool := c.perm.getLsbD 2
def Cap.permLC (c : Cap) : Bool := c.perm.getLsbD 3
def Cap.permSC (c : Cap) : Bool := c.perm.getLsbD 4
def Cap.permCT (c : Cap) : Bool := c.perm.getLsbD 5
def Cap.permGC (c : Cap) : Bool := c.perm.getLsbD 6
def Cap.permPR (c : Cap) : Bool := c.perm.getLsbD 7
def Cap.sealed (c : Cap) : Bool := c.perm.getLsbD 8

/-- The bits of a capability from its fields. -/
def capBits (space : BitVec 3) (perm : BitVec 9) (gen : BitVec 12) (e : BitVec 6) (b l : BitVec 17) (cur : Word64) : Word128 :=
  space ++ (perm ++ (gen ++ (e ++ (b ++ (l ++ cur)))))

/-- An untagged integer: the value in [63:0], zeros above (R123). -/
def Cap.ofInt (v : Word64) : Cap := ⟨v.setWidth 128, false⟩

/-- Replace the cursor and nothing else. -/
def Cap.setCursor (c : Cap) (v : Word64) : Cap := ⟨c.bits.extractLsb' 64 64 ++ v, c.tag⟩

/-- Replace PERM and nothing else. -/
def Cap.setPerm (c : Cap) (p : BitVec 9) : Cap :=
  ⟨c.bits.extractLsb' 125 3 ++ (p ++ c.bits.extractLsb' 0 116), c.tag⟩

/-- Set or clear SE. -/
def Cap.setSeal (c : Cap) (x : Bool) : Cap :=
  c.setPerm ((if x then (1 : BitVec 1) else 0) ++ c.perm.extractLsb' 0 8)

def spLocal : Nat := 1
def spDevice : Nat := 2
def spFar : Nat := 3
def spHost : Nat := 4
def spGate : Nat := 5
def spSlot : Nat := 6
def spPeer : Nat := 7

/-! ## Bounds (R80, R81) -/

/-- The address that bounds are decoded at: [29:0] for LOCAL and SLOT, the whole cursor elsewhere (R80). -/
def addrOf (space : Nat) (cur : Word64) : Nat :=
  if space = 1 ∨ space = 6 then cur.toNat % 2 ^ 30 else cur.toNat

/-- The address that the capability's cursor names. -/
def Cap.addr (c : Cap) : Nat := addrOf c.space c.cursor

/-- The decoded base and top at an address; the base may lie below 0 and the top above 2^64 (R80). -/
def boundsAt (e b l a : Nat) : Int × Int :=
  let u := a / 2 ^ e
  let d0 : Int := Int.emod ((b : Int) - (u : Int)) (2 ^ 17)
  let d : Int := if d0 > 2 ^ 15 then d0 - 2 ^ 17 else d0
  let base : Int := ((u : Int) + d) * 2 ^ e
  (base, base + (l : Int) * 2 ^ e)

def Cap.boundsFrom (c : Cap) (a : Nat) : Int × Int := boundsAt c.expo c.mant c.lenm a

/-- The device sets no tag of a capability whose E exceeds 47 or whose L exceeds 2^16 (R80). -/
def tagAllowed (c : Cap) : Bool := decide (c.expo ≤ 47) && decide (c.lenm ≤ 2 ^ 16)

/-- Base(c) and Top(c) of R125. -/
def Cap.base (c : Cap) : Int := (c.boundsFrom c.addr).1
def Cap.top (c : Cap) : Int := (c.boundsFrom c.addr).2

/-- L, the base and the top let some access succeed (R80). -/
def Cap.boundsOk (c : Cap) : Bool :=
  c.lenm != 0 && decide (0 ≤ c.base) && decide (c.top ≤ 2 ^ 64)

/-- Write a new cursor: the tag stays only where the bounds decode alike (R81). -/
def Cap.moveTo (c : Cap) (v : Word64) : Cap :=
  let d := c.setCursor v
  ⟨d.bits, c.tag && decide (d.base = c.base) && decide (d.top = c.top)⟩

/-- CursorAdd of R125: LOCAL adds to [29:0] and marks a carry in bit 30; other spaces wrap. -/
def cursorAdd (space : Nat) (cur x : Word64) : Word64 :=
  if space = 1 then
    let t : Int := ((cur.toNat % 2 ^ 30 : Nat) : Int) + x.toInt
    let low : Nat := (Int.emod t (2 ^ 30)).toNat
    let keep := cur.toNat / 2 ^ 30 * 2 ^ 30 + low
    let n : Word64 := BitVec.ofNat 64 keep
    if t < 0 ∨ t ≥ 2 ^ 30 then n ||| (1 <<< 30) else n
  else cur + x

/-- The mesh walk of R85 over a LOCAL cursor. -/
def meshWalk (cur : Word64) (step : Nat) : Word64 :=
  let c := cur.toNat
  let g := 6 + c / 2 ^ 32 % 8
  let off := c % 2 ^ 20
  let core := c / 2 ^ 20 % 16
  let l0 := off / 2 ^ g * 2 ^ (g + 4) + core * 2 ^ g + off % 2 ^ g
  let l := l0 + step
  let off' := l % 2 ^ 24 / 2 ^ (g + 4) * 2 ^ g + l % 2 ^ g
  let core' := l / 2 ^ g % 16
  let hi := (c / 2 ^ 24 % 256 + l / 2 ^ 24) % 256
  BitVec.ofNat 64 (c / 2 ^ 32 * 2 ^ 32 + hi * 2 ^ 24 + core' * 2 ^ 20 + off')

/-- The post-increment of R133: the walk in LOCAL under MODE 11, CursorAdd otherwise. -/
def Cap.postInc (c : Cap) (mesh : Bool) (step : Nat) : Cap :=
  c.moveTo (if mesh && c.space == 1 then meshWalk c.cursor step else cursorAdd c.space c.cursor (BitVec.ofNat 64 step))

/-- No bit of the cursor lies outside the layout of its space (R84). -/
def layoutOk (space : Nat) (cur : Word64) : Bool :=
  match space with
  | 1 => cur.toNat / 2 ^ 30 % 4 == 0 && cur.toNat / 2 ^ 35 == 0
  | 2 => cur.toNat / 2 ^ 52 == 0
  | 3 => cur.toNat / 2 ^ 43 == 0
  | 4 => true
  | 7 => cur.toNat / 2 ^ 60 == 0
  | _ => true

/-! ## The fields of a gate's cursor (R314) -/

def gateWorld (v : Word64) : Nat := v.toNat / 2 ^ 48 % 64
def gateDomain (v : Word64) : Nat := v.toNat / 2 ^ 32 % 65536
def gateIndex (v : Word64) : Nat := v.toNat % 4096

/-- No bit lies outside the fields of a gate's CURSOR. -/
def gateLayoutOk (v : Word64) : Bool := v.toNat / 2 ^ 54 == 0 && v.toNat / 2 ^ 12 % 2 ^ 20 == 0

/-! ## Derivations (R126) -/

/-- The least exponent with which [lo, hi) fits the length mantissa (`cpbound`). -/
def boundExpo (lo hi : Nat) : Option Nat :=
  firstIdx 48 fun e => decide ((hi + 2 ^ e - 1) / 2 ^ e - lo / 2 ^ e ≤ 2 ^ 16)

/-- The result of `cpbound`; none where the tagged source does not hold the bounds. -/
def Cap.narrow (c : Cap) (len : Nat) : Option Cap :=
  let lo := c.addr
  let hi := lo + len
  match boundExpo lo hi with
  | none => if c.tag then none else some c
  | some e =>
    let nb := lo / 2 ^ e
    let nt := (hi + 2 ^ e - 1) / 2 ^ e
    if c.tag && (decide (((nb * 2 ^ e : Nat) : Int) < c.base) || decide (((nt * 2 ^ e : Nat) : Int) > c.top)) then none
    else some ⟨c.bits.extractLsb' 104 24 ++ (BitVec.ofNat 6 e ++ (BitVec.ofNat 17 nb ++ (BitVec.ofNat 17 (nt - nb) ++ c.cursor))), c.tag⟩

/-- `cptest`: b is no wider than a (R126). -/
def capWithin (a b : Cap) : Bool :=
  a.tag && b.tag && a.space == b.space && a.gen == b.gen && decide (b.base ≥ a.base) && decide (b.top ≤ a.top)
    && (b.perm &&& ~~~a.perm) == 0

/-- The field that `cpget` reads (R58, R126). -/
def Cap.field (c : Cap) (sel : BitVec 3) : Word64 :=
  match sel.toNat with
  | 0 => c.cursor
  | 1 => BitVec.ofInt 64 c.base
  | 2 => BitVec.ofInt 64 c.top
  | 3 => c.perm.setWidth 64
  | 4 => BitVec.ofNat 64 c.space
  | 5 => c.gen.setWidth 64
  | 6 => if c.tag then 1 else 0
  | _ => BitVec.ofNat 64 c.expo

end Sys2Proof.Machine
end

