-- ==== Sys2Proof/Machine/Mem.lean ====
section
/-! DEFINITION. Physical memory: one list of cells over the spaces of 04_spaces R77, with capability tags (R83), counter-line
marks (06_access R148), poison (20_recovery R390), broken lines and seals (17_worlds R337, R338). -/

namespace Sys2Proof.Machine

open Sys2Proof

/-! ## Physical addresses: region number times 2^64, plus the offset in the region -/

def regionSize : Nat := 2 ^ 64
def paLocal (a : Nat) : Nat := a
def paDevice (a : Nat) : Nat := regionSize + a
def paFar (a : Nat) : Nat := 2 * regionSize + a
def paHost (a : Nat) : Nat := 3 * regionSize + a
def paPeer (peer a : Nat) : Nat := 4 * regionSize + peer * 2 ^ 48 + a
/-- The command window, the completion area and the reserved part of the HDM region (22_platform R404). -/
def paHdm (a : Nat) : Nat := 5 * regionSize + a
def regionOf (pa : Nat) : Nat := pa / regionSize

/-- The cluster, the unit of 64 KiB within it, and the die of a LOCAL address (R84, 01_machine R13). -/
def clusterOfLocal (a : Nat) : Nat := a / 2 ^ 24 % 64
def unitOfLocal (a : Nat) : Nat := a / 2 ^ 16 % 256
def dieOfCluster (c : Nat) : Nat := c / 8

/-- The atomicity granule of a region (R77). -/
def granuleOf (pa : Nat) : Nat :=
  match regionOf pa with
  | 0 => 64
  | 1 => 32
  | 2 => 16
  | _ => 8

/-! ## Bytes, tags and marks -/

namespace State

def readMem (s : State) (pa n : Nat) : List Byte := Cells.read s.mem pa n

def byteAt (s : State) (pa : Nat) : Byte := Cells.get s.mem pa

/-- Write bytes and nothing else. -/
def pokeMem (s : State) (pa : Nat) (bs : List Byte) : State := { s with mem := Cells.write s.mem pa bs }

def readNat (s : State) (pa n : Nat) : Nat := leNat (s.readMem pa n)

def tagAt (s : State) (pa : Nat) : Bool := s.tags.contains (pa / 16)

def setTag (s : State) (pa : Nat) (x : Bool) : State := { s with tags := NSet.assign s.tags (pa / 16) x }

/-- Clear the tag of every granule that [pa, pa + n) touches (R83). -/
def clearTags (s : State) (pa n : Nat) : State :=
  if n = 0 then s else { s with tags := NSet.clear s.tags (pa / 16) ((pa + n - 1) / 16 - pa / 16 + 1) }

def isCounterLine (s : State) (pa : Nat) : Bool := s.ctrLines.contains (pa / 64)

def isPoisoned (s : State) (pa : Nat) : Bool := s.poison.contains (pa / 64)

end State

/-! ## Worlds, domains, partitions, clusters -/

namespace State

def world (s : State) (w : Nat) : World := NMap.getD s.worlds w World.empty
def setWorld (s : State) (w : Nat) (x : World) : State := { s with worlds := NMap.set s.worlds w x }
def modWorld (s : State) (w : Nat) (f : World → World) : State := s.setWorld w (f (s.world w))

def part (s : State) (p : Nat) : Partition := NMap.getD s.parts p Partition.empty
def setPart (s : State) (p : Nat) (x : Partition) : State := { s with parts := NMap.set s.parts p x }
def modPart (s : State) (p : Nat) (f : Partition → Partition) : State := s.setPart p (f (s.part p))

def cluster (s : State) (c : Nat) : Cluster := NMap.getD s.clusters c Cluster.empty
def setCluster (s : State) (c : Nat) (x : Cluster) : State := { s with clusters := NMap.set s.clusters c x }
def modCluster (s : State) (c : Nat) (f : Cluster → Cluster) : State := s.setCluster c (f (s.cluster c))

def modHub (s : State) (f : Hub → Hub) : State := { s with hub := f s.hub }

def logEvent (s : State) (e : LogEvent) : State := s.modHub fun h => { h with log := h.log ++ [e] }

/-- Modify the context of the thread whose word issues. -/
def modCtx (s : State) (f : Ctx → Ctx) : State := { s with thr := { s.thr with ctx := f s.thr.ctx } }
def modThr (s : State) (f : Thread → Thread) : State := { s with thr := f s.thr }

/-- A fresh number, used for order and identity inside the model. -/
def fresh (s : State) : Nat × State := (s.nextId, { s with nextId := s.nextId + 1 })

end State

def World.dom (w : World) (d : Nat) : Domain := NMap.getD w.domains d Domain.free
def World.setDom (w : World) (d : Nat) (x : Domain) : World := { w with domains := NMap.set w.domains d x }
def World.gate (w : World) (g : Nat) : Gate := NMap.getD w.gates g Gate.free
def World.setGate (w : World) (g : Nat) (x : Gate) : World := { w with gates := NMap.set w.gates g x }

/-- The die serves this world (R335). -/
def State.dieServes (s : State) (die w : Nat) : Bool :=
  if h : die < 8 then s.hub.dlatch[die].latched && s.hub.dlatch[die].world == w else false

/-! ## Seals (R333, R337-R339) -/

/-- Who sends a request: its world, and the cluster that it leaves where it comes from one (R336). -/
structure Req where
  world : Nat
  cluster : Option Nat
  deriving DecidableEq, Repr

/-- Lines of DEVICE and FAR, lines that Neltur ports carry to a peer, and the lines of the command window bear a seal (R337). -/
def sealedRegion (pa : Nat) : Bool := regionOf pa == 1 || regionOf pa == 2 || regionOf pa == 4 || regionOf pa == 5

/-- The line leaves the requester's cluster, so its sealing unit seals it or opens it (R337). -/
def Req.leaves (q : Req) (pa : Nat) : Bool :=
  sealedRegion pa || (regionOf pa == 0 && some (clusterOfLocal pa) != q.cluster)

/-- The key slot of a world serves requests: it is neither empty nor destroying (R334). -/
def State.slotServes (s : State) (w : Nat) : Bool :=
  match (s.world w).keyState with
  | .active | .rekeying => true
  | .empty | .destroying => false

/-- The die-to-die port of the line's die admits the request (check 2 of R336). -/
def State.portAdmits (s : State) (q : Req) (pa : Nat) : Bool :=
  let die := dieOfCluster (clusterOfLocal pa)
  regionOf pa != 0 || (q.cluster.map dieOfCluster) == some die || s.dieServes die q.world

/-- A request reaches the line: its sealing unit has keys and no port refuses it. -/
def State.serves (s : State) (q : Req) (pa : Nat) : Bool := s.portAdmits q pa && (!q.leaves pa || s.slotServes q.world)

/-- The home that sweeps a line: HBM stacks 0-11, expander ports 12-15 (R339). -/
def sweepHome (pa : Nat) : Nat :=
  if regionOf pa = 2 then 12 + (pa - 2 * regionSize) / 2 ^ 41 % 4 else Config.stackOf (pa / 64) % 12

/-- The sweep of a rekey reaches the line: HBM and the second tier have sweep pointers (R339). -/
def sweptRegion (pa : Nat) : Bool := regionOf pa == 1 || regionOf pa == 2

/-- The key under which a world's requests meet a line now; none where its slot is empty or destroying (R334, R339). A line that no
sweep reaches, of a peer or of the command window, is sealed under the assignment of the world's keys, which a rekey leaves as it is
(DEDUCED, log entry 65). -/
def State.keyAt (s : State) (w pa : Nat) : Option Nat :=
  let x := s.world w
  match x.keyState with
  | .active => some (if sweptRegion pa then x.keyId else x.keyLoad)
  | .rekeying =>
    if !sweptRegion pa then some x.keyLoad
    else
    let h := sweepHome pa
    let done := x.swept.getLsbD h || (pa % regionSize) / 64 < x.sweeps.getD h 0 / 64
    if done then some x.keyId else x.oldKeyId
  | _ => none

/-- The next line of the world at or above a place of a home: its number (R339). -/
def State.sweepNext (s : State) (w home at_ : Nat) : Option Nat :=
  (s.seals.find? fun z => z.2.world == w && sweptRegion (z.1 * 64) && sweepHome (z.1 * 64) == home
    && decide (at_ ≤ z.1 * 64 % regionSize)).map (·.1)

/-- The line is the one at its home's sweep pointer: a request that reaches it waits until it is swept (R339). -/
def State.underSweep (s : State) (pa : Nat) : Bool :=
  s.worlds.any fun w =>
    w.2.keyState == .rekeying && sweptRegion pa && !w.2.swept.getLsbD (sweepHome pa)
      && s.sweepNext w.1 (sweepHome pa) (w.2.sweeps.getD (sweepHome pa) 0) == some (pa / 64)

/-- The pseudo-channel of the line is quiesced for a repair: a request that reaches it waits (R391). Which channel holds a line
is free (log entry 17). -/
def State.quiet (s : State) (pa : Nat) : Bool :=
  regionOf pa == 1 && s.hub.quiesced.any fun r => r.stack == Config.stackOf (pa / 64) % 12 && r.pch == Config.channelOf (pa / 64) % 384

/-- A request that reaches the line waits. -/
def State.lineHeld (s : State) (pa : Nat) : Bool := s.quiet pa || s.underSweep pa

/-- Some line of [pa, pa + n) that makes a request wait. -/
def State.heldIn (s : State) (pa n : Nat) : Option Nat :=
  if sweptRegion pa then (blocksOf 64 pa n).find? fun l => s.lineHeld (l * 64) else none

/-- Some line of the range is held by a repair or a sweep: what would zero-fill the range waits (R339, R391). -/
def State.fillHeld (s : State) (pa n : Nat) : Bool :=
  (!s.hub.quiesced.isEmpty || s.worlds.any fun w => w.2.keyState == .rekeying) && (s.heldIn pa n).isSome

/-- A read of the line by a request opens its seal (R338); a line that nothing has sealed is a zero-filled one. -/
def State.opens (s : State) (q : Req) (pa : Nat) : Bool :=
  s.serves q pa &&
    (if sealedRegion pa then
      match s.keyAt q.world pa with
      | none => false
      | some k =>
        !s.broken.contains (pa / 64) &&
          (match NMap.get? s.seals (pa / 64) with
           | none => true
           | some z => z.world == q.world && z.key == k)
    else true)

/-- A present expander of the port backs this FAR address (R405). -/
def State.farBacked (s : State) (pa : Nat) : Bool :=
  let off := pa - 2 * regionSize
  s.hub.expanders.any fun x =>
    x.present && x.port == off / 2 ^ 41 % 4 && decide (x.base ≤ off % 2 ^ 41) && decide (off % 2 ^ 41 < x.base + x.size)

/-- What a read of [pa, pa + n) meets: poison before a failed tag (R365), with the first line that shows it. -/
def State.readFault (s : State) (q : Req) (pa n : Nat) : Option (BitVec 8 × Nat) :=
  let ls := blocksOf 64 pa n
  match ls.find? (fun l => s.poison.contains l || (regionOf pa == 2 && !s.farBacked (l * 64))) with
  | some l => some (0x40, l * 64)
  | none =>
    match ls.find? (fun l => !s.opens q (l * 64)) with
    | some l => some (0x18, l * 64)
    | none => none

/-! ## Stores -/

/-- Split bytes at the boundaries of 64-byte lines. -/
def lineChunks (pa : Nat) (bs : List Byte) : List (Nat × List Byte) :=
  (blocksOf 64 pa bs.length).map fun l =>
    let a := max pa (l * 64)
    let e := min (pa + bs.length) (l * 64 + 64)
    (a, (bs.drop (a - pa)).take (e - a))

/-- A port's refusal of a request is logged (R336). -/
def State.notePort (s : State) (q : Req) (pa : Nat) : State :=
  if s.portAdmits q pa then s else s.logEvent (.portRefused (dieOfCluster (clusterOfLocal pa)) q.world)

/-- A read of [pa, pa + n) that a port refuses is logged (R336). -/
def State.noteRead (s : State) (q : Req) (pa n : Nat) : State :=
  match (blocksOf 64 pa n).find? fun l => !s.portAdmits q (l * 64) with
  | some l => s.notePort q (l * 64)
  | none => s

/-- Store bytes that lie in one line (R83, R337, R338, R390): tags clear, a whole-line store seals afresh and clears poison,
a partial store over a line that the request cannot open marks it broken. A request that nothing serves stores nothing. -/
def State.storeLine (s : State) (q : Req) (pa : Nat) (bs : List Byte) : State :=
  if regionOf pa == 2 && !s.farBacked pa then s.logEvent (.farStoreDropped (pa - 2 * regionSize))
  else if !s.serves q pa then s.notePort q pa
  else
    let l := pa / 64
    let whole := pa % 64 == 0 && bs.length == 64
    let opened := s.opens q pa
    let s1 := (s.pokeMem pa bs).clearTags pa bs.length
    let s2 := if whole then { s1 with poison := NSet.del s1.poison l, broken := NSet.del s1.broken l } else s1
    match sealedRegion pa, s.keyAt q.world pa with
    | true, some k =>
      if whole || opened then { s2 with seals := NMap.set s2.seals l ⟨q.world, k⟩ } else { s2 with broken := NSet.add s2.broken l }
    | _, _ => s2

/-- Store bytes of one line with no world's keys: a whole line is then sealed under none, and a part of a sealed line breaks it
(R338). -/
def State.storePlain (s : State) (pa : Nat) (bs : List Byte) : State :=
  let l := pa / 64
  let t := s.pokeMem pa bs
  if pa % 64 == 0 && bs.length == 64 then
    { t with seals := NMap.del t.seals l, broken := NSet.del t.broken l, poison := NSet.del t.poison l }
  else if (NMap.get? s.seals l).isNone then t
  else { t with broken := NSet.add t.broken l }

/-- What the home of a line refuses of a plain store: a request that is not served (R334, R336), a counter line (R135). -/
def State.storeRefusal (s : State) (q : Req) (pa : Nat) : Option (BitVec 8) :=
  if !s.serves q pa then some 0x18 else if s.isCounterLine pa then some 0x21 else none

/-- Store bytes line by line; with the first refusal and how many bytes of the store lie before it (R135). `off` counts them. -/
def State.storeBytes (s : State) (q : Req) (off : Nat) : List (Nat × List Byte) → State × Option (BitVec 8 × Nat)
  | [] => (s, none)
  | (pa, bs) :: r =>
    match s.storeRefusal q pa with
    | some code => ((State.storeBytes (s.notePort q pa) q (off + bs.length) r).1, some (code, off))
    | none => State.storeBytes (s.storeLine q pa bs) q (off + bs.length) r

/-- Bytes of a register value or a counter. -/
def bytesOf64 (v : Word64) : List Byte := toLe 8 v.toNat
def bytesOf128 (v : Word128) : List Byte := toLe 16 v.toNat
def bytesOf512 (v : Vec512) : List Byte := toLe 64 v.toNat
def vecOfBytes (bs : List Byte) : Vec512 := BitVec.ofNat 512 (leNat bs)

/-- A capability in memory, with the tag of its granule. -/
def State.capAt (s : State) (pa : Nat) : Cap := ⟨BitVec.ofNat 128 (s.readNat pa 16), s.tagAt pa⟩

/-- Zero a range, as a zero fill does: bytes, tags, counter marks, poison, breaks and seals go (R142, R148). -/
def State.zeroFill (s : State) (pa n : Nat) : State :=
  let l := pa / 64
  let k := (n + 63) / 64
  { s with
    mem := Cells.clear s.mem pa n, tags := NSet.clear s.tags (pa / 16) (n / 16), ctrLines := NSet.clear s.ctrLines l k,
    poison := NSet.clear s.poison l k, broken := NSet.clear s.broken l k,
    seals := s.seals.filter (fun z => z.1 < l || l + k ≤ z.1) }

end Sys2Proof.Machine
end

