-- ==== Sys2Proof/Machine/Access.lean ====
section
/-! DEFINITION. The checks of an access (04_spaces R82), owner generations (16_domains R312), and translation of LOCAL, DEVICE,
FAR, HOST and PEER cursors to physical addresses (17_worlds R340-R345, 22_platform R405, R407). -/

namespace Sys2Proof.Machine

open Sys2Proof

/-- A fault that traps at its own word. -/
def plainFault (code : BitVec 8) (addr : Word64) : FaultInfo := ⟨code, addr, none, none, none, false, none⟩

/-- How a word ends other than by completing: it faults, or it waits (R10), having done `f` to the state in which it began, and will
issue again. -/
inductive Exn where
  | fault (f : FaultInfo)
  | hold (f : State → State)

abbrev Res := Except Exn

/-- Raise a fault. -/
def raise {α : Type} (code : BitVec 8) (addr : Word64) : Res α := .error (.fault (plainFault code addr))

/-- Raise unless the condition holds. -/
def require (p : Bool) (code : BitVec 8) (addr : Word64) : Res Unit := if p then .ok () else raise code addr

/-- The thread of the current word waits under a stall. -/
def State.waitIn (k : Stall) (s : State) : State := s.modThr fun h => { h with stall := some k }

/-- The word waits under a stall, with no other effect. -/
def holdIn {α : Type} (k : Stall) : Res α := .error (.hold (State.waitIn k))

/-- Whose access it is: the world and the current domain (R312, R340, R344). -/
structure Who where
  world : Nat
  domain : Nat
  deriving DecidableEq, Repr

/-- What an access needs (R82, R341): permissions of the capability, of the page, and the spaces that admit it (R77). -/
structure Need where
  r : Bool
  w : Bool
  x : Bool
  ct : Bool
  sc : Bool
  lc : Bool
  spaces : List Nat
  deriving DecidableEq, Repr

def needLoad : Need := ⟨true, false, false, false, false, false, [1, 2, 3, 4]⟩
def needStore : Need := ⟨false, true, false, false, false, false, [1, 2, 3, 4]⟩
def needMred : Need := ⟨true, true, false, false, false, false, [1, 2, 3]⟩
def needFetch : Need := ⟨false, false, true, false, false, false, [1, 2]⟩
def needCounter : Need := ⟨false, false, false, true, false, false, [1, 2, 7]⟩
def needInit : Need := ⟨false, true, false, true, false, false, [1, 2, 7]⟩
/-- A card, a descriptor or an image lies in LOCAL or DEVICE (R150, R313, R372). -/
def needRead12 : Need := ⟨true, false, false, false, false, false, [1, 2]⟩
def needWrite12 : Need := ⟨false, true, false, false, false, false, [1, 2]⟩
def needCopyRead : Need := ⟨true, false, false, false, false, false, [1, 2, 3, 4, 7]⟩
def needCopyWrite : Need := ⟨false, true, false, false, false, false, [1, 2, 3, 4, 7]⟩

/-! ## The walk (R340, R341) -/

/-- What the tables say of a page. -/
inductive Leaf where
  | absent
  | bad
  | page (frame size owner entry : Nat) (r w x : Bool)
  | touch (level owner entry : Nat) (r w x : Bool)
  deriving DecidableEq, Repr

/-- The bytes of a page by its level: 64 KiB, 32 MiB, 16 GiB. -/
def pageBytes (level : Nat) : Nat :=
  match level with
  | 1 => 2 ^ 16
  | 2 => 2 ^ 25
  | _ => 2 ^ 34

/-- The fields of a table entry (R341). -/
def pteOwner (e : Word64) : Nat := (e.extractLsb' 52 12).toNat
def pteFrame (e : Word64) : Nat := (e.extractLsb' 16 32).toNat * 2 ^ 16
def pteType (e : Word64) : Nat := (e.extractLsb' 0 2).toNat

/-- A table entry from its fields. -/
def pteBits (owner frame : Nat) (x w r : Bool) (ty : BitVec 2) : Word64 :=
  let b (p : Bool) : BitVec 1 := if p then 1 else 0
  BitVec.ofNat 12 owner ++ ((0 : BitVec 4) ++ (BitVec.ofNat 32 (frame / 2 ^ 16) ++ ((0 : BitVec 10) ++ (b x ++ (b w ++ (b r ++ ((0 : BitVec 1) ++ ty)))))))

/-- The walk from the table at `base`, whose entries are of level `lv` (4 at the root). -/
def walkFrom (w : World) (va : Nat) : Nat → Nat → Leaf
  | 0, _ => .bad
  | lv + 1, base =>
    let entry := base + va / 2 ^ (16 + 9 * lv) % 512 * 8
    let e := NMap.getD w.ptes entry 0
    match pteType e with
    | 0 => .absent
    | 1 => if lv = 0 then .bad else walkFrom w va lv (pteFrame e)
    | 2 =>
      if lv = 3 ∨ pteFrame e % pageBytes (lv + 1) ≠ 0 then .bad
      else .page (pteFrame e) (pageBytes (lv + 1)) (pteOwner e) entry (e.getLsbD 3) (e.getLsbD 4) (e.getLsbD 5)
    | _ => if lv = 3 then .bad else .touch (lv + 1) (pteOwner e) entry (e.getLsbD 3) (e.getLsbD 4) (e.getLsbD 5)

/-- The walk of a domain's tables. Check 2 asks it for the address modulo 2^52, before check 4 looks at the bits above (DEDUCED,
log entry 34: R82 has check 2 before check 4 and names no owner for such a cursor). -/
def State.walk (s : State) (who : Who) (va : Nat) : Leaf :=
  walkFrom (s.world who.world) va 4 ((s.world who.world).dom who.domain).ptroot

/-- The address of a table's entry of a level for a virtual address. -/
def entryAt (base lv va : Nat) : Nat := base + va / 2 ^ (16 + 9 * (lv - 1)) % 512 * 8

/-- Some leaf is reached from the entry at `entry`, whose level is `lv`. -/
def leafBelow (w : World) : Nat → Nat → Bool
  | 0, _ => false
  | lv + 1, entry =>
    let e := NMap.getD w.ptes entry 0
    match pteType e with
    | 2 => true
    | 1 => (List.range 512).any fun i => leafBelow w lv (pteFrame e + i * 8)
    | _ => false

/-- A translation of any size covers some byte of the page of level `target` at `va` (R141); `lv` is the level of `base`. -/
def coveredAt (w : World) (va target : Nat) : Nat → Nat → Bool
  | 0, _ => false
  | lv + 1, base =>
    let entry := entryAt base (lv + 1) va
    if lv + 1 ≤ target then leafBelow w (lv + 1) entry
    else
      let e := NMap.getD w.ptes entry 0
      match pteType e with
      | 2 => true
      | 1 => coveredAt w va target lv (pteFrame e)
      | _ => false

/-- A translation of some domain of the world covers some byte of the page: one numbering serves them all (R312). -/
def World.covered (w : World) (va target : Nat) : Bool := w.domains.any fun d => coveredAt w va target 4 d.2.ptroot

/-- A fresh place for a table in the world's hardware-owned memory, below 2^48 (R340; its address is private, log entry 21). -/
def tableBase (k : Nat) : Nat := 2 ^ 48 - 2 ^ 16 * (k + 1)

/-- Fill a new table with first-touch entries of the next level, where its parent was a first-touch entry (R342). -/
def touchTable (e : Word64) (base : Nat) (m : NMap Word64) : NMap Word64 :=
  (List.range 512).foldl (fun n i => NMap.set n (base + i * 8) e) m

/-- The leaves below a table, with their level: the entry's place, the frame, the owner. -/
def leavesUnder (w : World) : Nat → Nat → List (Nat × Nat × Nat × Nat)
  | 0, _ => []
  | lv + 1, base =>
    (w.ptes.filter fun e => base ≤ e.1 && e.1 < base + 4096).flatMap fun e =>
      match pteType e.2 with
      | 1 => leavesUnder w lv (pteFrame e.2)
      | 2 => [(e.1, pteFrame e.2, pteOwner e.2, lv + 1)]
      | _ => []

/-- The frame place that the page tables of a world's domains give a virtual address: one numbering serves them all (R312). -/
def State.worldFrame (s : State) (w va n : Nat) : Option Nat :=
  (s.world w).domains.findSome? fun d => match s.walk ⟨w, d.1⟩ va with
    | .page frame size _ _ _ _ _ => if n ≤ size then some (frame + va % size / n * n) else none
    | _ => none

/-! ## Owner generations (R312) -/

/-- A capability of a domain's current generation; a retired domain has none (R310). -/
def State.genIs (s : State) (w d : Nat) (g : BitVec 12) : Bool :=
  let x := (s.world w).dom d
  x.state != .retired && x.gen % 4096 == g.toNat

/-- The allocation that holds a LOCAL address (R278). -/
def State.allocAt (s : State) (a : Nat) : Option Alloc :=
  (s.cluster (clusterOfLocal a)).allocs.find? fun x => x.unit ≤ unitOfLocal a && unitOfLocal a < x.unit + x.count

/-- The domain whose launch holds a LOCAL byte, or held it last: a capability of an old generation is not honoured after the memory
has been freed either (R309, log entry 34). -/
def State.localOwner (s : State) (a : Nat) : Option Nat :=
  match s.allocAt a with
  | some x => some x.domain
  | none => NMap.get? (s.cluster (clusterOfLocal a)).former (unitOfLocal a)

/-! ## SPACE 110 (R156, R229) -/

/-- An accumulator slot of a unit. -/
def slotAt (c k : Nat) (s : State) : MSlot := NMap.getD (s.cluster c).mat.slots k MSlot.free

/-- KIND, the cluster, the slot and the incarnation that a SPACE 110 cursor names. -/
def curKind (v : Word64) : Nat := v.toNat / 2 ^ 60
def curCluster (v : Word64) : Nat := v.toNat / 2 ^ 24 % 64
def curSlot (v : Word64) : Nat := v.toNat % 64
def curSinc (v : Word64) : BitVec 46 := v.extractLsb' 6 18 ++ (v.extractLsb' 48 12 ++ v.extractLsb' 32 16)

/-- The domain whose generation a SPACE 110 capability is compared with: that of the slot; none for an engine or a unit (R312). -/
def slotOwner (c : Cap) (s : State) : Option Nat :=
  let x := slotAt (curCluster c.cursor) (curSlot c.cursor) s
  if curKind c.cursor = 0 ∧ x.used then some x.domain else none

/-- The capability that `gcall` leaves in a1: SPACE 101 and PERM SE alone (R317). It names no gate. -/
def isReturnToken (c : Cap) : Bool := c.tag && c.space == 5 && c.perm == 0x100

/-! ## The path to a peer (R260, R407) -/

/-- A trained link has a path to the peer. -/
def State.peerReached (s : State) (peer : Nat) : Bool := s.hub.links &&& NMap.getD s.hub.peerPaths peer 0 != 0

/-- The peer whose memory a physical address names. -/
def peerOfPa (pa : Nat) : Nat := (pa - 4 * regionSize) / 2 ^ 48

/-- The place answers as far as the links go: it is no peer's, or a path reaches that peer. -/
def State.pathReaches (s : State) (pa : Nat) : Bool := regionOf pa != 4 || s.peerReached (peerOfPa pa)

/-- The home of a PEER address compares GEN with its own (R407); a peer that no path reaches compares nothing yet, and the operation
waits (R260). -/
def State.peerGenOk (s : State) (a : Nat) (gen : BitVec 12) : Bool :=
  !s.peerReached (a / 2 ^ 48 % 4096) || Config.peerGen s.tick (a / 2 ^ 48 % 4096) (a % 2 ^ 48 / 2 ^ 16) == gen

/-- The domain whose generation the byte's capability must match; none where R312 names no owner, and check 2 then passes: a LOCAL
byte that no launch has held, a DEVICE address with no leaf, a FAR frame that is not the world's (DEDUCED, log entry 34). -/
def State.ownerOf (s : State) (who : Who) (space a : Nat) : Option Nat :=
  match space with
  | 1 => s.localOwner a
  | 2 => match s.walk who a with
    | .page _ _ o _ _ _ _ => some o
    | .touch _ o _ _ _ _ => some o
    | _ => none
  | 3 => (NMap.get? s.hub.farFrames (a / 2 ^ 16)).bind fun f => if f.1 = who.world then some f.2 else none
  | 4 => some who.domain
  | _ => none

/-- The bytes at which check 2 looks up an owner: the first and the last of the access (log entry 19). -/
def ownerBytes (a n : Nat) : List Nat := if n ≤ 1 then [a] else [a, a + n - 1]

/-- Check 2 of R82 over the bytes of the access: the generation is its owner's, as R312 names the owner of each space. A gate's is the
gate's own, a slot's that of its domain; the owner of a PEER window is at the peer (R407). -/
def State.genOk (s : State) (who : Who) (c : Cap) (a n : Nat) : Bool :=
  match c.space with
  | 5 => isReturnToken c || ((s.world (gateWorld c.cursor)).gate (gateIndex c.cursor)).gen % 4096 == c.gen.toNat
  | 6 => (slotOwner c s).all fun d => s.genIs who.world d c.gen
  | 7 => (ownerBytes a n).all fun x => s.peerGenOk x c.gen
  | sp => (ownerBytes a n).all fun x =>
    match s.ownerOf who sp x with
    | none => true
    | some d => s.genIs who.world d c.gen

/-! ## Checks 1 to 4 of R82 -/

/-- One past the last address that the layout of R84 gives the space, or the peer's window, in which `a` lies. -/
def spaceEnd (space a : Nat) : Nat :=
  match space with
  | 1 => 2 ^ 30
  | 2 => 2 ^ 52
  | 3 => 2 ^ 43
  | 7 => (a / 2 ^ 48 + 1) * 2 ^ 48
  | _ => 2 ^ 64

/-- Every compute die that [a, a + n) of LOCAL lies on serves the world (R335, R336). -/
def State.diesServe (s : State) (w a n : Nat) : Bool :=
  (blocksOf (2 ^ 24) a (min (max n 1) (2 ^ 30))).all fun k => s.dieServes (dieOfCluster (k % 64)) w

/-- The first byte of [a, a + n) outside [base, top) (TRAPADDR of 0x04, R363). -/
def firstOutside (a : Nat) (base top : Int) : Nat := if (a : Int) < base ∨ top ≤ (a : Int) then a else top.toNat

/-- Checks 1 to 3 for `n` bytes at the cursor `cur`. `name` is TRAPADDR of a tag or permission fault: the register number, or the
address of the capability in memory (R363). -/
def State.checkRights (s : State) (who : Who) (c : Cap) (cur : Word64) (n : Nat) (need : Need) (name : Word64) : Res Unit := do
  let a := addrOf c.space cur
  require c.tag 0x03 name
  require (s.genOk who c a n) 0x06 cur
  if need.ct && (c.space == 3 || c.space == 4) then raise 0x21 cur
  require (!c.sealed && need.spaces.contains c.space) 0x05 name
  require (c.space != 1 || s.diesServe who.world a n) 0x05 name
  require ((!need.r || c.permR) && (!need.w || c.permW) && (!need.x || c.permX) && (!need.ct || c.permCT) && (!need.sc || c.permSC)
    && (!need.lc || c.permLC)) 0x05 name

/-- Check 4 for `n` bytes at the cursor `cur`; the bounds are those that the capability's own CURSOR decodes (R80). -/
def checkPlace (c : Cap) (cur : Word64) (n : Nat) : Res Unit := do
  let a := addrOf c.space cur
  require (layoutOk c.space cur) 0x04 cur
  require c.boundsOk 0x04 cur
  let top := min c.top (spaceEnd c.space a)
  require (decide (c.base ≤ a) && decide ((a + n : Nat) ≤ top)) 0x04 (BitVec.ofNat 64 (firstOutside a c.base top))

/-- Checks 1 to 4 for `n` bytes at the cursor `cur`. -/
def State.checkCap (s : State) (who : Who) (c : Cap) (cur : Word64) (n : Nat) (need : Need) (name : Word64) : Res Unit := do
  s.checkRights who c cur n need name
  checkPlace c cur n

/-! ## Translation (check 6 of R82) -/

/-- Write a table entry. -/
def State.setPte (s : State) (w entry : Nat) (e : Word64) : State :=
  s.modWorld w fun x => { x with ptes := NMap.set x.ptes entry e }

/-- The 64 KiB pages that a world's stack holds back: one for every 2,048 records and one for every 1,024 continuations that the
world may hold (R256, R286). -/
def World.heldPages (w : World) : Nat := (w.contLimit + 2047) / 2048 + (w.contLimit + 1023) / 1024

/-- Pop a frame of a page size from a world's stack; the 64 KiB stack keeps some back (R256, R286, R342). -/
def State.popFrame (s : State) (w level : Nat) : Option (Nat × State) :=
  let x := s.world w
  match level with
  | 1 => match x.free64k with
    | f :: r => if r.length < x.heldPages then none else some (f, s.setWorld w { x with free64k := r })
    | [] => none
  | 2 => match x.free32m with
    | f :: r => some (f, s.setWorld w { x with free32m := r })
    | [] => none
  | _ => match x.free16g with
    | f :: r => some (f, s.setWorld w { x with free16g := r })
    | [] => none

/-- A first-touch entry becomes a table of first-touch entries of the next level. -/
def State.splitTouch (w entry : Nat) (s : State) : State :=
  let (k, t) := s.fresh
  let e := NMap.getD (s.world w).ptes entry 0
  (t.modWorld w fun x => { x with ptes := touchTable e (tableBase k) x.ptes }).setPte w entry (pteBits 0 (tableBase k) false false false 1)

/-- A first touch (R342): the walker writes a leaf at the entry, over the frame that another domain of the world already has there
(R312, log entry 63) or over a frame of the world's stack. Where another domain maps smaller pages in the entry's range, the entry
becomes a table first, so that no byte gets a second frame (R312, log entry 63). The word that touched it issues again and
finds the leaf. -/
def State.fillTouch (who : Who) (va level owner entry : Nat) (r w x : Bool) (s : State) : Option State :=
  match s.worldFrame who.world va (pageBytes level) with
  | some frame => some (s.setPte who.world entry (pteBits owner frame x w r 2))
  | none =>
    if 1 < level && (s.world who.world).covered va level then some (s.splitTouch who.world entry)
    else (s.popFrame who.world level).map fun p => p.2.setPte who.world entry (pteBits owner p.1 x w r 2)

/-- Translate one DEVICE address (R341, R342). A place outside HBM's 1,152 GiB (R17) is no frame: that such an access takes 0x12 is
the model's choice, since R341 does not name it among the causes of 0x10 and 0x12 (DESIGN CHOICE, log entry 77). -/
def State.translateDevice (s : State) (who : Who) (va : Nat) (need : Need) : Res (Nat × State) :=
  let v := BitVec.ofNat 64 va
  let rw := need.ct
  let allowed (r w x : Bool) : Bool := (!(need.r || rw) || r) && (!(need.w || rw) || w) && (!need.x || x)
  match s.walk who va with
  | .absent => raise 0x10 v
  | .bad => raise 0x12 v
  | .page frame size _ _ r w x =>
    if allowed r w x && decide (frame + va % size < Config.hbmBytes) then .ok (paDevice (frame + va % size), s) else raise 0x12 v
  | .touch level owner entry r w x =>
    match State.fillTouch who va level owner entry r w x s with
    | none => raise 0x10 v
    | some _ => .error (.hold fun t => (State.fillTouch who va level owner entry r w x t).getD t)

/-- A HOST page is 4 KiB (DEDUCED, log entry 18). -/
def hostPage : Nat := 4096

/-- PRI requests of a PASID that await an answer. -/
def State.priCount (s : State) (pasid : Nat) : Nat := (s.hub.priOut.filter fun k => k.1 == pasid).length

/-- ATS requests whose answers have not come, those among them whose answers will be ignored (R344). -/
def Hub.asked (h : Hub) : Nat := h.atsOut.length + h.atsStale.length

/-- Ask the host for a translation, where fewer than 32 requests are out (R344). -/
def State.askHost (key : Nat × Nat) (s : State) : State :=
  if s.hub.atsOut.contains key || decide (Config.atsSlots ≤ s.hub.asked) then s
  else s.modHub fun h => { h with atsOut := h.atsOut ++ [key] }

/-- Translate one HOST address through the hub's cache (R344, R345). A miss sends an ATS request and waits for the answer; an
answer "not present" faults the access that takes it, and the next access asks again. After a failed page request the fault is 0x12
until the host maps the page. -/
def State.translateHost (s : State) (who : Who) (va : Nat) (need : Need) : Res (Nat × State) :=
  let v := BitVec.ofNat 64 va
  let pasid := ((s.world who.world).dom who.domain).pasid
  let key := (pasid, va / hostPage)
  match s.hub.atc.find? (fun e => e.pasid == pasid && e.page == va / hostPage) with
  | some e =>
    if (!need.r || e.canRead) && (!need.w || e.canWrite) then .ok (paHost (e.frame + va % hostPage), s) else raise 0x12 v
  | none =>
    if s.hub.noAnswer.contains key then
      if s.hub.priFailed.contains key then .error (.fault { plainFault 0x12 v with used := some key })
      else .error (.fault { plainFault 0x11 v with used := some key, pri := if s.hub.priOut.contains key then none else some key })
    else .error (.hold fun t => (t.askHost key).waitIn (.ats pasid (va / hostPage)))

/-- A flit leaves for a peer with the next number of the sequence to it (R406). -/
def State.sendFlit (dst world : Nat) (cref : Word64) (stepNo sseq : Nat) (body : SentBody) (s : State) : State :=
  let n := NMap.getD s.hub.sentSeq dst 0
  s.modHub fun h => { h with sentSeq := NMap.set h.sentSeq dst (n + 1), sent := h.sent ++ [⟨Config.ownPeer, dst, n, world, cref, stepNo, sseq, body⟩] }

/-- An operation on a place in a peer's memory leaves as a flit, with the generation of its capability; one on any other place sends
none. -/
def State.sendRequest (pa world : Nat) (cref : Word64) (stepNo sseq : Nat) (gen : BitVec 12) (sector : Option Nat) (op : FlitOp)
    (s : State) : State :=
  if regionOf pa = 4 then
    s.sendFlit (peerOfPa pa) world cref stepNo sseq (.request gen.toNat ((pa - 4 * regionSize) % 2 ^ 48) sector op)
  else s

/-- The contiguous physical pieces of [a, a + n): pages are split where translation can change. -/
def pageStep (space : Nat) : Nat := if space = 4 then hostPage else 2 ^ 16

/-- Translate one address of a space. -/
def State.placeAt (s : State) (who : Who) (space a : Nat) (need : Need) : Res (Nat × State) :=
  match space with
  | 1 => .ok (paLocal a, s)
  | 2 => s.translateDevice who a need
  | 3 =>
    match NMap.get? s.hub.farFrames (a / 2 ^ 16) with
    | some f => if f.1 = who.world then .ok (paFar a, s) else raise 0x10 (BitVec.ofNat 64 a)
    | none => raise 0x10 (BitVec.ofNat 64 a)
  | 4 => s.translateHost who a need
  | _ =>
    if s.peerReached (a / 2 ^ 48 % 4096) then .ok (paPeer (a / 2 ^ 48 % 4096) (a % 2 ^ 48), s) else holdIn (.peerPath (a / 2 ^ 48 % 4096))

/-- The lines of [pa, pa + n) answer now: none is at a sweep pointer or in a quiesced channel (R339, R391). -/
def State.answersNow (s : State) (pa n : Nat) : Res Unit :=
  match s.heldIn pa n with
  | some l => holdIn (.line l)
  | none => .ok ()

/-- Translate one address, whose line answers. -/
def State.translateAt (s : State) (who : Who) (space a : Nat) (need : Need) : Res (Nat × State) := do
  let (pa, t) ← s.placeAt who space a need
  t.answersNow pa 1
  .ok (pa, t)

/-- Translate the pieces one after another. -/
def State.translatePieces (s : State) (who : Who) (space : Nat) (need : Need) : List (Nat × Nat) → Res (List (Nat × Nat) × State)
  | [] => .ok ([], s)
  | (a, n) :: r => do
    let (pa, t) ← s.placeAt who space a need
    t.answersNow pa n
    let (ps, u) ← State.translatePieces t who space need r
    .ok ((pa, n) :: ps, u)

/-- The pieces of [a, a + n) at multiples of `g`. -/
def piecesAt (g a n : Nat) : List (Nat × Nat) :=
  (blocksOf g a n).map fun k => (max a (k * g), min (a + n) (k * g + g) - max a (k * g))

/-- A whole access: the checks in R82's order, then its physical pieces (R88). -/
def State.access (s : State) (who : Who) (c : Cap) (cur : Word64) (n : Nat) (need : Need) (name : Word64) :
    Res (List (Nat × Nat) × State) := do
  s.checkCap who c cur n need name
  let a := addrOf c.space cur
  State.translatePieces s who c.space need (piecesAt (pageStep c.space) a n)

/-- The bytes of the pieces. -/
def State.readPieces (s : State) : List (Nat × Nat) → List Byte
  | [] => []
  | (pa, n) :: r => s.readMem pa n ++ State.readPieces s r

/-- What the first affected piece of a read meets; the address as the access's own cursor gives it (R363). -/
def State.piecesFault (s : State) (q : Req) (a : Nat) : List (Nat × Nat) → Option (BitVec 8 × Nat)
  | [] => none
  | (pa, n) :: r =>
    match s.readFault q pa n with
    | some (code, line) => some (code, (a + max line pa - pa) / 64 * 64)
    | none => State.piecesFault s q (a + n) r

/-- Cut the bytes of a store along the pieces and then along lines. -/
def chunksOf : List (Nat × Nat) → List Byte → List (Nat × List Byte)
  | [], _ => []
  | (pa, n) :: r, bs => lineChunks pa (bs.take n) ++ chunksOf r (bs.drop n)

end Sys2Proof.Machine
end

