-- ==== Sys2Proof/Machine/Numbers.lean ====
section
/-! DEFINITION. Number formats to the bit (08_numbers R162-R182): decoding a code to its exact value, exact arithmetic,
and the one rounding by which an exact value becomes a code with its flags. -/

namespace Sys2Proof.Machine

open Sys2Proof

/-- The exact value of a code: (-1)^neg * mant * 2^exp, an infinity, or a NaN; NaV is a quiet NaN (R163). -/
inductive Num where
  | nan (signalling : Bool)
  | inf (neg : Bool)
  | fin (neg : Bool) (mant : Nat) (exp : Int)
  deriving DecidableEq, Repr

/-- The six accrued flags, placed as in XFLAGS (R179). -/
abbrev Flags := BitVec 6
def fInvalid : Flags := 0x01
def fDivZero : Flags := 0x02
def fOverflow : Flags := 0x04
def fUnderflow : Flags := 0x08
def fInexact : Flags := 0x10
def fVoid : Flags := 0x20

/-- A flag set under a condition. -/
def flagIf (p : Bool) (f : Flags) : Flags := if p then f else 0

/-! ## The formats (R164) -/

def ElemTy.fmt : ElemTy → Fmt
  | .f32 => .f32 | .bf16 => .bf16 | .i8 => .i8 | .i16 => .i16 | .i32 => .i32 | .i64 => .i64

/-- Bits of a code. -/
def fmtBits : Fmt → Nat
  | .f32 => 32 | .bf16 => 16 | .e5m2 => 8 | .e4m3 => 8 | .e2m1 => 4 | .t8 => 8 | .t6 => 6
  | .i8 => 8 | .i16 => 16 | .i32 => 32 | .i64 => 64

/-- Fraction bits of the IEEE-style formats. -/
def fmtFrac : Fmt → Nat
  | .f32 => 23 | .bf16 => 7 | .e5m2 => 2 | .e4m3 => 3 | .e2m1 => 1 | _ => 0

/-- Exponent bias of the IEEE-style formats. -/
def fmtBias : Fmt → Nat
  | .f32 => 127 | .bf16 => 127 | .e5m2 => 15 | .e4m3 => 7 | .e2m1 => 1 | _ => 0

/-- The code of the greatest finite magnitude (R164). -/
def fmtMaxCode : Fmt → Nat
  | .f32 => 0x7F7FFFFF | .bf16 => 0x7F7F | .e5m2 => 0x7B | .e4m3 => 0x7E | .e2m1 => 7 | .t8 => 0x7F | .t6 => 0x1F | _ => 0

/-- The formats that have infinities (R164). -/
def fmtHasInf : Fmt → Bool
  | .f32 | .bf16 | .e5m2 => true
  | _ => false

/-- The canonical NaN, NaV for the tapered formats; e2m1 has none and takes +0 (R164, R177). -/
def canonNan : Fmt → Nat
  | .f32 => 0x7FC00000 | .bf16 => 0x7FC0 | .e5m2 => 0x7F | .e4m3 => 0x7F | .t8 => 0x80 | .t6 => 0x20 | _ => 0

/-- The infinity code of a format that has one. -/
def infCode : Fmt → Nat
  | .f32 => 0x7F800000 | .bf16 => 0x7F80 | .e5m2 => 0x7C | _ => 0

/-- The void value of an element type (R167): a quiet NaN of the float types, the most negative integer. -/
def voidCode : ElemTy → Nat
  | .f32 => 0x7FE00000 | .bf16 => 0x7FE0 | .i8 => 0x80 | .i16 => 0x8000 | .i32 => 0x80000000 | .i64 => 0x8000000000000000

/-! ## Decoding -/

/-- DecodeIeee of R166 with the special codes applied. -/
def decodeIeee (f : Fmt) (bits : Nat) : Num :=
  let p := fmtFrac f
  let w := fmtBits f - 1 - p
  let neg := bits / 2 ^ (w + p) % 2 == 1
  let ex := bits / 2 ^ p % 2 ^ w
  let fr := bits % 2 ^ p
  let top := ex == 2 ^ w - 1
  if fmtHasInf f && top then
    if fr = 0 then .inf neg else .nan (f != .e5m2 && fr / 2 ^ (p - 1) == 0)
  else if f == .e4m3 && top && fr == 7 then .nan false
  else if ex = 0 then .fin neg fr (1 - (fmtBias f : Int) - p)
  else .fin neg (2 ^ p + fr) ((ex : Int) - fmtBias f - p)

/-- The run of bits equal to `b` from bit `q - 1` of `mag` downward (R169). -/
def runLen (mag : Nat) (b : Bool) : Nat → Nat
  | 0 => 0
  | q + 1 => if mag.testBit q == b then 1 + runLen mag b q else 0

/-- The magnitude of a nonzero MAG of DecodeTapered (R169), in units of 2^-12. -/
def taperedMag (n mag : Nat) : Nat :=
  let q := n - 1
  let b := mag.testBit (q - 1)
  let m := runLen mag b q
  let k : Int := if b then (m : Int) - 1 else -(m : Int)
  let rest0 := q - m - 1
  let hasE := n == 8 && rest0 ≥ 1
  let e := if hasE && mag.testBit (rest0 - 1) then 1 else 0
  let rest := if hasE then rest0 - 1 else rest0
  let f := 2 ^ rest + mag % 2 ^ rest
  let x : Int := (if n = 8 then 2 * k + e else k) + 12 - rest
  if x ≥ 0 then f * 2 ^ x.toNat else f / 2 ^ (-x).toNat

/-- DecodeTapered (R169). -/
def decodeTapered (n bits : Nat) : Num :=
  let neg := bits / 2 ^ (n - 1) % 2 == 1
  let mag := bits % 2 ^ (n - 1)
  if mag = 0 then (if neg then .nan false else .fin false 0 0) else .fin neg (taperedMag n mag) (-12)

/-- Two's complement of width w (R172). -/
def signedOf (w bits : Nat) : Int := if bits % 2 ^ w ≥ 2 ^ (w - 1) then (bits % 2 ^ w : Nat) - (2 ^ w : Int) else (bits % 2 ^ w : Nat)

/-- An integer as an exact value; zero is +0. -/
def numOfInt (x : Int) : Num := .fin (decide (x < 0)) x.natAbs 0

/-- Decode(fmt, bits) of R163. -/
def decodeNum (f : Fmt) (bits : Nat) : Num :=
  match f with
  | .t8 => decodeTapered 8 bits
  | .t6 => decodeTapered 6 bits
  | .i8 => numOfInt (signedOf 8 bits)
  | .i16 => numOfInt (signedOf 16 bits)
  | .i32 => numOfInt (signedOf 32 bits)
  | .i64 => numOfInt (signedOf 64 bits)
  | f => decodeIeee f bits

def Num.isNan : Num → Bool
  | .nan _ => true
  | _ => false

def Num.isSNan : Num → Bool
  | .nan s => s
  | _ => false

def Num.isZero : Num → Bool
  | .fin _ 0 _ => true
  | _ => false

/-- The sign of a value that is no NaN; a zero carries its own. -/
def Num.sign : Num → Bool
  | .nan _ => false
  | .inf n => n
  | .fin n _ _ => n

/-! ## Rounding (R173-R178) -/

/-- Whether a magnitude rounds up (R173): `r` of `2^k` is left over, `more` says that the exact value lies strictly
above what is shown, by less than one unit. -/
def roundsUp (rm : BitVec 2) (neg odd : Bool) (r k : Nat) (more : Bool) : Bool :=
  let exact := r == 0 && !more
  match rm.toNat with
  | 0 => decide (2 * r > 2 ^ k) || (2 * r == 2 ^ k && (more || odd))
  | 1 => false
  | 2 => neg && !exact
  | _ => !neg && !exact

/-- Round mant / 2^k to an integer. -/
def roundShift (rm : BitVec 2) (neg : Bool) (mant k : Nat) (more : Bool) : Nat × Bool :=
  let n := mant / 2 ^ k
  let r := mant % 2 ^ k
  (if roundsUp rm neg (n % 2 == 1) r k more then n + 1 else n, r != 0 || more)

/-- The sign bit of a code. -/
def signBit (f : Fmt) (neg : Bool) : Nat := if neg then 2 ^ (fmtBits f - 1) else 0

/-- What R175 makes of a magnitude above the greatest finite one. -/
def aboveMax (f : Fmt) (rm : BitVec 2) (neg : Bool) : Nat :=
  let stays := !fmtHasInf f || rm == 1 || (rm == 2 && !neg) || (rm == 3 && neg)
  signBit f neg + (if stays then fmtMaxCode f else infCode f)

/-- RoundTo for the IEEE-style formats of a finite value. An inexact result below the smallest normal value sets UNDERFLOW, as
R179 says, 0.75 into e2m1 among them, where the table of 08_numbers.md line 368 lists `inexact` alone (DESIGN CHOICE, log entry
76). -/
def roundIeee (f : Fmt) (rm : BitVec 2) (neg : Bool) (mant : Nat) (exp : Int) (more : Bool) : Nat × Flags :=
  if mant = 0 && !more then (signBit f neg, 0)
  else
    let p := fmtFrac f
    let emin : Int := 1 - (fmtBias f : Int)
    let e : Int := exp + (if mant = 0 then -1 else (Nat.log2 mant : Int))
    let em := if e < emin then emin else e
    let q : Int := em - p
    let (n, inexact) :=
      if q ≤ exp then (mant * 2 ^ (exp - q).toNat, more) else roundShift rm neg mant (q - exp).toNat more
    let code := (em - emin).toNat * 2 ^ p + n
    if code > fmtMaxCode f then (aboveMax f rm neg, fOverflow ||| fInexact)
    else (signBit f neg + code, flagIf inexact fInexact ||| flagIf (inexact && decide (e < emin)) fUnderflow)

/-- Compare mant * 2^exp with v * 2^-12 (`more` as in `roundsUp`). -/
def cmpTapered (mant : Nat) (exp : Int) (more : Bool) (v : Nat) : Ordering :=
  let x : Int := exp + 12
  let l := if x ≥ 0 then mant * 2 ^ x.toNat else mant
  let r := if x ≥ 0 then v else v * 2 ^ (-x).toNat
  if l < r then .lt else if l = r && !more then .eq else .gt

/-- The magnitude of a MAG code, 0 for code 0, in units of 2^-12. -/
def taperedVal (n mag : Nat) : Nat := if mag = 0 then 0 else taperedMag n mag

/-- RoundTo for t8 and t6: nearest, ties to the even code, ±max above max (R173-R176). -/
def roundTapered (f : Fmt) (neg : Bool) (mant : Nat) (exp : Int) (more : Bool) : Nat × Flags :=
  let n := fmtBits f
  let cmax := fmtMaxCode f
  let below := (List.range (cmax + 1)).filter fun c => cmpTapered mant exp more (taperedVal n c) != .lt
  let c := below.length - 1
  let exact := cmpTapered mant exp more (taperedVal n c) == .eq
  let s := fun k => if k = 0 then 0 else signBit f neg + k
  if exact then (s c, 0)
  else if c = cmax then (s cmax, fOverflow ||| fInexact)
  else
    let mid := taperedVal n c + taperedVal n (c + 1)
    let k := match cmpTapered (2 * mant) exp more mid with
      | .lt => c
      | .gt => c + 1
      | .eq => if c % 2 = 0 then c else c + 1
    (s k, fInexact ||| flagIf (c == 0) fUnderflow)

/-- Float to integer of width w (R178): saturates and sets invalid outside the signed range. -/
def roundInt (w : Nat) (rm : BitVec 2) (neg : Bool) (mant : Nat) (exp : Int) : Nat × Flags :=
  let (n, inexact) := if exp ≥ 0 then (mant * 2 ^ exp.toNat, false) else roundShift rm neg mant (-exp).toNat false
  if neg && decide (n > 2 ^ (w - 1)) then (2 ^ (w - 1), fInvalid)
  else if !neg && decide (n ≥ 2 ^ (w - 1)) then (2 ^ (w - 1) - 1, fInvalid)
  else (if neg then (2 ^ w - n) % 2 ^ w else n, flagIf inexact fInexact)

/-- The low bits of an integer: a copy job's narrowing from integer to integer with SAT = 0 (R152). -/
def wrapInt (w : Nat) (rm : BitVec 2) (neg : Bool) (mant : Nat) (exp : Int) : Nat :=
  let n := if exp ≥ 0 then mant * 2 ^ exp.toNat else (roundShift rm neg mant (-exp).toNat false).1
  (if neg then 2 ^ w - n % 2 ^ w else n) % 2 ^ w

/-- RoundTo(fmt, x, rm) of R173-R178: the code and the flags. `more`: the exact magnitude lies strictly above the one
shown, by less than one unit of its last place. -/
def roundTo (f : Fmt) (rm : BitVec 2) (x : Num) (more : Bool := false) : Nat × Flags :=
  match f with
  | .i8 | .i16 | .i32 | .i64 =>
    match x with
    | .nan _ => (0, fInvalid)
    | .inf neg => (if neg then 2 ^ (fmtBits f - 1) else 2 ^ (fmtBits f - 1) - 1, fInvalid)
    | .fin neg m e => roundInt (fmtBits f) rm neg m e
  | .t8 | .t6 =>
    match x with
    | .nan s => (canonNan f, flagIf s fInvalid)
    | .inf neg => (signBit f neg + fmtMaxCode f, fOverflow ||| fInexact)
    | .fin neg m e => roundTapered f neg m e more
  | f =>
    match x with
    | .nan s => (canonNan f, flagIf (s || f == .e2m1) fInvalid)
    | .inf neg =>
      if fmtHasInf f then (signBit f neg + infCode f, 0) else (signBit f neg + fmtMaxCode f, fOverflow ||| fInexact)
    | .fin neg m e => roundIeee f rm neg m e more

/-! ## Exact arithmetic -/

/-- A signed mantissa at a given lower exponent. -/
def alignTo (neg : Bool) (mant : Nat) (exp low : Int) : Int :=
  let v : Int := (mant * 2 ^ (exp - low).toNat : Nat)
  if neg then -v else v

/-- The exact sum, with the zero signs of R176; ∞ - ∞ and signalling NaNs set invalid (R179). -/
def numAdd (rm : BitVec 2) (x y : Num) : Num × Flags :=
  match x, y with
  | .nan s, y => (.nan false, flagIf (s || y.isSNan) fInvalid)
  | _, .nan s => (.nan false, flagIf s fInvalid)
  | .inf a, .inf b => if a == b then (.inf a, 0) else (.nan false, fInvalid)
  | .inf a, _ => (.inf a, 0)
  | _, .inf b => (.inf b, 0)
  | .fin na ma ea, .fin nb mb eb =>
    if ma = 0 ∧ mb = 0 then (.fin (if na == nb then na else rm == 2) 0 0, 0)
    else
      let low := if ea ≤ eb then ea else eb
      let v := alignTo na ma ea low + alignTo nb mb eb low
      if v = 0 then (.fin (rm == 2) 0 0, 0) else (.fin (decide (v < 0)) v.natAbs low, 0)

def Num.neg : Num → Num
  | .nan s => .nan s
  | .inf n => .inf (!n)
  | .fin n m e => .fin (!n) m e

/-- The exact product; 0 × ∞ sets invalid. -/
def numMul (x y : Num) : Num × Flags :=
  match x, y with
  | .nan s, y => (.nan false, flagIf (s || y.isSNan) fInvalid)
  | _, .nan s => (.nan false, flagIf s fInvalid)
  | .inf a, .inf b => (.inf (a != b), 0)
  | .inf a, .fin b m _ => if m = 0 then (.nan false, fInvalid) else (.inf (a != b), 0)
  | .fin a m _, .inf b => if m = 0 then (.nan false, fInvalid) else (.inf (a != b), 0)
  | .fin na ma ea, .fin nb mb eb => (.fin (na != nb) (ma * mb) (ea + eb), 0)

/-- Order of two values that are no NaN; the zeros are equal. -/
def numCmp (x y : Num) : Ordering :=
  match x, y with
  | .fin na ma ea, .fin nb mb eb =>
    let low := if ea ≤ eb then ea else eb
    compare (alignTo na ma ea low) (alignTo nb mb eb low)
  | .inf a, .inf b => if a == b then .eq else if a then .lt else .gt
  | .inf a, _ => if a then .lt else .gt
  | _, .inf b => if b then .gt else .lt
  | _, _ => .eq

/-- Bits of a number. -/
def bitLen (n : Nat) : Nat := if n = 0 then 0 else Nat.log2 n + 1

/-- The integer square root, built bit by bit from bit `k - 1` down. -/
def isqrtFrom (n : Nat) : Nat → Nat → Nat
  | 0, r => r
  | k + 1, r => let t := r + 2 ^ k; isqrtFrom n k (if t * t ≤ n then t else r)

def isqrt (n : Nat) : Nat := isqrtFrom n (bitLen n / 2 + 1) 0

/-- A quotient of positive mantissas with at least 64 bits, and whether something is left. -/
def quotient (ma mb : Nat) : Nat × Nat × Bool :=
  let k := 64 + bitLen mb
  (ma * 2 ^ k / mb, k, ma * 2 ^ k % mb != 0)

/-- The square root of mant * 2^exp: mantissa, exponent, and whether something is left. -/
def rootOf (mant : Nat) (exp : Int) : Nat × Int × Bool :=
  let odd := Int.emod exp 2 == 1
  let m := (if odd then 2 * mant else mant) * 2 ^ 128
  let e := ((if odd then exp - 1 else exp) - 128) / 2
  let r := isqrt m
  (r, e, r * r != m)

/-- 1 / sqrt(mant * 2^exp). -/
def recipRootOf (mant : Nat) (exp : Int) : Nat × Int × Bool :=
  let odd := Int.emod exp 2 == 1
  let m := if odd then 2 * mant else mant
  let e := (if odd then exp - 1 else exp) / 2
  let k := 96 + bitLen m
  let r := isqrt (2 ^ (2 * k) / m)
  (r, -e - k, m * r * r != 2 ^ (2 * k))

/-- Fraction bits of the fixed-point work of `exp2Frac` and of `log2Frac` (log entry 16). -/
def expBits : Nat := 320
def logBits : Nat := 560
def logOut : Nat := 200

/-- The product of 2^(2^-i) over the set bits of the fraction `f` (bit `n - 1` is 2^-1), by repeated roots; `c` is the
current root and `acc` the product so far, both times 2^expBits. -/
def exp2Frac (f : Nat) : Nat → Nat → Nat → Nat
  | 0, _, acc => acc
  | n + 1, c, acc =>
    let c' := isqrt (c * 2 ^ expBits)
    exp2Frac f n c' (if f.testBit n then acc * c' / 2 ^ expBits else acc)

/-- 2^x of a finite x: exact for an integer x, otherwise with `more`. -/
def exp2Of (neg : Bool) (mant : Nat) (exp : Int) : Num × Bool :=
  if mant = 0 then (.fin false 1 0, false)
  else
    let big := decide (exp + (Nat.log2 mant : Int) ≥ 10)
    if big then (if neg then (.fin false 1 (-2000), true) else (.fin false 1 2000, true))
    else if exp ≥ 0 then
      let v : Int := (mant * 2 ^ exp.toNat : Nat)
      (.fin false 1 (if neg then -v else v), false)
    else
      let n := (-exp).toNat
      let v : Int := if neg then -(mant : Int) else mant
      let whole := Int.ediv v (2 ^ n)
      let frac := (Int.emod v (2 ^ n)).toNat
      if frac = 0 then (.fin false 1 whole, false)
      else (.fin false (exp2Frac frac n (2 * 2 ^ expBits) (2 ^ expBits)) (whole - expBits), true)

/-- The bits of log2 y for y in [1, 2), y times 2^logBits, by repeated squaring. -/
def log2Frac : Nat → Nat → Nat → Nat
  | 0, _, acc => acc
  | n + 1, y, acc =>
    let y2 := y * y / 2 ^ logBits
    if y2 ≥ 2 * 2 ^ logBits then log2Frac n (y2 / 2) (2 * acc + 1) else log2Frac n y2 (2 * acc)

/-- log2 of a positive mant * 2^exp: exact for a power of two, otherwise with `more`. -/
def log2Of (mant : Nat) (exp : Int) : Num × Bool :=
  let l := Nat.log2 mant
  let e : Int := exp + l
  if mant = 2 ^ l then (numOfInt e, false)
  else
    let fr := log2Frac logOut (mant * 2 ^ logBits / 2 ^ l) 0
    if e ≥ 0 then (.fin false (e.toNat * 2 ^ logOut + fr) (-(logOut : Int)), true)
    else (.fin true ((-e).toNat * 2 ^ logOut - fr - 1) (-(logOut : Int)), true)

end Sys2Proof.Machine
end

