-- ==== Sys2Proof/Machine/Ops.lean ====
section
/-! DEFINITION. The named operations over one continuation: registers, the window, lookahead, deferred faults, stamped
operations, step records; TAKING A FAULT as one operation and the return from it. Rules of 04, 06, 09, 16, 19 and 20. -/

namespace Sys2Proof.Machine

open Sys2Proof

abbrev Out := Host.Outcome State Fault Refusal

/-- What an event does: its effect where its condition holds, and nothing where it does not, for then it has not happened. -/
def happen (r : Option State) (s : State) : Out := .next (r.getD s)

namespace State

/-! ## Registers (R14, R78, R122) -/

/-- The thread's program counter: the cursor of its code capability (R127). -/
def pc (s : State) : Word64 := s.thr.ctx.code.cursor

def setPc (s : State) (v : Word64) : State := s.modCtx fun c => { c with code := c.code.setCursor v }

/-- The next word in address order. -/
def advance (s : State) : State := s.setPc (s.pc + 4)

/-- An access register; a0 reads as the null capability. -/
def reg (s : State) (r : RegNum) : Cap := if r = 0 then Cap.null else s.thr.ctx.regs[r.toNat]

/-- Bits [63:0] of a register. -/
def int (s : State) (r : RegNum) : Word64 := (s.reg r).cursor

/-- The faults with no register once register `r` loses its mark: a fault that nothing has read and no handler has passed over
stays due at the next word of R364's second list. -/
def orphanMark (c : Ctx) (r : Nat) : List Deferred :=
  match NMap.get? c.regMarks r with
  | some d => if c.told.contains d.born then c.late else c.late ++ [d]
  | none => c.late

/-- Write a register and clear its mark; a0 discards (R122, R364). -/
def writeReg (s : State) (r : RegNum) (v : Cap) : State :=
  if r = 0 then s
  else s.modCtx fun c =>
    { c with regs := c.regs.set r.toNat v, late := orphanMark c r.toNat, regMarks := NMap.del c.regMarks r.toNat }

/-- Write an untagged integer (R123). -/
def writeInt (s : State) (r : RegNum) (v : Word64) : State := s.writeReg r (Cap.ofInt v)

/-- Mark a register whose data was refused (R364). -/
def markReg (s : State) (r : RegNum) (d : Deferred) : State :=
  if r = 0 then s.modCtx fun c => { c with late := c.late ++ [d] }
  else s.modCtx fun c => { c with late := orphanMark c r.toNat, regMarks := NMap.set c.regMarks r.toNat d }

/-- Accrue flags into XFLAGS (R179). -/
def accrue (s : State) (f : Flags) : State := s.modCtx fun c => { c with xflags := c.xflags ||| f }

/-- A deferred fault with no register to mark (R364). -/
def defer (s : State) (d : Deferred) : State := s.modCtx fun c => { c with late := c.late ++ [d] }

def who (s : State) : Who := ⟨s.thr.world, s.thr.ctx.domain⟩

/-- The requests of the thread leave its cluster under its world (R336). -/
def req (s : State) : Req := ⟨s.thr.world, some s.thr.cluster⟩

/-- The thread's page-table and generation view, and its domain entry. -/
def curDomain (s : State) : Domain := (s.world s.thr.world).dom s.thr.ctx.domain

/-- Use one free value. -/
def nextTick (s : State) : State := { s with tick := s.tick + 1 }

/-- The physical place of a byte of a block, given by its pieces. -/
def placeIn : List (Nat × Nat) → Nat → Nat
  | [], _ => 0
  | (pa, n) :: r, off => if off < n then pa + off else placeIn r (off - n)

/-- The event that the ports log of a refused read: that of its first refused line (R336). -/
def portEvent (s : State) (q : Req) : List (Nat × Nat) → Option LogEvent
  | [] => none
  | (pa, n) :: r =>
    match (blocksOf 64 pa n).find? fun l => !s.portAdmits q (l * 64) with
    | some l => some (.portRefused (dieOfCluster (clusterOfLocal (l * 64))) q.world)
    | none => portEvent s q r

/-- The data of a block at `a` that the thread reads and consumes in one word: refused data faults at the word (R153, R338). -/
def blockData (s : State) (a : Nat) (ps : List (Nat × Nat)) : Res Unit :=
  match s.piecesFault s.req a ps with
  | some (code, addr) => .error (.fault { plainFault code (BitVec.ofNat 64 addr) with event := portEvent s s.req ps })
  | none => .ok ()

/-- A block that a word reads and consumes itself, at a multiple of 64 (cards, templates, descriptors): its bytes, its physical
pieces, the state. Refused data faults at the word, precisely (R153). -/
def readBlock (s : State) (c : Cap) (n : Nat) (need : Need) (name : Word64) : Res (List Byte × List (Nat × Nat) × State) := do
  s.checkCap s.who c c.cursor n need name
  require (c.cursor.toNat % 64 == 0) 0x04 c.cursor
  let (ps, t) ← State.translatePieces s s.who c.space need (piecesAt (pageStep c.space) c.addr n)
  t.blockData c.cursor.toNat ps
  .ok (t.readPieces ps, ps, t)

/-! ## Lookahead (R93-R95) -/

/-- Deliver a result to a register: at once when `lk` is 0, at the end of the window otherwise. A result whose data was
refused marks the register and writes nothing (R364). -/
def deliver (s : State) (d : RegNum) (lk : BitVec 4) (val : Option Cap) (mark : Option Deferred) : State :=
  if lk = 0 then
    match mark, val with
    | some m, _ => s.markReg d m
    | none, some v => s.writeReg d v
    | none, none => s
  else s.modCtx fun c => { c with pend := c.pend ++ [⟨d, val, mark, lk.toNat + 1, none⟩] }

/-- Open a window whose result a unit's entry will bring (R234). -/
def awaitResult (s : State) (d : RegNum) (lk : BitVec 4) (cmd : Nat) : State :=
  s.modCtx fun c => { c with pend := c.pend ++ [⟨d, none, none, lk.toNat + 1, some cmd⟩] }

/-- The result that an entry brings, in an open window. -/
def fillWrite (cmd : Nat) (v : Cap) (p : PendWrite) : PendWrite := if p.cmd = some cmd then { p with val := some v, cmd := none } else p

/-- One word of every open window has issued; hint words are not counted (R93). -/
def countWindows (s : State) : State :=
  s.modCtx fun c => { c with pend := c.pend.map fun p => { p with left := p.left - 1 } }

/-- The CRC of a block over one more word: its bits [20:0], the highest first (R380). -/
def crcWord (crc : BitVec 20) (w : Word32) : BitVec 20 :=
  (List.range 21).foldl (fun c i =>
    let d : BitVec 20 := c <<< 1
    if c.getLsbD 19 != w.getLsbD (20 - i) then d ^^^ 0x00009 else d) crc

/-- One word of the checker's block has issued (R381). -/
def checkedCtx (c : Ctx) : Ctx :=
  { c with checker :=
    if c.checker.inBlock && c.checker.left != 0 then
      { c.checker with crc := crcWord c.checker.crc c.ir, left := c.checker.left - 1, landed := false }
    else { c.checker with landed := false } }

def countChecker (s : State) : State := s.modCtx checkedCtx

/-- A word that is no hint has completed: it counts in every open window and in the checker's block. -/
def complete (s : State) : State := s.countWindows.countChecker

/-- The thread has transferred: the word that it lands on must be a `sig` (R381). -/
def land (s : State) : State := s.modCtx fun c => { c with checker := { Checker.idle with landed := true } }

/-- Write one deferred result. -/
def landOne (s : State) (p : PendWrite) : State := s.deliver p.reg 0 p.val p.mark

def landList (s : State) : List PendWrite → State
  | [] => s
  | p :: r => landList (s.landOne p) r

/-- The windows that have ended with their results there, and those that stay: a result waits for an earlier window of its register
that has ended and whose result is still on its way, so that the later lookahead word writes last (R94). `blocked` are the
registers of such windows. -/
def splitDue (blocked : List RegNum) : List PendWrite → List PendWrite × List PendWrite
  | [] => ([], [])
  | p :: r =>
    if p.left = 0 then
      if p.cmd.isSome || blocked.contains p.reg then
        let x := splitDue (p.reg :: blocked) r
        (x.1, p :: x.2)
      else
        let x := splitDue blocked r
        (p :: x.1, x.2)
    else
      let x := splitDue blocked r
      (x.1, p :: x.2)

/-- The windows that have ended write their results, the later lookahead word last (R94). -/
def landDue (s : State) : State :=
  let x := splitDue [] s.thr.ctx.pend
  (s.modCtx fun c => { c with pend := x.2 }).landList x.1

/-- Some result is still on its way, so that no word can end its window yet. -/
def resultPending (s : State) : Bool := s.thr.ctx.pend.any fun p => p.cmd.isSome

/-- End every window early (R93: `gcall`, `gret`, `step`). -/
def landAll (s : State) : State :=
  let due := s.thr.ctx.pend
  (s.modCtx fun c => { c with pend := [] }).landList due

/-! ## The window and the stream frame (R189-R194, R199) -/

def winRead (s : State) (off n : Nat) : List Byte := Cells.read s.thr.ctx.win off n

def winWrite (s : State) (off : Nat) (bs : List Byte) : State :=
  s.modCtx fun c => { c with win := Cells.write c.win off bs }

def winZero (s : State) (off n : Nat) : State := s.modCtx fun c => { c with win := Cells.clear c.win off n }

/-- The oldest entry of a queue whose word had not completed is there. -/
def readyFirst : List QEntry → List QEntry
  | [] => []
  | x :: r => if x.ready then x :: readyFirst r else { x with ready := true } :: r

/-- The oldest stream entry completes: its bytes are in the window already, or its entry of a store queue is there from now on, and its
flags accrue (R191). DKIND 10 and 11 name sq0 and sq1 (R192). -/
def completeOldest (s : State) : State :=
  match s.thr.ctx.stream with
  | [] => s
  | e :: r => s.modCtx fun c =>
    { c with
      stream := r, xflags := c.xflags ||| e.flags
      sq0 := if e.dkind = 2 then readyFirst c.sq0 else c.sq0
      sq1 := if e.dkind = 3 then readyFirst c.sq1 else c.sq1 }

/-- The `n` oldest entries complete. -/
def completeN (s : State) : Nat → State
  | 0 => s
  | n + 1 => completeN s.completeOldest n

/-- Every earlier execute-half word has written its result. -/
def drain (s : State) : State := s.completeN s.thr.ctx.stream.length

/-- Put back what unfinished entries replaced, the newest first. -/
def rollBack (win : List Host.Cell) : List StreamEntry → List Host.Cell
  | [] => win
  | e :: r => Cells.apply (rollBack win r) e.old

/-- An entry as it is set aside (R192): a free number of its digits is delivered, and DCHK is taken over its digit record. One that
is set aside already stays as it is. R192 gives DREC as an offset in the digit area and places no record: the entry in place k has
1,024 × k at each freeze, also where entries set aside earlier have the same offsets (DESIGN CHOICE, log entry 8). -/
def frozenEntry (tick place : Nat) (e : StreamEntry) : StreamEntry :=
  if e.frozen then e
  else { e with
    frozen := true, deliv := Config.streamDone (tick + place + 1) % e.total, drec := 1024 * place, digits := tick + place
    dchk := Config.digitCheck (tick + place) }

/-- A list of entries, set aside. -/
def freezeAll (tick : Nat) (l : List StreamEntry) : List StreamEntry := l.mapIdx (frozenEntry tick)

/-- An entry that has come back. -/
def thaw (e : StreamEntry) : StreamEntry := { e with frozen := false }

/-- DCHK of every entry that is set aside fits its digit record: what a restore verifies (R192). -/
def digitsOk (l : List StreamEntry) : Bool := l.all fun e => !e.frozen || e.dchk == Config.digitCheck e.digits

/-- The thread's entries set aside where they stand, as a park, a switch, a halt and `ctxst` leave them (R192, R376). Their words
have not completed, so nothing shows their bytes before they come back. -/
def asideThread (tick : Nat) (h : Thread) : Thread := { h with ctx := { h.ctx with stream := freezeAll tick h.ctx.stream } }

/-- The entries of a thread that goes on where it was set aside. -/
def thawThread (h : Thread) : Thread := { h with ctx := { h.ctx with stream := h.ctx.stream.map thaw } }

/-- Freeze: a free number of the oldest entries has completed (R190, R191), the rest leave the window as it was before them. -/
def freeze (s : State) : List StreamEntry × State :=
  match s.thr.ctx.stream with
  | [] => ([], s)
  | _ :: _ =>
    let n := Config.streamDone s.tick % (s.thr.ctx.stream.length + 1)
    let t := s.nextTick.completeN n
    let f := t.thr.ctx.stream
    (freezeAll s.tick f, t.modCtx fun c => { c with win := rollBack c.win f, stream := [] })

/-- Frozen entries come back (R193): their bytes are written again and their flags still to accrue. -/
def reinstate (s : State) (f : List StreamEntry) : State :=
  s.modCtx fun c => { c with win := f.foldl (fun w e => Cells.apply w e.new) c.win, stream := c.stream ++ f.map thaw }

/-- How many of the oldest entries must complete before every entry that writes into [a, a + n) has. -/
def overlapCount (a n : Nat) : List StreamEntry → Nat
  | [] => 0
  | e :: r =>
    let k := overlapCount a n r
    if k ≠ 0 then k + 1 else if e.new.any fun c => a ≤ c.1 && c.1 < a + n then 1 else 0

/-- Every earlier word that writes those window bytes has completed (R186). -/
def completeInto (s : State) (a n : Nat) : State := s.completeN (overlapCount a n s.thr.ctx.stream)

/-- A place in the stream frame for one more word of majors 0x20-0x29: a 17th waits for the oldest (R191). -/
def streamRoom (s : State) : State := if s.thr.ctx.stream.length < Config.streamSlots then s else s.completeOldest

/-- The digits of a value of a type (R184), and three. -/
def typeTotal : Nat → Nat
  | 0 => 16
  | 1 => 8
  | 2 => 7
  | 3 => 11
  | 4 => 19
  | _ => 35

/-- The type of a word's result, as an ET code; none where it is a format for which R184 gives no digits. R192 says 'for the type':
that this is the type of the result is the model's reading (DESIGN CHOICE, log entry 8). Major 0x22 holds ET in [28:26], where
100 and 101 are f32 and bf16 again (R62); `xli` holds it in [13:11] (R71); `fcvt` and `icvt` to FC have a result of FC, and
`vpack` one of half the width of ET (R69). -/
def resultType (w : Word32) : Option Nat :=
  let et := (w.extractLsb' 25 3).toNat
  match (w.extractLsb' 0 6).toNat, (w.extractLsb' 21 4).toNat with
  | 0x22, _ => some ((w.extractLsb' 26 3).toNat % 4)
  | 0x29, _ => some (w.extractLsb' 11 3).toNat
  | 0x26, 1 | 0x26, 3 => if (w.extractLsb' 16 5).toNat < 2 then some (w.extractLsb' 16 5).toNat else none
  | 0x26, 4 => some (et - 1)
  | _, _ => some et

/-- TOTAL of R192; free where the spec gives the type no digits (log entry 6). -/
def streamTotal (w : Word32) : Nat :=
  match resultType w with
  | some t => typeTotal t
  | none => 1 + (Config.unstated 4).toNat % 63

/-- Issue an execute-half word's write as a stream entry; a 17th entry waits for the oldest (R191). `kind` is DKIND: the window,
or a store queue, whose entry is pushed at once. -/
def streamWrite (s : State) (kind : BitVec 2) (off : Nat) (bs : List Byte) (flags : Flags) : State :=
  let s1 := s.streamRoom
  let cs := cellsAt off bs
  s1.modCtx fun c =>
    { c with
      win := Cells.write c.win off bs
      stream := c.stream ++ [{
        echo := c.ir, doff := off, dkind := kind, deliv := 0, total := streamTotal c.ir, can := false, frozen := false, drec := 0
        digits := 0, dchk := 0
        new := cs, old := Cells.under c.win cs, flags }] }

/-! ## Queues (R89-R92) -/

def queue (s : State) (q : Nat) : List QEntry :=
  match q with
  | 0 => s.thr.ctx.lq0
  | 1 => s.thr.ctx.lq1
  | 2 => s.thr.ctx.sq0
  | _ => s.thr.ctx.sq1

def setQueue (s : State) (q : Nat) (l : List QEntry) : State :=
  s.modCtx fun c => match q with
    | 0 => { c with lq0 := l }
    | 1 => { c with lq1 := l }
    | 2 => { c with sq0 := l }
    | _ => { c with sq1 := l }

def queueDepth (q : Nat) : Nat := if q < 2 then Config.lqDepth else Config.sqDepth

/-- The word that pushed the oldest entry of a store queue has completed, and with it every earlier one (R186): the first pending
word of that destination is the one that pushed it. -/
def completeHead (s : State) (q : Nat) : State :=
  match s.queue q with
  | [] => s
  | x :: _ => if x.ready then s else s.completeN ((s.thr.ctx.stream.findIdx fun e => e.dkind.toNat == q) + 1)

/-- Pop one entry; a pop at balance 0 is a queue imbalance (R90). -/
def popQueue (s : State) (q : Nat) : Res (Vec512 × State) :=
  match s.queue q with
  | [] => raise 0x02 (BitVec.ofNat 64 q)
  | e :: r => .ok (e.data, s.setQueue q r)

/-- Push one entry; a push at full depth is a queue imbalance (R90). -/
def pushQueue (s : State) (q : Nat) (e : QEntry) : Res State :=
  if (s.queue q).length < queueDepth q then .ok (s.setQueue q (s.queue q ++ [e]))
  else raise 0x02 (BitVec.ofNat 64 (q + 4))

/-- The first queue whose balance is not 0 (R92, R371). -/
def unbalanced (s : State) : Option Nat := firstIdx 4 fun q => !(s.queue q).isEmpty

/-- All four balances are 0, else 0x02. -/
def requireBalanced (s : State) : Res Unit :=
  match s.unbalanced with
  | some q => raise 0x02 (BitVec.ofNat 64 q)
  | none => .ok ()

/-! ## Step records (R384, R385) -/

def curPart (s : State) : Partition := s.part s.thr.part

/-- The step of a partition can no longer be repeated (R385). -/
def loseStep (s : State) (p : Nat) : State := s.modPart p fun x => { x with restartable := false }

/-- The atomicity granules that [pa, pa + n) touches, by their addresses. -/
def granulesOf (pa n : Nat) : List Nat := (blocksOf (granuleOf pa) pa n).map (· * granuleOf pa)

/-- Record the line of [pa, pa + n) before its first write in the step (R384): the undo log for DEVICE, the page snapshot for
cluster memory, and no counter line; a write elsewhere, or over a granule that an `mred` of the step touched, makes the step non-restartable. -/
def recordLine (s : State) (p pa n : Nat) : State :=
  let x := s.part p
  if !x.keeps || s.isCounterLine pa then s
  else
    let gs := granulesOf pa n
    let s0 := if gs.any fun g => x.mredGranules.contains g then s.loseStep p else s
    let s1 := s0.modPart p fun y => { y with storeGranules := gs.foldl NSet.add y.storeGranules }
    match regionOf pa with
    | 0 =>
      let pg := pa / 4096
      if x.pages.any (fun q => q.page == pg) then s1
      else s1.modPart p fun y => { y with pages := y.pages ++ [⟨pg, Cells.within s.mem (pg * 4096) 4096,
        s.tags.filter fun t => t / 256 == pg⟩] }
    | 1 =>
      let l := pa / 64
      if x.undo.any (fun u => u.line == l) then s1
      else if x.undo.length ≥ Config.undoLines then s1.loseStep p
      else s1.modPart p fun y => { y with undo := y.undo ++ [⟨l, Cells.within s.mem (l * 64) 64,
        s.tags.filter fun t => t / 4 == l⟩] }
    | _ => s1.loseStep p

def recordChunks (s : State) (p : Nat) : List (Nat × List Byte) → State
  | [] => s
  | (pa, bs) :: r => recordChunks (s.recordLine p pa bs.length) p r

/-- A plain store's bytes reach memory: step records of what is written first, then the lines; a refused part leaves a deferred fault
that names its own line (R135, R334, R364). `cur` is the access's cursor. -/
def performStore (s : State) (chunks : List (Nat × List Byte)) (cur : Word64) : State :=
  let written := chunks.filter fun x => (s.storeRefusal s.req x.1).isNone
  let (t, refused) := (s.recordChunks s.thr.part written).storeBytes s.req 0 chunks
  match refused with
  | none => t
  | some (code, off) => (t.defer ⟨code, (cur + BitVec.ofNat 64 off) &&& ~~~63, s.pc, t.nextId⟩).fresh.2

/-! ## The task log (R389) -/

/-- The continuation is being re-run and values or effects of its log are still to pass. -/
def rerunning (s : State) : Bool :=
  match s.thr.task with
  | some t => !t.giving.isEmpty || t.skip != 0
  | none => false

/-- The log entry to give next. -/
def givenEntry (s : State) : Option (TaskEntry × State) :=
  match s.thr.task with
  | some t => match t.giving with
    | v :: r => some (v, s.modThr fun h => { h with task := some { t with giving := r } })
    | [] => none
  | none => none

/-- The logged value to give next. -/
def givenValue (s : State) : Option (TaskVal × State) := s.givenEntry.map fun x => (x.1.val, x.2)

/-- Log an entry of `size` bytes; an entry that would pass 64 KiB clears RESTARTABLE (R389). -/
def logEntry (s : State) (v : TaskEntry) (size : Nat) : State :=
  match s.thr.task with
  | some t =>
    if t.bytes + size > Config.taskBytes then s.modThr fun h => { h with task := none, restartable := false }
    else s.modThr fun h => { h with task := some { t with vals := t.vals ++ [v], bytes := t.bytes + size } }
  | none => s

/-- Log a value of `size` bytes. -/
def logValue (s : State) (v : TaskVal) (size : Nat) : State := s.logEntry ⟨v, 0⟩ size

/-- Count an effect. -/
def countEffect (s : State) : State :=
  match s.thr.task with
  | some t => s.modThr fun h => { h with task := some { t with effects := t.effects + 1 } }
  | none => s

/-- An effect of the re-run that the first run already made is skipped. -/
def skipEffect (s : State) : Option State :=
  match s.thr.task with
  | some t => if t.skip = 0 then none else some (s.modThr fun h => { h with task := some { t with skip := t.skip - 1 } })
  | none => none

/-- The word declines re-runs of its task (R389). -/
def endTask (s : State) : State := s.modThr fun h => { h with task := none, restartable := false }

/-! ## Stamped operations (R385, R387) -/

/-- What a stamped operation did at its home: the value returned, the fault it leaves, the state. -/
structure Reply where
  result : Word64
  fault : BitVec 8
  state : State

/-- The entry of a stamp in the sheaf. -/
def sheafFind (s : State) (world part : Nat) (cref : Word64) (stepNo q : Nat) : Option SheafEntry :=
  s.sheaf.find? fun e => e.world == world && e.part == part && e.cref == cref && e.stepNo == stepNo && e.sseq == q

/-- Use the thread's next stamp: SSEQ advances, and a 65th stamped operation ends the step's restartability. -/
def useStamp (s : State) : State :=
  let t := s.modCtx fun c => { c with sseq := c.sseq + 1, stamped := c.stamped + 1 }
  if s.thr.ctx.stamped + 1 > Config.sheafSlots then t.loseStep t.thr.part else t

/-- The stamp stands in the sheaf: one of the thread's first 64 of the step, or, of a redundant pair, one that the other member has
still to meet (R385, R388, log entry 40). -/
def stampKept (s : State) : Bool := s.thr.ctx.stamped < Config.sheafSlots || s.thr.paired

/-- MAJ, FUNC and OPERAND of an entry are those of a new arrival. -/
def sameStamp (e : SheafEntry) (maj func : BitVec 8) (operand : Word64) : Bool :=
  e.maj == maj && e.func == func && e.operand == operand

/-- A stamped operation at its home: a stamp that the home holds is not applied again; it returns RESULT and raises the same
fault, or 0x43 where MAJ, FUNC or OPERAND differ (R387). `line` is TRAPADDR of 0x43. -/
def stamped (s : State) (maj func : BitVec 8) (operand line : Word64) (apply : State → Res Reply) : Res Reply := do
  let c := s.thr.ctx
  let p := s.curPart
  match if s.stampKept then s.sheafFind s.thr.world s.thr.part s.thr.cref p.stepNo c.stamped else none with
  | some e =>
    if c.stamped < Config.sheafSlots && !sameStamp e maj func operand then raise 0x43 line
    else .ok ⟨e.result, e.fault,
      { s.useStamp with sheaf := s.sheaf.map fun x => if x == e then { x with second := true } else x }⟩
  | none =>
    let r ← apply s.useStamp
    let e : SheafEntry := ⟨s.thr.world, s.thr.part, s.thr.cref, p.stepNo, c.stamped, maj, func, operand, r.result, r.fault, false, []⟩
    .ok { r with state := if s.stampKept then { r.state with sheaf := r.state.sheaf ++ [e] } else r.state }

/-! ## Threads -/

/-- Look a continuation up by the model's name for it. -/
def thread? (s : State) (t : Nat) : Option Thread :=
  if s.thr.status != .vacant && s.thr.tid == t then some s.thr else s.rest.find? fun h => h.tid == t

/-- Make a continuation the one whose word issues. -/
def focus (s : State) (t : Nat) : State :=
  if s.thr.tid = t then s
  else match s.rest.find? fun h => h.tid == t with
    | some h =>
      let others := s.rest.filter fun x => x.tid != t
      { s with thr := h, rest := if s.thr.status = .vacant then others else s.thr :: others }
    | none => s

/-- The two members of a redundant pair, or one continuation: the same reference in the same world (R388). -/
def pairOf (s : State) (t : Nat) (cref : Word64) (world : Nat) : Bool :=
  match s.thread? t with
  | some h => h.cref == cref && h.world == world
  | none => false

/-- The adds that matrix commands accepted for a thread still have to make into its kN (R232, R252); a command of either member of
a redundant pair to another unit adds to both. -/
def pendingMatrix (s : State) (t : Nat) (k : BitVec 4) : Nat :=
  (s.clusters.map fun x => (x.2.mat.cmds.filter fun m =>
    (m.tid == t || (m.core.isNone && s.pairOf t m.cref m.world)) && m.kctr == k
      && (m.kind == .acc || m.kind == .new || m.kind == .zero)).length).foldl (· + ·) 0

/-- Modify a continuation wherever it stands. -/
def modThread (s : State) (t : Nat) (f : Thread → Thread) : State :=
  if s.thr.status != .vacant && s.thr.tid == t then { s with thr := f s.thr }
  else { s with rest := s.rest.map fun h => if h.tid == t then f h else h }

/-- Modify every continuation. -/
def modAll (s : State) (f : Thread → Thread) : State :=
  { s with thr := if s.thr.status = .vacant then s.thr else f s.thr, rest := s.rest.map f }

/-- Every continuation. -/
def threads (s : State) : List Thread := if s.thr.status = .vacant then s.rest else s.thr :: s.rest

/-- Records in a cluster's pool (R286): those that stand neither in a slot nor in the overflow queue (R270). Another partition's stand in
the shadow copy (R298). -/
def poolUse (s : State) (p c : Nat) : Nat :=
  (s.threads.filter fun h => h.part == p && h.cluster == c && h.status != .done && h.place.isNone && !h.overflow).length

/-- A record has no place among the first 3,840 of the pool: it goes to the overflow queue (R286). -/
def poolFull (s : State) (h : Thread) : Bool := decide (Config.poolNew ≤ s.poolUse h.part h.cluster)

/-- A thread leaves its slot (R270): its record goes to the pool, or to the overflow queue where the pool is full, as a new one's does,
and its stream entries are set aside (R192, R194). -/
def leaveSlot (s : State) (h : Thread) : Thread :=
  if h.place.isNone then h else asideThread s.tick { h with place := none, overflow := s.poolFull h }

/-- What a program sees of a name: nonzero bits, and no two names look alike (R290). The names of the model count up from 1; a free
constant hides them (log entry 10). -/
def nameBits (n : Nat) : Word64 :=
  let v := BitVec.ofNat 64 n ^^^ Config.handleKey
  if v = 0 then Config.handleKey else v

/-- The continuation reference that programs and records show. -/
def refBits (h : Thread) : Word64 := nameBits h.cref.toNat

/-! ## Record mode (R393) -/

/-- An arrival that a record-mode continuation logs, or that its re-run compares with the log. -/
def noteArrival (t : Nat) (v : Arrival) (s : State) : State :=
  match s.thread? t with
  | none => s
  | some h =>
    if !h.record then s
    else match h.recGiving with
      | x :: r =>
        if x == v then s.modThread t fun g => { g with recGiving := r }
        else
          let at_ := (NMap.get? s.recAreas t).map fun a => a.log.length - h.recGiving.length
          (s.logEvent (.recordMismatch t (at_.getD 0) (h.place.getD 0) s.now)).modThread t fun g => { g with recGiving := [], record := false }
      | [] =>
        match NMap.get? s.recAreas t with
        | none => s
        | some a =>
          if a.log.length ≥ Config.recordArea t then
            (s.logEvent (.recordTruncated t)).modThread t fun g => { g with record := false }
          else { s with recAreas := NMap.set s.recAreas t { a with log := a.log ++ [v] } }

/-- An arrival of each thread that a test names. -/
def noteEach (p : Thread → Bool) (v : Arrival) (s : State) : State :=
  ((s.threads.filter p).map (·.tid)).foldl (fun u t => u.noteArrival t v) s

/-- A counter value that reaches the thread. -/
def noteCounter (v : Word64) (s : State) : State := noteArrival s.thr.tid (.counter v) s

/-- The re-run holds an arrival back: the log has it later than what it has next (R393). -/
def comesLater (h : Thread) (v : Arrival) : Bool :=
  match h.recGiving with
  | x :: r => h.record && x != v && r.contains v
  | [] => false

/-- An arrival of a thread is held back. -/
def arrivalHeld (t : Nat) (v : Arrival) (s : State) : Bool := (s.thread? t).any fun h => comesLater h v

/-- An arrival of some thread that a test names is held back. -/
def heldEach (p : Thread → Bool) (v : Arrival) (s : State) : Bool := s.threads.any fun h => p h && comesLater h v

/-- The re-run's log says that the counter stands higher when it is read, or that other arrivals come before this one. -/
def arrivesEarly (v : Word64) (s : State) : Bool :=
  match s.thr.recGiving with
  | .counter x :: _ => s.thr.record && decide (v < x)
  | _ => comesLater s.thr (.counter v)

/-! ## The fault queue (R367) -/

def faultQueueFull (s : State) (w : Nat) : Bool := (s.world w).faultQ.length ≥ Config.faultQueueSize

def pushFault (s : State) (w : Nat) (r : FaultRec) : State := s.modWorld w fun x => { x with faultQ := x.faultQ ++ [r] }

/-- The thread record of a fault at the current word. -/
def threadRecord (s : State) (code : BitVec 8) (addr : Word64) : FaultRec :=
  { addr, code, kind := 2, cluster := BitVec.ofNat 8 s.thr.cluster,
    unit := BitVec.ofNat 8 (s.thr.place.getD 0 % 128), info := s.thr.ctx.ir, ref := refBits s.thr, time := BitVec.ofNat 64 s.now }

/-! ## Entering and leaving a domain (R317-R320, R328, R371) -/

/-- The depth of the domain stack. -/
def depth (s : State) : Nat := s.thr.ctx.dstack.length

/-- A capability crosses a gate only with PR (R317, R319). -/
def dropAuthority (c : Cap) : Cap := if c.tag && !c.permPR then ⟨c.bits, false⟩ else c

/-- Clear a tag. -/
def untag (c : Cap) : Cap := ⟨c.bits, false⟩

/-- The return token of a call at a new depth: SPACE 101, SE alone, the depth in [3:0] (R317). -/
def returnToken (d : Nat) : Cap := ⟨capBits 5 0x100 0 0 0 0 (BitVec.ofNat 64 (d % 16)), true⟩

/-- Rewrite registers by number. -/
def mapRegs (v : Vector Cap 32) (f : Nat → Cap → Cap) : Vector Cap 32 := v.mapIdx f

/-- The registers with which a callee starts (R317, R328): a4-a11 as `pass` leaves them, a12-a31 null. -/
def calleeRegs (v : Vector Cap 32) (pass : Cap → Cap) (token frameCap root : Cap) : Vector Cap 32 :=
  mapRegs v fun r c => if r = 0 then Cap.null else if r = 1 then token else if r = 2 then frameCap else if r = 3 then root
    else if r < 12 then pass c else Cap.null

/-- Only marks of a4-a11 outlive a call: the other registers are written by it. -/
def callMarks (m : NMap Deferred) : NMap Deferred := m.filter fun k => 4 ≤ k.1 && k.1 < 12

/-- The marks of queue entries. -/
def entryMarks (l : List QEntry) : List Deferred := l.filterMap (·.mark)

/-- The marks of the four queues. -/
def queueMarks (c : Ctx) : List Deferred := entryMarks c.lq0 ++ entryMarks c.lq1 ++ entryMarks c.sq0 ++ entryMarks c.sq1

/-- The faults with no register once the marks `l` lose their places: a fault that nothing has read and no handler has passed over
stays due (R364). -/
def orphanMarks (c : Ctx) (l : List Deferred) : List Deferred := c.late ++ l.filter fun d => !c.told.contains d.born

/-- The marks of registers outside a4-a11. -/
def outerMarks (c : Ctx) : List Deferred := (c.regMarks.filter fun k => !(4 ≤ k.1 && k.1 < 12)).map (·.2)

/-- The queues go with what they hold: a call that is unwound leaves its caller the balances of 0 that it had at its `gcall` (R317,
R320, DEDUCED, log entry 78). -/
def dropQueues (s : State) : State :=
  s.modCtx fun c => { c with late := orphanMarks c (queueMarks c), lq0 := [], lq1 := [], sq0 := [], sq1 := [] }

/-- Push a domain-stack entry and enter the gate's domain: the part that `gcall` (R317), a trap delivery (R328) and a far
landing share. `nb` is the callee's WBASE, `zeroFrom` the first byte of its frame that is zeroed. -/
def enterDomain (s : State) (g : Nat) (trap : Bool) (retpc : Word64) (nb zeroFrom : Nat) (frozen : List StreamEntry) : State :=
  let w := s.world s.thr.world
  let x := w.gate g
  let c := s.thr.ctx
  let top := nb + x.frame * 64
  let e : DomEntry :=
    { retpc, ccode := c.code, cdom := c.domain, cgen := c.dgen, cworld := s.thr.world, far := false, trap,
      eject := false, grace := false, status := 0, argw := x.argw, cwbase := c.wbase, cfs := c.fs, ccdepth := c.cdepth,
      allotIn := c.allot, gate := g, gworld := s.thr.world, hop := none, ggen := x.gen, edomain := x.domain, saved := c.regs,
      cvbase := c.vbase, ctbase := c.tbase, ctstride := c.tstride, cxflags := c.xflags, clast := c.lastStatus, blim := c.allot - x.budget, high := top, frozen,
      slq0 := if trap then c.lq0 else [], slq1 := if trap then c.lq1 else [], ssq0 := if trap then c.sq0 else [],
      ssq1 := if trap then c.sq1 else [], spend := if trap then c.pend else [], smarks := c.regMarks, schecker := c.checker, sir := c.ir, deliv := none }
  let pass := if trap then untag else dropAuthority
  let s1 := (s.winZero zeroFrom (top - zeroFrom)).setWorld s.thr.world (w.setGate g { x with count := x.count + 1 })
  s1.modCtx fun d =>
    { d with
      dstack := e :: d.dstack, wstack := ⟨d.wbase, d.fs, d.cdepth, true⟩ :: d.wstack, wbase := nb, fs := x.frame * 64,
      cdepth := 0, vbase := 0, tbase := 0, tstride := 0, xflags := 0, domain := x.domain, dgen := (w.dom x.domain).gen,
      code := x.code, lastStatus := 0,
      regs := calleeRegs d.regs pass (returnToken (d.dstack.length + 1)) x.frameCap x.root,
      regMarks := callMarks d.regMarks,
      lq0 := if trap then [] else d.lq0, lq1 := if trap then [] else d.lq1, sq0 := if trap then [] else d.sq0,
      sq1 := if trap then [] else d.sq1, pend := if trap then [] else d.pend,
      checker := { Checker.idle with landed := true } }

/-- Drop window-stack records down to and including the newest mark (R319). -/
def dropToMark : List WRec → List WRec
  | [] => []
  | r :: t => if r.mark then t else dropToMark t

/-- The entry below an entry that is popped keeps the higher of the two marks (R319). -/
def raiseHigh (h : Nat) : List DomEntry → List DomEntry
  | [] => []
  | e :: r => { e with high := max e.high h } :: r

/-- One thread fewer holds an entry through a gate; a revoked gate that none holds is freed (R315). -/
def releaseGate (s : State) (w g : Nat) : State :=
  s.modWorld w fun x =>
    let y := x.gate g
    let y' := { y with count := y.count - 1 }
    x.setGate g (if y'.revoked && y'.count == 0 then { y' with live := false, revoked := false } else y')

/-- What `gret` does to the top entry `e` (R319): the caller's window, views, flags, domain, code and saved registers. A saved
register comes back with the mark of refused data that it had at the call: R319 does not speak of marks (DEDUCED, log entry 79). -/
def leaveGate (s : State) (e : DomEntry) (rest : List DomEntry) (status : BitVec 8) (results : Cap → Cap) : State :=
  let s1 := s.winZero (e.cwbase + e.cfs) (e.high - (e.cwbase + e.cfs))
  let s2 := s1.modCtx fun c =>
    { c with
      dstack := raiseHigh e.high rest, wstack := dropToMark c.wstack, wbase := e.cwbase, fs := e.cfs, cdepth := e.ccdepth,
      vbase := e.cvbase, tbase := e.ctbase, tstride := e.ctstride, xflags := e.cxflags, domain := e.cdom,
      dgen := e.cgen, code := e.ccode.setCursor e.retpc, lastStatus := status, late := orphanMarks c (outerMarks c),
      regs := mapRegs c.regs fun r x =>
        if r = 0 then Cap.null else if 4 ≤ r ∧ r < 12 then results x else if 12 ≤ r ∧ r < 24 then Cap.null
        else e.saved[r]?.getD Cap.null,
      regMarks := (e.smarks.filter fun k => k.1 < 4) ++ callMarks c.regMarks ++ (e.smarks.filter fun k => 24 ≤ k.1),
      checker := { Checker.idle with landed := true } }
  s2.releaseGate e.gworld e.gate

/-- What `tret` does to the top trap entry `e` (R371); the program counter becomes RETPC. -/
def leaveTrap (s : State) (e : DomEntry) (rest : List DomEntry) : State :=
  let s1 := s.modCtx fun c =>
    { c with
      dstack := raiseHigh e.high rest, wstack := dropToMark c.wstack, wbase := e.cwbase, fs := e.cfs, cdepth := e.ccdepth,
      vbase := e.cvbase, tbase := e.ctbase, tstride := e.ctstride, xflags := e.cxflags, domain := e.cdom,
      dgen := e.cgen, code := e.ccode.setCursor e.retpc, lastStatus := e.clast
      late := orphanMarks c (c.regMarks.map (·.2) ++ c.pend.filterMap (·.mark) ++ queueMarks c)
      regs := e.saved, regMarks := e.smarks,
      lq0 := e.slq0, lq1 := e.slq1, sq0 := e.ssq0, sq1 := e.ssq1, pend := e.spend, checker := e.schecker, ir := e.sir }
  (s1.releaseGate e.gworld e.gate).reinstate e.frozen

/-- The trap gate that can receive a fault now (R328): it is present and live, and the stack has room. R328 and R315 do not say
whether a revoked gate, which stays live while threads hold entries through it, still takes traps, nor what a trap finds whose
gate's index has been freed and given to another gate: the model enters whatever live gate the index names (DESIGN CHOICE, log
entry 37). -/
def trapGate? (s : State) : Option Nat :=
  match s.curDomain.trapGate with
  | some g => if ((s.world s.thr.world).gate g).live && s.depth < 16 then some g else none
  | none => none

/-- The 64-byte fault record (R366). -/
def faultRecord (s : State) (cause : Word64) (f : FaultInfo) (frozen pending : Nat) : List Byte :=
  let c := s.thr.ctx
  let pcv := s.pc
  toLe 8 pcv.toNat ++ toLe 4 c.ir.toNat ++ toLe 4 cause.toNat ++ toLe 8 f.addr.toNat ++ toLe 8 (((f.due.map (·.orig)).getD pcv).toNat)
    ++ toLe 8 s.now ++ toLe 2 c.domain ++ toLe 2 (s.curDomain.gen % 4096) ++ toLe 1 frozen ++ toLe 1 pending ++ toLe 2 0
    ++ toLe 8 (refBits s.thr).toNat ++ toLe 8 0

/-- TRAPCAUSE (R369). -/
def causeBits (code : BitVec 8) (rep dfr : Bool) (depth : Nat) : Word64 :=
  BitVec.ofNat 64 (code.toNat + (if rep then 2 ^ 14 else 0) + (if dfr then 2 ^ 15 else 0) + depth % 32 * 2 ^ 20)

/-- The class E fault repeats at the same word of its repeated step (R363, R386); a continuation that the repeat created again is
known by its reference. -/
def isRepeat (s : State) (code : BitVec 8) : Bool :=
  s.curPart.repeated.any fun e => e.code == code && e.cref == s.thr.cref && e.member == s.thr.member && e.pc == s.pc

/-- Delivery class E (R362, R363). -/
def classE (code : BitVec 8) : Bool := code == 0x40 || code == 0x41 || code == 0x42 || code == 0x43

/-- The thread stops FAULTED and leaves its slot (R268, R328, class S of R362). -/
def stopFaulted (s : State) : State := s.modThr fun h => { s.leaveSlot h with status := .faulted }

/-- A writer that finds the fault queue full stays stopped with its fault, and takes it once the queue has room (R367). -/
def waitForQueue (f : FaultInfo) (s : State) : State := s.waitIn (.faultQueue f)

/-- A deferred fault has been delivered: it leaves the list of those with no register, and a mark is due from now on only where
it is read or popped; the entry remembers it (R364). -/
def takeDue (s : State) (due : Option Deferred) : State :=
  match due with
  | none => s
  | some f => s.modCtx fun c =>
    { c with
      late := c.late.filter fun x => x.born != f.born
      told := if c.late.any (fun x => x.born == f.born) then c.told else f.born :: c.told
      dstack := match c.dstack with
        | e :: r => { e with deliv := some f } :: r
        | [] => [] }

/-- The delivery word issues again: the fault is due again (R364). -/
def dueAgain (s : State) (due : Option Deferred) : State :=
  match due with
  | none => s
  | some f => s.modCtx fun c =>
    { c with
      late := if c.told.contains f.born then c.late else c.late ++ [f]
      told := c.told.filter fun x => x != f.born }

/-- The delivery of a class G fault to the trap gate `g` (R328, R366, R369, R371). -/
def enterTrap (s : State) (g : Nat) (f : FaultInfo) : State :=
  let (frozen, s1) := s.freeze
  let c := s1.thr.ctx
  let cause := causeBits f.code (classE f.code) f.due.isSome s.depth
  let rec' := s.faultRecord cause f frozen.length (min c.pend.length 15)
  let nb := c.wbase + c.fs
  let s2 := s1.enterDomain g true s.pc nb nb frozen
  ((s2.takeDue f.due).winWrite nb rec').modCtx fun d => { d with trapCause := cause, trapAddr := f.addr, trapPc := s.pc }

/-- What a fault does at the hub: a HOST access uses up the answer that it met, and sends its page request (R344); a port logs what it
has refused (R336). -/
def hostFault (s : State) (f : FaultInfo) : State :=
  s.modHub fun h => { h with
    log := h.log ++ f.event.toList
    noAnswer := match f.used with
      | some k => h.noAnswer.filter (· != k)
      | none => h.noAnswer
    priOut := match f.pri with
      | some k => h.priOut ++ [k]
      | none => h.priOut }

/-- The page request of a fault has to wait for one of its PASID's 256 to be answered (R344). -/
def priWaits (s : State) (f : FaultInfo) : Option (Nat × Nat) := f.pri.filter fun k => decide (Config.priSlots ≤ s.priCount k.1)

/-- The partition's step can be repeated as it stands now (R385). -/
def stepLives (s : State) : Bool := s.curPart.keeps && s.curPart.restartable

/-- The error that a thread reports to its partition's recovery (R383). -/
def stepError (s : State) (f : FaultInfo) : StepError := ⟨f.code, s.thr.tid, s.pc, s.thr.cref, s.thr.member, f.save, s.stepLives⟩

/-- A restore of the thread's own context has met a digit record that DCHK does not fit: a save-area error, which goes to the
partition's recovery (R192, R392). -/
def restoreError (s : State) : State :=
  (s.modPart s.thr.part fun p => { p with errors := p.errors ++ [⟨0, s.thr.tid, s.pc, s.thr.cref, s.thr.member, true, s.stepLives⟩] }).waitIn
    .recovery

/-- TAKING A FAULT (R362-R367, R328): class E stops the thread for its partition's recovery, class S stops it FAULTED, and
class G calls the trap gate, or stops FAULTED where none can receive it. Classes E and S and every 0x18 write a thread record
first, and wait while the world's fault queue is full. -/
def deliverTrap (s : State) (f : FaultInfo) : State :=
  let w := s.thr.world
  match s.priWaits f with
  | some k => s.waitIn (.ats k.1 k.2)
  | none =>
    let rep := classE f.code && s.isRepeat f.code
    let gate := if f.code == 0x38 || (classE f.code && !rep) then none else s.trapGate?
    let record := gate.isNone || f.code == 0x18
    if record && s.faultQueueFull w then s.waitForQueue f
    else
      let s0 := s.hostFault f
      let s1 := if record then s0.pushFault w (s0.threadRecord f.code f.addr) else s0
      if classE f.code && !rep then
        (s1.modPart s.thr.part fun p => { p with errors := p.errors ++ [s.stepError f] }).waitIn .recovery
      else match gate with
        | some g => s1.enterTrap g f
        | none => s1.stopFaulted

/-- LEAVING A HANDLER (R371): the top entry is a trap entry; `skip` passes over the trapping word, which then counts as one
word of every open window (R95) and with its bits in the checker's block (R381). Entries whose digit records are broken are
not restored (R192). -/
def trapReturn (s : State) (skip : Bool) : State :=
  match s.drain.thr.ctx.dstack with
  | [] => s
  | e :: r =>
    if !digitsOk e.frozen then s.restoreError
    else
    let t := s.drain.leaveTrap e r
    if skip then t.advance.complete else t.dueAgain e.deliv

/-- The thread waits for nothing. -/
def clearStall (s : State) : State := s.modThr fun h => { h with stall := none }

/-- What a waiting access of a unit, which no thread makes, does at the homes: the threads stay as they are. -/
def heldBy (f : State → State) (s : State) : State := { f s with thr := s.thr, rest := s.rest }

/-- A page request for a page whose record is written (R305, R344): one for a page, and at most 256 of a PASID out at once. -/
def sendPri (k : Nat × Nat) (s : State) : State :=
  if s.hub.priOut.contains k || s.hub.priQueue.contains k then s
  else if Config.priSlots ≤ s.priCount k.1 then s.modHub fun h => { h with priQueue := h.priQueue ++ [k] }
  else s.modHub fun h => { h with priOut := h.priOut ++ [k] }

/-- How a word ends (R10, R122): it completes, and `after` says what that counts for; it traps; or it waits. -/
def finishWith (after : State → State) (s : State) (r : Res State) : Out :=
  match r with
  | .ok t => .next (after t.clearStall)
  | .error (.fault f) => .next (s.clearStall.deliverTrap f)
  | .error (.hold f) => .next (if s.thr.stall.isNone then (f s).modThr fun h => { h with waitSince := s.now } else f s)

/-- The end of a word that goes on at the next word, or where its meaning has put the program counter. -/
def finish (s : State) (r : Res State) : Out := finishWith complete s r

/-- SIGCTL.CHECK of the thread's world (R381). -/
def sigChecked (s : State) : Bool := (s.world s.thr.world).sigCheck

/-- A transfer before the block's last word raises 0x41, where the checker checks (R381). -/
def checkTransfer (s : State) : Res Unit :=
  let k := s.thr.ctx.checker
  require (!(s.sigChecked && k.inBlock && decide (1 < k.left))) 0x41 k.sigPc

/-- The end of a word that transfers control. -/
def finishTransfer (s : State) (r : Res State) : Out :=
  finishWith (fun t => t.countWindows.land) s (do
    let t ← r
    s.checkTransfer
    .ok t)

end State

end Sys2Proof.Machine
end

