-- ==== Sys2Proof/Machine/CapOps.lean ====
section
/-! DEFINITION. The capability words of major 0x04 (06_access R125, R126). -/

namespace Sys2Proof.Machine

open Sys2Proof

/-- A register number as TRAPADDR names it (R363). -/
def regName (r : RegNum) : Word64 := r.setWidth 64

/-- A derivation from a source that must not be sealed (R126): a tagged source with SE faults 0x05. -/
def derive (a d : RegNum) (r : Cap → Res Cap) (s : State) : Out :=
  s.finish (do
    let c := s.reg a
    require (!(c.tag && c.sealed)) 0x05 (regName a)
    let x ← r c
    .ok (s.writeReg d x).advance)

def execCpbound (b a d : RegNum) (s : State) : Out :=
  derive a d (fun c => match c.narrow (s.int b).toNat with
    | some x => .ok x
    | none => raise 0x04 (BitVec.ofNat 64 (firstOutside c.addr c.base c.top))) s

def execCpperm (b a d : RegNum) (s : State) : Out :=
  derive a d (fun c => .ok (c.setPerm (c.perm &&& (s.int b).setWidth 9))) s

def execCpaddr (b a d : RegNum) (s : State) : Out := derive a d (fun c => .ok (c.moveTo (s.int b))) s

def execCpinc (b a d : RegNum) (s : State) : Out :=
  derive a d (fun c => .ok (c.moveTo (cursorAdd c.space c.cursor (s.int b)))) s

def execCpget (sel : BitVec 3) (a d : RegNum) (s : State) : Out :=
  s.finish (.ok (s.writeInt d ((s.reg a).field sel)).advance)

def execCptest (b a d : RegNum) (s : State) : Out :=
  s.finish (.ok (s.writeInt d (if capWithin (s.reg a) (s.reg b) then 1 else 0)).advance)

/-- All 128 bits and the tag, sealed or not. -/
def execCpmove (a d : RegNum) (s : State) : Out := s.finish (.ok (s.writeReg d (s.reg a)).advance)

end Sys2Proof.Machine
end

