-- ==== Sys2Proof/Machine/Branch.lean ====
section
/-! DEFINITION. Control transfer and the register window: branches, jumps, calls, returns, `enter` (06_access R127-R132). -/

namespace Sys2Proof.Machine

open Sys2Proof

/-- The word at a cursor lies in the bounds of the code capability (R127). -/
def codeCovers (c : Cap) (v : Word64) : Bool :=
  let a := addrOf c.space v
  layoutOk c.space v && c.lenm != 0 && decide (c.base ≤ a) && decide ((a + 4 : Nat) ≤ min c.top (spaceEnd c.space a))

/-- A transfer inside the code capability; a target outside its bounds faults 0x04 at the transferring word. -/
def jumpTo (v : Word64) (s : State) : Res State :=
  if codeCovers s.thr.ctx.code v then .ok (s.setPc v) else raise 0x04 v

/-- PC + SignExtend(OFF) × 4. -/
def relTarget {n : Nat} (o : BitVec n) (s : State) : Word64 := s.pc + (o.signExtend 64 <<< 2)

/-- A branch: the target when taken, the next word when not (R128). -/
def branchWord (o : BitVec 13) (taken : Bool) (s : State) : Out :=
  if taken then s.finishTransfer (jumpTo (relTarget o s) s) else s.finish (.ok s.advance)

def execBeq (o : BitVec 13) (b a : RegNum) (s : State) : Out := branchWord o (s.int a == s.int b) s
def execBne (o : BitVec 13) (b a : RegNum) (s : State) : Out := branchWord o (s.int a != s.int b) s
def execBlt (o : BitVec 13) (b a : RegNum) (s : State) : Out := branchWord o ((s.int a).slt (s.int b)) s
def execBge (o : BitVec 13) (b a : RegNum) (s : State) : Out := branchWord o (!(s.int a).slt (s.int b)) s
def execBlo (o : BitVec 13) (b a : RegNum) (s : State) : Out := branchWord o ((s.int a).ult (s.int b)) s
def execBhs (o : BitVec 13) (b a : RegNum) (s : State) : Out := branchWord o (!(s.int a).ult (s.int b)) s
def execBtag (o : BitVec 13) (a : RegNum) (s : State) : Out := branchWord o (s.reg a).tag s
def execBnotag (o : BitVec 13) (a : RegNum) (s : State) : Out := branchWord o (!(s.reg a).tag) s

/-- The link of a call (R130): the code capability at the word after the call, sealed; its tag stays only where the bounds decode
alike there (R81). -/
def linkOf (s : State) : Cap := (s.thr.ctx.code.moveTo (s.pc + 4)).setSeal true

def deeper (s : State) : State := s.modCtx fun c => { c with cdepth := c.cdepth + 1 }

def execJmp (o : BitVec 21) (s : State) : Out := s.finishTransfer (jumpTo (relTarget o s) s)

def execCall (o : BitVec 21) (d : RegNum) (s : State) : Out :=
  s.finishTransfer (do
    let t ← jumpTo (relTarget o s) s
    .ok (deeper (t.writeReg d (linkOf s))))

/-- The checks of a register target (R130): alignment first, then tag, generation, seal, X and space, bounds. A return token in
`ret` faults 0x05 whatever its depth is (R317, log entry 20). -/
def checkTarget (r : RegNum) (wantSeal : Bool) (s : State) : Res Unit := do
  let c := s.reg r
  let a := c.addr
  require ((wantSeal && isReturnToken c) || c.cursor.toNat % 4 == 0) 0x01 0
  require c.tag 0x03 (regName r)
  require (s.genOk s.who c a 4) 0x06 c.cursor
  require (c.sealed == wantSeal && c.permX && (c.space == 1 || c.space == 2)
    && (c.space != 1 || s.diesServe s.thr.world a 4)) 0x05 (regName r)
  require (codeCovers c c.cursor && c.boundsOk) 0x04 c.cursor

/-- Make a capability the code capability. -/
def enterCode (x : Cap) (s : State) : State := s.modCtx fun c => { c with code := x }

def execCallr (a d : RegNum) (s : State) : Out :=
  s.finishTransfer (do
    checkTarget a false s
    .ok (deeper (enterCode (s.reg a) (s.writeReg d (linkOf s)))))

def execJmpr (a : RegNum) (s : State) : Out :=
  s.finishTransfer (do
    checkTarget a false s
    .ok (enterCode (s.reg a) s))

/-- The return step of R130: a frame record of this depth is popped, after every earlier execute-half word (R131). -/
def returnStep (s : State) : State :=
  let s1 := match s.thr.ctx.wstack with
    | r :: rest =>
      if !r.mark && r.depth == s.thr.ctx.cdepth then
        s.drain.modCtx fun c => { c with wstack := rest, wbase := r.base, fs := r.size }
      else s
    | [] => s
  s1.modCtx fun c => { c with cdepth := c.cdepth - 1 }

def execRet (a : RegNum) (s : State) : Out :=
  s.finishTransfer (do
    checkTarget a true s
    .ok (returnStep (enterCode ((s.reg a).setSeal false) s)))

/-- The bytes of the window that the thread slot holds (R132). -/
def residentWindow : Nat := 32768

/-- `enter` (R131, R132): frame and argument window in units of 64 bytes. A frame opened in this call is resized in place. -/
def execEnter (frame : BitVec 13) (argw : BitVec 3) (s : State) : Out :=
  s.finish (do
    let f := frame.toNat * 64
    let g := argw.toNat * 64
    let c := s.thr.ctx
    require (decide (g ≤ c.fs) && decide (g ≤ f)) 0x04 0
    let again := match c.wstack with
      | r :: _ => !r.mark && r.depth == c.cdepth
      | [] => false
    let base := if again then c.wbase else c.wbase + c.fs - g
    let spilled := base + f - residentWindow
    require (spilled == 0 || decide (spilled ≤ Config.spillBytes s.thr.tid)) 0x04
      (BitVec.ofNat 64 (c.spill + Config.spillBytes s.thr.tid))
    .ok (s.drain.modCtx fun d =>
      { d with
        wstack := if again then d.wstack else ⟨d.wbase, d.fs, d.cdepth, false⟩ :: d.wstack
        wbase := base, fs := f, dstack := State.raiseHigh (base + f) d.dstack }).advance)

end Sys2Proof.Machine
end

