-- ==== Sys2Proof/Machine/LoadStore.lean ====
section
/-! DEFINITION. Loads, stores and prefetch (06_access R133-R135, R140; 04_spaces R82-R83, R88; queues R89-R92). -/

namespace Sys2Proof.Machine

open Sys2Proof

/-- Size(SZ): 1 to 64 bytes, 16 for a capability (R54, R133). -/
def accessSize (z : BitVec 3) : Nat := if z = 7 then 16 else 2 ^ z.toNat

/-- The offset that a memory operand adds to its base's cursor (R133). -/
def offsetOf (m : BitVec 2) (b : RegNum) (n : Nat) (s : State) : Int :=
  match m.toNat with
  | 0 => (s.int b).toInt
  | 1 => ((b.toNat * n : Nat) : Int)
  | _ => 0

/-- The sum of base and offset is exact (R9, R133): one that no 64-bit cursor holds lies outside every space, and check 4 fails. In
LOCAL the sum is that of R84 and R125, which marks what passes [29:0] in the cursor (DEDUCED, log entry 85). -/
def effectiveFits (c : Cap) (m : BitVec 2) (b : RegNum) (n : Nat) (s : State) : Bool :=
  let x : Int := (c.cursor.toNat : Int) + offsetOf m b n s
  c.space == 1 || (decide (0 ≤ x) && decide (x < 2 ^ 64))

/-- The effective cursor of a memory operand (R133): base plus register, base plus scaled immediate, or the base itself. -/
def effective (c : Cap) (m : BitVec 2) (b : RegNum) (n : Nat) (s : State) : Word64 :=
  match m.toNat with
  | 0 => cursorAdd c.space c.cursor (s.int b)
  | 1 => cursorAdd c.space c.cursor (BitVec.ofNat 64 (b.toNat * n))
  | _ => c.cursor

/-- The base update of MODE 10 and 11 (R133). A `pref` through a sealed base, which nothing stops, moves its cursor as well, as R140 has
it, and its tag goes: no operation changes a sealed capability (R79), so that what stands in the register then is none (DEDUCED, log
entry 66). -/
def updateBase (a : RegNum) (m : BitVec 2) (b : RegNum) (n : Nat) (c : Cap) (s : State) : State :=
  let d := c.postInc (m == 3) (b.toNat * n)
  if m.toNat < 2 then s else s.writeReg a (if c.sealed then State.untag d else d)

/-- A capability access must be aligned to 16 bytes (check 4 of R82). -/
def capAligned (z : BitVec 3) (cur : Word64) : Bool := z != 7 || cur.toNat % 16 == 0

/-- The fault that a refused read leaves at this word (R364). -/
def deferredAt (s : State) (f : BitVec 8 × Nat) : Deferred := ⟨f.1, BitVec.ofNat 64 f.2, s.pc, s.nextId⟩

/-- A read of the pieces whose data a port refuses is logged there (R336). -/
def noteReads (ps : List (Nat × Nat)) (s : State) : State :=
  match s.portEvent s.req ps with
  | some e => s.logEvent e
  | none => s

/-- Checks 1 to 4 of R82 at an effective cursor: a sum that no cursor holds fails check 4. -/
def checkEffective (c : Cap) (cur : Word64) (fits : Bool) (n : Nat) (need : Need) (a : RegNum) (s : State) : Res Unit := do
  s.checkRights s.who c cur n need (regName a)
  require fits 0x04 cur
  checkPlace c cur n

/-- What the bytes of a load are in memory: the 64 bytes of a queue entry and the register value (R134), what refused them, the
state in which the access was translated. -/
def readMemory (c : Cap) (z : BitVec 3) (cur : Word64) (fits : Bool) (a : RegNum) (s : State) :
    Res (TaskVal × Option (BitVec 8 × Nat) × State) := do
  let n := accessSize z
  checkEffective c cur fits n needLoad a s
  require (capAligned z cur) 0x04 cur
  let addr := addrOf c.space cur
  let (ps, t) ← State.translatePieces s s.who c.space needLoad (piecesAt (pageStep c.space) addr n)
  let bs := t.readPieces ps
  let tag := z == 7 && c.permLC && (c.space == 1 || c.space == 2) &&
    (match ps with
     | (pa, _) :: _ => t.tagAt pa
     | [] => false)
  .ok (⟨⟨BitVec.ofNat 128 (leNat (bs.take 16)), tag⟩, vecOfBytes bs⟩, t.piecesFault t.req addr ps, noteReads ps t)

/-- Bytes of a logged load (R389). -/
def loadEntrySize (z : BitVec 3) : Nat := if z = 7 then 24 else 8 + (accessSize z + 7) / 8 * 8

/-- A refused load as the task log holds it. -/
def refusedEntry (f : BitVec 8 × Nat) : TaskEntry := ⟨⟨Cap.ofInt (BitVec.ofNat 64 f.2), 0⟩, f.1⟩

/-- What a load brings back: the value and the mark of refused data. A re-run takes both from the log, but reads poisoned data
anew (R389). -/
def loadValue (c : Cap) (z : BitVec 3) (cur : Word64) (fits : Bool) (a : RegNum) (s : State) : Res (TaskVal × Option Deferred × State) :=
  match s.givenEntry with
  | none => do
    let (v, f, t) ← readMemory c z cur fits a s
    .ok (v, f.map (deferredAt s), match f with
      | some x => t.fresh.2.logEntry (refusedEntry x) (loadEntrySize z)
      | none => t.logValue v (loadEntrySize z))
  | some (e, u) =>
    if e.fault = 0 then .ok (e.val, none, u)
    else if e.fault = 0x40 then do
      let (v, f, t) ← readMemory c z cur fits a u
      .ok (v, f.map (deferredAt s), t.fresh.2)
    else .ok (e.val, some (deferredAt s (e.fault, e.val.val.cursor.toNat)), u.fresh.2)

/-- `ld` to an a-register: the base update at issue, the value through the lookahead window (R133, R93). -/
def loadReg (m : BitVec 2) (l : BitVec 4) (z : BitVec 3) (b a d : RegNum) (s : State) : Res State := do
  let c := s.reg a
  let n := accessSize z
  let (v, mark, t) ← loadValue c z (effective c m b n s) (effectiveFits c m b n s) a s
  .ok ((updateBase a m b n c t).deliver d l (some v.val) mark).advance

/-- `ld` to a queue: one entry, marked where its data was refused (R89, R364). -/
def loadQueue (q : Nat) (m : BitVec 2) (z : BitVec 3) (b a : RegNum) (s : State) : Res State := do
  let c := s.reg a
  let n := accessSize z
  require (decide ((s.queue q).length < State.queueDepth q)) 0x02 (BitVec.ofNat 64 (q + 4))
  let (v, mark, t) ← loadValue c z (effective c m b n s) (effectiveFits c m b n s) a s
  let u ← (updateBase a m b n c t).pushQueue q ⟨v.wide, mark, true⟩
  .ok u.advance

/-- `ld`: QK names the a-register in D, lq0 or lq1. -/
def execLd (q m : BitVec 2) (l : BitVec 4) (z : BitVec 3) (b a d : RegNum) (s : State) : Out :=
  s.finish (if q = 0 then loadReg m l z b a d s else loadQueue (q.toNat - 1) m z b a s)

/-- What a store needs: SC as well for a tagged value (R83). -/
def storeNeed (tagged : Bool) : Need := { needStore with sc := tagged }

/-- The bytes that a store of a register value writes (R134). -/
def storeBytesOf (v : Word128) (n : Nat) : List Byte := toLe n v.toNat

/-- A store of `n` bytes at `cur` (R133, R135): every check and translation at issue, then the lines at their homes; the tag
of the granule becomes `tag` unless the line refused. -/
def storeAt (c : Cap) (cur : Word64) (fits : Bool) (bs : List Byte) (z : BitVec 3) (tag : Bool) (a : RegNum) (s : State) :
    Res State := do
  checkEffective c cur fits bs.length (storeNeed tag) a s
  require (capAligned z cur) 0x04 cur
  require (!(tag && (c.space == 3 || c.space == 4))) 0x07 cur
  match s.skipEffect with
  | some t => .ok t
  | none => do
    let addr := addrOf c.space cur
    let (ps, t) ← State.translatePieces s s.who c.space needStore (piecesAt (pageStep c.space) addr bs.length)
    let u := t.countEffect.performStore (chunksOf ps bs) cur
    match tag, ps with
    | true, (pa, _) :: _ => .ok (if (t.storeRefusal t.req pa).isSome then u else u.setTag pa true)
    | _, _ => .ok u

/-- `st` from an a-register: the value from before any base update. -/
def storeReg (m : BitVec 2) (z : BitVec 3) (b a d : RegNum) (s : State) : Res State := do
  let c := s.reg a
  let v := s.reg d
  let n := accessSize z
  let t ← storeAt c (effective c m b n s) (effectiveFits c m b n s) (storeBytesOf v.bits n) z (z == 7 && v.tag) a s
  .ok (updateBase a m b n c t).advance

/-- `st` from a queue pops one entry and writes its low bytes (R89); the word that pushed the entry has completed then (R186). -/
def storeQueue (q : Nat) (m : BitVec 2) (z : BitVec 3) (b a : RegNum) (s : State) : Res State := do
  let c := s.reg a
  let n := accessSize z
  let (v, t) ← (s.completeHead q).popQueue q
  let u ← storeAt c (effective c m b n s) (effectiveFits c m b n s) ((bytesOf512 v).take n) z false a t
  .ok (updateBase a m b n c u).advance

/-- `st`: QK names the a-register in D, sq0 or sq1. -/
def execSt (q m : BitVec 2) (z : BitVec 3) (b a d : RegNum) (s : State) : Out :=
  s.finish (if q = 0 then storeReg m z b a d s else storeQueue (q.toNat + 1) m z b a s)

/-- `pref` (R140): a post-increment updates its base whether or not the request is dropped; nothing else is visible. -/
def execPref (m : BitVec 2) (_z : BitVec 3) (b a : RegNum) (s : State) : Out :=
  s.finish (.ok (updateBase a m b 64 (s.reg a) s).advance)

end Sys2Proof.Machine
end

