-- ==== Sys2Proof/Machine/Mred.lean ====
section
/-! DEFINITION. Memory reductions (06_access R136-R139, 20_recovery R387, R390). -/

namespace Sys2Proof.Machine

open Sys2Proof

/-- The operations of ROP (R63). -/
inductive RedOp where
  | add | and | or | xor | min | max | minUn | maxUn | addFloat | minFloat | maxFloat
  deriving DecidableEq, Repr

/-- The ROP code, as FUNC of the stamp. -/
def RedOp.code : RedOp → BitVec 8
  | .add => 0 | .and => 1 | .or => 2 | .xor => 3 | .min => 4 | .max => 5 | .minUn => 6 | .maxUn => 7
  | .addFloat => 8 | .minFloat => 9 | .maxFloat => 10

/-- Float minimum and maximum of R138 on codes; equal values keep m. -/
def floatPick (f : Fmt) (greater : Bool) (m v : Nat) : Nat × Flags :=
  let x := decodeNum f m
  let y := decodeNum f v
  if x.isSNan || y.isSNan then (canonNan f, fInvalid)
  else if x.isNan && y.isNan then (canonNan f, 0)
  else if x.isNan then (v, 0)
  else if y.isNan then (m, 0)
  else
    let o := if x.isZero && y.isZero && x.sign != y.sign then (if x.sign then Ordering.lt else .gt) else numCmp x y
    let keep := if greater then o != .lt else o != .gt
    (if keep then m else v, 0)

/-- Combine(ROP, old, operand, n) of R137 and R138, with the flags of R139. -/
def combine (op : RedOp) (z : BitVec 3) (m v : Nat) : Nat × Flags :=
  let w := 8 * accessSize z
  let f : Fmt := if z = 1 then .bf16 else .f32
  match op with
  | .add => ((m + v) % 2 ^ w, 0)
  | .and => (m &&& v, 0)
  | .or => (m ||| v, 0)
  | .xor => (m ^^^ v, 0)
  | .min => (if signedOf w v < signedOf w m then v else m, 0)
  | .max => (if signedOf w v > signedOf w m then v else m, 0)
  | .minUn => (if v < m then v else m, 0)
  | .maxUn => (if v > m then v else m, 0)
  | .addFloat =>
    let (x, fl) := numAdd 0 (decodeNum f m) (decodeNum f v)
    let (c, fl2) := roundTo f 0 x
    (c, fl ||| fl2)
  | .minFloat => floatPick f false m v
  | .maxFloat => floatPick f true m v

/-- The granule of a reduction in the step's records (R384, R385): a plain store to it in the same step ends repeats. -/
def recordMred (p pa : Nat) (s : State) : State :=
  let x := s.part p
  if !x.keeps then s
  else
    let g := pa / granuleOf pa * granuleOf pa
    let t := if x.storeGranules.contains g then s.loseStep p else s
    t.modPart p fun y => { y with mredGranules := NSet.add y.mredGranules g }

/-- What the home of a location refuses (R135, R338, R390): a counter line, a poisoned line, a failed tag. -/
def homeRefusal (q : Req) (pa n : Nat) (s : State) : Option (BitVec 8) :=
  match s.readFault q pa n with
  | some f => some f.1
  | none => if s.isCounterLine pa then some 0x21 else none

/-- The reduction at its home, in one step (R136). -/
def mredHome (op : RedOp) (z : BitVec 3) (pa v : Nat) (s : State) : State.Reply :=
  let n := accessSize z
  match homeRefusal s.req pa n s with
  | some code => ⟨0, code, s.noteRead s.req pa n⟩
  | none =>
    let old := s.readNat pa n
    let new := (combine op z old v).1
    ⟨BitVec.ofNat 64 old, 0, (recordMred s.thr.part pa s).storeLine s.req pa (toLe n new)⟩

/-- The reply of a stamped operation reaches the thread: the value through the window, or the fault that the home left, on the
register, or with D = 0 on the thread's next sync word (R364). -/
def takeReply (d : RegNum) (l : BitVec 4) (v : Word64) (code : BitVec 8) (line : Word64) (old s : State) : State :=
  if code = 0 then (if d = 0 then s else s.deliver d l (some (Cap.ofInt v)) none)
  else
    let f : Deferred := ⟨code, line, old.pc, s.nextId⟩
    (if d = 0 then s.defer f else s.deliver d l none (some f)).fresh.2

/-- A `mred` word (R136): checks over n bytes at the cursor, an aligned place, then the home. -/
def mredWord (op : RedOp) (l : BitVec 4) (z : BitVec 3) (b a d : RegNum) (s : State) : Out :=
  s.finish (do
    let c := s.reg a
    let n := accessSize z
    let v := (s.int b).toNat % 2 ^ (8 * n)
    s.checkCap s.who c c.cursor n needMred (regName a)
    require (c.cursor.toNat % n == 0) 0x04 c.cursor
    let (pa, t) ← s.translateAt s.who c.space c.addr needMred
    match s.givenEntry with
    | some (g, u) =>
      let old := g.val.val.cursor
      let u := (u.skipEffect.getD u).useStamp.accrue (if g.fault = 0 then (combine op z old.toNat v).2 else 0)
      .ok (takeReply d l old g.fault (c.cursor &&& ~~~63) s u).advance
    | none => do
      let r ← t.countEffect.stamped 0x12 op.code (s.int b) (c.cursor &&& ~~~63) fun u => .ok (mredHome op z pa v u)
      let fl := if r.fault = 0 then (combine op z r.result.toNat v).2 else 0
      let u := (r.state.accrue fl).logEntry ⟨⟨Cap.ofInt r.result, 0⟩, r.fault⟩ 0
      .ok (takeReply d l r.result r.fault (c.cursor &&& ~~~63) s u).advance)

def execMredAdd (l : BitVec 4) (z : BitVec 3) (b a d : RegNum) (s : State) : Out := mredWord .add l z b a d s
def execMredAnd (l : BitVec 4) (z : BitVec 3) (b a d : RegNum) (s : State) : Out := mredWord .and l z b a d s
def execMredOr (l : BitVec 4) (z : BitVec 3) (b a d : RegNum) (s : State) : Out := mredWord .or l z b a d s
def execMredXor (l : BitVec 4) (z : BitVec 3) (b a d : RegNum) (s : State) : Out := mredWord .xor l z b a d s
def execMredMin (l : BitVec 4) (z : BitVec 3) (b a d : RegNum) (s : State) : Out := mredWord .min l z b a d s
def execMredMax (l : BitVec 4) (z : BitVec 3) (b a d : RegNum) (s : State) : Out := mredWord .max l z b a d s
def execMredMinUn (l : BitVec 4) (z : BitVec 3) (b a d : RegNum) (s : State) : Out := mredWord .minUn l z b a d s
def execMredMaxUn (l : BitVec 4) (z : BitVec 3) (b a d : RegNum) (s : State) : Out := mredWord .maxUn l z b a d s
def execMredAddFloat (l : BitVec 4) (z : BitVec 3) (b a d : RegNum) (s : State) : Out := mredWord .addFloat l z b a d s
def execMredMinFloat (l : BitVec 4) (z : BitVec 3) (b a d : RegNum) (s : State) : Out := mredWord .minFloat l z b a d s
def execMredMaxFloat (l : BitVec 4) (z : BitVec 3) (b a d : RegNum) (s : State) : Out := mredWord .maxFloat l z b a d s

end Sys2Proof.Machine
end

