-- ==== Sys2Proof/Machine/Counters.lean ====
section
/-! DEFINITION. Counters: their homes, adds, waits, reads, and the sward tree (06_access R143-R149, 13_counters R249-R260). -/

namespace Sys2Proof.Machine

open Sys2Proof

/-! ## Sward groups (R253, R254) -/

/-- The place of a span that holds a cluster. -/
def spanPlaceOf (span : BitVec 2) (cluster : Nat) : Nat :=
  match span.toNat with
  | 1 => cluster
  | 2 => cluster / 8
  | _ => 0

/-- Whose group a thread's counter n belongs to. The span place is that of the cluster where the thread was created: R253 does not say
whether a thread that has been stolen, or that resumes on another cluster, changes its place (DESIGN CHOICE, log entry 25). -/
def swKey (h : Thread) (n : BitVec 4) : SwKey :=
  let m := h.ctx.swmask[n.toNat]
  ⟨h.launch.getD 0, n.toNat, m.span, spanPlaceOf m.span h.spanPlace⟩

/-- The threads that may be members of a group. -/
def inGroup (k : SwKey) (n : BitVec 4) (h : Thread) : Bool := h.status != .vacant && swKey h n == k

/-- What the tree of counter n holds of a thread. -/
def treeOf (h : Thread) (n : BitVec 4) : SwTree := h.ctx.swtree[n.toNat]

/-- The member counts of a group, those of exited members whose drop has not taken effect among them (R254, R291); a redundant pair
is one member (R388). -/
def memberCounts (s : State) (k : SwKey) (n : BitVec 4) : List Nat :=
  ((s.threads.filter fun h => inGroup k n h && (treeOf h n).member && h.member == 0).map fun h => h.ctx.swcount[n.toNat].toNat)
    ++ (s.leavers.filter fun x => x.key == k).map fun x => x.count.toNat

/-- The group value as last propagated (R253, R254). -/
def swValue (s : State) (k : SwKey) : Word64 :=
  match s.swards.find? (fun x => x.1 == k) with
  | some x => x.2
  | none => 0

def setSwValue (s : State) (k : SwKey) (v : Word64) : State :=
  { s with swards := (k, v) :: s.swards.filter fun x => x.1 != k }

/-- The least of a list of counts. -/
def leastOf : List Nat → Option Nat
  | [] => none
  | x :: r => some (r.foldl min x)

/-- A member's drop takes effect: it leaves the tree, and MEMBER and DROPPING of its register clear together (R254). A register that a
replay has put back to before the drop keeps MEMBER until the drop is made again. -/
def leaveTree (n : BitVec 4) (h : Thread) : Thread :=
  let m := h.ctx.swmask[n.toNat]
  { h with ctx := { h.ctx with
    swtree := h.ctx.swtree.set n.toNat SwTree.none
    swmask := if m.dropping then h.ctx.swmask.set n.toNat { m with member := false, dropping := false } else h.ctx.swmask } }

/-- Members whose drop the group value has reached leave (R254): the count that counts is the drop's, also where the member has arrived
again since. -/
def leaveDropped (k : SwKey) (n : BitVec 4) (v : Nat) (s : State) : State :=
  let t := s.modAll fun h =>
    if inGroup k n h && (treeOf h n).member && (treeOf h n).dropAt.any (fun c => decide (c.toNat ≤ v)) then leaveTree n h else h
  { t with leavers := t.leavers.filter fun x => !(x.key == k && decide (x.dropAt.toNat ≤ v)) }

/-- The group value after an arrival: the least count among members; droppers that it reaches leave, and the value follows at once, so
that it can rise several times on one arrival: R254 says only 'after each arrival' (DESIGN CHOICE, log entry 82). -/
def settle (k : SwKey) (n : BitVec 4) : Nat → State → State
  | 0, s => s
  | fuel + 1, s =>
    match leastOf (memberCounts s k n) with
    | none => s
    | some x =>
      let v := max x (swValue s k).toNat
      let t := leaveDropped k n v (setSwValue s k (BitVec.ofNat 64 v))
      if memberCounts t k n = memberCounts s k n then t else settle k n fuel t

def settleAll (k : SwKey) (n : BitVec 4) (s : State) : State := settle k n (s.threads.length + s.leavers.length + 1) s

/-- The issuing thread's count at the tree, and what the tree holds of it, in both members of a redundant pair, which are one member of
the group (R388). -/
def setMember (n : BitVec 4) (count : Word64) (x : SwTree) (s : State) : State :=
  s.modAll fun h =>
    if h.cref == s.thr.cref && h.world == s.thr.world then
      { h with ctx := { h.ctx with swcount := h.ctx.swcount.set n.toNat count, swtree := h.ctx.swtree.set n.toNat x } }
    else h

def ownCount (n : BitVec 4) (s : State) : Word64 := s.thr.ctx.swcount[n.toNat]
def ownMask (n : BitVec 4) (s : State) : SwMask := s.thr.ctx.swmask[n.toNat]
def ownTree (n : BitVec 4) (s : State) : SwTree := treeOf s.thr n

/-- Set the issuing thread's own register. -/
def setMask (n : BitVec 4) (m : SwMask) (s : State) : State := s.modCtx fun c => { c with swmask := c.swmask.set n.toNat m }

/-- The count of a drop: its own, or that of an earlier drop that has not taken effect yet, since R149 has the member out from the phase
after its first (DEDUCED, log entry 93). -/
def dropCount (x : SwTree) (drop : Bool) (c : Word64) : Option Word64 := if x.dropAt.isNone && drop then some c else x.dropAt

/-- An add to the member's own count at the tree (R144, R149); past 2^64 - 1 it is refused. -/
def swardAdd (n : BitVec 4) (v : Word64) (drop : Bool) (s : State) : State.Reply :=
  let k := swKey s.thr n
  let old := swValue s k
  let own := ownCount n s
  if own.toNat + v.toNat ≥ 2 ^ 64 then ⟨0, 0x20, s⟩
  else ⟨old, 0, settleAll k n (setMember n (own + v) { ownTree n s with dropAt := dropCount (ownTree n s) drop (own + v) } s)⟩

/-- A join at the tree (R254): the joiner's count starts at the group value, and the join is its arrival. -/
def swardJoin (n : BitVec 4) (s : State) : State.Reply :=
  let k := swKey s.thr n
  let v := swValue s k
  if v.toNat + 1 ≥ 2 ^ 64 then ⟨0, 0x20, s⟩
  else ⟨0, 0, settleAll k n (setMember n (v + 1) ⟨true, none⟩ s)⟩

/-- What an arrival leaves in the thread's own register, also where the tree has absorbed it as a repeat (R387): a join sets MEMBER; a
drop sets DROPPING, or, where it has taken effect at the tree, clears both. -/
def maskAgain (n : BitVec 4) (join drop : Bool) (s : State) : State :=
  let m := ownMask n s
  if join then setMask n { m with member := true, dropping := false } s
  else if drop then
    let pending := (ownTree n s).dropAt.isSome
    setMask n { m with member := pending, dropping := pending } s
  else s

/-- The word's stamp is one that its home holds already, or its task's log has its value (R387, R389): it is made again, and what the
thread's registers say of its group does not stop it (log entry 93). -/
def madeBefore (s : State) : Bool :=
  s.givenEntry.isSome || (s.stampKept && (s.sheafFind s.thr.world s.thr.part s.thr.cref s.curPart.stepNo s.thr.ctx.stamped).isSome)

/-! ## Operands (R143) -/

/-- The name that TRAPADDR gives a counter: its line's cursor, or its number (R363). -/
def counterName (k : BitVec 2) (a : RegNum) (s : State) : Word64 := if k = 1 then s.int a else regName a

/-- The counter that an operand names, checked at issue: a line under R82 with the permissions given, aligned; a sward counter
whose group the thread is a member of. -/
def counterRef (k : BitVec 2) (a : RegNum) (need : Need) (s : State) : Res (CtrRef × State) :=
  if k = 0 then .ok (.loc (a.setWidth 4), s)
  else if k = 1 then do
    let c := s.reg a
    s.checkCap s.who c c.cursor 64 need (regName a)
    require (c.cursor.toNat % 64 == 0) 0x04 c.cursor
    let (pa, t) ← s.translateAt s.who c.space c.addr { need with ct := true }
    .ok (.mem pa, t)
  else if (ownMask (a.setWidth 4) s).member then .ok (.sward (a.setWidth 4), s)
  else raise 0x21 (regName a)

/-- The counter of a stamped add: one that is made again names its sward counter whatever MEMBER is now (R387). -/
def addRef (k : BitVec 2) (a : RegNum) (s : State) : Res (CtrRef × State) :=
  if 2 ≤ k.toNat ∧ madeBefore s then .ok (.sward (a.setWidth 4), s) else counterRef k a needCounter s

/-- What a memory home refuses of a counter operation: a poisoned or broken line, a line that is no counter line. -/
def ctrRefusal (q : Req) (pa : Nat) (s : State) : Option (BitVec 8) :=
  match s.readFault q pa 64 with
  | some f => some f.1
  | none => if s.isCounterLine pa then none else some 0x21

/-- The value of a counter at its home (R97). -/
def ctrValue (r : CtrRef) (h : Thread) (s : State) : Word64 :=
  match r with
  | .loc k => h.ctx.kctr[k.toNat]
  | .mem pa => BitVec.ofNat 64 (s.readNat pa 8)
  | .sward n => swValue s (swKey h n)

/-- Why the home refuses to evaluate a counter. -/
def ctrFault (r : CtrRef) (q : Req) (s : State) : Option (BitVec 8) :=
  match r with
  | .mem pa => ctrRefusal q pa s
  | _ => none

/-- Raise a memory counter in its place; its mark and its zero bytes stay. -/
def bumpLine (q : Req) (pa : Nat) (v : Word64) (s : State) : State :=
  let s1 := s.pokeMem pa (bytesOf64 v)
  match sealedRegion pa, s.keyAt q.world pa with
  | true, some k => { s1 with seals := NMap.set s1.seals (pa / 64) ⟨q.world, k⟩ }
  | _, _ => s1

/-- An add at a memory home: refused, past 2^64 - 1 refused with 0x20, else applied (R144). A port logs what it refuses (R336). -/
def lineAdd (q : Req) (pa : Nat) (v : Word64) (s : State) : State.Reply :=
  match ctrRefusal q pa s with
  | some code => ⟨0, code, s.noteRead q pa 64⟩
  | none =>
    let old := BitVec.ofNat 64 (s.readNat pa 8)
    if old.toNat + v.toNat ≥ 2 ^ 64 then ⟨0, 0x20, s⟩ else ⟨old, 0, bumpLine q pa (old + v) s⟩

/-- Set a local counter. -/
def setLocal (k : BitVec 4) (v : Word64) (s : State) : State := s.modCtx fun c => { c with kctr := c.kctr.set k.toNat v }

/-! ## The words -/

/-- The stamp of a local `ctadd`. Its home is in the thread's own context, which a replay restores, so the sheaf holds no entry for it;
but the members of a redundant pair are compared in it, as in any other stamped operation (R387, R388, log entry 23). -/
def stampLocal (k : BitVec 4) (old v : Word64) (s : State) : Res (Word64 × State) :=
  if s.thr.paired then do
    let r ← s.stamped 0x18 0 v (k.setWidth 64) fun u => .ok ⟨old, 0, u⟩
    .ok (r.result, r.state)
  else .ok (old, s.useStamp)

/-- A re-run from a record-mode log holds an arrival that the counter has not reached yet (R393). -/
def holdEarly (v : Word64) (s : State) : Res Unit :=
  if s.arrivesEarly v then holdIn .arrival else .ok ()

/-- `ctadd` on a local counter: the overflow is decided at issue (R144, R364). -/
def ctaddLocal (k : BitVec 4) (b d : RegNum) (l : BitVec 4) (s : State) : Res State := do
  let own := s.thr.ctx.kctr[k.toNat]
  let v := s.int b
  require (decide (own.toNat + v.toNat < 2 ^ 64)) 0x20 (k.setWidth 64)
  holdEarly own s
  let (old, t) ← stampLocal k own v s
  let u := setLocal k (own + v) (t.noteCounter old)
  .ok (if d = 0 then u else u.deliver d l (some (Cap.ofInt old)) none)

/-- An operation on a counter of a peer leaves as a flit with its stamp and the generation of its capability, which aA holds (R260,
R406); the flit of one whose peer no path reaches waits for the link. -/
def sendCounter (r : CtrRef) (a : RegNum) (op : FlitOp) (s : State) : State :=
  match r with
  | .mem pa => s.sendRequest pa s.thr.world s.thr.cref s.curPart.stepNo s.thr.ctx.stamped (s.reg a).gen none op
  | _ => s

/-- A port logs the evaluation of a line that it refuses (R336). -/
def noteRefused (r : CtrRef) (s : State) : State :=
  match r with
  | .mem pa => s.noteRead s.req pa 64
  | _ => s

/-- A stamped counter operation: its reply reaches the register or stays deferred. `again` is what the word does to the thread's
own masks, done over where the home absorbs the operation or the re-run of a task skips it; `send` is the flit of an operation on a
peer's counter. -/
def stampedCounter (send : State → State) (maj func : BitVec 8) (operand line : Word64) (d : RegNum) (l : BitVec 4)
    (home : State → State.Reply) (again : State → State) (s : State) : Res State :=
  match s.givenEntry with
  | some (g, u) =>
    let t := (u.skipEffect.getD u).useStamp
    .ok (takeReply d l g.val.val.cursor g.fault line s (if g.fault = 0 then again t else t))
  | none => do
    let x ← (send s.countEffect).stamped maj func operand line fun u => .ok (home u)
    let u := if x.fault = 0 then again x.state else x.state
    let t := (u.noteCounter x.result).logEntry ⟨⟨Cap.ofInt x.result, 0⟩, x.fault⟩ 0
    .ok (takeReply d l x.result x.fault line s t)

/-- The value that an add would return now. -/
def valueNow (r : CtrRef) (s : State) : Word64 := ctrValue r s.thr s

/-- `ctadd` (R144). -/
def execCtadd (l : BitVec 4) (_sc k : BitVec 2) (b a d : RegNum) (s : State) : Out :=
  s.finish (do
    let (r, t) ← addRef k a s
    let u ← match r with
      | .loc n => ctaddLocal n b d l t
      | .mem pa => do
        holdEarly (valueNow r t) t
        stampedCounter (sendCounter r a (.counterAdd (s.int b))) 0x18 1 (s.int b) (s.int a) d l (lineAdd s.req pa (s.int b)) id t
      | .sward n => do
        holdEarly (valueNow r t) t
        stampedCounter id 0x18 2 (s.int b) (regName a) d l (swardAdd n (s.int b) false) id t
    .ok u.advance)

/-- The request of a wait at its home (R145, R256). -/
def waitRequest (r : CtrRef) (thr : Word64) (limit : Option Nat) (dest : Option RegNum) (name : Word64) (gen : Option (BitVec 12))
    (s : State) : State :=
  (s.modThr fun h => { h with wait := some ⟨r, thr, limit, dest, s.nextId, name, gen, s.now, .held⟩ }).fresh.2

/-- `ctwait` (R145): met at once, or the thread waits at the home until WAITER_WAKE. -/
def execCtwait (_sc k : BitVec 2) (b a : RegNum) (s : State) : Out :=
  s.finish (do
    let (r, t) ← counterRef k a needCounter s
    match ctrFault r s.req t with
    | some code => .ok ((noteRefused r t).defer ⟨code, counterName k a s, s.pc, t.nextId⟩).fresh.2.advance
    | none =>
      let send := sendCounter r a (.counterWait (s.int b) none)
      if s.int b ≤ ctrValue r t.thr t then .ok (send t).advance
      else .error (.hold fun x => waitRequest r (s.int b) none none (counterName k a s) none (send x)))

/-- The home of a counter line in a peer that no path reaches: a `ctwaitt` waits for it within its limit (R260). -/
def unreachedPeer (k : BitVec 2) (a : RegNum) (s : State) : Bool :=
  k == 1 && (s.reg a).space == 7 && !s.peerReached ((s.reg a).addr / 2 ^ 48 % 4096)

/-- What a wait that no home has evaluated reads when its limit expires: a free value below the threshold, since it has not been met
(R146, R257, R260, log entry 6). -/
def unreadValue (thr : Word64) (tick : Nat) : Word64 := BitVec.ofNat 64 ((Config.unstated tick).toNat % thr.toNat)

/-- A counter operand that may wait at an unreached peer. -/
def timedRef (k : BitVec 2) (a : RegNum) (s : State) : Res (CtrRef × State) :=
  if unreachedPeer k a s then do
    let c := s.reg a
    s.checkCap s.who c c.cursor 64 needCounter (regName a)
    require (c.cursor.toNat % 64 == 0) 0x04 c.cursor
    .ok (.mem (paPeer (c.addr / 2 ^ 48 % 4096) (c.addr % 2 ^ 48)), s)
  else counterRef k a needCounter s

/-- `ctwaitt` (R146): as `ctwait`, for at most the nanoseconds that aD holds; aD receives the value read when the wait ends. -/
def execCtwaitt (_sc k : BitVec 2) (b a d : RegNum) (s : State) : Out :=
  s.finish (do
    let (r, t) ← timedRef k a s
    let send := sendCounter r a (.counterWait (s.int b) (some (s.int d).toNat))
    let wait (gen : Option (BitVec 12)) : Res State := .error (.hold fun x =>
      waitRequest r (s.int b) (some (s.now + (s.int d).toNat)) (some d) (counterName k a s) gen (send x))
    if unreachedPeer k a s && s.int d != 0 then wait (some (s.reg a).gen)
    else if unreachedPeer k a s then .ok ((send t.nextTick).writeInt d (unreadValue (s.int b) t.tick)).advance
    else
    match ctrFault r s.req t with
    | some code => .ok ((noteRefused r t).markReg d ⟨code, counterName k a s, s.pc, t.nextId⟩).fresh.2.advance
    | none =>
      let v := ctrValue r t.thr t
      if s.int b ≤ v ∨ s.int d = 0 then do
        holdEarly v t
        .ok (((send t).noteCounter v).writeInt d v).advance
      else wait none)

/-- `ctread` (R147); its reply is logged by a restartable task (R389). -/
def execCtread (l : BitVec 4) (_sc k : BitVec 2) (a d : RegNum) (s : State) : Out :=
  s.finish (do
    let (r, t) ← counterRef k a needCounter s
    match t.givenEntry with
    | some (g, u) => .ok (takeReply d l g.val.val.cursor g.fault (counterName k a s) s u).advance
    | none =>
      match ctrFault r s.req t with
      | some code => .ok (takeReply d l 0 code (counterName k a s) s ((noteRefused r t).logEntry ⟨⟨Cap.null, 0⟩, code⟩ 16)).advance
      | none => do
        let v := ctrValue r t.thr t
        holdEarly v t
        .ok ((((sendCounter r a .counterRead t).noteCounter v).logValue ⟨Cap.ofInt v, 0⟩ 16).deliver d l (some (Cap.ofInt v)) none).advance)

/-- `ctinit` at the line's home (R148): a line already marked is refused, else the line becomes a counter line. -/
def initLine (q : Req) (pa : Nat) (v : Word64) (s : State) : State.Reply :=
  if !s.serves q pa then ⟨0, 0x18, s.notePort q pa⟩
  else if s.isPoisoned pa then ⟨0, 0x40, s⟩
  else if s.isCounterLine pa then ⟨0, 0x21, s⟩
  else
    let t := s.storeLine q pa (bytesOf64 v ++ List.replicate 56 0)
    ⟨0, 0, { t with ctrLines := NSet.add t.ctrLines (pa / 64) }⟩

def execCtinit (b a : RegNum) (s : State) : Out :=
  s.finish (do
    let (r, t) ← counterRef 1 a needInit s
    match r with
    | .mem pa =>
      let u ← stampedCounter (sendCounter r a (.counterInit (s.int b))) 0x1A 1 (s.int b) (s.int a) 0 0 (initLine s.req pa (s.int b)) id t
      .ok u.advance
    | _ => .ok t.advance)

/-- `ctarr` and `ctarr.drop` (R149, R254). -/
def arriveWord (drop : Bool) (a : RegNum) (s : State) : Out :=
  let n : BitVec 4 := a.setWidth 4
  s.finish (do
    require ((ownMask n s).member || madeBefore s) 0x21 (regName a)
    let u ← stampedCounter id 0x1B (if drop then 1 else 0) 0 (regName a) 0 0 (swardAdd n 1 drop) (maskAgain n false drop) s
    .ok u.advance)

def execCtarr (_sc : BitVec 2) (a : RegNum) (s : State) : Out := arriveWord false a s
def execCtarrDrop (_sc : BitVec 2) (a : RegNum) (s : State) : Out := arriveWord true a s

/-- `ctarr.join` (R149, R253): only for a thread that is no member of a group that exists. -/
def execCtarrJoin (_sc : BitVec 2) (a : RegNum) (s : State) : Out :=
  let n : BitVec 4 := a.setWidth 4
  s.finish (do
    require ((ownMask n s).span != 0 && (!(ownMask n s).member || madeBefore s)) 0x21 (regName a)
    let u ← stampedCounter id 0x1B 2 0 (regName a) 0 0 (swardJoin n) (maskAgain n true false) s
    .ok u.advance)

/-! ## Waits that end (R256-R258) -/

/-- The wait of the current thread ends: the word completes, aD of a `ctwaitt` receives the value. -/
def endWait (v : Word64) (w : WaitReq) (s : State) : State :=
  let t := s.modThr fun h => { h with wait := none }
  let u := match w.dest with
    | some d => (t.noteCounter v).writeInt d v
    | none => t
  u.advance.complete

/-- The wait of the current thread ends in a refusal of its home: the word completes, and the fault is deferred (R364, R390). -/
def endRefused (code : BitVec 8) (w : WaitReq) (s : State) : State :=
  let f : Deferred := ⟨code, w.cursor, s.pc, s.nextId⟩
  let t := s.modThr fun h => { h with wait := none }
  (match w.dest with
    | some d => t.markReg d f
    | none => t.defer f).fresh.2.advance.complete

/-- What a home says of a wait on a memory line as it stands: a peer that no path reaches says nothing (R260). -/
def lineVerdict (q : Req) (pa : Nat) (thr : Word64) (s : State) : Verdict :=
  if !s.pathReaches pa then .held
  else match ctrRefusal q pa s with
    | some code => .broken code
    | none =>
      let v : Word64 := BitVec.ofNat 64 (s.readNat pa 8)
      if thr ≤ v then .met v else .held

/-- The home of a peer's line that a path reaches now, for the first time since the word issued, refuses the wait: the generation is
another (R407). -/
def genRefused (w : WaitReq) (s : State) : Bool :=
  match w.ctr, w.gen with
  | .mem pa, some g => !s.peerGenOk (pa - 4 * regionSize) g
  | _, _ => false

/-- What the home of a thread's wait says: what it has said already, or what the counter shows now. -/
def waitVerdict (h : Thread) (w : WaitReq) (s : State) : Verdict :=
  match w.verdict with
  | .held =>
    if genRefused w s then .broken 0x06
    else match w.ctr with
      | .mem pa => lineVerdict ⟨h.world, some h.cluster⟩ pa w.thr s
      | r => if w.thr ≤ ctrValue r h s then .met (ctrValue r h s) else .held
  | v => v

/-- The home has compared the generation once a path reaches it. -/
def genSeen (w : WaitReq) (s : State) : Option (BitVec 12) :=
  match w.ctr with
  | .mem pa => if s.pathReaches pa then none else w.gen
  | _ => none

/-- The value that the home of a line reads when the limit of a wait there expires; a peer that no path reaches reads nothing. -/
def lineExpiry (pa : Nat) (thr : Word64) (s : State) : Word64 :=
  if s.pathReaches pa then BitVec.ofNat 64 (s.readNat pa 8) else unreadValue thr s.tick

/-- The value that a wait's home reads when its limit expires. -/
def expiryValue (h : Thread) (w : WaitReq) (s : State) : Word64 :=
  match w.ctr with
  | .mem pa => lineExpiry pa w.thr s
  | r => ctrValue r h s

/-- The homes judge the waits that they hold, at the point of home order that each step ends with (R257, R258): an add that meets a
wait, or the end of its line, counts from then on. -/
def judgeWait (s : State) (h : Thread) : Thread :=
  match h.wait with
  | some w => { h with wait := some { w with verdict := waitVerdict h w s, gen := genSeen w s } }
  | none => h

def judgeHostWait (s : State) (x : HostWait) : HostWait :=
  match x.verdict with
  | .held => { x with verdict := lineVerdict ⟨x.world, none⟩ x.pa x.thr s }
  | _ => x

/-- A peer's wait at a home here. -/
def judgePeerWait (s : State) (x : PeerWait) : PeerWait :=
  match x.verdict with
  | .held => { x with verdict := lineVerdict ⟨x.world, none⟩ x.pa x.thr s }
  | _ => x

def judgeWaits (s : State) : State :=
  { s.modAll (judgeWait s) with
    hostWaits := s.hostWaits.map (judgeHostWait s), hub := { s.hub with peerWaits := s.hub.peerWaits.map (judgePeerWait s) } }

end Sys2Proof.Machine
end

