-- ==== Sys2Proof/Machine/Cards.lean ====
section
/-! DEFINITION. The card of a copy job and what its fields give: formats, extents, strides, streams, and the completion adds that a
job has still to make (06_access R150-R152, R154). -/

namespace Sys2Proof.Machine

open Sys2Proof

/-! ## The card (R150-R152) -/

/-- A little-endian field of a card. -/
def cardNat (card : List Byte) (off n : Nat) : Nat := leNat ((card.drop off).take n)

def cardCap (card : List Byte) (off : Nat) (tag : Bool) : Cap := ⟨BitVec.ofNat 128 (cardNat card off 16), tag⟩

def cardExt (card : List Byte) (j : Nat) : Nat := cardNat card (32 + 2 * j) 2

/-- A stride, j = 1 to 7, of the array at `off`. -/
def cardStride (card : List Byte) (off j : Nat) : Int := signedOf 32 (cardNat card (off + 4 * (j - 1)) 4)

def cardCtl (card : List Byte) : Nat := cardNat card 112 8
def ctlSrc (c : Nat) : Nat := c % 32
def ctlDst (c : Nat) : Nat := c / 32 % 32
def ctlEsz (c : Nat) : Nat := c / 2 ^ 10 % 8
def ctlRm (c : Nat) : BitVec 2 := BitVec.ofNat 2 (c / 2 ^ 13)
def ctlSat (c : Nat) : Bool := c.testBit 15
def ctlAddm (c : Nat) : Bool := c.testBit 16
def ctlCkind (c : Nat) : Nat := c / 2 ^ 17 % 4
def ctlKnum (c : Nat) : BitVec 4 := BitVec.ofNat 4 (c / 2 ^ 19)
def ctlRestartable (c : Nat) : Bool := c.testBit 23

def ctlRaw (c : Nat) : Bool := ctlSrc c == 31 && ctlDst c == 31
def fmtOf5 (n : Nat) : Fmt := (Fmt.ofCode (BitVec.ofNat 5 n)).getD .f32

/-- Bits of a source and of a destination element. -/
def srcBits (card : List Byte) : Nat :=
  let c := cardCtl card
  if ctlRaw c then 8 * 2 ^ ctlEsz c else fmtBits (fmtOf5 (ctlSrc c))
def dstBits (card : List Byte) : Nat :=
  let c := cardCtl card
  if ctlRaw c then 8 * 2 ^ ctlEsz c else fmtBits (fmtOf5 (ctlDst c))

/-- The number of elements. -/
def cardElems (card : List Byte) : Nat := ((List.range 8).map (cardExt card)).foldl (· * ·) 1

/-- Bytes of the destination stream, and of one row of it (all of e0). -/
def streamBytes (card : List Byte) : Nat := cardElems card * dstBits card / 8
def streamRow (card : List Byte) : Nat := cardExt card 0 * dstBits card / 8
def sectorCount (card : List Byte) : Nat := (streamBytes card + 255) / 256

/-- The index ij of a row, i1 fastest. -/
def rowIndex (card : List Byte) (row : Nat) : Nat → Nat
  | 0 => 0
  | 1 => row % cardExt card 1
  | j + 1 => row / (((List.range j).map fun x => cardExt card (x + 1)).foldl (· * ·) 1) % cardExt card (j + 1)

/-- The offset of a row: the sum of ij × stride j over j = 1 to 7. -/
def rowOffset (card : List Byte) (strides row : Nat) : Int :=
  ((List.range 7).map fun x => (rowIndex card row (x + 1) : Int) * cardStride card strides (x + 1)).foldl (· + ·) 0

/-- The address at which a row starts. -/
def srcRowAddr (j : Job) (row : Nat) : Int := (cardCap j.card 0 j.srcTag).addr + rowOffset j.card 48 row
def dstRowAddr (j : Job) (row : Nat) : Int := (cardCap j.card 16 j.dstTag).addr + rowOffset j.card 80 row

/-- The job has not ended. -/
def jobLive (j : Job) : Bool := j.state == .queued || j.state == .running || j.state == .paused

/-- Bytes of sector k. -/
def sectorBytes (card : List Byte) (k : Nat) : Nat := min 256 (streamBytes card - 256 * k)

/-- What a live job has still to add to its counter (R154). -/
def addsLeft (j : Job) : Nat :=
  if ctlAddm (cardCtl j.card) then 1 else streamBytes j.card - (j.landed.map (sectorBytes j.card)).foldl (· + ·) 0

/-- The completion adds that live copy jobs of a thread have still to make into its kN (CKIND 01); a job of either member of a redundant
pair adds to both (R388). -/
def pendingJobs (t : Nat) (k : BitVec 4) (s : State) : Nat :=
  (s.clusters.flatMap fun x => (x.2.engine.entries.filter fun e =>
    jobLive e.2 && (e.2.tid == t || s.pairOf t e.2.cref e.2.world) && ctlCkind (cardCtl e.2.card) == 1 && ctlKnum (cardCtl e.2.card) == k).map
      fun e => addsLeft e.2).foldl (· + ·) 0

end Sys2Proof.Machine
end

