-- ==== Sys2Proof/Machine/Flags.lean ====
section
/-! DEFINITION. One element's arithmetic with the flags it accrues (08_numbers R179; 10_vector R203-R214). -/

namespace Sys2Proof.Machine

open Sys2Proof

/-! ## Floats (R204-R208) -/

/-- One rounding of a result whose own flags are `fl` (R162). -/
def rounded (f : Fmt) (rm : BitVec 2) (x : Num × Flags) (more : Bool := false) : Nat × Flags :=
  let (c, fl) := roundTo f rm x.1 more
  (c, x.2 ||| fl)

def floatAdd (f : Fmt) (rm : BitVec 2) (a b : Nat) : Nat × Flags := rounded f rm (numAdd rm (decodeNum f a) (decodeNum f b))

/-- A subtraction (R176): B is negated first, and the zero-sign rule then looks at the operands of the sum. R176 does not say whether
its operands are those before or after the negation, and R206 says it of the fused family alone (DESIGN CHOICE, log entry 80). -/
def floatSub (f : Fmt) (rm : BitVec 2) (a b : Nat) : Nat × Flags :=
  rounded f rm (numAdd rm (decodeNum f a) (decodeNum f b).neg)
def floatMul (f : Fmt) (rm : BitVec 2) (a b : Nat) : Nat × Flags := rounded f rm (numMul (decodeNum f a) (decodeNum f b))

/-- The fused family (R206): 0 × ∞ decides first, then NaN sources, then the exact sum. -/
def floatFused (f : Fmt) (rm : BitVec 2) (negP negC : Bool) (a b c : Nat) : Nat × Flags :=
  let x := decodeNum f a
  let y := decodeNum f b
  let z := decodeNum f c
  let (p, fp) := numMul x y
  if p.isNan && !x.isNan && !y.isNan then (canonNan f, fInvalid)
  else if x.isNan || y.isNan || z.isNan then (canonNan f, flagIf (x.isSNan || y.isSNan || z.isSNan) fInvalid)
  else
    let (q, fl) := numAdd rm (if negP then p.neg else p) (if negC then z.neg else z)
    rounded f rm (q, fp ||| fl)

/-- Division (R207). -/
def floatDiv (f : Fmt) (rm : BitVec 2) (a b : Nat) : Nat × Flags :=
  match decodeNum f a, decodeNum f b with
  | .nan s, y => (canonNan f, flagIf (s || y.isSNan) fInvalid)
  | _, .nan s => (canonNan f, flagIf s fInvalid)
  | .inf _, .inf _ => (canonNan f, fInvalid)
  | .inf m, y => rounded f rm (.inf (m != y.sign), 0)
  | x, .inf n => rounded f rm (.fin (x.sign != n) 0 0, 0)
  | .fin m ma ea, .fin n mb eb =>
    if mb = 0 then
      if ma = 0 then (canonNan f, fInvalid) else rounded f rm (.inf (m != n), fDivZero)
    else
      let (q, k, more) := quotient ma mb
      rounded f rm (.fin (m != n) q (ea - eb - k), 0) more

/-- Square root. -/
def floatSqrt (f : Fmt) (rm : BitVec 2) (a : Nat) : Nat × Flags :=
  match decodeNum f a with
  | .nan s => (canonNan f, flagIf s fInvalid)
  | .inf n => if n then (canonNan f, fInvalid) else rounded f rm (.inf false, 0)
  | .fin n m e =>
    if m = 0 then rounded f rm (.fin n 0 0, 0)
    else if n then (canonNan f, fInvalid)
    else
      let (r, x, more) := rootOf m e
      rounded f rm (.fin false r x, 0) more

/-- Reciprocal. -/
def floatRcp (f : Fmt) (rm : BitVec 2) (a : Nat) : Nat × Flags :=
  match decodeNum f a with
  | .nan s => (canonNan f, flagIf s fInvalid)
  | .inf n => rounded f rm (.fin n 0 0, 0)
  | .fin n m e =>
    if m = 0 then rounded f rm (.inf n, fDivZero)
    else
      let (q, k, more) := quotient 1 m
      rounded f rm (.fin n q (-e - k), 0) more

/-- Reciprocal square root. -/
def floatRsq (f : Fmt) (rm : BitVec 2) (a : Nat) : Nat × Flags :=
  match decodeNum f a with
  | .nan s => (canonNan f, flagIf s fInvalid)
  | .inf n => if n then (canonNan f, fInvalid) else rounded f rm (.fin false 0 0, 0)
  | .fin n m e =>
    if m = 0 then rounded f rm (.inf n, fDivZero)
    else if n then (canonNan f, fInvalid)
    else
      let (r, x, more) := recipRootOf m e
      rounded f rm (.fin false r x, 0) more

/-- 2^a. -/
def floatExp2 (f : Fmt) (rm : BitVec 2) (a : Nat) : Nat × Flags :=
  match decodeNum f a with
  | .nan s => (canonNan f, flagIf s fInvalid)
  | .inf n => rounded f rm (if n then .fin false 0 0 else .inf false, 0)
  | .fin n m e =>
    let (x, more) := exp2Of n m e
    rounded f rm (x, 0) more

/-- log2 a. -/
def floatLog2 (f : Fmt) (rm : BitVec 2) (a : Nat) : Nat × Flags :=
  match decodeNum f a with
  | .nan s => (canonNan f, flagIf s fInvalid)
  | .inf n => if n then (canonNan f, fInvalid) else rounded f rm (.inf false, 0)
  | .fin n m e =>
    if m = 0 then rounded f rm (.inf true, fDivZero)
    else if n then (canonNan f, fInvalid)
    else
      let (x, more) := log2Of m e
      rounded f rm (x, 0) more

/-- `fabs`, `fneg`, `fsgn` change the sign bit alone (R205). -/
def clearSign (f : Fmt) (a : Nat) : Nat := a % 2 ^ (fmtBits f - 1)
def flipSign (f : Fmt) (a : Nat) : Nat := a ^^^ 2 ^ (fmtBits f - 1)
def copySign (f : Fmt) (a b : Nat) : Nat := clearSign f a + (b - clearSign f b)

/-! ## Relations (R209) -/

inductive Rel where
  | eq | ne | lt | le | gt | ge
  deriving DecidableEq, Repr

def Rel.holds (r : Rel) (o : Ordering) : Bool :=
  match r with
  | .eq => o == .eq | .ne => o != .eq | .lt => o == .lt | .le => o != .gt | .gt => o == .gt | .ge => o != .lt

/-- An integer relation, signed or unsigned. -/
def intRel (r : Rel) (un : Bool) (w a b : Nat) : Bool :=
  r.holds (if un then compare a b else compare (signedOf w a) (signedOf w b))

/-- A float relation: a NaN makes only `ne` hold; a signalling NaN sets INVALID. -/
def floatRel (f : Fmt) (r : Rel) (a b : Nat) : Bool × Flags :=
  let x := decodeNum f a
  let y := decodeNum f b
  if x.isNan || y.isNan then (r == .ne, flagIf (x.isSNan || y.isSNan) fInvalid) else (r.holds (numCmp x y), 0)

/-- A threshold relation: nothing holds with a NaN on either side. -/
def thresholdRel (f : Fmt) (r : Rel) (a b : Nat) : Bool × Flags :=
  let x := decodeNum f a
  let y := decodeNum f b
  if x.isNan || y.isNan then (false, flagIf (x.isSNan || y.isSNan) fInvalid) else (r.holds (numCmp x y), 0)

/-- The mask of an element: all ones or zero. -/
def maskOf (w : Nat) (p : Bool) : Nat := if p then 2 ^ w - 1 else 0

/-! ## Integers (R203, R213) -/

/-- The low w bits of an integer. -/
def wrap (w : Nat) (x : Int) : Nat := (Int.emod x (2 ^ w)).toNat

/-- Bits [2w-1 : w] of the product. -/
def mulHighW (un : Bool) (w a b : Nat) : Nat :=
  if un then a * b / 2 ^ w else wrap w (Int.ediv (signedOf w a * signedOf w b) (2 ^ w))

def shlW (w a c : Nat) : Nat := if c ≥ w then 0 else a * 2 ^ c % 2 ^ w
def shrW (w a c : Nat) : Nat := if c ≥ w then 0 else a / 2 ^ c
def sraW (w a c : Nat) : Nat := wrap w (Int.ediv (signedOf w a) (2 ^ (min c (w - 1))))
def lessW (un : Bool) (w a b : Nat) : Bool := if un then decide (a < b) else decide (signedOf w a < signedOf w b)
def minW (un : Bool) (w a b : Nat) : Nat := if lessW un w b a then b else a
def maxW (un : Bool) (w a b : Nat) : Nat := if lessW un w a b then b else a
def absW (w a : Nat) : Nat := wrap w (signedOf w a).natAbs
def clzW (w a : Nat) : Nat := w - bitLen a

/-- The number of one bits below bit `w`. -/
def popW : Nat → Nat → Nat
  | 0, _ => 0
  | w + 1, a => (if a.testBit w then 1 else 0) + popW w a

/-- SatS of R213: signed saturation of a w-bit element to v bits, with the flag of a clamp. -/
def satS (w v a : Nat) : Nat × Flags :=
  let x := signedOf w a
  if x < -(2 ^ (v - 1) : Int) then (2 ^ (v - 1), fInexact)
  else if x > 2 ^ (v - 1) - 1 then (2 ^ (v - 1) - 1, fInexact)
  else (wrap v x, 0)

end Sys2Proof.Machine
end

