-- ==== Sys2Proof/Machine/Operands.lean ====
section
/-! DEFINITION. The operands of execute-half words: registers through the v-view, queue entries, elements, the kill mark, and the
common effect of majors 0x20-0x29 (10_vector R199-R202; 09_streaming R187-R189). -/

namespace Sys2Proof.Machine

open Sys2Proof

/-! ## Elements (R200) -/

/-- The first `n` elements of `w` bits. -/
def elemsOf (w n : Nat) (v : Vec512) : List Nat := (List.range n).map fun i => v.toNat / 2 ^ (w * i) % 2 ^ w

/-- Elements of `w` bits from the low end up, as a number. -/
def packElems (w : Nat) : List Nat → Nat
  | [] => 0
  | x :: r => x % 2 ^ w + 2 ^ w * packElems w r

def vecOf (w : Nat) (l : List Nat) : Vec512 := BitVec.ofNat 512 (packElems w l)

def ElemTy.bits (e : ElemTy) : Nat := 8 * e.bytes

/-- The elements of a register under ET. -/
def lanes (e : ElemTy) (v : Vec512) : List Nat := elemsOf (ElemTy.bits e) e.count v

def ofLanes (e : ElemTy) (l : List Nat) : Vec512 := vecOf (ElemTy.bits e) l

/-- Results with flags: the values, and all flags together. -/
def gather (l : List (Nat × Flags)) : List Nat × Flags := (l.map (·.1), l.foldl (fun f x => f ||| x.2) 0)

/-- XFLAGS.VOID when an element equals the void code of its type (R189). -/
def voidSeen (e : ElemTy) (l : List Nat) : Flags := flagIf (l.any (· == voidCode e)) fVoid

/-- An element-by-element word of one, two or three sources. -/
def lanes1 (e : ElemTy) (f : Nat → Nat × Flags) (x : Vec512) : Vec512 × Flags :=
  let (l, fl) := gather ((lanes e x).map f)
  (ofLanes e l, fl)

def lanes2 (e : ElemTy) (f : Nat → Nat → Nat × Flags) (x y : Vec512) : Vec512 × Flags :=
  let (l, fl) := gather (List.zipWith f (lanes e x) (lanes e y))
  (ofLanes e l, fl)

def lanes3 (e : ElemTy) (f : Nat → Nat → Nat → Nat × Flags) (x y z : Vec512) : Vec512 × Flags :=
  let (l, fl) := gather (List.zipWith (fun g c => g c) (List.zipWith f (lanes e x) (lanes e y)) (lanes e z))
  (ofLanes e l, fl)

/-! ## Registers of the v-view and queues (R199, R51, R52) -/

/-- Offset in the frame of register n, and its offset in the window space. -/
def viewOff (r : RegNum) (s : State) : Nat := s.thr.ctx.vbase.toNat * 64 + 64 * r.toNat
def winOff (r : RegNum) (s : State) : Nat := s.thr.ctx.wbase + viewOff r s

/-- The pops of a word in the order in which it reads its sources (R52), each against the balance that the earlier ones leave. -/
def checkPops (s : State) : Nat → Nat → List RegNum → Res Unit
  | _, _, [] => .ok ()
  | n0, n1, r :: rest =>
    if r = 28 then do
      require (decide (n0 < s.thr.ctx.lq0.length)) 0x02 0
      checkPops s (n0 + 1) n1 rest
    else if r = 29 then do
      require (decide (n1 < s.thr.ctx.lq1.length)) 0x02 1
      checkPops s n0 (n1 + 1) rest
    else checkPops s n0 n1 rest

/-- Queue balance of the word's pops and its push (R90). -/
def checkQueues (srcs : List RegNum) (dst : Option RegNum) (s : State) : Res Unit := do
  checkPops s 0 0 srcs
  require (dst != some 30 || decide (s.thr.ctx.sq0.length < Config.sqDepth)) 0x02 6
  require (dst != some 31 || decide (s.thr.ctx.sq1.length < Config.sqDepth)) 0x02 7

/-- View bounds of every field that the word uses (R199): TRAPADDR is the operand's window offset. Where several fields lie outside, it
names the first in the order in which the word reads them, D first for `vmad` and `vsel` (R52), and a destination that is not read
last (DESIGN CHOICE, log entry 59). -/
def checkViews (s : State) : List RegNum → Res Unit
  | [] => .ok ()
  | r :: rest => do
    require (decide (28 ≤ r.toNat) || decide (viewOff r s + 64 ≤ s.thr.ctx.fs)) 0x04 (BitVec.ofNat 64 (winOff r s))
    checkViews s rest

/-- Read one source: 64 bytes of the window, or one popped entry. -/
def readSource (r : RegNum) (s : State) : Res (Vec512 × State) :=
  if r.toNat < 28 then .ok (vecOfBytes (s.winRead (winOff r s) 64), s) else s.popQueue (r.toNat - 28)

/-- Read the sources in order (R52). -/
def readSources (s : State) : List RegNum → Res (List Vec512 × State)
  | [] => .ok ([], s)
  | r :: rest => do
    let (v, t) ← readSource r s
    let (vs, u) ← readSources t rest
    .ok (v :: vs, u)

/-- A void fill is later than every earlier entry: nothing of theirs in these bytes may come back (R187, R193). -/
def dropBytes (a n : Nat) (e : StreamEntry) : StreamEntry :=
  { e with new := Cells.clear e.new a n, old := Cells.clear e.old a n }

/-- Fill a K-marked register with the void code; a queue ignores K (R187, R188). -/
def fillVoid (e : ElemTy) (r : RegNum) (s : State) : State :=
  if r.toNat < 28 then
    let off := winOff r s
    let bs := bytesOf512 (ofLanes e (List.replicate e.count (voidCode e)))
    (s.winWrite off bs).modCtx fun c => { c with stream := c.stream.map (dropBytes off 64) }
  else s

def fillMarked (e : ElemTy) : List (Bool × RegNum) → State → State
  | [], s => s
  | (k, r) :: rest, s => fillMarked e rest (if k then fillVoid e r s else s)

/-- Write a result: all 64 bytes of D through the stream frame, or one pushed entry (R191, R201). R192 gives DOFF for the window alone: an
entry whose destination is a store queue holds 0 there (DESIGN CHOICE, log entry 8). -/
def writeResult (d : RegNum) (v : Vec512) (fl : Flags) (s : State) : Res State :=
  if d.toNat < 28 then .ok (s.streamWrite 0 (winOff d s) (bytesOf512 v) fl)
  else do
    let t ← s.pushQueue (d.toNat - 28) ⟨v, none, false⟩
    .ok (t.streamWrite (d.setWidth 2) 0 [] fl)

/-- The common effect of majors 0x20-0x29 (R201). `srcs` are read in order, D first where the word reads it. -/
def vecWord (srcs : List RegNum) (d : RegNum) (e : ElemTy) (kills : List (Bool × RegNum))
    (f : List Vec512 → Vec512 × Flags) (s : State) : Out :=
  s.finish (do
    checkQueues srcs (some d) s
    checkViews s (srcs ++ [d])
    let (vs, t) ← readSources s srcs
    let (v, fl) := f vs
    let u ← writeResult d v fl (fillMarked e kills t)
    .ok u.advance)

/-- A word of one source. -/
def vecWord1 (e : ElemTy) (a d : RegNum) (f : Vec512 → Vec512 × Flags) (s : State) : Out :=
  vecWord [a] d e [] (fun vs => f (vs[0]?.getD 0)) s

/-- A word of two sources, with their kill marks. -/
def vecWord2 (e : ElemTy) (ka kb : Bool) (b a d : RegNum) (f : Vec512 → Vec512 → Vec512 × Flags) (s : State) : Out :=
  vecWord [a, b] d e [(ka, a), (kb, b)] (fun vs => f (vs[0]?.getD 0) (vs[1]?.getD 0)) s

/-- A word that reads D, then A and B (R201). -/
def vecWordD (e : ElemTy) (ka kb : Bool) (b a d : RegNum) (f : Vec512 → Vec512 → Vec512 → Vec512 × Flags) (s : State) : Out :=
  vecWord [d, a, b] d e [(ka, a), (kb, b)] (fun vs => f (vs[0]?.getD 0) (vs[1]?.getD 0) (vs[2]?.getD 0)) s

/-- Flags of an element word whose sources count for VOID (R202). -/
def withVoid (e : ElemTy) (srcs : List Vec512) (r : Vec512 × Flags) : Vec512 × Flags :=
  (r.1, r.2 ||| srcs.foldl (fun f v => f ||| voidSeen e (lanes e v)) 0)

end Sys2Proof.Machine
end

