-- ==== Sys2Proof/Machine/Matrix.lean ====
section
/-! DEFINITION. Matrix units: classes, tiles, slots and their capabilities, commands, `mmar`, `aread`, `arel`, and what happens on a
slot (11_matrix R223-R240; arithmetic of 08_numbers R180-R182 and 09_streaming R196). -/

namespace Sys2Proof.Machine

open Sys2Proof

/-! ## Classes (R223) -/

/-- Local clusters 5 to 7 have a broad unit. -/
def broadUnit (c : Nat) : Bool := 5 ≤ c % 8

/-- The side of a slot. -/
def slotSide (c : Nat) : Nat := if broadUnit c then 64 else 128

/-- The operand formats of a class. -/
def operandOk (broad : Bool) (f : Fmt) : Bool :=
  match f with
  | .bf16 | .t8 | .e4m3 | .e5m2 => broad
  | .e2m1 | .t6 => !broad
  | _ => false

/-- The core of a cluster on which a thread runs (R13: sixteen cores of eight slots). -/
def coreOf (h : Thread) : Nat := h.place.getD 0 % 128 / 8

/-! ## The format word (R225) and tiles (R220, R227) -/

/-- FC[3:0] of a tile or an operand (R220). -/
def fmtOfCode (n : Nat) : Option Fmt :=
  match n with
  | 0 => some .f32
  | 1 => some .bf16
  | 2 => some .e5m2
  | 3 => some .e4m3
  | 4 => some .e2m1
  | 5 => some .t8
  | 6 => some .t6
  | _ => none

def fwA (w : Word64) : Nat := w.toNat % 16
def fwB (w : Word64) : Nat := w.toNat / 16 % 16
def fwScale (w : Word64) : Fmt := if w.getLsbD 8 then .e4m3 else .e5m2
def fwBlk (w : Word64) : Nat := w.toNat / 512 % 4
def fwAsct (w : Word64) : Nat := w.toNat / 2 ^ 12 % 8
def fwBsct (w : Word64) : Nat := w.toNat / 2 ^ 16 % 8

def shapeRows (t : BitVec 19) : Nat := t.toNat / 16 % 128 + 1
def shapeCols (t : BitVec 19) : Nat := t.toNat / 2 ^ 11 % 256 + 1
def shapeFmt (t : BitVec 19) : Option Fmt := fmtOfCode (t.toNat % 16)

/-- RowBytes of R220. -/
def rowBytes (f : Fmt) (cols : Nat) : Nat :=
  match f with
  | .e2m1 => (cols + 1) / 2
  | .t6 => 3 * ((cols + 3) / 4)
  | .f32 => 4 * cols
  | .bf16 => 2 * cols
  | _ => cols

/-- The format of a valid shape. -/
def shapeValid (t : BitVec 19) : Option Fmt :=
  (shapeFmt t).bind fun f => if shapeRows t * rowBytes f (shapeCols t) ≤ 8192 then some f else none

/-- TSHAPEt of the thread. -/
def tileShape (t : Nat) (s : State) : BitVec 19 := s.thr.ctx.tshape[t]?.getD 0

/-- The bytes of a tile; an invalid shape has none. -/
def tileSize (t : BitVec 19) : Nat := match shapeFmt t with
  | some f => shapeRows t * rowBytes f (shapeCols t)
  | none => 0

/-- The offset of a tile in the frame (R227). -/
def tileOff (t : Nat) (s : State) : Nat := s.thr.ctx.tbase.toNat * 64 + t * (s.thr.ctx.tstride.toNat * 64)

/-- The tile lies within the frame (check 4 of R232). -/
def tileInFrame (t : Nat) (s : State) : Res Unit :=
  require (decide (tileOff t s + tileSize (tileShape t s) ≤ s.thr.ctx.fs)) 0x04 (BitVec.ofNat 64 (s.thr.ctx.wbase + tileOff t s))

def tilesInFrame (s : State) : List Nat → Res Unit
  | [] => .ok ()
  | t :: r => do
    tileInFrame t s
    tilesInFrame s r

/-- The tile's bytes, read after every earlier word that writes them (R234). -/
def tileBytes (t : Nat) (s : State) : List Byte := s.winRead (s.thr.ctx.wbase + tileOff t s) (tileSize (tileShape t s))

/-- Earlier words that write a tile have completed. -/
def awaitTiles (s : State) : List Nat → State
  | [] => s
  | t :: r => awaitTiles (s.completeInto (s.thr.ctx.wbase + tileOff t s) (tileSize (tileShape t s))) r

/-- The code of element (row, column) of a tile (R180, R227). -/
def tileElem (f : Fmt) (cols : Nat) (bs : List Byte) (r c : Nat) : Nat :=
  let row := r * rowBytes f cols
  let at_ (o n : Nat) : Nat := leNat ((bs.drop (row + o)).take n)
  match f with
  | .e2m1 => at_ (c / 2) 1 / 16 ^ (c % 2) % 16
  | .t6 => at_ (c / 4 * 3) 3 / 64 ^ (c % 4) % 64
  | .f32 => at_ (4 * c) 4
  | .bf16 => at_ (2 * c) 2
  | _ => at_ c 1

/-! ## Shape conditions (R228) -/

def mismatch {α : Type} (cause : Nat) : Res α := raise 0x30 (BitVec.ofNat 64 cause)

def requireCause (p : Bool) (cause : Nat) : Res Unit := if p then .ok () else mismatch cause

/-- A scale tile as cause 7 wants it. -/
def scaleTileOk (f : Fmt) (rows cols : Nat) (t : BitVec 19) : Bool :=
  shapeValid t == some f && shapeRows t == rows && shapeCols t == cols

/-- Causes 1 to 7 of R228, in their order, and the command's shape. -/
def commandShape (broad : Bool) (tA tB : Nat) (s : State) : Res MShape := do
  let w := s.thr.ctx.fmtWord
  let a := tileShape tA s
  let b := tileShape tB s
  match (fmtOfCode (fwA w)).filter (operandOk broad), (fmtOfCode (fwB w)).filter (operandOk broad) with
  | some fa, some fb =>
    requireCause ((shapeValid a).isSome && (shapeValid b).isSome) 2
    requireCause (shapeFmt a == some fa && shapeFmt b == some fb) 3
    requireCause (shapeCols a == shapeCols b) 4
    let m := shapeRows a
    let n := shapeRows b
    let k := shapeCols a
    requireCause (!broad || (m ≤ 64 && n ≤ 64 && k ≤ 128)) 5
    if broad || fwBlk w == 3 then .ok ⟨m, n, k, fa, fb, 8, none⟩
    else do
      let blk := 8 * 2 ^ fwBlk w
      requireCause (k % blk == 0) 6
      let f := fwScale w
      requireCause (scaleTileOk f m (k / blk) (tileShape (fwAsct w) s) && scaleTileOk f n (k / blk) (tileShape (fwBsct w) s)) 7
      .ok ⟨m, n, k, fa, fb, blk, some f⟩
  | _, _ => mismatch 1

/-- The tiles that a command reads. -/
def commandTiles (sh : MShape) (tA tB : Nat) (s : State) : List Nat :=
  if sh.scale.isSome then [tA, tB, fwAsct s.thr.ctx.fmtWord, fwBsct s.thr.ctx.fmtWord] else [tA, tB]

/-! ## Slots (R229-R231) -/

def modUnit (c : Nat) (f : MUnit → MUnit) (s : State) : State := s.modCluster c fun x => { x with mat := f x.mat }

/-- Keep a slot as it stands before its first modification in the partition's step (R240, R384). -/
def snapSlot (p c k : Nat) (s : State) : State :=
  let x := s.part p
  if !x.keeps || x.slotSnaps.any (fun z => z.cluster == c && z.slot == k) then s
  else s.modPart p fun y => { y with slotSnaps := y.slotSnaps ++ [⟨c, k, slotAt c k s⟩] }

def setSlot (p c k : Nat) (x : MSlot) (s : State) : State :=
  modUnit c (fun u => { u with slots := NMap.set u.slots k x }) (snapSlot p c k s)

/-- The slot's incarnation ends (R231): it returns to the free list, or retires at the last incarnation. An incarnation that stands in a
save area is not given again (R240). -/
def endSlot (p c k : Nat) (s : State) : State :=
  let x := slotAt c k s
  let n := max (x.sinc.toNat + 1) x.next
  if 2 ^ 46 ≤ n then
    setSlot p c k { MSlot.free with sinc := x.sinc, next := n, retired := true } (s.logEvent (.slotRetired c k))
  else setSlot p c k { MSlot.free with sinc := BitVec.ofNat 46 n, next := n } s

/-- The slot holds the incarnation that a command or a capability names. -/
def slotIs (c k : Nat) (sinc : BitVec 46) (s : State) : Bool := (slotAt c k s).used && (slotAt c k s).sinc == sinc

/-- CURSOR of a slot capability (R229). -/
def slotCursor (c k : Nat) (sinc : BitVec 46) : Word64 :=
  (0 : BitVec 4) ++ (sinc.extractLsb' 16 12 ++ (sinc.extractLsb' 0 16 ++ ((0 : BitVec 2) ++
    (BitVec.ofNat 6 c ++ (sinc.extractLsb' 28 18 ++ BitVec.ofNat 6 k)))))

/-- A SPACE 110 capability with bounds over exactly its own address, PERM R, W and GC as given. -/
def slotSpaceCap (perm : BitVec 9) (gen : Nat) (cur : Word64) : Cap :=
  ⟨capBits 6 perm (BitVec.ofNat 12 gen) 0 (BitVec.ofNat 17 (cur.toNat % 2 ^ 30)) 1 cur, true⟩

/-- The slot capability that `.new` makes. -/
def slotCap (c k : Nat) (sinc : BitVec 46) (gen : Nat) : Cap := slotSpaceCap 0x043 gen (slotCursor c k sinc)

/-- No bit of the cursor lies outside the fields of its KIND (R229, R156). -/
def slotLayoutOk (v : Word64) : Bool :=
  match curKind v with
  | 0 => v.toNat / 2 ^ 30 % 4 == 0
  | 1 | 2 => v.toNat % 2 ^ 24 == 0 && v.toNat / 2 ^ 30 % 2 ^ 30 == 0
  | _ => false

/-- What a word needs of a SPACE 110 capability. -/
structure SlotNeed where
  kind : Nat
  r : Bool
  w : Bool
  gc : Bool
  deriving DecidableEq, Repr

/-- Check 2 of a capability of any space, where no access is made: that of one byte at its cursor (R312). -/
def ownerGen (c : Cap) (s : State) : Bool := s.genOk s.who c c.addr 1

/-- R82 and R229 over a SPACE 110 capability held in register `r`. A word that sends a command to another cluster's unit meets the die
test of R336 with check 3. -/
def checkSlotCap (c : Cap) (need : SlotNeed) (r : RegNum) (s : State) : Res Unit := do
  require c.tag 0x03 (regName r)
  require (ownerGen c s) 0x06 c.cursor
  let kind := curKind c.cursor
  require (!c.sealed && c.space == 6 && (2 < kind || kind == need.kind)) 0x05 (regName r)
  require (need.kind == 1 || !need.gc || s.dieServes (dieOfCluster (curCluster c.cursor)) s.thr.world) 0x05 (regName r)
  require ((!need.r || c.permR) && (!need.w || c.permW) && (!need.gc || c.permGC)) 0x05 (regName r)
  require (slotLayoutOk c.cursor) 0x04 c.cursor
  require (c.boundsOk && decide (c.base ≤ (c.addr : Int)) && decide ((c.addr : Int) < c.top)) 0x04 c.cursor

/-- Check 2 of R232: the slot is of the thread's own cluster. -/
def checkOwnSlot (c : Cap) (need : SlotNeed) (r : RegNum) (s : State) : Res Unit := do
  checkSlotCap c need r s
  require (curCluster c.cursor == s.thr.cluster) 0x05 (regName r)

/-- An `arel` of this incarnation of the slot has been accepted and has not taken place yet: whatever is presented after it comes too
late (R238, R239). -/
def releasePending (c k : Nat) (sinc : BitVec 46) (s : State) : Bool :=
  (s.cluster c).mat.cmds.any fun m => m.kind == .arel && m.slot == some k && m.sinc == sinc

/-- Check 6: the capability's incarnation is the slot's, which is in use and not being released. A slot that stands in the save area of
a partition is in no unit, so that a word of a running partition that names it faults 0x06: R240 does not say what it meets (DESIGN
CHOICE, log entry 84). -/
def checkSinc (c : Cap) (s : State) : Res Unit :=
  let cl := curCluster c.cursor
  let k := curSlot c.cursor
  let sinc := curSinc c.cursor
  require (slotIs cl k sinc s && !releasePending cl k sinc s) 0x06 c.cursor

/-- A slot of a partition that has this cluster and stands in the shadow banks or in a save area: it stays in the unit until another
partition's words claim it, and then goes to the save area (R240, log entry 84). A slot that a thread of another cluster's partition
holds here is not claimed: that partition may be resumed while this cluster is another's. -/
def slotClaimable (c k : Nat) (s : State) : Bool :=
  let x := slotAt c k s
  let p := s.part x.part
  x.used && p.clusters.contains c && (p.phase == .shadow || p.phase == .saved) && decide (x.next < 2 ^ 46)

/-- Slots that a core holds (R230); those of a partition that is switched out are not charged to it. -/
def heldBy (c core : Nat) (s : State) : Nat :=
  ((List.range 64).filter fun k => (slotAt c k s).used && (slotAt c k s).core == some core && !slotClaimable c k s).length

def slotFree (c k : Nat) (s : State) : Bool := !(slotAt c k s).used && !(slotAt c k s).retired

/-- Some partition has this slot in its save area. -/
def slotSaved (c k : Nat) (s : State) : Bool := s.parts.any fun p => p.2.savedSlots.any fun x => x.cluster == c && x.slot == k

/-- The slots that a `.new` may receive. One of another cluster's thread takes only a slot that no partition will want back when it
resumes. -/
def mayTake (c : Nat) (core : Option Nat) (s : State) (k : Nat) : Bool :=
  if core.isSome then slotFree c k s || slotClaimable c k s else slotFree c k s && !slotSaved c k s

def freeSlots (c : Nat) (core : Option Nat) (s : State) : Nat := ((List.range 64).filter (mayTake c core s)).length

/-- Reserves still owed to the cores. -/
def owedSlots (c : Nat) (s : State) : Nat := ((List.range 16).map fun core => 2 - heldBy c core s).foldl (· + ·) 0

/-- The slot that a `.new` receives (R230): the lowest free one, and a claimed one where none is free; `core` is none for `mmar.new`. -/
def allocSlot (c : Nat) (core : Option Nat) (s : State) : Option Nat :=
  let more := decide (owedSlots c s < freeSlots c core s)
  let ok := match core with
    | some k => decide (heldBy c k s < 2) || more
    | none => more
  if ok then (firstIdx 64 fun k => slotFree c k s && mayTake c core s k).orElse fun _ => firstIdx 64 (mayTake c core s) else none

/-- A claimed slot goes to its partition's save area as it stands (R240). -/
def saveSlot (c k : Nat) (s : State) : State :=
  let x := slotAt c k s
  s.modPart x.part fun p => { p with
    savedSlots := ⟨c, k, x⟩ :: p.savedSlots.filter fun y => !(y.cluster == c && y.slot == k && y.val.sinc == x.sinc) }

/-- A slot taken for a command (R229, R230). -/
def takeSlot (c k : Nat) (m : MCmd) (s : State) : State :=
  let x := slotAt c k s
  let n := if x.used then x.next else x.sinc.toNat
  setSlot m.part c k { MSlot.free with
    sinc := BitVec.ofNat 46 n, next := max x.next (n + 1), used := true, world := m.world, domain := m.domain
    gen := ((s.world m.world).dom m.domain).gen % 4096, core := m.core, part := m.part } (if x.used then saveSlot c k s else s)

/-! ## Acceptance (R234, R236) -/

/-- The partition's words and matrix commands may proceed (R240, R299): none does at or after the timestamp of a switch. -/
def matrixRuns (p : Nat) (s : State) : Bool :=
  let x := s.part p
  x.phase == .active || (x.phase == .announced && decide (s.now < x.switchAt))

/-- Entries of a core, or those for remote commands. -/
def entryRoom (core : Option Nat) : Nat := if core.isSome then Config.coreEntries else Config.remoteEntries

/-- A thread waits for an entry, or has been granted one that it has not used yet. -/
def waitsEntry (c : Nat) (core : Option Nat) (h : Thread) : Bool :=
  match h.stall with
  | some (.matrixQueue x _ k) => x == c && k == core
  | _ => false

def grantedEntry (c : Nat) (core : Option Nat) (h : Thread) : Bool := h.stall == some (.matrixGranted c core)

/-- Entries in use, granted ones counted; those of a partition that is switched out are saved with it (R240). -/
def entriesUsed (c : Nat) (core : Option Nat) (s : State) : Nat :=
  ((s.cluster c).mat.cmds.filter fun m => m.core == core && !m.queued && matrixRuns m.part s).length
    + (s.threads.filter fun h => grantedEntry c core h && matrixRuns h.part s).length

/-- Something else waits for an entry: a thread, or a `.new` whose thread has gone on. -/
def othersWait (c : Nat) (core : Option Nat) (s : State) : Bool :=
  (s.threads.any fun h => h.tid != s.thr.tid && waitsEntry c core h && matrixRuns h.part s)
    || (s.cluster c).mat.cmds.any fun m => m.queued && m.core == core && matrixRuns m.part s

/-- The unit has an entry for the word now. -/
def entryFree (c : Nat) (core : Option Nat) (s : State) : Bool :=
  grantedEntry c core s.thr || (entriesUsed c core s < entryRoom core && !othersWait c core s)

/-- A word that finds no entry waits in arrival order. -/
def waitEntry (c : Nat) (core : Option Nat) (s : State) : State :=
  if waitsEntry c core s.thr then s else (s.waitIn (.matrixQueue c s.nextId core)).fresh.2

def reserveEntry (c : Nat) (core : Option Nat) (s : State) : Res Unit :=
  if entryFree c core s then .ok () else .error (.hold (waitEntry c core))

/-- An entry of a unit with no operands, from the thread, on the slot that a cursor names. -/
def bareCmd (kind : MKind) (core : Option Nat) (at_ : Word64) (k : BitVec 4) (s : State) : MCmd :=
  { id := s.nextId, pc := s.pc, queued := false, kind, tid := s.thr.tid, core, world := s.thr.world, domain := s.thr.ctx.domain, part := s.thr.part,
    cref := s.thr.cref, slot := some (curSlot at_), sinc := curSinc at_, shape := ⟨0, 0, 0, .f32, .f32, 8, none⟩, aBytes := [], bBytes := [], saBytes := [], sbBytes := [],
    aAddr := none, bAddr := none, kctr := k, tile := 0, tileOff := 0, rows := 0, cols := 0, blkIdx := 0, outFmt := .f32,
    ts := 0, started := false }

/-- The unit accepts an entry. -/
def acceptCmd (c : Nat) (m : MCmd) (s : State) : State :=
  modUnit c (fun u => { u with cmds := u.cmds ++ [m] }) s.fresh.2

/-- Adds still to come into kN of a thread: those of its commands and of its copy jobs. -/
def pendingAdds (t : Nat) (k : BitVec 4) (s : State) : Nat := s.pendingMatrix t k + pendingJobs t k s

/-- Check 5 of R232. -/
def checkCount (k : BitVec 4) (s : State) : Res Unit :=
  require (decide (s.thr.ctx.kctr[k.toNat].toNat + pendingAdds s.thr.tid k s + 1 < 2 ^ 64)) 0x20 (k.setWidth 64)

/-- A completion add in one thread's kN: one that would pass 2^64 - 1 changes nothing (R252), and the fault is deferred to the thread as
the causing word's. -/
def addOwnK (k : BitVec 4) (v : Word64) (f : Deferred) (h : Thread) : Thread :=
  let old := h.ctx.kctr[k.toNat]
  { h with ctx :=
    if old.toNat + v.toNat < 2 ^ 64 then { h.ctx with kctr := h.ctx.kctr.set k.toNat (old + v) } else { h.ctx with late := h.ctx.late ++ [f] } }

/-- The threads in whose kN work counts: the one that had it accepted, and for work on behalf of both members of a redundant pair the
other (R388). -/
def countsFor (t : Nat) (both : Bool) (s : State) (h : Thread) : Bool := h.tid == t || (both && s.pairOf t h.cref h.world)

/-- The completion add to a thread's kN (R235, R388); `pc` is the causing word. -/
def addToK (t : Nat) (k : BitVec 4) (both : Bool) (v pc : Word64) (s : State) : State :=
  let f : Deferred := ⟨0x20, k.setWidth 64, pc, s.nextId⟩
  ((s.noteEach (countsFor t both s) (.completion k v)).modAll fun h => if countsFor t both s h then addOwnK k v f h else h).fresh.2

/-- The completion add comes at its place in every record-mode log of the threads that it counts for (R393). -/
def addToKHeld (t : Nat) (k : BitVec 4) (both : Bool) (v : Word64) (s : State) : Bool := s.heldEach (countsFor t both s) (.completion k v)

/-! ## The words -/

/-- `mfmt` (R226). -/
def execMfmt (b a : RegNum) (s : State) : Out :=
  s.finish (.ok (s.modCtx fun c => { c with fmtWord := s.int a, tscale := (s.int b).setWidth 16 }).advance)

/-- The command's tile bytes, taken at the word's place in program order. -/
def withTiles (sh : MShape) (tA tB : Nat) (s : State) (m : MCmd) : MCmd :=
  let w := s.thr.ctx.fmtWord
  { m with
    shape := sh, aBytes := tileBytes tA s, bBytes := tileBytes tB s
    saBytes := if sh.scale.isSome then tileBytes (fwAsct w) s else []
    sbBytes := if sh.scale.isSome then tileBytes (fwBsct w) s else [] }

/-- `mma.acc` (R232, R233). -/
def execMmaAcc (k : BitVec 4) (y t : BitVec 3) (p : RegNum) (s : State) : Out :=
  s.finish (do
    let c := s.reg p
    let core := some (coreOf s.thr)
    checkOwnSlot c ⟨0, false, true, false⟩ p s
    let sh ← commandShape (broadUnit s.thr.cluster) t.toNat y.toNat s
    let tiles := commandTiles sh t.toNat y.toNat s
    tilesInFrame s tiles
    checkCount k s
    reserveEntry s.thr.cluster core s
    checkSinc c s
    let u := (awaitTiles s tiles).endTask
    .ok (acceptCmd s.thr.cluster (withTiles sh t.toNat y.toNat u (bareCmd .acc core c.cursor k u)) u).advance)

/-- The reply of a `.new`, which brings a slot or none, as a record-mode log keeps it (R393). -/
def noteSlot (c : Nat) (n : Option Nat) (m : MCmd) (s : State) : State := s.noteEach (countsFor m.tid m.core.isNone s) (.slot c n)

/-- A record-mode log has other arrivals before the reply of a `.new`, or before the count that comes with a null capability. -/
def newHeld (c : Nat) (m : MCmd) (s : State) : Bool :=
  s.heldEach (countsFor m.tid m.core.isNone s) (.slot c (allocSlot c m.core s))
    || ((allocSlot c m.core s).isNone && addToKHeld m.tid m.kctr m.core.isNone 1 s)

/-- What an accepted `.new` yields: a slot capability and the entry that computes into the slot, or, where no slot is left, the null
capability and the count at once (R230). -/
def acceptNew (c : Nat) (m : MCmd) (s0 : State) : Cap × State :=
  let s := noteSlot c (allocSlot c m.core s0) m s0
  match allocSlot c m.core s0 with
  | none => (Cap.null, addToK m.tid m.kctr m.core.isNone 1 m.pc s)
  | some n =>
    let v := takeSlot c n m s
    (slotCap c n (slotAt c n v).sinc (slotAt c n v).gen, acceptCmd c { m with slot := some n, sinc := (slotAt c n v).sinc } v)

/-- A `.new` at its unit: accepted now, or, with LK ≥ 1, entered to wait for an entry while the LK words after it issue (R234,
R236). -/
def presentNew (c : Nat) (l : BitVec 4) (p : RegNum) (m : MCmd) (s : State) : State :=
  if entryFree c m.core s then
    let (made, t) := acceptNew c m s
    t.deliver p l (some made) none
  else (acceptCmd c { m with slot := none, queued := true } s).awaitResult p l m.id

/-- A re-run from a record-mode log holds the reply of a `.new` that its unit would accept now (R393). -/
def holdNew (c : Nat) (m : MCmd) (s : State) : Res Unit :=
  if entryFree c m.core s && newHeld c m s then holdIn .arrival else .ok ()

/-- Whether a `.new` may go on where its unit's entries are full: with LK ≥ 1 (R234). -/
def goesOn (l : BitVec 4) : Bool := l != 0

/-- `mma.new` (R230, R232, R233). -/
def execMmaNew (l k : BitVec 4) (y t : BitVec 3) (p : RegNum) (s : State) : Out :=
  s.finish (do
    let cl := s.thr.cluster
    let core := some (coreOf s.thr)
    let sh ← commandShape (broadUnit cl) t.toNat y.toNat s
    let tiles := commandTiles sh t.toNat y.toNat s
    tilesInFrame s tiles
    checkCount k s
    if goesOn l then .ok () else reserveEntry cl core s
    let u := (awaitTiles s tiles).endTask
    holdNew cl (bareCmd .new core 0 k u) u
    if p = 0 then .ok ((addToK u.thr.tid k false 1 u.pc u).deliver 0 l (some Cap.null) none).advance
    else .ok (presentNew cl l p (withTiles sh t.toNat y.toNat u (bareCmd .new core 0 k u)) u).advance)

/-- `mma.zero` (R232, R233). -/
def execMmaZero (k : BitVec 4) (p : RegNum) (s : State) : Out :=
  s.finish (do
    let c := s.reg p
    let core := some (coreOf s.thr)
    checkOwnSlot c ⟨0, false, true, false⟩ p s
    checkCount k s
    reserveEntry s.thr.cluster core s
    checkSinc c s
    let u := s.endTask
    .ok (acceptCmd s.thr.cluster (bareCmd .zero core c.cursor k u) u).advance)

/-! ## `mmar` (R236) -/

def needOperand : Need := ⟨true, false, false, false, false, false, [1]⟩

/-- The operand registers of `mmar`. -/
def nextReg (p : RegNum) (n : Nat) : RegNum := p + BitVec.ofNat 5 n

/-- The bytes of a remote operand: the tile, and its scale tile from the next 64-byte boundary. -/
def remoteOperand (sh : MShape) (tile scaleTile : Nat) (r : RegNum) (target : Nat) (s : State) : Res Nat := do
  let c := s.reg r
  let n := tileSize (tileShape tile s)
  s.checkCap s.who c c.cursor n needOperand (regName r)
  require (clusterOfLocal c.addr == target) 0x05 (regName r)
  if sh.scale.isSome then
    let at_ := (c.cursor.toNat + n + 63) / 64 * 64
    s.checkCap s.who c (BitVec.ofNat 64 at_) (tileSize (tileShape scaleTile s)) needOperand (regName r)
  .ok c.addr

/-- What the other member of a redundant pair has had accepted first and this one has to meet next, with the state in which it is
met (R388); none where this member is the first to arrive. -/
def pairFirst (s : State) : Option (PairRec × State) :=
  if !s.thr.paired then none
  else
    match s.rest.find? fun h => h.cref == s.thr.cref && h.world == s.thr.world && h.tid != s.thr.tid with
    | none => none
    | some o => match o.pairOut with
      | [] => none
      | x :: r => some (x, s.modThread o.tid fun h => { h with pairOut := r })

/-- A `mmar` of a redundant pair (R388): the second member's word and registers are compared with the first's, and the second
receives the first's reply, or waits for it as the first does. -/
def pairRemote (p : RegNum) (l : BitVec 4) (regs : List Cap) (s : State) : Option (Res State) :=
  (pairFirst s).map fun (x, t) =>
    if x.word == s.thr.ctx.ir && x.regs == regs then
      .ok ((match x.reply, x.cmd with
        | some v, _ => t.deliver p l (some v) none
        | none, some id => t.awaitResult p l id
        | none, none => t).endTask.advance)
    else raise 0x43 (s.reg p).cursor

/-- The first member's `mmar` or `cpyj` waits for the second's. -/
def notePair (card : List Byte) (regs : List Cap) (reply : Option Cap) (cmd : Option Nat) (s : State) : State :=
  if s.thr.paired then s.modThr fun h => { h with pairOut := h.pairOut ++ [⟨h.ctx.ir, card, regs, reply, cmd⟩] } else s

/-- A command with its remote operands; the bytes are read when it starts. -/
def withRemote (sh : MShape) (pa pb : Nat) (m : MCmd) : MCmd := { m with shape := sh, aAddr := some pa, bAddr := some pb }

/-- `mmar.acc`. -/
def execMmarAcc (k : BitVec 4) (y t : BitVec 3) (p : RegNum) (s : State) : Out :=
  s.finish (do
    let c := s.reg p
    let target := curCluster c.cursor
    checkSlotCap c ⟨0, false, true, true⟩ p s
    let sh ← commandShape (broadUnit target) t.toNat y.toNat s
    checkCount k s
    let regs := [c, s.reg (nextReg p 1), s.reg (nextReg p 2)]
    match pairRemote p 0 regs s with
    | some r => r
    | none => do
      reserveEntry target none s
      let pa ← remoteOperand sh t.toNat (fwAsct s.thr.ctx.fmtWord) (nextReg p 1) target s
      let pb ← remoteOperand sh y.toNat (fwBsct s.thr.ctx.fmtWord) (nextReg p 2) target s
      checkSinc c s
      let u := (notePair [] regs none none s).endTask
      .ok (acceptCmd target (withRemote sh pa pb (bareCmd .acc none c.cursor k u)) u).advance)

/-- `mmar.new`: aS holds a matrix-unit capability. -/
def execMmarNew (l k : BitVec 4) (y t : BitVec 3) (p : RegNum) (s : State) : Out :=
  s.finish (do
    let c := s.reg p
    let target := curCluster c.cursor
    checkSlotCap c ⟨2, false, false, true⟩ p s
    let sh ← commandShape (broadUnit target) t.toNat y.toNat s
    checkCount k s
    let regs := [c, s.reg (nextReg p 1), s.reg (nextReg p 2)]
    match pairRemote p l regs s with
    | some r => r
    | none => do
      if goesOn l then .ok () else reserveEntry target none s
      let pa ← remoteOperand sh t.toNat (fwAsct s.thr.ctx.fmtWord) (nextReg p 1) target s
      let pb ← remoteOperand sh y.toNat (fwBsct s.thr.ctx.fmtWord) (nextReg p 2) target s
      let u := s.endTask
      let m := withRemote sh pa pb (bareCmd .new none 0 k u)
      holdNew target m u
      let now := entryFree target none u
      .ok (presentNew target l p m
        (notePair [] regs (if now then some (acceptNew target m u).1 else none) (if now then none else some m.id) u)).advance)

/-- `mmar.zero`. -/
def execMmarZero (k : BitVec 4) (p : RegNum) (s : State) : Out :=
  s.finish (do
    let c := s.reg p
    let target := curCluster c.cursor
    checkSlotCap c ⟨0, false, true, true⟩ p s
    checkCount k s
    match pairRemote p 0 [c] s with
    | some r => r
    | none => do
      reserveEntry target none s
      checkSinc c s
      let u := (notePair [] [c] none none s).endTask
      .ok (acceptCmd target (bareCmd .zero none c.cursor k u) u).advance)

/-! ## `aread` and `arel` (R237, R238) -/

/-- `aread`: the block index is B. -/
def execAread (e : ElemTy) (blk a : RegNum) (d : BitVec 3) (s : State) : Out :=
  s.finish (do
    let c := s.reg a
    let t := tileShape d.toNat s
    let core := some (coreOf s.thr)
    checkOwnSlot c ⟨0, true, false, false⟩ a s
    let f := ElemTy.fmt e
    requireCause (shapeValid t == some f) 8
    let side := slotSide s.thr.cluster
    requireCause (decide ((blk.toNat + 1) * shapeRows t ≤ side) && decide (shapeCols t ≤ side)) 9
    tileInFrame d.toNat s
    reserveEntry s.thr.cluster core s
    checkSinc c s
    let u := awaitTiles s [d.toNat]
    let m := bareCmd .aread core c.cursor 0 u
    .ok (acceptCmd s.thr.cluster { m with
      tile := d, tileOff := s.thr.ctx.wbase + tileOff d.toNat s, rows := shapeRows t, cols := shapeCols t, blkIdx := blk.toNat,
      outFmt := f, ts := s.thr.ctx.tscale } u).advance)

/-- `arel`. -/
def execArel (a : RegNum) (s : State) : Out :=
  s.finish (do
    let c := s.reg a
    let core := some (coreOf s.thr)
    checkOwnSlot c ⟨0, false, true, false⟩ a s
    reserveEntry s.thr.cluster core s
    checkSinc c s
    let u := s.endTask
    .ok (acceptCmd s.thr.cluster (bareCmd .arel core c.cursor 0 u) u).advance)

/-! ## What the unit computes (R196, R181, R233, R237) -/

/-- The exact sum of the products of one k-group. -/
def groupSum (m : MCmd) (i j lo n : Nat) : Num :=
  let sh := m.shape
  (List.range n).foldl (fun acc x =>
    let k := lo + x
    let prod := (numMul (decodeNum sh.fa (tileElem sh.fa sh.k m.aBytes i k)) (decodeNum sh.fb (tileElem sh.fb sh.k m.bBytes j k))).1
    if x = 0 then prod else (numAdd 0 acc prod).1) (.fin false 0 0)

/-- The term of a group: scaled in a narrow unit with block scales. -/
def groupTerm (m : MCmd) (i j g : Nat) : Num :=
  let sh := m.shape
  let sum := groupSum m i j (g * sh.blk) (min sh.blk (sh.k - g * sh.blk))
  match sh.scale with
  | none => sum
  | some f =>
    let groups := sh.k / sh.blk
    let sa := decodeNum f (tileElem f groups m.saBytes i g)
    let sb := decodeNum f (tileElem f groups m.sbBytes j g)
    (numMul sum (numMul sa sb).1).1

/-- The k-groups of a command. -/
def groupsOf (m : MCmd) : Nat := (m.shape.k + m.shape.blk - 1) / m.shape.blk

/-- One element after the first `n` groups of a command: each adds one term and rounds once, to nearest-even in f32. -/
def accumulate (m : MCmd) (n i j : Nat) (x : BitVec 32) : BitVec 32 :=
  BitVec.ofNat 32 ((List.range n).foldl (fun acc g =>
    (roundTo .f32 0 (numAdd 0 (decodeNum .f32 acc) (groupTerm m i j g)).1).1) x.toNat)

/-- An element of a slot. -/
def slotElem (side : Nat) (x : MSlot) (i j : Nat) : BitVec 32 := NMap.getD x.elems (i * side + j) 0

def setSlotElem (side i j : Nat) (v : BitVec 32) (x : MSlot) : MSlot :=
  { x with elems := if v = 0 then NMap.del x.elems (i * side + j) else NMap.set x.elems (i * side + j) v }

/-- A row of the result region. -/
def accumulateRow (side : Nat) (m : MCmd) (n i : Nat) (x : MSlot) : MSlot :=
  (List.range m.shape.n).foldl (fun y j => setSlotElem side i j (accumulate m n i j (slotElem side y i j)) y) x

/-- The first `n` groups of a command on its slot (R233). -/
def applyGroups (side : Nat) (m : MCmd) (n : Nat) (x : MSlot) : MSlot :=
  let y := if m.kind = .acc then x else { x with elems := [] }
  if m.kind = .zero then y else (List.range m.shape.m).foldl (fun z i => accumulateRow side m n i z) y

/-- A command on its slot. -/
def applyCmd (side : Nat) (m : MCmd) (x : MSlot) : MSlot := applyGroups side m (groupsOf m) x

/-- One element that `aread` writes: exact product, rounded once (R182). -/
def readElem (side : Nat) (m : MCmd) (x : MSlot) (r c : Nat) : List Byte :=
  let v := (numMul (decodeNum .f32 (slotElem side x (m.blkIdx * m.rows + r) c).toNat) (decodeNum .bf16 m.ts.toNat)).1
  toLe (rowBytes m.outFmt 1) (roundTo m.outFmt 0 v).1

/-- The bytes of the tile. -/
def readTile (side : Nat) (m : MCmd) (x : MSlot) : List Byte :=
  (List.range m.rows).flatMap fun r => (List.range m.cols).flatMap fun c => readElem side m x r c

/-! ## The unit's own events -/

/-- No earlier entry of the unit is on the same incarnation of a slot. -/
def firstOnSlot (l : List MCmd) (m : MCmd) : Bool :=
  match (l.takeWhile fun x => x.id != m.id).find? fun x => x.slot == m.slot && x.sinc == m.sinc with
  | some _ => false
  | none => true

/-- The place of a core in the round: remote commands come as a seventeenth. -/
def roundPlace (core : Option Nat) : Nat := core.getD 16

/-- The entry that a core would start next: the oldest command not started of a partition that runs. The entries of a partition
that is switched out count as saved with it (R240). -/
def nextOfCore (s : State) (l : List MCmd) (place : Nat) : Option MCmd :=
  l.find? fun m => roundPlace m.core == place && !m.started && !m.queued && (m.kind == .acc || m.kind == .new || m.kind == .zero)
    && matrixRuns m.part s

/-- That command may start: its slot is free of earlier entries. -/
def startable (s : State) (l : List MCmd) (place : Nat) : Option MCmd := (nextOfCore s l place).filter fun m => firstOnSlot l m

/-- The other threads whose requests wait in a unit while it serves one of thread `t`. -/
def otherRequests (t : Nat) (waiting : List Nat) : List Nat := (waiting.filter (· != t)).eraseDups

/-- The choice of a unit, to serve `t` before the others, comes at its place in every record-mode log (R393). -/
def choiceHeld (engine : Bool) (c t : Nat) (waiting : List Nat) (s : State) : Bool :=
  s.arrivalHeld t (.served engine c) || (otherRequests t waiting).any fun x => s.arrivalHeld x (.passed engine c)

/-- The choice enters the logs of the threads that it serves and passes over (R393). -/
def noteChoice (engine : Bool) (c t : Nat) (waiting : List Nat) (s : State) : State :=
  (otherRequests t waiting).foldl (fun u x => u.noteArrival x (.passed engine c)) (s.noteArrival t (.served engine c))

/-- The threads whose commands wait for their start. -/
def unitRequests (c : Nat) (s : State) : List Nat :=
  ((s.cluster c).mat.cmds.filter fun m => !m.started && !m.queued && (m.kind == .acc || m.kind == .new || m.kind == .zero)).map (·.tid)

/-- The command that starts next, round-robin by core after the last that started. The round begins with core 1 after reset, where no
command has started yet and the last core is 0: R234 gives no starting place (DESIGN CHOICE, log entry 47). -/
def nextStart (c : Nat) (s : State) : Option MCmd :=
  let u := (s.cluster c).mat
  (((List.range 17).filterMap fun x => startable s u.cmds ((u.lastCore + 1 + x) % 17)).filter fun m =>
    !choiceHeld false c m.tid (unitRequests c s) s).head?

/-- The bytes of a remote operand's tile, and where its scale tile begins (R236). -/
def operandSize (rows : Nat) (f : Fmt) (k : Nat) : Nat := rows * rowBytes f k

def scalePlace (pa size : Nat) : Nat := (pa + size + 63) / 64 * 64

/-- The ranges of cluster memory that a remote command reads: A, B, and their scale tiles. -/
def remoteRanges (m : MCmd) : List (Nat × Nat) :=
  match m.aAddr, m.bAddr with
  | some pa, some pb =>
    let sh := m.shape
    let na := operandSize sh.m sh.fa sh.k
    let nb := operandSize sh.n sh.fb sh.k
    [(paLocal pa, na), (paLocal pb, nb)] ++ (match sh.scale with
      | none => []
      | some f => [(paLocal (scalePlace pa na), operandSize sh.m f (sh.k / sh.blk)), (paLocal (scalePlace pb nb), operandSize sh.n f (sh.k / sh.blk))])
  | _, _ => []

/-- The bytes of a remote command's operands as they stand when it starts (R236). -/
def fetchOperands (m : MCmd) (s : State) : MCmd :=
  match (remoteRanges m).map fun r => s.readMem r.1 r.2 with
  | [a, b] => { m with aBytes := a, bBytes := b }
  | [a, b, x, y] => { m with aBytes := a, bBytes := b, saBytes := x, sbBytes := y }
  | _ => m

/-- The poisoned line that the operands of a remote command meet. -/
def operandPoison (m : MCmd) (s : State) : Option Nat :=
  ((remoteRanges m).flatMap fun r => blocksOf 64 r.1 r.2).find? fun l => s.poison.contains l

/-- Drop an entry. -/
def dropCmd (c id : Nat) (s : State) : State := modUnit c (fun u => { u with cmds := u.cmds.filter fun x => x.id != id }) s

/-- A remote command whose operands are poisoned takes no effect, and the 0x40 is deferred to its thread (R364, R390, log entry
68). -/
def refuseCmd (c line : Nat) (m : MCmd) (s : State) : State :=
  (dropCmd c m.id s).modThread m.tid fun h => { h with ctx := { h.ctx with
    late := h.ctx.late ++ [⟨0x40, BitVec.ofNat 64 (line * 64), m.pc, m.id⟩] } }

/-- The command starts. -/
def startCmd (c : Nat) (m : MCmd) (s : State) : State :=
  modUnit c (fun u => { u with
    cmds := u.cmds.map fun x => if x.id = m.id then { fetchOperands x s with started := true } else x
    lastCore := roundPlace m.core }) s

def tryMatrixCommandStart (c : Nat) (s : State) : Option State :=
  (nextStart c s).map fun m =>
    let t := noteChoice false c m.tid (unitRequests c s) s
    match operandPoison m t with
    | some l => refuseCmd c l m t
    | none => startCmd c m t

/-- MATRIX_COMMAND_START (R234). -/
def execMatrixCommandStart (c : Nat) (s : State) : Out := happen (tryMatrixCommandStart c s) s

/-- The started command of an identity. -/
def startedCmd (c id : Nat) (s : State) : Option MCmd :=
  (s.cluster c).mat.cmds.find? fun m => m.id == id && m.started && matrixRuns m.part s

/-- The slot that a command names stands in the save area of its partition, which another has taken the place of while the command
was accepted: the command takes its effect there, and its own partition's step cannot be repeated (log entry 84). -/
def onSaved (c k : Nat) (m : MCmd) (f : MSlot → MSlot) (s : State) : State :=
  let here (x : SlotSnap) : Bool := x.cluster == c && x.slot == k && x.val.sinc == m.sinc
  if s.parts.any fun p => p.2.savedSlots.any here then
    State.loseStep { s with parts := s.parts.map fun p =>
      (p.1, { p.2 with savedSlots := p.2.savedSlots.map fun x => if here x then { x with val := f x.val } else x }) } m.part
  else s

/-- What `f` does to the slot of a command, where the slot still holds the command's incarnation: a kill may have ended it (R239, log
entry 46). -/
def onSlot (c : Nat) (m : MCmd) (f : MSlot → MSlot) (s : State) : State :=
  let k := m.slot.getD 0
  if slotIs c k m.sinc s then setSlot m.part c k (f (slotAt c k s)) s else onSaved c k m f s

def tryMatrixCommandComplete (c id : Nat) (s : State) : Option State :=
  ((startedCmd c id s).filter fun m => !addToKHeld m.tid m.kctr m.core.isNone 1 s).map fun m =>
    addToK m.tid m.kctr m.core.isNone 1 m.pc (dropCmd c id (onSlot c m (applyCmd (slotSide c) m) s))

/-- MATRIX_COMMAND_COMPLETE (R233, R235): the slot's elements, then the completion add. -/
def execMatrixCommandComplete (c id : Nat) (s : State) : Out := happen (tryMatrixCommandComplete c id s) s

/-- An `aread` or `arel` whose turn on the slot has come. -/
def readyEntry (kind : MKind) (c id : Nat) (s : State) : Option MCmd :=
  (s.cluster c).mat.cmds.find? fun m => m.id == id && m.kind == kind && firstOnSlot (s.cluster c).mat.cmds m && matrixRuns m.part s

/-- What an `aread` writes whose slot a kill has ended before its turn: the spec gives no value (log entry 46). -/
def freeTile (tick : Nat) (m : MCmd) : List Byte :=
  (List.range (m.rows * rowBytes m.outFmt m.cols)).map fun i => (Config.unstated (tick + i)).setWidth 8

def tryAreadTileWrite (c id : Nat) (s : State) : Option State :=
  (readyEntry .aread c id s).map fun m =>
    let n := m.slot.getD 0
    let bs := if slotIs c n m.sinc s then readTile (slotSide c) m (slotAt c n s) else freeTile s.tick m
    dropCmd c id (s.nextTick.modThread m.tid fun h => { h with ctx := { h.ctx with win := Cells.write h.ctx.win m.tileOff bs } })

/-- AREAD_TILE_WRITE (R237). -/
def execAreadTileWrite (c id : Nat) (s : State) : Out := happen (tryAreadTileWrite c id s) s

def trySlotRelease (c id : Nat) (s : State) : Option State :=
  (readyEntry .arel c id s).map fun m =>
    let k := m.slot.getD 0
    dropCmd c id (if slotIs c k m.sinc s then endSlot m.part c k s else s)

/-- SLOT_RELEASE (R238). -/
def execSlotRelease (c id : Nat) (s : State) : Out := happen (trySlotRelease c id s) s

/-- What waits for an entry of a unit, with its place in arrival order: a thread, or a `.new` whose thread has gone on. -/
inductive EntryWaiter where
  | thread (t order : Nat)
  | cmd (m : MCmd)
  deriving DecidableEq, Repr

def EntryWaiter.order : EntryWaiter → Nat
  | .thread _ o => o
  | .cmd m => m.id

/-- The entries that a waiter asks for have room. -/
def hasRoom (c : Nat) (core : Option Nat) (s : State) : Bool := decide (entriesUsed c core s < entryRoom core)

/-- Whatever waits for an entry that is free; a `.new` whose reply a record-mode log holds back does not come yet (R393). -/
def entryWaiters (c : Nat) (s : State) : List EntryWaiter :=
  (s.threads.filterMap fun h => match h.stall with
    | some (.matrixQueue x o k) => if x == c && hasRoom c k s && matrixRuns h.part s then some (.thread h.tid o) else none
    | _ => none)
  ++ ((s.cluster c).mat.cmds.filter fun m => m.queued && matrixRuns m.part s && hasRoom c m.core s && !newHeld c m s).map .cmd

/-- The one that has waited longest. -/
def oldestWaiter (c : Nat) (s : State) : Option EntryWaiter :=
  (entryWaiters c s).foldl (fun b x => match b with
    | none => some x
    | some y => if x.order < y.order then some x else some y) none

/-- The reply that a first member's `mmar` was waiting for, kept for the second (R388). -/
def fillPair (id : Nat) (v : Cap) (x : PairRec) : PairRec := if x.cmd = some id then { x with reply := some v, cmd := none } else x

/-- The capability of a queued `.new` reaches its window, wherever that is kept, in both members of a redundant pair. -/
def fillResult (id : Nat) (v : Cap) (s : State) : State :=
  s.modAll fun h => { h with
    pairOut := h.pairOut.map (fillPair id v)
    ctx := { h.ctx with
      pend := h.ctx.pend.map (State.fillWrite id v)
      dstack := h.ctx.dstack.map fun e => { e with spend := e.spend.map (State.fillWrite id v) } } }

/-- A queued `.new` is accepted. -/
def acceptQueued (c : Nat) (m : MCmd) (s : State) : State :=
  let (made, t) := acceptNew c { m with queued := false } (dropCmd c m.id s)
  fillResult m.id made t

def tryMatrixQueueGrant (c : Nat) (s : State) : Option State :=
  (oldestWaiter c s).map fun w => match w with
    | .cmd m => acceptQueued c m s
    | .thread t _ => s.modThread t fun x => { x with stall := match x.stall with
        | some (.matrixQueue q _ k) => some (.matrixGranted q k)
        | y => y }

/-- MATRIX_QUEUE_GRANT (R234, R236). -/
def execMatrixQueueGrant (c : Nat) (s : State) : Out := happen (tryMatrixQueueGrant c s) s

/-- An `aread` of the thread has not written its tile: its execute half waits (R237). -/
def areadPending (h : Thread) (s : State) : Bool :=
  s.clusters.any fun x => x.2.mat.cmds.any fun m => m.tid == h.tid && m.kind == .aread

end Sys2Proof.Machine
end

