-- ==== Sys2Proof/Machine/VecMove.lean ====
section
/-! DEFINITION. Moves of elements, conversions, packing and reductions over lanes (10_vector R210-R214; 09_streaming R195). -/

namespace Sys2Proof.Machine

open Sys2Proof

/-! ## Moves as bits (R210) -/

/-- `vsel`: the mask D is read first and alone counts for VOID (R202); it is never filled. -/
def execVsel (ka kb : Bool) (e : ElemTy) (b a d : RegNum) (s : State) : Out :=
  vecWordD e ka kb b a d (fun m x y =>
    let w := ElemTy.bits e
    let (v, _) := lanes3 e (fun k p q => (if k.testBit (w - 1) then p else q, 0)) m x y
    (v, voidSeen e (lanes e m))) s

def execVperm (e : ElemTy) (b a d : RegNum) (s : State) : Out :=
  vecWord2 e false false b a d (fun x y =>
    (ofLanes e ((lanes e y).map fun i => ((lanes e x)[i % e.count]?).getD 0), 0)) s

def execVbcast (e : ElemTy) (n a d : RegNum) (s : State) : Out :=
  vecWord1 e a d (fun x => (ofLanes e (List.replicate e.count (((lanes e x)[n.toNat]?).getD 0)), 0)) s

def execVslide (e : ElemTy) (n a d : RegNum) (s : State) : Out :=
  vecWord1 e a d (fun x => (ofLanes e ((lanes e x).drop n.toNat ++ List.replicate n.toNat 0), 0)) s

/-! ## Conversions (R211, R212) -/

/-- The element type whose void code a source format has, where it has one (R189). -/
def voidTypeOf (f : Fmt) : Option ElemTy :=
  match f with
  | .f32 => some .f32 | .bf16 => some .bf16 | .i8 => some .i8 | .i16 => some .i16 | .i32 => some .i32 | .i64 => some .i64
  | _ => none

/-- A conversion from `fa` to `fd` of N = 512 / max(bits) elements from the low end, zeros above (R211). -/
def convertVec (fa fd : Fmt) (rm : BitVec 2) (x : Vec512) : Vec512 × Flags :=
  let n := 512 / max (fmtBits fa) (fmtBits fd)
  let src := elemsOf (fmtBits fa) n x
  let (l, fl) := gather (src.map fun c => roundTo fd rm (decodeNum fa c))
  (vecOf (fmtBits fd) l, fl ||| (match voidTypeOf fa with
    | some e => voidSeen e src
    | none => 0))

def execFcvtFromFc (r : BitVec 2) (e : ElemTy) (f : Fmt) (a d : RegNum) (s : State) : Out :=
  vecWord1 e a d (convertVec f (ElemTy.fmt e) r) s
def execFcvtToFc (r : BitVec 2) (e : ElemTy) (f : Fmt) (a d : RegNum) (s : State) : Out :=
  vecWord1 e a d (convertVec (ElemTy.fmt e) f r) s
def execIcvtToInt (r : BitVec 2) (e : ElemTy) (f : Fmt) (a d : RegNum) (s : State) : Out :=
  vecWord1 e a d (convertVec f (ElemTy.fmt e) r) s
def execIcvtToFloat (r : BitVec 2) (e : ElemTy) (f : Fmt) (a d : RegNum) (s : State) : Out :=
  vecWord1 e a d (convertVec (ElemTy.fmt e) f r) s

/-- `vpack` (R213): A narrowed into the low half of D, B into the high half. -/
def execVpack (e : ElemTy) (b a d : RegNum) (s : State) : Out :=
  vecWord2 e false false b a d (fun x y =>
    let w := ElemTy.bits e
    let (l, fl) := gather ((lanes e x ++ lanes e y).map (satS w (w / 2)))
    withVoid e [x, y] (vecOf (w / 2) l, fl)) s

/-! ## Reductions over lanes (R195, R214) -/

/-- One level of the tree: neighbours combine, left with right. -/
def pairUp (f : Nat → Nat → Nat × Flags) : List Nat → List Nat × Flags
  | x :: y :: r =>
    let (v, fl) := f x y
    let (l, g) := pairUp f r
    (v :: l, fl ||| g)
  | l => (l, 0)

/-- `lev` levels of the tree. -/
def tree (f : Nat → Nat → Nat × Flags) : Nat → List Nat → List Nat × Flags
  | 0, l => (l, 0)
  | k + 1, l =>
    let (m, fl) := pairUp f l
    let (r, g) := tree f k m
    (r, fl ||| g)

/-- The tree over all elements: the result in D[0], zero above; A counts for VOID. -/
def reduceWord (e : ElemTy) (a d : RegNum) (f : Nat → Nat → Nat × Flags) (s : State) : Out :=
  vecWord1 e a d (fun x =>
    let (l, fl) := tree f (Nat.log2 e.count) (lanes e x)
    withVoid e [x] (ofLanes e (l.take 1), fl)) s

def execVredAdd (e : ElemTy) (a d : RegNum) (s : State) : Out :=
  reduceWord e a d (fun x y => ((x + y) % 2 ^ ElemTy.bits e, 0)) s
def execVredMin (u : Bool) (e : ElemTy) (a d : RegNum) (s : State) : Out :=
  reduceWord e a d (fun x y => (minW u (ElemTy.bits e) x y, 0)) s
def execVredMax (u : Bool) (e : ElemTy) (a d : RegNum) (s : State) : Out :=
  reduceWord e a d (fun x y => (maxW u (ElemTy.bits e) x y, 0)) s
def execFredAdd (r : BitVec 2) (e : ElemTy) (a d : RegNum) (s : State) : Out :=
  reduceWord e a d (floatAdd (ElemTy.fmt e) r) s
def execFredMin (e : ElemTy) (a d : RegNum) (s : State) : Out := reduceWord e a d (floatPick (ElemTy.fmt e) false) s
def execFredMax (e : ElemTy) (a d : RegNum) (s : State) : Out := reduceWord e a d (floatPick (ElemTy.fmt e) true) s

end Sys2Proof.Machine
end

