-- ==== Sys2Proof/Machine/Copy.lean ====
section
/-! DEFINITION. Copy engines: cards, acceptance, the footprint scheduler, sectors, records, pause and resume, status (06_access
R150-R156, R412; 05_ordering R103, R104; tags of 04_spaces R83; stamps of 20_recovery R387, R397). -/

namespace Sys2Proof.Machine

open Sys2Proof

/-! ## Acceptance (R153) -/

/-- The first offending byte of the card's fields (check 2). -/
def cardOffence (card : List Byte) : Option Nat :=
  let c := cardCtl card
  let badCode (n : Nat) : Bool := n != 31 && (Fmt.ofCode (BitVec.ofNat 5 n)).isNone
  let mixed := (ctlSrc c == 31) != (ctlDst c == 31)
  let e0 := cardExt card 0
  let offGroup (n : Nat) : Bool := (n == 4 && e0 % 2 != 0) || (n == 6 && e0 % 4 != 0)
  if offGroup (ctlSrc c) || offGroup (ctlDst c) || decide (2 ^ 48 ≤ streamBytes card) then some 32
  else if badCode (ctlSrc c) || badCode (ctlDst c) || mixed then some 112
  else if ctlEsz c == 7 then some 113
  else if ctlCkind c == 3 then some 114
  else if c / 2 ^ 24 ≠ 0 then some 115
  else none

/-- The lowest and the highest offset that the strides reach. -/
def strideSpan (card : List Byte) (off : Nat) : Int × Int :=
  (List.range 7).foldl (fun a x =>
    let v := ((cardExt card (x + 1) : Int) - 1) * cardStride card off (x + 1)
    if v < 0 then (a.1 + v, a.2) else (a.1, a.2 + v)) (0, 0)

/-- Every byte of a side of the job lies in its footprint (check 4). -/
def spanInside (card : List Byte) (c : Cap) (off bits : Nat) (fbase flen : Nat) : Bool :=
  let (lo, hi) := strideSpan card off
  let base : Int := addrOf c.space (BitVec.ofNat 64 fbase)
  let first := (c.addr : Int) + lo
  let last := (c.addr : Int) + hi + (((cardExt card 0 * bits + 7) / 8 : Nat) : Int)
  decide (base ≤ first) && decide (last ≤ base + flen)

/-- A footprint as a range over (space, address). Jobs of different domains are compared so as well, HOST addresses under different
PASIDs among them: R104 does not say whether it compares virtual or physical bytes (DESIGN CHOICE, log entry 69). -/
def footOf (c : Cap) (fbase flen : Nat) : Range := ⟨c.space * 2 ^ 64 + addrOf c.space (BitVec.ofNat 64 fbase), flen⟩

/-- Two ranges share a byte. -/
def Range.meets (a b : Range) : Bool :=
  a.len != 0 && b.len != 0 && decide (a.base < b.base + b.len) && decide (b.base < a.base + a.len)

def anyMeet (a b : List Range) : Bool := a.any fun x => b.any fun y => Range.meets x y

/-- The earlier jobs to which the scheduler gives a new job an edge (R104). -/
def edgesOf (e : Engine) (reads writes : List Range) : List Nat :=
  (e.entries.filter fun x => jobLive x.2 && (anyMeet x.2.writeFoot reads || anyMeet x.2.readFoot writes
    || anyMeet x.2.writeFoot writes)).map fun x => x.2.order

def engineOf (c : Nat) (s : State) : Engine := (s.cluster c).engine
def modEngine (c : Nat) (f : Engine → Engine) (s : State) : State := s.modCluster c fun x => { x with engine := f x.engine }
def jobAt (c e : Nat) (s : State) : Option Job := NMap.get? (engineOf c s).entries e
def setJob (c e : Nat) (j : Job) (s : State) : State := modEngine c (fun x => { x with entries := NMap.set x.entries e j }) s

/-- The lowest-numbered free entry of a queue: one never used, or whose job has ended. -/
def freeEntry (e : Engine) : Option Nat :=
  firstIdx Config.cardSlots fun i => match NMap.get? e.entries i with
    | none => true
    | some j => !jobLive j

def freeEntries (e : Engine) : Nat :=
  ((List.range Config.cardSlots).filter fun i => match NMap.get? e.entries i with
    | none => true
    | some j => !jobLive j).length

def waitsCard (c : Nat) (h : Thread) : Bool :=
  match h.stall with
  | some (.copyQueue x _) => x == c
  | _ => false

/-- A thread of a partition that runs holds a granted entry that it has not used yet. -/
def grantedCard (c : Nat) (s : State) (h : Thread) : Bool := h.stall == some (.copyGranted c) && matrixRuns h.part s

/-- A word that finds no entry waits in arrival order. -/
def waitCard (c : Nat) (s : State) : State := if waitsCard c s.thr then s else (s.waitIn (.copyQueue c s.nextId)).fresh.2

/-- A free entry for the word, or the word waits in arrival order (R153); a stopping engine accepts no card (R375). -/
def reserveCard (c : Nat) (s : State) : Res Nat :=
  let e := engineOf c s
  let granted := s.thr.stall == some (.copyGranted c)
  let others := (s.threads.filter fun h => h.tid != s.thr.tid && grantedCard c s h).length
  let queued := s.threads.any fun h => h.tid != s.thr.tid && waitsCard c h && matrixRuns h.part s
  match freeEntry e with
  | some n => if !e.stop && (granted || (others < freeEntries e && !queued)) then .ok n else .error (.hold (waitCard c))
  | none => .error (.hold (waitCard c))

/-- The card's footprints enter the partition's step records (R385). -/
def recordJob (card : List Byte) (reads writes : List Range) (s : State) : State :=
  let p := s.thr.part
  let x := s.part p
  let lost := !ctlRestartable (cardCtl card) || anyMeet writes (reads ++ x.readRanges) || anyMeet x.writeRanges reads
  let t := if x.keeps && lost then s.loseStep p else s
  if x.keeps then
    t.modPart p fun y => { y with readRanges := y.readRanges ++ reads, writeRanges := y.writeRanges ++ writes }
  else t

/-- Checks 2 to 4 of R153 over the card's 176 bytes at the cursor `at_`. -/
def checkCard (card : List Byte) (at_ : Word64) (st dt ct : Bool) (s : State) : Res State := do
  match cardOffence card with
  | some o => raise 0x05 (at_ + BitVec.ofNat 64 o)
  | none =>
    let src := cardCap card 0 st
    let dst := cardCap card 16 dt
    let rf := cardNat card 144 8
    let rl := cardNat card 152 8
    let wf := cardNat card 160 8
    let wl := cardNat card 168 8
    s.checkCap s.who src (BitVec.ofNat 64 rf) rl needCopyRead at_
    require (layoutOk src.space src.cursor) 0x04 src.cursor
    s.checkCap s.who dst (BitVec.ofNat 64 wf) wl needCopyWrite (at_ + 16)
    require (layoutOk dst.space dst.cursor) 0x04 dst.cursor
    let cc := cardCap card 128 ct
    let counts := ctlCkind (cardCtl card) == 2
    if counts then do
      s.checkCap s.who cc cc.cursor 64 needCounter (at_ + 128)
      require (cc.cursor.toNat % 64 == 0) 0x04 cc.cursor
    require (cardElems card == 0 || (spanInside card src 48 (srcBits card) rf rl && spanInside card dst 80 (dstBits card) wf wl)) 0x31 at_
    if counts then do
      let (_, t) ← s.translateAt s.who cc.space cc.addr { needCounter with ct := true }
      .ok t
    else .ok s

/-- A card is accepted at a free entry. -/
def acceptJob (n : Nat) (card : List Byte) (at_ : Word64) (st dt ct : Bool) (s : State) : State :=
  let c := s.thr.cluster
  let e := engineOf c s
  let reads := [footOf (cardCap card 0 st) (cardNat card 144 8) (cardNat card 152 8)]
  let writes := [footOf (cardCap card 16 dt) (cardNat card 160 8) (cardNat card 168 8)]
  let j : Job :=
    { state := .queued, card, srcTag := st, dstTag := dt, ccapTag := ct, landed := [], ascendTo := 0, owed := false, fault := 0, faultAddr := 0, faultKind := 0,
      bmap := 0, order := e.nextOrder, cardAddr := at_, tid := s.thr.tid, cref := s.thr.cref, world := s.thr.world,
      domain := s.thr.ctx.domain, gen := s.curDomain.gen, part := s.thr.part, stepNo := s.curPart.stepNo, sseq := s.thr.ctx.stamped,
      deps := edgesOf e reads writes, readFoot := reads, writeFoot := writes }
  modEngine c (fun x => { x with nextOrder := x.nextOrder + 1 }) (setJob c n j (recordJob card reads writes s).useStamp)

/-- The card path of `cpyj`. -/
def submitCard (c : Cap) (a : RegNum) (s : State) : Res State := do
  let n ← (if (pairFirst s).isSome then .ok 0 else reserveCard s.thr.cluster s)
  let (bs, ps, t) ← s.readBlock c 192 needRead12 (regName a)
  let card := bs.take 176
  let tag (off : Nat) : Bool := t.tagAt (State.placeIn ps off)
  let u ← checkCard card c.cursor (tag 0) (tag 16) (tag 128) t
  match pairFirst u with
  | some (x, v) => if x.word == s.thr.ctx.ir && x.card == card then .ok v.useStamp.endTask.advance else raise 0x43 c.cursor
  | none => .ok (acceptJob n card c.cursor (tag 0) (tag 16) (tag 128) (notePair card [] none none u)).endTask.advance

/-! ## Resume and status (R156) -/

/-- The capability and the need of the access at which a job paused: its source, its destination, or its counter. -/
def pauseAccess (j : Job) : Cap × Need :=
  match j.faultKind.toNat with
  | 0 => (cardCap j.card 0 j.srcTag, needCopyRead)
  | 1 => (cardCap j.card 16 j.dstTag, needCopyWrite)
  | _ => (cardCap j.card 128 j.ccapTag, needCounter)

/-- The translation at which a job paused is present now, be it with the permission that the access needs or without it. A page that
the walker can fill by first touch is present; a HOST page whose answer is still out is not. -/
def pausePresent (j : Job) (s : State) : Bool :=
  let (c, need) := pauseAccess j
  match s.translateAt ⟨j.world, j.domain⟩ c.space (addrOf c.space j.faultAddr) need with
  | .ok _ => true
  | .error (.fault f) => f.code != 0x10 && f.code != 0x11
  | .error (.hold _) => c.space != 4

/-- The first sector not landed. -/
def firstUnlanded (j : Job) : Nat := (firstIdx (sectorCount j.card) fun k => !j.landed.contains k).getD 0

/-- A paused job runs on, or, with no elements, is due to complete: its window's sectors land in ascending order first (R155), and
BMAP reads 0 again (R412). -/
def resumeJob (j : Job) : Job :=
  { j with state := if sectorCount j.card = 0 then .queued else .running, fault := 0, bmap := 0, ascendTo := firstUnlanded j + 4096 }

/-- Resume the paused jobs of an engine that satisfy a test; a job whose record is still to be written stays paused (R367). -/
def resumeWhere (c : Nat) (p : Job → Bool) (s : State) : State :=
  modEngine c (fun e => { e with entries := e.entries.map fun x =>
    (if p x.2 && x.2.state == .paused && !x.2.owed then (x.1, resumeJob x.2) else x) }) s

/-- `cpyj` (R153, R156). -/
def execCpyj (a : RegNum) (s : State) : Out :=
  s.finish (do
    let c := s.reg a
    if c.tag && c.space == 6 then do
      checkSlotCap c ⟨1, false, false, true⟩ a s
      .ok (resumeWhere (curCluster c.cursor) (fun j => pausePresent j s) s).endTask.advance
    else submitCard c a s)

/-- STATE codes of a job status. -/
def jobStateCode : JobState → Nat
  | .queued => 1
  | .running => 2
  | .paused => 3
  | .done => 4
  | .faulted => 5

/-- The job status layout. -/
def jobStatus (entry : Nat) (j : Job) : Word64 :=
  BitVec.ofNat 64 (jobStateCode j.state + j.fault.toNat * 2 ^ 8 + entry * 2 ^ 16 + j.landed.length * 2 ^ 24)

/-- The entry accepted last from a card address (R303). -/
def latestJob (e : Engine) (at_ : Word64) : Option (Nat × Job) :=
  (e.entries.filter fun x => x.2.cardAddr == at_).foldl (fun b x => match b with
    | none => some x
    | some y => if y.2.order < x.2.order then some x else some y) none

/-- The engine status. Where several jobs run (R154), the running entry that it names is the lowest-numbered one: R156 does not say
which (DESIGN CHOICE, log entry 69). -/
def engineStatus (e : Engine) : Word64 :=
  let running : Nat := match e.entries.find? fun x => x.2.state == .running with
    | some x => x.1
    | none => 0xFF
  BitVec.ofNat 64 (freeEntries e + running * 2 ^ 8)

/-- `cpyq` (R156). -/
def execCpyq (a d : RegNum) (s : State) : Out :=
  s.finish (do
    let c := s.reg a
    if c.tag && c.space == 6 then do
      checkSlotCap c ⟨1, true, false, false⟩ a s
      .ok (s.writeInt d (engineStatus (engineOf (curCluster c.cursor) s))).advance
    else do
      let (_, t) ← s.access s.who c c.cursor 1 needRead12 (regName a)
      let v := match latestJob (engineOf s.thr.cluster s) c.cursor with
        | some (n, j) => jobStatus n j
        | none => 0
      .ok (t.writeInt d v).advance)

/-! ## Sectors (R152, R154, R155) -/

/-- Convert(SFMT, DFMT, RM, SAT, code) of R152: conversions as `fcvt` and `icvt`, which saturates; a narrowing from integer to integer
keeps the low bits with SAT = 0 (log entry 24). -/
def convertCode (ctl x : Nat) : Nat :=
  let sf := fmtOf5 (ctlSrc ctl)
  let df := fmtOf5 (ctlDst ctl)
  match decodeNum sf x with
  | .fin neg m e =>
    if !sf.isFloat && !df.isFloat && !ctlSat ctl then wrapInt (fmtBits df) (ctlRm ctl) neg m e
    else (roundTo df (ctlRm ctl) (.fin neg m e)).1
  | v => (roundTo df (ctlRm ctl) v).1

/-- A run of stream bytes in one row: the row, the offset in it, the length. -/
def runsFrom (row : Nat) (at_ n : Nat) : List (Nat × Nat × Nat) :=
  (piecesAt row at_ n).map fun p => (p.1 / row, p.1 % row, p.2)

/-- The runs of a sector. -/
def sectorRuns (card : List Byte) (k : Nat) : List (Nat × Nat × Nat) :=
  runsFrom (streamRow card) (256 * k) (min 256 (streamBytes card - 256 * k))

/-- The bits of a packed run of source bytes at a bit offset. -/
def bitsAt (bs : List Byte) (off w : Nat) : Nat := leNat ((bs.drop (off / 8)).take ((off % 8 + w + 7) / 8)) / 2 ^ (off % 8) % 2 ^ w

/-- The elements of a run: the first and one past the last. -/
def runElems (card : List Byte) (o n : Nat) : Nat × Nat :=
  let w := dstBits card
  (8 * o / w, (8 * (o + n) + w - 1) / w)

/-- The bytes of a row that the run reads: offset and length. -/
def runSource (card : List Byte) (o n : Nat) : Nat × Nat :=
  if ctlRaw (cardCtl card) then (o, n)
  else
    let (lo, hi) := runElems card o n
    let a := lo * srcBits card / 8
    (a, (hi * srcBits card + 7) / 8 - a)

/-- The run's destination bytes from the source bytes that start at offset `so` of the row. -/
def convertRun (card : List Byte) (o n so : Nat) (bs : List Byte) : List Byte :=
  let ctl := cardCtl card
  if ctlRaw ctl then bs
  else
    let (lo, hi) := runElems card o n
    let codes := (List.range (hi - lo)).map fun i => convertCode ctl (bitsAt bs ((lo + i) * srcBits card - 8 * so) (srcBits card))
    (toLe ((hi - lo) * dstBits card / 8 + 1) (packElems (dstBits card) codes / 2 ^ (8 * o - lo * dstBits card))).take n

/-- A failure of a job and the byte 9 that its record shows. -/
abbrev JobRes := Except (BitVec 8 × Exn)

/-- Name the side of a failure. -/
def onSide {α : Type} (k : BitVec 8) (r : Res α) : JobRes α :=
  match r with
  | .ok x => .ok x
  | .error e => .error (k, e)

/-- The reads of a job's places in a peer's memory leave as flits (R406). -/
def sendReads (j : Job) (c : Cap) (ps : List (Nat × Nat)) (s : State) : State :=
  ps.foldl (fun u x => u.sendRequest x.1 j.world j.cref j.stepNo j.sseq c.gen none (.copyRead x.2)) s

/-- The writes of a job into a peer's memory leave as flits, each within one line, so that its bytes fit the payload (R406). -/
def sendWrites (j : Job) (c : Cap) (chunks : List (Nat × List Byte)) (s : State) : State :=
  chunks.foldl (fun u x => u.sendRequest x.1 j.world j.cref j.stepNo j.sseq c.gen none (.copyWrite x.2)) s

/-- Read the source of a run. -/
def readRun (q : Req) (j : Job) (row o n : Nat) (s : State) : Res (List Byte × State) := do
  let c := cardCap j.card 0 j.srcTag
  let (so, len) := runSource j.card o n
  let a := (srcRowAddr j row + so).toNat
  let (ps, t) ← State.translatePieces s ⟨j.world, j.domain⟩ c.space needCopyRead (piecesAt (pageStep c.space) a len)
  match t.piecesFault q a ps with
  | some (code, addr) => .error (.fault { plainFault code (BitVec.ofNat 64 addr) with event := t.portEvent q ps })
  | none => .ok (convertRun j.card o n so (t.readPieces ps), sendReads j c ps t)

/-- The event that a port logs of a request that it refuses (R336). -/
def refusalEvent (q : Req) (pa : Nat) (s : State) : Option LogEvent :=
  if s.portAdmits q pa then none else some (.portRefused (dieOfCluster (clusterOfLocal pa)) q.world)

/-- The first byte of a run that its home refuses: the code, the bytes of the run before it, and what a port logs of it. -/
def runRefused (q : Req) (s : State) (off : Nat) : List (Nat × List Byte) → Option (BitVec 8 × Nat × Option LogEvent)
  | [] => none
  | (pa, bs) :: r =>
    match s.storeRefusal q pa with
    | some code => some (code, off, refusalEvent q pa s)
    | none => runRefused q s (off + bs.length) r

/-- The places that a run is written to; a refused write names its own line, a counter line by its CURSOR (R155, R363). -/
def writeRun (q : Req) (j : Job) (row o : Nat) (bs : List Byte) (s : State) : Res (List (Nat × List Byte) × State) := do
  let c := cardCap j.card 16 j.dstTag
  let a := (dstRowAddr j row + o).toNat
  let (ps, t) ← State.translatePieces s ⟨j.world, j.domain⟩ c.space needCopyWrite (piecesAt (pageStep c.space) a bs.length)
  let chunks := chunksOf ps bs
  match runRefused q t 0 chunks with
  | some (code, off, event) => .error (.fault { plainFault code (BitVec.ofNat 64 ((a + off) / 64 * 64)) with event })
  | none => .ok (chunks, t)

/-- All of a sector's writes, every source byte read first. -/
def sectorReads (q : Req) (j : Job) (s : State) : List (Nat × Nat × Nat) → JobRes (List (Nat × Nat × List Byte) × State)
  | [] => .ok ([], s)
  | (row, o, n) :: r => do
    let (bs, t) ← onSide 0 (readRun q j row o n s)
    let (rest, u) ← sectorReads q j t r
    .ok ((row, o, bs) :: rest, u)

def sectorWrites (q : Req) (j : Job) (s : State) : List (Nat × Nat × List Byte) → JobRes (List (Nat × List Byte) × State)
  | [] => .ok ([], s)
  | (row, o, bs) :: r => do
    let (cs, t) ← onSide 1 (writeRun q j row o bs s)
    let (rest, u) ← sectorWrites q j t r
    .ok (cs ++ rest, u)

/-! ## Tags of raw jobs (R83) -/

/-- The job carries tags. -/
def carriesTags (j : Job) : Bool :=
  let src := cardCap j.card 0 j.srcTag
  let dst := cardCap j.card 16 j.dstTag
  ctlRaw (cardCtl j.card) && (src.space == 1 || src.space == 2) && (dst.space == 1 || dst.space == 2) && src.permLC && dst.permSC

/-- Where stream byte `b` goes and where it comes from. -/
def byteMap (j : Job) (b : Nat) : Nat × Nat :=
  let row := b / streamRow j.card
  let o := b % streamRow j.card
  ((dstRowAddr j row + o).toNat, (srcRowAddr j row + o).toNat)

/-- The stream bytes that write into the granule at `g`. -/
def granuleBytes (j : Job) (g : Nat) : List Nat := (List.range (streamBytes j.card)).filter fun b => (byteMap j b).1 / 16 == g / 16

/-- The source granule whose tag the destination granule at `g` takes, once every sector that writes it has landed. -/
def tagSource (j : Job) (landed : List Nat) (g : Nat) : Option Nat :=
  let bs := granuleBytes j g
  let srcOf (b : Nat) : Nat := (byteMap j b).2 - (byteMap j b).1 % 16
  match bs with
  | [] => none
  | b0 :: _ =>
    let sg := srcOf b0
    if sg % 16 == 0 && bs.all (fun b => srcOf b == sg && (byteMap j b).2 == sg + (byteMap j b).1 % 16 && landed.contains (b / 256))
        && (List.range 16).all (fun i => bs.any fun b => (byteMap j b).1 % 16 == i) then some sg else none

/-- The physical place of an address that the job has just used. -/
def jobPlace (j : Job) (space a : Nat) (need : Need) (s : State) : Option Nat :=
  match s.translateAt ⟨j.world, j.domain⟩ space a need with
  | .ok (pa, _) => some pa
  | .error _ => none

/-- The granules that a sector touches. -/
def sectorGranules (j : Job) (k : Nat) : List Nat :=
  ((sectorRuns j.card k).flatMap fun x =>
    blocksOf 16 (dstRowAddr j x.1 + x.2.1).toNat x.2.2).eraseDups.map (· * 16)

/-- The tags that the sector's granules take from `old`, the state before the sector's writes. A granule that two sectors write takes
the tag that its source granule has when the last of them lands: R83 does not say when the tag is read (DESIGN CHOICE, log
entry 69). -/
def takeTags (j : Job) (landed : List Nat) (old : State) : List Nat → State → State
  | [], s => s
  | g :: r, s =>
    let t := match tagSource j landed g with
      | some sg =>
        match jobPlace j (cardCap j.card 16 j.dstTag).space g needCopyWrite s,
            jobPlace j (cardCap j.card 0 j.srcTag).space sg needCopyRead s with
        | some pd, some ps => s.setTag pd (old.tagAt ps)
        | _, _ => s
      | none => s
    takeTags j landed old r t

/-! ## Completion adds (R154, R387, R397) -/

/-- A job's sheaf entry with one more sector's bytes, or with the fault that a sector's add met. -/
def noteSector (k : Nat) (v : Word64) (r : State.Reply) (e : SheafEntry) : SheafEntry :=
  if r.fault = 0 then { e with operand := e.operand + v, sectors := NSet.add e.sectors k } else { e with fault := r.fault }

/-- The stamp of an operation at its home (R387). -/
structure Stamp where
  world : Nat
  part : Nat
  cref : Word64
  stepNo : Nat
  sseq : Nat

/-- An engine's add into a memory counter at its home: absorbed, with the fault that it raised, where the sheaf already records its
stamp and sector; 0x43 where the entry of its stamp is of another operation (R387). -/
def stampedAdd (q : Req) (j : Stamp) (keep : Bool) (sector : Option Nat) (v : Word64) (pa : Nat) (s : State) : BitVec 8 × State :=
  let held := if keep then s.sheafFind j.world j.part j.cref j.stepNo j.sseq else none
  match held, sector with
  | some e, none => (if State.sameStamp e 0x1C 0 v then e.fault else 0x43, s)
  | some e, some k =>
    if e.maj != 0x1C || e.func != 0 then (0x43, s)
    else if e.sectors.contains k then (0, s)
    else if e.fault != 0 then (e.fault, s)
    else
      let r := lineAdd q pa v s
      (r.fault, { r.state with sheaf := r.state.sheaf.map fun x => if x == e then noteSector k v r x else x })
  | none, _ =>
    let r := lineAdd q pa v s
    let e : SheafEntry := ⟨j.world, j.part, j.cref, j.stepNo, j.sseq, 0x1C, 0, if sector.isSome then 0 else v, r.result, 0, false, []⟩
    let e' := match sector with
      | some k => noteSector k v r e
      | none => { e with fault := r.fault }
    (r.fault, if keep then { r.state with sheaf := r.state.sheaf ++ [e'] } else r.state)

/-- The add of a job of this package. -/
def engineAdd (q : Req) (j : Job) (sector : Option Nat) (v : Word64) (pa : Nat) (s : State) : BitVec 8 × State :=
  stampedAdd q ⟨j.world, j.part, j.cref, j.stepNo, j.sseq⟩ (decide (j.sseq < Config.sheafSlots)) sector v pa s

/-- The place of the memory counter that a job's adds go to. -/
def counterPlace (j : Job) (s : State) : Res (Nat × State) :=
  let cc := cardCap j.card 128 j.ccapTag
  if ctlCkind (cardCtl j.card) = 2 then s.translateAt ⟨j.world, j.domain⟩ cc.space cc.addr { needCounter with ct := true } else .ok (0, s)

/-- The completion add of a job into its counter, a memory counter at the place given: the fault code that it leaves (0 for none),
what the record shows as its address, the state. -/
def completionAdd (q : Req) (j : Job) (sector : Option Nat) (v : Word64) (pa : Nat) (s : State) : BitVec 8 × Word64 × State :=
  let ctl := cardCtl j.card
  match ctlCkind ctl with
  | 1 =>
    let k := ctlKnum ctl
    if s.threads.any fun h => countsFor j.tid true s h && decide (2 ^ 64 ≤ h.ctx.kctr[k.toNat].toNat + v.toNat) then (0x20, k.setWidth 64, s)
    else (0, 0, addToK j.tid k true v 0 s)
  | 2 =>
    let cc := cardCap j.card 128 j.ccapTag
    let (code, u) := engineAdd q j sector v pa (s.sendRequest pa j.world j.cref j.stepNo j.sseq cc.gen sector (.counterAdd v))
    (code, cc.cursor, u)
  | _ => (0, 0, s)

/-! ## The engine's events -/

/-- The job's partition has its engines, and the engine is not stopped. -/
def engineRuns (c : Nat) (j : Job) (s : State) : Bool :=
  !(engineOf c s).stopped && ((s.part j.part).phase == .active || (s.part j.part).phase == .announced)

/-- The engine only finishes what it has in flight: it is stopping (R375), or the partition's switch timestamp has come (R300). -/
def draining (c : Nat) (j : Job) (s : State) : Bool := (engineOf c s).stop || !matrixRuns j.part s

/-- Nothing of the job is in flight once its landed sectors are the first ones of its stream; a job that is not running has nothing
in flight. -/
def jobSettled (j : Job) : Bool := j.state != .running || firstUnlanded j == j.landed.length

/-- The sector may be in flight: it lies in the window (R412), comes in ascending order after a resume (R155), and, where the engine
only finishes what is in flight, lies below a sector that has landed. -/
def inWindow (c : Nat) (j : Job) (k : Nat) (s : State) : Bool :=
  let f := firstUnlanded j
  decide (k < sectorCount j.card) && !j.landed.contains k && decide (k < f + 4096) && (k == f || decide (j.ascendTo ≤ f))
    && (!draining c j s || j.landed.any (k < ·))

/-- The 32-byte record of a job that a failure has stopped (R155). -/
def jobRecord (c e : Nat) (j : Job) (s : State) : FaultRec :=
  ⟨j.faultAddr, j.fault, j.faultKind, BitVec.ofNat 8 c, BitVec.ofNat 8 e, BitVec.ofNat 32 j.landed.length, j.cardAddr, BitVec.ofNat 64 s.now⟩

/-- Where a partition's save area keeps the bitmap record of a queue entry: its offset, and its place in memory (R412). -/
def bitmapOffset (c e : Nat) : Nat := (64 * c + e) * 520
def paSave (p off : Nat) : Nat := (6 + p) * regionSize + off

/-- BMAP of a paused job. -/
def bitmapAddr (p c e : Nat) : Word64 := Config.saveArea p + BitVec.ofNat 64 (bitmapOffset c e)

/-- The bitmap record: the window's first sector, then a bit for each sector of the window. -/
def bitmapBytes (j : Job) : List Byte :=
  let f := firstUnlanded j
  toLe 8 f ++ (List.range 512).map fun x =>
    BitVec.ofNat 8 (((List.range 8).map fun i => if j.landed.contains (f + 8 * x + i) then 2 ^ i else 0).foldl (· + ·) 0)

/-- A queue entry that stands in the save area of a partition takes a job (R300). -/
def setSaved (p c e : Nat) (j : Job) (s : State) : State :=
  s.modPart p fun x => { x with savedJobs := x.savedJobs.map fun y => if y.cluster == c && y.entry == e then { y with job := j } else y }

/-- A job pauses: it keeps its bitmap record and BMAP shows the record's address. -/
def pauseJob (c e : Nat) (j : Job) (s : State) : Job × State :=
  ({ j with state := .paused, bmap := bitmapAddr j.part c e }, s.pokeMem (paSave j.part (bitmapOffset c e)) (bitmapBytes j))

/-- Whether a failure pauses a job, or ends it FAULTED (R155). -/
def codePauses (code : BitVec 8) : Bool := code == 0x10 || code == 0x11

/-- The record of a stopped job is written, and the job then stays paused or is FAULTED. `put` keeps it where its entry stands. -/
def writeJobRecord (put : Job → State → State) (c e : Nat) (j : Job) (s : State) : State :=
  put (if codePauses j.fault then { j with owed := false } else { j with owed := false, state := .faulted, bmap := 0 })
    (s.pushFault j.world (jobRecord c e j s))

/-- A job meets a failure: it pauses or ends after its record, and waits paused while the fault queue is full (R367). The page request
follows the record (R305). -/
def stopJob (put : Job → State → State) (c e : Nat) (j : Job) (kind : BitVec 8) (f : FaultInfo) (s : State) : State :=
  let full := s.faultQueueFull j.world
  let x := { j with fault := f.code, faultAddr := f.addr, faultKind := kind, owed := full }
  let (y, t) := if full || codePauses f.code then pauseJob c e x s else (x, s)
  let u := (put y t).hostFault { f with pri := none }
  if full then u
  else match f.pri with
    | some k => (writeJobRecord put c e y u).sendPri k
    | none => writeJobRecord put c e y u

/-- The counts of a landed sector, and the end of the job with the last one. -/
def countSector (q : Req) (c e k : Nat) (j : Job) (pa : Nat) (s : State) : State :=
  let addm := ctlAddm (cardCtl j.card)
  let j1 := { j with landed := NSet.add j.landed k }
  let all := decide (j1.landed.length = sectorCount j.card)
  let (code, addr, t) :=
    if !addm then completionAdd q j (some k) (BitVec.ofNat 64 (sectorBytes j.card k)) pa s
    else if all then completionAdd q j none 1 pa s
    else (0, 0, s)
  if code ≠ 0 then stopJob (setJob c e) c e j1 3 (plainFault code addr) t
  else setJob c e { j1 with state := if all then .done else .running } t

/-- The add of the sector goes with it: every sector's in byte mode, the last one's otherwise. -/
def sectorCounts (j : Job) : Bool := !ctlAddm (cardCtl j.card) || j.landed.length + 1 == sectorCount j.card

/-- A sector lands whole, with its add: every byte is read, and every place known, before the first is written. -/
def sectorOutcome (c e k : Nat) (j : Job) (s : State) : JobRes State := do
  let q : Req := ⟨j.world, some c⟩
  let (runs, t) ← sectorReads q j s (sectorRuns j.card k)
  let (chunks, u) ← sectorWrites q j t runs
  let (pa, v) ← (if sectorCounts j then onSide 3 (counterPlace j u) else .ok (0, u))
  let w := (((sendWrites j (cardCap j.card 16 j.dstTag) chunks v).recordChunks j.part chunks).storeBytes q 0 chunks).1
  .ok (countSector q c e k j pa (if carriesTags j then takeTags j (NSet.add j.landed k) v (sectorGranules j k) w else w))

/-- The domain of a job has been killed: what its requests would still write is discarded (R106, R155). -/
def jobKilled (j : Job) (s : State) : Bool := ((s.world j.world).dom j.domain).state != .live

/-- The job ends FAULTED by the kill of its domain, without a record (R155). -/
def endJob (j : Job) : Job := { j with state := .faulted, fault := 0x06, bmap := 0, owed := false }

/-- The sector's add into kN would come before others that a record-mode log has first (R393). -/
def addHeld (j : Job) (k : Nat) (s : State) : Bool :=
  let ctl := cardCtl j.card
  ctlCkind ctl == 1 && sectorCounts j
    && addToKHeld j.tid (ctlKnum ctl) true (if ctlAddm ctl then 1 else BitVec.ofNat 64 (sectorBytes j.card k)) s

/-- The add of a job with no elements comes later in a record-mode log (R393). -/
def emptyHeld (j : Job) (s : State) : Bool :=
  let ctl := cardCtl j.card
  sectorCount j.card == 0 && ctlAddm ctl && ctlCkind ctl == 1 && addToKHeld j.tid (ctlKnum ctl) true 1 s

/-- The sectors that are in flight when sector `k` fails: those of the window below it or below one that has landed. -/
def inFlight (c k : Nat) (j : Job) (s : State) : List Nat :=
  (List.range (max k (j.landed.foldl max 0))).filter fun x => x != k && inWindow c j x s && !addHeld j x s

/-- The sectors in flight whose pages are present land, with their counts, before a pause (R155, R305); the homes judge the waits by each
add alone (R257). A sector whose access waits, for an answer of the host, a first touch, a path or a line, is not in flight: R155 and
R412 do not say (DESIGN CHOICE, log entry 86). -/
def landFlight (c e : Nat) : List Nat → State → State
  | [], s => s
  | k :: r, s => landFlight c e r (match (jobAt c e s).filter fun j => j.state == .running with
    | some j => match sectorOutcome c e k j s with
      | .ok t => judgeWaits t
      | .error _ => s
    | none => s)

/-- A job that runs meets a failure at sector `k`: where it pauses, the sectors in flight come first. -/
def failSector (c e k : Nat) (j : Job) (kind : BitVec 8) (f : FaultInfo) (s : State) : State :=
  let t := if codePauses f.code then landFlight c e (inFlight c k j s) s else s
  match (jobAt c e t).filter fun y => y.state == .running with
  | some y => stopJob (setJob c e) c e y kind f t
  | none => t

/-- What a running job does with sector `k`: it lands, it stops the job, or it waits (an address still to be translated). -/
def landSector (c e k : Nat) (j : Job) (s : State) : State :=
  if jobKilled j s then setJob c e (endJob j) s
  else match sectorOutcome c e k j s with
    | .ok t => t
    | .error (kind, .fault f) => failSector c e k j kind f s
    | .error (_, .hold f) => s.heldBy f

def trySectorLand (c e k : Nat) (s : State) : Option State :=
  ((jobAt c e s).filter fun j => j.state == .running && engineRuns c j s && inWindow c j k s && !addHeld j k s).map fun j =>
    landSector c e k j s

/-- SECTOR_LAND (R154, R155, R412): a sector of the window of a running job. -/
def execSectorLand (c e k : Nat) (s : State) : Out := happen (trySectorLand c e k s) s

/-- Act on every entry of an engine that satisfies a test. -/
def eachEntry (f : Nat → Nat → Job → State → State) (c : Nat) : List (Nat × Job) → State → State
  | [], s => s
  | (e, j) :: r, s => eachEntry f c r (f c e j s)

/-- Act on every entry of every engine. -/
def eachJob (f : Nat → Nat → Job → State → State) : List (Nat × Cluster) → State → State
  | [], s => s
  | (c, x) :: r, s => eachJob f r (eachEntry f c x.engine.entries s)

/-- Act on every entry of a partition's save area, and of every partition's. -/
def eachSaved (f : (Job → State → State) → Nat → Nat → Job → State → State) (p : Nat) : List SavedJob → State → State
  | [], s => s
  | x :: r, s => eachSaved f p r (f (setSaved p x.cluster x.entry) x.cluster x.entry x.job s)

def eachSavedIn (f : (Job → State → State) → Nat → Nat → Job → State → State) : List (Nat × Partition) → State → State
  | [], s => s
  | (p, x) :: r, s => eachSavedIn f r (eachSaved f p x.savedJobs s)

/-- Act on every job, in an engine or in the save area of a partition that is switched out. -/
def everyJob (f : (Job → State → State) → Nat → Nat → Job → State → State) (s : State) : State :=
  eachSavedIn f s.parts (eachJob (fun c e => f (setJob c e) c e) s.clusters s)

/-- A job whose record had to wait writes it, and asks for the host page that it waits for (R305, R367). -/
def payRecord (w : Nat) (put : Job → State → State) (c e : Nat) (j : Job) (s : State) : State :=
  if j.owed && j.world == w && !s.faultQueueFull w then
    let t := writeJobRecord put c e j s
    if j.fault = 0x11 then t.sendPri (((s.world j.world).dom j.domain).pasid, j.faultAddr.toNat / hostPage) else t
  else s

/-- Every earlier job with an edge has ended. -/
def edgesOver (c : Nat) (j : Job) (s : State) : Bool :=
  !((engineOf c s).entries.any fun x => jobLive x.2 && j.deps.contains x.2.order)

/-- A queued job may start. -/
def jobStartable (c e : Nat) (s : State) : Option Job :=
  (jobAt c e s).filter fun j => j.state == .queued && edgesOver c j s && engineRuns c j s && !draining c j s

/-- A job with no elements completes at once, with its add where it makes one. -/
def endEmpty (c e : Nat) (j : Job) (s : State) : State :=
  if !ctlAddm (cardCtl j.card) then setJob c e { j with state := .done } s
  else match counterPlace j s with
    | .error (.fault f) => stopJob (setJob c e) c e j 3 f s
    | .error (.hold f) => s.heldBy f
    | .ok (pa, t) =>
      let (code, addr, u) := completionAdd ⟨j.world, some c⟩ j none 1 pa t
      if code ≠ 0 then stopJob (setJob c e) c e j 3 (plainFault code addr) u else setJob c e { j with state := .done } u

/-- The threads whose jobs wait in the engine's queue. -/
def engineRequests (c : Nat) (s : State) : List Nat := ((engineOf c s).entries.filter fun x => x.2.state == .queued).map (·.2.tid)

def tryCopyJobStart (c e : Nat) (s : State) : Option State :=
  ((jobStartable c e s).filter fun j => !choiceHeld true c j.tid (engineRequests c s) s && !emptyHeld j s).map fun j =>
    let t := noteChoice true c j.tid (engineRequests c s) s
    if jobKilled j t then setJob c e (endJob j) t
    else if sectorCount j.card = 0 then endEmpty c e j t else setJob c e { j with state := .running } t

/-- COPY_JOB_START (R154). -/
def execCopyJobStart (c e : Nat) (s : State) : Out := happen (tryCopyJobStart c e s) s

/-- The thread that has waited longest for a card entry. -/
def oldestCardWaiter (c : Nat) (s : State) : Option Thread :=
  let key (h : Thread) : Nat := match h.stall with
    | some (.copyQueue _ o) => o
    | _ => 0
  (s.threads.filter fun h => waitsCard c h && matrixRuns h.part s).foldl (fun b h => match b with
    | none => some h
    | some x => if key h < key x then some h else some x) none

def tryCopyQueueGrant (c : Nat) (s : State) : Option State :=
  ((oldestCardWaiter c s).filter fun _ =>
    decide ((s.threads.filter (grantedCard c s)).length < freeEntries (engineOf c s)) && !(engineOf c s).stop).map fun h =>
      s.modThread h.tid fun x => { x with stall := some (.copyGranted c) }

/-- COPY_QUEUE_GRANT (R153). -/
def execCopyQueueGrant (c : Nat) (s : State) : Out := happen (tryCopyQueueGrant c s) s

end Sys2Proof.Machine
end

