-- ==== Sys2Proof/Machine/Sched.lean ====
section
/-! DEFINITION. The scheduling instructions: `spawn`, `exit`, `yield`, `sysc`, `step`, `allot`, `getid`, `time`, and the placement
rules that they share with the dispatcher (14_scheduling R271, R272, R286-R297). -/

namespace Sys2Proof.Machine

open Sys2Proof

/-! ## Cores and placement (R271, R272) -/

def coreRec (c k : Nat) (s : State) : Core := NMap.getD (s.cluster c).cores k Core.idle

def modCore (c k : Nat) (f : Core → Core) (s : State) : State :=
  s.modCluster c fun x => { x with cores := NMap.set x.cores k (f (NMap.getD x.cores k Core.idle)) }

/-- Some core of the cluster offers a slot. -/
def offersSlots (c : Nat) (s : State) : Bool := (List.range 16).any fun k => (coreRec c k s).offered != 0

/-- The class of a cluster matches CLASS (R267). -/
def classMatches (cls : BitVec 2) (c : Nat) : Bool := cls == 0 || (cls == 1 && !broadUnit c) || (cls == 2 && broadUnit c)

/-- A record of this affinity may run on cluster c of the partition (R271, R272). -/
def admits (p : Nat) (level cls : BitVec 2) (named c : Nat) (s : State) : Bool :=
  (s.part p).clusters.contains c && offersSlots c s && classMatches cls c
    && (if level = 2 then c == named else dieOfCluster c == dieOfCluster named)

/-- Occupied slots of a cluster plus READY records of its queue; another partition's stand in the shadow copy (R298). -/
def occupancy (p c : Nat) (s : State) : Nat :=
  (s.threads.filter fun h => h.part == p && (match h.place with
    | some p => p / 128 == c
    | none => h.status == .ready && h.cluster == c)).length

/-- The least occupied of a list of clusters, the lowest number on a tie. -/
def leastOccupied (p : Nat) (l : List Nat) (s : State) : Option Nat :=
  l.foldl (fun b c => match b with
    | none => some c
    | some x => if occupancy p c s < occupancy p x s ∨ (occupancy p c s = occupancy p x s ∧ c < x) then some c else some x) none

/-- The cluster that a new record is placed on (R290). -/
def placeNew (p here : Nat) (level cls : BitVec 2) (named : Nat) (s : State) : Option Nat :=
  let cl := (s.part p).clusters.filter fun c => offersSlots c s && classMatches cls c
  match level.toNat with
  | 0 =>
    if cl.contains here then some here
    else match firstIdx 64 fun c => cl.contains c && dieOfCluster c == dieOfCluster here with
      | some c => some c
      | none => firstIdx 64 fun c => cl.contains c
  | 1 => leastOccupied p (cl.filter fun c => dieOfCluster c == dieOfCluster named) s
  | _ => if cl.contains named then some named else none

/-! ## The run queues as a core sees them (R271, R272, R282) -/

/-- The partition's words issue: it is not stopped for a switch (R299), for recovery (R386) or for good. -/
def partRuns (p : Nat) (s : State) : Bool := matrixRuns p s && !(s.part p).stopped

/-- The record may be taken: READY, not captured for an image, not held for recovery. -/
def takeable (h : Thread) (s : State) : Bool :=
  h.status == .ready && !h.captured && h.stall != some .recovery && partRuns h.part s

/-- The other member of a redundant pair stands on the cluster (R388). -/
def partnerOn (h : Thread) (c : Nat) (s : State) : Bool :=
  h.paired && s.threads.any fun g => g.cref == h.cref && g.world == h.world && g.tid != h.tid && g.cluster == c && g.status != .done

/-- The record may run on the cluster (R272, R388). -/
def mayRunOn (h : Thread) (c : Nat) (s : State) : Bool := admits h.part h.level h.cls h.named c s && !partnerOn h c s

/-- The READY records of a cluster's queue that a core of cluster `c` may take. -/
def queueFor (q c : Nat) (s : State) : List Thread := s.threads.filter fun h => h.cluster == q && takeable h s && mayRunOn h c s

/-! ## The record (R267) -/

/-- STATUS codes (R268). -/
def statusCode : Status → Nat
  | .vacant => 0
  | .ready => 1
  | .running => 2
  | .waiting => 3
  | .gated => 4
  | .done => 5
  | .faulted => 6
  | .killed => 7

/-- WKIND and WADDR. -/
def waitFields : Option WaitReq → Nat × Nat
  | none => (0, 0)
  | some w => (match w.ctr with
    | .loc _ => 1
    | .mem pa => if regionOf pa = 0 then 2 else if regionOf pa = 1 then 3 else 4
    | .sward _ => 5, w.cursor.toNat % 2 ^ 60)

/-- The eight doublewords of a continuation's record. -/
def recordWords (h : Thread) : List Word64 :=
  let bit (p : Bool) (n : Nat) : Nat := if p then 2 ^ n else 0
  let c := h.ctx
  let d := c.dstack.length
  let (kind, addr) := waitFields h.wait
  [ c.code.cursor,
    BitVec.ofNat 64 (min (c.wbase + c.fs) 32768 / 64 * 2 ^ 48 + h.level.toNat * 2 ^ 34 + h.cls.toNat * 2 ^ 32 + h.named % 64 * 2 ^ 24
      + bit h.record 19 + bit h.tunnelled 18 + bit h.paired 17 + bit h.restartable 16 + h.prio % 8 * 2 ^ 8 + statusCode h.status),
    BitVec.ofNat 64 c.spill,
    BitVec.ofNat 64 (d % 16 * 2 ^ 48 + (if d = 0 then 0 else 1 + Config.domainStackTop h.tid d % (2 ^ 48 - 1))),
    BitVec.ofNat 64 (c.allot % 2 ^ 48),
    BitVec.ofNat 64 (kind * 2 ^ 60 + addr),
    (h.wait.map (·.thr)).getD 0,
    BitVec.ofNat 64 (c.sseq.toNat * 2 ^ 48 + h.ctxb.toNat % 2 ^ 48) ]

/-! ## Continuations -/

/-- The thread stands for its continuation in a count: a redundant pair counts once, by its first member while that has not exited, and
by the second from then on (R388). -/
def countsOnce (h : Thread) (s : State) : Bool :=
  h.status != .done && (h.member == 0 || !(s.threads.any fun g => g.cref == h.cref && g.world == h.world && g.member == 0 && g.status != .done))

/-- Continuations that count against a world's limit: those not freed, and the images with a live ticket (R286, R373). -/
def contCount (w : Nat) (s : State) : Nat :=
  (s.threads.filter fun h => h.world == w && countsOnce h s).length + (s.world w).images.length

/-- A thread rejoins its cluster's queue at the tail of its level (R272, R282, R283). -/
def rejoin (s : State) (h : Thread) : Thread :=
  { s.leaveSlot h with status := .ready, effLevel := h.prio, readyOrder := s.nextId, readySince := s.cycle }

/-- The thread becomes READY, wherever it stands. -/
def makeReady (t : Nat) (s : State) : State := (s.modThread t (rejoin s)).fresh.2

/-- A task log that starts at a context (R389). -/
def freshTask (restartable : Bool) (c : Ctx) : Option TaskLog := if restartable then some ⟨c, [], 0, 0, 0, [], 0⟩ else none

/-- The cluster of a redundant pair's second member: the first other cluster of its die that the affinity admits, else the first other
cluster of the partition of its class (R388, log entry 25). -/
def pairCluster (p : Nat) (level cls : BitVec 2) (home : Nat) (s : State) : Option Nat :=
  match firstIdx 64 fun c => c != home && admits p level cls home c s with
  | some c => some c
  | none => firstIdx 64 fun c => c != home && (s.part p).clusters.contains c && offersSlots c s && classMatches cls c

/-- A record as the hardware enters it: its name, its context block and spill area, its place in the pool or in the overflow queue. -/
def enterRecord (t : Nat) (h : Thread) (s : State) : Thread :=
  { h with
    tid := t, readyOrder := t, readySince := s.cycle, ctxb := Config.contextBlock t
    overflow := s.poolFull h, ctx := { h.ctx with spill := Config.spillBase t } }

/-- Add continuations: one, or the two members of a redundant pair. The second member's record names its own cluster. -/
def addThread (h : Thread) (s : State) : State :=
  let h0 := enterRecord s.nextId h s
  let t := if h.record then { s with recAreas := NMap.set s.recAreas s.nextId ⟨h0, []⟩ } else s
  if h.paired then
    let other := (pairCluster h.part h.level h.cls h.cluster s).getD h.cluster
    { t with
      rest := t.rest ++ [h0, enterRecord (s.nextId + 1) { h with member := 1, cluster := other, named := other } s]
      nextId := s.nextId + 2 }
  else { t with rest := t.rest ++ [h0], nextId := s.nextId + 1 }

/-- The world may hold one more continuation for this thread now (R286). -/
def reserveCont (s : State) : Res Unit :=
  let waits (h : Thread) : Bool := match h.stall with
    | some (.contLimit _) => h.world == s.thr.world
    | _ => false
  let granted := (s.threads.filter fun h => h.world == s.thr.world && h.tid != s.thr.tid && h.stall == some .contGranted).length
  if s.thr.stall == some .contGranted then .ok ()
  else if contCount s.thr.world s + granted < (s.world s.thr.world).contLimit
      && !(s.threads.any fun h => h.tid != s.thr.tid && waits h) then .ok ()
  else .error (.hold fun t => if waits t.thr then t else (t.waitIn (.contLimit t.nextId)).fresh.2)

/-! ## `spawn` (R290) -/

/-- The fields of a template's dw1. -/
def dwLevel (v : Nat) : BitVec 2 := BitVec.ofNat 2 (v / 2 ^ 34)
def dwClass (v : Nat) : BitVec 2 := BitVec.ofNat 2 (v / 2 ^ 32)
def dwCluster (v : Nat) : Nat := v / 2 ^ 24 % 64
def dwPrio (v : Nat) : Nat := v / 2 ^ 8 % 8

/-- The spawn is one that the step has seen: a repeated step makes it again, or the other member of a pair has made it. -/
def isSpawn (s : State) (x : Reborn) : Bool := x.parent == s.thr.cref && x.nth == s.thr.ctx.spawned

/-- The reference of the child, and whether it has been made: such a spawn keeps the first's reference (log entry 10). -/
def childRef (s : State) : Word64 × Bool :=
  match s.curPart.reborn.find? (isSpawn s) with
  | some x => (x.ref, x.made)
  | none => (BitVec.ofNat 64 s.nextId, false)

/-- Remember a child for the partition's step. -/
def noteChild (ref : Word64) (s : State) : State :=
  let t := s.modCtx fun c => { c with spawned := c.spawned + 1 }
  if s.curPart.keeps || s.thr.paired then
    t.modPart s.thr.part fun p => { p with
      reborn := ⟨s.thr.cref, s.thr.ctx.spawned, ref, true⟩ :: p.reborn.filter fun x => !isSpawn s x }
  else t

/-- The child's context. -/
def childCtx (c : Ctx) (dw0 : Word64) (g : Nat) : Ctx :=
  { Ctx.empty with
    code := c.code.setCursor dw0
    regs := State.mapRegs c.regs fun r x => if 3 ≤ r ∧ r < 12 then x else Cap.null
    regMarks := c.regMarks.filter fun k => 3 ≤ k.1 && k.1 < 12
    swmask := c.swmask.map fun m => ⟨m.span, false, false⟩
    domain := c.domain, dgen := c.dgen, allot := g }

/-- The child of the template (dw0, dw1) on a cluster. Its first word is no word that a transfer lands on: R381's list of
transfers does not name the start of a thread (DEDUCED, log entry 70). -/
def childThread (s : State) (dw0 : Word64) (dw1 g home : Nat) (ref : Word64) : Thread :=
  let ctx := childCtx s.thr.ctx dw0 g
  { Thread.vacant with
    cref := ref, world := s.thr.world, baseDomain := s.thr.ctx.domain, part := s.thr.part, launch := s.thr.launch, status := .ready,
    level := dwLevel dw1, cls := dwClass dw1, named := if dwLevel dw1 = 0 then home else dwCluster dw1, cluster := home,
    record := dw1.testBit 19, paired := dw1.testBit 17,
    restartable := dw1.testBit 16, prio := dwPrio dw1, effLevel := dwPrio dw1, spanPlace := home,
    task := freshTask (dw1.testBit 16) ctx, ctx }

/-- The checks of the template's fields (checks 2 and 3 of R290), and the cluster of the child. A redundant pair needs a second
cluster (R388, log entry 25). -/
def checkTemplate (at_ dw0 : Word64) (dw1 : Nat) (s : State) : Res Nat := do
  require (!dw1.testBit 18) 0x05 (at_ + 10)
  require (dwLevel dw1 != 3 && dwClass dw1 != 3) 0x05 (at_ + 12)
  match placeNew s.thr.part s.thr.cluster (dwLevel dw1) (dwClass dw1) (dwCluster dw1) s with
  | none => raise 0x05 (at_ + 11)
  | some home => do
    require (!dw1.testBit 17 || (pairCluster s.thr.part (dwLevel dw1) (dwClass dw1) home s).isSome) 0x05 (at_ + 11)
    require (dw0.toNat % 4 == 0) 0x05 at_
    require (codeCovers s.thr.ctx.code dw0) 0x04 dw0
    .ok home

/-- Create the child; the other member of a pair finds it made, be it that the child has ended since. -/
def createChild (dw0 : Word64) (dw1 g home : Nat) (s : State) : Word64 × State :=
  let (ref, known) := childRef s
  let t := (noteChild ref s).modCtx fun c => { c with allot := c.allot - g }
  if known then (ref, t)
  else
    let u := t.modPart s.thr.part fun p => { p with created := p.created ++ [t.nextId] }
    (ref, addThread (childThread s dw0 dw1 g home ref) u)

def execSpawn (l : BitVec 4) (a d : RegNum) (s : State) : Out :=
  s.finish (do
    let c := s.reg a
    let (bs, _, t) ← s.readBlock c 64 needLoad (regName a)
    let dw0 : Word64 := BitVec.ofNat 64 (cardNat bs 0 8)
    let dw1 := cardNat bs 8 8
    let g := min (cardNat bs 32 6) s.thr.ctx.allot
    let home ← checkTemplate c.cursor dw0 dw1 t
    match t.givenValue with
    | some (v, u) =>
      .ok (((u.skipEffect.getD u).modCtx fun x => { x with allot := x.allot - g, spawned := x.spawned + 1 }).deliver d l (some v.val) none).advance
    | none => do
      reserveCont t
      let (ref, u) := createChild dw0 dw1 g home t.countEffect
      let v := Cap.ofInt (State.nameBits ref.toNat)
      .ok ((u.logValue ⟨v, 0⟩ 0).deliver d l (some v) none).advance)

/-! ## `exit` (R291) -/

/-- The first nonzero status is the launch's (R278). -/
def reportExit (l : Option Nat) (st : BitVec 8) (s : State) : State :=
  { s with launches := s.launches.map fun x => if some x.id == l && x.firstExit == 0 then { x with firstExit := st } else x }

/-- The implicit `.drop` arrival on every sward counter of which the thread is a member. -/
def dropAll (s : State) : List Nat → Res State
  | [] => .ok s
  | n :: r => do
    let k : BitVec 4 := BitVec.ofNat 4 n
    let m := ownMask k s
    let t ← (if m.member && !m.dropping then stampedCounter id 0x1B 1 0 (k.setWidth 64) 0 0 (swardAdd k 1 true) (maskAgain k false true) s else .ok s)
    dropAll t r

/-- The sward groups of which the thread is still a member: its drops there have not taken effect (R254). -/
def leaversOf (h : Thread) : List Leaver :=
  ((List.range 16).filter fun n => (h.ctx.swtree[n]?.getD SwTree.none).member).map fun n =>
    let c := h.ctx.swcount[n]?.getD 0
    ⟨swKey h (BitVec.ofNat 4 n), c, (h.ctx.swtree[n]?.getD SwTree.none).dropAt.getD c, h.world, h.cref⟩

/-- The thread is gone: its report and its end are held until the boundary where the partition keeps step records. -/
def endThread (st : BitVec 8) (s : State) : State :=
  let h := { s.leaveSlot s.thr with status := .done, stall := none, wait := none }
  let t := { s with thr := Thread.vacant, leavers := s.leavers ++ leaversOf s.thr }
  match h.launch with
  | some l =>
    if s.curPart.keeps then t.modPart h.part fun p => { p with exited := p.exited ++ [h], reports := p.reports ++ [(l, st)] }
    else reportExit h.launch st t
  | none => if s.curPart.keeps then t.modPart h.part fun p => { p with exited := p.exited ++ [h] } else t

/-- The other member of a redundant pair. -/
def pairOther (s : State) : Option Thread :=
  if s.thr.paired then s.rest.find? fun h => h.cref == s.thr.cref && h.world == s.thr.world && h.tid != s.thr.tid else none

def execExit (a : RegNum) (s : State) : Out :=
  match (do
    s.requireBalanced
    require (s.depth == 0) 0x28 5
    let t := s.drain.modCtx fun c => { c with pend := [] }
    let st : BitVec 8 := (s.int a).setWidth 8
    match pairOther t with
    | some o => match o.exitStatus with
      | none => do
        let u ← dropAll t (List.range 16)
        .ok { u with thr := Thread.vacant, rest := u.rest ++ [{ u.leaveSlot u.thr with status := .done, stall := none, exitStatus := some st }] }
      | some x => do
        require (x == st) 0x43 0
        let u ← dropAll t (List.range 16)
        .ok (endThread st { u with rest := u.rest.filter fun h => h.tid != o.tid })
    | none => do
      let u ← dropAll t (List.range 16)
      .ok (endThread st u) : Res State) with
  | .ok t => .next t
  | .error e => s.finish (.error e)

/-! ## `yield` (R292) -/

/-- A READY record that the thread's core may take, at a level not below a level. -/
def readyAtLevel (lv : Nat) (s : State) : Bool := (queueFor s.thr.cluster s.thr.cluster s).any fun h => decide (lv ≤ h.effLevel)

def execYield (s : State) : Out :=
  s.finish (.ok (if readyAtLevel s.thr.prio s then (s.advance.modThr (rejoin s)).fresh.2 else s.advance))

/-! ## `sysc` (R288, R293) -/

/-- The tickets of a world that are not served: of placed requests, and of those that wait for the ring, in an image too. A ticket
whose thread has been killed before it was placed is passed over (DESIGN CHOICE, log entry 71). -/
def liveTickets (w : Nat) (s : State) : List Nat :=
  let waiting (h : Thread) : Option Nat := match h.stall with
    | some (.ring t) => if h.world = w then some t else none
    | _ => none
  (s.world w).ring.map (·.ticket) ++ s.threads.filterMap waiting ++ (s.world w).images.filterMap fun x => waiting x.2

/-- The free counter follows the served tickets. -/
def freeTickets (w : Nat) (s : State) : State :=
  s.modWorld w fun x => { x with ringFree := max x.ringFree ((leastOf (liveTickets w s)).getD x.ringTail) }

/-- The request waits in the ring for Moaly. -/
def ringRequest (t : Nat) (n : BitVec 11) (a d : RegNum) (q : Nat) (s : State) : State :=
  let e : SyscReq := ⟨t, n, s.reg a, s.thr.ctx.domain, s.thr.tid, s.thr.cref, s.thr.part, s.curPart.stepNo, q⟩
  (s.modWorld s.thr.world fun w => { w with ring := w.ring ++ [e] }).modThr fun h => { h with stall := some (.sysc d t) }

/-- The ring has room for ticket t: ring.free ≥ t - 255. -/
def ringRoom (t : Nat) (s : State) : Bool := decide (t < (s.world s.thr.world).ringFree + Config.ringSize)

/-- Place the request, or wait for the ring. -/
def placeRequest (t : Nat) (n : BitVec 11) (a d : RegNum) (q : Nat) (s : State) : State :=
  if ringRoom t s then ringRequest t n a d q s else s.waitIn (.ring t)

/-- The operands of the members of a pair, or of a repeat, are compared up to the 64th stamp of the step (R387, R388). -/
def stampCompared (s : State) : Bool := decide (s.thr.ctx.stamped < Config.sheafSlots)

/-- A request of the stamp `q` that Moaly has not served yet: a repeat's, or the other member's (R387, R388). -/
def ringTwin (q : Nat) (s : State) : Option SyscReq :=
  (s.world s.thr.world).ring.find? fun e =>
    e.cref == s.thr.cref && e.part == s.thr.part && e.stepNo == s.curPart.stepNo && e.sseq == q

/-- The ticket of the other member's request of the next stamp, which waits for the ring (R388), and whether its OPERAND is this
one's. -/
def twinWaits (a : RegNum) (s : State) : Option (Nat × Bool) :=
  (pairOther s).bind fun o => match o.stall with
    | some (.ring t) =>
      if o.ctx.stamped = s.thr.ctx.stamped + 1 then
        some (t, o.ctx.regs[(o.ctx.ir.extractLsb' 11 5).toNat].cursor == s.int a) else none
    | _ => none

/-- The request takes its ticket; a repeat's or the second member's is compared with the first and shares its ticket (R387). -/
def firstRequest (n : BitVec 11) (a d : RegNum) (s : State) : Res State :=
  match ringTwin s.thr.ctx.stamped s, twinWaits a s with
  | some e, _ =>
    if !stampCompared s || e.arg.cursor == s.int a then .error (.hold fun t => t.countEffect.useStamp.waitIn (.sysc d e.ticket)) else raise 0x43 0
  | none, some (t, same) => if !stampCompared s || same then .error (.hold fun u => u.countEffect.useStamp.waitIn (.ring t)) else raise 0x43 0
  | none, none =>
    .error (.hold fun u =>
      let t := (u.world u.thr.world).ringTail
      placeRequest t n a d u.thr.ctx.stamped (u.countEffect.useStamp.modWorld u.thr.world fun w => { w with ringTail := w.ringTail + 1 }))

/-- A request that has waited for the ring is placed, unless the other member has placed it. -/
def placeWaiting (t : Nat) (n : BitVec 11) (a d : RegNum) (s : State) : State :=
  let q := s.thr.ctx.stamped - 1
  if !ringRoom t s then s
  else match ringTwin q s with
    | some e => s.waitIn (.sysc d e.ticket)
    | none => ringRequest t n a d q s

/-- What a granted allotment does again to a context that a replay or a re-run has restored (R288, R387). -/
def regrant (n : BitVec 11) (v : Word64) (s : State) : State :=
  if n = 4 ∧ v ≠ 0xFFFFFFFFFFFFFFFF then s.modCtx fun c => { c with allot := min (c.allot + v.toNat) (2 ^ 48 - 1) } else s

/-- The entry of the thread's stamp `q` in Moaly's sheaf. -/
def servedEntry (q : Nat) (s : State) : Option SheafEntry := s.sheafFind s.thr.world s.thr.part s.thr.cref s.curPart.stepNo q

/-- The word takes the reply that was logged under its stamp (R387). -/
def takeLogged (n : BitVec 11) (d : RegNum) (e : SheafEntry) (s : State) : State :=
  (regrant n e.result ((s.logValue ⟨Cap.ofInt e.result, 0⟩ 16).writeInt d e.result)).advance

/-- `sysc`: a stamp already served returns its logged reply, also where the other member's request was served while this one waited for
the ring; the reply itself arrives by SYSC_REPLY. -/
def execSysc (n : BitVec 11) (a d : RegNum) (s : State) : Out :=
  s.finish (
    match s.thr.stall with
    | some (.ring t) =>
      match servedEntry (s.thr.ctx.stamped - 1) s with
      | some e => .ok (takeLogged n d e s)
      | none => .error (.hold (placeWaiting t n a d))
    | some (.sysc _ _) => .error (.hold id)
    | _ =>
      match s.givenValue with
      | some (v, u) => .ok (regrant n v.val.cursor ((u.skipEffect.getD u).useStamp.writeReg d v.val)).advance
      | none =>
        match servedEntry s.thr.ctx.stamped s with
        | some e => if !stampCompared s || State.sameStamp e 0x37 0 (s.int a) then .ok (takeLogged n d e s.useStamp) else raise 0x43 0
        | none => firstRequest n a d s)

/-! ## `step` (R294) -/

/-- The thread's copy jobs and matrix entries have ended. -/
def workDone (t : Nat) (s : State) : Bool :=
  s.clusters.all fun x => (x.2.engine.entries.all fun j => j.2.tid != t || !jobLive j.2) && (x.2.mat.cmds.all fun m => m.tid != t)

/-- A member has arrived: it waits at its `step`, and its own work has ended. -/
def memberArrived (h : Thread) (s : State) : Bool := h.stall == some .boundary && workDone h.tid s

/-- `step`: the checks, then the wait for the thread's own work and the boundary; STEP_BOUNDARY completes the word. -/
def execStep (s : State) : Out :=
  let t := s.landAll.drain
  t.finish (do
    t.requireBalanced
    require (t.depth == 0) 0x28 5
    holdIn .boundary)

/-! ## `allot`, `getid`, `time` (R295-R297) -/

def execAllot (a d : RegNum) (s : State) : Out :=
  let old := s.thr.ctx.allot
  let v := s.int a
  s.finish (.ok ((s.writeInt d (BitVec.ofNat 64 old)).modCtx fun c =>
    { c with allot := if v = 0 then old else min old v.toNat }).advance)

/-- The value of a selector, at its width. -/
def getidValue (sel : BitVec 3) (s : State) : Word64 :=
  let p := s.thr.place.getD 0
  match sel.toNat with
  | 0 => BitVec.ofNat 64 (p % 2 ^ 13)
  | 1 => BitVec.ofNat 64 (p / 8 % 2 ^ 10)
  | 2 => BitVec.ofNat 64 (s.thr.cluster % 64)
  | 3 => BitVec.ofNat 64 (s.thr.cluster / 8 % 8)
  | 4 => BitVec.ofNat 64 (s.thr.part % 256)
  | 5 => BitVec.ofNat 64 (s.thr.ctx.domain % 65536)
  | 6 => BitVec.ofNat 64 (s.thr.world % 64)
  | _ => BitVec.ofNat 64 s.curPart.stepNo

def execGetid (sel : BitVec 3) (d : RegNum) (s : State) : Out :=
  s.finish (match s.givenValue with
    | some (v, u) => .ok (u.writeReg d v.val).advance
    | none =>
      let v := Cap.ofInt (getidValue sel s)
      .ok ((s.logValue ⟨v, 0⟩ 16).writeReg d v).advance)

/-- `time`: never below the thread's last value. -/
def execTime (d : RegNum) (s : State) : Out :=
  let v := max s.now s.thr.ctx.lastTime
  s.finish (.ok ((s.writeInt d (BitVec.ofNat 64 v)).modCtx fun c => { c with lastTime := v }).advance)

end Sys2Proof.Machine
end

