-- ==== Sys2Proof/Machine/Gates.lean ====
section
/-! DEFINITION. Gates: calls in place and far, returns, unwinding, budgets, gate making, revocation, domain state, and the gate
switch (16_domains R310-R331). -/

namespace Sys2Proof.Machine

open Sys2Proof

/-! ## Gate capabilities (R314) -/

/-- The capability of a gate: SE and GC, with PR where the descriptor's flag is set. -/
def gateCap (world dom idx gen : Nat) (pr : Bool) : Cap :=
  let cur : Word64 := BitVec.ofNat 64 (world * 2 ^ 48 + dom * 2 ^ 32 + idx)
  ⟨capBits 5 (if pr then 0x1C0 else 0x140) (BitVec.ofNat 12 gen) 0 (BitVec.ofNat 17 idx) 1 cur, true⟩

/-- The gate fault 0x28 with its cause (R321). -/
def gateFault {α : Type} (cause : Nat) : Res α := raise 0x28 (BitVec.ofNat 64 cause)

/-- That generation of the domain is dead: killed or retired, also where the id has been made live again since (R106, R117). -/
def domDead (w d gen : Nat) (s : State) : Bool :=
  let x := (s.world w).dom d
  x.state == .dead || x.state == .retired || x.gen != gen

/-! ## `gcall` (R317, R326) -/

/-- The caller's side of a far call: the entry, the hop record, and the thread GATED out of its slot (R326, R327). -/
def farCall (w g : Nat) (x : Gate) (s : State) : State :=
  let c := s.thr.ctx
  let id := s.nextId
  let grant := min c.allot x.budget
  let argAt := c.wbase + c.fs - x.argw * 64
  let e : DomEntry :=
    { retpc := s.pc + 4, ccode := c.code, cdom := c.domain, cgen := c.dgen, cworld := s.thr.world, far := true, trap := false,
      eject := false, grace := false, status := 0, argw := x.argw, cwbase := c.wbase, cfs := c.fs, ccdepth := c.cdepth,
      allotIn := c.allot, gate := g, gworld := w, hop := none, ggen := x.gen, edomain := x.domain, saved := c.regs, cvbase := c.vbase,
      ctbase := c.tbase, ctstride := c.tstride, cxflags := c.xflags, clast := c.lastStatus, blim := 0, high := c.wbase + c.fs, frozen := [],
      slq0 := [], slq1 := [], ssq0 := [], ssq1 := [], spend := [], smarks := c.regMarks, schecker := c.checker, sir := c.ir,
      deliv := none }
  let hop : Hop :=
    { id, caller := s.thr.tid, gateWorld := w, gate := g, grant, cworld := s.thr.world, cdom := c.domain, argw := x.argw,
      args := (List.range 8).map fun r => State.untag (s.reg (BitVec.ofNat 5 (r + 4))), window := s.winRead argAt (x.argw * 64),
      landing := none, back := false, remain := 0, status := 0, orphan := false }
  let t := (s.loseStep s.thr.part).endTask
  let u := (t.modWorld w fun y => y.setGate g { x with count := x.count + 1 }).modHub fun h => { h with hops := h.hops ++ [hop] }
  let v := (u.fresh.2.modCtx fun d => { d with dstack := e :: d.dstack }).setPc (s.pc + 4)
  v.modThr fun h => { v.leaveSlot h with status := .gated, hop := some id }

/-- The checks of `gcall` in their order; the gate's world, index and entry. -/
def checkGcall (a : RegNum) (s : State) : Res (Nat × Nat × Gate) := do
  s.requireBalanced
  let c := s.reg a
  let v := c.cursor
  let x := (s.world (gateWorld v)).gate (gateIndex v)
  require c.tag 0x03 (regName a)
  require (c.space == 5 && c.sealed && c.permGC && (gateWorld v == s.thr.world || x.far)) 0x05 (regName a)
  require (gateLayoutOk v) 0x04 v
  require (x.live && x.gen % 4096 == c.gen.toNat && x.domain == gateDomain v) 0x28 1
  require (decide (s.depth < 16)) 0x28 3
  require (decide (x.argw * 64 ≤ s.thr.ctx.fs)) 0x04 (Config.unstated 2)
  .ok (gateWorld v, gateIndex v, x)

/-- `gcall`: open windows end first (R93). -/
def execGcall (a : RegNum) (s : State) : Out :=
  let t := s.landAll
  t.finishTransfer (do
    let (w, g, x) ← checkGcall a t
    let u := t.drain
    if w = t.thr.world then
      let c := u.thr.ctx
      let nb := c.wbase + c.fs - x.argw * 64
      .ok (u.enterDomain g false (u.pc + 4) nb (nb + x.argw * 64) [])
    else .ok (farCall w g x u))

/-! ## Returns and unwinding (R319, R320, R324, R326) -/

/-- A hop goes back to its caller, once; the return to a caller that is gone is discarded (R326). -/
def sendBack (id : Nat) (status : BitVec 8) (args : List Cap) (window : List Byte) (remain : Nat) (s : State) : State :=
  s.modHub fun h => { h with hops := (h.hops.map fun x =>
    (if x.id = id ∧ !x.back then { x with back := true, args, window, remain, status } else x)).filter fun x => !(x.back && x.orphan) }

/-- The landing continuation's return: the hop of its entry goes back with the arguments, the window and the remaining allotment, and
the continuation ends (R326). An unwinding brings zeros for a4-a11 (R320). -/
def farSend (e : DomEntry) (status : BitVec 8) (s : State) : State :=
  let args := if status = 0 then (List.range 8).map fun r => State.untag (s.reg (BitVec.ofNat 5 (r + 4))) else []
  let t := match e.hop with
    | some id => sendBack id status args (s.winRead e.cwbase (e.argw * 64)) s.thr.ctx.allot s
    | none => s
  endThread 0 (t.releaseGate e.gworld e.gate)

/-- The argument registers become zero; a refused load of theirs that nothing has told stays due (R361, R364). -/
def clearArgs (s : State) : State :=
  let args (k : Nat × Deferred) : Bool := 4 ≤ k.1 && k.1 < 12
  s.modCtx fun c => { c with
    late := State.orphanMarks c ((c.regMarks.filter args).map (·.2)), regMarks := c.regMarks.filter fun k => !args k }

/-- Leave a gate entry in an unwinding: as by `gret`, which ends the open windows (R93), and with the queues empty, as a `gret`
finds them: what the callee left in them is dropped (DEDUCED, log entry 78). -/
def unwindGate (e : DomEntry) (r : List DomEntry) (status : BitVec 8) (results : Cap → Cap) (s : State) : State :=
  (s.drain.landAll.leaveGate e r status results).dropQueues

/-- Pop one entry on the way to an entry below it (R320). -/
def popTop (s : State) : State :=
  match s.thr.ctx.dstack with
  | [] => s
  | e :: r => if e.trap then (s.drain.leaveTrap e r).drain else unwindGate e r 0 State.dropAuthority s

/-- Unwind to the caller of the entry that lies `n` below the top. Where that is a trap entry the trapping word issues again, and
the deferred fault that it delivered is due again (R364). -/
def unwindTo (status : BitVec 8) : Nat → State → State
  | 0, s =>
    match s.thr.ctx.dstack with
    | [] => s
    | e :: r =>
      if e.trap then ((s.drain.leaveTrap e r).drain.dueAgain e.deliv).modCtx fun c => { c with lastStatus := status }
      else if e.far then farSend e status s.drain.landAll
      else clearArgs (unwindGate e r status (fun _ => Cap.null) s)
  | n + 1, s => unwindTo status n (popTop s)

/-! ## Freeing (R268, R278, R286) -/

def hopOf (id : Nat) (s : State) : Option Hop := s.hub.hops.find? fun x => x.id == id

/-- The entries of a freed thread hold their gates no longer. -/
def releaseEntries : List DomEntry → State → State
  | [], s => s
  | e :: r, s => releaseEntries r (s.releaseGate e.gworld e.gate)

/-- The entry of a landing continuation whose caller is gone runs on under GRACE (R326). -/
def graceHops (ids : List Nat) (h : Thread) : Thread :=
  { h with ctx := { h.ctx with dstack := h.ctx.dstack.map fun e => if e.hop.any ids.contains then { e with grace := true } else e } }

/-- Every thread, those in images too. -/
def modEvery (f : Thread → Thread) (s : State) : State :=
  let t := s.modAll f
  { t with worlds := t.worlds.map fun w => (w.1, { w.2 with images := w.2.images.map fun x => (x.1, f x.2) }) }

/-- A hop record whose caller is gone has lost it: its landing continuation runs on under GRACE, and its return is discarded. -/
def orphanHops (t : Nat) (s : State) : State :=
  let ids := (s.hub.hops.filter fun x => x.caller == t).map (·.id)
  (modEvery (graceHops ids) s).modHub fun x => { x with
    hops := (x.hops.map fun y => (if y.caller = t then { y with orphan := true } else y)).filter fun y => !(y.back && y.orphan) }

/-- The calls that a continuation served come back LOST, with the windows as it leaves them (R320, R326). -/
def answerLost (h : Thread) : List DomEntry → State → State
  | [], s => s
  | e :: r, s => answerLost h r (match e.hop with
    | some id => sendBack id 4 [] (Cells.read h.ctx.win e.cwbase (e.argw * 64)) h.ctx.allot s
    | none => s)

/-- The record, the context block and the spill area are freed. -/
def dropThread (t : Nat) (s : State) : State :=
  if s.thr.status != .vacant && s.thr.tid == t then { s with thr := Thread.vacant } else { s with rest := s.rest.filter fun h => h.tid != t }

/-- A thread is gone: its entries hold no gate, its calls have lost their caller, and those that it served come back LOST. -/
def freeThread (h : Thread) (s : State) : State :=
  dropThread h.tid (orphanHops h.tid (answerLost h h.ctx.dstack (releaseEntries h.ctx.dstack s)))

/-- A kill of the world, or of a domain of it, still waits for homes. -/
def killOpen (w : Nat) (s : State) : Bool := s.hub.kills.any fun k => k.world == w

/-- The thread is KILLED and gives up its slot (R268, R324); its record is freed once no home's acknowledgement is awaited. -/
def killThread (t : Nat) (s : State) : State :=
  let u := orphanHops t (s.modThread t fun h => { s.leaveSlot h with status := .killed, wait := none, stall := none })
  match u.thread? t with
  | some h =>
    let v := answerLost h h.ctx.dstack u
    freeTickets h.world (if killOpen h.world v then v else freeThread h v)
  | none => u

/-- The caller of an entry is live; the caller of a landing continuation's entry is in another world. -/
def callerLive (w : Nat) (e : DomEntry) (s : State) : Bool := (e.far && e.cworld != w) || !domDead w e.cdom e.cgen s

/-- Pop down to the first live caller, which receives LOST; with none the thread is KILLED (R324). -/
def unwindLost (s : State) : State :=
  match s.thr.ctx.dstack.findIdx? fun e => callerLive s.thr.world e s with
  | some n => unwindTo 4 n s
  | none => killThread s.thr.tid s

/-- `gret` (R319, R324, R326). -/
def execGret (s : State) : Out :=
  let t := s.landAll
  match t.thr.ctx.dstack with
  | [] => t.finish (gateFault 6)
  | e :: r =>
    if t.unbalanced.isSome then t.finish (t.requireBalanced.map fun _ => t)
    else if e.trap then t.finish (gateFault 7)
    else match t.checkTransfer with
      | .error x => t.finish (.error x)
      | .ok _ =>
        if e.far then .next (farSend e 0 t.drain)
        else if domDead t.thr.world e.cdom e.cgen t then .next (unwindLost t)
        else t.finishTransfer (.ok (t.drain.leaveGate e r 0 State.dropAuthority))

/-! ## `gmake` (R313, R316) -/

/-- A capability that a descriptor holds, checked as one byte that needs no permission: tag, generation, bounds. -/
def plainCapOk (c : Cap) (s : State) : Res Unit := do
  require c.tag 0x03 0
  require (ownerGen c s) 0x06 0
  let layout := match c.space with
    | 5 => gateLayoutOk c.cursor
    | 6 => slotLayoutOk c.cursor
    | sp => layoutOk sp c.cursor
  require (layout && c.boundsOk && decide (c.base ≤ (c.addr : Int)) && decide ((c.addr : Int) < c.top)) 0x04 0

/-- A fault of a capability in memory names its first byte (R363). -/
def nameFault {α : Type} (at_ : Word64) (r : Res α) : Res α :=
  match r with
  | .error (.fault f) => .error (.fault { f with addr := at_ })
  | x => x

/-- The first offending byte of a descriptor's fields (check 3). -/
def descriptorOffence (bs : List Byte) : Option Nat :=
  let budget := cardNat bs 48 6
  let frame := cardNat bs 54 2
  let argw := cardNat bs 56 1
  if budget = 0 then some 48
  else if frame = 0 ∨ 512 < frame then some 54
  else if 4 < argw ∨ frame < argw then some 56
  else if cardNat bs 57 1 / 4 ≠ 0 then some 57
  else (List.range 6).findSome? fun i => if cardNat bs (58 + i) 1 ≠ 0 then some (58 + i) else none

/-- The free entry with the lowest index. -/
def freeGate (w : World) : Option Nat := firstIdx 4096 fun g => !(w.gate g).live && !(w.gate g).retired

def needDescriptor : Need := { needRead12 with lc := true }

/-- The gate of a descriptor; its generation is kept from the entry's last use. -/
def gateOf (bs : List Byte) (code root frameCap : Cap) (dom : Nat) (x : Gate) : Gate :=
  { live := true, domain := dom, code, root, frameCap, budget := cardNat bs 48 6, frame := cardNat bs 54 2, argw := cardNat bs 56 1,
    far := (cardNat bs 57 1).testBit 0, pr := (cardNat bs 57 1).testBit 1, gen := x.gen, count := 0, revoked := false, retired := false }

def execGmake (a d : RegNum) (s : State) : Out :=
  s.finish (do
    let c := s.reg a
    let (bs, ps, t) ← s.readBlock c 64 needDescriptor (regName a)
    let code := t.capAt (State.placeIn ps 0)
    let root := t.capAt (State.placeIn ps 16)
    let frameCap := t.capAt (State.placeIn ps 32)
    nameFault c.cursor (t.checkCap t.who code code.cursor 4 needFetch c.cursor)
    nameFault (c.cursor + 16) (plainCapOk root t)
    if frameCap.tag then nameFault (c.cursor + 32) (plainCapOk frameCap t)
    match descriptorOffence bs with
    | some o => raise 0x05 (c.cursor + BitVec.ofNat 64 o)
    | none =>
      let (_, u) ← nameFault c.cursor (State.translatePieces t t.who code.space needFetch (piecesAt (pageStep code.space) code.addr 4))
      let w := s.thr.world
      let u := u.loseStep s.thr.part
      match freeGate (u.world w) with
      | none => .ok (u.writeInt d 0).advance
      | some g =>
        let x := gateOf bs code root frameCap u.thr.ctx.domain ((u.world w).gate g)
        let v := u.modWorld w fun y => y.setGate g x
        .ok (v.writeReg d (gateCap w u.thr.ctx.domain g x.gen x.pr)).advance)

/-! ## `grevoke` (R310, R315, R323) -/

/-- A gate is revoked: its generation rises, or it retires, and it is freed once none holds an entry through it. -/
def revokeGate (w g : Nat) (s : State) : State :=
  s.modWorld w fun y =>
    let x := y.gate g
    let last := x.gen ≥ 4095
    let x' := { x with gen := if last then x.gen else x.gen + 1, revoked := true, retired := x.retired || last }
    y.setGate g (if x.count == 0 || last then { x' with live := false, revoked := false } else x')

/-- Raise a domain's generation, or retire it past 4,095 (R310). -/
def raiseDomain (w d : Nat) (killed : Bool) (s : State) : State :=
  s.modWorld w fun y =>
    let x := y.dom d
    y.setDom d (if x.gen ≥ 4095 then { x with state := .retired } else { x with gen := x.gen + 1, state := if killed then .dead else x.state })

/-- Rewrite GEN of a tagged capability of the old generation. -/
def regen (old new : Nat) (c : Cap) : Cap :=
  if c.tag && c.gen.toNat == old % 4096 then ⟨c.bits.extractLsb' 116 12 ++ (BitVec.ofNat 12 new ++ c.bits.extractLsb' 0 104), true⟩ else c

/-- The saved registers and code of an entry that returns into the domain. -/
def regenEntry (w dom old new : Nat) (e : DomEntry) : DomEntry :=
  if e.cworld = w ∧ e.cdom = dom ∧ e.cgen = old then
    { e with
      ccode := regen old new e.ccode, cgen := new
      saved := State.mapRegs e.saved fun r c => if 1 ≤ r ∧ r ≤ 3 then regen old new c else c }
  else e

/-- A context of the world takes the new generation of a revoked domain; one that a kill has left behind in an older generation does
not. -/
def refreshCtx (w dom old new : Nat) (c : Ctx) : Ctx :=
  let here := c.domain = dom ∧ c.dgen = old
  { c with
    dgen := if here then new else c.dgen
    code := if here then regen old new c.code else c.code
    regs := if here then State.mapRegs c.regs (fun r x => if r = 2 ∨ r = 3 then regen old new x else x) else c.regs
    dstack := c.dstack.map (regenEntry w dom old new) }

/-- A thread of the world, with the context at which its task log starts. -/
def refreshThread (w dom old new : Nat) (h : Thread) : Thread :=
  if h.world ≠ w then h
  else { h with
    ctx := refreshCtx w dom old new h.ctx, task := h.task.map fun l => { l with start := refreshCtx w dom old new l.start } }

/-- The contexts that a partition's records hold are threads of the world like any other. -/
def refreshPart (w dom old new : Nat) (p : Partition) : Partition :=
  { p with snaps := p.snaps.map (refreshThread w dom old new), exited := p.exited.map (refreshThread w dom old new) }

/-- The threads, entries, images, gates and root of a revoked domain take the new generation (R323). -/
def refreshDomain (w dom old new : Nat) (s : State) : State :=
  let t : State := { s.modAll (refreshThread w dom old new) with
    parts := s.parts.map fun p => (p.1, refreshPart w dom old new p.2)
    recAreas := s.recAreas.map fun a => (a.1, { a.2 with start := refreshThread w dom old new a.2.start }) }
  t.modWorld w fun y =>
    { y with
      images := y.images.map fun x => (x.1, refreshThread w dom old new x.2)
      gates := y.gates.map fun g => if g.2.domain = dom then
        (g.1, { g.2 with code := regen old new g.2.code, root := regen old new g.2.root, frameCap := regen old new g.2.frameCap }) else g
      domains := y.domains.map fun d => if d.1 = dom then (d.1, { d.2 with root := regen old new d.2.root }) else d }

/-- Mark the entries of a thread that an eject names. -/
def markThread (w : Nat) (p : DomEntry → Bool) (h : Thread) : Thread :=
  if h.world = w then { h with ctx := { h.ctx with dstack := h.ctx.dstack.map fun e =>
    (if p e && !(e.far && e.cworld == w) then { e with eject := true } else e) } }
  else h

/-- A call that has not landed comes back with a status that is not 0: the window as it went, zeros for a4-a11 (R320, R326). -/
def turnBack (status : BitVec 8) (x : Hop) : Hop := { x with back := true, remain := x.grant, status, args := [] }

/-- Mark the entries that an eject names, in every thread and image of the world; a far call through such a gate that has not landed
comes back REVOKED (R323). -/
def markEject (w : Nat) (p : DomEntry → Bool) (g : Nat → Bool) (s : State) : State :=
  ((s.modAll (markThread w p)).modWorld w fun y => { y with images := y.images.map fun x => (x.1, markThread w p x.2) }).modHub fun h =>
    let turned := h.hops.map fun x => if x.gateWorld == w && g x.gate && !x.back && x.landing.isNone then turnBack 1 x else x
    { h with hops := turned.filter fun x => !(x.back && x.orphan) }

def hasEject (h : Thread) : Bool := h.ctx.dstack.any (·.eject)

/-- The thread holds a slot of the banks that its clusters run from: the shadow banks hold records that are not resident (R298). -/
def resident (h : Thread) (s : State) : Bool := h.status == .running && (s.part h.part).phase != .shadow && (s.part h.part).phase != .saved

/-- Another marked thread is resident still. -/
def ejectPending (s : State) : Bool := s.threads.any fun h => h.tid != s.thr.tid && h.world == s.thr.world && resident h s && hasEject h

/-- The revocation of what aA names: the state, and the stall that an eject waits under. -/
def revoke (eject : Bool) (a : RegNum) (s : State) : Res (State × Stall) := do
  let c := s.reg a
  let w := s.thr.world
  let dom := s.thr.ctx.domain
  require c.tag 0x03 (regName a)
  if c.space = 5 then do
    let g := gateIndex c.cursor
    let x := (s.world w).gate g
    require (gateDomain c.cursor == dom && gateWorld c.cursor == w) 0x05 (regName a)
    require (x.live && x.gen % 4096 == c.gen.toNat) 0x06 c.cursor
    let t := revokeGate w g (s.loseStep s.thr.part)
    .ok (if eject then markEject w (fun e => e.gate == g && e.ggen == x.gen) (· == g) t else t, .revoke w g x.gen)
  else do
    require (c.bits == s.curDomain.root.bits) 0x05 (regName a)
    let old := s.curDomain.gen
    let t := raiseDomain w dom false (s.loseStep s.thr.part)
    let u := refreshDomain w dom old ((t.world w).dom dom).gen t
    .ok (if eject then markEject w (fun e => e.edomain == dom && (!e.trap || e.cdom != dom)) (fun g => ((u.world w).gate g).domain == dom) u
      else u, .revoke w (4096 + dom) old)

def execGrevoke (a : RegNum) (s : State) : Out :=
  s.finish (do
    let (t, _) ← revoke false a s
    .ok t.advance)

/-- `grevoke.eject` completes when no other resident thread is still marked. -/
def execGrevokeEject (a : RegNum) (s : State) : Out :=
  s.finish (
    match s.thr.stall with
    | some (.revoke _ _ _) => if ejectPending s then .error (.hold id) else .ok s.advance
    | _ => do
      let (t, k) ← revoke true a s
      if ejectPending t then .error (.hold fun _ => t.waitIn k) else .ok t.advance)

/-! ## `dstat` (R329) -/

def execDstat (sel : BitVec 2) (d : RegNum) (s : State) : Out :=
  let v : Word64 := match sel.toNat with
    | 0 => BitVec.ofNat 64 s.depth
    | 1 => s.thr.ctx.lastStatus.setWidth 64
    | 2 => BitVec.ofNat 64 s.thr.ctx.domain
    | _ => BitVec.ofNat 64 (s.curDomain.gen % 4096)
  s.finish (.ok (s.writeInt d v).advance)

/-! ## Unwinding at word boundaries -/

/-- The thread stands at a word boundary: no word of it is waiting. -/
def atBoundary (h : Thread) : Bool := h.status == .running && h.wait.isNone && h.stall.isNone

/-- The thread keeps a fault that waits for room in the fault queue: it takes it before anything else happens to it (R367). -/
def faultPending (h : Thread) : Bool :=
  match h.stall with
  | some (.faultQueue _) => true
  | _ => false

/-- The word of the thread waits to issue, and what it waits for has no effect on it meanwhile. -/
def heldWord (h : Thread) : Bool :=
  match h.stall with
  | none | some (.sysc _ _) | some .boundary | some .recovery | some (.faultQueue _) => false
  | some _ => h.status == .running && h.wait.isNone

/-- An unwinding is a return: like `gret` it waits until the results of open windows are there (R93, R320). A word that is still
waiting when ALLOT reaches 0 issues no more: the thread stands before it (R287, R322). -/
def unwindReady (h : Thread) : Bool :=
  (atBoundary h || (h.ctx.allot == 0 && heldWord h)) && !h.ctx.pend.any fun p => p.cmd.isSome

/-- The budget of an entry has ended (R322). A limit of 0, where the allotment ends first, is the stop of R287 instead; but the
entry of a landing continuation, and the grace of R324, end with the allotment (R326). -/
def budgetOver (h : Thread) (e : DomEntry) : Bool :=
  decide (h.ctx.allot ≤ e.blim) && (e.blim != 0 || e.grace || (e.far && e.cworld != h.world))

/-- Place of the outermost entry that satisfies a test, counted from the top. -/
def outermost (p : DomEntry → Bool) (l : List DomEntry) : Option Nat :=
  ((List.range l.length).filter fun i => match l[i]? with
    | some e => p e
    | none => false).getLast?

/-- Where the budget or an eject unwinds to, and the status that it delivers (R331). -/
def unwindPoint (h : Thread) : Option (Nat × BitVec 8) :=
  match outermost (fun e => e.eject || budgetOver h e) h.ctx.dstack with
  | some n => some (n, if hasEject h then 1 else 2)
  | none => none

/-- Unwind, into the first live caller where the entry's own caller is dead. -/
def unwindAt (n : Nat) (status : BitVec 8) (s : State) : State :=
  match s.thr.ctx.dstack[n]? with
  | some e => if callerLive s.thr.world e s then unwindTo status n s else
    match (s.thr.ctx.dstack.drop n).findIdx? fun x => callerLive s.thr.world x s with
    | some k => unwindTo 4 (n + k) s
    | none => killThread s.thr.tid s
  | none => s

/-- The thread's waiting word is given up: what it holds is let go. -/
def dropWord (s : State) : State := freeTickets s.thr.world s.clearStall

/-- The unwinding of a status, where it is due to the thread at its word boundary; a thread whose partition does not run unwinds when
it next runs (R323). R376 does not say whether an unwinding that is due to a thread on a halted core comes during the halt or after
the resume: it comes at once, and the stream entries that the halt has set aside complete as at any unwinding (DESIGN CHOICE, log
entry 87). -/
def tryUnwind (status : BitVec 8) (t : Nat) (s : State) : Option State :=
  let u := s.focus t
  match unwindPoint u.thr with
  | some (n, x) =>
    if x = status ∧ u.thr.tid = t ∧ unwindReady u.thr ∧ partRuns u.thr.part u then some (unwindAt n x (dropWord u)) else none
  | none => none

/-- BUDGET_END (R322). -/
def execBudgetEnd (t : Nat) (s : State) : Out := happen (tryUnwind 2 t s) s

/-- EJECT_UNWIND (R323). -/
def execEjectUnwind (t : Nat) (s : State) : Out := happen (tryUnwind 1 t s) s

/-- The kill of a domain is still waiting for homes. -/
def killRunning (w d : Nat) (s : State) : Bool :=
  s.hub.kills.any fun k => k.world == w && (k.domain == none || k.domain == some d)

/-- What R324 decides for a thread at its word boundary. -/
inductive KillCase where
  | none | kill | lost | grace
  deriving DecidableEq, Repr

def killCase (h : Thread) (s : State) : KillCase :=
  let dead (d g : Nat) : Bool := domDead h.world d g s && !killRunning h.world d s
  if dead h.ctx.domain h.ctx.dgen then (if h.ctx.dstack.isEmpty then .kill else .lost)
  else match h.ctx.dstack with
    | e :: _ => if !(e.far && e.cworld != h.world) && dead e.cdom e.cgen && !e.grace then .grace else .none
    | [] => .none

/-- The grace of R324: ALLOT := Min(ALLOT, ALLOT - BLIM), and what is left of every budget stays what it was: the limits go down with
ALLOT (DEDUCED, log entry 72: the callee runs on to its `gret` or its budget). A grace allotment of 0 returns at once. -/
def giveGrace (s : State) : State :=
  match s.thr.ctx.dstack with
  | [] => s
  | e :: r =>
    let left := min s.thr.ctx.allot (s.thr.ctx.allot - e.blim)
    let lower (x : DomEntry) : DomEntry := { x with blim := x.blim - e.blim }
    let v := s.modCtx fun c => { c with allot := left, dstack := { lower e with grace := true } :: r.map lower }
    if left = 0 then unwindLost v else v

/-- A stopped thread about which R324 has decided runs on: unwound into a live caller, or under GRACE. R287 and R324 do not say whether a
FAULTED callee whose caller has been killed runs on by itself or stays for Moaly's resume: it becomes READY at once (DESIGN CHOICE, log
entry 92). -/
def runOn (t : Nat) (s : State) : State :=
  match s.thread? t with
  | some h => if h.status == .faulted then makeReady t s else s
  | none => s

/-- A thread that R324 decides about: at a word boundary, in a slot or out of it. -/
def restsAtWord (h : Thread) : Bool := unwindReady h || ((h.status == .ready || h.status == .faulted) && !faultPending h)

def tryKillUnwind (t : Nat) (s : State) : Option State :=
  let u := s.focus t
  if u.thr.tid = t ∧ restsAtWord u.thr then
    match killCase u.thr u with
    | .none => none
    | .kill => some (killThread t u)
    | .lost => some (runOn t (unwindLost (dropWord u)))
    | .grace => some (runOn t (giveGrace u))
  else none

/-- KILL_UNWIND (R324): the unwinding, or the callee's grace. -/
def execKillUnwind (t : Nat) (s : State) : Out := happen (tryKillUnwind t s) s

/-! ## The gate switch (R326) -/

def setHop (id : Nat) (f : Hop → Hop) (s : State) : State :=
  s.modHub fun h => { h with hops := h.hops.map fun x => if x.id = id then f x else x }

/-- The partition of a world that holds a cluster, switched out or not; a cluster that offers no slot is outside every partition
(R271). -/
def partOf (w c : Nat) (s : State) : Option Nat :=
  (s.parts.find? fun p => p.2.world == w && p.2.clusters.contains c && offersSlots c s).map (·.1)

/-- The landing continuation (R326). Its FAR entry has what the hop record carries (R318, R327); of what the record carries not, CGEN is
the generation of the callee's domain, and RETPC, CCODE, CWBASE, CFS, CCDEPTH, the views and flags and the saved registers are 0
(DESIGN CHOICE, log entry 91). -/
def landingThread (x : Hop) (g : Gate) (c p prio : Nat) (s : State) : Thread :=
  let dom := (s.world x.gateWorld).dom g.domain
  let regs : Vector Cap 32 := State.calleeRegs (State.mapRegs (Vector.replicate 32 Cap.null) fun r _ =>
    if 4 ≤ r ∧ r < 12 then (x.args[r - 4]?).getD Cap.null else Cap.null) State.untag (State.returnToken 1) g.frameCap g.root
  let e : DomEntry :=
    { retpc := 0, ccode := Cap.null, cdom := x.cdom, cgen := dom.gen, cworld := x.cworld, far := true, trap := false, eject := false,
      grace := x.orphan, status := 0, argw := x.argw, cwbase := 0, cfs := 0, ccdepth := 0, allotIn := x.grant, gate := x.gate,
      gworld := x.gateWorld, hop := some x.id, ggen := g.gen, edomain := g.domain, saved := Vector.replicate 32 Cap.null, cvbase := 0, ctbase := 0, ctstride := 0, cxflags := 0,
      clast := 0, blim := 0, high := g.frame * 64, frozen := [], slq0 := [], slq1 := [], ssq0 := [], ssq1 := [], spend := [],
      smarks := [], schecker := Checker.idle, sir := 0, deliv := none }
  { Thread.vacant with
    cref := BitVec.ofNat 64 s.nextId, world := x.gateWorld, baseDomain := g.domain, part := p, status := .ready, level := 2, named := c, cluster := c,
    tunnelled := true, prio, effLevel := prio, spanPlace := c,
    ctx := { Ctx.empty with
      code := g.code, regs, win := Cells.write [] 0 x.window, fs := g.frame * 64, domain := g.domain, dgen := dom.gen, allot := x.grant, dstack := [e],
      wstack := [⟨0, 0, 0, true⟩], checker := { Checker.idle with landed := true } } }

/-- The hop lands: its continuation is made, with an entry that holds the gate. R326 gives it the caller's PRIO and the hop record of
R327 carries none: where the caller's record has been freed before the landing, PRIO is 0 (DESIGN CHOICE, log entry 91). -/
def landHop (x : Hop) (c p : Nat) (s : State) : State :=
  let g := (s.world x.gateWorld).gate x.gate
  let prio := match s.thread? x.caller with
    | some h => h.prio
    | none => 0
  let t := setHop x.id (fun y => { y with landing := some c }) (addThread (landingThread x g c p prio s) s)
  t.modWorld x.gateWorld fun y => y.setGate x.gate { y.gate x.gate with count := (y.gate x.gate).count + 1 }

def tryFarGateLanding (id : Nat) (s : State) : Option State :=
  match (hopOf id s).filter fun x => !x.back && x.landing.isNone with
  | none => none
  | some x =>
    let w := s.world x.gateWorld
    match w.landing.bind fun c => (partOf x.gateWorld c s).map fun p => (c, p) with
    | none => some (sendBack id 4 [] x.window x.grant s)
    | some (c, p) =>
      let d := (w.gate x.gate).domain
      if domDead x.gateWorld d (w.dom d).gen s then some (sendBack id 4 [] x.window x.grant s)
      else if matrixRuns p s then some (landHop x c p s) else none

/-- FAR_GATE_LANDING: the hop record reaches its landing cluster, waits there for a callee world that is switched out, or comes back
with LOST. -/
def execFarGateLanding (id : Nat) (s : State) : Out := happen (tryFarGateLanding id s) s

/-- What the caller takes from a hop that is back: its window, a4-a11, the status and the charge; the entry is popped, with a1-a3
as it has kept them. -/
def takeReturn (x : Hop) (e : DomEntry) (r : List DomEntry) (c : Ctx) : Ctx :=
  { c with
    dstack := r, win := Cells.write c.win (c.wbase + c.fs - e.argw * 64) x.window, allot := c.allot - (x.grant - x.remain)
    lastStatus := x.status, checker := { Checker.idle with landed := true }
    regs := State.mapRegs c.regs fun k v =>
      if 4 ≤ k ∧ k < 12 then (x.args[k - 4]?).getD Cap.null else if 1 ≤ k ∧ k ≤ 3 then e.saved[k]?.getD Cap.null else v
    regMarks := c.regMarks.filter fun k => !(4 ≤ k.1 && k.1 < 12) }

def tryFarGateReturn (id : Nat) (s : State) : Option State :=
  match hopOf id s with
  | none => none
  | some x =>
    match (s.thread? x.caller).filter fun h => x.back && h.status == .gated && h.hop == some id && matrixRuns h.part s
        && !s.arrivalHeld x.caller (.back x.status) with
    | none => none
    | some h =>
      match h.ctx.dstack with
      | [] => none
      | e :: r =>
        let t := ((s.modThread x.caller fun y => { y with hop := none, ctx := takeReturn x e r y.ctx }).releaseGate e.gworld e.gate).noteArrival
          x.caller (.back x.status)
        some (makeReady x.caller (t.modHub fun y => { y with hops := y.hops.filter fun z => z.id != id }))

/-- FAR_GATE_RETURN: the caller takes the return and becomes READY; while its partition is switched out the return is held. -/
def execFarGateReturn (id : Nat) (s : State) : Out := happen (tryFarGateReturn id s) s

end Sys2Proof.Machine
end

