-- ==== Sys2Proof/Machine/Moves.lean ====
section
/-! DEFINITION. Words between the halves, immediates, views, tile shapes and flags (10_vector R215-R221). -/

namespace Sys2Proof.Machine

open Sys2Proof

/-- `xins` (R215): one element of D; the rest stays. -/
def execXins (e : ElemTy) (n a d : RegNum) (s : State) : Out :=
  s.finish (do
    checkViews s [d]
    let v := (s.int a).toNat % 2 ^ ElemTy.bits e
    .ok (s.streamWrite 0 (winOff d s + e.bytes * n.toNat) (toLe e.bytes v) 0).advance)

/-- `xext` (R216): an integer element is sign-extended, a float's bits zero-extended. It takes a place in the stream frame like every
word of majors 0x20-0x29 (R191), and gives it back with its value: the access half waits for the earlier words that write the
element's bytes; others may still be in flight. -/
def execXext (e : ElemTy) (n a d : RegNum) (s : State) : Out :=
  s.finish (do
    checkQueues [a] none s
    checkViews s [a]
    let (v, t) ← readSource a (if a.toNat < 28 then s.streamRoom.completeInto (winOff a s + e.bytes * n.toNat) e.bytes else s.streamRoom)
    let x := ((lanes e v)[n.toNat]?).getD 0
    let y : Word64 := if e.isFloat then BitVec.ofNat 64 x else BitVec.ofInt 64 (signedOf (ElemTy.bits e) x)
    .ok (t.writeInt d y).advance)

/-- `xmov` (R217): all 64 bytes. -/
def execXmov (a d : RegNum) (s : State) : Out := vecWord [a] d .f32 [] (fun vs => (vs[0]?.getD 0, 0)) s

/-- `xli` (R218): the immediate, sign-extended to each element. -/
def execXli (i : BitVec 16) (e : ElemTy) (d : RegNum) (s : State) : Out :=
  vecWord [] d e [] (fun _ => (ofLanes e (List.replicate e.count (wrap (ElemTy.bits e) i.toInt)), 0)) s

def execXliHi (i : BitVec 16) (d : RegNum) (s : State) : Out :=
  vecWord [] d .i32 [] (fun _ => (ofLanes .i32 (List.replicate 16 (i.toNat * 2 ^ 16)), 0)) s

/-- `xli.lo` keeps bits [31:16] of each word of D, which it reads. -/
def execXliLo (i : BitVec 16) (d : RegNum) (s : State) : Out :=
  vecWord [d] d .i32 [] (fun vs =>
    (ofLanes .i32 ((lanes .i32 (vs[0]?.getD 0)).map fun x => x / 2 ^ 16 * 2 ^ 16 + i.toNat), 0)) s

/-- The field bits of a view register: [14:6] (R219). -/
def viewField (v : Word64) : BitVec 9 := v.extractLsb' 6 9

/-- `xview` (R219). -/
def execXview (b a d : RegNum) (s : State) : Out :=
  s.finish (.ok (s.modCtx fun c =>
    { c with vbase := viewField (s.int a), tbase := viewField (s.int b), tstride := viewField (s.int d) }).advance)

/-- Write TSHAPEn (R220). -/
def setShape (n : BitVec 3) (v : Word64) (s : State) : State :=
  s.modCtx fun c => { c with tshape := c.tshape.set n.toNat (v.setWidth 19) }

def execXshape (a : RegNum) (n : BitVec 3) (s : State) : Out := s.finish (.ok (setShape n (s.int a) s).advance)

/-- `xflags` (R221, R198): every earlier word's flags first, then the exchange. -/
def execXflags (a d : RegNum) (s : State) : Out :=
  let t := s.drain
  s.finish (.ok ((t.writeInt d (t.thr.ctx.xflags.setWidth 64)).modCtx fun c => { c with xflags := (s.int a).setWidth 6 }).advance)

end Sys2Proof.Machine
end

