-- ==== Sys2Proof/Machine/System.lean ====
section
/-! DEFINITION. System registers, `tret`, context images, engine words, halt groups and debug stops (19_traps R368-R379). -/

namespace Sys2Proof.Machine

open Sys2Proof

/-! ## System registers (R368-R370) -/

/-- ATOMSZ (R87). -/
def atomSz : Word64 := 0x334560

/-- PLACE (R369). -/
def placeValue (s : State) : Word64 :=
  BitVec.ofNat 64 (s.thr.place.getD 0 % 2 ^ 13 + s.thr.part % 256 * 2 ^ 16 + s.thr.ctx.domain % 65536 * 2 ^ 32 + s.thr.world % 64 * 2 ^ 48)

/-- SWMASKn, with MEMBERS as the tree shows them now (R253). -/
def swmaskValue (n : BitVec 4) (s : State) : Word64 :=
  let m := ownMask n s
  let members := (memberCounts s (swKey s.thr n) n).length
  BitVec.ofNat 64 (m.span.toNat + (if m.member then 4 else 0) + (if m.dropping then 8 else 0) + members % 65536 * 2 ^ 16)

/-- HALTG (R377). -/
def haltgValue (s : State) : Word64 :=
  let c := coreRec s.thr.cluster (coreOf s.thr) s
  BitVec.ofNat 64 (c.groups.toNat + c.stopped.toNat * 2 ^ 8 + (if s.curPart.dbgen then 2 ^ 16 else 0))

/-- STRMCNT (R191): a free number of the oldest entries has completed when it is read. -/
def readStrmcnt (s : State) : Word64 × State :=
  let n := s.thr.ctx.stream.length
  if n = 0 then (0, s)
  else
    let k := Config.streamDone s.tick % (n + 1)
    (BitVec.ofNat 64 (n - k), s.nextTick.completeN k)

/-- The value of a system register, and the state in which it is read. -/
def sysRead (n : Nat) (s : State) : Word64 × State :=
  let c := s.thr.ctx
  if n = 0x001 then (s.drain.thr.ctx.xflags.setWidth 64, s.drain)
  else if n = 0x010 then ((c.vbase.setWidth 64) <<< 6, s)
  else if n = 0x011 then ((c.tbase.setWidth 64) <<< 6, s)
  else if n = 0x012 then ((c.tstride.setWidth 64) <<< 6, s)
  else if 0x018 ≤ n ∧ n ≤ 0x01F then (((c.tshape[n - 0x018]?).getD 0).setWidth 64, s)
  else if n = 0x020 then (BitVec.ofNat 64 c.allot, s)
  else if 0x040 ≤ n ∧ n ≤ 0x04F then (swmaskValue (BitVec.ofNat 4 (n - 0x040)) s, s)
  else if n = 0x800 then (atomSz, s)
  else if n = 0x801 then (placeValue s, s)
  else if n = 0x802 then (BitVec.ofNat 64 (max s.now c.lastTime), s.modCtx fun d => { d with lastTime := max s.now c.lastTime })
  else if n = 0x803 then readStrmcnt s
  else if n = 0x804 then (engineStatus (engineOf s.thr.cluster s), s)
  else if n = 0x805 then ((if (s.world s.thr.world).sigCheck then 1 else 0), s)
  else if n = 0x806 then (haltgValue s, s)
  else if n = 0x810 then (c.trapCause, s)
  else if n = 0x811 then (c.trapAddr, s)
  else (c.trapPc, s)

def execSrd (n : BitVec 12) (d : RegNum) (s : State) : Out :=
  let (v, t) := sysRead n.toNat s
  s.finish (.ok (t.writeInt d v).advance)

/-- Write a system register; the read-only ones fault 0x05. -/
def sysWrite (n : Nat) (v : Word64) (s : State) : Res State :=
  if n = 0x001 then .ok (s.drain.modCtx fun c => { c with xflags := v.setWidth 6 })
  else if n = 0x010 then .ok (s.modCtx fun c => { c with vbase := viewField v })
  else if n = 0x011 then .ok (s.modCtx fun c => { c with tbase := viewField v })
  else if n = 0x012 then .ok (s.modCtx fun c => { c with tstride := viewField v })
  else if 0x018 ≤ n ∧ n ≤ 0x01F then .ok (setShape (BitVec.ofNat 3 (n - 0x018)) v s)
  else raise 0x05 (BitVec.ofNat 64 n)

def execSwr (n : BitVec 12) (a : RegNum) (s : State) : Out :=
  s.finish (do
    let t ← sysWrite n.toNat (s.int a) s
    .ok t.advance)

/-! ## `tret` (R371) -/

/-- The checks of `tret`, then the return; the restored windows do not count the `tret` itself. -/
def tretWord (skip : Bool) (s : State) : Out :=
  if s.unbalanced.isSome then s.finish (s.requireBalanced.map fun _ => s)
  else match s.thr.ctx.dstack with
    | [] => s.finish (raise 0x05 0)
    | e :: _ => if e.trap then .next (s.trapReturn skip) else s.finish (raise 0x05 0)

def execTret (s : State) : Out := tretWord false s
def execTretSkip (s : State) : Out := tretWord true s

/-! ## Context images (R372-R374) -/

def imageSize : Nat := 65536

/-- Bytes 0 to 55 of an image. -/
def imageHeader (world domain ticket epoch time : Nat) : List Byte :=
  [0x43, 0x54, 0x58, 0x49, 0x01] ++ toLe 1 world ++ toLe 2 domain ++ toLe 8 ticket ++ toLe 1 epoch ++ toLe 7 0 ++ toLe 8 time ++ toLe 24 0

/-- The enciphered bytes 64 to 65,535. -/
def imageBody (ticket : Nat) : List Byte := (List.range (imageSize - 64)).map fun i => Config.imageByte ticket (64 + i)

def imageBytes (header : List Byte) (ticket : Nat) : List Byte :=
  header ++ toLe 7 (Config.imageTag header ticket).toNat ++ [0] ++ imageBody ticket

/-- TAG, WORLD and MAGIC are those of an image of this world. -/
def imageGenuine (w : Nat) (bs : List Byte) : Bool :=
  let header := bs.take 56
  let ticket := cardNat bs 8 8
  bs == imageBytes header ticket && header == imageHeader w (cardNat bs 6 2) ticket (cardNat bs 16 1) (cardNat bs 24 8)

/-- The keys of an epoch are still held. -/
def epochLive (w : World) (epoch : Nat) : Bool :=
  (w.keyState == .active || w.keyState == .rekeying) &&
    (epoch == w.keyEpoch.toNat || (w.keyState == .rekeying && epoch == (w.keyEpoch - 1).toNat))

/-- The continuation that a reference names, as a target of `ctxst`. -/
def imageTarget (v : Word64) (s : State) : Option Thread :=
  s.rest.find? fun h => State.refBits h == v && h.cref != s.thr.cref && h.world == s.thr.world && h.baseDomain == s.thr.ctx.domain && !h.tunnelled
    && (h.status == .ready || h.status == .waiting || h.status == .faulted || h.status == .running)

/-- What a thread waits for in a way that lets it park (R20): a counter, the system-call ring, a reply, a step boundary. -/
def waitsToPark (h : Thread) : Bool :=
  h.wait.isSome || (match h.stall with
    | some (.ring _) => true
    | some (.sysc _ _) => true
    | some .boundary => true
    | _ => false)

/-- The thread's core is halted: as the banks hold it, or as the save area does of a partition that is switched out (R376). -/
def coreHalted (h : Thread) (s : State) : Bool :=
  match h.place with
  | none => false
  | some p =>
    let x := s.part h.part
    if x.phase == .shadow || x.phase == .saved then x.savedCores.any fun k => k.cluster == p / 128 && k.core == p / 8 % 16 && k.halted
    else (coreRec (p / 128) (p / 8 % 16) s).halted

/-- The thread's word is a `ctxst` that waits for its own target, and has had no effect yet. -/
def waitsTarget (h : Thread) : Bool :=
  match h.stall with
  | some (.target _) => true
  | _ => false

/-- The target stands at a word boundary on a core that is not halted, or waits as a parked thread does, or holds no slot. -/
def targetStill (h : Thread) (s : State) : Bool :=
  h.status != .running || ((h.stall.isNone || waitsToPark h || waitsTarget h) && !coreHalted h s)

/-- A RUNNING target starts no further word, so that it stops at its next word boundary. -/
def stopTarget (t : Nat) (s : State) : State := s.modThread t fun h => { h with captured := true }

/-- A RUNNING target is suspended as by `yield`, or parked where its word waits; no core takes a captured record. -/
def captureTarget (t : Nat) (s : State) : State :=
  s.modThread t fun h => { s.leaveSlot h with
    status := if h.status = .running then (if waitsToPark h then .waiting else .ready) else h.status
    captured := true }

/-- A `grevoke.eject` whose revocation has been done waits for the other threads that it has marked. -/
def waitsEject (h : Thread) : Bool :=
  match h.stall with
  | some (.revoke _ _ _) => true
  | _ => false

/-- What an image keeps of a captured continuation: its wait, withdrawn from its home, and what else a parked thread waits for; a
word that waits in another way issues again, but for one that has done its work already, and for a fault that waits for room in the
fault queue (R367). -/
def imageThread (h : Thread) : Thread :=
  { h with captured := false, stall := if waitsToPark h || waitsEject h || faultPending h then h.stall else none }

/-- The image of a captured target is written, the record freed, the ticket live (R373). -/
def storeImage (c : Cap) (h : Thread) (ps : List (Nat × Nat)) (s : State) : State :=
  let w := s.thr.world
  let ticket := (s.world w).nextTicket
  let bs := imageBytes (imageHeader w h.baseDomain ticket (s.world w).keyEpoch.toNat s.now) ticket
  let t := s.performStore (chunksOf ps bs) c.cursor
  { t.modWorld w fun x => { x with nextTicket := ticket + 1, images := NMap.set x.images ticket (imageThread h) } with
    rest := t.rest.filter fun x => !(x.cref == h.cref && x.world == h.world) }

/-- `ctxst` (R373). The word issues again until its target stands still and its work is done, and checks it each time. -/
def execCtxst (a d : RegNum) (s : State) : Out :=
  s.finish (do
    let c := s.reg a
    s.checkCap s.who c c.cursor imageSize needWrite12 (regName a)
    require (c.cursor.toNat % 64 == 0) 0x04 c.cursor
    match imageTarget (s.int d) s with
    | none => raise 0x05 0
    | some h =>
      let (ps, u) ← State.translatePieces s s.who c.space needWrite12 (piecesAt (pageStep c.space) c.addr imageSize)
      if !targetStill h s then .error (.hold fun t => stopTarget h.tid (t.waitIn (.target h.tid)))
      else if !workDone h.tid s then .error (.hold fun t => captureTarget h.tid (t.waitIn (.target h.tid)))
      else
        let v := captureTarget h.tid ((u.loseStep s.thr.part).endTask)
        match v.thread? h.tid with
        | some g => .ok (storeImage c g ps v).advance
        | none => .ok v.advance)

/-- Where a loaded continuation is placed (R272): the least occupied cluster that its affinity admits. -/
def placeImage (p : Nat) (h : Thread) (s : State) : Option Nat :=
  leastOccupied p ((List.range 64).filter fun c => admits p h.level h.cls h.named c s) s

/-- The loaded continuation joins the caller's partition with a new reference and the STATUS of the image; its wait is a new
request at its home (R374). -/
def joinImage (ticket : Nat) (h : Thread) (c : Nat) (s : State) : Word64 × State :=
  let ref : Word64 := BitVec.ofNat 64 s.nextId
  let t := s.modWorld s.thr.world fun x => { x with images := NMap.del x.images ticket }
  let wait := h.wait.map fun w => { w with order := s.nextId, since := s.now, verdict := .held }
  (ref, addThread { h with cref := ref, part := s.thr.part, cluster := c, member := 0, effLevel := h.prio, place := none, wait } t)

/-- Every digit record of a continuation, in its stream frame and in its domain stack, is as it was written (R192). -/
def threadDigitsOk (h : Thread) : Bool := State.digitsOk h.ctx.stream && h.ctx.dstack.all fun e => State.digitsOk e.frozen

/-- A save-area error of the image at an address (R392). -/
def imageBroken {α : Type} (addr : Word64) (e : Option LogEvent) : Res α :=
  .error (.fault { plainFault 0x40 addr with save := true, event := e })

/-- `ctxld` (R374). A poisoned line of the image's memory, or one whose tag fails, or a DCHK mismatch, is a save-area error (R392): of class E, it
goes to the partition's recovery, and to the trap gate where it repeats (log entry 74). -/
def execCtxld (a d : RegNum) (s : State) : Out :=
  s.finish (do
    let c := s.reg a
    let w := s.thr.world
    s.checkCap s.who c c.cursor imageSize needRead12 (regName a)
    require (c.cursor.toNat % 64 == 0) 0x04 c.cursor
    let (ps, u) ← State.translatePieces s s.who c.space needRead12 (piecesAt (pageStep c.space) c.addr imageSize)
    match u.piecesFault u.req c.cursor.toNat ps with
    | some (_, addr) => imageBroken (BitVec.ofNat 64 addr) (u.portEvent u.req ps)
    | none => do
      let bs := u.readPieces ps
      let ticket := cardNat bs 8 8
      require (imageGenuine w bs && epochLive (u.world w) (cardNat bs 16 1)) 0x18 c.cursor
      match NMap.get? (u.world w).images ticket with
      | none => raise 0x06 c.cursor
      | some h =>
        require (h.baseDomain == s.thr.ctx.domain) 0x05 (Config.unstated 3)
        match (placeImage s.thr.part h u).filter fun k => !h.paired || (pairCluster s.thr.part h.level h.cls k u).isSome with
        | none => raise 0x05 (Config.unstated 3)
        | some k => do
          if !threadDigitsOk h then imageBroken c.cursor none
          reserveCont u
          let (ref, v) := joinImage ticket h k ((u.loseStep s.thr.part).endTask)
          .ok (v.writeInt d (State.nameBits ref.toNat)).advance)

/-! ## Engine words (R375) -/

/-- The entry and the word within it. -/
def engineEntry (n : Nat) : Nat × Nat := ((n - 8) / 24, (n - 8) % 24)

/-- META: the job status with the tags of SRC, DST and CCAP in [5:3]. -/
def metaOf (entry : Nat) (j : Job) : Word64 :=
  jobStatus entry j ||| BitVec.ofNat 64 ((if j.srcTag then 8 else 0) + (if j.dstTag then 16 else 0) + (if j.ccapTag then 32 else 0))

/-- The value of an engine word. -/
def engineRead (e : Engine) (n : Nat) : Word64 :=
  if n = 0 then (if e.stop then 1 else 0) + (if e.stopped then 2 else 0)
  else if n = 1 then engineStatus e
  else if n < 8 then 0
  else
    let (i, j) := engineEntry n
    match NMap.get? e.entries i with
    | none => 0
    | some x => if j < 22 then BitVec.ofNat 64 (cardNat x.card (8 * j) 8) else if j = 22 then x.bmap else metaOf i x

def execEngrd (n : BitVec 11) (a d : RegNum) (s : State) : Out :=
  s.finish (do
    let c := s.reg a
    checkSlotCap c ⟨1, true, false, false⟩ a s
    require (decide (n.toNat < 1544)) 0x05 (regName a)
    .ok (s.writeInt d (engineRead (engineOf (curCluster c.cursor) s) n.toNat)).advance)

/-- An entry never used, of the writing thread's context. -/
def blankJob (s : State) : Job :=
  { state := .done, card := List.replicate 176 0, srcTag := false, dstTag := false, ccapTag := false, landed := [], ascendTo := 0, owed := false, fault := 0,
    faultAddr := 0, faultKind := 0, bmap := 0, order := 0, cardAddr := 0, tid := s.thr.tid, cref := s.thr.cref, world := s.thr.world,
    domain := s.thr.ctx.domain, gen := s.curDomain.gen, part := s.thr.part, stepNo := s.curPart.stepNo, sseq := s.thr.ctx.stamped,
    deps := [], readFoot := [], writeFoot := [] }

/-- STATE codes 1 to 3 of a META enter the entry; 4 and 5 keep an ended job's status. -/
def metaState (v : Word64) : JobState :=
  match v.toNat % 8 with
  | 1 => .queued
  | 2 => .running
  | 3 => .paused
  | 5 => .faulted
  | _ => .done

/-- The sectors that a bitmap record shows as landed (R412). -/
def recordLanded (bs : List Byte) : List Nat :=
  List.range (cardNat bs 0 8) ++ ((List.range 4096).filter fun i => (cardNat bs (8 + i / 8) 1).testBit (i % 8)).map (· + cardNat bs 0 8)

/-- The sectors that an entry's BMAP shows as landed: those of the bitmap record that it names, or else the first ones, as many as
are counted. -/
def bmapLanded (bmap : Word64) (part count : Nat) (s : State) : List Nat :=
  let off := (bmap - Config.saveArea part).toNat
  if bmap = 0 ∨ bitmapOffset 64 0 ≤ off then List.range count else recordLanded (s.readMem (paSave part off) 520)

/-- A META enters the entry after every entry entered before it, with the edges of that order; STATE 000 frees the entry. -/
def writeMeta (i : Nat) (v : Word64) (blank : Job) (s : State) (e : Engine) : Engine :=
  let x := NMap.getD e.entries i blank
  if v.toNat % 8 = 0 then { e with entries := NMap.del e.entries i }
  else
    let tag (bit off : Nat) : Bool := v.getLsbD bit && tagAllowed (cardCap x.card off true)
    let y := { x with
      srcTag := tag 3 0, dstTag := tag 4 16, ccapTag := tag 5 128, state := metaState v, fault := v.extractLsb' 8 8
      landed := bmapLanded x.bmap x.part (v.toNat / 2 ^ 24) s }
    if jobLive y then
      let reads := [footOf (cardCap y.card 0 y.srcTag) (cardNat y.card 144 8) (cardNat y.card 152 8)]
      let writes := [footOf (cardCap y.card 16 y.dstTag) (cardNat y.card 160 8) (cardNat y.card 168 8)]
      let others := { e with entries := NMap.del e.entries i }
      { e with
        entries := NMap.set e.entries i { y with order := e.nextOrder, deps := edgesOf others reads writes, readFoot := reads, writeFoot := writes }
        nextOrder := e.nextOrder + 1 }
    else { e with entries := NMap.set e.entries i y }

/-- Replace eight bytes of a card. -/
def patchCard (card : List Byte) (off : Nat) (v : Word64) : List Byte := card.take off ++ toLe 8 v.toNat ++ card.drop (off + 8)

/-- A card word enters the entry: a tag over bits that the device never tags goes (R80). -/
def writeCardWord (j : Nat) (v : Word64) (x : Job) : Job :=
  let card := patchCard x.card (8 * j) v
  let tag (off : Nat) : Bool := tagAllowed (cardCap card off true)
  { x with card, srcTag := x.srcTag && tag 0, dstTag := x.dstTag && tag 16, ccapTag := x.ccapTag && tag 128 }

/-- BMAP enters the entry, which goes on at the first sector whose bit is 0 (R375). -/
def writeBmap (v : Word64) (s : State) (x : Job) : Job :=
  if v = x.bmap then x else { x with bmap := v, landed := bmapLanded v x.part x.landed.length s }

/-- Write an entry word of a stopped engine. -/
def writeEntry (n : Nat) (v : Word64) (blank : Job) (s : State) (e : Engine) : Engine :=
  let (i, j) := engineEntry n
  let x := NMap.getD e.entries i blank
  if j < 22 then { e with entries := NMap.set e.entries i (writeCardWord j v x) }
  else if j = 22 then { e with entries := NMap.set e.entries i (writeBmap v s x) }
  else writeMeta i v blank s e

/-- Write ENGCTL: clearing STOP resumes the queue. -/
def writeEngctl (v : Word64) (e : Engine) : Engine := { e with stop := v.getLsbD 0, stopped := v.getLsbD 0 && e.stopped }

def execEngwr (n : BitVec 11) (a d : RegNum) (s : State) : Out :=
  s.finish (do
    let c := s.reg a
    let k := curCluster c.cursor
    checkSlotCap c ⟨1, false, true, false⟩ a s
    require (decide (n.toNat < 1544) && n != 1) 0x05 (regName a)
    require (decide (n.toNat < 8) || (engineOf k s).stopped) 0x05 (regName a)
    let t := s.loseStep s.thr.part
    if n = 0 then .ok (modEngine k (writeEngctl (s.int d)) t).advance
    else if n.toNat < 8 then .ok t.advance
    else .ok (modEngine k (writeEntry n.toNat (s.int d) (blankJob s) t) t).advance)

/-! ## Debug stops and halt groups (R376-R379) -/

/-- The cores of the partition that share a group with the stop halt; all cores of one stop bear its name, and the stream entries of
their slots freeze. -/
def haltCores (p : Nat) (groups : BitVec 8) (s : State) : State :=
  let t : State := { s with
    nextId := s.nextId + 1
    clusters := s.clusters.map fun x =>
      (if (s.part p).clusters.contains x.1 then
        (x.1, { x.2 with cores := x.2.cores.map fun k =>
          (if k.2.groups &&& groups ≠ 0 && !k.2.halted then (k.1, { k.2 with halted := true, stopped := groups, stop := s.nextId }) else k) })
      else x) }
  t.modAll fun h => if h.part = p ∧ coreHalted h t ∧ !coreHalted h s then State.asideThread s.tick h else h

def execDbgstop (n : BitVec 11) (s : State) : Out :=
  let groups := (coreRec s.thr.cluster (coreOf s.thr) s).groups
  s.finish (if s.curPart.dbgen && groups != 0 then .ok (haltCores s.thr.part groups s).advance
    else raise 0x48 (n.setWidth 64))

def execHaltg (a d : RegNum) (s : State) : Out :=
  let core := coreOf s.thr
  s.finish (.ok (if s.curPart.dbgen then
      modCore s.thr.cluster core (fun k => { k with groups := (s.int a).setWidth 8 })
        (s.writeInt d ((coreRec s.thr.cluster core s).groups.setWidth 64))
    else s.writeInt d 0).advance)

end Sys2Proof.Machine
end

