-- ==== Sys2Proof/Machine/Running.lean ====
section
/-! DEFINITION. What happens to threads between their words: waits that end, parking, the run queues, quanta, stealing, the
allotment, the system-call ring, step boundaries, and Moaly's answers to stopped threads (13_counters R257, 14_scheduling
R282-R294, 19_traps R367, R376). -/

namespace Sys2Proof.Machine

open Sys2Proof

/-! ## Where a thread stands -/

/-- The thread holds a slot in which time counts. -/
def inSlot (h : Thread) (s : State) : Bool := h.status == .running && h.place.isSome && partRuns h.part s && !coreHalted h s

/-- Nanoseconds at which its wait began. -/
def waitStart (h : Thread) : Nat := match h.wait with
  | some w => w.since
  | none => h.waitSince

/-- The thread gives up its slot and waits (R20). -/
def parkThread (t : Nat) (s : State) : State := s.modThread t fun h => { s.leaveSlot h with status := .waiting }

/-- What a thread waits for is not there yet, so that it may park (R20); a wait that is met resumes at once (R257). -/
def stillWaits (h : Thread) (s : State) : Bool :=
  match h.wait, h.stall with
  | some w, _ => waitVerdict h w s == .held
  | none, some (.ring t) => !ringRoom t (s.focus h.tid)
  | none, _ => waitsToPark h

/-! ## Waits that end (R256-R258) -/

/-- Place of an entry in its home's list (R256). -/
structure ListKey where
  thr : Word64
  order : Nat
  deriving DecidableEq, Repr

def waitKey (w : WaitReq) : ListKey := ⟨w.thr, w.order⟩
def hostKey (x : HostWait) : ListKey := ⟨x.thr, x.id⟩
def peerKey (x : PeerWait) : ListKey := ⟨x.thr, x.order⟩

/-- One entry comes before another in the list: by threshold, then by arrival. -/
def ListKey.before (a b : ListKey) : Bool := decide (a.thr < b.thr) || (a.thr == b.thr && decide (a.order < b.order))

def isMet : Verdict → Bool
  | .met _ => true
  | _ => false

/-- A re-run from a record-mode log has other arrivals before the value that the wait brings to aD (R393). -/
def waitHeld (h : Thread) (w : WaitReq) (v : Word64) : Bool := w.dest.isSome && State.comesLater h (.counter v)

/-- The thread's wait is met, and its wake-up can reach it: that of a halted core is held, a captured thread's wait is withdrawn
(R373, R376), and a record-mode log may have other arrivals first (R393). -/
def wakesNow (h : Thread) (s : State) : Option Word64 :=
  if coreHalted h s || h.captured then none
  else h.wait.bind fun w => match waitVerdict h w s with
    | .met v => if waitHeld h w v then none else some v
    | _ => none

/-- Two counters of threads have one home. -/
def sameHome (a : Thread) (x : CtrRef) (b : Thread) (y : CtrRef) : Bool :=
  match x, y with
  | .mem p, .mem q => p == q
  | .sward m, .sward n => m == n && swKey a m == swKey b n
  | _, _ => false

/-- An entry of a thread that stands before a place in the list of thread `b`'s counter `y` is still to be woken. -/
def threadBefore (b : Thread) (y : CtrRef) (k : ListKey) (s : State) : Bool :=
  s.threads.any fun g => (g.wait.any fun w => sameHome g w.ctr b y && (waitKey w).before k) && (wakesNow g s).isSome

/-- An entry of a line's list that stands before a place is still to be answered: a thread's, the host's or a peer's, since a line has
one list for all of them (R256, R257). -/
def lineBefore (pa : Nat) (k : ListKey) (s : State) : Bool :=
  threadBefore s.thr (.mem pa) k s || (s.hostWaits.any fun x => x.pa == pa && (hostKey x).before k && isMet x.verdict)
    || s.hub.peerWaits.any fun x => x.pa == pa && (peerKey x).before k && isMet x.verdict

/-- No entry before that of the thread in its list is still to be woken. -/
def firstMet (h : Thread) (s : State) : Bool :=
  h.wait.all fun w => match w.ctr with
    | .mem pa => !lineBefore pa (waitKey w) s
    | r => !threadBefore h r (waitKey w) s

/-- The focused thread's wait is over: in its slot it goes on, parked it becomes READY, FAULTED it stays so. -/
def wakeUp (s : State) : State := if s.thr.status = .waiting then makeReady s.thr.tid s else s

/-- The line is no counter line any more, or its peer's generation is another: a parked thread becomes READY, and the word faults 0x21
or 0x06, precisely, when the thread runs (R258, R407). -/
def wakeBroken (code : BitVec 8) (w : WaitReq) (s : State) : Option State :=
  let h := s.thr
  if h.status = .waiting then some (makeReady h.tid s)
  else if inSlot h s then some ((s.modThr fun x => { x with wait := none }).deliverTrap (plainFault code w.cursor))
  else none

/-- What its home has to say to a thread that waits at a counter. -/
def wakeAtHome (w : WaitReq) (s : State) : Option State :=
  let h := s.thr
  match wakesNow h s with
  | some v => if firstMet h s then some (wakeUp (endWait v w s)) else none
  | none =>
    if coreHalted h s || h.captured then none
    else match waitVerdict h w s with
      | .broken code =>
        if code = 0x21 ∨ code = 0x06 then wakeBroken code w s
        else if h.status = .waiting ∨ inSlot h s then some (wakeUp (endRefused code w s)) else none
      | _ => none

def tryWaiterWake (t : Nat) (s : State) : Option State :=
  let u := s.focus t
  let h := u.thr
  if h.tid ≠ t ∨ coreHalted h u then none
  else match h.wait, h.stall with
    | some w, _ => wakeAtHome w u
    | none, some (.ring k) => if h.status == .waiting && ringRoom k u then some (wakeUp u) else none
    | none, _ => none

/-- WAITER_WAKE (R257, R258): the threshold is met, or the home refuses the wait, or the ring has room for a parked request. -/
def execWaiterWake (t : Nat) (s : State) : Out := happen (tryWaiterWake t s) s

/-- The limit of a wait has passed. -/
def limitPassed (w : WaitReq) (s : State) : Bool := w.limit.any fun l => decide (l ≤ s.now)

/-- The value with which a wait ends unmet: the one that its home has read already, or the one that it reads now, its limit having
passed. -/
def unmetValue (h : Thread) (w : WaitReq) (s : State) : Option Word64 :=
  match waitVerdict h w s with
  | .expired v => some v
  | .held => if limitPassed w s then some (expiryValue h w s) else none
  | _ => none

def tryWaitLimitExpiry (t : Nat) (s : State) : Option State :=
  let u := s.focus t
  let h := u.thr
  h.wait.bind fun w =>
    if h.tid = t && !coreHalted h u && !h.captured then
      ((unmetValue h w u).filter fun v => !waitHeld h w v).map fun v => wakeUp (endWait v w u.nextTick)
    else none

/-- WAIT_LIMIT_EXPIRY (R257): the wait ends unmet with the value that the home reads. -/
def execWaitLimitExpiry (t : Nat) (s : State) : Out := happen (tryWaitLimitExpiry t s) s

def tryPark (t : Nat) (s : State) : Option State :=
  ((s.thread? t).filter fun h => inSlot h s && stillWaits h s && decide (waitStart h + Config.parkNs ≤ s.now)).map fun _ => parkThread t s

/-- PARK (R20). -/
def execPark (t : Nat) (s : State) : Out := happen (tryPark t s) s

/-! ## Run queues (R282-R284) -/

/-- The slot of a core is offered and free among the threads that are not in the shadow banks. R15 and R271 say that a repaired core
offers fewer slots and do not say which numbers they have: slots 0 to offered - 1 (DESIGN CHOICE, log entry 64). -/
def slotIsFree (core slot : Nat) (s : State) : Bool :=
  let k := coreRec (core / 16) (core % 16) s
  decide (core < 1024) && decide (slot < k.offered) && !k.halted
    && !(s.threads.any fun h => h.place == some (core * 8 + slot) && matrixRuns h.part s)

/-- The first record of a list in the order of service: the highest level, then arrival. -/
def firstServed (l : List Thread) : Option Thread :=
  l.foldl (fun b h => match b with
    | none => some h
    | some x => if x.effLevel < h.effLevel ∨ (x.effLevel = h.effLevel ∧ h.readyOrder < x.readyOrder) then some h else some x) none

/-- The record enters the slot, and its frozen stream entries go on; one of the overflow queue is taken through a reserved entry of
the pool (R286). -/
def enterSlot (t core slot : Nat) (s : State) : State :=
  modCore (core / 16) (core % 16) (fun k => { k with idleSince := s.now })
    (s.modThread t fun h => { State.thawThread h with
      status := .running, place := some (core * 8 + slot), slotSince := s.cycle, cluster := core / 16, overflow := false })

/-- The step of a partition can still be replayed. -/
def partLives (p : Nat) (s : State) : Bool := (s.part p).keeps && (s.part p).restartable

/-- A context block that holds a broken line, or a digit record that is not as it was written, is not restored: the error goes to the
partition's recovery (R392). -/
def refuseBroken (h : Thread) (s : State) : State :=
  (s.modPart h.part fun p => { p with
    errors := p.errors ++ [⟨0, h.tid, h.ctx.code.cursor, h.cref, h.member, true, partLives h.part s⟩] }).modThread h.tid
    fun x => { x with broken := false, stall := some .recovery }

/-- What a continuation's context block holds can be restored (R192, R392). -/
def contextWhole (h : Thread) : Bool := !h.broken && State.digitsOk h.ctx.stream

/-- A core takes a record. -/
def takeReady (h : Thread) (core slot : Nat) (s : State) : State :=
  if contextWhole h then enterSlot h.tid core slot s else refuseBroken h s

def tryContinuationTake (core slot : Nat) (s : State) : Option State :=
  if slotIsFree core slot s then (firstServed (queueFor (core / 16) (core / 16) s)).map fun h => takeReady h core slot s else none

/-- CONTINUATION_TAKE (R282): the free slot and the core are the event's. -/
def execContinuationTake (core slot : Nat) (s : State) : Out := happen (tryContinuationTake core slot s) s

/-- The records of a cluster's queue that a core of another cluster may steal: a LEVEL 10 record never moves (R272). -/
def stealable (q c : Nat) (s : State) : List Thread := (queueFor q c s).filter fun h => h.level != 2

/-- The cluster of the die with the most READY records among those that a core of `c` may serve, the lowest on a tie. -/
def stealFrom (c : Nat) (s : State) : Option Nat :=
  let near := (List.range 64).filter fun q => q != c && dieOfCluster q == dieOfCluster c && !(stealable q c s).isEmpty
  let size (q : Nat) : Nat := (s.threads.filter fun h => h.cluster == q && takeable h s).length
  near.foldl (fun b q => match b with
    | none => some q
    | some x => if size x < size q then some q else some x) none

/-- The record that a core of cluster `c` steals. -/
def stolen (c : Nat) (s : State) : Option Thread := (stealFrom c s).bind fun q => firstServed (stealable q c s)

/-- A free slot of the core has found no record for 10 µs. -/
def stealDue (core slot : Nat) (s : State) : Bool :=
  let c := core / 16
  slotIsFree core slot s && (queueFor c c s).isEmpty && decide ((coreRec c (core % 16) s).idleSince + Config.stealNs ≤ s.now)

def trySteal (core slot : Nat) (s : State) : Option State :=
  if stealDue core slot s then (stolen (core / 16) s).map fun h => takeReady h core slot s else none

/-- STEAL (R284). -/
def execSteal (core slot : Nat) (s : State) : Out := happen (trySteal core slot s) s

/-- The quantum of the thread has ended where it can be suspended. -/
def quantumOver (h : Thread) (s : State) : Bool :=
  inSlot h s && decide (h.slotSince + Config.quantum ≤ s.cycle) && (stillWaits h s || atBoundary h)

def tryQuantumEnd (t : Nat) (s : State) : Option State :=
  let u := s.focus t
  let h := u.thr
  if h.tid = t && quantumOver h u then
    some (if stillWaits h u then parkThread t u
      else if readyAtLevel h.prio u then makeReady t u
      else u.modThr fun x => { x with slotSince := x.slotSince + Config.quantum })
  else none

/-- QUANTUM_END (R282, R301): a thread that waits parks; another rejoins its queue where a READY record stands at a level not
below its own, and otherwise runs on for another quantum. -/
def execQuantumEnd (t : Nat) (s : State) : Out := happen (tryQuantumEnd t s) s

/-- A READY record has waited for 64 quanta. -/
def agingDue (h : Thread) (s : State) : Bool :=
  h.status == .ready && partRuns h.part s && decide (h.effLevel < 7) && decide (h.readySince + 64 * Config.quantum ≤ s.cycle)

def tryPriorityAging (t : Nat) (s : State) : Option State :=
  ((s.thread? t).filter fun h => agingDue h s).map fun _ =>
    (s.modThread t fun x => { x with
      effLevel := x.effLevel + 1, readySince := x.readySince + 64 * Config.quantum, readyOrder := s.nextId }).fresh.2

/-- PRIORITY_AGING (R283): the record arrives at the next level. -/
def execPriorityAging (t : Nat) (s : State) : Out := happen (tryPriorityAging t s) s

/-! ## The allotment and the continuation limit (R286, R287) -/

/-- The word at the program counter, as a record shows it (R367); where it cannot be read it is free (log entry 6). -/
def wordAtPc (s : State) : Word32 :=
  match s.access s.who s.thr.ctx.code s.pc 4 needFetch 0 with
  | .ok (ps, t) => BitVec.ofNat 32 (leNat (t.readPieces ps))
  | .error _ => (Config.unstated s.tick).setWidth 32

/-- The thread stops at its word boundary, or before a word of it that waits has issued. -/
def stopExhausted (s : State) : State :=
  let t := if atBoundary s.thr then s.nextTick.modCtx fun c => { c with ir := wordAtPc s } else s
  (t.modThr fun h => { h with stall := if waitsToPark h || waitsEject h then h.stall else none }).deliverTrap (plainFault 0x38 0)

def tryAllotmentExhausted (t : Nat) (s : State) : Option State :=
  let u := s.focus t
  let h := u.thr
  if h.tid = t && inSlot h u && h.ctx.allot == 0 && h.stall != some .recovery && !faultPending h && (unwindPoint h).isNone
      && !u.faultQueueFull h.world then
    some (stopExhausted u)
  else none

/-- ALLOTMENT_EXHAUSTED (R287): FAULTED with a record 0x38; a pending wait stays registered. An allotment that ends a budget unwinds
instead (R322, R326). -/
def execAllotmentExhausted (t : Nat) (s : State) : Out := happen (tryAllotmentExhausted t s) s

/-- The order in which a thread came to wait at its world's limit. -/
def limitOrder (h : Thread) : Option Nat := match h.stall with
  | some (.contLimit o) => some o
  | _ => none

/-- The thread has waited longest at the limit of its world. -/
def firstAtLimit (h : Thread) (s : State) : Bool :=
  match limitOrder h with
  | some o => !(s.threads.any fun g => g.world == h.world && (match limitOrder g with
    | some p => decide (p < o)
    | none => false))
  | none => false

/-- Continuations of a world, those already granted counted. -/
def contClaims (w : Nat) (s : State) : Nat :=
  contCount w s + (s.threads.filter fun h => h.world == w && h.stall == some .contGranted).length

def tryContinuationLimitRelease (t : Nat) (s : State) : Option State :=
  ((s.thread? t).filter fun h => firstAtLimit h s && decide (contClaims h.world s < (s.world h.world).contLimit)).map fun _ =>
    s.modThread t fun x => { x with stall := some .contGranted }

/-- CONTINUATION_LIMIT_RELEASE (R286). -/
def execContinuationLimitRelease (t : Nat) (s : State) : Out := happen (tryContinuationLimitRelease t s) s

/-! ## The system-call ring (R288, R293) -/

/-- What a refused call returns. -/
def syscRefused : Word64 := 0xFFFFFFFFFFFFFFFF

/-- The register of a thread that waits for the reply of a ticket. -/
def waitsReply (w k : Nat) (h : Thread) : Option RegNum :=
  match h.stall with
  | some (.sysc d j) => if h.world == w && j == k then some d else none
  | _ => none

/-- The thread of a request, wherever it is by now: also in an image. -/
def callerOf (w : Nat) (e : SyscReq) (s : State) : Option Thread :=
  (s.threads ++ (s.world w).images.map (·.2)).find? fun h => (waitsReply w e.ticket h).isSome

/-- The caller's rights are those of the domain that made the request (R293). -/
def reqWho (w : Nat) (e : SyscReq) : Who := ⟨w, e.domain⟩

/-- What Moaly does for a request; a fault stands for a call that is refused or fails its condition. -/
abbrev Served := Res (Word64 × State)

/-- The call is refused. -/
def refuseCall {α : Type} : Res α := raise 0 0

/-- 0x001: a tagged memory-counter capability with CT. The handle's line keeps the physical address that it has now: R107 and R259
do not say whether a handle is translated again at each use (DESIGN CHOICE, log entry 69). -/
def serveCounter (w : Nat) (e : SyscReq) (s : State) : Served := do
  let c := e.arg
  s.checkCap (reqWho w e) c c.cursor 64 needCounter 0
  require (c.cursor.toNat % 64 == 0) 0x04 c.cursor
  let (pa, t) ← s.translateAt (reqWho w e) c.space c.addr { needCounter with ct := true }
  let (n, u) := t.fresh
  let v := (State.nameBits n).setWidth 32
  .ok (v.setWidth 64, u.modWorld w fun x => { x with ctrHandles := NMap.set x.ctrHandles v.toNat ⟨pa, c.cursor⟩ })

/-- 0x002: any tagged capability. -/
def serveCap (w : Nat) (e : SyscReq) (s : State) : Served := do
  require e.arg.tag 0x03 0
  let (n, u) := s.fresh
  let v := State.nameBits n
  .ok (v, u.modWorld w fun x => { x with capHandles := NMap.set x.capHandles v.toNat e.arg })

/-- 0x003: a tagged LOCAL or DEVICE capability with X. -/
def serveProg (w : Nat) (e : SyscReq) (s : State) : Served := do
  let c := e.arg
  require (c.tag && (c.space == 1 || c.space == 2) && c.permX && !c.sealed) 0x05 0
  let (n, u) := s.fresh
  let v := (State.nameBits n).setWidth 32
  .ok (v.setWidth 64, u.modWorld w fun x => { x with progs := NMap.set x.progs v.toNat ⟨c, e.domain⟩ })

/-- 0x004: cycles granted, within the device's bounds; the reply adds them to ALLOT. -/
def serveAllot (w grant : Nat) (e : SyscReq) (s : State) : Served :=
  match callerOf w e s with
  | none => refuseCall
  | some h => .ok (BitVec.ofNat 64 (min (min e.arg.cursor.toNat grant) (2 ^ 48 - 1 - h.ctx.allot)), s)

def needRequest : Need := ⟨true, true, false, false, true, false, [1, 2]⟩

/-- 0x005: an engine or matrix-unit capability stored with its tag in the 16 bytes that held the request; the store is one as any
other, refused where a plain store is (R135). -/
def serveUnit (w : Nat) (e : SyscReq) (s : State) : Served := do
  let c := e.arg
  let (ps, t) ← s.access (reqWho w e) c c.cursor 16 needRequest 0
  let q : Req := ⟨w, none⟩
  let pa := State.placeIn ps 0
  let req := leNat ((t.readPieces ps).take 8)
  let kind := req % 16
  let cl := req / 2 ^ 8 % 64
  require (c.cursor.toNat % 16 == 0 && (kind == 1 || kind == 2) && t.dieServes (dieOfCluster cl) w && (t.piecesFault q c.addr ps).isNone
    && (t.storeRefusal q pa).isNone) 0x05 0
  let made := slotSpaceCap (if kind = 1 then 0x041 else 0x040) 0 (BitVec.ofNat 64 (kind * 2 ^ 60 + cl * 2 ^ 24))
  let u := (t.recordChunks e.part [(pa, bytesOf128 made.bits)]).storeLine q pa (bytesOf128 made.bits)
  .ok (0, u.setTag pa true)

def serveCall (w : Nat) (refuse : Bool) (grant : Nat) (e : SyscReq) (s : State) : Served :=
  if e.n = 0 then .ok (0, s)
  else if refuse then refuseCall
  else match e.n.toNat with
    | 1 => serveCounter w e s
    | 2 => serveCap w e s
    | 3 => serveProg w e s
    | 4 => serveAllot w grant e s
    | 5 => serveUnit w e s
    | _ => refuseCall

/-- The reply reaches a thread: the allotment of a call 0x004, aD, the task log, the next word. -/
def takeSysc (n : BitVec 11) (v : Word64) (d : RegNum) (s : State) : State :=
  wakeUp ((((((regrant n v s).clearStall.noteArrival s.thr.tid (.reply v)).logValue ⟨Cap.ofInt v, 0⟩ 16).writeInt d v).advance).complete)

/-- The reply reaches every thread of a list that waits for it: one, or the members of a pair. -/
def replyTo (w k : Nat) (n : BitVec 11) (v : Word64) : List Thread → State → State
  | [], s => s
  | h :: r, s =>
    match waitsReply w k h with
    | some d => replyTo w k n v r (takeSysc n v d (s.focus h.tid))
    | none => replyTo w k n v r s

/-- The reply reaches a thread that an image holds. -/
def replyToImages (w k : Nat) (n : BitVec 11) (v : Word64) (s : State) : State :=
  s.modWorld w fun x => { x with images := x.images.map fun y => match waitsReply w k y.2 with
    | some d => (y.1, (takeSysc n v d { s with thr := y.2 }).thr)
    | none => y }

/-- The request that Moaly serves next: that of the lowest ticket, once it is placed (R288). -/
def ringHead (w : Nat) (s : State) : Option SyscReq :=
  (s.world w).ring.find? fun e => leastOf (liveTickets w s) == some e.ticket

/-- The request is served: it leaves the ring, its reply is recorded under its stamp and reaches its thread. -/
def replyWith (w : Nat) (e : SyscReq) (v : Word64) (s : State) : State :=
  let kept := decide (e.sseq < Config.sheafSlots) || (callerOf w e s).any (·.paired)
  let entry : SheafEntry := ⟨w, e.part, e.cref, e.stepNo, e.sseq, 0x37, 0, e.arg.cursor, v, 0, false, []⟩
  let t := s.modWorld w fun x => { x with ring := x.ring.filter fun y => y.ticket != e.ticket }
  let u := if kept then { t with sheaf := t.sheaf ++ [entry] } else t
  freeTickets w (replyToImages w e.ticket e.n v (replyTo w e.ticket e.n v u.threads u))

/-- A caller's record mode holds the reply back until its log has come to it (R393). -/
def replyHeld (w : Nat) (e : SyscReq) (v : Word64) (s : State) : Bool :=
  s.threads.any fun h => (waitsReply w e.ticket h).isSome && s.arrivalHeld h.tid (.reply v)

/-- The request that is next is served, and its reply recorded. R117 and R288 do not say what becomes of a placed request whose thread has
been killed since: it is served as any other, also after the kill's last acknowledgement, with its effects on memory, and its reply
reaches nobody (DESIGN CHOICE, log entry 88). -/
def trySyscReply (w : Nat) (refuse : Bool) (grant : Nat) (s : State) : Option State :=
  ((ringHead w s).filter fun e => !(callerOf w e s).any fun h => coreHalted h s).bind fun e =>
    match serveCall w refuse grant e s with
    | .ok (v, t) => if replyHeld w e v s then none else some (replyWith w e v t)
    | .error (.fault _) => if replyHeld w e syscRefused s then none else some (replyWith w e syscRefused s)
    | .error (.hold f) => some (s.heldBy f)

/-- SYSC_REPLY (R288, R293, R387): the request of the lowest ticket is served, its reply recorded under its stamp. `refuse` and
`grant` are Moaly's policy. -/
def execSyscReply (w : Nat) (refuse : Bool) (grant : Nat) (s : State) : Out := happen (trySyscReply w refuse grant s) s

/-! ## Entries and windows -/

def tryStreamEntryComplete (t : Nat) (s : State) : Option State :=
  let u := s.focus t
  if u.thr.tid = t && inSlot u.thr u && !u.thr.ctx.stream.isEmpty then some u.completeOldest else none

/-- STREAM_ENTRY_COMPLETE (R191). -/
def execStreamEntryComplete (t : Nat) (s : State) : Out := happen (tryStreamEntryComplete t s) s

/-- Some window of the thread has ended, and its result is there. -/
def windowDue (h : Thread) : Bool := !(State.splitDue [] h.ctx.pend).1.isEmpty

def tryLookaheadWrite (t : Nat) (s : State) : Option State :=
  let u := s.focus t
  if u.thr.tid = t && inSlot u.thr u && windowDue u.thr then some u.landDue else none

/-- LOOKAHEAD_WRITE (R93, R94). -/
def execLookaheadWrite (t : Nat) (s : State) : Out := happen (tryLookaheadWrite t s) s

/-! ## The step boundary (R294, R384) -/

/-- The members of a partition's step group. -/
def membersOf (p : Nat) (s : State) : List Thread :=
  s.threads.filter fun h => h.part == p && (h.status == .ready || h.status == .running || h.status == .waiting || h.status == .gated
    || h.status == .faulted)

/-- Every launch with a live continuation in the partition is RESTARTABLE (R384). -/
def launchesKeep (p : Nat) (s : State) : Bool :=
  (membersOf p s).all fun h => match h.launch with
    | some l => (s.launches.find? fun x => x.id == l).all (·.restartable)
    | none => true

/-- The task log of a thread starts again (R389). -/
def restartLog (h : Thread) : Thread := { h with logBroken := false, task := freshTask h.restartable h.ctx }

/-- The other member of a pair has presented a card or a command to which this one has no counterpart. -/
def pairOwes (h : Thread) (s : State) : Bool :=
  h.paired && s.threads.any fun o => o.tid != h.tid && o.cref == h.cref && o.world == h.world && !o.pairOut.isEmpty

/-- A member leaves its `step`: the word counts in no window, since none is open, and the stamps start again. A counterpart that it
still owes the other member of its pair would come after the boundary that has discarded the first: the 0x43 of R394 is due in the
new step. -/
def leaveStep (s : State) (h : Thread) : Thread :=
  let c := State.checkedCtx h.ctx
  restartLog { h with
    stall := none, pairOut := []
    ctx := { c with
      code := c.code.setCursor (c.code.cursor + 4), sseq := 0, stamped := 0, spawned := 0
      late := if pairOwes h s then c.late ++ [⟨0x43, 0, c.code.cursor, s.nextId⟩] else c.late } }

/-- Exit reports that a boundary releases (R291). -/
def releaseReports : List (Nat × BitVec 8) → State → State
  | [], s => s
  | (l, st) :: r, s => releaseReports r (reportExit (some l) st s)

/-- The partition's records for its next step. -/
def openStep (p : Nat) (s : State) : State :=
  let keeps := launchesKeep p s
  let snaps := if keeps then membersOf p s else []
  s.modPart p fun x => { x with
    keeps, restartable := keeps, snaps, recordsBroken := false, repeated := [], pages := [], undo := [], slotSnaps := [], storeGranules := [], mredGranules := [],
    readRanges := [], writeRanges := [], created := [], reborn := [], exited := [], reports := [] }

/-- Members that had parked become READY. -/
def readyParked : List Thread → State → State
  | [], s => s
  | h :: r, s => readyParked r (if h.status = .waiting then makeReady h.tid s else s)

/-- The members of a redundant pair, which both stand at a `step`, have not done the same: another count of stamped operations, or another
`step` (R388; DESIGN CHOICE, log entry 25: what the boundary compares). -/
def pairApart (a b : Thread) : Bool :=
  a.member == 1 && b.member == 0 && (a.ctx.stamped != b.ctx.stamped || a.ctx.code.cursor != b.ctx.code.cursor)

/-- A member of a redundant pair that stands at a `step` and has not done what the other has: the other stands elsewhere, or has exited
(R388). -/
def pairStray (ms : List Thread) (s : State) : Option Thread :=
  ms.find? fun a => a.paired && s.threads.any fun b => b.tid != a.tid && a.cref == b.cref && a.world == b.world
    && (pairApart a b || b.exitStatus.isSome)

/-- The partition's step group has arrived, and the boundary takes place before any timestamp of a switch (R301). -/
def boundaryDue (p : Nat) (s : State) : Bool :=
  let ms := membersOf p s
  let x := s.part p
  matrixRuns p s && x.errors.isEmpty && ms.all (fun h => memberArrived h s) && !(ms.isEmpty && x.exited.isEmpty)

/-- The boundary completes. -/
def completeStep (p : Nat) (s : State) : State :=
  let x := s.part p
  let t := releaseReports x.reports s
  let u := t.fresh.2.modAll fun h => if h.part = p ∧ h.stall = some .boundary then leaveStep t h else h
  let v := { u.modPart p fun y => { y with stepNo := y.stepNo + 1, exited := [] } with
    sheaf := u.sheaf.filter fun e => !(e.world == x.world && e.part == p) }
  openStep p (readyParked (membersOf p s) v)

/-- The 0x43 of a member at its `step`. One that had parked there becomes READY where it has something to do: to run its trap handler, or
to keep its fault until the fault queue has room (R363, R367). -/
def strayMember (h : Thread) (s : State) : State :=
  let t := (s.focus h.tid).clearStall.deliverTrap (plainFault 0x43 0)
  if t.thr.stall = some .recovery then t else wakeUp t

def tryStepBoundary (p : Nat) (s : State) : Option State :=
  if boundaryDue p s then
    some (match pairStray (membersOf p s) s with
      | some h => strayMember h s
      | none => completeStep p s)
  else none

/-- STEP_BOUNDARY (R294, R384, R387). -/
def execStepBoundary (p : Nat) (s : State) : Out := happen (tryStepBoundary p s) s

/-! ## Moaly and stopped threads -/

def tryFaultedResume (t allot : Nat) (s : State) : Option State :=
  ((s.thread? t).filter fun h => h.status == .faulted).map fun _ =>
    makeReady t (s.modThread t fun x => { x with ctx := { x.ctx with allot := max x.ctx.allot (min allot (2 ^ 48 - 1)) } })

/-- FAULTED_RESUME (R287): dw4 is raised and the thread is READY; it resumes at the word where it stopped. -/
def execFaultedResume (t allot : Nat) (s : State) : Out := happen (tryFaultedResume t allot s) s

def tryFaultedFree (t : Nat) (s : State) : Option State := ((s.thread? t).filter fun h => h.status == .faulted).map fun h => freeThread h s

/-- FAULTED_FREE (R278): the continuation ends for its launch. -/
def execFaultedFree (t : Nat) (s : State) : Out := happen (tryFaultedFree t s) s

def tryFaultQueueDrain (w : Nat) (s : State) : Option State :=
  match (s.world w).faultQ with
  | [] => none
  | _ :: r => some (everyJob (payRecord w) (s.modWorld w fun x => { x with faultQ := r }))

/-- FAULT_QUEUE_DRAIN (R367): the oldest record leaves. Jobs that waited write theirs first; R367 gives the writers no order (DESIGN
CHOICE, log entry 89). -/
def execFaultQueueDrain (w : Nat) (s : State) : Out := happen (tryFaultQueueDrain w s) s

/-- A core of a debug stop goes on. -/
def resumeCore (stop : Nat) (k : Core) : Core := if k.halted && k.stop == stop then { k with halted := false, stopped := 0 } else k

def resumeSaved (stop : Nat) (k : SavedCore) : SavedCore := if k.halted && k.stop == stop then { k with halted := false, stopped := 0 } else k

/-- Continuations in their slots go on with their frozen stream entries, where their context blocks can be restored (R392). -/
def thawAll : List Thread → State → State
  | [], s => s
  | h :: r, s => thawAll r (if contextWhole h then s.modThread h.tid State.thawThread else refuseBroken h s)

/-- HALT_RESUME (R376): the cores of one stop go on together, in the banks and in what is saved of a partition that is switched
out. -/
def execHaltResume (stop : Nat) (s : State) : Out :=
  let t : State := { s with
    parts := s.parts.map fun x => (x.1, { x.2 with savedCores := x.2.savedCores.map (resumeSaved stop) })
    clusters := s.clusters.map fun x => (x.1, { x.2 with cores := x.2.cores.map fun k => (k.1, resumeCore stop k.2) }) }
  .next (thawAll (t.threads.filter fun h => matrixRuns h.part t && coreHalted h s && !coreHalted h t) t)

end Sys2Proof.Machine
end

