-- ==== Sys2Proof/Machine/Dispatcher.lean ====
section
/-! DEFINITION. The host's side: the HDM region, launch records, counter records, completions (14_scheduling R273-R281,
13_counters R259, 22_platform R404). -/

namespace Sys2Proof.Machine

open Sys2Proof

/-! ## The HDM region (R404) -/

/-- Places in the HDM region: slots, the completion area, shared memory. -/
def slotPa (slot : Nat) : Nat := paHdm (slot * 64)
def completionPa (entry : Nat) : Nat := paHdm (2 ^ 18 + entry % 65536 * 16)
def sharedBase : Nat := 2 ^ 24

/-- The go word of a slot still has GO[0] = 1 (R273). -/
def slotBusy (slot : Nat) (s : State) : Bool := (s.byteAt (slotPa slot + 56)).getLsbD 0

/-- The dispatcher writes a go word to 0. -/
def clearGo (slot : Nat) (s : State) : State := s.pokeMem (slotPa slot + 56) (List.replicate 8 0)

/-- The world that Moaly has assigned a slot to, by its partition, has its keys: the host's accesses to the slot are requests of that
world (R334, R337). -/
def slotOpen (slot : Nat) (s : State) : Bool := (NMap.get? s.hub.slotPart slot).all fun p => s.slotServes (s.part p).world

/-- The requests of a slot's world. -/
def slotReq (p : Nat) (s : State) : Req := ⟨(s.part p).world, none⟩

/-- The slot's line opens: under the keys of its world, or, of a slot that is of no world, where it bears no seal (R332, R337). -/
def slotOpens (slot : Nat) (s : State) : Bool :=
  match NMap.get? s.hub.slotPart slot with
  | some p => s.opens (slotReq p s) (slotPa slot)
  | none => (NMap.get? s.seals (slotPa slot / 64)).isNone && !s.broken.contains (slotPa slot / 64)

/-- Bytes of the host in a slot's line, sealed under the keys of the slot's world. -/
def putSlot (slot off : Nat) (bs : List Byte) (s : State) : State :=
  match bs, NMap.get? s.hub.slotPart slot with
  | [], _ => s
  | _, some p => s.storeLine (slotReq p s) (slotPa slot + off) bs
  | _, none => s.storePlain (slotPa slot + off) bs

/-- The bytes of a store with those of the go word as the slot has them. -/
def keepGo (slot off : Nat) (bs : List Byte) (s : State) : List Byte :=
  bs.mapIdx fun i b => if off + i < 56 then b else if slotOpens slot s then s.byteAt (slotPa slot + off + i) else 0

/-- A slot whose GO[0] has become 1: the dispatcher takes the record as it stands, where the slot is assigned to a partition and the record
can be read; otherwise it clears the go word and logs an event (R273; log entry 57 for a record that cannot be read). -/
def takeGo (slot : Nat) (s : State) : State :=
  if (NMap.get? s.hub.slotPart slot).isNone then (clearGo slot s).logEvent (.unassignedSlot slot)
  else if !slotOpens slot s then (clearGo slot s).logEvent (.unreadRecord slot)
  else s.modHub fun h => { h with goPending := h.goPending ++ [⟨slot, s.readMem (slotPa slot) 64⟩] }

/-- A host store into one slot: while the go word is 1 its bytes are not changed; a store that makes GO[0] = 1 hands the
record to the dispatcher; a go store with GO[0] = 0 is ignored, so its go bytes are not kept (log entry 57). -/
def storeSlot (slot off : Nat) (bs : List Byte) (s : State) : State :=
  if slotBusy slot s then putSlot slot off (keepGo slot off bs s) s
  else
    let t := putSlot slot off bs s
    if slotBusy slot t then takeGo slot t
    else if off ≤ 56 ∧ 56 < off + bs.length then putSlot slot off (keepGo slot off bs s) s
    else t

/-- The key under which an entry of the completion area can be written for its world now: an entry that holds no record is of no world
(DEDUCED, log entry 57). -/
def compKey (entry : Nat) (s : State) : Option Nat := (NMap.get? s.hub.compWorld entry).bind fun z => s.keyAt z.world (completionPa entry)

/-- An entry of the completion area opens: under the keys of its record's world, or because it is of no world. -/
def compOpens (entry : Nat) (s : State) : Bool :=
  (NMap.get? s.hub.compWorld entry).all fun z => s.keyAt z.world (completionPa entry) == some z.key

/-- A host store of bytes within one entry of the completion area: sealed again where the entry opens or all of it is written, refused
where its world has no keys, and otherwise an entry that nothing opens (R337, R338). -/
def storeEntry (entry off : Nat) (bs : List Byte) (s : State) : State :=
  let t := s.pokeMem (completionPa entry + off) bs
  match NMap.get? s.hub.compWorld entry, compKey entry s with
  | none, _ => t
  | some _, none => s
  | some z, some k =>
    t.modHub fun h => { h with compWorld := NMap.set h.compWorld entry ⟨z.world, if compOpens entry s || bs.length == 16 then k else 0⟩ }

/-- A host store into the completion area, entry by entry. -/
def storeEntries (offset : Nat) (bs : List Byte) : List Nat → State → State
  | [], s => s
  | e :: r, s =>
    let a := max offset (16 * e)
    let part := (bs.drop (a - offset)).take (16 * (e + 1) - a)
    storeEntries offset bs r (storeEntry ((16 * e - 2 ^ 18) / 16) (a - 16 * e) part s)

/-- The DEVICE frame behind a 64 KiB unit of shared memory, and its world. -/
def sharedFrame (offset : Nat) (s : State) : Option (Nat × Nat) := NMap.get? s.hub.share ((offset - sharedBase) / 2 ^ 16)

/-- A host store of bytes that lie in one 64-byte line of the region: a request of the world of the place, refused where that
world's key slot is empty or destroying. -/
def storeHdm (offset : Nat) (bs : List Byte) (s : State) : State :=
  if offset < 2 ^ 18 then (if slotOpen (offset / 64) s then storeSlot (offset / 64) (offset % 64) bs s else s)
  else if offset < 0x140000 then storeEntries offset bs (blocksOf 16 offset bs.length) s
  else if offset < sharedBase then s
  else match sharedFrame offset s with
    | some (w, frame) => (s.storeBytes ⟨w, none⟩ 0 [(paDevice (frame + offset % 2 ^ 16), bs)]).1
    | none => s.logEvent (.unbackedHost offset)

def storeHdmLines : List (Nat × List Byte) → State → State
  | [], s => s
  | (o, bs) :: r, s => storeHdmLines r (storeHdm o bs s)

/-- What the region holds at `n` bytes that lie in one 64-byte line, as the world of the place opens them: zeros in the reserved part
and where no frame backs shared memory, nothing where the data is refused. -/
def readHdm (offset n : Nat) (s : State) : Option (List Byte) :=
  if offset < 2 ^ 18 then (if slotOpens (offset / 64) s then some (s.readMem (paHdm offset) n) else none)
  else if offset < 0x140000 then
    (if (blocksOf 16 offset n).all fun e => compOpens ((16 * e - 2 ^ 18) / 16) s then some (s.readMem (paHdm offset) n) else none)
  else match (if offset < sharedBase then none else sharedFrame offset s) with
    | none => some (List.replicate n 0)
    | some (w, frame) =>
      let pa := paDevice (frame + offset % 2 ^ 16)
      if (s.readFault ⟨w, none⟩ pa n).isNone then some (s.readMem pa n) else none

/-- The part of [a, a + n) that lies in line `l`. -/
def partInLine (a n l : Nat) : Nat × Nat := (max a (l * 64), min (a + n) (l * 64 + 64) - max a (l * 64))

/-- The data of a host read: that of all its lines. -/
def readHdmLines (offset n : Nat) (s : State) : Option (List Byte) :=
  ((blocksOf 64 offset n).mapM fun l => readHdm (partInLine offset n l).1 (partInLine offset n l).2 s).map (·.flatten)

/-- The first bytes that an access reaches in each 64 KiB of shared memory that no frame backs. -/
def unbackedIn (offset n : Nat) (s : State) : List Nat :=
  ((blocksOf (2 ^ 16) offset n).filter fun f => decide (sharedBase ≤ f * 2 ^ 16) && (sharedFrame (f * 2 ^ 16) s).isNone).map
    fun f => max offset (f * 2 ^ 16)

/-- A host read of the region (R404): its data goes to the host, and each part that no frame backs is logged. -/
def hostRead (offset n : Nat) (s : State) : State :=
  (unbackedIn offset n s).foldl (fun u o => u.logEvent (.unbackedHost o)) (s.modHub fun h => { h with hostReply := readHdmLines offset n s })

/-- A host access to shared memory waits at a line that a sweep or a repair holds (R339, R391). -/
def hostHeld (acc : HostAccess) (s : State) : Bool :=
  let n := match acc.write with
    | some bs => bs.length
    | none => acc.len
  acc.target == .hdm && decide (7 ≤ s.hub.stage) && (blocksOf 64 acc.offset n).any fun l =>
    decide (sharedBase ≤ l * 64) && (sharedFrame (l * 64) s).any fun x => s.lineHeld (paDevice (x.2 + l * 64 % 2 ^ 16))

/-- HOST_MEMORY_ACCESS (R273, R404): before stage 7 an access to the region is a CXL error and nothing else. One that must wait stays
the first of the inputs. -/
def execHostMemoryAccess (acc : HostAccess) (s : State) : Out :=
  .next (match acc.target, acc.write with
    | .ownMemory, some bs => (s.pokeMem (paHost acc.offset) bs).clearTags (paHost acc.offset) bs.length
    | .ownMemory, none => s
    | .hdm, w =>
      if s.hub.stage < 7 then s
      else if hostHeld acc s then { s with inputs := .hostMemoryAccess acc :: s.inputs }
      else match w with
        | some bs => storeHdmLines (lineChunks acc.offset bs) s
        | none => hostRead acc.offset acc.len s)

/-! ## Replies and completions (R259, R278, R279) -/

/-- A 16-byte reply or completion record of a world, as one write, sealed under the world's keys. The record of a killed world is written
too (R278); with no keys left nothing opens it (log entry 57). -/
def writeRecord (w entry : Nat) (bs : List Byte) (s : State) : State :=
  (s.pokeMem (completionPa entry) bs).modHub fun h => { h with
    compWorld := NMap.set h.compWorld (entry % 65536) ⟨w, (s.keyAt w (completionPa entry)).getD 0⟩ }

def counterReply (w offset : Nat) (value : Word64) (status : Nat) (s : State) : State :=
  writeRecord w (offset / 16) (toLe 8 value.toNat ++ toLe 1 status ++ toLe 7 0) s

def completionBytes (go : Word64) (status exit_ : BitVec 8) (now : Nat) : List Byte :=
  toLe 8 go.toNat ++ [status, exit_] ++ toLe 6 now

/-- The oldest record of a slot that the dispatcher holds with a type, and the state without it, its go word cleared. -/
def takeRecord (slot : Nat) (ok : Nat → Bool) (s : State) : Option (List Byte × State) :=
  match s.hub.goPending.find? fun r => r.slot == slot && ok (cardNat r.bytes 0 1) with
  | some r => some (r.bytes, (clearGo slot s).modHub fun h => { h with goPending := h.goPending.filter fun x => x != r })
  | none => none

/-- The partition to which a slot is assigned. -/
def slotPartition (slot : Nat) (s : State) : Nat := (NMap.get? s.hub.slotPart slot).getD 0

def slotWorld (slot : Nat) (s : State) : Nat := (s.part (slotPartition slot s)).world

/-! ## Counter records (R259) -/

/-- The line of a counter record, or the status that its reply shows. A line that cannot be opened counts as no counter line
(log entry 26). -/
def recordLine (w : Nat) (bs : List Byte) (s : State) : Nat ⊕ Nat :=
  match NMap.get? (s.world w).ctrHandles (cardNat bs 8 8) with
  | none => .inr 3
  | some h => if (ctrRefusal ⟨w, none⟩ h.pa s).isSome then .inr 4 else .inl h.pa

/-- The home of a line answers now: a peer is reached (R260), no sweep and no repair makes the request wait. -/
def homeAnswers (pa : Nat) (s : State) : Bool := s.pathReaches pa && !s.lineHeld pa

/-- A wait is entered also where no path reaches its home: its limit runs meanwhile (R259, R260). -/
def waitAnswers (pa : Nat) (s : State) : Bool := !s.lineHeld pa

/-- The line of the oldest such record of a slot answers, where it names one. -/
def recordAnswers (answers : Nat → State → Bool) (slot : Nat) (bs : List Byte) (s : State) : Bool :=
  (NMap.get? (s.world (slotWorld slot s)).ctrHandles (cardNat bs 8 8)).all fun h => answers h.pa s

/-- The reply of an add record: a release at `.sys`; an add past 2^64 - 1 changes nothing. -/
def addRecord (w : Nat) (bs : List Byte) (t : State) : State :=
  let at_ := cardNat bs 32 8
  match recordLine w bs t with
  | .inr status => counterReply w at_ 0 status t
  | .inl pa =>
    let r := lineAdd ⟨w, none⟩ pa (BitVec.ofNat 64 (cardNat bs 16 8)) t
    if r.fault = 0 then counterReply w at_ r.result 0 r.state else counterReply w at_ (BitVec.ofNat 64 (t.readNat pa 8)) 2 t

/-- A wait of the host at a home. -/
def hostWait (w pa : Nat) (bs : List Byte) (t : State) : HostWait :=
  let limit := cardNat bs 24 8
  ⟨t.nextId, pa, BitVec.ofNat 64 (cardNat bs 16 8), if limit = 0 then none else some (t.now + limit), cardNat bs 32 8, w, .held⟩

/-- A wait record: answered at once where its home can, or entered there. -/
def waitRecord (w : Nat) (bs : List Byte) (t : State) : State :=
  let at_ := cardNat bs 32 8
  match NMap.get? (t.world w).ctrHandles (cardNat bs 8 8) with
  | none => counterReply w at_ 0 3 t
  | some h =>
    let x := hostWait w h.pa bs t
    match lineVerdict ⟨w, none⟩ h.pa x.thr t with
    | .broken _ => counterReply w at_ 0 4 t
    | .met v => counterReply w at_ v 0 t
    | _ => { t with hostWaits := t.hostWaits ++ [x], nextId := t.nextId + 1 }

/-- The oldest counter record of a type in a slot, served once its line answers. -/
def tryCounterRecord (type slot : Nat) (answers : Nat → State → Bool) (serve : Nat → List Byte → State → State) (s : State) : Option State :=
  ((takeRecord slot (· == type) s).filter fun x => recordAnswers answers slot x.1 x.2).map fun x => serve (slotWorld slot x.2) x.1 x.2

/-- COUNTER_RECORD_ADD. -/
def execCounterRecordAdd (slot : Nat) (s : State) : Out := happen (tryCounterRecord 2 slot homeAnswers addRecord s) s

/-- COUNTER_RECORD_WAIT. -/
def execCounterRecordWait (slot : Nat) (s : State) : Out := happen (tryCounterRecord 3 slot waitAnswers waitRecord s) s

def tryInvalidRecordType (slot : Nat) (s : State) : Option State :=
  (takeRecord slot (fun n => n != 1 && n != 2 && n != 3) s).map fun x => x.2.logEvent (.unknownType slot)

/-- INVALID_RECORD_TYPE (R273): cleared and logged. -/
def execInvalidRecordType (slot : Nat) (s : State) : Out := happen (tryInvalidRecordType slot s) s

/-- What a host's wait is answered with: its home's verdict, in its place of the line's list, or its limit. -/
def hostWaitAnswer (x : HostWait) (s : State) : Option (Word64 × Nat) :=
  match (judgeHostWait s x).verdict with
  | .met v => if lineBefore x.pa (hostKey x) s then none else some (v, 0)
  | .broken _ => some (0, 4)
  | .expired v => some (v, 1)
  | .held => if x.limit.any fun l => decide (l ≤ s.now) then some (lineExpiry x.pa x.thr s, 1) else none

def tryHostWaitReply (id : Nat) (s : State) : Option State :=
  (s.hostWaits.find? fun x => x.id == id).bind fun x =>
    (hostWaitAnswer x s).map fun a =>
      counterReply x.world x.reply a.1 a.2 { s.nextTick with hostWaits := s.hostWaits.filter fun y => y.id != id }

/-- HOST_WAIT_REPLY: the wait is met, its limit has passed, or its line stopped being a counter line while it was held. -/
def execHostWaitReply (id : Nat) (s : State) : Out := happen (tryHostWaitReply id s) s

/-! ## Launch records (R274-R278) -/

/-- The fields of a launch record. -/
structure LaunchReq where
  slot : Nat
  cls : BitVec 2
  record : Bool
  paired : Bool
  restartable : Bool
  prio : Nat
  n : Nat
  swspan : Nat
  prog : Nat
  entry : Nat
  args : Nat
  clmask : Nat
  allot : Nat
  clmem : Nat
  start : Nat
  done : Nat
  target : Nat
  cpos : Nat
  go : Word64

def launchReq (slot : Nat) (bs : List Byte) : LaunchReq :=
  let ctl := cardNat bs 1 1
  { slot, cls := BitVec.ofNat 2 (ctl / 64), record := ctl.testBit 5, paired := ctl.testBit 4, restartable := ctl.testBit 3, prio := ctl % 8,
    n := cardNat bs 2 2, swspan := cardNat bs 4 4, prog := cardNat bs 8 4, entry := cardNat bs 12 4, args := cardNat bs 16 8,
    clmask := cardNat bs 24 8, allot := cardNat bs 32 6, clmem := cardNat bs 38 2, start := cardNat bs 40 4, done := cardNat bs 44 4,
    target := cardNat bs 48 4, cpos := cardNat bs 52 4, go := BitVec.ofNat 64 (cardNat bs 56 8) }

/-- The clusters that receive roots, rising (R275, R277); no launch runs in world 0 (R333). -/
def eligible (p : Nat) (r : LaunchReq) (s : State) : List Nat :=
  (List.range 64).filter fun c => (s.part p).world != 0 && r.clmask.testBit c && (s.part p).clusters.contains c && classMatches r.cls c && offersSlots c s

/-- The lowest run of free units of a cluster (R278). -/
def freeRun (c n : Nat) (s : State) : Option Nat :=
  firstIdx (257 - n) fun u => (s.cluster c).allocs.all fun x => decide (u + n ≤ x.unit) || decide (x.unit + x.count ≤ u)

/-- Where the roots' clusters give them memory; none where some cluster has no run. -/
def placeMemory (n : Nat) (s : State) : List Nat → Option (List (Nat × Nat))
  | [] => some []
  | c :: r =>
    match freeRun c n s, placeMemory n s r with
    | some u, some l => some ((c, u) :: l)
    | _, _ => none

/-- One argument register of an entry. -/
def argReg (w : World) (bs : List Byte) (j : Nat) : Option Cap :=
  if (cardNat bs 112 2).testBit j then NMap.get? w.capHandles (cardNat bs (16 * j) 8)
  else some ⟨BitVec.ofNat 128 (cardNat bs (16 * j) 16), false⟩

/-- The registers a4 to a10 of an entry; none where a handle names nothing. -/
def argRegs (w : World) (bs : List Byte) : Option (List Cap) := (List.range 7).mapM (argReg w bs)

/-- An entry of the argument block that cannot be read, or names a handle that names nothing. -/
def badEntry {α : Type} : Res α := raise 0 0

/-- One entry of the argument block (R276). -/
def readEntry (who : Who) (a : Nat) (s : State) : Res (List Cap × State) := do
  require (decide (a + 128 ≤ 2 ^ 52)) 0 0
  let (ps, t) ← State.translatePieces s who 2 needLoad (piecesAt (pageStep 2) a 128)
  require (t.piecesFault ⟨who.world, none⟩ a ps).isNone 0 0
  match argRegs (t.world who.world) (t.readPieces ps) with
  | some l => .ok (l, t)
  | none => badEntry

/-- Read the entries of the argument block (R276). -/
def readArgs (who : Who) (args : Nat) : Nat → Nat → State → Res (List (List Cap) × State)
  | _, 0, s => .ok ([], s)
  | i, n + 1, s => do
    let (l, t) ← readEntry who (args + 128 * i) s
    let (r, u) ← readArgs who args (i + 1) n t
    .ok (l :: r, u)

/-- The entry point lies in the code object. -/
def entryAddr (c : Cap) (entry : Nat) : Word64 := BitVec.ofNat 64 (c.base.toNat + 4 * entry)
def entryInside (c : Cap) (entry : Nat) : Bool := c.boundsOk && decide (c.base + 4 * entry + 4 ≤ c.top)

/-- What a launch needs once its record has passed R275. -/
structure LaunchPlan where
  prog : Prog
  startPa : Nat
  donePa : Nat
  args : List (List Cap)
  clusters : List Nat
  places : List (Nat × Nat)
  state : State

/-- The status of a record that fails, or the plan. -/
abbrev LaunchCheck := Nat ⊕ LaunchPlan

/-- Every receiving cluster has a second one for the members of redundant pairs (R388, log entry 25). -/
def pairsFit (p : Nat) (r : LaunchReq) (cl : List Nat) (s : State) : Bool :=
  !r.paired || cl.all fun c => (pairCluster p 1 r.cls c s).isSome

/-- Check 3 of R275: clusters, and memory in each. -/
def checkPlacement (p : Nat) (r : LaunchReq) (g : Prog) (a b : CtrHandle) (args : List (List Cap)) (s : State) : LaunchCheck :=
  let cl := eligible p r s
  if cl.isEmpty || !pairsFit p r (cl.take r.n) s then .inl 3
  else match (if r.clmem = 0 then some [] else placeMemory r.clmem s (cl.take r.n)) with
    | none => .inl 3
    | some places => .inr ⟨g, a.pa, b.pa, args, cl, places, s⟩

/-- The checks of R275, in order: the status of the first failure, or the plan. The launch waits where the argument block does. -/
def checkLaunch (w p : Nat) (r : LaunchReq) (s : State) : Res LaunchCheck :=
  if r.n = 0 ∨ 8192 < r.n ∨ r.cls = 3 ∨ 256 < r.clmem then .ok (.inl 1)
  else match NMap.get? (s.world w).progs r.prog, NMap.get? (s.world w).ctrHandles r.start, NMap.get? (s.world w).ctrHandles r.done with
    | some g, some a, some b =>
      if !entryInside g.code r.entry then .ok (.inl 2)
      else match (if r.args = 0 then .ok (List.replicate r.n [], s) else readArgs ⟨w, g.domain⟩ r.args 0 r.n s) with
        | .error (.hold f) => .error (.hold f)
        | .error (.fault _) => .ok (.inl 2)
        | .ok (args, t) => .ok (checkPlacement p r g a b args t)
    | _, _, _ => .ok (.inl 2)

/-- A LOCAL capability with R, W, LC, SC and CT over a run of units. -/
def localCap (c unit count gen : Nat) : Cap :=
  let lo := c * 2 ^ 24 + unit * 2 ^ 16
  let hi := lo + count * 2 ^ 16
  let e := (boundExpo lo hi).getD 0
  ⟨capBits 1 0x03B (BitVec.ofNat 12 gen) (BitVec.ofNat 6 e) (BitVec.ofNat 17 (lo / 2 ^ e)) (BitVec.ofNat 17 ((hi - lo) / 2 ^ e))
    (BitVec.ofNat 64 lo), true⟩

/-- SWMASKn of a root (R277). -/
def rootMasks (swspan : Nat) : Vector SwMask 16 :=
  (Vector.replicate 16 SwMask.none).mapIdx fun n _ =>
    let sp : BitVec 2 := BitVec.ofNat 2 (swspan / 4 ^ n)
    ⟨sp, sp != 0, false⟩

/-- A root is a member of its groups from its creation on. -/
def rootTrees (swspan : Nat) : Vector SwTree 16 := (rootMasks swspan).map fun m => ⟨m.member, none⟩

/-- The registers of a root. -/
def rootRegs (mem root : Cap) (args : List Cap) : Vector Cap 32 :=
  (Vector.replicate 32 Cap.null).mapIdx fun k _ =>
    if k = 2 then mem else if k = 3 then root else if 4 ≤ k ∧ k < 11 then (args[k - 4]?).getD Cap.null else Cap.null

/-- Root i of a launch (R277). Its first word is no word that a transfer lands on: R381's list of transfers does not name the
start of a thread (DEDUCED, log entry 70). -/
def rootThread (w p id i : Nat) (r : LaunchReq) (q : LaunchPlan) (s : State) : Thread :=
  let c := (q.clusters[i % q.clusters.length]?).getD 0
  let dom := (s.world w).dom q.prog.domain
  let mem := match q.places.find? fun x => x.1 == c with
    | some (_, u) => localCap c u r.clmem (dom.gen % 4096)
    | none => Cap.null
  let ctx : Ctx := { Ctx.empty with
    code := q.prog.code.setCursor (entryAddr q.prog.code r.entry), regs := rootRegs mem dom.root ((q.args[i]?).getD [])
    swmask := rootMasks r.swspan, swtree := rootTrees r.swspan, domain := q.prog.domain, allot := r.allot }
  { Thread.vacant with
    world := w, baseDomain := q.prog.domain, part := p, launch := some id, status := .ready, level := 1,
    cls := r.cls, named := c, cluster := c, record := r.record, paired := r.paired, restartable := r.restartable, prio := r.prio, effLevel := r.prio,
    spanPlace := c, task := freshTask r.restartable ctx, ctx }

/-- Create roots; each takes a reference of its own, and enters the domain in the generation that it has now. -/
def createRoots : List Thread → State → State
  | [], s => s
  | h :: r, s =>
    createRoots r (addThread { h with
      cref := BitVec.ofNat 64 s.nextId, ctx := { h.ctx with dgen := ((s.world h.world).dom h.ctx.domain).gen } } s)

/-- The allocations of a launch (R278). -/
def allocate (w dom id n : Nat) : List (Nat × Nat) → State → State
  | [], s => s
  | (c, u) :: r, s => allocate w dom id n r (s.modCluster c fun x => { x with allocs := x.allocs ++ [⟨u, n, w, dom, id⟩] })

/-- The partition's step records where a launch has created roots, its first or further ones (R384, R385): a partition that had no
live continuation opens a new step, and reports still held are made; another loses its step, and its records where the launch is not
RESTARTABLE. -/
def launchStep (p : Nat) (first idle restartable : Bool) (s : State) : State :=
  let t := s.modPart p fun x => { x with
    launches := if first then x.launches + 1 else x.launches, stepNo := if idle ∧ x.launches ≠ 0 then x.stepNo + 1 else x.stepNo }
  if idle then openStep p (releaseReports (t.part p).reports t)
  else t.modPart p fun x => { x with restartable := false, keeps := x.keeps && restartable }

/-- A launch goes on: roots are created while the world is below its continuation limit (R286); after the last of them the start
counter is added to, once its home answers (R278, R260). -/
def advanceLaunch (l : Launch) (s : State) : State :=
  let room := (s.world l.world).contLimit - contClaims l.world s
  let born := l.todo.take room
  let t0 := createRoots born s
  let t := if born.isEmpty then t0
    else launchStep l.part (l.todo.length == l.roots) (membersOf l.part s).isEmpty l.restartable t0
  let left := l.todo.drop room
  let start := left.isEmpty && homeAnswers l.startPa t
  let u := if start then (lineAdd ⟨l.world, none⟩ l.startPa (BitVec.ofNat 64 l.roots) t).state else t
  { u with launches := u.launches.map fun x => if x.id = l.id then { x with todo := left, started := start } else x }

/-- A launch whose checks have passed: memory, roots, the start counter, the wait on the done counter. -/
def performLaunch (w p : Nat) (r : LaunchReq) (q : LaunchPlan) : State :=
  let s := q.state
  let id := s.nextId
  let l : Launch :=
    { id, slot := r.slot, roots := r.n, startPa := q.startPa, todo := (List.range r.n).map fun i => rootThread w p id i r q s, started := false
      go := r.go, world := w, domain := q.prog.domain, part := p, restartable := r.restartable, donePa := q.donePa,
      target := r.target, cpos := r.cpos, firstExit := 0, status := none, written := false }
  advanceLaunch l (allocate w q.prog.domain id r.clmem q.places { s with launches := s.launches ++ [l], nextId := s.nextId + 1 })

/-- The record is held (R280, R301): its partition is switched out, or the world is at its continuation limit. -/
def holdRecord (slot : Nat) (bs : List Byte) (s : State) : State := s.modHub fun h => { h with held := h.held ++ [⟨slot, bs⟩] }

/-- The launch path over a record taken from its slot: it waits while its partition is switched out or its arguments cannot be read
yet. -/
def tryLaunch (slot : Nat) (bs : List Byte) (s : State) : Res State :=
  let p := slotPartition slot s
  let w := (s.part p).world
  let r := launchReq slot bs
  if !matrixRuns p s then .error (.hold id)
  else do
    match ← checkLaunch w p r s with
    | .inl status => .ok (writeRecord w r.cpos (completionBytes r.go (BitVec.ofNat 8 status) 0 s.now) s)
    | .inr q => .ok (performLaunch w p r q)

/-- A launch that has still to create roots or to add to its start counter, and can. -/
def canAdvance (l : Launch) (s : State) : Bool :=
  !l.started && matrixRuns l.part s
    && (if l.todo.isEmpty then homeAnswers l.startPa s else decide (contClaims l.world s < (s.world l.world).contLimit))

/-- A record that is held is performed when it can be; a launch that waits goes on. -/
def tryHeldLaunch (slot : Nat) (s : State) : Option State :=
  match s.hub.held.find? fun x => x.slot == slot with
  | some x =>
    match tryLaunch slot x.bytes (s.modHub fun h => { h with held := h.held.filter fun y => y != x }) with
    | .ok t => some t
    | .error (.hold f) => if matrixRuns (slotPartition slot s) s then some (s.heldBy f) else none
    | .error (.fault _) => none
  | none => (s.launches.find? fun l => l.slot == slot && canAdvance l s).map fun l => advanceLaunch l s

def tryLaunchRecord (slot : Nat) (s : State) : Option State :=
  match takeRecord slot (· == 1) s with
  | some (bs, t) => some (match tryLaunch slot bs t with
    | .ok u => u
    | .error (.hold f) => (holdRecord slot bs t).heldBy f
    | .error (.fault _) => t)
  | none => tryHeldLaunch slot s

/-- LAUNCH_RECORD (R273-R281): a record from the window is performed or held; a held one is performed when it can be; a launch at the
world's limit creates its further roots. -/
def execLaunchRecord (slot : Nat) (s : State) : Out := happen (tryLaunchRecord slot s) s

/-! ## The end of a launch (R278) -/

/-- The STATUS of a live continuation (R278). -/
def liveStatus (x : Status) : Bool := x == .ready || x == .running || x == .waiting || x == .gated || x == .faulted

/-- A live continuation of a launch, in whatever partition it stands by now, or in an image (R373, R374). -/
def launchLives (l : Launch) (s : State) : Bool :=
  (s.threads.any fun h => h.launch == some l.id && liveStatus h.status) || (s.world l.world).images.any fun x => x.2.launch == some l.id

/-- The launch has no live continuation and none to create; where step records are kept, one that exited in the step still counts
(R291). -/
def launchOver (l : Launch) (s : State) : Bool :=
  l.todo.isEmpty && !launchLives l s && !s.parts.any fun p => p.2.exited.any fun h => h.launch == some l.id

/-- The done counter has reached TARGET. -/
def doneReached (l : Launch) (s : State) : Bool :=
  homeAnswers l.donePa s && s.isCounterLine l.donePa && decide (l.target ≤ s.readNat l.donePa 8)

/-- The status of a launch as its homes stand now (R278): done once the counter has reached TARGET, ended short with the last live
continuation. -/
def launchStatus (l : Launch) (s : State) : Option (BitVec 8) :=
  match l.status with
  | some x => some x
  | none => if !l.started then none else if doneReached l s then some 0 else if launchOver l s then some 6 else none

/-- Each step ends with the launches' statuses decided: what comes after the last live continuation's end changes none. -/
def judgeLaunches (s : State) : State := { s with launches := s.launches.map fun l => { l with status := launchStatus l s } }

/-- The domain that held a run of units last. -/
def leaveUnits (x : Alloc) (m : NMap Nat) : NMap Nat := (List.range x.count).foldl (fun n i => NMap.set n (x.unit + i) x.domain) m

/-- The cluster memory of a launch is zeroed and freed; a capability that outlives it is still of the generation of its domain (R309,
log entry 34). -/
def freeAllocs (id : Nat) : List Nat → State → State
  | [], s => s
  | c :: r, s =>
    let mine := (s.cluster c).allocs.filter fun x => x.launch == id
    let t := mine.foldl (fun u x => u.zeroFill (paLocal (c * 2 ^ 24 + x.unit * 2 ^ 16)) (x.count * 2 ^ 16)) s
    freeAllocs id r (t.modCluster c fun y => { y with
      allocs := y.allocs.filter fun x => x.launch != id, former := mine.foldl (fun m x => leaveUnits x m) y.former })

/-- The launch is gone once its record is written and none of its continuations lives; its sward groups go with it. -/
def closeLaunch (id : Nat) (s : State) : State :=
  { freeAllocs id (s.clusters.map (·.1)) s with
    launches := s.launches.filter fun l => l.id != id, swards := s.swards.filter fun x => x.1.launch != id
    leavers := s.leavers.filter fun x => x.key.launch != id }

/-- The record of a launch is written. -/
def writeCompletion (l : Launch) (st : BitVec 8) (s : State) : State :=
  let t := writeRecord l.world l.cpos (completionBytes l.go st l.firstExit s.now) s
  { t with launches := t.launches.map fun x => if x.id = l.id then { x with written := true } else x }

def tryCompletionRecord (id : Nat) (s : State) : Option State :=
  (s.launches.find? fun l => l.id == id).bind fun l =>
    if l.written then (if launchOver l s then some (closeLaunch id s) else none)
    else (launchStatus l s).map fun st =>
      let u := writeCompletion l st s
      if launchOver l u then closeLaunch id u else u

/-- COMPLETION_RECORD (R278, R279): the record, once; the memory, once no continuation lives. -/
def execCompletionRecord (id : Nat) (s : State) : Out := happen (tryCompletionRecord id s) s

end Sys2Proof.Machine
end

