-- ==== Sys2Proof/Machine/Hints.lean ====
section
/-! DEFINITION. The hint region and the word that is no instruction (03_encoding R74, R75; 19_traps R380, R381). Hint words
change nothing but the program counter, and no lookahead window counts them (R93); the checker meets them at the fetch. -/

namespace Sys2Proof.Machine

open Sys2Proof

/-- A hint word counts in the checker's block with its bits; what the next word owes the checker after a transfer is still owed, for a
hint word raises no fault (R74, R381, log entry 73). -/
def hintChecked (s : State) : State :=
  s.modCtx fun c =>
    let d := State.checkedCtx c
    { d with checker := { d.checker with landed := c.checker.landed } }

/-- A hint word ends: the thread goes on at the next word; no window counts it, the checker's block does. -/
def retireHint (s : State) : Out := .next (hintChecked s.advance)

def execNop (s : State) : Out := retireHint s

/-- `hint n`: the payload has no effect. -/
def execHint (_p : BitVec 26) (s : State) : Out := retireHint s

/-- The checker loads a `sig` word: CRC and LEN, and the place of the word (R380, R381). -/
def loadSig (crc : BitVec 20) (len : BitVec 6) (s : State) : State :=
  s.modCtx fun c => { c with checker :=
    { inBlock := true, crc := 0xFFFFF, want := crc, left := len.toNat, sigPc := s.pc, landed := false } }

/-- `sig`: where SIGCTL.CHECK is set the checker takes it up; outside the checker it is a no-operation.
A block of no words whose CRC is not that of no words is a mismatch at once. -/
def execSig (crc : BitVec 20) (len : BitVec 6) (s : State) : Out :=
  if (s.world s.thr.world).sigCheck then
    (if len = 0 ∧ crc ≠ 0xFFFFF then s.finish (raise 0x41 s.pc) else .next (loadSig crc len s).advance)
  else retireHint s

/-- ILLEGAL_INSTRUCTION (R75): the word faults 0x01 with TRAPADDR 0 and has no other effect. -/
def execIllegalInstruction (s : State) : Out := s.finish (raise 0x01 0)

end Sys2Proof.Machine
end

