-- ==== Sys2Proof/Machine/IntAlu.lean ====
section
/-! DEFINITION. The integer words of the access half (06_access R123, R124). -/

namespace Sys2Proof.Machine

open Sys2Proof

/-- An integer word: it writes its result untagged and the next word follows; no flag, no fault (R123). -/
def intWord (d : RegNum) (v : Word64) (s : State) : Out := s.finish (.ok (s.writeInt d v).advance)

/-- The second operand of major 0x01: aB shifted left by S. -/
def shiftedB (sh : BitVec 4) (b : RegNum) (s : State) : Word64 := s.int b <<< sh.toNat

/-- The operand of major 0x02: IMM13 sign-extended. -/
def immB (i : BitVec 13) : Word64 := i.signExtend 64

/-- Bits [127:64] of the signed product. -/
def mulHigh (x y : Word64) : Word64 := BitVec.ofInt 64 (x.toInt * y.toInt / 2 ^ 64)

/-- A truth value as a register value. -/
def truth (p : Bool) : Word64 := if p then 1 else 0

def execAdd (sh : BitVec 4) (b a d : RegNum) (s : State) : Out := intWord d (s.int a + shiftedB sh b s) s
def execSub (sh : BitVec 4) (b a d : RegNum) (s : State) : Out := intWord d (s.int a - shiftedB sh b s) s
def execMul (b a d : RegNum) (s : State) : Out := intWord d (s.int a * s.int b) s
def execMulh (b a d : RegNum) (s : State) : Out := intWord d (mulHigh (s.int a) (s.int b)) s
def execAnd (sh : BitVec 4) (b a d : RegNum) (s : State) : Out := intWord d (s.int a &&& shiftedB sh b s) s
def execOr (sh : BitVec 4) (b a d : RegNum) (s : State) : Out := intWord d (s.int a ||| shiftedB sh b s) s
def execXor (sh : BitVec 4) (b a d : RegNum) (s : State) : Out := intWord d (s.int a ^^^ shiftedB sh b s) s

/-- A shift word uses only bits [5:0] of its count. -/
def shiftCount (x : Word64) : Nat := x.toNat % 64

def execShl (b a d : RegNum) (s : State) : Out := intWord d (s.int a <<< shiftCount (s.int b)) s
def execShr (b a d : RegNum) (s : State) : Out := intWord d (s.int a >>> shiftCount (s.int b)) s
def execSra (b a d : RegNum) (s : State) : Out := intWord d ((s.int a).sshiftRight (shiftCount (s.int b))) s

def execMin (sh : BitVec 4) (b a d : RegNum) (s : State) : Out :=
  intWord d (if (s.int a).slt (shiftedB sh b s) then s.int a else shiftedB sh b s) s
def execMax (sh : BitVec 4) (b a d : RegNum) (s : State) : Out :=
  intWord d (if (s.int a).slt (shiftedB sh b s) then shiftedB sh b s else s.int a) s
def execSlt (sh : BitVec 4) (b a d : RegNum) (s : State) : Out := intWord d (truth ((s.int a).slt (shiftedB sh b s))) s
def execSlo (sh : BitVec 4) (b a d : RegNum) (s : State) : Out := intWord d (truth ((s.int a).ult (shiftedB sh b s))) s

def execAddi (i : BitVec 13) (a d : RegNum) (s : State) : Out := intWord d (s.int a + immB i) s
def execAndi (i : BitVec 13) (a d : RegNum) (s : State) : Out := intWord d (s.int a &&& immB i) s
def execOri (i : BitVec 13) (a d : RegNum) (s : State) : Out := intWord d (s.int a ||| immB i) s
def execXori (i : BitVec 13) (a d : RegNum) (s : State) : Out := intWord d (s.int a ^^^ immB i) s
def execShli (i : BitVec 6) (a d : RegNum) (s : State) : Out := intWord d (s.int a <<< i.toNat) s
def execShri (i : BitVec 6) (a d : RegNum) (s : State) : Out := intWord d (s.int a >>> i.toNat) s
def execSrai (i : BitVec 6) (a d : RegNum) (s : State) : Out := intWord d ((s.int a).sshiftRight i.toNat) s
def execSlti (i : BitVec 13) (a d : RegNum) (s : State) : Out := intWord d (truth ((s.int a).slt (immB i))) s

/-- `ahi`: IMM21 sign-extended, times 2^13 (R124). -/
def execAhi (i : BitVec 21) (d : RegNum) (s : State) : Out := intWord d (i.signExtend 64 <<< 13) s

end Sys2Proof.Machine
end

