-- ==== Sys2Proof/Machine/Translation.lean ====
section
/-! DEFINITION. Answers and invalidations of translation: ATS and PRI, host invalidations, changed table entries, freed frames
(06_access R142, 17_worlds R343-R346). -/

namespace Sys2Proof.Machine

open Sys2Proof

/-- A job that has paused, with its record written, for a host page. -/
def pausedOn (pasid page : Nat) (j : Job) (s : State) : Bool :=
  j.state == .paused && !j.owed && j.fault == 0x11 && ((s.world j.world).dom j.domain).pasid == pasid && j.faultAddr.toNat / hostPage == page

/-- A paused job of a failed page ends FAULTED 0x12 (R345). -/
def failJob (pasid page : Nat) (put : Job → State → State) (c e : Nat) (j : Job) (s : State) : State :=
  if pausedOn pasid page j s then stopJob put c e j j.faultKind (plainFault 0x12 j.faultAddr) s else s

def resumeOn (pasid page : Nat) (put : Job → State → State) (_c _e : Nat) (j : Job) (s : State) : State :=
  if pausedOn pasid page j s then put (resumeJob j) s else s

/-- A page request is answered: a request of the PASID that waits for room goes out (R344). -/
def endPri (key : Nat × Nat) (h : Hub) : Hub :=
  let x := { h with priOut := h.priOut.filter (· != key) }
  match x.priQueue.find? (·.1 == key.1) with
  | some k => { x with priQueue := x.priQueue.erase k, priOut := x.priOut ++ [k] }
  | none => x

/-- The hub forgets the "not present" answers and the failures of a page. -/
def forgetPage (key : Nat × Nat) (h : Hub) : Hub :=
  { h with noAnswer := h.noAnswer.filter (· != key), priFailed := h.priFailed.filter (· != key) }

/-- An answer to no outstanding request is discarded (R354). It reaches every job that has paused on the page, those of a partition
that is switched out too. -/
def tryPriResponse (pasid page : Nat) (code : PriCode) (s : State) : Option State :=
  let key := (pasid, page)
  if !s.hub.priOut.contains key then none
  else
    let t := s.modHub (endPri key)
    match code with
    | .success => some (everyJob (resumeOn pasid page) (t.modHub (forgetPage key)))
    | _ => some (everyJob (failJob pasid page) (t.modHub fun h => { h with priFailed := h.priFailed.filter (· != key) ++ [key] }))

/-- PRI_RESPONSE (R345). -/
def execPriResponse (pasid page : Nat) (code : PriCode) (s : State) : Out := happen (tryPriResponse pasid page code s) s

/-- The threads whose access waits for the answer note its arrival (R393). -/
def noteAnswers (pasid page : Nat) : List Thread → State → State
  | [], s => s
  | h :: r, s => noteAnswers pasid page r
    (if h.stall = some (.ats pasid page) then s.noteArrival h.tid (.answer page) else s)

/-- The record mode of a thread that waits for the answer takes others first (R393). -/
def answerHeld (pasid page : Nat) (s : State) : Bool :=
  !s.hub.atsStale.contains (pasid, page) && s.hub.atsOut.contains (pasid, page) && s.threads.any fun h => h.stall == some (.ats pasid page) && s.arrivalHeld h.tid (.answer page)

/-- An answer to no outstanding request is ignored, and so is that to a request which an invalidation or a kill has overtaken: the host
answers its requests for one page in the order in which they came (PRESUMED, log entry 90). -/
def tryAtsResponse (pasid page : Nat) (answer : AtsAnswer) (s : State) : Option State :=
  let key := (pasid, page)
  if s.hub.atsStale.contains key then some (s.modHub fun h => { h with atsStale := h.atsStale.erase key })
  else if !s.hub.atsOut.contains key then none
  else
    let t := noteAnswers pasid page s.threads (s.modHub fun h => { h with atsOut := h.atsOut.filter (· != key) })
    match answer with
    | .translation frame r w =>
      some (t.modHub fun h => { forgetPage key h with
        atc := ⟨pasid, page, frame, r, w⟩ :: h.atc.filter fun e => !(e.pasid == pasid && e.page == page) })
    | .notPresent => some (t.modHub fun h => { h with noAnswer := h.noAnswer.filter (· != key) ++ [key] })

/-- ATS_RESPONSE (R344): the answer to an outstanding request; the accesses that wait for it issue again. One that must wait stays the
first of the inputs. -/
def execAtsResponse (pasid page : Nat) (answer : AtsAnswer) (s : State) : Out :=
  if answerHeld pasid page s then .next { s with inputs := .atsResponse pasid page answer :: s.inputs }
  else happen (tryAtsResponse pasid page answer s) s

/-- ATS_INVALIDATION (R346): the hub's entries go at once, and the answer to a request that is still out may be of the old translation: it
will be ignored, and the access that waits for it asks again (R107, R118). A page request that has failed stays so until the host
maps the page (R345). -/
def execAtsInvalidation (pasid page : Nat) (s : State) : Out :=
  let key := (pasid, page)
  .next (s.modHub fun h => { h with
    atc := h.atc.filter fun e => !(e.pasid == pasid && e.page == page), noAnswer := h.noAnswer.filter (· != key)
    atsOut := h.atsOut.filter (· != key), atsStale := h.atsStale ++ h.atsOut.filter (· == key), invOut := h.invOut ++ [key] })

def tryInvalidationCompletion (pasid page : Nat) (s : State) : Option State :=
  let key := (pasid, page)
  if s.hub.invOut.contains key then some (s.modHub fun h => { h with invOut := h.invOut.erase key }) else none

/-- INVALIDATION_COMPLETION (R346): an access is applied in the step that translates it, so none with the old translation is in
flight between steps. -/
def execInvalidationCompletion (pasid page : Nat) (s : State) : Out := happen (tryInvalidationCompletion pasid page s) s

/-- TRANSLATION_INVALIDATION (R343): Moaly changes the table entry at a physical address of the world's tables. -/
def execTranslationInvalidation (w address : Nat) (entry : Word64) (s : State) : Out :=
  .next (s.setPte w (address / 8 * 8) entry)

/-- Push a zero-filled frame onto its world's stack (R142). -/
def pushFrame (w : Nat) (f : FreeFrame) (s : State) : State :=
  (s.zeroFill (paDevice f.frame) (pageBytes (f.size.toNat + 1))).modWorld w fun x => match f.size.toNat with
    | 0 => { x with free64k := f.frame :: x.free64k }
    | 1 => { x with free32m := f.frame :: x.free32m }
    | _ => { x with free16g := f.frame :: x.free16g }

/-- A frame lies in a channel that a repair holds, or at a sweep pointer: it cannot be zero-filled yet (R339, R391). -/
def frameHeld (f : FreeFrame) (s : State) : Bool := s.fillHeld (paDevice f.frame) (pageBytes (f.size.toNat + 1))

def tryPgfreeFramePush (w : Nat) (s : State) : Option State :=
  match (s.world w).freeing with
  | [] => none
  | f :: r => if frameHeld f s then none else some (pushFrame w f (s.modWorld w fun x => { x with freeing := r }))

/-- PGFREE_FRAME_PUSH (R142): the oldest frame that a `pgfree` released, once its lines can be written. -/
def execPgfreeFramePush (w : Nat) (s : State) : Out := happen (tryPgfreeFramePush w s) s

end Sys2Proof.Machine
end

