-- ==== Sys2Proof/Machine/Kills.lean ====
section
/-! DEFINITION. Domains made and killed, worlds killed, and the homes that acknowledge (05_ordering R106, 11_matrix R239,
16_domains R310, R324, 17_worlds R347). -/

namespace Sys2Proof.Machine

open Sys2Proof

/-! ## Creation (R310, R311) -/

/-- Moaly accepts only gates with ARGW = 1 as trap gates (R328). -/
def trapGateOk (w : Nat) (g : Option Nat) (s : State) : Bool :=
  match g with
  | some k => !((s.world w).gate k).live || ((s.world w).gate k).argw == 1
  | none => true

/-- The entry becomes live; its generation is kept. A free or dead entry needs no more than that no kill of it is running: a thread
that is still in the killed generation is decided by that generation when it comes to its word boundary (DESIGN CHOICE, log entry 83:
the spec gives no condition for making the id live again). The tag of ROOT is set only where the device may set it (R80). -/
def tryDomainCreate (w : Nat) (d : DomainSpec) (s : State) : Option State :=
  let x := (s.world w).dom d.id
  if decide (d.id < 4096) && (x.state == .free || x.state == .dead) && !killRunning w d.id s && trapGateOk w d.trapGate s then
    some (s.modWorld w fun y => y.setDom d.id
      { state := .live, gen := x.gen, trapGate := d.trapGate, ptroot := d.ptroot, root := ⟨d.rootBits, d.rootTag && tagAllowed ⟨d.rootBits, true⟩⟩, pasid := d.pasid })
  else none

/-- DOMAIN_CREATE (R310, R311): Moaly makes a live domain of a free or dead entry. -/
def execDomainCreate (w : Nat) (d : DomainSpec) (s : State) : Out := happen (tryDomainCreate w d s) s

/-! ## The kill (R347) -/

/-- Every home of R347. -/
def allHomes : List Home := [.hbm, .expanders, .clusterMemories, .hostPort, .matrixUnits, .counterHomes, .translationCaches]

/-- A kill of a world, or of one of its domains, covers a domain. -/
def covers (k : Kill) (w d : Nat) : Bool := k.world == w && (k.domain == none || k.domain == some d)

/-- The jobs that a killed domain submitted end FAULTED with code 0x06 and no record (R155), those of a partition that is switched out
too. -/
def endCovered (k : Kill) (j : Job) : Job := if covers k j.world j.domain && jobLive j then endJob j else j

def endKilledJob (k : Kill) (c e : Nat) (j : Job) (s : State) : State := setJob c e (endCovered k j) s

def endSaved (k : Kill) (s : State) : State :=
  { s with parts := s.parts.map fun p => (p.1, { p.2 with savedJobs := p.2.savedJobs.map fun x => { x with job := endCovered k x.job } }) }

/-- The thread has no live caller to go to: a GATED one never has (R326). -/
def noWayBack (w : Nat) (h : Thread) (s : State) : Bool :=
  domDead w h.ctx.domain h.ctx.dgen s && (h.status == .gated || h.ctx.dstack.all fun e => !callerLive w e s)

/-- A thread out of its slot with no live caller left is KILLED at once, before the homes acknowledge (R301, R324); one that keeps a
fault first takes it, since no record is ever dropped (R367). -/
def killResting (w : Nat) : List Thread → State → State
  | [], s => s
  | h :: r, s =>
    let rests := h.status == .ready || h.status == .waiting || h.status == .gated || h.status == .faulted
    killResting w r (if h.world == w && rests && !faultPending h && noWayBack w h s then killThread h.tid s else s)

/-- A launch is decided with a status; none of its roots waits any more. -/
def decideLaunch (status : BitVec 8) (l : Launch) : Launch := { l with status := some status, todo := [], started := true }

/-- The launches of a killed context complete with status 0x05 (R278). -/
def killLaunches (k : Kill) (s : State) : State :=
  { s with launches := s.launches.map fun l =>
    (if covers k l.world l.domain && l.status.isNone && !l.written then decideLaunch 5 l else l) }

/-- Far calls on their way into the killed context come back LOST (R326). -/
def turnKilled (k : Kill) (s : State) : State :=
  (s.hub.hops.filter fun x => !x.back && x.landing.isNone && covers k x.gateWorld ((s.world x.gateWorld).gate x.gate).domain).foldl
    (fun u x => sendBack x.id 4 [] x.window x.grant u) s

/-- The kill starts: the generations have risen, and every home is asked. -/
def startKill (k : Kill) (s : State) : State :=
  let t := (turnKilled k (endSaved k (killLaunches k s))).modHub fun h => { h with kills := h.kills ++ [k] }
  killResting k.world t.threads (eachJob (endKilledJob k) t.clusters t)

def tryDomainKill (w d : Nat) (s : State) : Option State :=
  if ((s.world w).dom d).state = .live then some (startKill ⟨s.nextId, w, some d, allHomes⟩ (raiseDomain w d true s.fresh.2)) else none

/-- DOMAIN_KILL (R310, R347): the kill of a live domain. -/
def execDomainKill (w d : Nat) (s : State) : Out := happen (tryDomainKill w d s) s

/-- Every live domain of a list is killed. -/
def raiseAll (w : Nat) : List (Nat × Domain) → State → State
  | [], s => s
  | (d, x) :: r, s => raiseAll w r (if x.state = .live then raiseDomain w d true s else s)

/-- A whole world is killed. -/
def killWorld (w : Nat) (s : State) : State :=
  let (id, t) := s.fresh
  startKill ⟨id, w, none, allHomes⟩ (raiseAll w (t.world w).domains t)

/-- WORLD_KILL (R347). -/
def execWorldKill (w : Nat) (s : State) : Out := .next (killWorld w s)

/-! ## The acknowledgements (R106, R239, R258) -/

/-- The slots of the killed context that stand in save areas are freed (R240). -/
def killSaved (k : Kill) (s : State) : State :=
  { s with parts := s.parts.map fun p =>
    (p.1, { p.2 with savedSlots := p.2.savedSlots.filter fun x => !covers k x.val.world x.val.domain }) }

/-- The slots of the killed context are freed. -/
def killSlots (k : Kill) (c : Nat) : List (Nat × MSlot) → State → State
  | [], s => s
  | (n, x) :: r, s => killSlots k c r (if x.used && covers k x.world x.domain then endSlot x.part c n s else s)

/-- The unit discards a command of the killed context with no add: of one that has started the groups in progress are finished, how
many is free (log entry 46); a queued `.new` leaves its thread the untagged 0. -/
def discardCmd (c : Nat) (m : MCmd) (s : State) : State :=
  let t := dropCmd c m.id s
  if m.queued then fillResult m.id Cap.null t
  else if m.started then (onSlot c m (applyGroups (slotSide c) m (1 + Config.groupsDone s.tick % groupsOf m)) t).nextTick
  else t

def discardCmds (c : Nat) : List MCmd → State → State
  | [], s => s
  | m :: r, s => discardCmds c r (discardCmd c m s)

def killUnits (k : Kill) : List (Nat × Cluster) → State → State
  | [], s => s
  | (c, x) :: r, s =>
    killUnits k r (killSlots k c x.mat.slots (discardCmds c (x.mat.cmds.filter fun m => covers k m.world m.domain) s))

/-- The thread's word waits, and not for a recovery, for room in the fault queue or for an image of the thread. -/
def waitsForHome (h : Thread) : Bool :=
  (h.wait.isSome || h.stall.isSome) && h.stall != some .recovery && !faultPending h && !(h.captured && h.place.isNone)

/-- The wait entries of the killed context go; a thread with a live caller then unwinds (R331). -/
def killWaits (k : Kill) : List Thread → State → State
  | [], s => s
  | h :: r, s =>
    killWaits k r (if covers k h.world h.ctx.domain && h.status != .killed && h.status != .gated && waitsForHome h then
      let u := s.modThread h.tid fun x => { x with wait := none, stall := none }
      if h.status = .waiting then makeReady h.tid u else u
    else s)

/-- The PASIDs of the killed context. -/
def killedPasid (k : Kill) (s : State) (pasid : Nat) : Bool := (s.world k.world).domains.any fun d => covers k k.world d.1 && d.2.pasid == pasid

/-- A domain that is not killed uses the PASID. -/
def pasidInUse (s : State) (pasid : Nat) : Bool := s.worlds.any fun w => w.2.domains.any fun d => d.2.state == .live && d.2.pasid == pasid

/-- The hub drops what it holds of PASIDs: translations, answers, and requests, whose answers it ignores when they come (R347, R354). -/
def dropPasids (cached asked : Nat → Bool) (s : State) : State :=
  s.modHub fun h => { h with
    atc := h.atc.filter fun e => !cached e.pasid
    noAnswer := h.noAnswer.filter fun k => !cached k.1
    priFailed := h.priFailed.filter fun k => !asked k.1
    priOut := h.priOut.filter fun k => !asked k.1
    priQueue := h.priQueue.filter fun k => !asked k.1
    atsOut := h.atsOut.filter fun k => !asked k.1
    atsStale := h.atsStale ++ h.atsOut.filter fun k => asked k.1 }

/-- What a home does before it acknowledges. Memory homes and the host port hold no request between steps: an access is applied
in the step that issues it. -/
def homeActs (k : Kill) (home : Home) (s : State) : State :=
  match home with
  | .matrixUnits => killSaved k (killUnits k s.clusters s)
  | .counterHomes => killWaits k s.threads s
  | .translationCaches => dropPasids (killedPasid k s) (fun x => killedPasid k s x && !pasidInUse s x) s
  | _ => s

/-! ## The end of a kill -/

/-- The pages that the killed context owns, in all its world's tables. -/
def killedPages (k : Kill) (s : State) : List (Nat × Nat × Nat) :=
  let w := s.world k.world
  ((w.domains.flatMap fun d => leavesUnder w 4 d.2.ptroot).filter fun x => covers k k.world x.2.2.1).map fun x => (x.1, x.2.1, x.2.2.2)

/-- The entry goes, in every table that maps the page. -/
def unmapPages (w : Nat) : List (Nat × Nat × Nat) → State → State
  | [], s => s
  | (entry, _, _) :: r, s => unmapPages w r (s.setPte w entry 0)

/-- Frames are zero-filled and pushed onto their stacks. -/
def returnFrames (w : Nat) : List (Nat × Nat) → State → State
  | [], s => s
  | (frame, lv) :: r, s => returnFrames w r (pushFrame w ⟨frame, BitVec.ofNat 2 (lv - 1)⟩ s)

/-- The FAR frames of the killed context are zero-filled and assigned no more. -/
def returnFar (k : Kill) : List (Nat × (Nat × Nat)) → State → State
  | [], s => s
  | (f, w, d) :: r, s =>
    returnFar k r (if covers k w d then (s.zeroFill (paFar (f * 2 ^ 16)) (2 ^ 16)).modHub fun h => { h with farFrames := NMap.del h.farFrames f }
      else s)

/-- The pages of the killed context, after every acknowledgement. -/
def returnPages (k : Kill) (s : State) : State :=
  let ps := killedPages k s
  returnFar k s.hub.farFrames (returnFrames k.world ((ps.map fun x => x.2).eraseDups) (unmapPages k.world ps s))

/-- Some page of the killed context lies in a channel that a repair holds, or at a sweep pointer: it cannot be zero-filled yet (R339,
R391). -/
def pagesHeld (k : Kill) (s : State) : Bool :=
  (killedPages k s).any (fun x => s.fillHeld (paDevice x.2.1) (pageBytes x.2.2))
    || s.hub.farFrames.any fun f => covers k f.2.1 f.2.2 && s.fillHeld (paFar (f.1 * 2 ^ 16)) (2 ^ 16)

/-- KILLED records are freed (R268). -/
def freeKilled (w : Nat) : List Thread → State → State
  | [], s => s
  | h :: r, s => freeKilled w r (if h.world = w ∧ h.status = .killed then freeThread h s else s)

/-- The last acknowledgement: pages go back, KILLED records are freed, and a killed world's key slot is destroyed (R351). -/
def finishKill (k : Kill) (s : State) : State :=
  let t := returnPages k s
  let u := if killOpen k.world t then t else freeKilled k.world t.threads t
  if k.domain.isNone then u.modWorld k.world fun w => (if w.keyState = .empty then w else { w with keyState := .destroying }) else u

def tryGenerationBumpAck (id : Nat) (home : Home) (s : State) : Option State :=
  ((s.hub.kills.find? fun k => k.id == id && k.homes.contains home).filter fun k =>
    k.homes.any (· != home) || !pagesHeld k s).map fun k =>
    let t := homeActs k home s
    let left := k.homes.filter (· != home)
    if left.isEmpty then finishKill k (t.modHub fun h => { h with kills := h.kills.filter fun x => x.id != id })
    else t.modHub fun h => { h with kills := h.kills.map fun x => if x.id = id then { x with homes := left } else x }

/-- GENERATION_BUMP_ACK (R106). The last one comes with the fill of the pages, which may have to wait for a repair or a sweep. -/
def execGenerationBumpAck (id : Nat) (home : Home) (s : State) : Out := happen (tryGenerationBumpAck id home s) s

end Sys2Proof.Machine
end

