-- ==== Sys2Proof/Machine/Keys.lean ====
section
/-! DEFINITION. Key slots, die latches, tenant turnover, the signed report and the hub's register pages (17_worlds R333-R353,
22_platform R409, R410). -/

namespace Sys2Proof.Machine

open Sys2Proof

/-! ## Key slots (R334, R339, R351) -/

/-- The place of the world's first line at a home, at or above another place: where the home's sweep pointer stands next. -/
def pointerFrom (w home at_ : Nat) (s : State) : Nat :=
  match s.sweepNext w home at_ with
  | some l => l * 64 % regionSize
  | none => at_

def tryRekey (w : Nat) (s : State) : Option State :=
  let x := s.world w
  if x.keyState = .active then
    let (k, t) := s.fresh
    some (t.setWorld w { x with
      keyState := .rekeying, oldKeyId := some x.keyId, keyId := k, keyEpoch := x.keyEpoch + 1, swept := 0
      sweeps := Vector.ofFn fun h => pointerFrom w h.val 0 s })
  else none

/-- REKEY (R339): new keys, the next epoch, every pointer at the first line of its home. -/
def execRekey (w : Nat) (s : State) : Out := happen (tryRekey w s) s

/-- The sweep re-seals a line with the new keys; a line that its old keys do not open is written back broken. -/
def reseal (w line : Nat) (s : State) : State :=
  let x := s.world w
  let opened := !s.broken.contains line && (match NMap.get? s.seals line with
    | some z => z.world == w && some z.key == x.oldKeyId
    | none => false)
  let t := { s with seals := NMap.set s.seals line ⟨w, x.keyId⟩ }
  if opened then t else { t with broken := NSet.add t.broken line }

/-- A home has passed the world's last line; with the last home the old keys are destroyed. -/
def homeSwept (w home : Nat) (s : State) : State :=
  s.modWorld w fun x =>
    let done := x.swept ||| BitVec.ofNat 16 (2 ^ home)
    if done = 0xFFFF then { x with swept := done, keyState := .active, oldKeyId := none } else { x with swept := done }

/-- A home sweeps the line at its pointer, which moves to the world's next line, or ends its sweep; it waits for a line in a quiesced
channel (R391). -/
def tryKeySweepLine (w home : Nat) (s : State) : Option State :=
  let x := s.world w
  if x.keyState == .rekeying && decide (home < 16) && !x.swept.getLsbD home then
    match s.sweepNext w home (x.sweeps.getD home 0) with
    | some l =>
      if s.quiet (l * 64) then none
      else
      let t := reseal w l s
      some (t.modWorld w fun y => { y with sweeps := y.sweeps.setIfInBounds home (pointerFrom w home (l * 64 % regionSize + 64) t) })
    | none => some (homeSwept w home s)
  else none

/-- KEY_SWEEP_LINE (R339). -/
def execKeySweepLine (w home : Nat) (s : State) : Out := happen (tryKeySweepLine w home s) s

/-- The key store forgets every key of the slot. -/
def eraseKeys (w : Nat) (s : State) : State := s.modWorld w fun x => { x with keyState := .empty, oldKeyId := none, swept := 0 }

def tryKeySlotDestroy (w : Nat) (s : State) : Option State :=
  match (s.world w).keyState with
  | .empty => none
  | .destroying => some (eraseKeys w s)
  | _ => some (s.modWorld w fun x => { x with keyState := .destroying })

/-- KEY_SLOT_DESTROY (R351): STATE is 011 while the keys are erased, then 000. -/
def execKeySlotDestroy (w : Nat) (s : State) : Out := happen (tryKeySlotDestroy w s) s

/-- Each world id, 0 included, names one slot of the key store (R333). -/
def tryWorldKeyLoad (w : Nat) (s : State) : Option State :=
  let x := s.world w
  if x.keyState == .empty && decide (w < 64) then
    let (k, t) := s.fresh
    some (t.setWorld w { x with
      keyState := .active, keyId := k, keyLoad := k, oldKeyId := none, keyEpoch := if x.keyId = 0 then x.keyEpoch else x.keyEpoch + 1, swept := 0 })
  else none

/-- WORLD_KEY_LOAD (R351): fresh keys; the epoch advances where the slot has held keys before. -/
def execWorldKeyLoad (w : Nat) (s : State) : Out := happen (tryWorldKeyLoad w s) s

/-! ## Die latches (R335) -/

/-- A partition uses some cluster of the die. -/
def dieUsed (die : Nat) (s : State) : Bool := s.parts.any fun p => p.2.clusters.any fun c => dieOfCluster c == die

def dlatchAt (die : Nat) (s : State) : DLatch := s.hub.dlatch.getD die ⟨false, false, 0⟩

def setDlatch (die : Nat) (x : DLatch) (s : State) : State := s.modHub fun h => { h with dlatch := h.dlatch.setIfInBounds die x }

/-- The clusters of a die. -/
def dieClusters (die : Nat) : List Nat := (List.range 8).map (· + 8 * die)

/-- Everything on a cluster is written with zeros (order 5 of R350); a core keeps only how many slots it offers. -/
def scrubCluster (c : Nat) (s : State) : State :=
  let t := s.modCluster c fun x => { Cluster.empty with cores := x.cores.map fun k => (k.1, { Core.idle with offered := k.2.offered, idleSince := s.now }) }
  t.zeroFill (paLocal (c * 2 ^ 24)) (2 ^ 24)

def scrubAll : List Nat → State → State
  | [], s => s
  | c :: r, s => scrubAll r (scrubCluster c s)

def scrubDie (die : Nat) (s : State) : State := scrubAll (dieClusters die) s

/-- A write of DLATCHn: it latches a clean die, unlatches one that no partition uses and scrubs it, or is dropped and logged. -/
def writeDlatch (die : Nat) (v : Word64) (s : State) : State :=
  let x := dlatchAt die s
  let w := v.toNat % 64
  let dropped := s.logEvent (.latchDropped die)
  if 8 ≤ die then dropped
  else if v.getLsbD 15 then
    if !x.latched && x.clean && w != 0 then setDlatch die ⟨true, false, w⟩ s else dropped
  else if !x.latched then s
  else if dieUsed die s then dropped
  else setDlatch die ⟨false, true, 0⟩ (scrubDie die s)

/-- DLATCH_WRITE (R335, R354). -/
def execDlatchWrite (die : Nat) (v : Word64) (s : State) : Out := .next (writeDlatch die v s)

/-! ## Measurement (R348) -/

/-- STATE of a key slot as KSTATn reads it. -/
def keyStateCode : KeyState → Nat
  | .empty => 0
  | .active => 1
  | .rekeying => 2
  | .destroying => 3

/-- The configuration as bytes: the repair list, then which slots of the key store are assigned. -/
def configBytes (s : State) : List Byte :=
  s.hub.repairList.flatMap bytesOf64 ++ (List.range 64).map fun w => if (s.world w).keyState = .empty then 0 else 1

/-- The Moaly image is measured. -/
def measureFirmware (s : State) : State := s.modHub fun h => { h with fwMeas := Config.firmwareDigest }

/-- The configuration is measured. -/
def measureConfig (s : State) : State := s.modHub fun h => { h with cfgMeas := Config.configDigest (configBytes s) }

/-! ## Turnover (R350, R353) -/

/-- Moaly's start command. -/
def startTurnover (w : Nat) (s : State) : State :=
  if s.hub.turnBusy || w == 0 || decide (64 ≤ w) then s.logEvent .turnoverDropped
  else s.modHub fun h => { h with
    turnCmd := w, turnWorld := w, turnBusy := true, turnDone := false, turnStage := 0, turnElapsed := 0, turnFail := 0, turnStart := s.now }

/-- TURNOVER_START (R353). -/
def execTurnoverStart (w : Nat) (s : State) : Out := .next (startTurnover w s)

/-- The completion records of a list of launches are written where they have not been. -/
def completeAll : List Launch → State → State
  | [], s => s
  | l :: r, s =>
    let d := decideLaunch (l.status.getD 5) l
    let t := if l.written then s else writeRecord l.world l.cpos (completionBytes l.go (l.status.getD 5) l.firstExit s.now) s
    completeAll r { t with launches := t.launches.map fun x => if x.id = l.id then { d with written := true } else x }

/-- Order 1: the partitions stop and the launches complete. -/
def turnStop (w : Nat) (s : State) : State :=
  let t := { s with parts := s.parts.map fun p => if p.2.world = w then (p.1, { p.2 with stopped := true }) else p }
  killWorld w (completeAll (t.launches.filter fun l => l.world == w) t)

/-- Every sealed line of the world in HBM and in the second tier is zero-filled; a peer's memory is neither. -/
def zeroLines (w : Nat) : List (Nat × Seal) → State → State
  | [], s => s
  | (l, z) :: r, s =>
    zeroLines w r (if z.world = w ∧ (regionOf (l * 64) = 1 ∨ regionOf (l * 64) = 2) then s.zeroFill (l * 64) 64 else s)

/-- Frames that `pgfree` has released go back at once. -/
def pushAll (w : Nat) : List FreeFrame → State → State
  | [], s => s
  | f :: r, s => pushAll w r (pushFrame w f s)

/-- Order 4: frames that no table names any more. The killed context's pages went back with the kill. -/
def turnFrames (w : Nat) (s : State) : State :=
  (zeroLines w s.seals (pushAll w (s.world w).freeing s)).modWorld w fun x => { x with ptes := [], freeing := [] }

/-- The hop records that name the world: callers elsewhere receive LOST, its own calls are gone. -/
def turnHops (w : Nat) (s : State) : State :=
  s.modHub fun h => { h with hops := (h.hops.filter fun x => x.cworld != w).map fun x =>
    (if x.gateWorld = w ∧ !x.back then turnBack 4 x else x) }

/-- What the hub's buffers and the save areas hold of the world goes: the bitmap records of its partitions, their command slots, its
records in the completion area, the values of its flits on their way, and its peers' waits (R332). A flit that came early keeps its
place in its source's sequence. -/
def scrubBuffers (w : Nat) (gone : List Nat) (s : State) : State :=
  let t := gone.foldl (fun u p => u.zeroFill (paSave p 0) (bitmapOffset 64 0)) s
  let t1 := (s.hub.slotPart.filter fun p => gone.contains p.2).foldl (fun u p => u.zeroFill (slotPa p.1) 64) t
  let t2 := (s.hub.compWorld.filter fun e => e.2.world == w).foldl (fun u e => u.zeroFill (completionPa e.1) 16) t1
  t2.modHub fun h => { h with
    compWorld := h.compWorld.filter fun e => e.2.world != w, hostReply := none
    peerEarly := h.peerEarly.map fun f => if f.world = w then { f with op := .copyWrite [] } else f
    peerWaits := h.peerWaits.filter fun x => x.world != w, sent := h.sent.filter fun f => f.world != w }

/-- Order 5: the dies and every table of the world are written with zeros; its stacks, its limit and its epoch stay. -/
def turnScrub (w : Nat) (s : State) : State :=
  let dies := (List.range 8).filter fun d => (dlatchAt d s).latched && (dlatchAt d s).world == w
  let x := s.world w
  let keep : World := { World.empty with
    free64k := x.free64k, free32m := x.free32m, free16g := x.free16g, contLimit := x.contLimit,
    keyState := x.keyState, keyEpoch := x.keyEpoch, keyId := x.keyId, keyLoad := x.keyLoad }
  let gone := (s.parts.filter fun p => p.2.world == w).map (·.1)
  let mine (pasid : Nat) : Bool := x.domains.any fun d => d.2.pasid == pasid
  let t := scrubBuffers w gone
    (scrubAll (dies.flatMap dieClusters) ((dropPasids mine (fun k => mine k && !pasidInUse s k) (turnHops w s)).setWorld w keep))
  let u := { t with
    thr := if t.thr.world = w then Thread.vacant else t.thr
    rest := t.rest.filter fun h => h.world != w
    parts := t.parts.filter fun p => p.2.world != w
    launches := t.launches.filter fun l => l.world != w
    sheaf := t.sheaf.filter fun e => e.world != w
    swards := t.swards.filter fun k => !(s.launches.any fun l => l.world == w && l.id == k.1.launch)
    leavers := t.leavers.filter fun l => l.world != w
    hostWaits := t.hostWaits.filter fun h => h.world != w
    recAreas := t.recAreas.filter fun a => a.2.start.world != w }
  u.modHub fun h => { h with
    share := h.share.filter fun x => x.2.2 != w
    slotPart := h.slotPart.filter fun p => !gone.contains p.2
    goPending := h.goPending.filter fun r => !(match NMap.get? h.slotPart r.slot with
      | some p => gone.contains p
      | none => false)
    held := h.held.filter fun r => !(match NMap.get? h.slotPart r.slot with
      | some p => gone.contains p
      | none => false) }

/-- The dies of the world. -/
def worldDies (w : Nat) (s : State) : List Nat := (List.range 8).filter fun d => (dlatchAt d s).latched && (dlatchAt d s).world == w

/-- Order 7: the test runs on every die; one that fails is left unlatched and not clean, unless a partition uses it (R335). -/
def failDies (bad : BitVec 8) : List Nat → State → State
  | [], s => s
  | d :: r, s =>
    failDies bad r (if bad.getLsbD d then
      let t := (s.logEvent (.dieFailed d)).modHub fun h => { h with turnFail := h.turnFail ||| BitVec.ofNat 8 (2 ^ d) }
      if dieUsed d t then t else setDlatch d ⟨false, false, 0⟩ t
      else s)

/-- Order 8: the others are clean and free. -/
def passDies : List Nat → State → State
  | [], s => s
  | d :: r, s => passDies r (setDlatch d ⟨false, true, 0⟩ s)

/-- The effect of an order of R350. -/
def turnOrder (n : Nat) (bad : BitVec 8) (w : Nat) (s : State) : State :=
  match n with
  | 1 => turnStop w s
  | 3 => eraseKeys w s
  | 4 => turnFrames w s
  | 5 => turnScrub w s
  | 6 => (measureConfig (measureFirmware s)).modHub fun h => { h with turns := h.turns + 1 }
  | 7 => failDies bad (List.range 8) s
  | 8 => (passDies (worldDies w s) s).modHub fun h => { h with turnBusy := false, turnDone := true }
  | _ => s

/-- Order 4 has lines to write with zeros that a repair holds (R391). -/
def turnHeld (w : Nat) (s : State) : Bool :=
  (s.world w).freeing.any (fun f => frameHeld f s) || s.seals.any fun z => z.2.world == w && sweptRegion (z.1 * 64) && s.lineHeld (z.1 * 64)

/-- The next order is done; order 2 has ended once every home has acknowledged the kill that order 1 leads to, and
order 4 waits for lines that a repair holds. Which dies fail order 7's test is free (log entry 15). -/
def tryTurnoverOrderComplete (s0 : State) : Option State :=
  let bad := Config.dieFails s0.tick
  let s := s0.nextTick
  let h := s.hub
  let n := h.turnStage + 1
  if h.turnBusy && !(n == 2 && killOpen h.turnWorld s) && !(n == 4 && turnHeld h.turnWorld s) then
    some ((turnOrder n bad h.turnWorld s).modHub fun x => { x with turnStage := n, turnElapsed := min ((s.now - x.turnStart) / 1000) 0xFFFFFF })
  else none

/-- TURNOVER_ORDER_COMPLETE (R350). -/
def execTurnoverOrderComplete (s : State) : Out := happen (tryTurnoverOrderComplete s) s

/-! ## The report (R349) -/

/-- Bytes 0 to 255 of a report. -/
def reportBody (s : State) : List Byte :=
  let h := s.hub
  let w := s.world h.attWorld
  [0x53, 0x4E, 0x52, 0x49] ++ toLe 2 1 ++ toLe 2 0 ++ toLe 8 Config.serial.toNat ++ toLe 64 h.fwMeas.toNat ++ toLe 64 h.cfgMeas.toNat
    ++ toLe 64 h.attNonce.toNat ++ toLe 8 s.now ++ toLe 1 h.attWorld ++ toLe 1 (keyStateCode w.keyState) ++ toLe 1 w.keyEpoch.toNat ++ toLe 1 0
    ++ toLe 4 h.turns ++ toLe 32 0

def trySounariReport (s : State) : Option State :=
  if s.hub.attGo then
    let b := reportBody s
    some (s.modHub fun h => { h with attGo := false, attReport := b ++ toLe 64 (Config.signature b).toNat })
  else none

/-- SOUNARI_REPORT (R349): the report is written into the page and the go bit cleared. -/
def execSounariReport (s : State) : Out := happen (trySounariReport s) s

/-! ## Register pages (R352, R353, R409, R410) -/

/-- Pages 0x000, 0x001, 0x003 and 0x004 are private. -/
def privatePage (page : Nat) : Bool := page == 0 || page == 1 || page == 3 || page == 4

/-- A doubleword of the ATTEST page: the nonce, the world of interest, the go bit (their places: log entry 27). While a report is being made
R349 has a further go ignored and does not speak of the other fields: writes of the nonce and of the world are ignored then as well
(DESIGN CHOICE, log entry 27). -/
def writeAttest (offset : Nat) (v : Word64) (s : State) : State :=
  let n := offset / 8
  if s.hub.attGo then s
  else if n < 8 then
    s.modHub fun h =>
      let old := toLe 64 h.attNonce.toNat
      { h with attNonce := BitVec.ofNat 512 (leNat (old.take (8 * n) ++ toLe 8 v.toNat ++ old.drop (8 * n + 8))) }
  else if n = 8 then s.modHub fun h => { h with attWorld := v.toNat % 64 }
  else if n = 9 then s.modHub fun h => { h with attGo := v.getLsbD 0 }
  else s

/-- An entry of the repair list; its reserved bits [23:0] stay zero. -/
def writeRepair (n : Nat) (v : Word64) (s : State) : State :=
  let e := v >>> 24 <<< 24
  if n < 512 then
    s.modHub fun h => { h with repairList := if n < h.repairList.length then h.repairList.set n e
      else h.repairList ++ List.replicate (n - h.repairList.length) 0 ++ [e] }
  else s

/-- A write that a page serves. WORLD of TURNCMD is kept as written; a turnover in progress has its own. -/
def serveWrite (page offset : Nat) (v : Word64) (s : State) : State :=
  match page with
  | 1 => if offset / 8 < 8 then writeDlatch (offset / 8) v s else s
  | 2 => writeAttest offset v s
  | 3 =>
    if offset / 8 ≠ 0 then s
    else if v.getLsbD 6 then startTurnover (v.toNat % 64) s
    else s.modHub fun h => { h with turnCmd := v.toNat % 64 }
  | 4 => writeRepair (offset / 8) v s
  | _ => s

/-- KSTATn. -/
def kstat (w : World) : Nat := keyStateCode w.keyState + w.keyEpoch.toNat * 2 ^ 12

/-- KSWEEPn.h: the line address of the pointer. -/
def ksweep (w : World) (h : Nat) : Nat := w.sweeps.getD h 0 % 2 ^ 52 / 64 * 64

/-- DLATCHn as it reads. -/
def dlatchBits (x : DLatch) : Nat := (if x.latched then 2 ^ 15 + x.world % 64 else 0) + (if x.clean then 2 ^ 14 else 0)

/-- TURNSTAT. -/
def turnStat (h : Hub) : Nat :=
  (if h.turnBusy then 1 else 0) + (if h.turnDone then 2 else 0) + h.turnStage % 16 * 2 ^ 4 + h.turnElapsed % 2 ^ 24 * 2 ^ 8 + h.turnFail.toNat * 2 ^ 32

/-- BOOTSTAT (R409). -/
def bootStat (h : Hub) : Nat :=
  (if h.stage = 7 then 1 else 0) + (if h.measured then 2 else 0) + (if h.failed then 4 else 0) + (if h.degraded then 8 else 0)
    + h.stage % 16 * 2 ^ 4 + h.stackOk.toNat * 2 ^ 12

/-- The ATTEST page: the nonce, the world, the go bit, and the report from byte 128 (their places: log entry 27). -/
def attestWord (n : Nat) (h : Hub) : Nat :=
  if n < 8 then leNat ((toLe 64 h.attNonce.toNat).drop (8 * n) |>.take 8)
  else if n = 8 then h.attWorld
  else if n = 9 then (if h.attGo then 1 else 0)
  else if n < 16 then 0
  else leNat ((h.attReport.drop (8 * (n - 16))).take 8)

/-- What a page's doubleword reads as. KSTAT0 to KSTAT63 come first on KEYCTL, then the sixteen pointers of each slot (log entry
27). -/
def serveRead (page offset : Nat) (s : State) : Nat :=
  let n := offset / 8
  match page with
  | 0 => if n < 64 then kstat (s.world n) else if n < 1088 then ksweep (s.world ((n - 64) / 16)) ((n - 64) % 16) else 0
  | 1 => if n < 8 then dlatchBits (dlatchAt n s) else 0
  | 2 => attestWord n s.hub
  | 3 => if n = 0 then s.hub.turnCmd else if n = 1 then turnStat s.hub else 0
  | 4 => (s.hub.repairList[n]?.getD 0).toNat
  | 5 => if n = 0 then bootStat s.hub else 0
  | _ => 0

/-- HUB_REGISTER_WRITE (R352), a write or a read: an untrusted access to a private page is logged, and its write dropped, its read
zero. -/
def execHubRegisterWrite (trusted : Bool) (page offset : Nat) (write : Option Word64) (s : State) : Out :=
  let barred := privatePage page && !trusted
  let t := if barred then s.logEvent (.untrustedAccess page) else s
  match write with
  | some v => .next (if barred then t else serveWrite page offset v s)
  | none => .next (t.modHub fun h => { h with reply := some ⟨page, offset, if barred then 0 else BitVec.ofNat 64 (serveRead page offset s)⟩ })

end Sys2Proof.Machine
end

