-- ==== Sys2Proof/Machine/Pages.lean ====
section
/-! DEFINITION. `pgalloc` and `pgfree` (06_access R141, R142; 17_worlds R340-R342). -/

namespace Sys2Proof.Machine

open Sys2Proof

/-- The walk level whose leaf maps a page of SZ (R61, R340). -/
def levelOf (z : BitVec 3) : Nat := z.toNat + 1

/-- Write the leaf of a page, making the tables above it where they are absent. -/
def mapLeaf (w va target : Nat) (leaf : Word64) : Nat → Nat → State → State
  | 0, _, s => s
  | lv + 1, base, s =>
    let entry := entryAt base (lv + 1) va
    if lv + 1 ≤ target then s.setPte w entry leaf
    else
      let e := NMap.getD (s.world w).ptes entry 0
      match pteType e with
      | 1 => mapLeaf w va target leaf lv (pteFrame e) s
      | ty =>
        let (k, s1) := s.fresh
        let b := tableBase k
        let s2 := s1.modWorld w fun x => { x with ptes := if ty = 3 then touchTable e b x.ptes else x.ptes }
        mapLeaf w va target leaf lv b (s2.setPte w entry (pteBits 0 b false false false 1))

/-- The leaf of a page that `pgalloc` maps: owned by the current domain, readable and writable; the spec does not say whether it
may be fetched, so X is a free value (log entry 6). -/
def freshLeaf (owner frame : Nat) : Word64 := pteBits owner frame ((Config.unstated 1).getLsbD 0) true true 2

/-- The status of a `pgalloc` in the order of the world's walker, and the state (R141). A page of which another domain of the world
maps some byte has a frame there already (R312), and its translation exists (log entry 63). -/
def pgallocHome (z : BitVec 3) (va : Nat) (s : State) : State.Reply :=
  let w := s.thr.world
  let root := s.curDomain.ptroot
  if coveredAt (s.world w) va (levelOf z) 4 root || (s.world w).covered va (levelOf z) then ⟨2, 0, s⟩
  else match s.popFrame w (levelOf z) with
    | none => ⟨1, 0, s⟩
    | some (frame, t) => ⟨0, 0, mapLeaf w va (levelOf z) (freshLeaf s.thr.ctx.domain frame) 4 root t⟩

/-- A frame leaves every table of the world that maps it: one numbering serves them all (R312, log entry 63). -/
def unmapFrame (w frame : Nat) (s : State) : State :=
  ((s.world w).domains.flatMap fun d => leavesUnder (s.world w) 4 d.2.ptroot).foldl
    (fun t x => if x.2.1 = frame then t.setPte w x.1 0 else t) s

def needPage : Need := ⟨false, true, false, false, false, false, [2]⟩

/-- `pgalloc` (R141): a DEVICE capability with W over an aligned page; the status goes through the window. -/
def execPgalloc (l : BitVec 4) (z : BitVec 3) (a d : RegNum) (s : State) : Out :=
  s.finish (do
    let c := s.reg a
    let n := pageBytes (levelOf z)
    s.checkCap s.who c c.cursor n needPage (regName a)
    require (c.cursor.toNat % n == 0) 0x04 c.cursor
    match s.givenValue with
    | some (g, u) => .ok ((u.skipEffect.getD u).useStamp.deliver d l (some g.val) none).advance
    | none => do
      let r ← s.countEffect.stamped 0x14 0 c.cursor c.cursor fun u => .ok (pgallocHome z c.cursor.toNat u)
      .ok ((r.state.logValue ⟨Cap.ofInt r.result, 0⟩ 0).deliver d l (some (Cap.ofInt r.result)) none).advance)

/-- `pgfree` (R142): the translation goes at issue; the frame returns to its stack after PGFREE_FRAME_PUSH. -/
def execPgfree (z : BitVec 3) (a : RegNum) (s : State) : Out :=
  s.finish (do
    let c := s.reg a
    let n := pageBytes (levelOf z)
    s.checkCap s.who c (BitVec.ofNat 64 (c.cursor.toNat / n * n)) n needPage (regName a)
    match s.skipEffect with
    | some u => .ok u.useStamp.advance
    | none => do
      let r ← s.countEffect.stamped 0x14 1 c.cursor c.cursor fun u =>
        match u.walk u.who c.cursor.toNat with
        | .page frame size _ entry _ _ _ =>
          if size = n then
            .ok ⟨0, 0, (unmapFrame u.thr.world frame (u.setPte u.thr.world entry 0)).modWorld u.thr.world fun x =>
              { x with freeing := x.freeing ++ [⟨frame, z.setWidth 2⟩] }⟩
          else raise 0x12 c.cursor
        | .bad => raise 0x12 c.cursor
        | _ => raise 0x10 c.cursor
      .ok r.state.advance)

end Sys2Proof.Machine
end

