-- ==== Sys2Proof/Machine/Switch.lean ====
section
/-! DEFINITION. Partition switches (14_scheduling R298-R301) and the flits of peer packages (22_platform R406, R407). -/

namespace Sys2Proof.Machine

open Sys2Proof

/-! ## Flits of peers (R406) -/

/-- The home of a flit: an offset in the window that this package exports, here an offset in DEVICE memory (log entry 29). -/
def flitPa (f : Flit) : Nat := paDevice (f.target % 2 ^ 48)

/-- The domain that exported the window in which a flit's place lies: the owner of its page in the flit's world (R312). -/
def flitOwner (f : Flit) (s : State) : Option Nat :=
  let w := s.world f.world
  let a := f.target % 2 ^ 48
  ((w.domains.flatMap fun d => leavesUnder w 4 d.2.ptroot).find? fun x =>
    decide (x.2.1 ≤ a) && decide (a < x.2.1 + pageBytes x.2.2.2)).map fun x => x.2.2.1

/-- The home's own checks of a flit: an exported window, of the generation that the capability bears (R407). -/
def flitAdmitted (f : Flit) (s : State) : Bool := (flitOwner f s).any fun d => s.genIs f.world d (BitVec.ofNat 12 f.gen)

/-- A peer's threads belong to no partition of this package; they have names of their own. -/
def peerPart (f : Flit) : Nat := 256 + f.src

/-- The home keeps a peer's entries while its thread is in the step that they name; a flit of a later step shows its boundary
(R387). -/
def endPeerStep (f : Flit) (s : State) : State :=
  { s with sheaf := s.sheaf.filter fun e => !(e.world == f.world && e.part == peerPart f && e.cref == f.cref && decide (e.stepNo < f.stepNo)) }

/-- The requests of a peer bear its world and leave none of this package's clusters. -/
def flitReq (f : Flit) : Req := ⟨f.world, none⟩

/-- The home's answer goes to the peer that has asked. -/
def answerPeer (f : Flit) (value : Word64) (fault : BitVec 8) (s : State) : State :=
  s.sendFlit f.src f.world f.cref f.stepNo f.sseq (.answer f.cref value fault)

/-- A stamped operation of a peer: one whose stamp the home holds is not applied again and returns what the first returned, and one
whose MAJ, FUNC or OPERAND differ from the entry's is answered with 0x43 (R387). -/
def peerStamped (f : Flit) (maj func : BitVec 8) (v : Word64) (home : State → State.Reply) (s : State) : State :=
  match s.sheafFind f.world (peerPart f) f.cref f.stepNo f.sseq with
  | some e => answerPeer f e.result (if State.sameStamp e maj func v then e.fault else 0x43) s
  | none =>
    let r := home s
    let e : SheafEntry := ⟨f.world, peerPart f, f.cref, f.stepNo, f.sseq, maj, func, v, r.result, r.fault, false, []⟩
    answerPeer f r.result r.fault { r.state with sheaf := r.state.sheaf ++ [e] }

/-- A counter add of a peer: of a thread, or of one sector of a copy job, whose stamp all its sectors bear (R387). -/
def peerAdd (f : Flit) (v : Word64) (s : State) : State :=
  match f.sector with
  | none => peerStamped f 0x18 1 v (lineAdd (flitReq f) (flitPa f) v) s
  | some k =>
    let x := stampedAdd (flitReq f) ⟨f.world, peerPart f, f.cref, f.stepNo, f.sseq⟩ true (some k) v (flitPa f) s
    answerPeer f 0 x.1 x.2

/-- A wait of a peer: answered at once where it is met or its line is no counter line, or entered at the home. -/
def peerWait (f : Flit) (thr : Word64) (limit : Option Nat) (s : State) : State :=
  match lineVerdict (flitReq f) (flitPa f) thr s with
  | .met v => answerPeer f v 0 s
  | .broken code => answerPeer f 0 code s
  | _ => s.fresh.2.modHub fun h => { h with
    peerWaits := h.peerWaits ++ [⟨f.src, s.nextId, f.cref, f.world, flitPa f, thr, limit.map (· + s.now), .held⟩] }

/-- A counter read of a peer. -/
def peerRead (f : Flit) (s : State) : State :=
  match ctrRefusal (flitReq f) (flitPa f) s with
  | some code => answerPeer f 0 code s
  | none => answerPeer f (BitVec.ofNat 64 (s.readNat (flitPa f) 8)) 0 s

/-- A copy write of a peer, and the first refusal that it meets. -/
def peerWrite (f : Flit) (bs : List Byte) (s : State) : State :=
  let (t, x) := s.storeBytes (flitReq f) 0 (lineChunks (flitPa f) bs)
  answerPeer f 0 (x.elim 0 (·.1)) t

/-- Bytes cut into payloads. -/
def payloadsOf (bs : List Byte) : List (List Byte) :=
  (List.range (max 1 ((bs.length + Config.flitPayload - 1) / Config.flitPayload))).map fun i =>
    (bs.drop (Config.flitPayload * i)).take Config.flitPayload

/-- Bytes go to a peer in as many flits as their payloads need. -/
def sendBytes (f : Flit) (fault : BitVec 8) (bs : List Byte) (s : State) : State :=
  (payloadsOf bs).foldl (fun u x => u.sendFlit f.src f.world f.cref f.stepNo f.sseq (.bytes f.cref x fault)) s

/-- A copy read of a peer: the bytes, or what the home's data is refused with. -/
def peerCopy (f : Flit) (n : Nat) (s : State) : State :=
  match s.readFault (flitReq f) (flitPa f) n with
  | some x => sendBytes f x.1 [] s
  | none => sendBytes f 0 (s.readMem (flitPa f) n) s

/-- A peer's operation at its home (R260, R406); what the home does not admit is answered with the generation fault. -/
def applyFlit (f : Flit) (s : State) : State :=
  if !flitAdmitted f s then answerPeer f 0 0x06 s
  else
    let t := endPeerStep f s
    match f.op with
    | .counterAdd v => peerAdd f v t
    | .counterInit v => peerStamped f 0x1A 1 v (initLine (flitReq f) (flitPa f) v) t
    | .counterWait thr limit => peerWait f thr limit t
    | .counterRead => peerRead f t
    | .copyWrite bs => peerWrite f bs t
    | .copyRead n => peerCopy f n t

/-- How many bytes from its place on a flit reaches. -/
def flitBytes (f : Flit) : Nat :=
  match f.op with
  | .copyWrite bs => bs.length
  | .copyRead n => n
  | _ => 64

/-- A flit waits at a line that a sweep or a repair holds (R339, R391). -/
def flitHeld (f : Flit) (s : State) : Bool := (s.heldIn (flitPa f) (flitBytes f)).isSome

/-- Flits are applied one after another, and the waits at their homes are judged by each alone (R257). -/
def applyFlits : List Flit → State → State
  | [], s => s
  | f :: r, s => applyFlits r (judgeWaits (applyFlit f s))

/-- The sequence number that a source's next flit bears. -/
def nextSeq (src : Nat) (s : State) : Nat := NMap.getD s.hub.peerSeq src 0

/-- The flit that comes next of its source is applied, and the waits at its home are judged by it alone (R257). -/
def takeFlit (f : Flit) (s : State) : State :=
  judgeWaits ((applyFlit f s).modHub fun h => { h with peerSeq := NMap.set h.peerSeq f.src (f.seq + 1) })

/-- Flits of a source that have arrived are applied in sequence, up to one that is not there yet or must wait. -/
def takeEarly (src : Nat) : Nat → State → State
  | 0, s => s
  | n + 1, s =>
    match s.hub.peerEarly.find? fun f => f.src == src && f.seq == nextSeq src s && !flitHeld f s with
    | some f => takeEarly src n (takeFlit f (s.modHub fun h => { h with peerEarly := h.peerEarly.filter (· != f) }))
    | none => s

/-- Flits that had to wait go on, source by source. -/
def retryFlits (s : State) : State :=
  ((s.hub.peerEarly.map (·.src)).eraseDups).foldl (fun u src => takeEarly src u.hub.peerEarly.length u) s

/-- NELTUR_FLIT (R406): operations of one source are applied in sequence order, one that comes early waits for those before it; a
flit that a link sent again is not delivered twice. -/
def execNelturFlit (f : Flit) (s : State) : Out :=
  .next (if decide (f.seq < nextSeq f.src s) || s.hub.peerEarly.any (fun x => x.src == f.src && x.seq == f.seq) then s
    else
      let t := s.modHub fun h => { h with peerEarly := h.peerEarly ++ [f] }
      takeEarly f.src t.hub.peerEarly.length t)

/-- What a home says of a peer's wait: the value and the fault that end it, in its place of the line's list, or nothing while it is
held. -/
def peerWaitAnswer (x : PeerWait) (s : State) : Option (Word64 × BitVec 8) :=
  match x.verdict with
  | .met v => if lineBefore x.pa (peerKey x) s then none else some (v, 0)
  | .broken code => some (0, code)
  | .expired v => some (v, 0)
  | .held => if x.limit.any fun l => decide (l ≤ s.now) then some (BitVec.ofNat 64 (s.readNat x.pa 8), 0) else none

/-- A peer's wait is over: its answer leaves. -/
def endPeerWait (x : PeerWait) (a : Word64 × BitVec 8) (s : State) : State :=
  (s.modHub fun h => { h with peerWaits := h.peerWaits.filter (· != x) }).sendFlit x.src x.world x.cref 0 0 (.answer x.cref a.1 a.2)

/-- The peers' waits that are over are answered, one after another, in list order (R257, R260). -/
def answerPeers : Nat → State → State
  | 0, s => s
  | n + 1, s =>
    match s.hub.peerWaits.findSome? fun x => (peerWaitAnswer x s).map fun a => (x, a) with
    | some (x, a) => answerPeers n (endPeerWait x a s)
    | none => s

/-! ## Switches -/

/-- Two partitions share a cluster. -/
def shareCluster (p q : Nat) (s : State) : Bool := (s.part p).clusters.any fun c => (s.part q).clusters.contains c

/-- The incoming partition is in the shadow banks and no other's words issue on its clusters, or the shadow banks have room for it;
and no other partition stands in the shadow banks that the outgoing one will need (R298: a cluster holds one active partition and one
in its shadow banks). -/
def canEnter (outgoing incoming : Nat) (s : State) : Bool :=
  let others (p : Phase → Bool) (side : Nat) : Bool :=
    s.parts.any fun q => q.1 != outgoing && q.1 != incoming && p q.2.phase && shareCluster q.1 side s
  !others (· == .shadow) outgoing && (match (s.part incoming).phase with
    | .shadow => !others (fun ph => ph != .saved && ph != .shadow) incoming
    | .saved => !others (· != .saved) incoming
    | _ => false)

def trySwitchAnnounce (outgoing incoming at_ : Nat) (s : State) : Option State :=
  if (s.part outgoing).phase == .active && outgoing != incoming && canEnter outgoing incoming s && decide (s.now + 2000 ≤ at_) then
    some (s.modPart outgoing fun x => { x with phase := .announced, switchAt := at_, incoming := some incoming })
  else none

/-- SWITCH_ANNOUNCE (R299): the timestamp lies at least 2 µs ahead. -/
def execSwitchAnnounce (outgoing incoming at_ : Nat) (s : State) : Out := happen (trySwitchAnnounce outgoing incoming at_ s) s

/-- A sector that waits for a translation, a path or a line is not in flight. -/
def sectorWaits (c e : Nat) (j : Job) (s : State) : Bool :=
  match sectorOutcome c e (firstUnlanded j) j s with
  | .error (_, .hold _) => true
  | _ => false

/-- The engines of the partition have finished the sectors that were in flight at the timestamp (R300). -/
def enginesDone (p : Nat) (s : State) : Bool :=
  (s.part p).clusters.all fun c => (engineOf c s).entries.all fun x => x.2.part != p || jobSettled x.2 || sectorWaits c x.1 x.2 s

def trySwitchStop (p : Nat) (s : State) : Option State :=
  let x := s.part p
  if x.phase == .announced && decide (x.switchAt ≤ s.now) && enginesDone p s then some (s.modPart p fun y => { y with phase := .stopped })
  else none

/-- SWITCH_STOP (R299, R300): no word issues at or after the timestamp, and the engines have drained. A matrix command takes effect in
one step of the model, so none is cut. -/
def execSwitchStop (p : Nat) (s : State) : Out := happen (trySwitchStop p s) s

/-- The engine queue of a cluster, as far as it is the partition's, goes to the save area. -/
def saveJobs (p : Nat) : List Nat → State → State
  | [], s => s
  | c :: r, s =>
    let mine := (engineOf c s).entries.filter fun x => x.2.part == p
    let t := s.modPart p fun y => { y with savedJobs := y.savedJobs ++ mine.map fun x => ⟨c, x.1, x.2⟩ }
    saveJobs p r (modEngine c (fun e => { e with entries := e.entries.filter fun x => x.2.part != p }) t)

/-- The halt masks of a cluster's cores swap with the banks (R376). -/
def saveCores (p : Nat) : List Nat → State → State
  | [], s => s
  | c :: r, s =>
    let mine := (s.cluster c).cores.map fun k => (⟨c, k.1, k.2.groups, k.2.stopped, k.2.halted, k.2.stop⟩ : SavedCore)
    let t := s.modPart p fun y => { y with savedCores := y.savedCores ++ mine }
    saveCores p r (t.modCluster c fun x => { x with cores := x.cores.map fun k => (k.1, { k.2 with groups := 0, stopped := 0, halted := false, stop := 0 }) })

def restoreCores : List SavedCore → State → State
  | [], s => s
  | k :: r, s => restoreCores r (modCore k.cluster k.core (fun x => { x with groups := k.groups, stopped := k.stopped, halted := k.halted, stop := k.stop }) s)

/-- A slot of the save area goes back to its unit; one of another partition that stands in its place goes to the save area of that
one (R240). -/
def returnSlot (x : SlotSnap) (s : State) : State :=
  let y := slotAt x.cluster x.slot s
  modUnit x.cluster (fun u => { u with slots := NMap.set u.slots x.slot { x.val with next := max x.val.next y.next } })
    (if y.used then saveSlot x.cluster x.slot s else s)

def returnSlots : List SlotSnap → State → State
  | [], s => s
  | x :: r, s => returnSlots r (returnSlot x s)

/-- The stream entries of a partition's threads in their slots freeze at the switch (R194, R299). -/
def asidePart (p : Nat) (s : State) : State :=
  s.modAll fun h => if h.part = p ∧ h.place.isSome then State.asideThread s.tick h else h

def tryBankSwap (p : Nat) (s : State) : Option State :=
  let x := s.part p
  (x.incoming.filter fun _ => x.phase == .stopped).map fun q =>
    let t := asidePart p (saveCores p x.clusters (saveJobs p x.clusters s))
    let u := t.modPart p fun y => { y with phase := .shadow, incoming := none, saveBroken := false }
    let v := returnSlots (u.part q).savedSlots (u.modPart q fun y => { y with savedSlots := [] })
    (restoreCores (v.part q).savedCores v).modPart q fun y => { y with phase := .entering, savedCores := [] }

/-- BANK_SWAP (R298, R299): the outgoing partition stands in the shadow banks, the incoming one is about to issue. -/
def execBankSwap (p : Nat) (s : State) : Out := happen (tryBankSwap p s) s

/-- The saved queue entries are entered again (R300): a paused job keeps its BMAP, a running one goes on at its first unlanded
sector. -/
def rebuildJobs : List SavedJob → State → State
  | [], s => s
  | x :: r, s => rebuildJobs r (setJob x.cluster x.entry x.job s)

/-- The threads of a partition that hold slots on cores that are not halted. -/
def slotHolders (p : Nat) (s : State) : List Thread := s.threads.filter fun h => h.part == p && h.place.isSome && !coreHalted h s

/-- A save area that cannot be read (R392): the step is replayed, or lost. -/
def breakResume (p : Nat) (s : State) : State :=
  if (s.part p).saveBroken then
    s.modPart p fun y => { y with saveBroken := false, errors := y.errors ++ [⟨0, 0, 0, 0, 0, true, partLives p s⟩] }
  else s

/-- The threads in slots go on with their frozen entries, where their context blocks can be restored (R192, R392). -/
def thawPart (p : Nat) (s : State) : State := thawAll (slotHolders p s) s

/-- A fold flit waits at a line that a sweep or a repair holds (R339, R391). -/
def foldsHeld (p : Nat) (s : State) : Bool := (s.part p).folds.any fun f => flitHeld f s

def tryPartitionResume (p : Nat) (s : State) : Option State :=
  let x := s.part p
  if x.phase = .entering ∧ foldsHeld p s = false then
    let t := rebuildJobs x.savedJobs (applyFlits x.folds s)
    some (thawPart p (breakResume p (t.modPart p fun y => { y with phase := .active, folds := [], savedJobs := [] })))
  else none

/-- PARTITION_RESUME (R299, R300): the fold flits come first, once their lines answer, then the engine queues; only then does a word
issue. -/
def execPartitionResume (p : Nat) (s : State) : Out := happen (tryPartitionResume p s) s

def tryPartitionSave (p : Nat) (s : State) : Option State :=
  if (s.part p).phase = .shadow then some (s.modPart p fun y => { y with phase := .saved }) else none

/-- PARTITION_SAVE (R298). -/
def execPartitionSave (p : Nat) (s : State) : Out := happen (tryPartitionSave p s) s

end Sys2Proof.Machine
end

