-- ==== Sys2Proof/Machine/Recovery.lean ====
section
/-! DEFINITION. Detected errors, step replay, task re-runs, LOST-STEP, memory errors and repair, record-mode re-runs (20_recovery
R383-R393, 21_prog_replay R397-R399). -/

namespace Sys2Proof.Machine

open Sys2Proof

/-! ## Memory errors and repair (R390, R391) -/

/-- The digit record of a frozen entry is not as it was written: DCHK no longer agrees with it (R192). -/
def breakDigits (e : StreamEntry) : StreamEntry := if e.frozen then { e with dchk := e.dchk + 1 } else e

/-- A line of a hardware-owned area is broken, which shows when it is restored (R392): a partition's save area (area 6), its step
records (7), the task log (8), the context block (9) or the digit records (10) of a thread that has left its slot or is halted. -/
def breakArea (area n : Nat) (s : State) : State :=
  let known := NMap.get? s.parts n |>.isSome
  match area with
  | 6 => if known then s.modPart n fun p => { p with saveBroken := true } else s
  | 7 => if known then s.modPart n fun p => { p with recordsBroken := true } else s
  | 8 => s.modThread n fun h => { h with logBroken := true }
  | 10 => s.modThread n fun h => { h with ctx := { h.ctx with stream := h.ctx.stream.map breakDigits } }
  | _ => s.modThread n fun h => { h with broken := h.place.isNone || coreHalted h s }

/-- UNCORRECTABLE_ERROR (R390, R392, R399): the line of a physical address is marked. Addresses from 6 × 2^64 name the hardware-owned
areas, which no program reads. -/
def execUncorrectableError (address : Nat) (s : State) : Out :=
  .next (if 6 * regionSize ≤ address then breakArea (address / regionSize) (address % regionSize) s
    else { s with poison := NSet.add s.poison (address / 64) })

/-- Nanoseconds in which corrections of a row are counted. -/
def correctionNs : Nat := 10 ^ 9

/-- Corrections of a row within the last second. -/
def recentCorrections (row : HbmRow) (s : State) : Nat :=
  (s.hub.corrections.filter fun c => c.1 == row && decide (s.now < c.2 + correctionNs)).length

/-- CORRECTED_ERROR (R390, R391): the correction is silent and counted. -/
def execCorrectedError (row : HbmRow) (s : State) : Out :=
  .next (s.modHub fun h => { h with corrections := (h.corrections.filter fun c => decide (s.now < c.2 + correctionNs)) ++ [(row, s.now)] })

/-- An entry of the repair list (R410). -/
def repairEntry (row : HbmRow) : Word64 :=
  BitVec.ofNat 64 (2 ^ 63 + row.stack % 16 * 2 ^ 58 + row.pch % 512 * 2 ^ 49 + row.bank % 64 * 2 ^ 43 + row.row % 2 ^ 19 * 2 ^ 24)

/-- Append an entry: into the first place that is not valid, or nowhere where all 512 are. -/
def appendRepair (row : HbmRow) (s : State) : State :=
  match firstIdx 512 fun i => !((s.hub.repairList[i]?).getD 0).getLsbD 63 with
  | some i => writeRepair i (repairEntry row) s
  | none => s.logEvent .repairListFull

/-- The row whose corrections ask for a repair: the first counted among such rows. -/
def dueRow (s : State) : Option HbmRow :=
  (s.hub.corrections.find? fun c => decide (16 ≤ recentCorrections c.1 s) && !s.hub.quiesced.contains c.1).map (·.1)

def trySoftRepair (s : State) : Option State :=
  (dueRow s).map fun row => appendRepair row (s.modHub fun h => { h with quiesced := h.quiesced ++ [row] })

/-- SOFT_REPAIR (R391): the row's pseudo-channel is quiesced, and the row enters the repair list. -/
def execSoftRepair (s : State) : Out := happen (trySoftRepair s) s

def trySoftRepairComplete (s : State) : Option State :=
  match s.hub.quiesced with
  | row :: r =>
    some (s.modHub fun h => { h with
      quiesced := r, spared := h.spared ++ [row], corrections := h.corrections.filter fun c => c.1 != row })
  | [] => none

/-- SOFT_REPAIR_COMPLETE (R391): the spare row holds what the row held, poison marks and tags with it; requests that waited go on.
The repairs end in the order in which they began. -/
def execSoftRepairComplete (s : State) : Out := happen (trySoftRepairComplete s) s

/-! ## Restore (R386) -/

/-- The parts of a line that a restore writes: the whole line, or the granules of it that no `mred` of the step touched. -/
def restoreParts (keep : List Nat) (pa : Nat) : List (Nat × Nat) :=
  let g := granuleOf pa
  if keep.any (fun k => k / 64 == pa / 64) then ((piecesAt g pa 64).filter fun x => !keep.contains x.1) else [(pa, 64)]

def restorePart (q : Req) (cells : List Host.Cell) (tags : List Nat) : List (Nat × Nat) → State → State
  | [], s => s
  | (a, n) :: r, s =>
    let t := s.storeLine q a (Cells.read cells a n)
    restorePart q cells tags r { t with tags := (tags.filter fun g => a ≤ g * 16 && g * 16 < a + n).foldl NSet.add t.tags }

/-- A line as the records hold it goes back under its world's keys; a counter line, and the granules that a `mred` of the step
touched, are left as they stand. -/
def restoreLine (w : Nat) (keep : List Nat) (cells : List Host.Cell) (tags : List Nat) (line : Nat) (s : State) : State :=
  let pa := line * 64
  if s.isCounterLine pa then s else restorePart ⟨w, some (clusterOfLocal pa)⟩ cells tags (restoreParts keep pa) s

def restoreLines (w : Nat) (keep : List Nat) (cells : List Host.Cell) (tags : List Nat) : List Nat → State → State
  | [], s => s
  | l :: r, s => restoreLines w keep cells tags r (restoreLine w keep cells tags l s)

/-- The undo log, newest line first. -/
def restoreUndo (w : Nat) (keep : List Nat) : List UndoLine → State → State
  | [], s => s
  | u :: r, s => restoreUndo w keep r (restoreLine w keep u.cells u.tags u.line s)

/-- The page snapshot. -/
def restorePages (w : Nat) (keep : List Nat) : List PageSnap → State → State
  | [], s => s
  | p :: r, s => restorePages w keep r (restoreLines w keep p.cells p.tags ((List.range 64).map (· + p.page * 64)) s)

/-- A slot as the snapshot holds it, beside the one that stands in the unit now: the incarnations that others have had meanwhile stay
used. Of another partition's slot the contents come back where it still stands; where the step has claimed its place, that one is in
its save area and the place is free again; and where it is gone, what stands there now stays (R231, R240). -/
def snapSlotNow (p : Nat) (now snap : MSlot) : MSlot :=
  let next := max snap.next now.next
  if !snap.used || snap.part == p || (now.used && now.sinc == snap.sinc) then { snap with next }
  else if now.used && now.part == p then { MSlot.free with sinc := BitVec.ofNat 46 snap.next, next }
  else { now with next }

/-- The slot snapshot. -/
def restoreSlots (p : Nat) : List SlotSnap → State → State
  | [], s => s
  | x :: r, s =>
    let v := snapSlotNow p (slotAt x.cluster x.slot s) x.val
    restoreSlots p r (modUnit x.cluster (fun u => { u with slots := NMap.set u.slots x.slot v }) s)

/-- A cluster without the partition's matrix commands and those of its jobs that satisfy a test. -/
def dropWork (p : Nat) (gone : Job → Bool) (c : Cluster) : Cluster :=
  { c with
    mat := { c.mat with cmds := c.mat.cmds.filter fun m => m.part != p }
    engine := { c.engine with entries := c.engine.entries.filter fun j => !(j.2.part == p && gone j.2) } }

/-- The partition's pending matrix commands, and the copy jobs it had accepted in the step, go without further adds. -/
def cancelWork (p : Nat) (gone : Job → Bool) (s : State) : State :=
  { s with clusters := s.clusters.map fun c => (c.1, dropWork p gone c.2) }

/-- A member as its snapshot holds it, where the thread stands now: its slot, its last time, and what the sward trees hold of it, which
they keep (R387). -/
def restoreMember (order cycle : Nat) (now snap : Thread) : Thread :=
  restartLog { snap with
    place := now.place, cluster := now.cluster, status := if now.place.isSome then .running else .ready, effLevel := snap.prio
    readyOrder := order, readySince := cycle, slotSince := cycle, wait := none, stall := none, pairOut := [], exitStatus := none
    restartable := snap.restartable
    ctx := { snap.ctx with
      swcount := now.ctx.swcount, swtree := now.ctx.swtree, lastTime := max now.ctx.lastTime snap.ctx.lastTime, sseq := 0, stamped := 0, spawned := 0 } }

/-- A thread that has exited in the step, with what the trees hold of it still: a drop that has taken effect has left nothing there. -/
def exitedNow (s : State) (h : Thread) : Thread :=
  let held (n : Nat) : Bool := s.leavers.any fun l => l.world == h.world && l.cref == h.cref && l.key == swKey h (BitVec.ofNat 4 n)
  { h with ctx := { h.ctx with swtree := h.ctx.swtree.mapIdx fun n x => if held n then x else SwTree.none } }

/-- Where a snapshot's thread stands now: among the continuations, or among those that have exited in the step; of a redundant
pair the second to exit stands for both. -/
def standsNow (p : Nat) (s : State) (x : Thread) : Option Thread :=
  (s.threads.find? fun h => h.tid == x.tid && h.part == p && h.status != .killed).orElse fun _ =>
    (((s.part p).exited.find? fun h => h.tid == x.tid).orElse fun _ =>
      ((s.part p).exited.find? fun h => x.paired && h.cref == x.cref).map fun h => { h with cluster := x.cluster }).map (exitedNow s)

/-- The snapshots of the members that are still there or have exited in the step. -/
def restoredMembers (p : Nat) (s : State) : List Thread :=
  (s.part p).snaps.filterMap fun x => (standsNow p s x).map fun now => restoreMember (s.nextId + x.tid) s.cycle now x

/-- The continuations that the step created, freed. -/
def freeCreated (l : List Nat) : List Thread → State → State
  | [], s => s
  | h :: r, s => freeCreated l r (if l.contains h.tid then freeThread h s else s)

/-- The gates that members entered in the step. -/
def releaseMembers : List Thread → State → State
  | [], s => s
  | h :: r, s => releaseMembers r (releaseEntries h.ctx.dstack s)

/-- Members take their snapshots; what the tickets of abandoned requests held is freed. -/
def restoreThreads (p : Nat) (s : State) : State :=
  let x := s.part p
  let members := membersOf p s
  let fresh := members.filter fun h => !(x.snaps.any fun y => y.tid == h.tid)
  let t := releaseMembers (members.filter fun h => x.snaps.any fun y => y.tid == h.tid) (freeCreated (fresh.map (·.tid)) fresh s)
  let back := restoredMembers p s
  freeTickets x.world { t with
    thr := if t.thr.part = p then Thread.vacant else t.thr
    rest := (t.rest.filter fun h => h.part != p || h.status == .killed) ++ back
    leavers := t.leavers.filter fun l => !(l.world == x.world && back.any fun h => h.cref == l.cref)
    nextId := t.nextId + (back.map (·.tid)).foldl max 0 + 1 }

/-- The restore of a step's records. The error that the step replays for is a repeat when it comes again; a later detection is
discarded with the state that the replay restores (R394). -/
def restoreStep (p : Nat) (e : StepError) (s : State) : State :=
  let x := s.part p
  let t := restoreUndo x.world x.mredGranules x.undo.reverse (cancelWork p (fun j => j.stepNo == x.stepNo) s)
  let u := restoreSlots p x.slotSnaps (restorePages x.world x.mredGranules x.pages t)
  (restoreThreads p u).modPart p fun y => { y with
    errors := [], repeated := y.repeated ++ [e], stopped := true, restored := true, pages := [], undo := [], slotSnaps := []
    storeGranules := [], mredGranules := [], readRanges := [], writeRanges := [], created := [], exited := [], reports := [], folds := []
    reborn := y.reborn.map fun b => { b with made := false } }

/-- Some line of the undo log cannot be written now: its channel is quiesced, or it is at a sweep pointer (R339, R394). -/
def restoreWaits (p : Nat) (s : State) : Bool := (s.part p).undo.any fun u => s.lineHeld (u.line * 64)

/-! ## LOST-STEP (R392) -/

def killAll : List Thread → State → State
  | [], s => s
  | h :: r, s => killAll r (killThread h.tid s)

/-- The partition's accumulator slots on a unit return (R231). -/
def endPartSlots (p c : Nat) : List (Nat × MSlot) → State → State
  | [], s => s
  | (n, x) :: r, s => endPartSlots p c r (if x.used ∧ x.part = p then endSlot p c n s else s)

def endPartUnits (p : Nat) : List (Nat × Cluster) → State → State
  | [], s => s
  | (c, x) :: r, s => endPartUnits p r (endPartSlots p c x.mat.slots s)

/-- Every continuation of the partition is KILLED, its launches show 0x04, and memory keeps its contents. -/
def lostStep (p : Nat) (s : State) : State :=
  let t := { s with launches := s.launches.map fun l => if l.part = p ∧ l.status.isNone ∧ !l.written then decideLaunch 4 l else l }
  let u := killAll (t.threads.filter fun h => h.part == p && h.status != .killed) t
  let w := (cancelWork p jobLive u).modPart p fun x => { x with
    keeps := false, restartable := false, errors := [], repeated := [], stopped := false, restored := false, saveBroken := false, recordsBroken := false
    snaps := [], pages := [], undo := [], slotSnaps := [], created := [], exited := [], reports := [], folds := []
    savedSlots := [] }
  endPartUnits p w.clusters w

/-! ## The routes of a detected error (R383) -/

/-- The thread's error can be undone by a re-run of its task (R383, R389): it is no pair divergence and no broken save area, and
the task log can be read (R392). -/
def rerunnable (h : Thread) (s : State) : Bool :=
  h.stall == some .recovery && h.restartable && h.task.isSome && !h.logBroken
    && !(s.part h.part).errors.any fun e => e.tid == h.tid && (e.code == 0x43 || e.save)

/-- The error waits for the step's replay. -/
def needsReplay (e : StepError) (s : State) : Bool :=
  match s.thread? e.tid with
  | some h => !rerunnable h s
  | none => true

/-- The step was restartable when the error was detected (R385, R396), and its records can be restored. -/
def canReplay (p : Nat) (e : StepError) (s : State) : Bool :=
  let x := s.part p
  x.keeps && e.replay && !x.recordsBroken && !x.restored

def tryStepReplay (p : Nat) (s : State) : Option State :=
  ((s.part p).errors.find? fun e => matrixRuns p s && needsReplay e s).bind fun e =>
    if !canReplay p e s then some (lostStep p s) else if restoreWaits p s then none else some (restoreStep p e s)

/-- STEP_REPLAY (R386): the partition's records are restored, or the step is lost (R385, R392). -/
def execStepReplay (p : Nat) (s : State) : Out := happen (tryStepReplay p s) s

def tryReplayResume (p : Nat) (s : State) : Option State :=
  let x := s.part p
  if x.stopped && x.restored then
    some (if x.recordsBroken then lostStep p s else s.modPart p fun y => { y with stopped := false, restored := false })
  else none

/-- REPLAY_RESUME (R386, R394): every member goes on from its snapshot; an error met during the restore loses the step. -/
def execReplayResume (p : Nat) (s : State) : Out := happen (tryReplayResume p s) s

/-- A free slot of another core that the thread's affinity admits. -/
def otherSlot (h : Thread) (s : State) : Option (Nat × Nat) :=
  let here := h.place.map (· / 8)
  (List.range 1024).findSome? fun core =>
    if some core != here && mayRunOn h (core / 16) s then (firstIdx 8 fun x => slotIsFree core x s).map fun x => (core, x) else none

/-- The thread starts its task again from its log (R389). The second re-run in a step clears RESTARTABLE. -/
def rerunThread (l : TaskLog) (h : Thread) : Thread :=
  { h with
    stall := none, wait := none, restartable := h.restartable && l.reruns == 0
    task := some { l with reruns := l.reruns + 1, giving := l.vals, skip := l.effects }
    ctx := { l.start with swcount := h.ctx.swcount, swtree := h.ctx.swtree, lastTime := h.ctx.lastTime } }

def tryTaskRerun (t : Nat) (s : State) : Option State :=
  ((s.thread? t).filter fun h => rerunnable h s && matrixRuns h.part s).bind fun h => h.task.map fun l =>
    if h.broken then refuseBroken h s
    else
    let u := (releaseEntries h.ctx.dstack s).modPart h.part fun p => { p with errors := p.errors.filter fun e => e.tid != t }
    let v := u.modThread t fun x => rerunThread l { x with place := none }
    match (otherSlot h v).orElse fun _ => h.place.map fun k => (k / 8, k % 8) with
    | some (core, slot) => enterSlot t core slot v
    | none => makeReady t v

/-- TASK_RERUN (R383, R389): on another core, or on the same one where no other offers a slot. -/
def execTaskRerun (t : Nat) (s : State) : Out := happen (tryTaskRerun t s) s

/-! ## Record mode (R393) -/

def tryRecordModeRerun (t : Nat) (s : State) : Option State :=
  let fits (h : Thread) : Bool := !h.paired || (pairCluster h.part h.level h.cls h.cluster s).isSome
  ((NMap.get? s.recAreas t).filter fun a => fits a.start).map fun a => addThread { a.start with cref := BitVec.ofNat 64 s.nextId, recGiving := a.log, member := 0 } s

/-- RECORD_MODE_RERUN: a run on the same placement from the log of a record-mode continuation. -/
def execRecordModeRerun (t : Nat) (s : State) : Out := happen (tryRecordModeRerun t s) s

end Sys2Proof.Machine
end

