-- ==== Sys2Proof/Machine/Platform.lean ====
section
/-! DEFINITION. Reset and bring-up, power, links, expanders, and what Moaly does to a copy engine (22_platform R403-R411,
19_traps R375). -/

namespace Sys2Proof.Machine

open Sys2Proof

/-! ## Reset (R408, R411) -/

/-- The host's and the peers' memory lies outside the package. -/
def outsidePackage (pa : Nat) : Bool := regionOf pa == 3 || regionOf pa == 4

/-- RESET: bring-up starts before stage 1. The repair list and the count of turnovers are non-volatile; no key survives, so that nothing
opens what lies sealed in a peer's memory (R332, R411). -/
def execReset (s : State) : Out :=
  .next { State.reset with
    mem := s.mem.filter fun c => outsidePackage c.1, tags := s.tags.filter fun g => outsidePackage (g * 16)
    ctrLines := s.ctrLines.filter fun l => outsidePackage (l * 64), poison := s.poison.filter fun l => outsidePackage (l * 64)
    broken := s.broken.filter fun l => outsidePackage (l * 64), seals := s.seals.filter fun z => outsidePackage (z.1 * 64)
    hub := { Hub.reset with repairList := s.hub.repairList, turns := s.hub.turns }
    inputs := s.inputs, tick := s.tick, nextId := s.nextId }

/-- Hard repair of the valid entries; a row with no spare has FAILED set (R410). -/
def hardRepair (tick : Nat) (l : List Word64) : List Word64 :=
  l.mapIdx fun i e => if e.getLsbD 63 && Config.noSpare tick i then e ||| (1 <<< 62) else e

/-- The dies after their self test. -/
def testedDies (bad : BitVec 8) : Vector DLatch 8 := (Vector.replicate 8 (⟨false, true, 0⟩ : DLatch)).mapIdx fun d x => { x with clean := !bad.getLsbD d }

/-- The expanders of a port, one after the other from offset 0 (R405). -/
def attachExpanders (port base : Nat) : List Nat → List Expander
  | [] => []
  | n :: r => ⟨port, base, n, true⟩ :: attachExpanders port (base + n) r

/-- What stage 5 finds at the ports: expanders, links, and the links from which each peer id is reached. -/
def findPorts (tick : Nat) (h : Hub) : Hub :=
  { h with
    expanders := (List.range 4).flatMap fun p => attachExpanders p 0 (Config.expandersUp tick p), links := Config.linksUp tick
    peerPaths := (List.range 4096).map fun peer => (peer, Config.peerLinks peer) }

/-- The action of a stage of R408; the outcomes of training and tests are free (log entry 15). -/
def stageAction (n : Nat) (s : State) : State :=
  match n with
  | 1 => (measureFirmware s).modHub fun h => { h with measured := true }
  | 2 => s.modHub fun h => { h with started := true }
  | 3 =>
    let bad := Config.stackFails s.tick
    s.modHub fun h => { h with
      stackOk := ~~~bad, degraded := h.degraded || bad != 0, repairList := hardRepair s.tick h.repairList }
  | 4 =>
    let bad := Config.dieFails s.tick
    s.modHub fun h => { h with dlatch := testedDies bad, degraded := h.degraded || bad != 0 }
  | 5 => s.modHub (findPorts s.tick)
  | 6 => measureConfig s
  | _ => s

def tryBringupStageComplete (s : State) : Option State :=
  let n := s.hub.stage + 1
  if decide (n ≤ 7) && !s.hub.failed then
    some (State.nextTick (if decide (n ≤ 2) && !Config.bootOk s.tick then s.modHub fun h => { h with failed := true }
      else (stageAction n s).modHub fun h => { h with stage := n }))
  else none

/-- BRINGUP_STAGE_COMPLETE: a failure in stage 1 or 2 stops bring-up. -/
def execBringupStageComplete (s : State) : Out := happen (tryBringupStageComplete s) s

/-- POWER_LIMIT (R403): the clocks of every compute die; nothing but time depends on them. -/
def execPowerLimit (mhz : Nat) (s : State) : Out := .next (s.modHub fun h => { h with clockMhz := mhz })

/-- LINK_FAILURE (R407): the link's traffic is left to the others. -/
def execLinkFailure (link : Nat) (s : State) : Out := .next (s.modHub fun h => { h with links := h.links &&& ~~~(BitVec.ofNat 32 (2 ^ link)) })

/-- LINK_RETRAIN_COMPLETE (R407). -/
def execLinkRetrainComplete (link : Nat) (s : State) : Out := .next (s.modHub fun h => { h with links := h.links ||| BitVec.ofNat 32 (2 ^ link) })

/-- The expander number `k` of a port is gone. -/
def dropExpander (port : Nat) : Nat → List Expander → List Expander
  | _, [] => []
  | k, x :: r =>
    if x.port ≠ port then x :: dropExpander port k r
    else match k with
      | 0 => { x with present := false } :: r
      | n + 1 => x :: dropExpander port n r

/-- EXPANDER_REMOVAL (R405): loads of its offsets read as uncorrectable, stores are discarded. The number names the port by its
remainder modulo 4 and the expander among the port's by its quotient. -/
def execExpanderRemoval (expander : Nat) (s : State) : Out :=
  .next (s.modHub fun h => { h with expanders := dropExpander (expander % 4) (expander / 4) h.expanders })

/-! ## Engines (R375) -/

/-- The sectors in flight of a stopping engine are finished. -/
def engineDrained (c : Nat) (s : State) : Bool := (engineOf c s).entries.all fun x => jobSettled x.2 || sectorWaits c x.1 x.2 s

def tryEngineStop (c : Nat) (s : State) : Option State :=
  let e := engineOf c s
  if !e.stop then some (modEngine c (fun x => { x with stop := true }) s)
  else if !e.stopped && engineDrained c s then some (modEngine c (fun x => { x with stopped := true }) s)
  else none

/-- ENGINE_STOP: STOP is set; once the sectors in flight are finished, STOPPED is. -/
def execEngineStop (c : Nat) (s : State) : Out := happen (tryEngineStop c s) s

def tryEngineResume (c : Nat) (s : State) : Option State :=
  if (engineOf c s).stop then some (modEngine c (writeEngctl 0) s) else none

/-- ENGINE_RESUME: STOP is cleared, and the queue goes on. -/
def execEngineResume (c : Nat) (s : State) : Out := happen (tryEngineResume c s) s

def tryEngineEntryWrite (c entry : Nat) (v : Word64) (s : State) : Option State :=
  if (engineOf c s).stopped && decide (entry < 64) then some (modEngine c (writeMeta entry v (blankJob s) s) s) else none

/-- ENGINE_ENTRY_WRITE: META of an entry of a stopped engine. -/
def execEngineEntryWrite (c entry : Nat) (v : Word64) (s : State) : Out := happen (tryEngineEntryWrite c entry v s) s

end Sys2Proof.Machine
end

