-- ==== Sys2Proof/Machine/VecCmp.lean ====
section
/-! DEFINITION. Compares and thresholds (10_vector R209). -/

namespace Sys2Proof.Machine

open Sys2Proof

/-- An integer compare: the mask of the relation; both sources count for VOID. -/
def intCompare (r : Rel) (ka kb u : Bool) (e : ElemTy) (b a d : RegNum) (s : State) : Out :=
  vecWord2 e ka kb b a d (fun x y =>
    let w := ElemTy.bits e
    withVoid e [x, y] (lanes2 e (fun p q => (maskOf w (intRel r u w p q), 0)) x y)) s

def floatCompare (r : Rel) (ka kb : Bool) (e : ElemTy) (b a d : RegNum) (s : State) : Out :=
  vecWord2 e ka kb b a d (fun x y =>
    withVoid e [x, y] (lanes2 e (fun p q =>
      let (h, fl) := floatRel (ElemTy.fmt e) r p q
      (maskOf (ElemTy.bits e) h, fl)) x y)) s

/-- `fthr`: every element of A against element 0 of B, the only element of B that is read (R202). -/
def threshold (r : Rel) (ka kb : Bool) (e : ElemTy) (b a d : RegNum) (s : State) : Out :=
  vecWord2 e ka kb b a d (fun x y =>
    let t := ((lanes e y)[0]?).getD 0
    let (v, fl) := lanes1 e (fun p =>
      let (h, g) := thresholdRel (ElemTy.fmt e) r p t
      (maskOf (ElemTy.bits e) h, g)) x
    (v, fl ||| voidSeen e (lanes e x) ||| voidSeen e [t])) s

def execVcmpEq (ka kb u : Bool) (e : ElemTy) (b a d : RegNum) (s : State) : Out := intCompare .eq ka kb u e b a d s
def execVcmpNe (ka kb u : Bool) (e : ElemTy) (b a d : RegNum) (s : State) : Out := intCompare .ne ka kb u e b a d s
def execVcmpLt (ka kb u : Bool) (e : ElemTy) (b a d : RegNum) (s : State) : Out := intCompare .lt ka kb u e b a d s
def execVcmpLe (ka kb u : Bool) (e : ElemTy) (b a d : RegNum) (s : State) : Out := intCompare .le ka kb u e b a d s
def execVcmpGt (ka kb u : Bool) (e : ElemTy) (b a d : RegNum) (s : State) : Out := intCompare .gt ka kb u e b a d s
def execVcmpGe (ka kb u : Bool) (e : ElemTy) (b a d : RegNum) (s : State) : Out := intCompare .ge ka kb u e b a d s
def execFcmpEq (ka kb : Bool) (e : ElemTy) (b a d : RegNum) (s : State) : Out := floatCompare .eq ka kb e b a d s
def execFcmpNe (ka kb : Bool) (e : ElemTy) (b a d : RegNum) (s : State) : Out := floatCompare .ne ka kb e b a d s
def execFcmpLt (ka kb : Bool) (e : ElemTy) (b a d : RegNum) (s : State) : Out := floatCompare .lt ka kb e b a d s
def execFcmpLe (ka kb : Bool) (e : ElemTy) (b a d : RegNum) (s : State) : Out := floatCompare .le ka kb e b a d s
def execFcmpGt (ka kb : Bool) (e : ElemTy) (b a d : RegNum) (s : State) : Out := floatCompare .gt ka kb e b a d s
def execFcmpGe (ka kb : Bool) (e : ElemTy) (b a d : RegNum) (s : State) : Out := floatCompare .ge ka kb e b a d s
def execFthrGe (ka kb : Bool) (e : ElemTy) (b a d : RegNum) (s : State) : Out := threshold .ge ka kb e b a d s
def execFthrLt (ka kb : Bool) (e : ElemTy) (b a d : RegNum) (s : State) : Out := threshold .lt ka kb e b a d s

end Sys2Proof.Machine
end

