-- ==== Sys2Proof/Machine/VecFloat.lean ====
section
/-! DEFINITION. Floating-point words: majors 0x21, 0x22 and 0x23 (10_vector R204-R208). -/

namespace Sys2Proof.Machine

open Sys2Proof

/-- A float word of two sources that both count for VOID (R202). -/
def floatWord2 (e : ElemTy) (ka kb : Bool) (b a d : RegNum) (f : Fmt → Nat → Nat → Nat × Flags) (s : State) : Out :=
  vecWord2 e ka kb b a d (fun x y => withVoid e [x, y] (lanes2 e (f (ElemTy.fmt e)) x y)) s

def floatWord1 (e : ElemTy) (a d : RegNum) (f : Fmt → Nat → Nat × Flags) (s : State) : Out :=
  vecWord1 e a d (fun x => withVoid e [x] (lanes1 e (f (ElemTy.fmt e)) x)) s

def execFadd (r : BitVec 2) (e : ElemTy) (b a d : RegNum) (s : State) : Out :=
  floatWord2 e false false b a d (fun f => floatAdd f r) s
def execFsub (r : BitVec 2) (e : ElemTy) (b a d : RegNum) (s : State) : Out :=
  floatWord2 e false false b a d (fun f => floatSub f r) s
def execFmul (r : BitVec 2) (e : ElemTy) (b a d : RegNum) (s : State) : Out :=
  floatWord2 e false false b a d (fun f => floatMul f r) s
def execFmin (ka kb : Bool) (e : ElemTy) (b a d : RegNum) (s : State) : Out :=
  floatWord2 e ka kb b a d (fun f => floatPick f false) s
def execFmax (ka kb : Bool) (e : ElemTy) (b a d : RegNum) (s : State) : Out :=
  floatWord2 e ka kb b a d (fun f => floatPick f true) s

/-- Sign operations move bits: no flag, VOID included (R202, R205). -/
def execFabs (e : ElemTy) (a d : RegNum) (s : State) : Out :=
  vecWord1 e a d (lanes1 e fun x => (clearSign (ElemTy.fmt e) x, 0)) s
def execFneg (e : ElemTy) (a d : RegNum) (s : State) : Out :=
  vecWord1 e a d (lanes1 e fun x => (flipSign (ElemTy.fmt e) x, 0)) s
def execFsgn (e : ElemTy) (b a d : RegNum) (s : State) : Out :=
  vecWord2 e false false b a d (lanes2 e fun x y => (copySign (ElemTy.fmt e) x y, 0)) s

/-- The fused family (R62, R206). -/
def fusedWord (negP negC : Bool) (r : BitVec 2) (e : ElemTy) (c b a d : RegNum) (s : State) : Out :=
  vecWord [a, b, c] d e [] (fun vs =>
    let x := vs[0]?.getD 0
    let y := vs[1]?.getD 0
    let z := vs[2]?.getD 0
    withVoid e [x, y, z] (lanes3 e (floatFused (ElemTy.fmt e) r negP negC) x y z)) s

def execFfma (r : BitVec 2) (e : ElemTy) (c b a d : RegNum) (s : State) : Out := fusedWord false false r e c b a d s
def execFfms (r : BitVec 2) (e : ElemTy) (c b a d : RegNum) (s : State) : Out := fusedWord false true r e c b a d s
def execFfnma (r : BitVec 2) (e : ElemTy) (c b a d : RegNum) (s : State) : Out := fusedWord true false r e c b a d s
def execFfnms (r : BitVec 2) (e : ElemTy) (c b a d : RegNum) (s : State) : Out := fusedWord true true r e c b a d s

def execFdiv (r : BitVec 2) (e : ElemTy) (b a d : RegNum) (s : State) : Out :=
  floatWord2 e false false b a d (fun f => floatDiv f r) s
def execFsqrt (r : BitVec 2) (e : ElemTy) (a d : RegNum) (s : State) : Out := floatWord1 e a d (fun f => floatSqrt f r) s
def execFrcp (r : BitVec 2) (e : ElemTy) (a d : RegNum) (s : State) : Out := floatWord1 e a d (fun f => floatRcp f r) s
def execFrsq (r : BitVec 2) (e : ElemTy) (a d : RegNum) (s : State) : Out := floatWord1 e a d (fun f => floatRsq f r) s
def execFexp2 (r : BitVec 2) (e : ElemTy) (a d : RegNum) (s : State) : Out := floatWord1 e a d (fun f => floatExp2 f r) s
def execFlog2 (r : BitVec 2) (e : ElemTy) (a d : RegNum) (s : State) : Out := floatWord1 e a d (fun f => floatLog2 f r) s

end Sys2Proof.Machine
end

