-- ==== Sys2Proof/Machine/VecInt.lean ====
section
/-! DEFINITION. Vector integer words (10_vector R203). -/

namespace Sys2Proof.Machine

open Sys2Proof

/-- A flagless element function. -/
def pure1 (f : Nat → Nat) (a : Nat) : Nat × Flags := (f a, 0)
def pure2 (f : Nat → Nat → Nat) (a b : Nat) : Nat × Flags := (f a b, 0)

/-- An integer word of two sources; both count for VOID (R202). -/
def intWord2 (e : ElemTy) (ka kb : Bool) (b a d : RegNum) (f : Nat → Nat → Nat → Nat) (s : State) : Out :=
  vecWord2 e ka kb b a d (fun x y => withVoid e [x, y] (lanes2 e (pure2 (f (ElemTy.bits e))) x y)) s

def intWord1 (e : ElemTy) (a d : RegNum) (f : Nat → Nat → Nat) (s : State) : Out :=
  vecWord1 e a d (fun x => withVoid e [x] (lanes1 e (pure1 (f (ElemTy.bits e))) x)) s

def execVadd (e : ElemTy) (b a d : RegNum) (s : State) : Out := intWord2 e false false b a d (fun w x y => (x + y) % 2 ^ w) s
def execVsub (e : ElemTy) (b a d : RegNum) (s : State) : Out :=
  intWord2 e false false b a d (fun w x y => (x + 2 ^ w - y) % 2 ^ w) s
def execVmul (e : ElemTy) (b a d : RegNum) (s : State) : Out := intWord2 e false false b a d (fun w x y => x * y % 2 ^ w) s
def execVmulh (u : Bool) (e : ElemTy) (b a d : RegNum) (s : State) : Out := intWord2 e false false b a d (mulHighW u) s

/-- `vmad` reads D as its third source. -/
def execVmad (e : ElemTy) (b a d : RegNum) (s : State) : Out :=
  vecWordD e false false b a d (fun z x y =>
    withVoid e [z, x, y] (lanes3 e (fun x y z => ((x * y + z) % 2 ^ ElemTy.bits e, 0)) x y z)) s

def execVand (e : ElemTy) (b a d : RegNum) (s : State) : Out := intWord2 e false false b a d (fun _ x y => x &&& y) s
def execVor (e : ElemTy) (b a d : RegNum) (s : State) : Out := intWord2 e false false b a d (fun _ x y => x ||| y) s
def execVxor (e : ElemTy) (b a d : RegNum) (s : State) : Out := intWord2 e false false b a d (fun _ x y => x ^^^ y) s
def execVshl (e : ElemTy) (b a d : RegNum) (s : State) : Out := intWord2 e false false b a d shlW s
def execVshr (e : ElemTy) (b a d : RegNum) (s : State) : Out := intWord2 e false false b a d shrW s
def execVsra (e : ElemTy) (b a d : RegNum) (s : State) : Out := intWord2 e false false b a d sraW s
def execVmin (ka kb u : Bool) (e : ElemTy) (b a d : RegNum) (s : State) : Out := intWord2 e ka kb b a d (minW u) s
def execVmax (ka kb u : Bool) (e : ElemTy) (b a d : RegNum) (s : State) : Out := intWord2 e ka kb b a d (maxW u) s
def execVabs (e : ElemTy) (a d : RegNum) (s : State) : Out := intWord1 e a d absW s
def execVclz (e : ElemTy) (a d : RegNum) (s : State) : Out := intWord1 e a d clzW s
def execVpop (e : ElemTy) (a d : RegNum) (s : State) : Out := intWord1 e a d popW s

end Sys2Proof.Machine
end

