-- ==== Sys2Proof/Machine/Dispatch.lean ====
section
/-! DEFINITION. One arm per constructor of Instr: a direct call of its meaning. -/

namespace Sys2Proof.Machine

open Sys2Proof

def exec (i : Instr) (s : State) : Host.Outcome State Fault Refusal :=
  match i with
  | .add sc b a d => Sys2Proof.Machine.execAdd sc b a d s
  | .sub sc b a d => Sys2Proof.Machine.execSub sc b a d s
  | .mul b a d => Sys2Proof.Machine.execMul b a d s
  | .mulh b a d => Sys2Proof.Machine.execMulh b a d s
  | .and sc b a d => Sys2Proof.Machine.execAnd sc b a d s
  | .or sc b a d => Sys2Proof.Machine.execOr sc b a d s
  | .xor sc b a d => Sys2Proof.Machine.execXor sc b a d s
  | .shl b a d => Sys2Proof.Machine.execShl b a d s
  | .shr b a d => Sys2Proof.Machine.execShr b a d s
  | .sra b a d => Sys2Proof.Machine.execSra b a d s
  | .min sc b a d => Sys2Proof.Machine.execMin sc b a d s
  | .max sc b a d => Sys2Proof.Machine.execMax sc b a d s
  | .slt sc b a d => Sys2Proof.Machine.execSlt sc b a d s
  | .slo sc b a d => Sys2Proof.Machine.execSlo sc b a d s
  | .addi imm a d => Sys2Proof.Machine.execAddi imm a d s
  | .andi imm a d => Sys2Proof.Machine.execAndi imm a d s
  | .ori imm a d => Sys2Proof.Machine.execOri imm a d s
  | .xori imm a d => Sys2Proof.Machine.execXori imm a d s
  | .shli imm a d => Sys2Proof.Machine.execShli imm a d s
  | .shri imm a d => Sys2Proof.Machine.execShri imm a d s
  | .srai imm a d => Sys2Proof.Machine.execSrai imm a d s
  | .slti imm a d => Sys2Proof.Machine.execSlti imm a d s
  | .ahi imm d => Sys2Proof.Machine.execAhi imm d s
  | .cpbound b a d => Sys2Proof.Machine.execCpbound b a d s
  | .cpperm b a d => Sys2Proof.Machine.execCpperm b a d s
  | .cpaddr b a d => Sys2Proof.Machine.execCpaddr b a d s
  | .cpinc b a d => Sys2Proof.Machine.execCpinc b a d s
  | .cpget sc a d => Sys2Proof.Machine.execCpget sc a d s
  | .cptest b a d => Sys2Proof.Machine.execCptest b a d s
  | .cpmove a d => Sys2Proof.Machine.execCpmove a d s
  | .beq o b a => Sys2Proof.Machine.execBeq o b a s
  | .bne o b a => Sys2Proof.Machine.execBne o b a s
  | .blt o b a => Sys2Proof.Machine.execBlt o b a s
  | .bge o b a => Sys2Proof.Machine.execBge o b a s
  | .blo o b a => Sys2Proof.Machine.execBlo o b a s
  | .bhs o b a => Sys2Proof.Machine.execBhs o b a s
  | .btag o a => Sys2Proof.Machine.execBtag o a s
  | .bnotag o a => Sys2Proof.Machine.execBnotag o a s
  | .jmp o => Sys2Proof.Machine.execJmp o s
  | .call o d => Sys2Proof.Machine.execCall o d s
  | .callr a d => Sys2Proof.Machine.execCallr a d s
  | .jmpr a => Sys2Proof.Machine.execJmpr a s
  | .ret a => Sys2Proof.Machine.execRet a s
  | .enter frame argw => Sys2Proof.Machine.execEnter frame argw s
  | .ld q m l z b a d => Sys2Proof.Machine.execLd q m l z b a d s
  | .st q m z b a d => Sys2Proof.Machine.execSt q m z b a d s
  | .mredAdd l z b a d => Sys2Proof.Machine.execMredAdd l z b a d s
  | .mredAnd l z b a d => Sys2Proof.Machine.execMredAnd l z b a d s
  | .mredOr l z b a d => Sys2Proof.Machine.execMredOr l z b a d s
  | .mredXor l z b a d => Sys2Proof.Machine.execMredXor l z b a d s
  | .mredMin l z b a d => Sys2Proof.Machine.execMredMin l z b a d s
  | .mredMax l z b a d => Sys2Proof.Machine.execMredMax l z b a d s
  | .mredMinUn l z b a d => Sys2Proof.Machine.execMredMinUn l z b a d s
  | .mredMaxUn l z b a d => Sys2Proof.Machine.execMredMaxUn l z b a d s
  | .mredAddFloat l z b a d => Sys2Proof.Machine.execMredAddFloat l z b a d s
  | .mredMinFloat l z b a d => Sys2Proof.Machine.execMredMinFloat l z b a d s
  | .mredMaxFloat l z b a d => Sys2Proof.Machine.execMredMaxFloat l z b a d s
  | .pref m z b a => Sys2Proof.Machine.execPref m z b a s
  | .pgalloc l z a d => Sys2Proof.Machine.execPgalloc l z a d s
  | .pgfree z a => Sys2Proof.Machine.execPgfree z a s
  | .ctadd l sc k b a d => Sys2Proof.Machine.execCtadd l sc k b a d s
  | .ctwait sc k b a => Sys2Proof.Machine.execCtwait sc k b a s
  | .ctwaitt sc k b a d => Sys2Proof.Machine.execCtwaitt sc k b a d s
  | .ctread l sc k a d => Sys2Proof.Machine.execCtread l sc k a d s
  | .ctinit b a => Sys2Proof.Machine.execCtinit b a s
  | .ctarr sc a => Sys2Proof.Machine.execCtarr sc a s
  | .ctarrDrop sc a => Sys2Proof.Machine.execCtarrDrop sc a s
  | .ctarrJoin sc a => Sys2Proof.Machine.execCtarrJoin sc a s
  | .cpyj a => Sys2Proof.Machine.execCpyj a s
  | .cpyq a d => Sys2Proof.Machine.execCpyq a d s
  | .vadd e b a d => Sys2Proof.Machine.execVadd e b a d s
  | .vsub e b a d => Sys2Proof.Machine.execVsub e b a d s
  | .vmul e b a d => Sys2Proof.Machine.execVmul e b a d s
  | .vmulh u e b a d => Sys2Proof.Machine.execVmulh u e b a d s
  | .vmad e b a d => Sys2Proof.Machine.execVmad e b a d s
  | .vand e b a d => Sys2Proof.Machine.execVand e b a d s
  | .vor e b a d => Sys2Proof.Machine.execVor e b a d s
  | .vxor e b a d => Sys2Proof.Machine.execVxor e b a d s
  | .vshl e b a d => Sys2Proof.Machine.execVshl e b a d s
  | .vshr e b a d => Sys2Proof.Machine.execVshr e b a d s
  | .vsra e b a d => Sys2Proof.Machine.execVsra e b a d s
  | .vmin ka kb u e b a d => Sys2Proof.Machine.execVmin ka kb u e b a d s
  | .vmax ka kb u e b a d => Sys2Proof.Machine.execVmax ka kb u e b a d s
  | .vabs e a d => Sys2Proof.Machine.execVabs e a d s
  | .vclz e a d => Sys2Proof.Machine.execVclz e a d s
  | .vpop e a d => Sys2Proof.Machine.execVpop e a d s
  | .fadd r e b a d => Sys2Proof.Machine.execFadd r e b a d s
  | .fsub r e b a d => Sys2Proof.Machine.execFsub r e b a d s
  | .fmul r e b a d => Sys2Proof.Machine.execFmul r e b a d s
  | .fmin ka kb e b a d => Sys2Proof.Machine.execFmin ka kb e b a d s
  | .fmax ka kb e b a d => Sys2Proof.Machine.execFmax ka kb e b a d s
  | .fabs e a d => Sys2Proof.Machine.execFabs e a d s
  | .fneg e a d => Sys2Proof.Machine.execFneg e a d s
  | .fsgn e b a d => Sys2Proof.Machine.execFsgn e b a d s
  | .ffma r e c b a d => Sys2Proof.Machine.execFfma r e c b a d s
  | .ffms r e c b a d => Sys2Proof.Machine.execFfms r e c b a d s
  | .ffnma r e c b a d => Sys2Proof.Machine.execFfnma r e c b a d s
  | .ffnms r e c b a d => Sys2Proof.Machine.execFfnms r e c b a d s
  | .fdiv r e b a d => Sys2Proof.Machine.execFdiv r e b a d s
  | .fsqrt r e a d => Sys2Proof.Machine.execFsqrt r e a d s
  | .frcp r e a d => Sys2Proof.Machine.execFrcp r e a d s
  | .frsq r e a d => Sys2Proof.Machine.execFrsq r e a d s
  | .fexp2 r e a d => Sys2Proof.Machine.execFexp2 r e a d s
  | .flog2 r e a d => Sys2Proof.Machine.execFlog2 r e a d s
  | .vcmpEq ka kb u e b a d => Sys2Proof.Machine.execVcmpEq ka kb u e b a d s
  | .vcmpNe ka kb u e b a d => Sys2Proof.Machine.execVcmpNe ka kb u e b a d s
  | .vcmpLt ka kb u e b a d => Sys2Proof.Machine.execVcmpLt ka kb u e b a d s
  | .vcmpLe ka kb u e b a d => Sys2Proof.Machine.execVcmpLe ka kb u e b a d s
  | .vcmpGt ka kb u e b a d => Sys2Proof.Machine.execVcmpGt ka kb u e b a d s
  | .vcmpGe ka kb u e b a d => Sys2Proof.Machine.execVcmpGe ka kb u e b a d s
  | .fcmpEq ka kb e b a d => Sys2Proof.Machine.execFcmpEq ka kb e b a d s
  | .fcmpNe ka kb e b a d => Sys2Proof.Machine.execFcmpNe ka kb e b a d s
  | .fcmpLt ka kb e b a d => Sys2Proof.Machine.execFcmpLt ka kb e b a d s
  | .fcmpLe ka kb e b a d => Sys2Proof.Machine.execFcmpLe ka kb e b a d s
  | .fcmpGt ka kb e b a d => Sys2Proof.Machine.execFcmpGt ka kb e b a d s
  | .fcmpGe ka kb e b a d => Sys2Proof.Machine.execFcmpGe ka kb e b a d s
  | .fthrGe ka kb e b a d => Sys2Proof.Machine.execFthrGe ka kb e b a d s
  | .fthrLt ka kb e b a d => Sys2Proof.Machine.execFthrLt ka kb e b a d s
  | .vsel ka kb e b a d => Sys2Proof.Machine.execVsel ka kb e b a d s
  | .vperm e b a d => Sys2Proof.Machine.execVperm e b a d s
  | .vbcast e n a d => Sys2Proof.Machine.execVbcast e n a d s
  | .vslide e n a d => Sys2Proof.Machine.execVslide e n a d s
  | .fcvtFromFc r e f a d => Sys2Proof.Machine.execFcvtFromFc r e f a d s
  | .fcvtToFc r e f a d => Sys2Proof.Machine.execFcvtToFc r e f a d s
  | .icvtToInt r e f a d => Sys2Proof.Machine.execIcvtToInt r e f a d s
  | .icvtToFloat r e f a d => Sys2Proof.Machine.execIcvtToFloat r e f a d s
  | .vpack e b a d => Sys2Proof.Machine.execVpack e b a d s
  | .vredAdd e a d => Sys2Proof.Machine.execVredAdd e a d s
  | .vredMin u e a d => Sys2Proof.Machine.execVredMin u e a d s
  | .vredMax u e a d => Sys2Proof.Machine.execVredMax u e a d s
  | .fredAdd r e a d => Sys2Proof.Machine.execFredAdd r e a d s
  | .fredMin e a d => Sys2Proof.Machine.execFredMin e a d s
  | .fredMax e a d => Sys2Proof.Machine.execFredMax e a d s
  | .xins e n a d => Sys2Proof.Machine.execXins e n a d s
  | .xext e n a d => Sys2Proof.Machine.execXext e n a d s
  | .xmov a d => Sys2Proof.Machine.execXmov a d s
  | .xli imm e d => Sys2Proof.Machine.execXli imm e d s
  | .xliHi imm d => Sys2Proof.Machine.execXliHi imm d s
  | .xliLo imm d => Sys2Proof.Machine.execXliLo imm d s
  | .xview b a d => Sys2Proof.Machine.execXview b a d s
  | .xshape a n => Sys2Proof.Machine.execXshape a n s
  | .xflags a d => Sys2Proof.Machine.execXflags a d s
  | .mfmt b a => Sys2Proof.Machine.execMfmt b a s
  | .mmaAcc c y t p => Sys2Proof.Machine.execMmaAcc c y t p s
  | .mmaNew l c y t p => Sys2Proof.Machine.execMmaNew l c y t p s
  | .mmaZero c p => Sys2Proof.Machine.execMmaZero c p s
  | .mmarAcc c y t p => Sys2Proof.Machine.execMmarAcc c y t p s
  | .mmarNew l c y t p => Sys2Proof.Machine.execMmarNew l c y t p s
  | .mmarZero c p => Sys2Proof.Machine.execMmarZero c p s
  | .aread e blk a d => Sys2Proof.Machine.execAread e blk a d s
  | .arel a => Sys2Proof.Machine.execArel a s
  | .spawn l a d => Sys2Proof.Machine.execSpawn l a d s
  | .exit a => Sys2Proof.Machine.execExit a s
  | .sysc n a d => Sys2Proof.Machine.execSysc n a d s
  | .allot a d => Sys2Proof.Machine.execAllot a d s
  | .getid sel d => Sys2Proof.Machine.execGetid sel d s
  | .time d => Sys2Proof.Machine.execTime d s
  | .gcall a => Sys2Proof.Machine.execGcall a s
  | .gmake a d => Sys2Proof.Machine.execGmake a d s
  | .grevoke a => Sys2Proof.Machine.execGrevoke a s
  | .grevokeEject a => Sys2Proof.Machine.execGrevokeEject a s
  | .dstat sel d => Sys2Proof.Machine.execDstat sel d s
  | .srd n d => Sys2Proof.Machine.execSrd n d s
  | .swr n a => Sys2Proof.Machine.execSwr n a s
  | .ctxst a d => Sys2Proof.Machine.execCtxst a d s
  | .ctxld a d => Sys2Proof.Machine.execCtxld a d s
  | .engrd n a d => Sys2Proof.Machine.execEngrd n a d s
  | .engwr n a d => Sys2Proof.Machine.execEngwr n a d s
  | .dbgstop n => Sys2Proof.Machine.execDbgstop n s
  | .haltg a d => Sys2Proof.Machine.execHaltg a d s
  | .hint p => Sys2Proof.Machine.execHint p s
  | .sig crc len => Sys2Proof.Machine.execSig crc len s
  | .launchRecord slot => Sys2Proof.Machine.execLaunchRecord slot s
  | .counterRecordAdd slot => Sys2Proof.Machine.execCounterRecordAdd slot s
  | .counterRecordWait slot => Sys2Proof.Machine.execCounterRecordWait slot s
  | .invalidRecordType slot => Sys2Proof.Machine.execInvalidRecordType slot s
  | .hostWaitReply id => Sys2Proof.Machine.execHostWaitReply id s
  | .completionRecord launch => Sys2Proof.Machine.execCompletionRecord launch s
  | .waiterWake t => Sys2Proof.Machine.execWaiterWake t s
  | .waitLimitExpiry t => Sys2Proof.Machine.execWaitLimitExpiry t s
  | .park t => Sys2Proof.Machine.execPark t s
  | .continuationTake core slot => Sys2Proof.Machine.execContinuationTake core slot s
  | .quantumEnd t => Sys2Proof.Machine.execQuantumEnd t s
  | .priorityAging t => Sys2Proof.Machine.execPriorityAging t s
  | .steal core slot => Sys2Proof.Machine.execSteal core slot s
  | .allotmentExhausted t => Sys2Proof.Machine.execAllotmentExhausted t s
  | .continuationLimitRelease t => Sys2Proof.Machine.execContinuationLimitRelease t s
  | .syscReply w refuse grant => Sys2Proof.Machine.execSyscReply w refuse grant s
  | .streamEntryComplete t => Sys2Proof.Machine.execStreamEntryComplete t s
  | .lookaheadWrite t => Sys2Proof.Machine.execLookaheadWrite t s
  | .copyQueueGrant cluster => Sys2Proof.Machine.execCopyQueueGrant cluster s
  | .copyJobStart cluster entry => Sys2Proof.Machine.execCopyJobStart cluster entry s
  | .sectorLand cluster entry sector => Sys2Proof.Machine.execSectorLand cluster entry sector s
  | .priResponse pasid page code => Sys2Proof.Machine.execPriResponse pasid page code s
  | .atsResponse pasid page answer => Sys2Proof.Machine.execAtsResponse pasid page answer s
  | .atsInvalidation pasid page => Sys2Proof.Machine.execAtsInvalidation pasid page s
  | .invalidationCompletion pasid page => Sys2Proof.Machine.execInvalidationCompletion pasid page s
  | .translationInvalidation w address entry => Sys2Proof.Machine.execTranslationInvalidation w address entry s
  | .matrixQueueGrant cluster => Sys2Proof.Machine.execMatrixQueueGrant cluster s
  | .matrixCommandStart cluster => Sys2Proof.Machine.execMatrixCommandStart cluster s
  | .matrixCommandComplete cluster cmd => Sys2Proof.Machine.execMatrixCommandComplete cluster cmd s
  | .areadTileWrite cluster cmd => Sys2Proof.Machine.execAreadTileWrite cluster cmd s
  | .slotRelease cluster cmd => Sys2Proof.Machine.execSlotRelease cluster cmd s
  | .domainKill w dom => Sys2Proof.Machine.execDomainKill w dom s
  | .worldKill w => Sys2Proof.Machine.execWorldKill w s
  | .generationBumpAck kill home => Sys2Proof.Machine.execGenerationBumpAck kill home s
  | .killUnwind t => Sys2Proof.Machine.execKillUnwind t s
  | .ejectUnwind t => Sys2Proof.Machine.execEjectUnwind t s
  | .budgetEnd t => Sys2Proof.Machine.execBudgetEnd t s
  | .farGateLanding hop => Sys2Proof.Machine.execFarGateLanding hop s
  | .farGateReturn hop => Sys2Proof.Machine.execFarGateReturn hop s
  | .rekey w => Sys2Proof.Machine.execRekey w s
  | .keySweepLine w home => Sys2Proof.Machine.execKeySweepLine w home s
  | .keySlotDestroy w => Sys2Proof.Machine.execKeySlotDestroy w s
  | .dlatchWrite die v => Sys2Proof.Machine.execDlatchWrite die v s
  | .turnoverStart w => Sys2Proof.Machine.execTurnoverStart w s
  | .hubRegisterWrite trusted page offset write => Sys2Proof.Machine.execHubRegisterWrite trusted page offset write s
  | .switchAnnounce outgoing incoming at_ => Sys2Proof.Machine.execSwitchAnnounce outgoing incoming at_ s
  | .switchStop p => Sys2Proof.Machine.execSwitchStop p s
  | .bankSwap p => Sys2Proof.Machine.execBankSwap p s
  | .partitionResume p => Sys2Proof.Machine.execPartitionResume p s
  | .stepBoundary p => Sys2Proof.Machine.execStepBoundary p s
  | .stepReplay p => Sys2Proof.Machine.execStepReplay p s
  | .replayResume p => Sys2Proof.Machine.execReplayResume p s
  | .taskRerun t => Sys2Proof.Machine.execTaskRerun t s
  | .uncorrectableError address => Sys2Proof.Machine.execUncorrectableError address s
  | .powerLimit mhz => Sys2Proof.Machine.execPowerLimit mhz s
  | .nelturFlit f => Sys2Proof.Machine.execNelturFlit f s
  | .linkFailure link => Sys2Proof.Machine.execLinkFailure link s
  | .expanderRemoval port => Sys2Proof.Machine.execExpanderRemoval port s
  | .hostMemoryAccess acc => Sys2Proof.Machine.execHostMemoryAccess acc s
  | .haltResume stop => Sys2Proof.Machine.execHaltResume stop s
  | .engineStop cluster => Sys2Proof.Machine.execEngineStop cluster s
  | .engineResume cluster => Sys2Proof.Machine.execEngineResume cluster s
  | .engineEntryWrite cluster entry v => Sys2Proof.Machine.execEngineEntryWrite cluster entry v s
  | .faultedResume t allot => Sys2Proof.Machine.execFaultedResume t allot s
  | .faultedFree t => Sys2Proof.Machine.execFaultedFree t s
  | .domainCreate w dom => Sys2Proof.Machine.execDomainCreate w dom s
  | .worldKeyLoad w => Sys2Proof.Machine.execWorldKeyLoad w s
  | .faultQueueDrain w => Sys2Proof.Machine.execFaultQueueDrain w s
  | .linkRetrainComplete link => Sys2Proof.Machine.execLinkRetrainComplete link s
  | .correctedError row => Sys2Proof.Machine.execCorrectedError row s
  | .pgfreeFramePush w => Sys2Proof.Machine.execPgfreeFramePush w s
  | .partitionSave p => Sys2Proof.Machine.execPartitionSave p s
  | .recordModeRerun t => Sys2Proof.Machine.execRecordModeRerun t s
  | .gret => Sys2Proof.Machine.execGret s
  | .tret => Sys2Proof.Machine.execTret s
  | .tretSkip => Sys2Proof.Machine.execTretSkip s
  | .yield => Sys2Proof.Machine.execYield s
  | .step => Sys2Proof.Machine.execStep s
  | .nop => Sys2Proof.Machine.execNop s
  | .illegalInstruction => Sys2Proof.Machine.execIllegalInstruction s
  | .turnoverOrderComplete => Sys2Proof.Machine.execTurnoverOrderComplete s
  | .sounariReport => Sys2Proof.Machine.execSounariReport s
  | .softRepair => Sys2Proof.Machine.execSoftRepair s
  | .softRepairComplete => Sys2Proof.Machine.execSoftRepairComplete s
  | .reset => Sys2Proof.Machine.execReset s
  | .bringupStageComplete => Sys2Proof.Machine.execBringupStageComplete s

end Sys2Proof.Machine
end

