-- ==== Sys2Proof/Machine/Agenda.lean ====
section
/-! DEFINITION. What can happen next: the words that may issue, from the fetch on, and the machine's own events; the passage of
time. Which of several comes first is free (log entry 1); how long it takes is free (log entry 2). -/

namespace Sys2Proof.Machine

open Sys2Proof

/-! ## What a word reads (R364) -/

/-- The base register and the offset register of a memory operand. -/
def addressRegs (m : BitVec 2) (b a : RegNum) : List RegNum := if m = 0 then [a, b] else [a]

/-- A counter operand: only a line's capability stands in a register. -/
def counterRegs (k : BitVec 2) (a : RegNum) : List RegNum := if k = 1 then [a] else []

/-- The access registers that a word reads. -/
def readsOf : Instr → List RegNum
  | .add _ b a _ | .sub _ b a _ | .mul b a _ | .mulh b a _ | .and _ b a _ | .or _ b a _ | .xor _ b a _ | .shl b a _ | .shr b a _
  | .sra b a _ | .min _ b a _ | .max _ b a _ | .slt _ b a _ | .slo _ b a _ | .cpbound b a _ | .cpperm b a _ | .cpaddr b a _
  | .cpinc b a _ | .cptest b a _ | .beq _ b a | .bne _ b a | .blt _ b a | .bge _ b a | .blo _ b a | .bhs _ b a | .ctinit b a
  | .mredAdd _ _ b a _ | .mredAnd _ _ b a _ | .mredOr _ _ b a _ | .mredXor _ _ b a _ | .mredMin _ _ b a _ | .mredMax _ _ b a _
  | .mredMinUn _ _ b a _ | .mredMaxUn _ _ b a _ | .mredAddFloat _ _ b a _ | .mredMinFloat _ _ b a _ | .mredMaxFloat _ _ b a _
  | .mfmt b a => [a, b]
  | .addi _ a _ | .andi _ a _ | .ori _ a _ | .xori _ a _ | .shli _ a _ | .shri _ a _ | .srai _ a _ | .slti _ a _ | .cpget _ a _
  | .cpmove a _ | .btag _ a | .bnotag _ a | .callr a _ | .jmpr a | .ret a | .pgalloc _ _ a _ | .pgfree _ a | .cpyj a | .cpyq a _
  | .xins _ _ a _ | .xshape a _ | .xflags a _ | .aread _ _ a _ | .arel a | .spawn _ a _ | .exit a | .sysc _ a _ | .allot a _
  | .gcall a | .gmake a _ | .grevoke a | .grevokeEject a | .swr _ a | .ctxld a _ | .engrd _ a _ | .haltg a _
  | .mmaAcc _ _ _ a | .mmaZero _ a | .mmarZero _ a => [a]
  | .ctxst a d | .engwr _ a d => [a, d]
  | .ld _ m _ _ b a _ | .pref m _ b a => addressRegs m b a
  | .st q m _ b a d => if q = 0 then d :: addressRegs m b a else addressRegs m b a
  | .ctadd _ _ k b a _ | .ctwait _ k b a => b :: counterRegs k a
  | .ctwaitt _ k b a d => b :: d :: counterRegs k a
  | .ctread _ _ k a _ => counterRegs k a
  | .xview b a d => [a, b, d]
  | .mmarAcc _ _ _ p | .mmarNew _ _ _ _ p => [p, nextReg p 1, nextReg p 2]
  | _ => []

/-- The v-view fields and queues that a word reads as sources. -/
def viewSourcesOf : Instr → List RegNum
  | .vadd _ b a _ | .vsub _ b a _ | .vmul _ b a _ | .vmulh _ _ b a _ | .vmad _ b a _ | .vand _ b a _ | .vor _ b a _ | .vxor _ b a _
  | .vshl _ b a _ | .vshr _ b a _ | .vsra _ b a _ | .vmin _ _ _ _ b a _ | .vmax _ _ _ _ b a _ | .fadd _ _ b a _ | .fsub _ _ b a _
  | .fmul _ _ b a _ | .fmin _ _ _ b a _ | .fmax _ _ _ b a _ | .fsgn _ b a _ | .fdiv _ _ b a _ | .vcmpEq _ _ _ _ b a _
  | .vcmpNe _ _ _ _ b a _ | .vcmpLt _ _ _ _ b a _ | .vcmpLe _ _ _ _ b a _ | .vcmpGt _ _ _ _ b a _ | .vcmpGe _ _ _ _ b a _
  | .fcmpEq _ _ _ b a _ | .fcmpNe _ _ _ b a _ | .fcmpLt _ _ _ b a _ | .fcmpLe _ _ _ b a _ | .fcmpGt _ _ _ b a _
  | .fcmpGe _ _ _ b a _ | .fthrGe _ _ _ b a _ | .fthrLt _ _ _ b a _ | .vsel _ _ _ b a _ | .vperm _ b a _ | .vpack _ b a _ => [a, b]
  | .ffma _ _ c b a _ | .ffms _ _ c b a _ | .ffnma _ _ c b a _ | .ffnms _ _ c b a _ => [a, b, c]
  | .vabs _ a _ | .vclz _ a _ | .vpop _ a _ | .fabs _ a _ | .fneg _ a _ | .fsqrt _ _ a _ | .frcp _ _ a _ | .frsq _ _ a _
  | .fexp2 _ _ a _ | .flog2 _ _ a _ | .vbcast _ _ a _ | .vslide _ _ a _ | .fcvtFromFc _ _ _ a _ | .fcvtToFc _ _ _ a _
  | .icvtToInt _ _ _ a _ | .icvtToFloat _ _ _ a _ | .vredAdd _ a _ | .vredMin _ _ a _ | .vredMax _ _ a _ | .fredAdd _ _ a _
  | .fredMin _ a _ | .fredMax _ a _ | .xext _ _ a _ | .xmov a _ => [a]
  | _ => []

/-- How many entries of queue `q` a word pops. -/
def popsOf (i : Instr) (q : Nat) : Nat :=
  match i with
  | .st k _ _ _ _ _ => if k ≠ 0 ∧ k.toNat + 1 = q then 1 else 0
  | _ => ((viewSourcesOf i).filter fun r => r.toNat == 28 + q && decide (q < 2)).length

/-- The words at which a fault that nothing has read is delivered (R364). -/
def isSyncWord : Instr → Bool
  | .ctadd _ _ _ _ _ _ | .ctarr _ _ | .ctarrDrop _ _ | .ctarrJoin _ _ | .ctwait _ _ _ _ | .ctwaitt _ _ _ _ _ | .ctread _ _ _ _ _
  | .sysc _ _ _ | .spawn _ _ _ | .gcall _ | .gret | .tret | .tretSkip | .step | .exit _ | .yield | .ctxst _ _ => true
  | _ => false

/-! ## Deferred faults (R364, R365) -/

/-- Every mark of the thread's registers and queues, and of results on their way to a register. -/
def marksOf (c : Ctx) : List Deferred :=
  c.regMarks.map (·.2) ++ c.pend.filterMap (·.mark) ++ State.queueMarks c

/-- The faults that are due at a word: those of what it reads and pops, and at a word of R364's second list all that no handler
has passed over yet. -/
def dueAt (i : Instr) (s : State) : List Deferred :=
  let c := s.thr.ctx
  let read := (readsOf i).filterMap fun r => NMap.get? c.regMarks r.toNat
  let popped := (List.range 4).flatMap fun q => State.entryMarks ((s.queue q).take (popsOf i q))
  let rest := if isSyncWord i then c.late ++ (marksOf c).filter fun m => !c.told.contains m.born else []
  read ++ popped ++ rest

/-- Class E before class G, then the older causing word. -/
def firstDue (l : List Deferred) : Option Deferred :=
  l.foldl (fun b d => match b with
    | none => some d
    | some x =>
      if State.classE d.code && !State.classE x.code then some d
      else if State.classE d.code == State.classE x.code && decide (d.born < x.born) then some d else some x) none

/-! ## The checker (R381) -/

def isSig : Instr → Bool
  | .sig _ _ => true
  | _ => false

/-- The words of major 0x3E, which raise no fault (R74). -/
def isHint : Instr → Bool
  | .nop | .hint _ => true
  | _ => false

/-- What the checker says of a word before it takes effect. At a word of major 0x3E it says nothing, since such a word is a
no-operation in every case (R74, R381): what it has to say comes at the next other word (DEDUCED, log entry 73). -/
def checkerVerdict (i : Instr) (s : State) : Res Unit :=
  let k := s.thr.ctx.checker
  if !(s.world s.thr.world).sigCheck || isHint i then .ok ()
  else if isSig i then require (!(k.inBlock && k.left == 0 && k.crc != k.want)) 0x41 k.sigPc
  else if k.landed then raise 0x42 s.pc
  else if !k.inBlock then .ok ()
  else require (k.left != 0 && (k.left != 1 || State.crcWord k.crc s.thr.ctx.ir == k.want)) 0x41 k.sigPc

/-! ## Issuing a word -/

/-- A word that reads or writes the window: it waits until the tile of an earlier `aread` is written (R237). -/
def usesWindow (i : Instr) : Bool :=
  let m := (encodeFields i).maj.toNat
  (decide (0x20 ≤ m) && decide (m ≤ 0x34)) ||
    (match i with
     | .ret _ | .enter _ _ | .gcall _ | .gret | .tret | .tretSkip | .exit _ => true
     | _ => false)

/-- The word at the program counter (R48, R49, R127): its four bytes through the code capability, at its CURSOR, which R316 and
R277 do not ask to be a multiple of 4 at a gate entry or a launch entry: the four bytes there are then the word. The fetch reads
what memory holds now, also where the thread itself has stored it and R49 lets the old word come until a `ctadd` and a later
acquire (both DESIGN CHOICE, log entry 75). -/
def fetch (s : State) : Res (Word32 × State) := do
  let c := s.thr.ctx.code
  let (ps, t) ← s.access s.who c c.cursor 4 needFetch 0
  match t.piecesFault t.req c.addr ps with
  | some (code, addr) => raise code (BitVec.ofNat 64 addr)
  | none =>
    let w : Word32 := BitVec.ofNat 32 (leNat (t.readPieces ps))
    .ok (w, t.modCtx fun x => { x with ir := w })

/-- The word at the program counter cannot be read: what a record shows of it is free (R366, log entry 6). -/
def unreadWord (s : State) : State := s.nextTick.modCtx fun c => { c with ir := (Config.unstated s.tick).setWidth 32 }

/-- The words that end every open window before they issue (R93). -/
def endsWindows : Instr → Bool
  | .gcall _ | .gret | .step => true
  | _ => false

/-- What a word finds once it issues: `gcall`, `gret` and `step` the results of the open windows written. -/
def atIssue (i : Instr) (s : State) : State := if endsWindows i then s.landAll else s

/-- What a decoded word meets before its meaning: deferred faults first, then the checker; `sig` meets only the checker, and a hint word
neither (R74). -/
def wordVerdict (i : Instr) (s : State) : Res Unit :=
  match if isHint i || isSig i then none else firstDue (dueAt i s) with
  | some d => .error (.fault { plainFault d.code d.addr with due := some d })
  | none => checkerVerdict i s

/-- A decoded word. -/
def runWord (i : Instr) (s : State) : Out :=
  if endsWindows i && s.resultPending then .next s
  else match wordVerdict i (atIssue i s) with
    | .error e => (atIssue i s).finish (.error e)
    | .ok _ => if areadPending s.thr s && usesWindow i then .next s else exec i (atIssue i s)

/-- The next word of the focused thread: fetched, judged (R75) and run. -/
def fetchAndRun (s : State) : Out :=
  match fetch s with
  | .error (.fault f) => (unreadWord s).finish (.error (.fault f))
  | .error (.hold f) => s.finish (.error (.hold f))
  | .ok (w, t) =>
    match decodeWord w with
    | .error _ => execIllegalInstruction t
    | .ok i => runWord i t

/-- The word of the focused thread; the fault that one has met already, if it has waited for room in the fault queue, is taken first
(R367). -/
def issueFocused (s : State) : Out :=
  match s.thr.stall with
  | some (.faultQueue f) => .next (s.clearStall.deliverTrap f)
  | _ => fetchAndRun s

/-- The next word of a thread. -/
def issueWord (t : Nat) (s : State) : Out := issueFocused (s.focus t)

/-! ## Which threads may issue -/

/-- The translation that a word waits for can go on: it is cached, or an answer is there that the word can take, or the host can
be asked again. -/
def atsMoves (pasid page : Nat) (s : State) : Bool :=
  let key := (pasid, page)
  s.hub.atc.any (fun e => e.pasid == pasid && e.page == page)
    || (if s.hub.noAnswer.contains key then
        decide (s.priCount pasid < Config.priSlots) || s.hub.priOut.contains key || s.hub.priFailed.contains key
      else !s.hub.atsOut.contains key && decide (s.hub.asked < Config.atsSlots))

/-- A target of `ctxst` is gone, or stands still with its work done. -/
def targetReady (t : Nat) (s : State) : Bool :=
  match s.thread? t with
  | none => true
  | some h => targetStill h s && (!h.captured || workDone t s)

/-- The word that waits under this stall may issue again. -/
def stallOver (h : Thread) (s : State) : Bool :=
  match h.stall with
  | none => true
  | some (.copyGranted _) | some (.matrixGranted _ _) | some .contGranted | some .arrival => true
  | some (.ring t) => ringRoom t (s.focus h.tid)
  | some (.revoke _ _ _) => !ejectPending (s.focus h.tid)
  | some (.target t) => targetReady t s
  | some (.peerPath p) => s.peerReached p
  | some (.ats pasid page) => atsMoves pasid page s
  | some (.line l) => !s.lineHeld (l * 64)
  | some (.faultQueue _) => !s.faultQueueFull h.world
  | some (.copyQueue _ _) | some (.matrixQueue _ _ _) | some (.contLimit _) | some (.sysc _ _) | some .boundary | some .recovery => false

/-- What an event of the machine's own does now; none where it is not to come. -/
def attempt (e : Instr) (s : State) : Option State :=
  match e with
  | .lookaheadWrite t => tryLookaheadWrite t s
  | .killUnwind t => tryKillUnwind t s
  | .ejectUnwind t => tryUnwind 1 t s
  | .budgetEnd t => tryUnwind 2 t s
  | .allotmentExhausted t => tryAllotmentExhausted t s
  | .quantumEnd t => tryQuantumEnd t s
  | .waiterWake t => tryWaiterWake t s
  | .waitLimitExpiry t => tryWaitLimitExpiry t s
  | .park t => tryPark t s
  | .priorityAging t => tryPriorityAging t s
  | .continuationLimitRelease t => tryContinuationLimitRelease t s
  | .streamEntryComplete t => tryStreamEntryComplete t s
  | .taskRerun t => tryTaskRerun t s
  | .continuationTake core slot => tryContinuationTake core slot s
  | .steal core slot => trySteal core slot s
  | .copyQueueGrant c => tryCopyQueueGrant c s
  | .copyJobStart c e => tryCopyJobStart c e s
  | .sectorLand c e k => trySectorLand c e k s
  | .engineStop c => tryEngineStop c s
  | .matrixQueueGrant c => tryMatrixQueueGrant c s
  | .matrixCommandStart c => tryMatrixCommandStart c s
  | .matrixCommandComplete c id => tryMatrixCommandComplete c id s
  | .areadTileWrite c id => tryAreadTileWrite c id s
  | .slotRelease c id => trySlotRelease c id s
  | .syscReply w refuse grant => trySyscReply w refuse grant s
  | .faultQueueDrain w => tryFaultQueueDrain w s
  | .pgfreeFramePush w => tryPgfreeFramePush w s
  | .keySweepLine w h => tryKeySweepLine w h s
  | .keySlotDestroy w => tryKeySlotDestroy w s
  | .switchStop p => trySwitchStop p s
  | .bankSwap p => tryBankSwap p s
  | .partitionResume p => tryPartitionResume p s
  | .stepBoundary p => tryStepBoundary p s
  | .stepReplay p => tryStepReplay p s
  | .replayResume p => tryReplayResume p s
  | .bringupStageComplete => tryBringupStageComplete s
  | .launchRecord slot => tryLaunchRecord slot s
  | .counterRecordAdd slot => tryCounterRecord 2 slot homeAnswers addRecord s
  | .counterRecordWait slot => tryCounterRecord 3 slot waitAnswers waitRecord s
  | .invalidRecordType slot => tryInvalidRecordType slot s
  | .hostWaitReply id => tryHostWaitReply id s
  | .completionRecord id => tryCompletionRecord id s
  | .generationBumpAck id h => tryGenerationBumpAck id h s
  | .farGateLanding id => tryFarGateLanding id s
  | .farGateReturn id => tryFarGateReturn id s
  | .invalidationCompletion pasid page => tryInvalidationCompletion pasid page s
  | .turnoverOrderComplete => tryTurnoverOrderComplete s
  | .sounariReport => trySounariReport s
  | .softRepair => trySoftRepair s
  | .softRepairComplete => trySoftRepairComplete s
  | _ => none

/-- An event of the machine's own may come now. -/
def enabled (e : Instr) (s : State) : Bool := (attempt e s).isSome

/-- What comes at the thread's word boundary before its next word: a window's write, the unwinding of a kill, of an eject or of
a budget, the stop of the allotment, the end of the quantum. -/
def boundaryEvent (t : Nat) (s : State) : Option Instr :=
  [.lookaheadWrite t, .killUnwind t, .ejectUnwind t, .budgetEnd t, .allotmentExhausted t, .quantumEnd t].find? fun e => enabled e s

/-- The thread's words may issue: it has allotment left, no kill of its domain waits for homes, and no `ctxst` has stopped it between two
words (R106, R287, R373). -/
def mayIssue (h : Thread) (s : State) : Bool :=
  h.ctx.allot != 0 && !(domDead h.world h.ctx.domain h.ctx.dgen s && killRunning h.world h.ctx.domain s) && !(h.captured && h.stall.isNone)

/-- The thread's next word may issue, or its pending fault be taken: every window that has ended has written its result (R93). -/
def issuable (h : Thread) (s : State) : Bool :=
  inSlot h s && h.wait.isNone && stallOver h s && (mayIssue h s || faultPending h) && h.ctx.pend.all (fun p => p.left != 0)
    && (boundaryEvent h.tid s).isNone

/-! ## The machine's own events -/

/-- Events of one thread. -/
def threadEvents (s : State) (h : Thread) : List Instr :=
  [.waiterWake h.tid, .waitLimitExpiry h.tid, .park h.tid, .priorityAging h.tid, .continuationLimitRelease h.tid,
    .streamEntryComplete h.tid, .taskRerun h.tid] ++ (boundaryEvent h.tid s).toList

/-- A READY record that some core of the cluster may take or steal. -/
def readyFor (c : Nat) (s : State) : Bool := !(queueFor c c s).isEmpty || (stolen c s).isSome

/-- Events of one cluster: its cores, its engine, its matrix unit. -/
def clusterEvents (s : State) (c : Nat) : List Instr :=
  let x := s.cluster c
  (if readyFor c s then (List.range 16).flatMap fun k => (List.range 8).flatMap fun n =>
      [.continuationTake (c * 16 + k) n, .steal (c * 16 + k) n] else [])
    ++ [.copyQueueGrant c, .matrixQueueGrant c, .matrixCommandStart c]
    ++ x.engine.entries.flatMap (fun e => .copyJobStart c e.1 ::
        (if e.2.state = .running then (List.range (sectorCount e.2.card)).map fun k => .sectorLand c e.1 k else []))
    ++ x.mat.cmds.flatMap (fun m => [.matrixCommandComplete c m.id, .areadTileWrite c m.id, .slotRelease c m.id])
    ++ (if x.engine.stop && !x.engine.stopped then [.engineStop c] else [])

/-- The clusters that hold anything or belong to a partition. -/
def activeClusters (s : State) : List Nat :=
  (List.range 64).filter fun c => (NMap.get? s.clusters c).isSome || s.parts.any fun p => p.2.clusters.contains c

/-- Events of one world: Moaly's answers to calls and drains, frames on their way back, the key sweep. -/
def worldEvents (s : State) (w : Nat × World) : List Instr :=
  (if w.2.ring.isEmpty then [] else [.syscReply w.1 (Config.refuses s.tick) (Config.grant s.tick)])
    ++ [.faultQueueDrain w.1, .pgfreeFramePush w.1]
    ++ (if w.2.keyState = .rekeying then (List.range 16).map fun h => .keySweepLine w.1 h else [])
    ++ (if w.2.keyState = .destroying then [.keySlotDestroy w.1] else [])

/-- Events of one partition. -/
def partEvents (p : Nat) : List Instr :=
  [.switchStop p, .bankSwap p, .partitionResume p, .stepBoundary p, .stepReplay p, .replayResume p]

/-- Events of one go record. -/
def recordEvents (r : HeldRecord) : List Instr :=
  [.launchRecord r.slot, .counterRecordAdd r.slot, .counterRecordWait r.slot, .invalidRecordType r.slot]

/-- Events of the hub. -/
def hubEvents (s : State) : List Instr :=
  let h := s.hub
  (if h.stage < 7 then [.bringupStageComplete] else [])
    ++ (h.goPending ++ h.held).flatMap recordEvents
    ++ s.hostWaits.map (fun w => .hostWaitReply w.id) ++ s.launches.map (fun l => .completionRecord l.id)
    ++ (s.launches.filter fun l => canAdvance l s).map (fun l => .launchRecord l.slot)
    ++ h.kills.flatMap (fun k => k.homes.map fun x => .generationBumpAck k.id x)
    ++ h.hops.flatMap (fun x => [.farGateLanding x.id, .farGateReturn x.id])
    ++ h.invOut.map (fun x => .invalidationCompletion x.1 x.2)
    ++ (if h.turnBusy then [.turnoverOrderComplete] else [])
    ++ (if h.attGo then [.sounariReport] else [])
    ++ [.softRepair, .softRepairComplete]

/-- Every event that the machine brings about itself and that is enabled now. -/
def ownEvents (s : State) : List Instr :=
  (hubEvents s ++ s.worlds.flatMap (worldEvents s) ++ s.parts.flatMap (fun p => partEvents p.1)
    ++ (activeClusters s).flatMap (clusterEvents s) ++ s.threads.flatMap (threadEvents s)).filter fun e => enabled e s

/-! ## One action, and the time it takes -/

/-- What a step does: a word of a thread, or an event. -/
inductive Action where
  | word (t : Nat)
  | event (e : Instr)
  deriving DecidableEq, Repr

/-- All that can happen now. -/
def actions (s : State) : List Action :=
  ((s.threads.filter fun h => issuable h s).map fun h => .word h.tid) ++ (ownEvents s).map .event

def perform (a : Action) (s : State) : Out :=
  match a with
  | .word t => issueWord t s
  | .event e => exec e s

/-- One of several actions, drawn by the tick. -/
def draw (l : List Action) (s : State) : Out :=
  match l[Config.choice s.tick % l.length]? with
  | some a => perform a s.nextTick
  | none => .next s

/-- Cycles pass for one continuation: a running one spends its allotment; one that stands still keeps its place in its quantum
and in its queue (R282, R283, R301, R376). -/
def passThread (n : Nat) (s : State) (h : Thread) : Thread :=
  if inSlot h s then { h with ctx := { h.ctx with allot := h.ctx.allot - n } }
  else if h.status = .running then { h with slotSince := h.slotSince + n }
  else if h.status = .ready ∧ !partRuns h.part s then { h with readySince := h.readySince + n }
  else h

/-- Cores with no free slot are not idle (R284). -/
def passCore (c : Nat) (now : Nat) (s : State) (k : Nat × Core) : Nat × Core :=
  if (List.range 8).any fun n => slotIsFree (c * 16 + k.1) n s then k else (k.1, { k.2 with idleSince := now })

/-- The limit of a halted thread's wait has passed (R376): its home ends the wait unmet, and the wake-up is held. -/
def expireHalted (s : State) (h : Thread) : Thread :=
  if coreHalted h s then
    { h with wait := h.wait.map fun w => match unmetValue h w s with
      | some v => { w with verdict := .expired v }
      | none => w }
  else h

/-- A target stays captured while a `ctxst` waits for it (R373). -/
def recapture (s : State) (h : Thread) : Thread :=
  if h.captured && !(s.threads.any fun g => g.stall == some (.target h.tid)) then { h with captured := false } else h

/-- What the homes have decided once an action is over: of the flits that had to wait, of the waits that they hold (R257, R258) and of
the launches (R278); and which targets a `ctxst` still waits for. -/
def settled (s : State) : State :=
  let t := judgeWaits (retryFlits s)
  let u := t.modAll (expireHalted t)
  judgeLaunches (answerPeers u.hub.peerWaits.length (u.modAll (recapture u)))

/-- Time passes: a free number of nanoseconds and of core cycles. -/
def pass (s : State) : State :=
  let n := Config.wordCycles s.tick
  let now := s.now + Config.stepNs s.tick
  let t := s.modAll (passThread n s)
  { t with
    now, cycle := s.cycle + n, tick := s.tick + 1
    clusters := t.clusters.map fun x => (x.1, { x.2 with cores := x.2.cores.map (passCore x.1 now s) }) }

/-- An action that went on is over, and time passes. -/
def andPass (o : Out) : Out :=
  match o with
  | .next s => .next (pass (settled s))
  | .fault f => .fault f
  | .refused r => .refused r

/-- An input must wait: its line is held (R339, R391), or a record-mode log has other arrivals first (R393). -/
def inputWaits (e : Instr) (s : State) : Bool :=
  match e with
  | .hostMemoryAccess acc => hostHeld acc s
  | .atsResponse pasid page _ => answerHeld pasid page s
  | _ => false

/-- The first input that does not have to wait, and the others. -/
def nextInput (s : State) : List Instr → Option (Instr × List Instr)
  | [] => none
  | e :: r => if inputWaits e s then (nextInput s r).map fun x => (x.1, e :: x.2) else some (e, r)

/-- One step: an input from outside if one has come, else one of the actions, else nothing but time; bring-up that has failed
goes no further. -/
def advanceMachine (s : State) : Out :=
  match nextInput s s.inputs with
  | some (e, r) => andPass (exec e { s with inputs := r })
  | none =>
    match actions s with
    | [] => if s.hub.failed then .fault .bringUpStopped else andPass (.next s)
    | [a] => andPass (perform a s)
    | l => andPass (draw l s)

/-! ## A program in place (log entry 28) -/

/-- A code capability over the first 64 KiB of cluster memory: LOCAL, X. -/
def placedCode : Cap := ⟨capBits 1 0x004 0 0 0 0x10000 0, true⟩

/-- The thread in slot 0 of core 0 of cluster 0, at address 0, with its registers, window, queues and counters as they are. -/
def placedThread (s : State) : Thread :=
  { s.thr with
    tid := 1, world := 1, baseDomain := 0, part := 0, launch := none, status := .running, cluster := 0, place := some 0,
    slotSince := s.cycle, wait := none, stall := none, hop := none, task := none, recGiving := [], paired := false, record := false, captured := false,
    ctx := { s.thr.ctx with
      code := placedCode, domain := 0, dgen := 0, allot := 2 ^ 47, stream := [], pend := [], late := [], regMarks := [], dstack := [],
      checker := Checker.idle } }

/-- World 1 with domain 0 live. -/
def placedWorld : World := { World.empty with domains := [(0, { Domain.free with state := .live })], contLimit := 1 }

/-- Partition 0 of world 1: cluster 0, running. -/
def placedPart : Partition := { Partition.empty with world := 1, clusters := [0], phase := .active }

/-- Cluster 0, where a launch of world 1 holds the first 64 KiB. -/
def placedCluster : Cluster := { Cluster.empty with allocs := [⟨0, 1, 1, 0, 0⟩] }

/-- The hub with bring-up over and die 0 latched to world 1. -/
def placedHub : Hub := { Hub.reset with stage := 7, dlatch := Hub.reset.dlatch.set 0 ⟨true, false, 1⟩ }

/-- The machine with the bytes at address 0 of cluster 0 and one thread there, so that its word is all that can happen next. -/
def placeProgram (bytes : List Byte) (s : State) : State :=
  { s with
    thr := placedThread s, rest := [], mem := Cells.write s.mem 0 bytes, poison := NSet.del s.poison 0, worlds := [(1, placedWorld)],
    parts := [(0, placedPart)], clusters := [(0, placedCluster)], hub := placedHub, launches := [], hostWaits := [], inputs := [],
    nextId := max 2 s.nextId }

end Sys2Proof.Machine
end

