-- ==== Sys2Proof/Machine/Step.lean ====
section
/-! DEFINITION. One step of the machine, and a word placed where the next step fetches it. -/

namespace Sys2Proof.Machine

open Sys2Proof

/-- One step: an input from outside, a word of a thread, an event of the machine's own, or nothing but time. -/
def step (s : State) : Host.Outcome State Fault Refusal := advanceMachine s

/-- The word `w` of `nbits` bits as the one program of a machine that the host has brought up and loaded (log entry 28). -/
def State.withFetchWord (s : State) (nbits w : Nat) : State :=
  placeProgram (bytesOfWord (BitVec.ofNat 32 (w % 2 ^ nbits))) s

end Sys2Proof.Machine
end

