-- ==== Sys2Proof/Safety.lean ====
section
/-! DEFINITION. The terms of the claims: the canonical form of memory, the frame of a word, and what it means that a word gives,
transfers, traps or waits. -/

namespace Sys2Proof.Machine

open Sys2Proof

/-- The canonical form of memory: addresses strictly rising, no entry equal to what an unlisted address reads as. -/
def Memory.wf (m : List Host.Cell) : Bool := Cells.wf m

/-- The result register after a word that writes `c` to it: a0 discards (R78, R122). -/
def written (d : RegNum) (c : Cap) : Cap := if d = 0 then Cap.null else c

/-- The state `t` is `m` but for what every word may change in its own thread: the program counter, the open lookahead
windows, the signature checker, a wait; and the registers with their marks and the faults with no register, of which `Becomes` says
more. Every other field of
the context (flags, queues, the window, local counters, trap registers), of the thread and of the machine is that of `m`. -/
structure Agrees (m t : State) : Prop where
  context : t.thr.ctx = { m.thr.ctx with
    code := t.thr.ctx.code, pend := t.thr.ctx.pend, checker := t.thr.ctx.checker, regs := t.thr.ctx.regs,
    regMarks := t.thr.ctx.regMarks, late := t.thr.ctx.late }
  thread : t.thr = { m.thr with ctx := t.thr.ctx, stall := t.thr.stall }
  machine : t = { m with thr := t.thr }

/-- From `s`, a word that writes the access registers `ds` makes `t` out of the state `m`: every other register and mark is as
in `s`, the faults with no register are those of `m` and those whose mark a written register loses undelivered (R364), the code
capability keeps all but its cursor, the open windows of `m` have counted one word (R93), and the rest is as in `m`. -/
structure Becomes (ds : List RegNum) (m s t : State) : Prop where
  regs : ∀ r, r ∉ ds → t.reg r = s.reg r
  marks : ∀ k, k ∈ t.thr.ctx.regMarks → k ∈ s.thr.ctx.regMarks
  marksKept : ∀ k, k ∈ s.thr.ctx.regMarks → (∀ d, d ∈ ds → k.1 ≠ d.toNat) → k ∈ t.thr.ctx.regMarks
  lateKept : ∀ x, x ∈ m.thr.ctx.late → x ∈ t.thr.ctx.late
  lateNew : ∀ x, x ∈ t.thr.ctx.late → x ∈ m.thr.ctx.late ∨ ∃ d, d ∈ ds ∧ (d.toNat, x) ∈ s.thr.ctx.regMarks
  code : t.thr.ctx.code = m.thr.ctx.code.setCursor t.pc
  windows : t.thr.ctx.pend = m.thr.ctx.pend.map fun p => { p with left := p.left - 1 }
  rest : Agrees m t

/-- THE FRAME of a word that writes no more than the access registers `ds`. -/
def Frame (ds : List RegNum) (s t : State) : Prop := Becomes ds s s t ∧ ∀ a, t.byteAt a = s.byteAt a

/-- The word completes: a next state at the program counter `v`, the thread waiting for nothing, of which `p` holds. -/
def Completes (i : Instr) (s : State) (v : Word64) (p : State → Prop) : Prop :=
  ∃ t, exec i s = .next t ∧ t.pc = v ∧ t.thr.stall = none ∧ p t

/-- The word completes at the next word, aD holding `c`, nothing else changed. -/
def Gives (i : Instr) (s : State) (d : RegNum) (c : Cap) : Prop :=
  Completes i s (s.pc + 4) fun t => t.reg d = written d c ∧ Frame [d] s t

/-- The word completes at the next word and changes nothing. -/
def Passes (i : Instr) (s : State) : Prop := Completes i s (s.pc + 4) (Frame [] s)

/-- The word completes at `v`, where it lands (R381), and changes nothing else. -/
def Transfers (i : Instr) (s : State) (v : Word64) : Prop :=
  Completes i s v fun t => t.thr.ctx.checker.landed = true ∧ Frame [] s t

/-- The word takes the fault of a code and an address at itself (R362-R364). -/
def Traps (i : Instr) (s : State) (code : BitVec 8) (addr : Word64) : Prop :=
  exec i s = .next (s.clearStall.deliverTrap (plainFault code addr))

/-! ## Control transfer -/

/-- The signature checker lets a transfer happen here: while it checks, no block has more than its last word to go (R381). -/
def mayTransfer (s : State) : Prop :=
  ¬ (s.sigChecked = true ∧ s.thr.ctx.checker.inBlock = true ∧ 1 < s.thr.ctx.checker.left)

/-- A branch under the condition `p`: to a target in the code capability's bounds when `p` holds, else to the next word. -/
def BranchesOn (i : Instr) (s : State) (v : Word64) (p : Prop) : Prop :=
  (p → codeCovers s.thr.ctx.code v = true → mayTransfer s → Transfers i s v) ∧ (¬ p → Passes i s) ∧
  (p → codeCovers s.thr.ctx.code v = false → Traps i s 0x04 v)

/-- `x` is the sealed copy of a code capability at a program counter (the link of R130), tagged where the bounds decode alike there
(R81). -/
def IsLink (x c : Cap) (v : Word64) : Prop :=
  (x.tag = true ↔ c.tag = true ∧ x.base = c.base ∧ x.top = c.top) ∧ x.cursor = v ∧ x.sealed = true ∧ x.space = c.space ∧
  x.gen = c.gen ∧ x.expo = c.expo ∧ x.mant = c.mant ∧ x.lenm = c.lenm ∧ x.perm.extractLsb' 0 8 = c.perm.extractLsb' 0 8

/-- The conditions that R130 sets for a register target: `wantSeal` for `ret`. -/
structure TargetOk (r : RegNum) (wantSeal : Bool) (s : State) : Prop where
  aligned : (s.reg r).cursor.toNat % 4 = 0
  tagged : (s.reg r).tag = true
  genMatch : s.genOk s.who (s.reg r) (s.reg r).addr 4 = true
  sealing : (s.reg r).sealed = wantSeal
  mayRun : (s.reg r).permX = true
  runSpace : ((s.reg r).space = 1 ∧ s.diesServe s.thr.world (s.reg r).addr 4 = true) ∨ (s.reg r).space = 2
  bounds : codeCovers (s.reg r) (s.reg r).cursor = true ∧ (s.reg r).boundsOk = true

/-- The word completes by landing at `v`, where `p` holds. -/
def Lands (i : Instr) (s : State) (v : Word64) (p : State → Prop) : Prop :=
  Completes i s v fun t => t.thr.ctx.checker.landed = true ∧ (∀ a, t.byteAt a = s.byteAt a) ∧ p t

/-- The top record of the window stack was pushed at this depth by `enter` (R129, R130). -/
def frameOpen (s : State) : Option WRec :=
  s.thr.ctx.wstack.head?.filter fun r => !r.mark && r.depth == s.thr.ctx.cdepth

/-! ## Accesses -/

/-- The access of `n` bytes at `cur` passes checks 1 to 4 of R82 and is translated: its pieces, and the state after translation. An
access that first touches a page waits instead, and is tried again once the page is mapped (R342). -/
def Reaches (s : State) (c : Cap) (cur : Word64) (n : Nat) (need : Need) (name : Word64) (ps : List (Nat × Nat)) (t : State) : Prop :=
  s.access s.who c cur n need name = .ok (ps, t)

/-- The base register of a memory operand after the word (R133). -/
def baseAfter (c : Cap) (m : BitVec 2) (b : RegNum) (n : Nat) : Cap :=
  if m.toNat < 2 then c else c.postInc (m == 3) (b.toNat * n)

/-- The registers that addressing writes. -/
def basesOf (m : BitVec 2) (a : RegNum) : List RegNum := if m.toNat < 2 then [] else [a]

/-- The state `m` with one more open lookahead window, which delivers `c` to `d` after `l` words (R93). -/
def opened (m : State) (l : BitVec 4) (d : RegNum) (c : Cap) : State :=
  m.modCtx fun x => { x with pend := x.pend ++ [⟨d, some c, none, l.toNat + 1, none⟩] }

/-- From `s`, a result `c` for `d` with the lookahead count `l`, over the state `m` and with the base registers `ds`. -/
def Delivered (l : BitVec 4) (d : RegNum) (c : Cap) (ds : List RegNum) (m s t : State) : Prop :=
  if l = 0 then t.reg d = written d c ∧ Becomes (d :: ds) m s t else Becomes ds (opened m l d c) s t

/-- The state `m` with one more open lookahead window, whose result the unit's entry `id` will bring (R234). -/
def awaited (m : State) (l : BitVec 4) (d : RegNum) (id : Nat) : State :=
  m.modCtx fun x => { x with pend := x.pend ++ [⟨d, none, none, l.toNat + 1, some id⟩] }

/-- The reply of a stamped operation: as `Delivered`, but nothing where D is a0. -/
def Replied (l : BitVec 4) (d : RegNum) (c : Cap) (m s t : State) : Prop :=
  if d = 0 then Becomes [] m s t else Delivered l d c [] m s t

/-- The byte lies in one of the physical pieces. -/
def inPieces (ps : List (Nat × Nat)) (x : Nat) : Prop := ∃ p ∈ ps, p.1 ≤ x ∧ x < p.1 + p.2

/-- No two pieces share a byte. -/
def piecesApart (ps : List (Nat × Nat)) : Prop := ps.Pairwise fun p q => p.1 + p.2 ≤ q.1 ∨ q.1 + q.2 ≤ p.1

/-- No byte of the 16-byte granule of the address lies in one of the pieces. -/
def granuleApart (ps : List (Nat × Nat)) (x : Nat) : Prop := ∀ y, y / 16 = x / 16 → ¬ inPieces ps y

/-- The home of the byte takes a plain store of the request: no counter line, an expander behind FAR, a request that is served, with a
key for a sealed line. -/
def takesStore (s : State) (q : Req) (x : Nat) : Prop :=
  s.isCounterLine x = false ∧ (regionOf x = 2 → s.farBacked x = true) ∧ s.serves q x = true ∧
    (sealedRegion x = true → (s.keyAt q.world x).isSome = true)

/-- All flags that the thread has accrued or that a word in flight will accrue (R179, R198). -/
def allFlags (s : State) : Flags := s.thr.ctx.stream.foldl (fun f x => f ||| x.flags) s.thr.ctx.xflags

/-- Entries of a store queue of which more have become ready: the same data and marks in the same order (R186). -/
def moreReady (l m : List QEntry) : Prop := List.Forall₂ (fun x y => y = { x with ready := x.ready || y.ready }) l m

/-- The state `s` but for what the completion of earlier execute-half words of the thread changes: the stream, the accrued flags, and
which entries of the store queues are there. -/
def streamOf (s t : State) : State :=
  s.modCtx fun c => { c with stream := t.thr.ctx.stream, xflags := t.thr.ctx.xflags, sq0 := t.thr.ctx.sq0, sq1 := t.thr.ctx.sq1 }

/-- Between `s` and `t` some of the oldest of the thread's execute-half words may have completed (R191): no flag is lost, and the store
queues hold the same entries. -/
structure StreamRan (s t : State) : Prop where
  flags : allFlags t = allFlags s
  stream : t.thr.ctx.stream <:+ s.thr.ctx.stream
  sq0 : moreReady s.thr.ctx.sq0 t.thr.ctx.sq0
  sq1 : moreReady s.thr.ctx.sq1 t.thr.ctx.sq1

/-- The state `s` but for what memory's homes, their step records and their logs may change. -/
def homesOf (s t : State) : State :=
  { s with mem := t.mem, tags := t.tags, ctrLines := t.ctrLines, poison := t.poison, broken := t.broken, seals := t.seals,
           worlds := t.worlds, parts := t.parts, hub := t.hub, sheaf := t.sheaf, nextId := t.nextId,
           thr := { s.thr with task := t.thr.task, restartable := t.thr.restartable } }

/-- As `homesOf`, after one stamped operation: SSEQ has advanced (R387). -/
def stampedOf (s t : State) : State :=
  (homesOf s t).modCtx fun c => { c with sseq := c.sseq + 1, stamped := c.stamped + 1 }

/-- No home holds the thread's next stamp, and no log of an earlier run answers for it (R387, R389). -/
def freshStamp (s : State) : Prop :=
  s.givenEntry = none ∧ s.sheafFind s.thr.world s.thr.part s.thr.cref s.curPart.stepNo s.thr.ctx.stamped = none

/-- The entry of the level `target` to which existing tables lead from the table at `base`, of the level `lv` (R340). -/
def leafEntry (w : World) (va target : Nat) : Nat → Nat → Option Nat
  | 0, _ => none
  | lv + 1, base =>
    let entry := entryAt base (lv + 1) va
    if lv + 1 ≤ target then some entry
    else
      let e := NMap.getD w.ptes entry 0
      if pteType e = 1 then leafEntry w va target lv (pteFrame e) else none

/-! ## Rounding (R173-R178) -/

/-- The member of G at a code of an IEEE-style format, continued upward with the exponent unbounded (R173). -/
def gridValue (f : Fmt) (c : Nat) : ℚ :=
  let p := fmtFrac f
  let ex := c / 2 ^ p
  if ex = 0 then (c : ℚ) * (2 : ℚ) ^ (1 - (fmtBias f : ℤ) - p)
  else ((2 ^ p + c % 2 ^ p : Nat) : ℚ) * (2 : ℚ) ^ ((ex : ℤ) - fmtBias f - p)

/-- The magnitude of a MAG code of a tapered format. -/
def taperedValue (f : Fmt) (c : Nat) : ℚ := (taperedVal (fmtBits f) c : ℚ) / 4096

/-- The code of the member of G to which `a` goes that lies from the member `lo` of code `c` up to below the next, `hi`: away from zero
under `away`, else toward zero, and to the nearest, at a tie to the even code, under `near` (R173). -/
def roundedCode (near away : Prop) (a lo hi : ℚ) (c k : Nat) : Prop :=
  ((near ∧ (lo + hi < 2 * a ∨ (2 * a = lo + hi ∧ c % 2 = 1))) ∨ (away ∧ lo < a) → k = c + 1) ∧
  (¬ ((near ∧ (lo + hi < 2 * a ∨ (2 * a = lo + hi ∧ c % 2 = 1))) ∨ (away ∧ lo < a)) → k = c)

/-- The number is the finite value `v`. -/
def IsReal (x : Num) (v : ℚ) : Prop := ∃ n m e, x = .fin n m e ∧ v = (if n then -1 else 1) * (m : ℚ) * (2 : ℚ) ^ (e : ℤ)

/-- A result and its flags are the one rounding of the exact value `v`; a zero has the sign `neg` (R162, R176). -/
def RoundsOnce (f : Fmt) (r : BitVec 2) (v : ℚ) (neg : Bool) (y : Nat × Flags) : Prop :=
  ∃ x, IsReal x v ∧ (v = 0 → x.sign = neg) ∧ y = roundTo f r x

/-! ## Counters -/

/-- The thread runs and keeps no record-mode log (R393). -/
def plainRun (s : State) : Prop := s.thr.status ≠ .vacant ∧ s.thr.record = false

/-- The state `s` but for what the sward tree may change: group values, the members that have ended, and the counts and masks of the
members. The issuing
thread's own are those of `t`. -/
def swardsOf (s t : State) : State :=
  { (stampedOf s t) with
    swards := t.swards, rest := t.rest, leavers := t.leavers
    thr := { (stampedOf s t).thr with ctx := { (stampedOf s t).thr.ctx with
      swmask := t.thr.ctx.swmask, swcount := t.thr.ctx.swcount, swtree := t.thr.ctx.swtree } } }

/-- Another thread after an arrival at a tree: it keeps its counts, and only its masks may have changed, as a drop comes to its end. -/
def sameButMask (x y : Thread) : Prop := y = { x with ctx := { x.ctx with swmask := y.ctx.swmask, swtree := y.ctx.swtree } }

/-- The other member of a redundant pair after its fellow's arrival: its sward masks and counts have changed with the fellow's. -/
def sameButSward (x y : Thread) : Prop :=
  y = { x with ctx := { x.ctx with swmask := y.ctx.swmask, swcount := y.ctx.swcount, swtree := y.ctx.swtree } }

/-! ## Words of the execute half (10_vector R199-R202) -/

/-- The word passes the checks of R199: its operand fields are legal, its queues hold what it pops and have room for what it
pushes, its view fields lie in the frame. -/
structure VecReady (srcs : List RegNum) (d : RegNum) (s : State) : Prop where
  sources : ∀ r ∈ srcs, srcOk r = true
  dest : dstOk d = true
  pops0 : srcs.count 28 ≤ s.thr.ctx.lq0.length
  pops1 : srcs.count 29 ≤ s.thr.ctx.lq1.length
  room0 : d = 30 → s.thr.ctx.sq0.length < Config.sqDepth
  room1 : d = 31 → s.thr.ctx.sq1.length < Config.sqDepth
  views : ∀ r ∈ d :: srcs, r.toNat < 28 → viewOff r s + 64 ≤ s.thr.ctx.fs

/-- The operand that a source field names: 64 bytes of the window, or the queue entry at the place `n` of its queue. -/
def operandAt (r : RegNum) (n : Nat) (s : State) : Vec512 :=
  if r = 28 then (s.thr.ctx.lq0[n]?.map (·.data)).getD 0
  else if r = 29 then (s.thr.ctx.lq1[n]?.map (·.data)).getD 0
  else vecOfBytes (s.winRead (winOff r s) 64)

/-- The operands of a word that reads its fields in this order: a queue that two fields name gives two entries (R52). -/
def operands (s : State) : List RegNum → List RegNum → List Vec512
  | _, [] => []
  | before, r :: rest => operandAt r (before.count r) s :: operands s (before ++ [r]) rest

/-- Element n of a register under an element type, as an unsigned number (R200). -/
def elem (e : ElemTy) (v : Vec512) (n : Nat) : Nat := v.toNat / 2 ^ (ElemTy.bits e * n) % 2 ^ ElemTy.bits e

/-- XFLAGS.VOID if some element of an operand is the void code of its type (R189). -/
def voidFlag (e : ElemTy) (vs : List Vec512) : Flags :=
  if vs.any fun v => (List.range e.count).any fun n => elem e v n == voidCode e then fVoid else 0

/-- A window byte lies in the 64 bytes of a v-register; no queue number names one. -/
def inReg (r : RegNum) (s : State) (x : Nat) : Prop := r.toNat < 28 ∧ winOff r s ≤ x ∧ x < winOff r s + 64

/-- The effect of an execute-half word (R201): `d` holds `v` or the queue it names has one entry more; each marked source
register `kills` holds the void code unless it is `d` (R187); queue sources are popped; the flags `fl` are accrued; every other
window byte, every access register, all memory and the rest of the machine are as before. -/
structure VecDone (srcs : List RegNum) (d : RegNum) (kills : List (Bool × RegNum)) (e : ElemTy) (v : Vec512) (fl : Flags)
    (s t : State) : Prop where
  result : d.toNat < 28 → vecOfBytes (t.winRead (winOff d s) 64) = v
  voids : ∀ k ∈ kills, k.1 = true → k.2.toNat < 28 → k.2 ≠ d →
    ∀ n < e.count, elem e (vecOfBytes (t.winRead (winOff k.2 s) 64)) n = voidCode e
  window : ∀ x, ¬ inReg d s x → (∀ k ∈ kills, k.1 = true → ¬ inReg k.2 s x) →
    Cells.get t.thr.ctx.win x = Cells.get s.thr.ctx.win x
  pop0 : t.thr.ctx.lq0 = s.thr.ctx.lq0.drop (srcs.count 28)
  pop1 : t.thr.ctx.lq1 = s.thr.ctx.lq1.drop (srcs.count 29)
  push0 : moreReady (s.thr.ctx.sq0 ++ if d = 30 then [⟨v, none, false⟩] else []) t.thr.ctx.sq0
  push1 : moreReady (s.thr.ctx.sq1 ++ if d = 31 then [⟨v, none, false⟩] else []) t.thr.ctx.sq1
  flags : allFlags t = allFlags s ||| fl
  frame : Becomes [] ((streamOf s t).modCtx fun c => { c with
    win := t.thr.ctx.win, lq0 := t.thr.ctx.lq0, lq1 := t.thr.ctx.lq1 }) s t
  bytes : ∀ a, t.byteAt a = s.byteAt a

/-- The word completes with that effect. -/
def VecGives (i : Instr) (s : State) (srcs : List RegNum) (d : RegNum) (kills : List (Bool × RegNum)) (e : ElemTy)
    (v : Vec512) (fl : Flags) : Prop :=
  Completes i s (s.pc + 4) (VecDone srcs d kills e v fl s)

/-- The register whose element n is `f n`, every element taken modulo 2^w. -/
def ofElems (e : ElemTy) (f : Nat → Nat) : Vec512 := ofLanes e ((List.range e.count).map f)

/-! ## Commands, calls and events -/

/-- No byte of memory has changed. -/
def SameBytes (s t : State) : Prop := ∀ a, t.byteAt a = s.byteAt a

/-- Stream entries of which some have been set aside (R192): the same words, places, bytes and flags. -/
def onlyAside (l m : List StreamEntry) : Prop :=
  List.Forall₂ (fun a b => b = { a with frozen := b.frozen, deliv := b.deliv, drec := b.drec, digits := b.digits, dchk := b.dchk }) l m

/-- A context whose stream entries may have been set aside, and nothing else. -/
def asideCtx (c k : Ctx) : Prop := k = { c with stream := k.stream } ∧ onlyAside c.stream k.stream

/-- A thread whose stream entries may have been set aside, and nothing else. -/
def sameButAside (x y : Thread) : Prop := y = { x with ctx := y.ctx } ∧ asideCtx x.ctx y.ctx

/-- The thread `y` is `x` but that it stands in no slot: where `x` stood in one, its stream entries are set aside and its record
goes to the pool or, where that is full, to the overflow queue (R192, R270, R286). -/
def outOfSlot (s : State) (x y : Thread) : Prop :=
  sameButAside { x with place := none, overflow := y.overflow } y ∧ y.overflow = if x.place.isNone then x.overflow else s.poolFull x

/-- The instruction or event answers a next state of which `p` holds. -/
def Happens (i : Instr) (s : State) (p : State → Prop) : Prop := ∃ t, exec i s = .next t ∧ p t

/-- The state `s` but for what a matrix word may change besides registers: the units, the slot records of partitions, stream
entries that have completed, the task log (R389). -/
def unitsOf (s t : State) : State :=
  { streamOf s t with
    clusters := t.clusters, parts := t.parts, nextId := t.nextId
    thr := { (streamOf s t).thr with task := t.thr.task, restartable := t.thr.restartable } }

/-- The matrix unit of a cluster has accepted one entry more, its last, from the thread; nothing else of any cluster has changed
but perhaps a slot of that unit. -/
structure Accepts (cl : Nat) (q : MCmd → Prop) (s t : State) : Prop where
  entry : ∃ m, (t.cluster cl).mat.cmds = (s.cluster cl).mat.cmds ++ [m] ∧ m.tid = s.thr.tid ∧ m.world = s.thr.world ∧
    m.domain = s.thr.ctx.domain ∧ m.part = s.thr.part ∧ m.started = false ∧ q m
  others : ∀ c, c ≠ cl → t.cluster c = s.cluster c
  rest : (t.cluster cl).engine = (s.cluster cl).engine ∧ (t.cluster cl).cores = (s.cluster cl).cores ∧
    (t.cluster cl).allocs = (s.cluster cl).allocs
  stream : StreamRan s t
  bytes : SameBytes s t

/-- The slot after a `.new` of a world's domain has taken it: the next incarnation, empty, of that domain (R230, R231). One that is
still in use is claimed, under an incarnation that no save area holds (R240). -/
def slotTaken (cl n : Nat) (core : Option Nat) (world domain part : Nat) (s : State) : MSlot :=
  let x := slotAt cl n s
  let i := if x.used then x.next else x.sinc.toNat
  { MSlot.free with
    sinc := BitVec.ofNat 46 i, next := max x.next (i + 1), used := true, world, domain
    gen := ((s.world world).dom domain).gen % 4096, core, part }

/-- Check 5 of R232: the counter can take the adds to come. -/
def addsFit (k : BitVec 4) (s : State) : Prop := s.thr.ctx.kctr[k.toNat].toNat + pendingAdds s.thr.tid k s + 1 < 2 ^ 64

/-- The world may hold one more continuation for this thread now (R286). -/
def mayCreate (s : State) : Prop :=
  s.thr.stall = some .contGranted ∨
    (contCount s.thr.world s + (s.threads.filter fun h => h.world == s.thr.world && h.tid != s.thr.tid && h.stall == some .contGranted).length
      < (s.world s.thr.world).contLimit ∧
    ∀ h ∈ s.threads, h.tid ≠ s.thr.tid → h.world = s.thr.world → ∀ o, h.stall ≠ some (.contLimit o))

end Sys2Proof.Machine
end

