-- ==== Sys2Proof/Certificates/Slice0/Obligations.lean ====
section
/-! DEFINITION. The statements for the provers. Each docstring says which rules of the spec it formalises. -/

open Sys2Proof Sys2Proof.Machine

/-! ## The integer and capability words of the access half -/

/-- R123, R124: the register and immediate forms and `ahi` write their 64-bit result untagged and change nothing else. -/
def Obligations.IntegerWords : Prop :=
  ∀ (k : BitVec 4) (i : BitVec 13) (h : BitVec 21) (n : BitVec 6) (b a d : RegNum) (s : State),
    let x := s.int a
    let y := s.int b
    let z : Word64 := BitVec.ofNat 64 (y.toNat * 2 ^ k.toNat)
    let m : Word64 := BitVec.ofInt 64 i.toInt
    Gives (.add k b a d) s d (Cap.ofInt (BitVec.ofNat 64 (x.toNat + z.toNat))) ∧
    Gives (.sub k b a d) s d (Cap.ofInt (BitVec.ofInt 64 ((x.toNat : Int) - z.toNat))) ∧
    Gives (.mul b a d) s d (Cap.ofInt (BitVec.ofNat 64 (x.toNat * y.toNat))) ∧
    Gives (.mulh b a d) s d (Cap.ofInt (BitVec.ofInt 64 (x.toInt * y.toInt / 2 ^ 64))) ∧
    Gives (.and k b a d) s d (Cap.ofInt (x &&& z)) ∧
    Gives (.or k b a d) s d (Cap.ofInt (x ||| z)) ∧
    Gives (.xor k b a d) s d (Cap.ofInt (x ^^^ z)) ∧
    Gives (.shl b a d) s d (Cap.ofInt (BitVec.ofNat 64 (x.toNat * 2 ^ (y.toNat % 64)))) ∧
    Gives (.shr b a d) s d (Cap.ofInt (BitVec.ofNat 64 (x.toNat / 2 ^ (y.toNat % 64)))) ∧
    Gives (.sra b a d) s d (Cap.ofInt (BitVec.ofInt 64 (x.toInt / 2 ^ (y.toNat % 64)))) ∧
    Gives (.min k b a d) s d (Cap.ofInt (BitVec.ofInt 64 (min x.toInt z.toInt))) ∧
    Gives (.max k b a d) s d (Cap.ofInt (BitVec.ofInt 64 (max x.toInt z.toInt))) ∧
    Gives (.slt k b a d) s d (Cap.ofInt (if x.toInt < z.toInt then 1 else 0)) ∧
    Gives (.slo k b a d) s d (Cap.ofInt (if x.toNat < z.toNat then 1 else 0)) ∧
    Gives (.addi i a d) s d (Cap.ofInt (BitVec.ofNat 64 (x.toNat + m.toNat))) ∧
    Gives (.andi i a d) s d (Cap.ofInt (x &&& m)) ∧
    Gives (.ori i a d) s d (Cap.ofInt (x ||| m)) ∧
    Gives (.xori i a d) s d (Cap.ofInt (x ^^^ m)) ∧
    Gives (.shli n a d) s d (Cap.ofInt (BitVec.ofNat 64 (x.toNat * 2 ^ n.toNat))) ∧
    Gives (.shri n a d) s d (Cap.ofInt (BitVec.ofNat 64 (x.toNat / 2 ^ n.toNat))) ∧
    Gives (.srai n a d) s d (Cap.ofInt (BitVec.ofInt 64 (x.toInt / 2 ^ n.toNat))) ∧
    Gives (.slti i a d) s d (Cap.ofInt (if x.toInt < m.toInt then 1 else 0)) ∧
    Gives (.ahi h d) s d (Cap.ofInt (BitVec.ofInt 64 (h.toInt * 2 ^ 13)))

/-- R126: `cpbound` narrows to the least exponent that fits, rounded outward; every other field and the tag stay. New bounds outside a
tagged source's are the bounds fault 0x04, and so is a length that no exponent fits; an untagged source gives its own bits there. -/
def Obligations.CpboundResult : Prop :=
  ∀ (b a d : RegNum) (s : State) (e : Nat),
    let c := s.reg a
    let lo := c.addr
    let hi := lo + (s.int b).toNat
    let fits := fun k : Nat => (hi + 2 ^ k - 1) / 2 ^ k - lo / 2 ^ k ≤ 2 ^ 16
    let nb := lo / 2 ^ e
    let nt := (hi + 2 ^ e - 1) / 2 ^ e
    let outside := c.base > (nb * 2 ^ e : Nat) ∨ ((nt * 2 ^ e : Nat) : Int) > c.top
    let bounds := Traps (.cpbound b a d) s 0x04 (BitVec.ofNat 64 (firstOutside lo c.base c.top))
    ¬ (c.tag = true ∧ c.sealed = true) →
    (e ≤ 47 → fits e → (∀ k, k < e → ¬ fits k) →
      (¬ (c.tag = true ∧ outside) → ∃ x : Cap, Gives (.cpbound b a d) s d x ∧ x.tag = c.tag ∧ x.cursor = c.cursor ∧
        x.space = c.space ∧ x.perm = c.perm ∧ x.gen = c.gen ∧ x.expo = e ∧ x.mant = nb % 2 ^ 17 ∧ x.lenm = nt - nb) ∧
      (c.tag = true → outside → bounds)) ∧
    ((∀ k, k ≤ 47 → ¬ fits k) →
      (c.tag = true → bounds) ∧ (c.tag = false → ∃ x : Cap, Gives (.cpbound b a d) s d x ∧ x.tag = false ∧ x.bits = c.bits))

/-- R126, R81: the other capability words. A sealed source is allowed to `cpget`, `cptest` and `cpmove` only; for the others it is a
permission fault that names the register. -/
def Obligations.CapabilityWords : Prop :=
  ∀ (k : BitVec 3) (b a d : RegNum) (s : State),
    let c := s.reg a
    (¬ (c.tag = true ∧ c.sealed = true) →
      (∃ x : Cap, Gives (.cpperm b a d) s d x ∧ x.tag = c.tag ∧ x.cursor = c.cursor ∧ x.space = c.space ∧ x.gen = c.gen ∧
        x.expo = c.expo ∧ x.mant = c.mant ∧ x.lenm = c.lenm ∧ x.perm = c.perm &&& (s.int b).extractLsb' 0 9) ∧
      (∃ x : Cap, Gives (.cpaddr b a d) s d x ∧ x.bits = c.bits.extractLsb' 64 64 ++ s.int b ∧
        (x.tag = true ↔ c.tag = true ∧ x.base = c.base ∧ x.top = c.top)) ∧
      (∃ x : Cap, Gives (.cpinc b a d) s d x ∧ x.bits = c.bits.extractLsb' 64 64 ++ cursorAdd c.space c.cursor (s.int b) ∧
        (x.tag = true ↔ c.tag = true ∧ x.base = c.base ∧ x.top = c.top))) ∧
    Gives (.cpget k a d) s d (Cap.ofInt (c.field k)) ∧
    Gives (.cptest b a d) s d (Cap.ofInt (if capWithin c (s.reg b) = true then 1 else 0)) ∧
    Gives (.cpmove a d) s d c ∧
    (c.tag = true → c.sealed = true →
      Traps (.cpbound b a d) s 0x05 (a.setWidth 64) ∧ Traps (.cpperm b a d) s 0x05 (a.setWidth 64) ∧
      Traps (.cpaddr b a d) s 0x05 (a.setWidth 64) ∧ Traps (.cpinc b a d) s 0x05 (a.setWidth 64))

/-! ## Control transfer -/

/-- R128 (and R127 for a target outside the bounds): a branch goes to PC + SignExtend(OFF13) × 4 when its condition on bits
[63:0], or on the tag, holds, and to the next word otherwise. -/
def Obligations.BranchWords : Prop :=
  ∀ (o : BitVec 13) (b a : RegNum) (s : State),
    let x := s.int a
    let y := s.int b
    let v := s.pc + BitVec.ofInt 64 (o.toInt * 4)
    BranchesOn (.beq o b a) s v (x = y) ∧ BranchesOn (.bne o b a) s v (x ≠ y) ∧
    BranchesOn (.blt o b a) s v (x.toInt < y.toInt) ∧ BranchesOn (.bge o b a) s v (y.toInt ≤ x.toInt) ∧
    BranchesOn (.blo o b a) s v (x.toNat < y.toNat) ∧ BranchesOn (.bhs o b a) s v (y.toNat ≤ x.toNat) ∧
    BranchesOn (.btag o a) s v ((s.reg a).tag = true) ∧ BranchesOn (.bnotag o a) s v ((s.reg a).tag = false)

/-- R130: `jmp`, `call`, `callr` and `jmpr`. The link is a sealed copy of the code capability at the word after the call. -/
def Obligations.JumpsAndCalls : Prop :=
  ∀ (o : BitVec 21) (a d : RegNum) (s : State), mayTransfer s →
    let v := s.pc + BitVec.ofInt 64 (o.toInt * 4)
    let deep := s.modCtx fun c => { c with cdepth := c.cdepth + 1 }
    let coded := fun m : State => m.modCtx fun c => { c with code := s.reg a }
    (codeCovers s.thr.ctx.code v = true →
      Transfers (.jmp o) s v ∧
      (d ≠ 0 → Lands (.call o d) s v fun t => IsLink (t.reg d) s.thr.ctx.code (s.pc + 4) ∧ Becomes [d] deep s t)) ∧
    (codeCovers s.thr.ctx.code v = false → Traps (.jmp o) s 0x04 v ∧ (d ≠ 0 → Traps (.call o d) s 0x04 v)) ∧
    (TargetOk a false s →
      Lands (.jmpr a) s (s.int a) (Becomes [] (coded s) s) ∧
      Lands (.callr a d) s (s.int a) fun t =>
        (d ≠ 0 → IsLink (t.reg d) s.thr.ctx.code (s.pc + 4)) ∧ Becomes [d] (coded deep) s t)

/-- R130, R131: `ret` restores the window of a frame opened at this depth, after every earlier execute-half word; a leaf only
goes up one depth. The code capability is the target with SE cleared. -/
def Obligations.RetRestoresWindow : Prop :=
  ∀ (a : RegNum) (s : State), mayTransfer s → TargetOk a true s →
    let coded := fun m : State => m.modCtx fun c =>
      { c with code := (s.reg a).setSeal false, cdepth := c.cdepth - 1 }
    Lands (.ret a) s (s.int a) fun t =>
      t.thr.ctx.code.sealed = false ∧ t.thr.ctx.code.tag = true ∧ t.thr.ctx.code.space = (s.reg a).space ∧
      match frameOpen s with
      | some r => allFlags t = allFlags s ∧ t.thr.ctx.stream = [] ∧
          Becomes [] (coded (s.drain.modCtx fun c => { c with wstack := c.wstack.tail, wbase := r.base, fs := r.size })) s t
      | none => Becomes [] (coded s) s t

/-- R131, R132: `enter` opens a frame over the caller's top ARGW bytes, or resizes the frame of this call in place; the bytes of
the frame stay; a bad size is 0x04 with TRAPADDR 0, and a spill past the bounds of the spill area 0x04 with the first byte outside it.
Those bounds are the model's (log entry 11). -/
def Obligations.EnterOpensFrame : Prop :=
  ∀ (f : BitVec 13) (g : BitVec 3) (s : State), (Instr.enter f g).wf = true →
    let size := f.toNat * 64
    let arg := g.toNat * 64
    let c := s.thr.ctx
    let base := if (frameOpen s).isSome then c.wbase else c.wbase + c.fs - arg
    (arg ≤ c.fs → arg ≤ size → (base + size ≤ residentWindow ∨ base + size ≤ residentWindow + Config.spillBytes s.thr.tid) →
      Completes (.enter f g) s (s.pc + 4) fun t =>
        allFlags t = allFlags s ∧ t.thr.ctx.stream = [] ∧ t.thr.ctx.win = c.win ∧ t.thr.ctx.wbase = base ∧ t.thr.ctx.fs = size ∧
        t.thr.ctx.wstack = (if (frameOpen s).isSome then c.wstack else ⟨c.wbase, c.fs, c.cdepth, false⟩ :: c.wstack) ∧
        Frame [] (s.drain.modCtx fun x => { x with
          wstack := t.thr.ctx.wstack, wbase := base, fs := size,
          dstack := State.raiseHigh (base + size) c.dstack }) t) ∧
    (c.fs < arg ∨ size < arg → Traps (.enter f g) s 0x04 0) ∧
    (arg ≤ c.fs → arg ≤ size → residentWindow + Config.spillBytes s.thr.tid < base + size → residentWindow < base + size →
      Traps (.enter f g) s 0x04 (BitVec.ofNat 64 (c.spill + Config.spillBytes s.thr.tid)))

/-- R130, R75, R127: what is wrong with a register target decides the fault, alignment first, then the order of R82; a return token in
`ret` is 0x05 at any depth (R317; log entry 20 says before alignment). -/
def Obligations.BadTargetTraps : Prop :=
  ∀ (a d : RegNum) (s : State),
    let c := s.reg a
    let name : Word64 := a.setWidth 64
    let each := fun (code : BitVec 8) (addr : Word64) => Traps (.callr a d) s code addr ∧ Traps (.jmpr a) s code addr
    let wrong := fun z : Bool => c.sealed ≠ z ∨ c.permX = false ∨ (c.space ≠ 1 ∧ c.space ≠ 2) ∨
      (c.space = 1 ∧ s.diesServe s.thr.world c.addr 4 = false)
    (c.cursor.toNat % 4 ≠ 0 → each 0x01 0 ∧ (isReturnToken c = false → Traps (.ret a) s 0x01 0)) ∧
    (isReturnToken c = true → Traps (.ret a) s 0x05 name) ∧
    (c.cursor.toNat % 4 = 0 → c.tag = false → each 0x03 name ∧ Traps (.ret a) s 0x03 name) ∧
    (c.cursor.toNat % 4 = 0 → c.tag = true → s.genOk s.who c c.addr 4 = false → each 0x06 c.cursor ∧ Traps (.ret a) s 0x06 c.cursor) ∧
    (c.cursor.toNat % 4 = 0 → c.tag = true → s.genOk s.who c c.addr 4 = true →
      (wrong false → each 0x05 name) ∧ (wrong true → Traps (.ret a) s 0x05 name) ∧
      (codeCovers c c.cursor = false ∨ c.boundsOk = false →
        (¬ wrong false → each 0x04 c.cursor) ∧ (¬ wrong true → Traps (.ret a) s 0x04 c.cursor)))

/-! ## Loads, stores, reductions, pages -/

/-- R133, R134, R93: a load into an a-register. The value is the bytes zero-extended, or a capability with its tag; the base is
updated at issue; the value comes at once or through the lookahead window. Memory is not written. The sum of base and offset is exact
(R9). That a load returns the bytes that
memory holds when its word issues is the model's choice among the orders of R97-R117 (log entry 4). -/
def Obligations.LoadRegister : Prop :=
  ∀ (m : BitVec 2) (l : BitVec 4) (z : BitVec 3) (b a d : RegNum) (s t : State) (ps : List (Nat × Nat)),
    let c := s.reg a
    let n := accessSize z
    let cur := effective c m b n s
    effectiveFits c m b n s = true → Reaches s c cur n needLoad (a.setWidth 64) ps t → (z = 7 → cur.toNat % 16 = 0) →
    t.piecesFault s.req (addrOf c.space cur) ps = none → s.givenEntry = none →
    let bs := t.readPieces ps
    let tag := z == 7 && c.permLC && (c.space == 1 || c.space == 2) && ((ps.head?.map fun p => t.tagAt p.1).getD false)
    let v : Cap := ⟨BitVec.ofNat 128 (leNat (bs.take 16)), tag⟩
    Completes (.ld 0 m l z b a d) s (s.pc + 4) fun u =>
      ((a ≠ d ∨ l ≠ 0) → u.reg a = written a (baseAfter c m b n)) ∧
      Delivered l d v (basesOf m a) (t.logValue ⟨v, vecOfBytes bs⟩ (loadEntrySize z)) s u ∧
      ∀ x, u.byteAt x = s.byteAt x

/-- R89, R133: a load into lq0 or lq1 pushes one entry, whose bytes above the access are zero. The bytes are those of memory when the
word issues, which is the model's choice (log entry 4). -/
def Obligations.LoadQueue : Prop :=
  ∀ (q m : BitVec 2) (l : BitVec 4) (z : BitVec 3) (b a d : RegNum) (s t : State) (ps : List (Nat × Nat)),
    let c := s.reg a
    let n := accessSize z
    let cur := effective c m b n s
    (q = 1 ∨ q = 2) → z ≠ 7 → (s.queue (q.toNat - 1)).length < Config.lqDepth → effectiveFits c m b n s = true →
    Reaches s c cur n needLoad (a.setWidth 64) ps t →
    t.piecesFault s.req (addrOf c.space cur) ps = none → s.givenEntry = none →
    Completes (.ld q m l z b a d) s (s.pc + 4) fun u =>
      u.reg a = written a (baseAfter c m b n) ∧
      u.queue (q.toNat - 1) = s.queue (q.toNat - 1) ++ [⟨vecOfBytes (t.readPieces ps), none, true⟩] ∧
      u.queue (2 - q.toNat) = s.queue (2 - q.toNat) ∧
      Becomes (basesOf m a) ((homesOf s u).modCtx fun x => { x with lq0 := u.thr.ctx.lq0, lq1 := u.thr.ctx.lq1 }) s u ∧
      ∀ x, u.byteAt x = s.byteAt x

/-- R133-R135, R83, R186: a store writes its bytes to the pieces of the effective address and nothing else in memory; `st.c` writes
the tag as well, and every other store clears the tag of each granule it touches; the granules that it does not touch keep theirs. A
queue store pops its entry once the word that pushed it has completed, which no longer counts as pending. The data is taken before the base is updated, and the base is updated also where the home refuses the store
(log entry 60). -/
def Obligations.StoreWords : Prop :=
  ∀ (q m : BitVec 2) (z : BitVec 3) (b a d : RegNum) (s t : State) (ps : List (Nat × Nat)) (e : QEntry) (r : List QEntry),
    let c := s.reg a
    let n := accessSize z
    let cur := effective c m b n s
    let tagged := z == 7 && (s.reg d).tag
    let data := if q = 0 then toLe n (s.reg d).bits.toNat else toLe n (e.data.toNat)
    (q = 0 ∨ (z ≠ 7 ∧ (q = 1 ∨ q = 2) ∧ s.queue (q.toNat + 1) = e :: r)) →
    effectiveFits c m b n s = true → Reaches s c cur n needStore (a.setWidth 64) ps t → (z = 7 → cur.toNat % 16 = 0) →
    (q = 0 → tagged = true → c.permSC = true ∧ c.space ≠ 3 ∧ c.space ≠ 4) → s.skipEffect = none →
    Completes (.st q m z b a d) s (s.pc + 4) fun u =>
      u.reg a = written a (baseAfter c m b n) ∧
      (∀ x, ¬ inPieces ps x → u.byteAt x = s.byteAt x) ∧
      (piecesApart ps → (∀ x, inPieces ps x → takesStore t s.req x) → u.readPieces ps = data ∧
        (q = 0 ∧ tagged = true → ∀ p, ps = [p] → u.tagAt p.1 = true) ∧
        (¬ (q = 0 ∧ tagged = true) → ∀ x, inPieces ps x → u.tagAt x = false)) ∧
      (∀ x, granuleApart ps x → u.tagAt x = s.tagAt x) ∧
      let pushes := fun y : StreamEntry => y.dkind.toNat == q.toNat + 1
      moreReady (if q = 1 then r else s.queue 2) (u.queue 2) ∧ moreReady (if q = 2 then r else s.queue 3) (u.queue 3) ∧
      allFlags u = allFlags s ∧ u.thr.ctx.stream <:+ s.thr.ctx.stream ∧
      (q = 0 ∨ e.ready = true → u.thr.ctx.stream = s.thr.ctx.stream ∧ u.queue 2 = (if q = 1 then r else s.queue 2) ∧
        u.queue 3 = (if q = 2 then r else s.queue 3)) ∧
      (q ≠ 0 → e.ready = false → u.thr.ctx.stream.filter pushes = (s.thr.ctx.stream.filter pushes).tail) ∧
      Becomes (basesOf m a) ((streamOf (homesOf s u) u).modCtx fun x => { x with late := u.thr.ctx.late }) s u

/-- R82, R133, R362-R364: a check of an access that fails traps at the word, before anything else of it happens; a sum of base and offset
that no 64-bit cursor holds fails check 4 (R9). That the address is shown modulo 2^64 then is log entry 85. R89, R90: a push on a
full queue and a pop of an empty one are queue imbalances that name the queue. R342: a load that first touches a page maps it for the
entry's domain, and the word is tried again. -/
def Obligations.RefusedAccessTraps : Prop :=
  ∀ (q m : BitVec 2) (l : BitVec 4) (z : BitVec 3) (b a d : RegNum) (s : State) (f : FaultInfo),
    let c := s.reg a
    let n := accessSize z
    let cur := effective c m b n s
    let trapped := fun (i : Instr) => exec i s = .next (s.clearStall.deliverTrap f)
    let fits := effectiveFits c m b n s = true
    let offset : Int := if m = 0 then (s.int b).toInt else if m = 1 then ((b.toNat * n : Nat) : Int) else 0
    (fits ↔ c.space = 1 ∨ (0 ≤ (c.cursor.toNat : Int) + offset ∧ (c.cursor.toNat : Int) + offset < 2 ^ 64)) ∧
    (fits → s.givenEntry = none → s.checkCap s.who c cur n needLoad (a.setWidth 64) = .error (.fault f) → trapped (.ld 0 m l z b a d)) ∧
    (fits → (s.reg d).tag = false → s.checkCap s.who c cur n needStore (a.setWidth 64) = .error (.fault f) → trapped (.st 0 m z b a d)) ∧
    (¬ fits →
      (s.givenEntry = none → s.checkRights s.who c cur n needLoad (a.setWidth 64) = .ok () → Traps (.ld 0 m l z b a d) s 0x04 cur) ∧
      ((s.reg d).tag = false → s.checkRights s.who c cur n needStore (a.setWidth 64) = .ok () → Traps (.st 0 m z b a d) s 0x04 cur)) ∧
    (s.checkCap s.who c c.cursor n needMred (a.setWidth 64) = .error (.fault f) →
      trapped (.mredAdd l z b a d) ∧ trapped (.mredAnd l z b a d) ∧ trapped (.mredOr l z b a d) ∧ trapped (.mredXor l z b a d) ∧
      trapped (.mredMin l z b a d) ∧ trapped (.mredMax l z b a d) ∧ trapped (.mredMinUn l z b a d) ∧ trapped (.mredMaxUn l z b a d) ∧
      trapped (.mredAddFloat l z b a d) ∧ trapped (.mredMinFloat l z b a d) ∧ trapped (.mredMaxFloat l z b a d)) ∧
    (∀ lv owner entry r w x, c.space = 2 → fits → s.givenEntry = none → s.checkCap s.who c cur n needLoad (a.setWidth 64) = .ok () →
      (z = 7 → cur.toNat % 16 = 0) → s.walk s.who (addrOf c.space cur) = .touch lv owner entry r w x →
      (State.fillTouch s.who (addrOf c.space cur) lv owner entry r w x s).isSome = true →
      Happens (.ld 0 m l z b a d) s fun t => t.pc = s.pc ∧ (∀ q, t.reg q = s.reg q) ∧ (∀ y, t.byteAt y = s.byteAt y) ∧
        ∃ frame, NMap.getD (t.world s.thr.world).ptes entry 0 = pteBits owner frame x w r 2) ∧
    (q = 1 ∨ q = 2 →
      ((s.queue (q.toNat - 1)).length = Config.lqDepth → Traps (.ld q m l z b a d) s 0x02 (BitVec.ofNat 64 (q.toNat + 3))) ∧
      (s.queue (q.toNat + 1) = [] → Traps (.st q m z b a d) s 0x02 (BitVec.ofNat 64 (q.toNat + 1))))

/-- R136, R137: the reductions at their home in one step: the old bits for aD, the combined bits in place, the flags of the
float reductions, one stamp used; the granule's tag is cleared where the home takes the store (R83, R134); every other byte of memory,
and every other granule's tag, stays. -/
def Obligations.MemoryReductions : Prop :=
  ∀ (l : BitVec 4) (z : BitVec 3) (b a d : RegNum) (s t : State) (pa : Nat) (i : Instr) (op : RedOp),
    (i, op) ∈ [(Instr.mredAdd l z b a d, RedOp.add), (.mredAnd l z b a d, .and), (.mredOr l z b a d, .or),
      (.mredXor l z b a d, .xor), (.mredMin l z b a d, .min), (.mredMax l z b a d, .max), (.mredMinUn l z b a d, .minUn),
      (.mredMaxUn l z b a d, .maxUn), (.mredAddFloat l z b a d, .addFloat), (.mredMinFloat l z b a d, .minFloat),
      (.mredMaxFloat l z b a d, .maxFloat)] → i.wf = true →
    let c := s.reg a
    let n := accessSize z
    let v := (s.int b).toNat % 2 ^ (8 * n)
    let old := t.readNat pa n
    s.checkCap s.who c c.cursor n needMred (a.setWidth 64) = .ok () → c.cursor.toNat % n = 0 →
    s.translateAt s.who c.space c.addr needMred = .ok (pa, t) → homeRefusal s.req pa n t = none → freshStamp s →
    Completes i s (s.pc + 4) fun u =>
      u.readNat pa n = (combine op z old v).1 % 2 ^ (8 * n) ∧ (∀ x, x < pa ∨ pa + n ≤ x → u.byteAt x = s.byteAt x) ∧
      (takesStore t s.req pa → u.tagAt pa = false) ∧ (∀ x, granuleApart [(pa, n)] x → u.tagAt x = s.tagAt x) ∧
      Replied l d (Cap.ofInt (BitVec.ofNat 64 old))
        ((stampedOf s u).modCtx fun x => { x with xflags := x.xflags ||| (combine op z old v).2 }) s u

/-- R137, R138, R139: what the reductions combine, on operands of their width; the float minimum and maximum with their NaNs and their
zeros, where `key` orders the codes that are no NaN as their values, −0 below +0; the float sum as one rounding to nearest-even; the
cases of R139's table among them. -/
def Obligations.ReductionValues : Prop :=
  (∀ (z : BitVec 3) (m v : Nat), z.toNat ≤ 3 → m < 2 ^ (8 * accessSize z) → v < 2 ^ (8 * accessSize z) →
    let w := 8 * accessSize z
    let x : Int := (BitVec.ofNat w m).toInt
    let y : Int := (BitVec.ofNat w v).toInt
    combine .add z m v = ((m + v) % 2 ^ w, 0) ∧ combine .and z m v = (m &&& v, 0) ∧ combine .or z m v = (m ||| v, 0) ∧
    combine .xor z m v = (m ^^^ v, 0) ∧ combine .min z m v = (if x ≤ y then m else v, 0) ∧
    combine .max z m v = (if y ≤ x then m else v, 0) ∧ combine .minUn z m v = (min m v, 0) ∧
    combine .maxUn z m v = (max m v, 0)) ∧
  (∀ (z : BitVec 3) (m v : Nat), z = 1 ∨ z = 2 → m < 2 ^ (8 * accessSize z) → v < 2 ^ (8 * accessSize z) →
    let f : Fmt := if z = 1 then .bf16 else .f32
    let half := 2 ^ (8 * accessSize z - 1)
    let x := decodeNum f m
    let y := decodeNum f v
    let key := fun c : Nat => if c < half then (c : Int) else (half : Int) - 1 - c
    let both := fun p : Nat × Flags => combine .minFloat z m v = p ∧ combine .maxFloat z m v = p
    (x.isSNan = true ∨ y.isSNan = true → both (canonNan f, fInvalid)) ∧
    (x.isSNan = false → y.isSNan = false →
      (x.isNan = true → y.isNan = true → both (canonNan f, 0)) ∧
      (x.isNan = true → y.isNan = false → both (v, 0)) ∧ (x.isNan = false → y.isNan = true → both (m, 0)) ∧
      (x.isNan = false → y.isNan = false →
        combine .minFloat z m v = (if key m ≤ key v then m else v, 0) ∧
        combine .maxFloat z m v = (if key v ≤ key m then m else v, 0))) ∧
    combine .addFloat z m v = floatAdd f 0 m v) ∧
  combine .maxFloat 2 0x80000000 0x00000000 = (0x00000000, 0) ∧
  combine .maxFloat 2 0x7FC00001 0xBF800000 = (0xBF800000, 0) ∧
  combine .maxFloat 2 0x3F800000 0x7F800001 = (0x7FC00000, fInvalid) ∧
  combine .maxFloat 2 0x7FE00000 0x7FC10000 = (0x7FC00000, 0) ∧
  combine .addFloat 2 0x7F800000 0xFF800000 = (0x7FC00000, fInvalid) ∧
  combine .addFloat 2 0x3F800000 0xBF800000 = (0, 0) ∧ combine .addFloat 2 0x80000000 0x80000000 = (0x80000000, 0) ∧
  combine .addFloat 1 0x3F80 0x3F80 = (0x4000, 0) ∧ combine .minFloat 1 0x0000 0x8000 = (0x8000, 0)

/-- R140, R79, R81: `pref` changes nothing but the base of a post-increment form, whatever its checks say; a sealed base moves as any
other and is no capability from then on (log entry 66). -/
def Obligations.PrefChangesBaseOnly : Prop :=
  ∀ (m : BitVec 2) (z : BitVec 3) (b a : RegNum) (s : State),
    Completes (.pref m z b a) s (s.pc + 4) fun t =>
      let c := s.reg a
      (2 ≤ m.toNat → t.reg a = written a (if c.sealed = true then State.untag (baseAfter c m b 64) else baseAfter c m b 64)) ∧ Frame (basesOf m a) s t

/-- R141, R142: `pgalloc` answers 2 where some byte of the page is covered, by the domain's tables or by another's of its world (log
entry 63), 1 where the stack is empty, and otherwise 0 with a frame popped and, at the end of existing tables, mapped for the current
domain; with 2 and with 1 nothing is popped and no entry changes. That the leaf is readable and writable and of the current domain, and
that the tables are looked at before the stack, is log entry 35. Memory's bytes stay. The X bit of the page is free (log entry 6). `pgfree` takes the translation away at issue and puts the frame
on its way back; an absent translation, a page that nothing has touched yet among them, is 0x10, and one of another size or a
malformed one 0x12. -/
def Obligations.PageWords : Prop :=
  ∀ (l : BitVec 4) (z : BitVec 3) (a d : RegNum) (s : State), z.toNat ≤ 2 → freshStamp s →
    let c := s.reg a
    let lv := levelOf z
    let w := s.world s.thr.world
    let va := c.cursor.toNat
    let root := s.curDomain.ptroot
    let n := pageBytes lv
    let page := va / n * n
    (s.checkCap s.who c c.cursor n needPage (a.setWidth 64) = .ok () → va % n = 0 →
      Completes (.pgalloc l z a d) s (s.pc + 4) fun u => (∀ x, u.byteAt x = s.byteAt x) ∧
        let popped := fun v : State => (u.world s.thr.world).free64k = (v.world s.thr.world).free64k ∧
          (u.world s.thr.world).free32m = (v.world s.thr.world).free32m ∧ (u.world s.thr.world).free16g = (v.world s.thr.world).free16g
        if coveredAt w va lv 4 root = true ∨ w.covered va lv = true then
          Delivered l d (Cap.ofInt 2) [] (stampedOf s u) s u ∧ (u.world s.thr.world).ptes = w.ptes ∧ popped s
        else match s.popFrame s.thr.world lv with
          | none => Delivered l d (Cap.ofInt 1) [] (stampedOf s u) s u ∧ (u.world s.thr.world).ptes = w.ptes ∧ popped s
          | some (frame, t) =>
            Delivered l d (Cap.ofInt 0) [] (stampedOf s u) s u ∧ popped t ∧
            ∀ entry, leafEntry w va lv 4 root = some entry →
              ∀ k, NMap.getD (u.world s.thr.world).ptes k 0 =
                if k = entry then freshLeaf s.thr.ctx.domain frame else NMap.getD w.ptes k 0) ∧
    (s.checkCap s.who c (BitVec.ofNat 64 page) n needPage (a.setWidth 64) = .ok () → s.skipEffect = none →
      (∀ frame size owner entry r w x, s.walk s.who va = .page frame size owner entry r w x →
        (size = n → Completes (.pgfree z a) s (s.pc + 4) fun u =>
          Becomes [] (stampedOf s u) s u ∧ (∀ b, u.byteAt b = s.byteAt b) ∧
          NMap.getD (u.world s.thr.world).ptes entry 0 = 0 ∧
          (u.world s.thr.world).freeing = (s.world s.thr.world).freeing ++ [⟨frame, z.setWidth 2⟩]) ∧
        (size ≠ n → Traps (.pgfree z a) s 0x12 c.cursor)) ∧
      (s.walk s.who va = .absent → Traps (.pgfree z a) s 0x10 c.cursor) ∧
      (∀ lv owner entry r w x, s.walk s.who va = .touch lv owner entry r w x → Traps (.pgfree z a) s 0x10 c.cursor) ∧
      (s.walk s.who va = .bad → Traps (.pgfree z a) s 0x12 c.cursor))

/-! ## Counters -/

/-- R144 on a local counter, outside record mode: the old value for aD, the sum in the counter, the other counters as before; a sum above
2^64 - 1 faults at the word and changes nothing. The sheaf gets no entry for it, as the counter lies in the thread's own context (log entry 23); only the
members of a redundant pair are compared there (R388): the first leaves an entry, and a second that agrees with it passes. -/
def Obligations.LocalCounterAdd : Prop :=
  ∀ (l : BitVec 4) (sc : BitVec 2) (b a d : RegNum) (s : State), a.toNat < 16 → plainRun s →
    let n : BitVec 4 := a.setWidth 4
    let old := s.thr.ctx.kctr[n.toNat]
    let sum := old.toNat + (s.int b).toNat
    let stamp := s.sheafFind s.thr.world s.thr.part s.thr.cref s.curPart.stepNo s.thr.ctx.stamped
    let added := fun u : State => Replied l d (Cap.ofInt old) ((stampedOf s u).modCtx fun x => { x with
        kctr := x.kctr.set n.toNat (BitVec.ofNat 64 sum) }) s u ∧ (∀ x, u.byteAt x = s.byteAt x) ∧ u.worlds = s.worlds
    (sum < 2 ^ 64 →
      (s.thr.paired = false → Completes (.ctadd l sc 0 b a d) s (s.pc + 4) fun u => added u ∧ u.sheaf = s.sheaf) ∧
      (s.thr.paired = true → stamp = none → Completes (.ctadd l sc 0 b a d) s (s.pc + 4) fun u => added u ∧
        ∃ e, u.sheaf = s.sheaf ++ [e] ∧ e.cref = s.thr.cref ∧ e.sseq = s.thr.ctx.stamped ∧ e.maj = 0x18 ∧ e.func = 0 ∧
          e.operand = s.int b ∧ e.result = old) ∧
      (∀ e, s.thr.paired = true → stamp = some e → e.maj = 0x18 → e.func = 0 → e.operand = s.int b → e.result = old →
        Completes (.ctadd l sc 0 b a d) s (s.pc + 4) added)) ∧
    (2 ^ 64 ≤ sum → Traps (.ctadd l sc 0 b a d) s 0x20 (n.setWidth 64))

/-- R144 on a counter line: the home adds in one step, the old value for aD; every byte beside the value stays. A sum above
2^64 - 1 changes nothing at the home and leaves 0x20 on aD, at once or at the end of the lookahead window (R93), or on the thread where D
is a0 (R364). -/
def Obligations.MemoryCounterAdd : Prop :=
  ∀ (l : BitVec 4) (sc : BitVec 2) (b a d : RegNum) (s t : State) (pa : Nat), plainRun s → freshStamp s →
    counterRef 1 a needCounter s = .ok (.mem pa, t) → ctrRefusal s.req pa t = none →
    let old := t.readNat pa 8
    let sum := old + (s.int b).toNat
    (sum < 2 ^ 64 → Completes (.ctadd l sc 1 b a d) s (s.pc + 4) fun u =>
      Replied l d (Cap.ofInt (BitVec.ofNat 64 old)) (stampedOf s u) s u ∧ u.readNat pa 8 = sum ∧
      u.ctrLines = s.ctrLines ∧ ∀ x, x < pa ∨ pa + 8 ≤ x → u.byteAt x = s.byteAt x) ∧
    (2 ^ 64 ≤ sum → Completes (.ctadd l sc 1 b a d) s (s.pc + 4) fun u =>
      (∀ x, u.byteAt x = s.byteAt x) ∧ (∀ r, u.reg r = s.reg r) ∧ u.ctrLines = s.ctrLines ∧
      ∃ f : Deferred, f.code = 0x20 ∧ f.orig = s.pc ∧
        if d = 0 then f ∈ u.thr.ctx.late
        else if l = 0 then NMap.get? u.thr.ctx.regMarks d.toNat = some f
        else u.thr.ctx.pend = s.thr.ctx.pend.map (fun p => { p with left := p.left - 1 }) ++ [⟨d, none, some f, l.toNat, none⟩])

/-- R144, R149, R253, R254 at the sward tree: an add, an arrival, a drop and a join raise the member's own count; `ctadd`
returns the group value from before; the group value is afterwards the least count among the members, where it was none above a count
before, and never falls; a dropper stays a member until the group value reaches the count of its drop, when MEMBER and DROPPING clear
together; every other thread keeps its counts and all else but its masks, the other member of a redundant pair all but its masks and
counts (R388). -/
def Obligations.SwardArrivals : Prop :=
  ∀ (l : BitVec 4) (sc : BitVec 2) (b a d : RegNum) (s : State), a.toNat < 16 → plainRun s → freshStamp s →
    let n : BitVec 4 := a.setWidth 4
    let key := swKey s.thr n
    let value := swValue s key
    let own := (ownCount n s).toNat
    let arrived := fun (count : Nat) (u : State) =>
      (ownCount n u).toNat = count ∧ value.toNat ≤ (swValue u key).toNat ∧ (∀ x, u.byteAt x = s.byteAt x) ∧
      ((∀ m ∈ memberCounts s key n, value.toNat ≤ m) → value.toNat ≤ count →
        (∀ m ∈ memberCounts u key n, (swValue u key).toNat ≤ m) ∧
        (memberCounts u key n ≠ [] → (swValue u key).toNat ∈ memberCounts u key n)) ∧
      List.Forall₂ (fun x y => sameButMask x y ∨ (x.cref = s.thr.cref ∧ x.world = s.thr.world ∧ sameButSward x y)) s.rest u.rest ∧
      (∀ j, j ≠ key → swValue u j = swValue s j) ∧
      ∀ k : BitVec 4, k ≠ n → ownCount k u = ownCount k s ∧ ownMask k u = ownMask k s
    ((ownMask n s).member = true →
      (own + (s.int b).toNat < 2 ^ 64 → Completes (.ctadd l sc 2 b a d) s (s.pc + 4) fun u =>
        arrived (own + (s.int b).toNat) u ∧ Replied l d (Cap.ofInt value) (swardsOf s u) s u) ∧
      (own + 1 < 2 ^ 64 →
        (Completes (.ctarr sc a) s (s.pc + 4) fun u => arrived (own + 1) u ∧ Becomes [] (swardsOf s u) s u) ∧
        (Completes (.ctarrDrop sc a) s (s.pc + 4) fun u => arrived (own + 1) u ∧ Becomes [] (swardsOf s u) s u ∧
          (ownMask n u).dropping = (ownMask n u).member ∧
          (s.thr.member = 0 → ownTree n s = ⟨true, none⟩ → ((ownMask n u).member = true ↔ (swValue u key).toNat < own + 1))))) ∧
    ((ownMask n s).member = false → (ownMask n s).span ≠ 0 → value.toNat + 1 < 2 ^ 64 →
      Completes (.ctarrJoin sc a) s (s.pc + 4) fun u => arrived (value.toNat + 1) u ∧ Becomes [] (swardsOf s u) s u ∧
        (ownMask n u).member = true) ∧
    ((ownMask n s).member = false → Traps (.ctadd l sc 2 b a d) s 0x21 (a.setWidth 64) ∧
      Traps (.ctarr sc a) s 0x21 (a.setWidth 64) ∧ Traps (.ctarrDrop sc a) s 0x21 (a.setWidth 64)) ∧
    ((ownMask n s).member = true ∨ (ownMask n s).span = 0 → Traps (.ctarrJoin sc a) s 0x21 (a.setWidth 64))

/-- R145-R147, R256: a met wait passes, a `ctwaitt` writes the value read, a `ctread` delivers it; an unmet wait leaves the
thread at its word with one request at the home. For a counter of a peer the operation leaves as a flit (R260, R406). -/
def Obligations.CounterReadsAndWaits : Prop :=
  ∀ (l : BitVec 4) (sc k : BitVec 2) (b a d : RegNum) (s t : State) (r : CtrRef), plainRun s → s.givenEntry = none →
    counterRef k a needCounter s = .ok (r, t) → ctrFault r s.req t = none →
    let v := ctrValue r t.thr t
    let waits := fun (lim : Option Nat) (dst : Option RegNum) (u : State) =>
      u.pc = s.pc ∧ (∀ x, u.reg x = s.reg x) ∧ (∀ x, u.byteAt x = s.byteAt x) ∧
      u.thr.wait = some ⟨r, s.int b, lim, dst, s.nextId, counterName k a s, none, s.now, .held⟩
    let asks := fun op : FlitOp => sendCounter r a op t
    (Completes (.ctread l sc k a d) s (s.pc + 4) fun u =>
      Delivered l d (Cap.ofInt v) [] ((asks .counterRead).logValue ⟨Cap.ofInt v, 0⟩ 16) s u ∧ ∀ x, u.byteAt x = s.byteAt x) ∧
    ((s.int b).toNat ≤ v.toNat → (Completes (.ctwait sc k b a) s (s.pc + 4) fun u =>
      Becomes [] (asks (.counterWait (s.int b) none)) s u ∧ ∀ x, u.byteAt x = s.byteAt x)) ∧
    ((s.int b).toNat ≤ v.toNat ∨ s.int d = 0 → Completes (.ctwaitt sc k b a d) s (s.pc + 4) fun u =>
      u.reg d = written d (Cap.ofInt v) ∧ Becomes [d] (asks (.counterWait (s.int b) (some (s.int d).toNat))) s u ∧ ∀ x, u.byteAt x = s.byteAt x) ∧
    (v.toNat < (s.int b).toNat →
      (∃ u, exec (.ctwait sc k b a) s = .next u ∧ waits none none u) ∧
      (s.int d ≠ 0 → ∃ u, exec (.ctwaitt sc k b a d) s = .next u ∧ waits (some (s.now + (s.int d).toNat)) (some d) u))

/-- R148: `ctinit` makes a counter line of the line: the value, zeros above it, no tag, the mark; a line that has the mark is
refused with no change. -/
def Obligations.CounterInit : Prop :=
  ∀ (b a : RegNum) (s t : State) (pa : Nat), plainRun s → freshStamp s → counterRef 1 a needInit s = .ok (.mem pa, t) → pa % 64 = 0 →
    t.serves s.req pa = true → s.isPoisoned pa = false → (∀ x, pa ≤ x → x < pa + 64 → s.isCounterLine pa = false → takesStore t s.req x) →
    (s.isCounterLine pa = false → Completes (.ctinit b a) s (s.pc + 4) fun u =>
      u.readNat pa 8 = (s.int b).toNat ∧ (∀ x, pa + 8 ≤ x → x < pa + 64 → u.byteAt x = 0) ∧ u.isCounterLine pa = true ∧
      (∀ x, pa ≤ x → x < pa + 64 → u.tagAt x = false) ∧ (∀ x, x < pa ∨ pa + 64 ≤ x → u.byteAt x = s.byteAt x) ∧
      Becomes [] (stampedOf s u) s u) ∧
    (s.isCounterLine pa = true → Completes (.ctinit b a) s (s.pc + 4) fun u =>
      (∀ x, u.byteAt x = s.byteAt x) ∧ u.ctrLines = s.ctrLines ∧ ∃ f ∈ u.thr.ctx.late, f.code = 0x21 ∧ f.orig = s.pc)

/-! ## Words of the execute half -/

/-- R203, R201, R202, R187: vector integer words, element by element; `vmin` and `vmax` fill their marked sources. -/
def Obligations.VectorIntegerWords : Prop :=
  ∀ (ka kb u : Bool) (e : ElemTy) (b a d : RegNum) (s : State), e.isInt = true →
    let w := ElemTy.bits e
    let x := operandAt a 0 s
    let y := operandAt b ([a].count b) s
    let z := operandAt d 0 s
    let sg := fun (v : Vec512) (n : Nat) => (BitVec.ofNat w (elem e v n)).toInt
    let low := fun i : Int => (i % 2 ^ w).toNat
    let two := fun (i : Instr) (kills : List (Bool × RegNum)) (f : Nat → Nat) =>
      VecGives i s [a, b] d kills e (ofElems e f) (voidFlag e [x, y])
    let one := fun (i : Instr) (f : Nat → Nat) => VecGives i s [a] d [] e (ofElems e f) (voidFlag e [x])
    (VecReady [a, b] d s →
      two (.vadd e b a d) [] (fun n => (elem e x n + elem e y n) % 2 ^ w) ∧
      two (.vsub e b a d) [] (fun n => low ((elem e x n : Int) - elem e y n)) ∧
      two (.vmul e b a d) [] (fun n => elem e x n * elem e y n % 2 ^ w) ∧
      two (.vmulh u e b a d) [] (fun n =>
        if u then elem e x n * elem e y n / 2 ^ w else low (sg x n * sg y n / 2 ^ w)) ∧
      two (.vand e b a d) [] (fun n => elem e x n &&& elem e y n) ∧
      two (.vor e b a d) [] (fun n => elem e x n ||| elem e y n) ∧
      two (.vxor e b a d) [] (fun n => elem e x n ^^^ elem e y n) ∧
      two (.vshl e b a d) [] (fun n => if w ≤ elem e y n then 0 else elem e x n * 2 ^ elem e y n % 2 ^ w) ∧
      two (.vshr e b a d) [] (fun n => if w ≤ elem e y n then 0 else elem e x n / 2 ^ elem e y n) ∧
      two (.vsra e b a d) [] (fun n => low (sg x n / 2 ^ min (elem e y n) (w - 1))) ∧
      two (.vmin ka kb u e b a d) [(ka, a), (kb, b)] (fun n =>
        if u then min (elem e x n) (elem e y n) else low (min (sg x n) (sg y n))) ∧
      two (.vmax ka kb u e b a d) [(ka, a), (kb, b)] (fun n =>
        if u then max (elem e x n) (elem e y n) else low (max (sg x n) (sg y n)))) ∧
    (VecReady [d, a, b] d s → readDstOk d = true →
      VecGives (.vmad e b a d) s [d, a, b] d [] e (ofElems e fun n => (elem e x n * elem e y n + elem e z n) % 2 ^ w)
        (voidFlag e [z, x, y])) ∧
    (VecReady [a] d s →
      one (.vabs e a d) (fun n => (sg x n).natAbs % 2 ^ w) ∧
      one (.vclz e a d) (fun n => ((List.range w).takeWhile fun k => !(elem e x n).testBit (w - 1 - k)).length) ∧
      one (.vpop e a d) (fun n => ((List.range w).filter fun k => (elem e x n).testBit k).length))

/-- R204-R206: float words of two and three sources: element n of D is the one rounding of the exact result, by `floatAdd` and
its companions; all their flags and VOID accrue; sign words set none (R205). -/
def Obligations.FloatWords : Prop :=
  ∀ (ka kb : Bool) (r : BitVec 2) (e : ElemTy) (c b a d : RegNum) (s : State), e.isFloat = true →
    let f := ElemTy.fmt e
    let x := operandAt a 0 s
    let y := operandAt b ([a].count b) s
    let z := operandAt c ([a, b].count c) s
    let result := fun (i : Instr) (srcs : List RegNum) (kills : List (Bool × RegNum)) (g : Nat → Nat × Flags) (v : Flags) =>
      VecGives i s srcs d kills e (ofElems e fun n => (g n).1) ((List.range e.count).foldl (fun fl n => fl ||| (g n).2) v)
    let two := fun (i : Instr) (kills : List (Bool × RegNum)) (g : Nat → Nat → Nat × Flags) =>
      result i [a, b] kills (fun n => g (elem e x n) (elem e y n)) (voidFlag e [x, y])
    let three := fun (i : Instr) (g : Nat → Nat → Nat → Nat × Flags) =>
      result i [a, b, c] [] (fun n => g (elem e x n) (elem e y n) (elem e z n)) (voidFlag e [x, y, z])
    let one := fun (i : Instr) (g : Nat → Nat × Flags) => result i [a] [] (fun n => g (elem e x n)) (voidFlag e [x])
    (VecReady [a, b] d s →
      two (.fadd r e b a d) [] (floatAdd f r) ∧ two (.fsub r e b a d) [] (floatSub f r) ∧
      two (.fmul r e b a d) [] (floatMul f r) ∧ two (.fdiv r e b a d) [] (floatDiv f r) ∧
      two (.fmin ka kb e b a d) [(ka, a), (kb, b)] (floatPick f false) ∧
      two (.fmax ka kb e b a d) [(ka, a), (kb, b)] (floatPick f true) ∧
      VecGives (.fsgn e b a d) s [a, b] d [] e (ofElems e fun n => copySign f (elem e x n) (elem e y n)) 0) ∧
    (VecReady [a, b, c] d s →
      three (.ffma r e c b a d) (floatFused f r false false) ∧ three (.ffms r e c b a d) (floatFused f r false true) ∧
      three (.ffnma r e c b a d) (floatFused f r true false) ∧ three (.ffnms r e c b a d) (floatFused f r true true)) ∧
    (VecReady [a] d s →
      one (.fsqrt r e a d) (floatSqrt f r) ∧ one (.frcp r e a d) (floatRcp f r) ∧ one (.frsq r e a d) (floatRsq f r) ∧
      one (.fexp2 r e a d) (floatExp2 f r) ∧ one (.flog2 r e a d) (floatLog2 f r) ∧
      VecGives (.fabs e a d) s [a] d [] e (ofElems e fun n => elem e x n % 2 ^ (ElemTy.bits e - 1)) 0 ∧
      VecGives (.fneg e a d) s [a] d [] e (ofElems e fun n => elem e x n ^^^ 2 ^ (ElemTy.bits e - 1)) 0)

/-- R204, R206, R207, R162-R178: special values of the float arithmetic of f32 and bf16, under every rounding mode: a NaN source
gives the canonical NaN, INVALID only from a signalling one; ∞ - ∞, 0 × ∞, 0 / 0 and ∞ / ∞ are invalid; a division of a finite
value by zero is a signed infinity with DIVZERO; the square root of a negative value is invalid; the special sources of `fsqrt`,
`frcp`, `frsq`, `fexp2` and `flog2`; in the fused words 0 × ∞ comes before a NaN in C. -/
def Obligations.FloatSpecialValues : Prop :=
  ∀ (f : Fmt) (r : BitVec 2) (a b c : Nat), (f = .f32 ∨ f = .bf16) →
    let x := decodeNum f a
    let y := decodeNum f b
    let z := decodeNum f c
    let bad := (canonNan f, fInvalid)
    let infinite := fun neg : Bool => signBit f neg + infCode f
    let one := if f = .f32 then 0x3F800000 else 0x3F80
    let zeroTimesInf := (∃ n m k, x = .inf n ∧ y = .fin m 0 k) ∨ ∃ n m k, x = .fin m 0 k ∧ y = .inf n
    let quiet := (canonNan f, if x.isSNan = true ∨ y.isSNan = true then fInvalid else 0)
    let quiet1 := (canonNan f, if x.isSNan = true then fInvalid else 0)
    let quiet3 := (canonNan f, if x.isSNan = true ∨ y.isSNan = true ∨ z.isSNan = true then fInvalid else 0)
    (x.isNan = true ∨ y.isNan = true →
      floatAdd f r a b = quiet ∧ floatSub f r a b = quiet ∧ floatMul f r a b = quiet ∧ floatDiv f r a b = quiet) ∧
    (∀ n, x = .inf n → y = .inf !n → floatAdd f r a b = bad) ∧ (∀ n, x = .inf n → y = .inf n → floatSub f r a b = bad) ∧
    (∀ n m p k, x = .inf n → y = .fin m p k → floatAdd f r a b = (infinite n, 0) ∧ floatSub f r a b = (infinite n, 0)) ∧
    (∀ n m p k, x = .fin m p k → y = .inf n → floatAdd f r a b = (infinite n, 0) ∧ floatSub f r a b = (infinite !n, 0)) ∧
    (zeroTimesInf → floatMul f r a b = bad) ∧
    (∀ n m p k k', x = .fin n 0 k → y = .fin m p k' → floatMul f r a b = (signBit f (n != m), 0)) ∧
    (∀ n m, x = .inf n → y = .inf m → floatMul f r a b = (infinite (n != m), 0) ∧ floatDiv f r a b = bad) ∧
    (∀ n m k k', x = .fin n 0 k → y = .fin m 0 k' → floatDiv f r a b = bad) ∧
    (∀ n m p k k', x = .fin n (p + 1) k → y = .fin m 0 k' → floatDiv f r a b = (infinite (n != m), fDivZero)) ∧
    (∀ n m p k, x = .fin n p k → y = .inf m → floatDiv f r a b = (signBit f (n != m), 0)) ∧
    (∀ n m p k, x = .inf n → y = .fin m p k → floatDiv f r a b = (infinite (n != m), 0)) ∧
    (x.isNan = true → floatSqrt f r a = quiet1 ∧ floatRcp f r a = quiet1 ∧ floatRsq f r a = quiet1 ∧ floatExp2 f r a = quiet1 ∧
      floatLog2 f r a = quiet1) ∧
    ((∃ p k, x = .fin true (p + 1) k) ∨ x = .inf true → floatSqrt f r a = bad ∧ floatRsq f r a = bad ∧ floatLog2 f r a = bad) ∧
    (∀ n k, x = .fin n 0 k → floatSqrt f r a = (signBit f n, 0) ∧ floatRcp f r a = (infinite n, fDivZero) ∧
      floatRsq f r a = (infinite n, fDivZero) ∧ floatExp2 f r a = (one, 0) ∧ floatLog2 f r a = (infinite true, fDivZero)) ∧
    (∀ n, x = .inf n → floatRcp f r a = (signBit f n, 0) ∧ floatExp2 f r a = (if n then 0 else infinite false, 0)) ∧
    (x = .inf false → floatSqrt f r a = (infinite false, 0) ∧ floatRsq f r a = (0, 0) ∧ floatLog2 f r a = (infinite false, 0)) ∧
    (a = one → floatLog2 f r a = (0, 0)) ∧
    ∀ negP negC : Bool,
      (zeroTimesInf → floatFused f r negP negC a b c = bad) ∧
      (¬ zeroTimesInf → x.isNan = true ∨ y.isNan = true ∨ z.isNan = true → floatFused f r negP negC a b c = quiet3) ∧
      (∀ n m k, (numMul x y).1 = .inf n → z = .inf m → (n != negP) = k → (m != negC) = !k → floatFused f r negP negC a b c = bad)

/-- R162, R173-R179: a value that the format holds rounds to itself with no flag, under every mode. Every other finite value goes to one of
the two members of the grid around it, by the mode: in the IEEE-style formats on the grid continued upward, where a code above the
greatest finite one becomes that one or an infinity (the UNDERFLOW flag of e2m1 is log entry 76); in t8 and t6 always to the nearest, and
above the greatest to it; in the integers within the signed range, else saturated. NaN and the infinities convert by R175, R177 and R178.
`floatAdd`, `floatSub`, `floatMul` and `floatFused` of finite operands are the one rounding of the exact result, a zero with the sign of
R176 (log entry 80 for the difference). -/
def Obligations.RoundingKeepsCodes : Prop :=
  ∀ (f : Fmt) (r : BitVec 2),
    let top := fmtMaxCode f
    let half : Nat := 2 ^ (fmtBits f - 1)
    let mag := fun (m : Nat) (e : Int) => (m : ℚ) * (2 : ℚ) ^ (e : ℤ)
    let real := fun (neg : Bool) (m : Nat) (e : Int) => (if neg then -1 else 1) * mag m e
    let away := fun neg : Bool => (r = 2 ∧ neg = true) ∨ (r = 3 ∧ neg = false)
    (∀ c, c < 2 ^ fmtBits f → (∀ n, decodeNum f c ≠ .nan n) → (∀ n, decodeNum f c ≠ .inf n) → roundTo f r (decodeNum f c) = (c, 0)) ∧
    (f ∈ [Fmt.f32, .bf16, .e5m2, .e4m3, .e2m1] →
      (∀ c, gridValue f c < gridValue f (c + 1)) ∧
      ∀ neg m e, ∃ c k, gridValue f c ≤ mag m e ∧ mag m e < gridValue f (c + 1) ∧
        roundedCode (r = 0) (away neg) (mag m e) (gridValue f c) (gridValue f (c + 1)) c k ∧
        (top < k → roundTo f r (.fin neg m e) =
          (signBit f neg + (if fmtHasInf f = true ∧ (r = 0 ∨ away neg) then infCode f else top), fOverflow ||| fInexact)) ∧
        (k ≤ top → roundTo f r (.fin neg m e) = (signBit f neg + k, if gridValue f k = mag m e then 0 else
          fInexact ||| if mag m e < (2 : ℚ) ^ (1 - (fmtBias f : ℤ)) then fUnderflow else 0))) ∧
    (f ∈ [Fmt.t8, .t6] →
      (∀ c < top, taperedValue f c < taperedValue f (c + 1)) ∧
      ∀ neg m e,
        (taperedValue f top < mag m e → roundTo f r (.fin neg m e) = (signBit f neg + top, fOverflow ||| fInexact)) ∧
        (mag m e = taperedValue f top → roundTo f r (.fin neg m e) = (signBit f neg + top, 0)) ∧
        (mag m e < taperedValue f top → ∃ c k, c < top ∧ taperedValue f c ≤ mag m e ∧ mag m e < taperedValue f (c + 1) ∧
          roundedCode True False (mag m e) (taperedValue f c) (taperedValue f (c + 1)) c k ∧
          roundTo f r (.fin neg m e) = (if k = 0 then 0 else signBit f neg + k, if taperedValue f k = mag m e then 0 else
            fInexact ||| if mag m e < taperedValue f 1 then fUnderflow else 0))) ∧
    (f.isFloat = false →
      (∀ neg m e, ∃ z : ℤ,
        (r = 0 → |real neg m e - z| ≤ 1 / 2 ∧ (|real neg m e - z| = 1 / 2 → z % 2 = 0)) ∧
        (r = 1 → z = if neg then ⌈real neg m e⌉ else ⌊real neg m e⌋) ∧
        (r = 2 → z = ⌊real neg m e⌋) ∧ (r = 3 → z = ⌈real neg m e⌉) ∧
        roundTo f r (.fin neg m e) = if z < -(half : ℤ) then (half, fInvalid) else if (half : ℤ) ≤ z then (half - 1, fInvalid)
          else ((z % 2 ^ fmtBits f).toNat, if (z : ℚ) = real neg m e then 0 else fInexact)) ∧
      (∀ n, roundTo f r (.nan n) = (0, fInvalid)) ∧
      ∀ neg : Bool, roundTo f r (.inf neg) = (if neg then half else half - 1, fInvalid)) ∧
    (f.isFloat = true →
      (∀ n, roundTo f r (.nan n) = (canonNan f, if n = true ∨ f = .e2m1 then fInvalid else 0)) ∧
      ∀ neg, roundTo f r (.inf neg) =
        if fmtHasInf f then (signBit f neg + infCode f, 0) else (signBit f neg + top, fOverflow ||| fInexact)) ∧
    (f = .f32 ∨ f = .bf16 → ∀ a b c na nb nc ma mb mc ea eb ec,
      decodeNum f a = .fin na ma ea → decodeNum f b = .fin nb mb eb → decodeNum f c = .fin nc mc ec →
      let x := real na ma ea
      let y := real nb mb eb
      let z := real nc mc ec
      let zeroSign := fun zeros n n' : Bool => if zeros && n == n' then n else decide (r = 2)
      RoundsOnce f r (x + y) (zeroSign (ma == 0 && mb == 0) na nb) (floatAdd f r a b) ∧
      RoundsOnce f r (x - y) (zeroSign (ma == 0 && mb == 0) na !nb) (floatSub f r a b) ∧
      RoundsOnce f r (x * y) (na != nb) (floatMul f r a b) ∧
      ∀ negP negC : Bool,
        RoundsOnce f r ((if negP then -(x * y) else x * y) + (if negC then -z else z))
          (zeroSign (ma * mb == 0 && mc == 0) ((na != nb) != negP) (nc != negC)) (floatFused f r negP negC a b c))

/-- R209: compares write the mask of their relation; a NaN makes only `ne` hold and a signalling one sets INVALID; `fthr` compares
with element 0 of B, the only element of B that is read. -/
def Obligations.CompareWords : Prop :=
  ∀ (ka kb u : Bool) (e : ElemTy) (b a d : RegNum) (s : State), VecReady [a, b] d s →
    let w := ElemTy.bits e
    let x := operandAt a 0 s
    let y := operandAt b ([a].count b) s
    let kills := [(ka, a), (kb, b)]
    let key := fun (v : Vec512) (n : Nat) => if u then (elem e v n : Int) else (BitVec.ofNat w (elem e v n)).toInt
    let int := fun (i : Instr) (p : Int → Int → Bool) =>
      VecGives i s [a, b] d kills e (ofElems e fun n => if p (key x n) (key y n) then 2 ^ w - 1 else 0) (voidFlag e [x, y])
    let num := fun (v : Vec512) (n : Nat) => decodeNum (ElemTy.fmt e) (elem e v n)
    let nan := fun (n : Nat) (k : Nat) => (num x n).isNan || (num y k).isNan
    let sig := fun (n : Nat) (k : Nat) => (num x n).isSNan || (num y k).isSNan
    let flags := fun (place : Nat → Nat) (v : Flags) =>
      if (List.range e.count).any (fun n => sig n (place n)) then v ||| fInvalid else v
    let flt := fun (i : Instr) (onNan : Bool) (p : Ordering → Bool) =>
      VecGives i s [a, b] d kills e (ofElems e fun n =>
        if (if nan n n then onNan else p (numCmp (num x n) (num y n))) then 2 ^ w - 1 else 0) (flags id (voidFlag e [x, y]))
    let thr := fun (i : Instr) (p : Ordering → Bool) =>
      VecGives i s [a, b] d kills e (ofElems e fun n =>
        if !nan n 0 && p (numCmp (num x n) (num y 0)) then 2 ^ w - 1 else 0)
        (flags (fun _ => 0) (voidFlag e [x] ||| if elem e y 0 = voidCode e then fVoid else 0))
    (e.isInt = true →
      int (.vcmpEq ka kb u e b a d) (fun p q => p == q) ∧ int (.vcmpNe ka kb u e b a d) (fun p q => p != q) ∧
      int (.vcmpLt ka kb u e b a d) (fun p q => decide (p < q)) ∧ int (.vcmpLe ka kb u e b a d) (fun p q => decide (p ≤ q)) ∧
      int (.vcmpGt ka kb u e b a d) (fun p q => decide (q < p)) ∧ int (.vcmpGe ka kb u e b a d) (fun p q => decide (q ≤ p))) ∧
    (e.isFloat = true →
      flt (.fcmpEq ka kb e b a d) false (· == .eq) ∧ flt (.fcmpNe ka kb e b a d) true (· != .eq) ∧
      flt (.fcmpLt ka kb e b a d) false (· == .lt) ∧ flt (.fcmpLe ka kb e b a d) false (· != .gt) ∧
      flt (.fcmpGt ka kb e b a d) false (· == .gt) ∧ flt (.fcmpGe ka kb e b a d) false (· != .lt) ∧
      thr (.fthrGe ka kb e b a d) (· != .lt) ∧ thr (.fthrLt ka kb e b a d) (· == .lt))

/-- R210, R187: select, permute, broadcast and slide move elements as bits; only the mask of `vsel` counts for VOID, and it is
never filled. -/
def Obligations.ElementMoves : Prop :=
  ∀ (ka kb : Bool) (e : ElemTy) (n b a d : RegNum) (s : State),
    let x := operandAt a 0 s
    let y := operandAt b ([a].count b) s
    let m := operandAt d 0 s
    (VecReady [d, a, b] d s → readDstOk d = true →
      VecGives (.vsel ka kb e b a d) s [d, a, b] d [(ka, a), (kb, b)] e
        (ofElems e fun k => if (elem e m k).testBit (ElemTy.bits e - 1) then elem e x k else elem e y k) (voidFlag e [m])) ∧
    (VecReady [a, b] d s →
      VecGives (.vperm e b a d) s [a, b] d [] e (ofElems e fun k => elem e x (elem e y k % e.count)) 0) ∧
    (VecReady [a] d s →
      (n.toNat < e.count → VecGives (.vbcast e n a d) s [a] d [] e (ofElems e fun _ => elem e x n.toNat) 0) ∧
      VecGives (.vslide e n a d) s [a] d [] e
        (ofElems e fun k => if k + n.toNat < e.count then elem e x (k + n.toNat) else 0) 0)

/-- R211-R213: conversions handle N = 512 / max(bits) elements from the low end, each rounded once, and write zeros above; `vpack`
narrows A into the low half and B into the high half with signed saturation. -/
def Obligations.ConversionWords : Prop :=
  ∀ (r : BitVec 2) (e : ElemTy) (f : Fmt) (b a d : RegNum) (s : State),
    let x := operandAt a 0 s
    let y := operandAt b ([a].count b) s
    let g := ElemTy.fmt e
    let converts := fun (i : Instr) (fa fd : Fmt) =>
      let n := 512 / max (fmtBits fa) (fmtBits fd)
      let src := fun k : Nat => x.toNat / 2 ^ (fmtBits fa * k) % 2 ^ fmtBits fa
      let v := fun k : Nat => roundTo fd r (decodeNum fa (src k))
      let void := match voidTypeOf fa with
        | some t => (List.range n).any fun k => src k == voidCode t
        | none => false
      VecGives i s [a] d [] e (BitVec.ofNat 512 (packElems (fmtBits fd) ((List.range n).map fun k => (v k).1)))
        ((List.range n).foldl (fun fl k => fl ||| (v k).2) (if void then fVoid else 0))
    (VecReady [a] d s → e.isFloat = true → f.isFloat = true →
      converts (.fcvtFromFc r e f a d) f g ∧ converts (.fcvtToFc r e f a d) g f) ∧
    (VecReady [a] d s → e.isInt = true → f.isFloat = true →
      converts (.icvtToInt r e f a d) f g ∧ converts (.icvtToFloat r e f a d) g f) ∧
    (VecReady [a, b] d s → (e = .i16 ∨ e = .i32 ∨ e = .i64) →
      let h := ElemTy.bits e / 2
      let val := fun k : Nat => (BitVec.ofNat (ElemTy.bits e) (if k < e.count then elem e x k else elem e y (k - e.count))).toInt
      let sat := fun i : Int => max (-(2 ^ (h - 1) : Int)) (min i (2 ^ (h - 1) - 1))
      VecGives (.vpack e b a d) s [a, b] d [] e
        (BitVec.ofNat 512 (packElems h ((List.range (2 * e.count)).map fun k => (sat (val k) % 2 ^ h).toNat)))
        (voidFlag e [x, y] ||| if (List.range (2 * e.count)).any (fun k => sat (val k) != val k) then fInexact else 0))

/-- R214, R195: a reduction combines neighbours level by level; the result is element 0 of D, zeros above it. `vredAdd` is the sum
modulo 2^w; the minimum and maximum are those of all elements. -/
def Obligations.LaneReductions : Prop :=
  ∀ (u : Bool) (r : BitVec 2) (e : ElemTy) (a d : RegNum) (s : State), VecReady [a] d s →
    let w := ElemTy.bits e
    let x := operandAt a 0 s
    let xs := (List.range e.count).map (elem e x)
    let ints := fun (i : Instr) (v : Nat) => VecGives i s [a] d [] e (ofElems e fun n => if n = 0 then v else 0) (voidFlag e [x])
    let least := fun v : Nat => v ∈ xs ∧ ∀ y ∈ xs,
      if u then v ≤ y else (BitVec.ofNat w v).toInt ≤ (BitVec.ofNat w y).toInt
    let most := fun v : Nat => v ∈ xs ∧ ∀ y ∈ xs,
      if u then y ≤ v else (BitVec.ofNat w y).toInt ≤ (BitVec.ofNat w v).toInt
    let level := fun (g : Nat → Nat → Nat × Flags) => tree g (Nat.log2 e.count) xs
    let flts := fun (i : Instr) (g : Nat → Nat → Nat × Flags) =>
      VecGives i s [a] d [] e (ofElems e fun n => if n = 0 then (level g).1.headD 0 else 0) ((level g).2 ||| voidFlag e [x])
    (e.isInt = true →
      ints (.vredAdd e a d) (xs.foldl (· + ·) 0 % 2 ^ w) ∧
      (∃ v, least v ∧ ints (.vredMin u e a d) v) ∧ (∃ v, most v ∧ ints (.vredMax u e a d) v)) ∧
    (e.isFloat = true →
      flts (.fredAdd r e a d) (floatAdd (ElemTy.fmt e) r) ∧ flts (.fredMin e a d) (floatPick (ElemTy.fmt e) false) ∧
      flts (.fredMax e a d) (floatPick (ElemTy.fmt e) true))

/-- R217, R218: `xmov` copies all 64 bytes; `xli` writes the immediate, sign-extended, in every element, `xli.hi` into the upper
half of every word and `xli.lo` into the lower. -/
def Obligations.MovesAndImmediates : Prop :=
  ∀ (i : BitVec 16) (e : ElemTy) (a d : RegNum) (s : State),
    (VecReady [a] d s → VecGives (.xmov a d) s [a] d [] e (operandAt a 0 s) 0) ∧
    (VecReady [] d s →
      VecGives (.xli i e d) s [] d [] e (ofElems e fun _ => (i.toInt % 2 ^ ElemTy.bits e).toNat) 0 ∧
      VecGives (.xliHi i d) s [] d [] .i32 (ofElems .i32 fun _ => i.toNat * 2 ^ 16) 0) ∧
    (VecReady [d] d s → readDstOk d = true →
      VecGives (.xliLo i d) s [d] d [] .i32
        (ofElems .i32 fun n => elem .i32 (operandAt d 0 s) n / 2 ^ 16 * 2 ^ 16 + i.toNat) 0)

/-! ## Views, tiles and the matrix unit -/

/-- R215, R216, R219-R221, R226: words between the halves, views, tile shapes, flags and the format word. `xflags` returns the flags
of every earlier word; `xins` changes one element of D; `xext` waits for the earlier words that write its element, and for no other (log
entry 8) while the stream frame has a place (R191), and pops a queue source. -/
def Obligations.ViewsFlagsElements : Prop :=
  ∀ (n : BitVec 3) (e : ElemTy) (k b a d : RegNum) (s : State),
    let made := fun (i : Instr) (f : Ctx → Ctx) => Completes i s (s.pc + 4) fun t => Becomes [] (s.modCtx f) s t ∧ SameBytes s t
    made (.xview b a d) (fun c => { c with
      vbase := (s.int a).extractLsb' 6 9, tbase := (s.int b).extractLsb' 6 9, tstride := (s.int d).extractLsb' 6 9 }) ∧
    made (.xshape a n) (fun c => { c with tshape := c.tshape.set n.toNat ((s.int a).setWidth 19) }) ∧
    made (.mfmt b a) (fun c => { c with fmtWord := s.int a, tscale := (s.int b).setWidth 16 }) ∧
    (Completes (.xflags a d) s (s.pc + 4) fun t =>
      t.reg d = written d (Cap.ofInt ((allFlags s).setWidth 64)) ∧ SameBytes s t ∧
      moreReady s.thr.ctx.sq0 t.thr.ctx.sq0 ∧ moreReady s.thr.ctx.sq1 t.thr.ctx.sq1 ∧ t.thr.ctx.stream = [] ∧
      Becomes [d] ((streamOf s t).modCtx fun c => { c with xflags := (s.int a).setWidth 6 }) s t) ∧
    ((Instr.xins e k a d).wf = true → viewOff d s + 64 ≤ s.thr.ctx.fs →
      let first := winOff d s + e.bytes * k.toNat
      Completes (.xins e k a d) s (s.pc + 4) fun t =>
        elem e (vecOfBytes (t.winRead (winOff d s) 64)) k.toNat = (s.int a).toNat % 2 ^ ElemTy.bits e ∧
        (∀ x, x < first ∨ first + e.bytes ≤ x → Cells.get t.thr.ctx.win x = Cells.get s.thr.ctx.win x) ∧
        allFlags t = allFlags s ∧ SameBytes s t ∧ moreReady s.thr.ctx.sq0 t.thr.ctx.sq0 ∧ moreReady s.thr.ctx.sq1 t.thr.ctx.sq1 ∧
        Becomes [] ((streamOf s t).modCtx fun c => { c with win := t.thr.ctx.win }) s t) ∧
    ((Instr.xext e k a d).wf = true → (a.toNat < 28 → viewOff a s + 64 ≤ s.thr.ctx.fs) → (a = 28 → s.thr.ctx.lq0 ≠ []) →
      (a = 29 → s.thr.ctx.lq1 ≠ []) →
      let x := elem e (operandAt a 0 s) k.toNat
      let first := winOff a s + e.bytes * k.toNat
      Completes (.xext e k a d) s (s.pc + 4) fun t =>
        t.reg d = written d (Cap.ofInt (if e.isFloat then BitVec.ofNat 64 x
          else BitVec.ofInt 64 (BitVec.ofNat (ElemTy.bits e) x).toInt)) ∧
        StreamRan s t ∧ SameBytes s t ∧
        ((28 ≤ a.toNat ∨ ∀ y ∈ s.thr.ctx.stream, ∀ z ∈ y.new, z.1 < first ∨ first + e.bytes ≤ z.1) →
          t.thr.ctx.stream = if s.thr.ctx.stream.length < Config.streamSlots then s.thr.ctx.stream else s.thr.ctx.stream.tail) ∧
        (a.toNat < 28 → ∀ y ∈ t.thr.ctx.stream, ∀ z ∈ y.new, z.1 < first ∨ first + e.bytes ≤ z.1) ∧
        Becomes [d] ((streamOf s t).modCtx fun c => { c with
          lq0 := if a = 28 then c.lq0.tail else c.lq0, lq1 := if a = 29 then c.lq1.tail else c.lq1 }) s t)

/-- R230-R238: the matrix words of the own cluster, once their checks pass: the unit has one entry more, with the tile bytes of this
moment; `.new` takes a slot and delivers its capability, or, with aD = a0 or no slot, delivers null and counts at once; with LK ≥ 1
and no entry free it goes on and its result stays to come. A slot that a partition switched out still holds is claimed under a new
incarnation, its contents kept for that partition (R240, log entry 84). -/
def Obligations.MatrixWords : Prop :=
  ∀ (l k : BitVec 4) (y x z : BitVec 3) (e : ElemTy) (blk p : RegNum) (s : State) (sh : MShape),
    let c := s.reg p
    let cl := s.thr.cluster
    let core := some (coreOf s.thr)
    let tiles := commandTiles sh x.toNat y.toNat s
    let owns := fun need => checkOwnSlot c need p s = .ok () ∧ checkSinc c s = .ok ()
    let inFrame := fun t : Nat => tileOff t s + tileSize (tileShape t s) ≤ s.thr.ctx.fs
    let taken := fun m : MCmd => m.shape = sh ∧ m.aBytes = tileBytes x.toNat s ∧ m.bBytes = tileBytes y.toNat s ∧ m.kctr = k ∧
      (sh.scale.isSome = true → m.saBytes = tileBytes (fwAsct s.thr.ctx.fmtWord) s ∧ m.sbBytes = tileBytes (fwBsct s.thr.ctx.fmtWord) s)
    let onSlot := fun (i : Instr) (q : MCmd → Prop) => Completes i s (s.pc + 4) fun t =>
      Accepts cl (fun m => m.core = core ∧ m.slot = some (curSlot c.cursor) ∧ m.sinc = curSinc c.cursor ∧ m.queued = false ∧ q m) s t ∧
      (t.cluster cl).mat.slots = (s.cluster cl).mat.slots ∧ Becomes [] (unitsOf s t) s t
    (entryFree cl core s = true → addsFit k s → commandShape (broadUnit cl) x.toNat y.toNat s = .ok sh → (∀ t ∈ tiles, inFrame t) →
      (owns ⟨0, false, true, false⟩ → onSlot (.mmaAcc k y x p) fun m => m.kind = .acc ∧ taken m) ∧
      (∀ n, p ≠ 0 → allocSlot cl core s = some n → plainRun s → (∀ h ∈ s.rest, h.tid ≠ s.thr.tid) →
        Completes (.mmaNew l k y x p) s (s.pc + 4) fun t =>
        Accepts cl (fun m => m.core = core ∧ m.slot = some n ∧ m.queued = false ∧ m.kind = .new ∧ taken m) s t ∧
        slotAt cl n t = slotTaken cl n core s.thr.world s.thr.ctx.domain s.thr.part s ∧ (∀ j, j ≠ n → slotAt cl j t = slotAt cl j s) ∧
        ((slotAt cl n s).used = true → ⟨cl, n, slotAt cl n s⟩ ∈ (t.part (slotAt cl n s).part).savedSlots) ∧
        Delivered l p (slotCap cl n (slotTaken cl n core s.thr.world s.thr.ctx.domain s.thr.part s).sinc (s.curDomain.gen % 4096)) [] (unitsOf s t) s t) ∧
      (p = 0 ∨ allocSlot cl core s = none → plainRun s → (∀ h ∈ s.rest, h.tid ≠ s.thr.tid) →
        Completes (.mmaNew l k y x p) s (s.pc + 4) fun t => t.clusters = s.clusters ∧ StreamRan s t ∧ SameBytes s t ∧
          Delivered l p Cap.null [] ((unitsOf s t).modCtx fun r => { r with kctr := r.kctr.set k.toNat (r.kctr[k.toNat] + 1) }) s t)) ∧
    (entryFree cl core s = false → l ≠ 0 → p ≠ 0 → addsFit k s →
      commandShape (broadUnit cl) x.toNat y.toNat s = .ok sh → (∀ t ∈ tiles, inFrame t) →
      Completes (.mmaNew l k y x p) s (s.pc + 4) fun t =>
        Accepts cl (fun m => m.core = core ∧ m.slot = none ∧ m.queued = true ∧ m.id = s.nextId ∧ m.kind = .new ∧ taken m) s t ∧
        (t.cluster cl).mat.slots = (s.cluster cl).mat.slots ∧ Becomes [] (awaited (unitsOf s t) l p s.nextId) s t) ∧
    (entryFree cl core s = true → addsFit k s → owns ⟨0, false, true, false⟩ →
      onSlot (.mmaZero k p) fun m => m.kind = .zero ∧ m.kctr = k) ∧
    (entryFree cl core s = true → owns ⟨0, false, true, false⟩ → onSlot (.arel p) fun m => m.kind = .arel) ∧
    (entryFree cl core s = true → owns ⟨0, true, false, false⟩ →
      let shape := tileShape z.toNat s
      shapeValid shape = some (ElemTy.fmt e) → (blk.toNat + 1) * shapeRows shape ≤ slotSide cl → shapeCols shape ≤ slotSide cl →
      inFrame z.toNat →
      onSlot (.aread e blk p z) fun m => m.kind = .aread ∧ m.tile = z ∧ m.tileOff = s.thr.ctx.wbase + tileOff z.toNat s ∧
        m.rows = shapeRows shape ∧ m.cols = shapeCols shape ∧ m.blkIdx = blk.toNat ∧ m.outFmt = ElemTy.fmt e ∧ m.ts = s.thr.ctx.tscale)

/-- R236: the remote forms, of a thread that is no member of a redundant pair: the entry stands at the unit of the cluster that aS
names and holds the places of its operands, whose bytes are read when it starts. A `.new` with LK ≥ 1 goes on where no entry is
free. -/
def Obligations.RemoteMatrixWords : Prop :=
  ∀ (l k : BitVec 4) (y x : BitVec 3) (p : RegNum) (s : State) (sh : MShape) (pa pb : Nat), s.thr.paired = false →
    let c := s.reg p
    let cl := curCluster c.cursor
    let fw := s.thr.ctx.fmtWord
    let placed := fun m : MCmd => m.core = none ∧ m.kctr = k ∧ m.shape = sh ∧ m.aAddr = some pa ∧ m.bAddr = some pb
    let operands := remoteOperand sh x.toNat (fwAsct fw) (nextReg p 1) cl s = .ok pa ∧
      remoteOperand sh y.toNat (fwBsct fw) (nextReg p 2) cl s = .ok pb
    let alone := plainRun s ∧ ∀ h ∈ s.rest, h.tid ≠ s.thr.tid ∧ ¬ (h.cref = s.thr.cref ∧ h.world = s.thr.world)
    let onSlot := fun (i : Instr) (q : MCmd → Prop) => Completes i s (s.pc + 4) fun t =>
      Accepts cl (fun m => m.slot = some (curSlot c.cursor) ∧ m.sinc = curSinc c.cursor ∧ m.queued = false ∧ q m) s t ∧
      (t.cluster cl).mat.slots = (s.cluster cl).mat.slots ∧ t.thr.restartable = false ∧ Becomes [] (unitsOf s t) s t
    addsFit k s →
    (entryFree cl none s = true →
      (checkSlotCap c ⟨0, false, true, true⟩ p s = .ok () → checkSinc c s = .ok () →
        (commandShape (broadUnit cl) x.toNat y.toNat s = .ok sh → operands → onSlot (.mmarAcc k y x p) fun m => m.kind = .acc ∧ placed m) ∧
        onSlot (.mmarZero k p) fun m => m.kind = .zero ∧ m.core = none ∧ m.kctr = k) ∧
      (checkSlotCap c ⟨2, false, false, true⟩ p s = .ok () → commandShape (broadUnit cl) x.toNat y.toNat s = .ok sh → operands →
        (∀ n, allocSlot cl none s = some n → alone → Completes (.mmarNew l k y x p) s (s.pc + 4) fun t =>
          Accepts cl (fun m => m.slot = some n ∧ m.queued = false ∧ m.kind = .new ∧ placed m) s t ∧
          slotAt cl n t = slotTaken cl n none s.thr.world s.thr.ctx.domain s.thr.part s ∧ (∀ j, j ≠ n → slotAt cl j t = slotAt cl j s) ∧ t.thr.restartable = false ∧
          Delivered l p (slotCap cl n (slotTaken cl n none s.thr.world s.thr.ctx.domain s.thr.part s).sinc (s.curDomain.gen % 4096)) [] (unitsOf s t) s t) ∧
        (allocSlot cl none s = none → alone →
          Completes (.mmarNew l k y x p) s (s.pc + 4) fun t => t.clusters = s.clusters ∧ StreamRan s t ∧ SameBytes s t ∧
            Delivered l p Cap.null [] ((unitsOf s t).modCtx fun r => { r with kctr := r.kctr.set k.toNat (r.kctr[k.toNat] + 1) }) s t))) ∧
    (entryFree cl none s = false → l ≠ 0 → p ≠ 0 → checkSlotCap c ⟨2, false, false, true⟩ p s = .ok () →
      commandShape (broadUnit cl) x.toNat y.toNat s = .ok sh → operands →
      Completes (.mmarNew l k y x p) s (s.pc + 4) fun t =>
        Accepts cl (fun m => m.slot = none ∧ m.queued = true ∧ m.id = s.nextId ∧ m.kind = .new ∧ placed m) s t ∧
        (t.cluster cl).mat.slots = (s.cluster cl).mat.slots ∧ t.thr.restartable = false ∧
        Becomes [] (awaited (unitsOf s t) l p s.nextId) s t)

/-! ## Copy engines -/

/-- R150-R156: `cpyj` with a card enters a queued job with the scheduler's edges (R104) and uses one stamp; with an engine
capability it sets going the paused jobs whose page has come, their windows in ascending order first. `cpyq` writes the status of
the job last accepted from a card's place, 0 where there is none, or of the engine. -/
def Obligations.CopyWords : Prop :=
  ∀ (a d : RegNum) (s t u : State) (n : Nat) (bs : List Byte) (qs : List (Nat × Nat)),
    let c := s.reg a
    let cl := s.thr.cluster
    let e := engineOf cl s
    let card := bs.take 176
    let tag := fun off : Nat => t.tagAt (State.placeIn qs off)
    let source := cardCap card 0 (tag 0)
    let dest := cardCap card 16 (tag 16)
    let unit := c.tag = true ∧ c.space = 6
    (¬ unit → s.thr.paired = false → freeEntry e = some n → e.stop = false →
      (s.thr.stall = some (.copyGranted cl) ∨
        ((s.threads.filter fun h => h.tid != s.thr.tid && grantedCard cl s h).length < freeEntries e ∧
          ∀ h ∈ s.threads, h.tid ≠ s.thr.tid → matrixRuns h.part s = true → waitsCard cl h = false)) →
      s.readBlock c 192 needRead12 (a.setWidth 64) = .ok (bs, qs, t) →
      checkCard card c.cursor (tag 0) (tag 16) (tag 128) t = .ok u →
      Completes (.cpyj a) s (s.pc + 4) fun v =>
        (∃ j, jobAt cl n v = some j ∧ j.state = .queued ∧ j.card = card ∧ j.cardAddr = c.cursor ∧ j.landed = [] ∧ j.order = e.nextOrder ∧
          j.srcTag = tag 0 ∧ j.dstTag = tag 16 ∧ j.ccapTag = tag 128 ∧ j.tid = s.thr.tid ∧ j.world = s.thr.world ∧
          j.domain = s.thr.ctx.domain ∧ j.sseq = s.thr.ctx.stamped ∧
          j.deps = edgesOf e [footOf source (cardNat card 144 8) (cardNat card 152 8)] [footOf dest (cardNat card 160 8) (cardNat card 168 8)]) ∧
        (∀ k, k ≠ n → jobAt cl k v = jobAt cl k s) ∧ (engineOf cl v).nextOrder = e.nextOrder + 1 ∧ v.thr.restartable = false ∧
        SameBytes s v ∧ Becomes [] { stampedOf s v with clusters := v.clusters } s v) ∧
    (unit → checkSlotCap c ⟨1, false, false, true⟩ a s = .ok () →
      Completes (.cpyj a) s (s.pc + 4) fun v =>
        (∀ k, jobAt (curCluster c.cursor) k v = (jobAt (curCluster c.cursor) k s).map fun j =>
          if j.state = .paused ∧ j.owed = false ∧ pausePresent j s = true then { j with
            state := if sectorCount j.card = 0 then .queued else .running, fault := 0, bmap := 0
            ascendTo := firstUnlanded j + 4096 } else j) ∧
        SameBytes s v ∧ Becomes [] (unitsOf s v) s v) ∧
    (unit → checkSlotCap c ⟨1, true, false, false⟩ a s = .ok () →
      Gives (.cpyq a d) s d (Cap.ofInt (engineStatus (engineOf (curCluster c.cursor) s)))) ∧
    (¬ unit → ∀ ps, Reaches s c c.cursor 1 needRead12 (a.setWidth 64) ps t →
      Completes (.cpyq a d) s (s.pc + 4) fun v =>
        v.reg d = written d (Cap.ofInt (match latestJob e c.cursor with
          | some (k, j) => jobStatus k j
          | none => 0)) ∧ Becomes [d] t s v ∧ SameBytes s v)

/-! ## Scheduling words -/

/-- R290: `spawn` makes one READY continuation of the template in the thread's domain, world and partition, with a3-a11, the sward
spans, the allotment min(template, own), which leaves the parent; its reference goes to aD. The value of the reference, the name that
comes next as `nameBits` shows it, is the model's (log entry 10). -/
def Obligations.SpawnWord : Prop :=
  ∀ (l : BitVec 4) (a d : RegNum) (s t : State) (bs : List Byte) (qs : List (Nat × Nat)) (home : Nat),
    let c := s.reg a
    let dw0 : Word64 := BitVec.ofNat 64 (cardNat bs 0 8)
    let dw1 := cardNat bs 8 8
    let g := min (cardNat bs 32 6) s.thr.ctx.allot
    let ref := (childRef t).1
    s.readBlock c 64 needLoad (a.setWidth 64) = .ok (bs, qs, t) → checkTemplate c.cursor dw0 dw1 t = .ok home → s.givenEntry = none →
    mayCreate t → (childRef t).2 = false → dw1.testBit 17 = false →
    Completes (.spawn l a d) s (s.pc + 4) fun u =>
      (∃ h, u.rest = s.rest ++ [h] ∧ h.status = .ready ∧ h.tid = s.nextId ∧ h.cref = ref ∧ h.world = s.thr.world ∧ h.level = dwLevel dw1 ∧ h.cls = dwClass dw1 ∧
        ((∀ x ∈ s.curPart.reborn, isSpawn s x = false) → ref = BitVec.ofNat 64 s.nextId) ∧
        h.part = s.thr.part ∧ h.baseDomain = s.thr.ctx.domain ∧ h.launch = s.thr.launch ∧ h.cluster = home ∧ h.prio = dwPrio dw1 ∧
        h.place = none ∧ h.ctx.domain = s.thr.ctx.domain ∧ h.ctx.code = s.thr.ctx.code.setCursor dw0 ∧ h.ctx.allot = g ∧
        (∀ r : Fin 32, h.ctx.regs[r] = if 3 ≤ r.val ∧ r.val < 12 then s.thr.ctx.regs[r] else Cap.null) ∧
        (∀ n : Fin 16, h.ctx.swmask[n] = ⟨s.thr.ctx.swmask[n].span, false, false⟩ ∧ h.ctx.swcount[n] = 0 ∧ h.ctx.swtree[n] = SwTree.none ∧ h.ctx.kctr[n] = 0) ∧
        h.ctx.win = [] ∧ h.ctx.fs = 0 ∧ h.ctx.dstack = []) ∧
      SameBytes s u ∧
      Delivered l d (Cap.ofInt (State.nameBits ref.toNat)) []
        { s with
          rest := u.rest, recAreas := u.recAreas, worlds := u.worlds, parts := u.parts, nextId := u.nextId
          thr := { s.thr with
            task := u.thr.task, restartable := u.thr.restartable
            ctx := { s.thr.ctx with allot := s.thr.ctx.allot - g, spawned := s.thr.ctx.spawned + 1 } } } s u

/-- R291, R292: `exit` with balanced queues at gate depth 0 ends the continuation after its `.drop` arrivals, and gives its status to
its launch where no nonzero one came before; it stays a member of the groups that its drops have not reached (R254). In a partition that
keeps step records the report and the end are held until the boundary. The first member of a redundant pair waits, ended, for the other,
whose exit with the same status ends the continuation, and with another is pair divergence 0x43. Elsewhere it faults. `yield` gives the
slot up only to a READY record that its core may take, of its level or above. -/
def Obligations.ExitAndYield : Prop :=
  ∀ (a : RegNum) (s : State),
    let status : BitVec 8 := (s.int a).setWidth 8
    let p := s.thr.part
    let ended := fun (u : State) (others : List Thread) => Happens (.exit a) s fun t =>
      t.thr = Thread.vacant ∧ t.rest = others ∧ t.swards = u.swards ∧ SameBytes u t ∧ t.leavers = u.leavers ++ leaversOf u.thr ∧
      (u.curPart.keeps = false → t.launches = match u.thr.launch with
        | some k => u.launches.map fun x => if x.id = k ∧ x.firstExit = 0 then { x with firstExit := status } else x
        | none => u.launches) ∧
      (u.curPart.keeps = true → t.launches = u.launches ∧
        (t.part p).reports = (u.part p).reports ++ (u.thr.launch.map fun k => (k, status)).toList ∧
        ∃ h, (t.part p).exited = (u.part p).exited ++ [h] ∧ h.tid = u.thr.tid ∧ h.cref = u.thr.cref ∧ h.status = .done ∧ h.place = none)
    (∀ u, s.unbalanced = none → s.depth = 0 →
      dropAll (s.drain.modCtx fun c => { c with pend := [] }) (List.range 16) = .ok u → u.thr.part = p →
      (pairOther s = none → ended u u.rest) ∧
      (∀ o, pairOther s = some o →
        (o.exitStatus = none → Happens (.exit a) s fun t => t.thr = Thread.vacant ∧ t.launches = u.launches ∧ t.leavers = u.leavers ∧
          t.swards = u.swards ∧ SameBytes u t ∧
          ∃ h, t.rest = u.rest ++ [h] ∧ h.tid = u.thr.tid ∧ h.status = .done ∧ h.place = none ∧ h.exitStatus = some status) ∧
        (o.exitStatus = some status → ended u (u.rest.filter fun h => h.tid != o.tid)))) ∧
    (∀ o x, s.unbalanced = none → s.depth = 0 → pairOther s = some o → o.exitStatus = some x → x ≠ status → Traps (.exit a) s 0x43 0) ∧
    (∀ q, s.unbalanced = some q → Traps (.exit a) s 0x02 (BitVec.ofNat 64 q)) ∧
    (s.unbalanced = none → s.depth ≠ 0 → Traps (.exit a) s 0x28 5) ∧
    let rival := ∃ h ∈ s.threads, h.cluster = s.thr.cluster ∧ takeable h s = true ∧ mayRunOn h s.thr.cluster s = true ∧
      s.thr.prio ≤ h.effLevel
    (¬ rival → Passes .yield s) ∧
    (rival → Completes .yield s (s.pc + 4) fun t => t.thr.status = .ready ∧ t.thr.place = none ∧ t.thr.readyOrder = s.nextId ∧
      SameBytes s t ∧ onlyAside s.thr.ctx.stream t.thr.ctx.stream ∧ (s.thr.place ≠ none → t.thr.overflow = s.poolFull s.thr) ∧
      Becomes [] { s with
        nextId := s.nextId + 1
        thr := { s.thr with
          status := .ready, place := none, effLevel := s.thr.prio, readyOrder := s.nextId, readySince := s.cycle
          overflow := t.thr.overflow, ctx := { s.thr.ctx with stream := t.thr.ctx.stream } } } s t)

/-- R295-R297, R329, R376-R378: what a thread reads of itself, and its halt group; a debug stop halts the cores that share a group, and
sets aside the stream entries of their threads. -/
def Obligations.ThreadWords : Prop :=
  ∀ (n : BitVec 11) (sel : BitVec 3) (sd : BitVec 2) (a d : RegNum) (s : State),
    let old := s.thr.ctx.allot
    let ask := (s.int a).toNat
    let place := s.thr.place.getD 0
    let ids := [place % 2 ^ 13, place / 8 % 2 ^ 10, s.thr.cluster % 64, s.thr.cluster / 8 % 8, s.thr.part % 256,
      s.thr.ctx.domain % 65536, s.thr.world % 64, s.curPart.stepNo]
    let stats := [s.depth, s.thr.ctx.lastStatus.toNat, s.thr.ctx.domain, s.curDomain.gen % 4096]
    let core := coreOf s.thr
    let groups := (coreRec s.thr.cluster core s).groups
    let now := max s.now s.thr.ctx.lastTime
    let reads := fun (i : Instr) (v : Nat) (m : State → State) => Completes i s (s.pc + 4) fun t =>
      t.reg d = written d (Cap.ofInt (BitVec.ofNat 64 v)) ∧ Becomes [d] (m t) s t ∧ SameBytes s t
    reads (.allot a d) old (fun _ => s.modCtx fun c => { c with allot := if ask = 0 then old else min old ask }) ∧
    (s.givenEntry = none → reads (.getid sel d) (ids.getD sel.toNat 0) fun t =>
      { s with thr := { s.thr with task := t.thr.task, restartable := t.thr.restartable } }) ∧
    reads (.time d) now (fun _ => s.modCtx fun c => { c with lastTime := now }) ∧
    Gives (.dstat sd d) s d (Cap.ofInt (BitVec.ofNat 64 (stats.getD sd.toNat 0))) ∧
    (s.curPart.dbgen = true →
      reads (.haltg a d) groups.toNat (fun t => { s with clusters := t.clusters }) ∧
      (Happens (.haltg a d) s fun t => (coreRec s.thr.cluster core t).groups = (s.int a).setWidth 8) ∧
      (groups ≠ 0 → Completes (.dbgstop n) s (s.pc + 4) fun t =>
        List.Forall₂ sameButAside s.rest t.rest ∧ onlyAside s.thr.ctx.stream t.thr.ctx.stream ∧
        Becomes [] { s with
          clusters := t.clusters, nextId := s.nextId + 1, rest := t.rest
          thr := { s.thr with ctx := { s.thr.ctx with stream := t.thr.ctx.stream } } } s t ∧
        ∀ c ∈ s.curPart.clusters, ∀ k r, NMap.get? (s.cluster c).cores k = some r → NMap.get? (t.cluster c).cores k = some
          (if r.groups &&& groups ≠ 0 ∧ r.halted = false then { r with halted := true, stopped := groups, stop := s.nextId } else r))) ∧
    (s.curPart.dbgen = false → Gives (.haltg a d) s d (Cap.ofInt 0)) ∧
    (s.curPart.dbgen = false ∨ groups = 0 → Traps (.dbgstop n) s 0x48 (n.setWidth 64))

/-- R288, R293, R387: `sysc` takes the next ticket; its request stands in the ring, or the thread waits while the ring is full; a
stamp already served returns the reply in the sheaf, also where the other member of a pair had it served while this one waited for the
ring. R294: `step` ends open windows, writes every earlier result and waits for the
boundary, which STEP_BOUNDARY completes. -/
def Obligations.SystemCallAndStep : Prop :=
  ∀ (n : BitVec 11) (a d : RegNum) (s : State),
    let w := s.thr.world
    let k := (s.world w).ringTail
    let stamp := fun e : SheafEntry => s.sheafFind w s.thr.part s.thr.cref s.curPart.stepNo s.thr.ctx.stamped = some e
    ((∀ t, s.thr.stall ≠ some (.ring t)) → (∀ r t, s.thr.stall ≠ some (.sysc r t)) → s.givenEntry = none →
      ((∀ e, ¬ stamp e) → ringTwin s.thr.ctx.stamped s = none → twinWaits a s = none →
        Happens (.sysc n a d) s fun t => t.pc = s.pc ∧ (∀ r, t.reg r = s.reg r) ∧ SameBytes s t ∧ (t.world w).ringTail = k + 1 ∧
          if k < (s.world w).ringFree + Config.ringSize then
            t.thr.stall = some (.sysc d k) ∧
            ∃ e, (t.world w).ring = (s.world w).ring ++ [e] ∧ e.ticket = k ∧ e.n = n ∧ e.arg = s.reg a ∧ e.domain = s.thr.ctx.domain ∧
              e.tid = s.thr.tid ∧ e.sseq = s.thr.ctx.stamped
          else t.thr.stall = some (.ring k) ∧ (t.world w).ring = (s.world w).ring) ∧
      (∀ e, stamp e → e.maj = 0x37 → e.func = 0 → e.operand = s.int a → n ≠ 4 →
        Completes (.sysc n a d) s (s.pc + 4) fun t => t.reg d = written d (Cap.ofInt e.result) ∧ SameBytes s t ∧
          Becomes [d] (stampedOf s t) s t)) ∧
    (∀ q e, s.thr.stall = some (.ring q) → n ≠ 4 →
      s.sheafFind w s.thr.part s.thr.cref s.curPart.stepNo (s.thr.ctx.stamped - 1) = some e →
        Completes (.sysc n a d) s (s.pc + 4) fun t => t.reg d = written d (Cap.ofInt e.result) ∧ SameBytes s t ∧
          Becomes [d] (homesOf s t) s t) ∧
    (s.unbalanced = none → s.depth = 0 →
      Happens .step s fun t => t.thr.stall = some .boundary ∧ t.pc = s.pc ∧ t.thr.ctx.pend = [] ∧ t.thr.ctx.stream = [] ∧
        allFlags t = allFlags s ∧ t.thr.ctx.win = s.thr.ctx.win ∧ SameBytes s t ∧
        ∀ r, (∀ p ∈ s.thr.ctx.pend, p.reg ≠ r) → t.reg r = s.reg r)

/-! ## Gates -/

/-- R317-R320, R326: `gcall` in place enters the gate's domain at its code with a fresh frame over the caller's top ARGW bytes,
the arguments without untransferable authority and a saved caller; a far gate sends a hop record and leaves the thread GATED; `gret`
gives the caller back everything but a4-a11, which hold the results, and a12-a23, which are null; the callee's frame is zeroed. On the FAR
entry of a landing continuation it sends a4-a11, untagged, the argument window and the allotment left back in the hop record, or, where
the caller is gone, discards them, and the continuation ends. -/
def Obligations.GateCallAndReturn : Prop :=
  ∀ (a : RegNum) (s : State) (w g : Nat) (x : Gate) (e : DomEntry) (r : List DomEntry), mayTransfer s →
    let m := s.landAll
    let c := m.thr.ctx
    let nb := c.wbase + c.fs - x.argw * 64
    (checkGcall a m = .ok (w, g, x) → w = s.thr.world → Lands (.gcall a) s x.code.cursor fun t =>
      let k := t.thr.ctx
      k.code = x.code ∧ k.domain = x.domain ∧ k.wbase = nb ∧ k.fs = x.frame * 64 ∧ k.cdepth = 0 ∧ k.vbase = 0 ∧ k.tbase = 0 ∧
      k.tstride = 0 ∧ allFlags t = 0 ∧ k.pend = [] ∧ ((t.world w).gate g).count = x.count + 1 ∧
      (∀ q, t.reg q = if q = 0 then Cap.null else if q = 1 then State.returnToken (s.depth + 1) else if q = 2 then x.frameCap
        else if q = 3 then x.root else if q.toNat < 12 then State.dropAuthority (m.reg q) else Cap.null) ∧
      (∀ y, nb ≤ y → y < nb + x.argw * 64 → Cells.get k.win y = Cells.get c.win y) ∧
      (∀ y, nb + x.argw * 64 ≤ y → y < nb + x.frame * 64 → Cells.get k.win y = 0) ∧
      ∃ f, k.dstack = f :: c.dstack ∧ f.retpc = s.pc + 4 ∧ f.ccode = c.code ∧ f.cdom = c.domain ∧ f.saved = c.regs ∧
        f.cwbase = c.wbase ∧ f.cfs = c.fs ∧ f.ccdepth = c.cdepth ∧ f.cvbase = c.vbase ∧ f.cxflags = allFlags s ∧ f.gate = g ∧
        f.trap = false ∧ f.far = false ∧ f.blim = c.allot - x.budget) ∧
    (checkGcall a m = .ok (w, g, x) → w ≠ s.thr.world → Lands (.gcall a) s (s.pc + 4) fun t =>
      t.thr.status = .gated ∧ t.thr.place = none ∧ ((t.world w).gate g).count = x.count + 1 ∧ allFlags t = allFlags s ∧
      ∃ h, t.hub.hops = s.hub.hops ++ [h] ∧ t.thr.hop = some h.id ∧ h.gateWorld = w ∧ h.gate = g ∧ h.grant = min c.allot x.budget ∧
        h.args = (List.range 8).map (fun q => State.untag (m.reg (BitVec.ofNat 5 (q + 4)))) ∧ h.back = false ∧
        h.window = m.winRead nb (x.argw * 64)) ∧
    (c.dstack = e :: r → s.unbalanced = none → e.trap = false → e.far = false → domDead s.thr.world e.cdom e.cgen s = false →
      Lands .gret s e.retpc fun t =>
        let k := t.thr.ctx
        k.code = e.ccode.setCursor e.retpc ∧ k.domain = e.cdom ∧ k.wbase = e.cwbase ∧ k.fs = e.cfs ∧ k.cdepth = e.ccdepth ∧
        k.vbase = e.cvbase ∧ k.tbase = e.ctbase ∧ k.tstride = e.ctstride ∧ allFlags t = e.cxflags ∧ k.lastStatus = 0 ∧
        k.dstack.length = r.length ∧
        (∀ q : RegNum, t.reg q = if q = 0 then Cap.null else if 4 ≤ q.toNat ∧ q.toNat < 12 then State.dropAuthority (m.reg q)
          else if 12 ≤ q.toNat ∧ q.toNat < 24 then Cap.null else e.saved[q.toNat]) ∧
        ∀ y, Cells.get k.win y = if e.cwbase + e.cfs ≤ y ∧ y < e.high then 0 else Cells.get c.win y) ∧
    (∀ id y, c.dstack = e :: r → s.unbalanced = none → e.trap = false → e.far = true → e.hop = some id → y ∈ s.hub.hops → y.id = id →
      (∀ z ∈ s.hub.hops, z.id = id → z = y) → y.back = false →
      Happens .gret s fun t => t.thr = Thread.vacant ∧ t.rest = s.rest ∧ SameBytes s t ∧
        ((t.world e.gworld).gate e.gate).count = ((s.world e.gworld).gate e.gate).count - 1 ∧
        hopOf id t = if y.orphan then none else some { y with
          back := true, status := 0, remain := c.allot, window := m.winRead e.cwbase (e.argw * 64)
          args := (List.range 8).map fun q => State.untag (m.reg (BitVec.ofNat 5 (q + 4))) }) ∧
    (c.dstack = e :: r → s.unbalanced = none → e.trap = true → exec .gret s = .next (m.clearStall.deliverTrap (plainFault 0x28 7))) ∧
    (c.dstack = [] → exec .gret s = .next (m.clearStall.deliverTrap (plainFault 0x28 6)))

/-- R313-R316, R323: `gmake` makes the free entry with the lowest index a gate of the descriptor and gives its sealed capability, or
0 where no entry is free; `grevoke` ends the gate for new calls, frees it once nobody is inside and raises its generation, or raises
the generation of the current domain; `.eject` marks the entries through the gate, and completes once no other marked thread is in a
slot. -/
def Obligations.GateWords : Prop :=
  ∀ (a d : RegNum) (s t u : State) (bs : List Byte) (ps qs : List (Nat × Nat)),
    let c := s.reg a
    let w := s.thr.world
    let dom := s.thr.ctx.domain
    let code := t.capAt (State.placeIn qs 0)
    let root := t.capAt (State.placeIn qs 16)
    let frameCap := t.capAt (State.placeIn qs 32)
    let worldsOf := fun v : State => { s with worlds := v.worlds, parts := v.parts }
    (s.readBlock c 64 needDescriptor (a.setWidth 64) = .ok (bs, qs, t) → Reaches t code code.cursor 4 needFetch c.cursor ps u →
      plainCapOk root t = .ok () → (frameCap.tag = true → plainCapOk frameCap t = .ok ()) → descriptorOffence bs = none →
      (freeGate (s.world w) = none → Completes (.gmake a d) s (s.pc + 4) fun v =>
        v.reg d = written d (Cap.ofInt 0) ∧ Becomes [d] (worldsOf v) s v ∧ SameBytes s v) ∧
      (∀ g, freeGate (s.world w) = some g → Completes (.gmake a d) s (s.pc + 4) fun v =>
        let x := (v.world w).gate g
        x.live = true ∧ x.domain = dom ∧ x.code = code ∧ x.root = root ∧ x.frameCap = frameCap ∧ x.budget = cardNat bs 48 6 ∧
        x.frame = cardNat bs 54 2 ∧ x.argw = cardNat bs 56 1 ∧ x.count = 0 ∧ x.gen = ((s.world w).gate g).gen ∧
        (∀ k, k ≠ g → (v.world w).gate k = (s.world w).gate k) ∧
        v.reg d = written d (gateCap w dom g x.gen x.pr) ∧ Becomes [d] (worldsOf v) s v ∧ SameBytes s v)) ∧
    (c.tag = true → c.space = 5 → gateDomain c.cursor = dom → gateWorld c.cursor = w →
      let g := gateIndex c.cursor
      let x := (s.world w).gate g
      let revoked := fun v : State =>
        let y := (v.world w).gate g
        y.gen = (if x.gen ≥ 4095 then x.gen else x.gen + 1) ∧ (y.live = true ↔ x.count ≠ 0 ∧ x.gen < 4095) ∧
        (x.gen ≥ 4095 → y.retired = true) ∧ (∀ k, k ≠ g → (v.world w).gate k = (s.world w).gate k) ∧ SameBytes s v
      x.live = true → x.gen % 4096 = c.gen.toNat →
      (Completes (.grevoke a) s (s.pc + 4) fun v => revoked v ∧ Becomes [] (worldsOf v) s v) ∧
      ((∀ b e f, s.thr.stall ≠ some (.revoke b e f)) → s.thr.status ≠ .vacant → (∀ h ∈ s.rest, h.world = w → resident h s = false) →
        Completes (.grevokeEject a) s (s.pc + 4) fun v => revoked v ∧
          ∀ h ∈ v.threads, h.world = w → ∀ e ∈ h.ctx.dstack, e.gate = g → e.ggen = x.gen → ¬ (e.far = true ∧ e.cworld = w) → e.eject = true)) ∧
    (c.tag = true → c.space ≠ 5 → c.bits = s.curDomain.root.bits → s.curDomain.gen < 4095 →
      Completes (.grevoke a) s (s.pc + 4) fun v => ((v.world w).dom dom).gen = s.curDomain.gen + 1 ∧ SameBytes s v ∧
        ∀ q : RegNum, q ≠ 2 → q ≠ 3 → v.reg q = s.reg q)

/-! ## System words -/

/-- R368-R370, R221, R253: `srd` reads the system register and `swr` writes XFLAGS, the view bases and the tile shapes; the other
registers are read-only. Reading or writing XFLAGS comes after every earlier word; STRMCNT counts the entries not yet complete. -/
def Obligations.SystemRegisters : Prop :=
  ∀ (n : BitVec 12) (k : BitVec 3) (q : BitVec 4) (a d : RegNum) (s : State),
    let c := s.thr.ctx
    let now := max s.now c.lastTime
    let after := fun t : State => { (streamOf s t).modCtx (fun x => { x with lastTime := t.thr.ctx.lastTime }) with tick := t.tick }
    let reads := fun (i : Instr) (p : Word64 → State → Prop) => Completes i s (s.pc + 4) fun t =>
      (∃ v, t.reg d = written d (Cap.ofInt v) ∧ p v t) ∧ StreamRan s t ∧ Becomes [d] (after t) s t ∧ SameBytes s t
    let mask := ownMask q s
    let writes := fun (m : BitVec 12) (f : Ctx → Ctx) => Completes (.swr m a) s (s.pc + 4) fun t =>
      Becomes [] (s.modCtx f) s t ∧ SameBytes s t
    reads (.srd 0x001 d) (fun v t => v = (allFlags s).setWidth 64 ∧ t.thr.ctx.stream = []) ∧
    (∀ x ∈ [((0x010 : BitVec 12), c.vbase.toNat * 64), (0x011, c.tbase.toNat * 64), (0x012, c.tstride.toNat * 64), (0x020, c.allot),
        (0x800, 0x334560), (0x805, if (s.world s.thr.world).sigCheck then 1 else 0), (0x810, c.trapCause.toNat),
        (0x811, c.trapAddr.toNat), (0x812, c.trapPc.toNat)],
      reads (.srd x.1 d) fun v t => v = BitVec.ofNat 64 x.2 ∧ t.thr.ctx.stream = c.stream) ∧
    reads (.srd (0x018 + k.setWidth 12) d) (fun v _ => v = (c.tshape[k.toNat]).setWidth 64) ∧
    reads (.srd (0x040 + q.setWidth 12) d) (fun v _ => v.toNat % 4 = mask.span.toNat ∧ v.getLsbD 2 = mask.member ∧
      v.getLsbD 3 = mask.dropping ∧ (v.extractLsb' 16 16).toNat = (memberCounts s (swKey s.thr q) q).length % 65536) ∧
    reads (.srd 0x801 d) (fun v _ => (v.extractLsb' 0 13).toNat = s.thr.place.getD 0 % 2 ^ 13 ∧
      (v.extractLsb' 16 8).toNat = s.thr.part % 2 ^ 8 ∧ (v.extractLsb' 32 16).toNat = c.domain % 2 ^ 16 ∧
      (v.extractLsb' 48 6).toNat = s.thr.world % 2 ^ 6) ∧
    reads (.srd 0x802 d) (fun v t => v = BitVec.ofNat 64 now ∧ t.thr.ctx.lastTime = now) ∧
    reads (.srd 0x803 d) (fun v t => ∃ j, j ≤ c.stream.length ∧ v = BitVec.ofNat 64 j ∧ t.thr.ctx.stream.length = j) ∧
    reads (.srd 0x804 d) (fun v _ => v = engineStatus (engineOf s.thr.cluster s)) ∧
    reads (.srd 0x806 d) (fun v _ => v.extractLsb' 0 8 = (coreRec s.thr.cluster (coreOf s.thr) s).groups ∧
      v.extractLsb' 8 8 = (coreRec s.thr.cluster (coreOf s.thr) s).stopped ∧ v.getLsbD 16 = s.curPart.dbgen) ∧
    (Completes (.swr 0x001 a) s (s.pc + 4) fun t => t.thr.ctx.stream = [] ∧
      moreReady s.thr.ctx.sq0 t.thr.ctx.sq0 ∧ moreReady s.thr.ctx.sq1 t.thr.ctx.sq1 ∧ SameBytes s t ∧
      Becomes [] ((streamOf s t).modCtx fun x => { x with xflags := (s.int a).setWidth 6 }) s t) ∧
    writes 0x010 (fun x => { x with vbase := (s.int a).extractLsb' 6 9 }) ∧
    writes 0x011 (fun x => { x with tbase := (s.int a).extractLsb' 6 9 }) ∧
    writes 0x012 (fun x => { x with tstride := (s.int a).extractLsb' 6 9 }) ∧
    writes (0x018 + k.setWidth 12) (fun x => { x with tshape := x.tshape.set k.toNat ((s.int a).setWidth 19) }) ∧
    (sysRegOk n = true → n.toNat = 0x020 ∨ 0x040 ≤ n.toNat → Traps (.swr n a) s 0x05 (n.setWidth 64))

/-- R328, R362-R371: the delivery of a fault. A class G fault calls the trap gate: the cause, the address and the place of the
fault, the saved context, a fresh frame above the window with the fault record, untagged a4-a11, empty queues. Without a gate that can
take it the thread is FAULTED with a record, out of its slot; that this is so too where the gate's entry is not live is log entry 37. A
class E fault that is no repeat waits for the partition's recovery with a record. A fault that needs a record while the fault queue is
full stays with its thread, which takes it once there is room (R367). -/
def Obligations.TrapEntry : Prop :=
  ∀ (s : State) (g : Nat) (f : FaultInfo), s.priWaits f = none →
    let w := s.thr.world
    let x := (s.world w).gate g
    let c := s.thr.ctx
    let nb := c.wbase + c.fs
    let t := s.deliverTrap f
    let k := t.thr.ctx
    let recorded := (t.world w).faultQ.length = (s.world w).faultQ.length + 1 ∧ ∃ r ∈ (t.world w).faultQ, r.code = f.code ∧ r.addr = f.addr ∧
      r.kind = 2 ∧ r.info = c.ir ∧ r.time = BitVec.ofNat 64 s.now
    (s.trapGate? = some g → State.classE f.code = false → f.code ≠ 0x38 → (f.code = 0x18 → s.faultQueueFull w = false) →
      SameBytes s t ∧ t.pc = x.code.cursor ∧ k.code = x.code ∧ k.domain = x.domain ∧
      k.trapPc = s.pc ∧ k.trapAddr = f.addr ∧ k.trapCause.extractLsb' 0 8 = f.code ∧ k.trapCause.getLsbD 15 = f.due.isSome ∧
      (k.trapCause.extractLsb' 20 5).toNat = s.depth % 32 ∧
      k.wbase = nb ∧ k.fs = x.frame * 64 ∧ k.cdepth = 0 ∧ k.stream = [] ∧ k.xflags = 0 ∧ k.pend = [] ∧ t.unbalanced = none ∧
      (∀ q, t.reg q = if q = 0 then Cap.null else if q = 1 then State.returnToken (s.depth + 1) else if q = 2 then x.frameCap
        else if q = 3 then x.root else if q.toNat < 12 then State.untag (s.reg q) else Cap.null) ∧
      leNat (t.winRead nb 8) = s.pc.toNat ∧ leNat (t.winRead (nb + 8) 4) = c.ir.toNat ∧ leNat (t.winRead (nb + 16) 8) = f.addr.toNat ∧
      leNat (t.winRead (nb + 32) 8) = s.now % 2 ^ 64 ∧
      ((t.world w).gate g).count = x.count + 1 ∧ (f.code ≠ 0x18 → (t.world w).faultQ = (s.world w).faultQ) ∧
      ∃ e r, k.dstack = e :: r ∧ r.length = c.dstack.length ∧ e.trap = true ∧ e.retpc = s.pc ∧ e.ccode = c.code ∧ e.cdom = c.domain ∧
        e.saved = c.regs ∧ e.smarks = c.regMarks ∧ e.cwbase = c.wbase ∧ e.cfs = c.fs ∧ e.ccdepth = c.cdepth ∧ e.cvbase = c.vbase ∧
        e.slq0 = c.lq0 ∧ e.slq1 = c.lq1 ∧ moreReady c.sq0 e.ssq0 ∧ moreReady c.sq1 e.ssq1 ∧ e.spend = c.pend ∧ e.schecker = c.checker ∧ e.sir = c.ir ∧
        e.frozen.foldl (fun y z => y ||| z.flags) e.cxflags = allFlags s ∧ e.deliv = f.due) ∧
    (s.faultQueueFull w = false → s.trapGate? = none → State.classE f.code = false →
      t.thr.status = .faulted ∧ outOfSlot s s.thr { t.thr with status := s.thr.status } ∧ SameBytes s t ∧ recorded) ∧
    (s.faultQueueFull w = false → f.code = 0x38 →
      t.thr.status = .faulted ∧ outOfSlot s s.thr { t.thr with status := s.thr.status } ∧ recorded) ∧
    (s.faultQueueFull w = false → State.classE f.code = true → s.isRepeat f.code = false →
      t.thr.stall = some .recovery ∧ k = c ∧ recorded ∧
      (t.part s.thr.part).errors = s.curPart.errors ++ [⟨f.code, s.thr.tid, s.pc, s.thr.cref, s.thr.member, f.save, s.stepLives⟩]) ∧
    (s.faultQueueFull w = true →
      f.code = 0x38 ∨ f.code = 0x18 ∨ (State.classE f.code = true ∧ s.isRepeat f.code = false) ∨ (State.classE f.code = false ∧ s.trapGate? = none) →
      t.thr.stall = some (.faultQueue f) ∧ t.thr.status = s.thr.status ∧ k = c ∧ SameBytes s t)

/-- R371, R95: `tret` at a trap entry with balanced queues gives back what the delivery saved, at the trapped word; `tret.skip` at the
word after it, which counts in the restored windows. The return status is the one from before the trap (log entry 61). Stream entries
come back only where their digit records are as they were written; else the thread waits for the partition's recovery (R192, R392).
Elsewhere they fault. A delivery and a `tret` right after it leave a thread that had no unfinished word as it was. -/
def Obligations.TrapReturn : Prop :=
  ∀ (s : State),
    let restored := fun (e : DomEntry) (pc : Word64) (less : Nat) (t : State) =>
      let k := t.thr.ctx
      k.code = e.ccode.setCursor pc ∧ k.regs = e.saved ∧ k.regMarks = e.smarks ∧ k.domain = e.cdom ∧ k.wbase = e.cwbase ∧
      k.fs = e.cfs ∧ k.cdepth = e.ccdepth ∧ k.vbase = e.cvbase ∧ k.tbase = e.ctbase ∧ k.tstride = e.ctstride ∧ k.lastStatus = e.clast ∧
      k.lq0 = e.slq0 ∧ k.lq1 = e.slq1 ∧ k.sq0 = e.ssq0 ∧ k.sq1 = e.ssq1 ∧ k.stream = e.frozen.map State.thaw ∧ k.xflags = e.cxflags ∧
      k.pend = e.spend.map (fun p => { p with left := p.left - less }) ∧ SameBytes s t
    (∀ e r, s.thr.ctx.dstack = e :: r → s.unbalanced = none → e.trap = true → State.digitsOk e.frozen = false →
      Happens .tret s fun t => t.thr.stall = some .recovery ∧ t.thr.ctx = s.thr.ctx ∧ SameBytes s t ∧
        (t.part s.thr.part).errors = s.curPart.errors ++ [⟨0, s.thr.tid, s.pc, s.thr.cref, s.thr.member, true, s.stepLives⟩]) ∧
    (∀ e r, s.thr.ctx.dstack = e :: r → s.unbalanced = none → e.trap = true → State.digitsOk e.frozen = true →
      (Happens .tret s fun t => restored e e.retpc 0 t ∧ t.thr.ctx.checker = e.schecker ∧ t.thr.ctx.dstack.length = r.length) ∧
      (Happens .tretSkip s fun t => restored e (e.retpc + 4) 1 t ∧ t.thr.ctx.dstack.length = r.length)) ∧
    (∀ q, s.unbalanced = some q → Traps .tret s 0x02 (BitVec.ofNat 64 q) ∧ Traps .tretSkip s 0x02 (BitVec.ofNat 64 q)) ∧
    (s.unbalanced = none → (∀ e r, s.thr.ctx.dstack = e :: r → e.trap = false) → Traps .tret s 0x05 0 ∧ Traps .tretSkip s 0x05 0) ∧
    ∀ g f, s.thr.ctx.stream = [] → f.due = none →
      Happens .tret (s.enterTrap g f) fun t =>
        let k := t.thr.ctx
        let c := s.thr.ctx
        k.code = c.code ∧ k.regs = c.regs ∧ k.regMarks = c.regMarks ∧ k.domain = c.domain ∧ k.wbase = c.wbase ∧ k.fs = c.fs ∧
        k.cdepth = c.cdepth ∧ k.wstack = c.wstack ∧ k.xflags = c.xflags ∧ k.stream = [] ∧ k.pend = c.pend ∧ k.lq0 = c.lq0 ∧
        k.sq0 = c.sq0 ∧ k.checker = c.checker ∧ k.dstack.length = c.dstack.length ∧
        ∀ y, y < c.wbase + c.fs → Cells.get k.win y = Cells.get c.win y

/-- R372-R374: `ctxst` writes the image of a continuation that stands still with no work of its own left, its header and the enciphered
bytes under its tag, to all its 65,536 bytes where their homes take them, frees the continuation and makes its ticket live, with what a
parked thread waits for; `ctxld` makes of a genuine image with a live ticket a continuation of the caller's
partition, of the image's status, once, or the two members of a redundant pair on two clusters (R388). An error of the image's memory or
of its digit records goes to the recovery of save areas (R392, log entry 74), and an image that is not genuine is 0x18. The model's own
are the value of the reference (log entry 10), the spill area (log entry 11), what counts as genuine and the enciphered bytes (log
entry 13) and the cluster of the second member of a pair (log entry 25). -/
def Obligations.ContextImages : Prop :=
  ∀ (a d : RegNum) (s u : State) (ps : List (Nat × Nat)) (h : Thread),
    let c := s.reg a
    let w := s.thr.world
    (s.checkCap s.who c c.cursor 65536 needWrite12 (a.setWidth 64) = .ok () → c.cursor.toNat % 64 = 0 →
      State.translatePieces s s.who c.space needWrite12 (piecesAt (pageStep c.space) c.addr 65536) = .ok (ps, u) →
      imageTarget (s.int d) s = some h → targetStill h s = true → workDone h.tid s = true →
      s.thr.status ≠ .vacant → h.tid ≠ s.thr.tid → (∀ g ∈ s.rest, g.tid = h.tid → g = h) →
      Completes (.ctxst a d) s (s.pc + 4) fun v =>
        let ticket := (s.world w).nextTicket
        (v.world w).nextTicket = ticket + 1 ∧ (∀ g ∈ v.rest, g.tid ≠ h.tid) ∧ (∀ g ∈ s.rest, g.cref ≠ h.cref → g ∈ v.rest) ∧
        (∃ g, NMap.get? (v.world w).images ticket = some g ∧ g.captured = false ∧
          g.status = (if h.status = .running then (if waitsToPark h then .waiting else .ready) else h.status) ∧
          g.stall = (if waitsToPark h ∨ waitsEject h ∨ faultPending h then h.stall else none) ∧
          outOfSlot s h { g with status := h.status, captured := h.captured, stall := h.stall }) ∧
        (piecesApart ps → (∀ x, inPieces ps x → takesStore u s.req x) →
          v.readPieces ps = imageBytes (imageHeader w h.baseDomain ticket (s.world w).keyEpoch.toNat s.now) ticket) ∧
        (∀ x, ¬ inPieces ps x → v.byteAt x = s.byteAt x) ∧ ∀ r, v.reg r = s.reg r) ∧
    (∀ k, s.checkCap s.who c c.cursor 65536 needRead12 (a.setWidth 64) = .ok () → c.cursor.toNat % 64 = 0 →
      State.translatePieces s s.who c.space needRead12 (piecesAt (pageStep c.space) c.addr 65536) = .ok (ps, u) →
      (∀ x n, u.piecesFault u.req c.cursor.toNat ps = some (x, n) →
        exec (.ctxld a d) s = .next (s.clearStall.deliverTrap
          { plainFault 0x40 (BitVec.ofNat 64 n) with save := true, event := u.portEvent u.req ps })) ∧
      (u.piecesFault u.req c.cursor.toNat ps = none →
      let bs := u.readPieces ps
      let ticket := cardNat bs 8 8
      (imageGenuine w bs = false ∨ epochLive (u.world w) (cardNat bs 16 1) = false → Traps (.ctxld a d) s 0x18 c.cursor) ∧
      (imageGenuine w bs = true → epochLive (u.world w) (cardNat bs 16 1) = true →
      (NMap.get? (u.world w).images ticket = none → Traps (.ctxld a d) s 0x06 c.cursor) ∧
      (NMap.get? (u.world w).images ticket = some h → h.baseDomain = s.thr.ctx.domain → placeImage s.thr.part h u = some k →
        let joined := fun (id : Nat) (g : Thread) => g.ctx = { h.ctx with spill := Config.spillBase id } ∧ g.status = h.status ∧
            g.stall = h.stall ∧ (g.wait.isSome = h.wait.isSome) ∧ g.cref = BitVec.ofNat 64 s.nextId ∧ g.part = s.thr.part ∧
            g.place = none
        let made := fun p : State → Prop => Completes (.ctxld a d) s (s.pc + 4) fun v =>
          v.reg d = written d (Cap.ofInt (State.nameBits (BitVec.ofNat 64 s.nextId).toNat)) ∧ SameBytes s v ∧
          NMap.get? (v.world w).images ticket = none ∧ p v
        (h.paired = false → threadDigitsOk h = true → mayCreate u →
          made fun v => ∃ g, v.rest = s.rest ++ [g] ∧ joined s.nextId g ∧ g.cluster = k) ∧
        (∀ k', h.paired = true → pairCluster s.thr.part h.level h.cls k u = some k' → threadDigitsOk h = true → mayCreate u →
          made fun v => ∃ g g', v.rest = s.rest ++ [g, g'] ∧ joined s.nextId g ∧ joined (s.nextId + 1) g' ∧ g.cluster = k ∧ g'.cluster = k' ∧
            g.member = 0 ∧ g'.member = 1) ∧
        (h.paired = false → threadDigitsOk h = false → exec (.ctxld a d) s =
          .next (s.clearStall.deliverTrap { plainFault 0x40 c.cursor with save := true }))))))

/-- R375: `engrd` reads the control word, the status, and the card, bitmap and META of an entry; `engwr` writes the control word,
and the entries of a stopped engine; a META with STATE 000 frees its entry, and another gives the entry its state and the sectors
that have landed, which BMAP shows. A card's word never puts a tag over bits that carry none (R80). That `engwr` of word 1 is 0x05 is
log entry 43. Every `engwr` ends the step's restartability (R385). -/
def Obligations.EngineWords : Prop :=
  ∀ (n : BitVec 11) (a d : RegNum) (s : State),
    let c := s.reg a
    let cl := curCluster c.cursor
    let e := engineOf cl s
    let i := (n.toNat - 8) / 24
    let j := (n.toNat - 8) % 24
    let writes := fun (p : State → Prop) => Completes (.engwr n a d) s (s.pc + 4) fun t => p t ∧ (t.part s.thr.part).restartable = false ∧
      (∀ k, k ≠ cl → t.cluster k = s.cluster k) ∧ SameBytes s t ∧ Becomes [] { s with clusters := t.clusters, parts := t.parts } s t
    (checkSlotCap c ⟨1, true, false, false⟩ a s = .ok () →
      (n = 0 → Gives (.engrd n a d) s d (Cap.ofInt ((if e.stop then 1 else 0) + (if e.stopped then 2 else 0)))) ∧
      (n = 1 → Gives (.engrd n a d) s d (Cap.ofInt (engineStatus e))) ∧
      (2 ≤ n.toNat → n.toNat < 8 → Gives (.engrd n a d) s d (Cap.ofInt 0)) ∧
      (8 ≤ n.toNat → n.toNat < 1544 → ∀ x, NMap.get? e.entries i = some x → Gives (.engrd n a d) s d (Cap.ofInt (
        if j < 22 then BitVec.ofNat 64 (cardNat x.card (8 * j) 8) else if j = 22 then x.bmap else metaOf i x))) ∧
      (8 ≤ n.toNat → n.toNat < 1544 → NMap.get? e.entries i = none → Gives (.engrd n a d) s d (Cap.ofInt 0)) ∧
      (1544 ≤ n.toNat → Traps (.engrd n a d) s 0x05 (a.setWidth 64))) ∧
    (checkSlotCap c ⟨1, false, true, false⟩ a s = .ok () →
      (n = 0 → writes fun t => (engineOf cl t).stop = (s.int d).getLsbD 0 ∧
        (engineOf cl t).stopped = ((s.int d).getLsbD 0 && e.stopped) ∧ (engineOf cl t).entries = e.entries) ∧
      (8 ≤ n.toNat → n.toNat < 1544 → e.stopped = true → writes fun t =>
        (∀ k, k ≠ i → jobAt cl k t = jobAt cl k s) ∧
        (j < 22 → ∀ x, jobAt cl i s = some x →
          let card := patchCard x.card (8 * j) (s.int d)
          let tag := fun off : Nat => tagAllowed (cardCap card off true)
          jobAt cl i t = some { x with
            card, srcTag := x.srcTag && tag 0, dstTag := x.dstTag && tag 16, ccapTag := x.ccapTag && tag 128 }) ∧
        (j = 22 → ∀ x, jobAt cl i s = some x → jobAt cl i t = some { x with
          bmap := s.int d, landed := if s.int d = x.bmap then x.landed else bmapLanded (s.int d) x.part x.landed.length s }) ∧
        (j = 23 → (s.int d).toNat % 8 = 0 → jobAt cl i t = none) ∧
        (j = 23 → (s.int d).toNat % 8 ≠ 0 → ∀ x, jobAt cl i s = some x → ∃ y, jobAt cl i t = some y ∧ y.state = metaState (s.int d) ∧
          y.fault = (s.int d).extractLsb' 8 8 ∧ y.landed = bmapLanded x.bmap x.part ((s.int d).toNat / 2 ^ 24) s ∧ y.card = x.card ∧ y.bmap = x.bmap)) ∧
      (2 ≤ n.toNat → n.toNat < 8 → writes fun t => t.clusters = s.clusters) ∧
      (8 ≤ n.toNat → n.toNat < 1544 → e.stopped = false → Traps (.engwr n a d) s 0x05 (a.setWidth 64)) ∧
      (n = 1 ∨ 1544 ≤ n.toNat → Traps (.engwr n a d) s 0x05 (a.setWidth 64)))

/-- R74, R75, R93, R380, R381: hint words change nothing but the program counter, and no window counts them; where the checker is
off `sig` is a hint; where it is on it opens a block. A word that is no instruction traps with 0x01. -/
def Obligations.HintsAndIllegalWords : Prop :=
  ∀ (p : BitVec 26) (crc : BitVec 20) (len : BitVec 6) (s : State),
    let quiet := fun t : State => t.pc = s.pc + 4 ∧ t.thr.ctx.pend = s.thr.ctx.pend ∧ t.thr.ctx.regs = s.thr.ctx.regs ∧
      t.thr.ctx.regMarks = s.thr.ctx.regMarks ∧ t.thr.stall = s.thr.stall ∧ Agrees s t ∧ SameBytes s t
    Happens .nop s quiet ∧ Happens (.hint p) s quiet ∧
    ((s.world s.thr.world).sigCheck = false → Happens (.sig crc len) s quiet) ∧
    ((s.world s.thr.world).sigCheck = true → (len = 0 → crc = 0xFFFFF) → Happens (.sig crc len) s fun t => quiet t ∧
      let k := t.thr.ctx.checker
      k.inBlock = true ∧ k.want = crc ∧ k.left = len.toNat ∧ k.crc = 0xFFFFF ∧ k.sigPc = s.pc ∧ k.landed = false) ∧
    Traps .illegalInstruction s 0x01 0

/-! ## The machine -/

/-- R28-R75, R380: every word of a well-formed instruction decodes to that instruction, and whatever decodes is well formed. -/
def Obligations.EncodingRoundTrip : Prop :=
  (∀ i : Instr, i.isWord = true → i.wf = true → decodeWord (encode i) = .ok i) ∧
  ∀ (w : Word32) (i : Instr), decodeWord w = .ok i → i.isWord = true ∧ i.wf = true

/-- R28-R75: words written out from the encoding tables, one of every major, and words that are no instruction. -/
def Obligations.DecodeSamples : Prop :=
  decodeWord 0x30062901 = .ok (.add 3 6 5 4) ∧ decodeWord 0x9C402102 = .ok (.addi (-3192) 4 4) ∧
  decodeWord 0x00000903 = .ok (.ahi 1 4) ∧ decodeWord 0x30804904 = .ok (.cpget 3 9 4) ∧
  decodeWord 0xFFE10105 = .ok (.bne (-4) 0 4) ∧ decodeWord 0x00210008 = .ok (.enter 4 1) ∧
  decodeWord 0x13624950 = .ok (.ld 0 1 3 3 2 9 5) ∧ decodeWord 0x20E14951 = .ok (.st 0 2 7 1 9 5) ∧
  decodeWord 0x01244331 = .ok (.mmaNew 1 2 1 0 12) ∧ decodeWord 0x810521E4 = .ok (.fcmpLt true false .f32 5 4 7) ∧
  decodeWord 0x02202937 = .ok (.sysc 17 5 4) ∧ decodeWord 0x0020003A = .ok .tretSkip ∧
  decodeWord 0x00001806 = .ok (.jmp 3) ∧ decodeWord 0x00400807 = .ok (.ret 1) ∧ decodeWord 0xA0473112 = .ok (.mredMaxFloat 0 2 7 6 4) ∧
  decodeWord 0x10662013 = .ok (.pref 1 3 6 4) ∧ decodeWord 0x02003114 = .ok (.pgalloc 2 0 6 4) ∧
  decodeWord 0x02A73118 = .ok (.ctadd 2 1 1 7 6 4) ∧ decodeWord 0x00A73019 = .ok (.ctwait 1 1 7 6) ∧
  decodeWord 0x0540191A = .ok (.ctread 5 2 2 3 4) ∧ decodeWord 0x00C0201B = .ok (.ctarr 1 4) ∧ decodeWord 0x0000601C = .ok (.cpyj 12) ∧
  decodeWord 0x080208E0 = .ok (.vadd .i32 2 1 3) ∧ decodeWord 0x200208E1 = .ok (.fadd 2 .f32 2 1 3) ∧
  decodeWord 0x20A418A2 = .ok (.ffma 1 .f32 5 4 3 2) ∧ decodeWord 0x100208E3 = .ok (.fdiv 1 .f32 2 1 3) ∧
  decodeWord 0x046808A5 = .ok (.vslide .i8 8 1 2) ∧ decodeWord 0x00040926 = .ok (.fcvtFromFc 0 .f32 .e2m1 1 4) ∧
  decodeWord 0x0A001827 = .ok (.vredAdd .i64 3 0) ∧ decodeWord 0x08221968 = .ok (.xext .i32 2 3 5) ∧
  decodeWord 0x123441E9 = .ok (.xliHi 0x1234 7) ∧ decodeWord 0x0006292A = .ok (.xview 6 5 4) ∧ decodeWord 0x00083830 = .ok (.mfmt 8 7) ∧
  decodeWord 0x008AD532 = .ok (.mmarAcc 5 3 2 20) ∧ decodeWord 0x000360B3 = .ok (.aread .f32 3 12 2) ∧
  decodeWord 0x00006034 = .ok (.arel 12) ∧ decodeWord 0x02004936 = .ok (.spawn 2 9 4) ∧ decodeWord 0x00006038 = .ok (.gcall 12) ∧
  decodeWord 0x00212839 = .ok (.grevokeEject 5) ∧ decodeWord 0x0102493B = .ok (.engrd 8 9 4) ∧ decodeWord 0x00A0003C = .ok (.dbgstop 5) ∧
  decodeWord 0x0000017E = .ok (.hint 5) ∧ decodeWord 0x9018807F = .ok (.sig 0x90188 1) ∧
  (∀ w ∈ [(0xB0000812 : Word32), 0x00800812, 0xFFFFFFFF, 0x00000000], ∀ i, decodeWord w ≠ .ok i)

/-- R48, R49, R127, R364, R381: with no input and one thread that may issue, a step fetches the word at that thread's program
counter, decodes it and runs it, and then time passes; a word that does not decode is the illegal instruction. A hint word
meets no fault (R74). At any other word deferred faults that are due, the signature checker and a tile still to be written come first; `gcall`, `gret` and `step` end the open windows
before that (R93). A thread whose fault waits for its queue has that fault delivered before it fetches a word (R361, R367). -/
def Obligations.StepRunsDecoded : Prop :=
  ∀ (s u : State) (k : Nat) (w : Word32), s.inputs = [] → actions s = [.word k] →
    (∀ f, (s.focus k).thr.stall = some (.faultQueue f) → step s = andPass (.next ((s.focus k).clearStall.deliverTrap f))) ∧
    ((∀ f, (s.focus k).thr.stall ≠ some (.faultQueue f)) → fetch (s.focus k) = .ok (w, u) →
    u.thr.ctx.ir = w ∧ u.pc = (s.focus k).pc ∧
    (∀ i, (i = .nop ∨ ∃ p, i = .hint p) → decodeWord w = .ok i → step s = andPass (exec i u)) ∧
    (∀ e, decodeWord w = .error e → step s = andPass (exec .illegalInstruction u)) ∧
    ∀ i, decodeWord w = .ok i →
      let v := if endsWindows i = true then u.landAll else u
      (endsWindows i = true → u.resultPending = false) →
      (((∃ p, i = .hint p) ∨ (∃ c l, i = .sig c l) ∨ i = .nop ∨ firstDue (dueAt i v) = none) → checkerVerdict i v = .ok () →
        (areadPending u.thr u = true → usesWindow i = false) → step s = andPass (exec i v)) ∧
      ∀ f, wordVerdict i v = .error (.fault f) → step s = andPass (.next (v.clearStall.deliverTrap f)))

/-- R408, R334, R335, R310, R148: the machine right after reset: bring-up has completed no stage, no die is latched, every key slot is
empty, every domain is free, no partition is active, no continuation, launch or log exists, nothing is listed in memory, which is in
canonical form. The spec gives no value for the time and the go bit (log entry 31) and for what memory holds (log entry 3). -/
def Obligations.ResetState : Prop :=
  let s := State.reset
  s.hub.stage = 0 ∧ s.hub.failed = false ∧ (∀ d : Fin 8, s.hub.dlatch[d].latched = false) ∧
  (∀ w, (s.world w).keyState = .empty ∧ ∀ d, ((s.world w).dom d).state = .free) ∧ (∀ p, (s.part p).phase ≠ .active) ∧
  s.threads = [] ∧ s.launches = [] ∧ s.sheaf = [] ∧ s.hub.repairList = [] ∧ s.hub.turnBusy = false ∧ s.hub.attGo = false ∧
  s.mem = [] ∧ Memory.wf s.mem = true ∧ s.tags = [] ∧ s.ctrLines = [] ∧ s.poison = [] ∧ s.now = 0

/-- The model's own form of memory (addresses strictly rising, no zero byte listed) is kept by every step, whatever the state; with
`ResetState` it holds in every run. -/
def Obligations.MemoryStaysCanonical : Prop :=
  ∀ s t : State, Memory.wf s.mem = true → step s = .next t → Memory.wf t.mem = true

/-! ## The host's side -/

/-- R256, R257, R259, R273-R281, R334, R337, R338, R404: what the dispatcher does with a record of the command window, its go word cleared first: an add and a
wait of a host counter record with their replies, a record of unknown type, a launch that is refused, held or performed, its roots
up to the world's limit (R286); replies and completion records as one write; host accesses, with the data of a read of shared memory. A
wait on a line that no path reaches is entered, and its limit runs (R260); the value that its reply shows then is free below the threshold
(log entry 6, use 5). A met wait is answered in its place of the line's list. Log entries settle that a line that cannot be read has status
4 (26), that a launch goes on where its start counter refuses the add (51), and (57) that the slots and the records of the command window
are the world's: a store to a slot of a world without keys is refused and changes nothing, a go store over a record that does not open is
logged, and a record that another key has sealed is not read. Launches of redundant pairs are left out. -/
def Obligations.HostRecords : Prop :=
  ∀ (slot : Nat) (s t : State) (bs : List Byte), slot < 4096 →
    let w := slotWorld slot t
    let p := slotPartition slot t
    let value := cardNat bs 16 8
    let limit := cardNat bs 24 8
    let reply := cardNat bs 32 8
    let replied := fun (at_ v status : Nat) (u : State) =>
      u.readMem (completionPa (at_ / 16)) 16 = toLe 8 v ++ toLe 1 status ++ toLe 7 0
    (∀ ok, takeRecord slot ok s = some (bs, t) → slotBusy slot t = false ∧ (⟨slot, bs⟩ : HeldRecord) ∈ s.hub.goPending ∧
      (⟨slot, bs⟩ : HeldRecord) ∉ t.hub.goPending) ∧
    (takeRecord slot (· == 2) s = some (bs, t) → recordAnswers homeAnswers slot bs t = true →
      (∀ st, recordLine w bs t = .inr st → Happens (.counterRecordAdd slot) s (replied reply 0 st)) ∧
      ∀ pa, recordLine w bs t = .inl pa → pa % 64 = 0 → pa < 5 * regionSize →
        let old := t.readNat pa 8
        (old + value < 2 ^ 64 → Happens (.counterRecordAdd slot) s fun u => u.readNat pa 8 = old + value ∧ replied reply old 0 u) ∧
        (2 ^ 64 ≤ old + value → Happens (.counterRecordAdd slot) s fun u => u.readNat pa 8 = old ∧ replied reply old 2 u)) ∧
    (takeRecord slot (· == 3) s = some (bs, t) → recordAnswers waitAnswers slot bs t = true →
      (NMap.get? (t.world w).ctrHandles (cardNat bs 8 8) = none → Happens (.counterRecordWait slot) s (replied reply 0 3)) ∧
      ∀ x, NMap.get? (t.world w).ctrHandles (cardNat bs 8 8) = some x →
        (t.pathReaches x.pa = true → recordLine w bs t = .inr 4 → Happens (.counterRecordWait slot) s (replied reply 0 4)) ∧
        (t.pathReaches x.pa = true → recordLine w bs t = .inl x.pa → value ≤ t.readNat x.pa 8 →
          Happens (.counterRecordWait slot) s (replied reply (t.readNat x.pa 8) 0)) ∧
        (t.pathReaches x.pa = false ∨ (recordLine w bs t = .inl x.pa ∧ t.readNat x.pa 8 < value) →
          Happens (.counterRecordWait slot) s fun u => SameBytes t u ∧ u.hostWaits = t.hostWaits ++
            [⟨t.nextId, x.pa, BitVec.ofNat 64 value, if limit = 0 then none else some (t.now + limit), reply, w, .held⟩])) ∧
    (takeRecord slot (fun n => n != 1 && n != 2 && n != 3) s = some (bs, t) →
      Happens (.invalidRecordType slot) s fun u => u.hub.log = t.hub.log ++ [.unknownType slot] ∧ SameBytes t u) ∧
    (takeRecord slot (· == 1) s = some (bs, t) →
      let r := launchReq slot bs
      (matrixRuns p t = false → Happens (.launchRecord slot) s fun u =>
        u.hub.held = t.hub.held ++ [⟨slot, bs⟩] ∧ u.threads = t.threads ∧ SameBytes t u) ∧
      (∀ f, matrixRuns p t = true → checkLaunch w p r t = .error (.hold f) → Happens (.launchRecord slot) s fun u =>
        u = State.heldBy f (t.modHub fun h => { h with held := h.held ++ [⟨slot, bs⟩] })) ∧
      (∀ st, matrixRuns p t = true → checkLaunch w p r t = .ok (.inl st) → Happens (.launchRecord slot) s fun u =>
        u.readMem (completionPa r.cpos) 16 = completionBytes r.go (BitVec.ofNat 8 st) 0 t.now ∧ u.threads = t.threads) ∧
      (∀ q, matrixRuns p t = true → checkLaunch w p r t = .ok (.inr q) → r.paired = false →
        let room := (q.state.world w).contLimit - contClaims w q.state
        let starts := r.n ≤ room ∧ homeAnswers q.startPa q.state = true
        Happens (.launchRecord slot) s fun u =>
          (∃ l ∈ u.launches, l.id = q.state.nextId ∧ l.go = r.go ∧ l.world = w ∧ l.part = p ∧ l.target = r.target ∧ l.cpos = r.cpos ∧
            l.donePa = q.donePa ∧ l.status = none ∧ l.todo.length = r.n - room ∧ (l.started = true ↔ starts)) ∧
          (starts → ctrRefusal ⟨w, none⟩ q.startPa q.state = none → q.startPa % 64 = 0 → q.state.readNat q.startPa 8 + r.n < 2 ^ 64 →
            u.readNat q.startPa 8 = q.state.readNat q.startPa 8 + r.n) ∧
          u.rest.length = q.state.rest.length + min r.n room ∧
          ∀ h ∈ u.rest.drop q.state.rest.length, h.status = .ready ∧ h.world = w ∧ h.part = p ∧ h.launch = some q.state.nextId ∧
            h.ctx.domain = q.prog.domain ∧ h.ctx.dgen = ((q.state.world w).dom q.prog.domain).gen ∧ h.ctx.allot = r.allot ∧ h.cluster ∈ q.clusters ∧
            h.ctx.code = q.prog.code.setCursor (entryAddr q.prog.code r.entry))) ∧
    (∀ id x, (s.hostWaits.find? fun y => y.id == id) = some x →
      let v := s.readNat x.pa 8
      let gone := fun u : State => u.hostWaits = s.hostWaits.filter fun y => y.id != id
      let here := x.verdict = .held ∧ s.pathReaches x.pa = true
      let refused := ctrRefusal ⟨x.world, none⟩ x.pa s
      let turn := lineBefore x.pa (hostKey x) s = false
      (∀ y, x.verdict = .met y → turn → Happens (.hostWaitReply id) s fun u => replied x.reply y.toNat 0 u ∧ gone u) ∧
      ((∃ y, x.verdict = .broken y) ∨ (here ∧ refused.isSome = true) →
        Happens (.hostWaitReply id) s fun u => replied x.reply 0 4 u ∧ gone u) ∧
      (here → refused = none → x.thr.toNat ≤ v → turn → Happens (.hostWaitReply id) s fun u => replied x.reply v 0 u ∧ gone u) ∧
      (∀ l, here → refused = none → v < x.thr.toNat → x.limit = some l → l ≤ s.now →
        Happens (.hostWaitReply id) s fun u => replied x.reply v 1 u ∧ gone u) ∧
      (∀ y, x.verdict = .expired y → Happens (.hostWaitReply id) s fun u => replied x.reply y.toNat 1 u ∧ gone u) ∧
      (∀ l, x.verdict = .held → s.pathReaches x.pa = false → x.thr ≠ 0 → x.limit = some l → l ≤ s.now →
        Happens (.hostWaitReply id) s fun u => (∃ y, y < x.thr.toNat ∧ replied x.reply y 1 u) ∧ gone u)) ∧
    (∀ id l st, (s.launches.find? fun y => y.id == id) = some l →
      (∀ c ∈ s.clusters, c.1 < 64 ∧ ∀ y ∈ c.2.allocs, y.unit + y.count ≤ 256) →
      (l.written = false → launchStatus l s = some st → Happens (.completionRecord id) s fun u =>
        u.readMem (completionPa l.cpos) 16 = completionBytes l.go st l.firstExit s.now ∧
        (launchOver l s = true → ∀ y ∈ u.launches, y.id ≠ id) ∧
        (launchOver l s = false → ∀ y ∈ u.launches, y.id = id → y.written = true)) ∧
      (l.written = true → launchOver l s = true → Happens (.completionRecord id) s fun u =>
        (∀ y ∈ u.launches, y.id ≠ id) ∧ ∀ c, ∀ y ∈ (u.cluster c).allocs, y.launch ≠ id)) ∧
    (∀ o n d, Happens (.hostMemoryAccess ⟨.ownMemory, o, n, some d⟩) s fun u => u.readMem (paHost o) d.length = d ∧
      ∀ x, x < paHost o ∨ paHost o + d.length ≤ x → u.byteAt x = s.byteAt x) ∧
    (∀ o n, Happens (.hostMemoryAccess ⟨.ownMemory, o, n, none⟩) s (· = s)) ∧
    (∀ o n d, s.hub.stage < 7 → Happens (.hostMemoryAccess ⟨.hdm, o, n, d⟩) s (· = s)) ∧
    (∀ o n, ¬ s.hub.stage < 7 → sharedBase ≤ o → 0 < n → o % 64 + n ≤ 64 → hostHeld ⟨.hdm, o, n, none⟩ s = false →
      (sharedFrame o s = none → Happens (.hostMemoryAccess ⟨.hdm, o, n, none⟩) s fun u => SameBytes s u ∧
        u.hub.hostReply = some (List.replicate n 0) ∧ u.hub.log = s.hub.log ++ [.unbackedHost o]) ∧
      (∀ v frame, sharedFrame o s = some (v, frame) → Happens (.hostMemoryAccess ⟨.hdm, o, n, none⟩) s fun u => SameBytes s u ∧
        u.hub.log = s.hub.log ∧ u.hub.hostReply =
          if (s.readFault ⟨v, none⟩ (paDevice (frame + o % 2 ^ 16)) n).isNone then some (s.readMem (paDevice (frame + o % 2 ^ 16)) n)
          else none)) ∧
    (∀ n, ¬ s.hub.stage < 7 → bs.length = 64 → slotOpen slot s = false →
      Happens (.hostMemoryAccess ⟨.hdm, slot * 64, n, some bs⟩) s (· = s)) ∧
    (∀ n q, ¬ s.hub.stage < 7 → bs.length = 64 → (bs[56]?.getD 0).getLsbD 0 = true → slotBusy slot s = false →
      NMap.get? s.hub.slotPart slot = some q → slotOpen slot s = true →
      Happens (.hostMemoryAccess ⟨.hdm, slot * 64, n, some bs⟩) s fun u => u.hub.goPending = s.hub.goPending ++ [⟨slot, bs⟩] ∧
        slotBusy slot u = true) ∧
    (∀ n q, ¬ s.hub.stage < 7 → bs.length = 8 → (bs[0]?.getD 0).getLsbD 0 = true → slotBusy slot s = false →
      NMap.get? s.hub.slotPart slot = some q → slotOpen slot s = true → slotOpens slot s = false →
      Happens (.hostMemoryAccess ⟨.hdm, slot * 64 + 56, n, some bs⟩) s fun u => u.hub.goPending = s.hub.goPending ∧
        u.hub.log = s.hub.log ++ [.unreadRecord slot] ∧ slotBusy slot u = false) ∧
    ∀ n z, n < 65536 → ¬ s.hub.stage < 7 → NMap.get? s.hub.compWorld n = some z → s.keyAt z.world (completionPa n) ≠ some z.key →
      Happens (.hostMemoryAccess ⟨.hdm, 2 ^ 18 + n * 16, 16, none⟩) s fun u => SameBytes s u ∧ u.hub.hostReply = none

/-! ## Threads between their words -/

/-- R20, R186, R191, R93, R94, R256-R258, R288, R390, R407: a wait that its home has met, or whose limit has passed, ends at the next word
with the value that the home read, unless a record-mode log has other arrivals first (R393); a wait on a line that is no counter line any
more faults 0x21 at the word, one on a line of a peer that compares another generation 0x06, and a parked thread
becomes READY for that; one on a line that cannot be read completes with a deferred fault; a wait of 4 µs that is not met parks; ended
windows write, the later lookahead word last; the oldest stream entry completes, and what it pushed on a store queue is there; the system
call of the lowest ticket is answered. Log
entries settle that a parked waiter becomes READY for its 0x21 and that a home's decision stays (51), that a thread goes on past a
refusal that stays deferred (38), and that the ring's free counter passes over the tickets of killed threads (71). -/
def Obligations.WaitsAndReplies : Prop :=
  ∀ (k : Nat) (s : State), let u := s.focus k; let h := u.thr; h.tid = k →
    let woken := if h.status = .waiting then .ready else h.status
    let ended := fun (w : WaitReq) (v : Word64) (t : State) =>
      t.thr.wait = none ∧ t.pc = u.pc + 4 ∧ SameBytes u t ∧ t.thr.status = woken ∧
      (∀ d, w.dest = some d → t.reg d = written d (Cap.ofInt v)) ∧ ∀ r, (∀ d, w.dest = some d → r ≠ d) → t.reg r = u.reg r
    (∀ w, h.wait = some w →
      (w.verdict = .held → genRefused w u = true → waitVerdict h w u = .broken 0x06) ∧
      (genRefused w u = true ↔ ∃ pa g, w.ctr = .mem pa ∧ w.gen = some g ∧ u.peerGenOk (pa - 4 * regionSize) g = false) ∧
      (∀ pa, w.verdict = .held → w.ctr = .mem pa → u.pathReaches pa = true → genRefused w u = false →
        waitVerdict h w u = match ctrRefusal ⟨h.world, some h.cluster⟩ pa u with
          | some c => .broken c
          | none => if w.thr.toNat ≤ u.readNat pa 8 then .met (BitVec.ofNat 64 (u.readNat pa 8)) else .held) ∧
      (coreHalted h u = false → h.captured = false →
        (∀ v, waitVerdict h w u = .met v → waitHeld h w v = false → firstMet h u = true → Happens (.waiterWake k) s (ended w v)) ∧
        (∀ c, waitVerdict h w u = .broken c → c = 0x21 ∨ c = 0x06 →
          (h.status = .waiting → Happens (.waiterWake k) s fun t =>
            t.thr.status = .ready ∧ t.pc = u.pc ∧ t.thr.wait = some w ∧ SameBytes u t) ∧
          (h.status ≠ .waiting → inSlot h u = true → Happens (.waiterWake k) s
            (· = (u.modThr fun x => { x with wait := none }).deliverTrap (plainFault c w.cursor)))) ∧
        (∀ c, waitVerdict h w u = .broken c → c ≠ 0x21 → c ≠ 0x06 → h.status = .waiting ∨ inSlot h u = true → Happens (.waiterWake k) s fun t =>
          t.thr.wait = none ∧ t.pc = u.pc + 4 ∧ SameBytes u t ∧ t.thr.status = woken ∧ (∀ r, t.reg r = u.reg r) ∧
          ∃ f : Deferred, f.code = c ∧ f.orig = u.pc ∧
            if w.dest.all (· == 0) then f ∈ t.thr.ctx.late else ∃ d, w.dest = some d ∧ NMap.get? t.thr.ctx.regMarks d.toNat = some f) ∧
        (∀ l, waitVerdict h w u = .held → waitHeld h w (expiryValue h w u) = false → w.limit = some l → l ≤ u.now →
          Happens (.waitLimitExpiry k) s (ended w (expiryValue h w u))) ∧
        (∀ v, waitVerdict h w u = .expired v → waitHeld h w v = false → Happens (.waitLimitExpiry k) s (ended w v)))) ∧
    (∀ g, s.thread? k = some g → inSlot g s = true → stillWaits g s = true → waitStart g + 4000 ≤ s.now →
      Happens (.park k) s fun t => SameBytes s t ∧
        ∃ y, t.thread? k = some y ∧ y.status = .waiting ∧ y.place = none ∧ outOfSlot s g { y with status := g.status }) ∧
    (∀ i p v, inSlot h u = true → p.mark = none → p.val = some v →
      ((State.splitDue [] h.ctx.pend).1 = i ++ [p] → Happens (.lookaheadWrite k) s fun t => t.reg p.reg = written p.reg v ∧ t.pc = u.pc ∧
        SameBytes u t ∧ t.thr.ctx.pend = (State.splitDue [] h.ctx.pend).2) ∧
      ((∀ x ∈ h.ctx.pend, x.cmd = none) → h.ctx.pend.filter (fun x => x.left = 0) = i ++ [p] →
        Happens (.lookaheadWrite k) s fun t => t.reg p.reg = written p.reg v ∧ t.thr.ctx.pend = h.ctx.pend.filter fun x => x.left ≠ 0)) ∧
    (∀ e r, inSlot h u = true → h.ctx.stream = e :: r → Happens (.streamEntryComplete k) s fun t =>
      let came := fun (n : Nat) (l l' : List QEntry) => if e.dkind.toNat = n then
          (∀ i (x : QEntry) j, l = i ++ x :: j → x.ready = false → (∀ y ∈ i, y.ready = true) → l' = i ++ { x with ready := true } :: j) ∧
          ((∀ y ∈ l, y.ready = true) → l' = l)
        else l' = l
      came 2 h.ctx.sq0 t.thr.ctx.sq0 ∧ came 3 h.ctx.sq1 t.thr.ctx.sq1 ∧
      t = u.modCtx fun c => { c with
        stream := r, xflags := c.xflags ||| e.flags, sq0 := t.thr.ctx.sq0, sq1 := t.thr.ctx.sq1 }) ∧
    (∀ w refuse grant e d, ringHead w s = some e → s.thr.status = .running → s.thr.world = w →
      s.thr.stall = some (.sysc d e.ticket) → s.thr.record = false → (∀ g ∈ s.rest, waitsReply w e.ticket g = none) →
      (∀ g, callerOf w e s = some g → coreHalted g s = false) → (∀ f, serveCall w refuse grant e s ≠ .error (.hold f)) →
      let v : Word64 := match serveCall w refuse grant e s with
        | .ok x => x.1
        | .error _ => 0xFFFFFFFFFFFFFFFF
      (e.n = 0 → v = 0) ∧ (e.n ≠ 0 → refuse = true ∨ 5 < e.n.toNat → v = 0xFFFFFFFFFFFFFFFF) ∧
      Happens (.syscReply w refuse grant) s fun t =>
        (t.world w).ring = (s.world w).ring.filter (fun x => x.ticket != e.ticket) ∧
        (t.world w).ringFree = max (s.world w).ringFree ((leastOf (liveTickets w t)).getD (s.world w).ringTail) ∧
        t.pc = s.pc + 4 ∧ t.thr.stall = none ∧ t.reg d = written d (Cap.ofInt v) ∧ (∀ q, q ≠ d → t.reg q = s.reg q) ∧
        t.thr.ctx.allot = if e.n = 4 ∧ v ≠ 0xFFFFFFFFFFFFFFFF then min (s.thr.ctx.allot + v.toNat) (2 ^ 48 - 1) else s.thr.ctx.allot)

/-- R268, R271, R272, R282-R287, R367: a free slot takes the record of the highest level that came first, of its own cluster or,
when idle, of the fullest cluster of its die; a record whose context block cannot be restored goes to recovery (R392); a quantum ends;
a record that waits long rises, to the tail of its new level (log entry 51); an empty allotment stops the thread with a record; a
released limit lets one thread go on; Moaly resumes or frees a stopped thread and drains the fault queue, where jobs that wait write their
records first (log entry 89). A thread that gives up its slot
goes to the pool or the overflow queue (R286), its stream entries set aside (R192). -/
def Obligations.RunQueues : Prop :=
  ∀ (k core slot : Nat) (s : State) (h : Thread),
    let cl := core / 16
    let first := fun l : List Thread => h ∈ l ∧ s.thread? h.tid = some h ∧
      ∀ g ∈ l, g ≠ h → g.effLevel < h.effLevel ∨ (g.effLevel = h.effLevel ∧ h.readyOrder < g.readyOrder)
    let whole := h.broken = false ∧ State.digitsOk h.ctx.stream = true
    let entered := fun t : State => SameBytes s t ∧ (whole → t.thread? h.tid = some { h with
        status := .running, place := some (core * 8 + slot), slotSince := s.cycle, cluster := cl, overflow := false
        ctx := { h.ctx with stream := h.ctx.stream.map State.thaw } }) ∧
      (¬ whole → t.thread? h.tid = some { h with broken := false, stall := some .recovery } ∧
        (t.part h.part).errors = (s.part h.part).errors ++
          [⟨0, h.tid, h.ctx.code.cursor, h.cref, h.member, true, (s.part h.part).keeps && (s.part h.part).restartable⟩])
    (slotIsFree core slot s = true → first (queueFor cl cl s) → Happens (.continuationTake core slot) s entered) ∧
    (∀ q, slotIsFree core slot s = true → queueFor cl cl s = [] → (coreRec cl (core % 16) s).idleSince + 10000 ≤ s.now →
      stealFrom cl s = some q → first (stealable q cl s) → Happens (.steal core slot) s entered) ∧
    (let u := s.focus k
     u.thr.tid = k → inSlot u.thr u = true → u.thr.slotSince + 65536 ≤ u.cycle →
      (stillWaits u.thr u = true → Happens (.quantumEnd k) s fun t => t.thr.status = .waiting ∧ t.thr.place = none ∧
        outOfSlot u u.thr { t.thr with status := u.thr.status }) ∧
      (stillWaits u.thr u = false → atBoundary u.thr = true →
        ((∃ g ∈ queueFor u.thr.cluster u.thr.cluster u, u.thr.prio ≤ g.effLevel) →
          Happens (.quantumEnd k) s fun t => t.thr.status = .ready ∧ t.thr.place = none ∧ t.thr.effLevel = u.thr.prio ∧
            t.thr.readyOrder = u.nextId ∧ t.thr.readySince = u.cycle ∧ outOfSlot u u.thr { t.thr with
              status := u.thr.status, effLevel := u.thr.effLevel, readyOrder := u.thr.readyOrder, readySince := u.thr.readySince }) ∧
        ((∀ g ∈ queueFor u.thr.cluster u.thr.cluster u, g.effLevel < u.thr.prio) →
          Happens (.quantumEnd k) s fun t => t = u.modThr fun x => { x with slotSince := x.slotSince + 65536 }))) ∧
    (let u := s.focus k
     u.thr.tid = k → inSlot u.thr u = true → u.thr.ctx.allot = 0 → unwindPoint u.thr = none → u.thr.stall ≠ some .recovery →
      faultPending u.thr = false → u.faultQueueFull u.thr.world = false → Happens (.allotmentExhausted k) s fun t =>
        t.thr.status = .faulted ∧ t.thr.place = none ∧
        t.thr.stall = (if waitsToPark u.thr ∨ waitsEject u.thr then u.thr.stall else none) ∧
        outOfSlot u u.thr { t.thr with
          status := u.thr.status, stall := u.thr.stall, ctx := { t.thr.ctx with ir := u.thr.ctx.ir } } ∧
        (∀ ps v, atBoundary u.thr = true → u.access u.who u.thr.ctx.code u.pc 4 needFetch 0 = .ok (ps, v) →
          t.thr.ctx.ir = BitVec.ofNat 32 (leNat (v.readPieces ps))) ∧ SameBytes u t ∧
        ∃ r, (t.world u.thr.world).faultQ = (u.world u.thr.world).faultQ ++ [r] ∧ r.code = 0x38 ∧ r.kind = 2 ∧ r.info = t.thr.ctx.ir) ∧
    (s.thread? k = some h →
      (h.status = .ready → partRuns h.part s = true → h.effLevel < 7 → h.readySince + 64 * 65536 ≤ s.cycle →
        Happens (.priorityAging k) s fun t => t.thread? k = some { h with
          effLevel := h.effLevel + 1, readySince := h.readySince + 64 * 65536, readyOrder := s.nextId } ∧ SameBytes s t) ∧
      (firstAtLimit h s = true → contClaims h.world s < (s.world h.world).contLimit →
        Happens (.continuationLimitRelease k) s fun t => t.thread? k = some { h with stall := some .contGranted } ∧ SameBytes s t) ∧
      (∀ n, h.status = .faulted → Happens (.faultedResume k n) s fun t => SameBytes s t ∧ ∃ y, t.thread? k = some y ∧
        y.status = .ready ∧ y.place = none ∧ y.effLevel = h.prio ∧ y.readyOrder = s.nextId ∧ y.readySince = s.cycle ∧
        y.ctx.allot = max h.ctx.allot (min n (2 ^ 48 - 1)) ∧ outOfSlot s h { y with
          status := h.status, effLevel := h.effLevel, readyOrder := h.readyOrder, readySince := h.readySince
          ctx := { y.ctx with allot := h.ctx.allot } }) ∧
      (h.status = .faulted → (s.thr.tid = k → ∀ g ∈ s.rest, g.tid ≠ k) →
        Happens (.faultedFree k) s fun t => t.thread? k = none ∧ SameBytes s t)) ∧
    (∀ w x r, (s.world w).faultQ = x :: r → Happens (.faultQueueDrain w) s fun t => (∃ l, (t.world w).faultQ = r ++ l) ∧
      ((∀ c ∈ s.clusters, ∀ y ∈ c.2.engine.entries, y.2.owed = false) → (∀ p ∈ s.parts, ∀ y ∈ p.2.savedJobs, y.job.owed = false) →
        (t.world w).faultQ = r) ∧ SameBytes s t ∧ t.threads = s.threads)

/-! ## Engines, units, translation -/

/-- R83, R153-R155, R233-R238, R375, R387: the events of a copy engine and of a matrix unit: a waiter is granted an entry; a job starts
once its edges are over; a sector lands with its tags and its completion add, in byte mode its own, otherwise the job's with its last
sector, or stops its job with a record: paused, with its bitmap record, or FAULTED; a job of a killed
domain ends; a command starts in its turn, or is refused where its operands are poisoned (log entry 68), and, complete, changes
its slot and adds 1 to its counter; a tile is written; a slot returns; an engine stops and goes on, and META of a stopped engine
is written: STATE 000 frees the entry, 001, 010 and 011 make its job queued, running and paused. A pause comes after the sectors in
flight whose pages are present (R305). Log entries settle where the bitmap record lies (14), when a tag is read that two sectors write
(69), that remote commands are a seventeenth place of the round (47), that a matrix completion add above 2^64 - 1 is not made and leaves
a deferred 0x20 (67), and that an incarnation which a save area holds is not given again (`next`, 84). -/
def Obligations.EnginesAndUnits : Prop :=
  ∀ (c e n : Nat) (s : State) (j : Job) (h : Thread) (m : MCmd),
    let x := engineOf c s
    let unit := (s.cluster c).mat
    let q : Req := ⟨j.world, some c⟩
    let runs := jobAt c e s = some j ∧ j.state = .running ∧ engineRuns c j s = true ∧ n < sectorCount j.card ∧ n ∉ j.landed ∧
      n < firstUnlanded j + 4096 ∧ (n = firstUnlanded j ∨ j.ascendTo ≤ firstUnlanded j) ∧ draining c j s = false ∧ addHeld j n s = false
    let ctl := cardCtl j.card
    let mine := plainRun s ∧ s.thr.tid = j.tid ∧ ∀ g ∈ s.rest, g.tid ≠ j.tid ∧ g.cref ≠ s.thr.cref
    let count := s.thr.ctx.kctr[(ctlKnum ctl).toNat]
    let record := fun (f : BitVec 8) (addr : Word64) (k : BitVec 8) (y : Job) (t : State) =>
      (⟨addr, f, k, BitVec.ofNat 8 c, BitVec.ofNat 8 e, BitVec.ofNat 32 y.landed.length, y.cardAddr, BitVec.ofNat 64 t.now⟩ : FaultRec)
    let stops := fun (f : FaultInfo) (y : Job) => { y with fault := f.code, faultAddr := f.addr, owed := false }
    (oldestCardWaiter c s = some h → s.thread? h.tid = some h → x.stop = false →
      (s.threads.filter (grantedCard c s)).length < freeEntries x →
      Happens (.copyQueueGrant c) s fun t => t.thread? h.tid = some { h with stall := some (.copyGranted c) } ∧ SameBytes s t) ∧
    (jobAt c e s = some j → j.state = .queued → edgesOver c j s = true → draining c j s = false → engineRuns c j s = true →
      choiceHeld true c j.tid (engineRequests c s) s = false → emptyHeld j s = false →
      (jobKilled j s = true → Happens (.copyJobStart c e) s fun t =>
        jobAt c e t = some { j with state := .faulted, fault := 0x06, bmap := 0, owed := false } ∧ SameBytes s t) ∧
      (jobKilled j s = false →
      (sectorCount j.card ≠ 0 → Happens (.copyJobStart c e) s fun t => jobAt c e t = some { j with state := .running } ∧ SameBytes s t) ∧
      (sectorCount j.card = 0 → ctlAddm (cardCtl j.card) = false →
        Happens (.copyJobStart c e) s fun t => jobAt c e t = some { j with state := .done } ∧ SameBytes s t) ∧
      (sectorCount j.card = 0 → ctlAddm ctl = true → ctlCkind ctl = 1 → mine → count.toNat + 1 < 2 ^ 64 →
        Happens (.copyJobStart c e) s fun t => jobAt c e t = some { j with state := .done } ∧ SameBytes s t ∧
          t.thr.ctx.kctr = s.thr.ctx.kctr.set (ctlKnum ctl).toNat (count + 1)))) ∧
    (runs → jobKilled j s = true → Happens (.sectorLand c e n) s fun t =>
      jobAt c e t = some { j with state := .faulted, fault := 0x06, bmap := 0, owed := false } ∧ SameBytes s t) ∧
    (∀ parts chunks t u v pa, runs → jobKilled j s = false →
      sectorReads q j s (sectorRuns j.card n) = .ok (parts, t) → sectorWrites q j t parts = .ok (chunks, u) →
      (if sectorCounts j then counterPlace j u = .ok (pa, v) else v = u) →
      let w := (((sendWrites j (cardCap j.card 16 j.dstTag) chunks v).recordChunks j.part chunks).storeBytes q 0 chunks).1
      let z := if carriesTags j then takeTags j (NSet.add j.landed n) v (sectorGranules j n) w else w
      let add : Word64 := if ctlAddm ctl then 1 else BitVec.ofNat 64 (sectorBytes j.card n)
      let landed := { j with
        landed := NSet.add j.landed n
        state := if (NSet.add j.landed n).length = sectorCount j.card then .done else .running }
      let refused := fun (code : BitVec 8) (addr : Word64) => z.faultQueueFull j.world = false → Happens (.sectorLand c e n) s fun x =>
        SameBytes z x ∧ x.thr.ctx.kctr = s.thr.ctx.kctr ∧
        jobAt c e x = some { landed with fault := code, faultAddr := addr, faultKind := 3, owed := false, state := .faulted, bmap := 0 } ∧
        (x.world j.world).faultQ = (z.world j.world).faultQ ++ [record code addr 3 landed z]
      (sectorCounts j = true ↔ ctlAddm ctl = false ∨ j.landed.length + 1 = sectorCount j.card) ∧
      (sectorCounts j = false ∨ (ctlCkind ctl ≠ 1 ∧ ctlCkind ctl ≠ 2) →
        Happens (.sectorLand c e n) s fun x => x.mem = z.mem ∧ x.tags = z.tags ∧ jobAt c e x = some landed) ∧
      (sectorCounts j = true → ctlCkind ctl = 1 → mine →
        (count.toNat + add.toNat < 2 ^ 64 → Happens (.sectorLand c e n) s fun x => x.mem = z.mem ∧ x.tags = z.tags ∧
          jobAt c e x = some landed ∧ x.thr.ctx.kctr = s.thr.ctx.kctr.set (ctlKnum ctl).toNat (count + add)) ∧
        (2 ^ 64 ≤ count.toNat + add.toNat → refused 0x20 ((ctlKnum ctl).setWidth 64))) ∧
      (sectorCounts j = true → ctlCkind ctl = 2 →
        (Config.sheafSlots ≤ j.sseq ∨ z.sheafFind j.world j.part j.cref j.stepNo j.sseq = none) →
        let old := z.readNat pa 8
        let at_ := (cardCap j.card 128 j.ccapTag).cursor
        (ctrRefusal q pa z = none → pa % 64 = 0 → old + add.toNat < 2 ^ 64 → Happens (.sectorLand c e n) s fun x =>
          x.readNat pa 8 = old + add.toNat ∧ (∀ a, a < pa ∨ pa + 8 ≤ a → x.byteAt a = z.byteAt a) ∧ jobAt c e x = some landed) ∧
        (ctrRefusal q pa z = none → 2 ^ 64 ≤ old + add.toNat → refused 0x20 at_) ∧
        ∀ code, ctrRefusal q pa z = some code → refused code at_)) ∧
    (∀ k f, runs → jobKilled j s = false → sectorOutcome c e n j s = .error (k, .hold f) →
      Happens (.sectorLand c e n) s (· = State.heldBy f s)) ∧
    (∀ k f, runs → jobKilled j s = false → sectorOutcome c e n j s = .error (k, .fault f) →
      let recorded := fun (t : State) (y : Job) (v : State) => (v.world j.world).faultQ = (t.world j.world).faultQ ++
        [record f.code f.addr k y t]
      (f.code = 0x10 ∨ f.code = 0x11 → let t := landFlight c e (inFlight c n j s) s
        ∀ y, jobAt c e t = some y → y.state = .running → y.world = j.world → t.faultQueueFull j.world = false →
          Happens (.sectorLand c e n) s fun v => recorded t y v ∧
            jobAt c e v = some { stops f y with faultKind := k, state := .paused, bmap := bitmapAddr y.part c e } ∧
            v.readMem (paSave y.part (bitmapOffset c e)) 520 = bitmapBytes y) ∧
      (f.code ≠ 0x10 → f.code ≠ 0x11 → s.faultQueueFull j.world = false → Happens (.sectorLand c e n) s fun v => recorded s j v ∧
        jobAt c e v = some { stops f j with faultKind := k, state := .faulted, bmap := 0 } ∧ SameBytes s v)) ∧
    (∀ o core, oldestWaiter c s = some (.thread h.tid o) → s.thread? h.tid = some h → h.stall = some (.matrixQueue c o core) →
      Happens (.matrixQueueGrant c) s fun t => t.thread? h.tid = some { h with stall := some (.matrixGranted c core) } ∧ SameBytes s t) ∧
    (∀ k, oldestWaiter c s = some (.cmd m) → allocSlot c m.core s = some k → s.thr.status ≠ .vacant → s.thr.tid = m.tid →
      Happens (.matrixQueueGrant c) s fun t =>
        let x := slotTaken c k m.core m.world m.domain m.part s
        { m with queued := false, slot := some k, sinc := x.sinc } ∈ (t.cluster c).mat.cmds ∧
        slotAt c k t = x ∧ SameBytes s t ∧ t.thr.ctx.pend = s.thr.ctx.pend.map fun p => if p.cmd = some m.id then { p with
          val := some (slotCap c k x.sinc x.gen), cmd := none } else p) ∧
    (∀ l, nextStart c s = some m → operandPoison m s = some l → s.thr.status ≠ .vacant → s.thr.tid = m.tid →
      Happens (.matrixCommandStart c) s fun t => (∀ y ∈ (t.cluster c).mat.cmds, y.id ≠ m.id) ∧ (t.cluster c).mat.slots = unit.slots ∧
        t.thr.ctx.late = s.thr.ctx.late ++ [⟨0x40, BitVec.ofNat 64 (l * 64), m.pc, m.id⟩] ∧ SameBytes s t) ∧
    (nextStart c s = some m → operandPoison m s = none → Happens (.matrixCommandStart c) s fun t => SameBytes s t ∧
      (t.cluster c).mat.lastCore = roundPlace m.core ∧ (t.cluster c).mat.slots = unit.slots ∧
      ∀ y ∈ (t.cluster c).mat.cmds, y.id = m.id → y.started = true) ∧
    (startedCmd c n s = some m → plainRun s → s.thr.tid = m.tid → (∀ g ∈ s.rest, g.tid ≠ m.tid ∧ g.cref ≠ s.thr.cref) →
      Happens (.matrixCommandComplete c n) s fun t =>
        let k := m.slot.getD 0
        let count := s.thr.ctx.kctr[m.kctr.toNat]
        slotAt c k t = (if slotIs c k m.sinc s then applyCmd (slotSide c) m (slotAt c k s) else slotAt c k s) ∧
        (∀ i, i ≠ k → slotAt c i t = slotAt c i s) ∧ (∀ y ∈ (t.cluster c).mat.cmds, y.id ≠ n) ∧ SameBytes s t ∧
        (count.toNat + 1 < 2 ^ 64 → t.thr.ctx.kctr = s.thr.ctx.kctr.set m.kctr.toNat (count + 1)) ∧
        (2 ^ 64 ≤ count.toNat + 1 → t.thr.ctx.kctr = s.thr.ctx.kctr ∧ ∃ f ∈ t.thr.ctx.late, f.code = 0x20 ∧ f.orig = m.pc)) ∧
    (readyEntry .aread c n s = some m → s.thr.status ≠ .vacant → s.thr.tid = m.tid → slotIs c (m.slot.getD 0) m.sinc s = true →
      Happens (.areadTileWrite c n) s fun t => SameBytes s t ∧ (∀ y ∈ (t.cluster c).mat.cmds, y.id ≠ n) ∧
        t.thr.ctx.win = Cells.write s.thr.ctx.win m.tileOff (readTile (slotSide c) m (slotAt c (m.slot.getD 0) s))) ∧
    (readyEntry .arel c n s = some m → Happens (.slotRelease c n) s fun t =>
      let old := slotAt c (m.slot.getD 0) s
      let new := slotAt c (m.slot.getD 0) t
      let next := max (old.sinc.toNat + 1) old.next
      (∀ y ∈ (t.cluster c).mat.cmds, y.id ≠ n) ∧ SameBytes s t ∧
      (slotIs c (m.slot.getD 0) m.sinc s = false → new = old) ∧
      (slotIs c (m.slot.getD 0) m.sinc s = true → new.used = false ∧ (∀ i v, NMap.get? new.elems i ≠ some v) ∧
        (next < 2 ^ 46 → new.sinc.toNat = next ∧ new.retired = false) ∧ (2 ^ 46 ≤ next → new.retired = true))) ∧
    (x.stop = false → Happens (.engineStop c) s fun t => engineOf c t = { x with stop := true } ∧ SameBytes s t) ∧
    (x.stop = true → x.stopped = false → engineDrained c s = true →
      Happens (.engineStop c) s fun t => engineOf c t = { x with stopped := true } ∧ SameBytes s t) ∧
    (x.stop = true → Happens (.engineResume c) s fun t => engineOf c t = { x with stop := false, stopped := false } ∧ SameBytes s t) ∧
    (∀ v : Word64, x.stopped = true → e < 64 → Happens (.engineEntryWrite c e v) s fun t =>
      (v.toNat % 8 = 0 → jobAt c e t = none) ∧ (∀ i, i ≠ e → jobAt c i t = jobAt c i s) ∧ SameBytes s t ∧
      (v.toNat % 8 ≠ 0 → ∃ z, jobAt c e t = some z ∧ z.fault = v.extractLsb' 8 8 ∧
        (v.toNat % 8 = 1 → z.state = .queued) ∧ (v.toNat % 8 = 2 → z.state = .running) ∧ (v.toNat % 8 = 3 → z.state = .paused) ∧
        (v.toNat % 8 ≤ 3 → z.order = x.nextOrder ∧ (engineOf c t).nextOrder = x.nextOrder + 1) ∧
        (jobAt c e s = none → z.card = List.replicate 176 0) ∧
        ∀ y, jobAt c e s = some y → z.card = y.card ∧ z.bmap = y.bmap ∧ z.landed = bmapLanded y.bmap y.part (v.toNat / 2 ^ 24) s ∧
          (z.srcTag = true ↔ v.getLsbD 3 = true ∧ tagAllowed (cardCap y.card 0 true) = true) ∧
          (z.dstTag = true ↔ v.getLsbD 4 = true ∧ tagAllowed (cardCap y.card 16 true) = true) ∧
          (z.ccapTag = true ↔ v.getLsbD 5 = true ∧ tagAllowed (cardCap y.card 128 true) = true)))

/-- R107, R142, R341, R343-R346, R354: answers of the host and invalidations. A successful page request lets the page be asked for again
and its paused jobs run; one that fails, by whichever failing code, is remembered and ends its paused jobs; an ATS answer enters the hub's
cache; an invalidation removes the entry, lets no request that is out bring the old translation back, and
is completed; a table entry is replaced; a frame comes back zeroed. Bitmap records of jobs (R412) apart, no byte changes; that they
lie in areas from 6 × 2^64 is the model's (log entries 14 and 54). An answer that a record mode has later than others waits (R393). That the
first answer for a page after an invalidation is that to the request which the invalidation has overtaken is presumed (log entry 90). -/
def Obligations.TranslationEvents : Prop :=
  ∀ (w pasid page : Nat) (s : State),
    let key := (pasid, page)
    let here := fun e : AtcEntry => e.pasid == pasid && e.page == page
    (key ∉ s.hub.priOut → ∀ code, Happens (.priResponse pasid page code) s (· = s)) ∧
    (key ∈ s.hub.priOut →
      (Happens (.priResponse pasid page .success) s fun t => key ∉ t.hub.noAnswer ∧ key ∉ t.hub.priFailed ∧ SameBytes s t ∧
        (key ∉ s.hub.priQueue → key ∉ t.hub.priOut) ∧
        (∀ c e j, jobAt c e s = some j → pausedOn pasid page j s = true → ∃ x ∈ s.clusters, x.1 = c ∧ ∃ y ∈ x.2.engine.entries,
          y.1 = e ∧ pausedOn pasid page y.2 s = true ∧ jobAt c e t = some (resumeJob y.2)) ∧
        ∀ p, ∀ y ∈ (s.part p).savedJobs, pausedOn pasid page y.job s = true →
          ∃ z ∈ (t.part p).savedJobs, z.cluster = y.cluster ∧ z.entry = y.entry ∧ z.job.state ≠ .paused) ∧
      ∀ code, code ≠ .success → Happens (.priResponse pasid page code) s fun t => key ∈ t.hub.priFailed ∧ (key ∉ s.hub.priQueue → key ∉ t.hub.priOut) ∧
        (∀ a, a < 6 * regionSize → t.byteAt a = s.byteAt a) ∧
        ∀ c e j, jobAt c e s = some j → (s.world j.world).faultQ = [] →
          (s.clusters.flatMap fun x => x.2.engine.entries.map fun y => (x.1, y)).filter (fun y => pausedOn pasid page y.2.2 s)
            = [(c, e, j)] →
          ∃ j', jobAt c e t = some j' ∧ j'.state = .faulted ∧ j'.fault = 0x12) ∧
    (key ∈ s.hub.atsOut → answerHeld pasid page s = true → ∀ a, Happens (.atsResponse pasid page a) s fun t =>
      t = { s with inputs := .atsResponse pasid page a :: s.inputs }) ∧
    (key ∈ s.hub.atsStale → ∀ a, Happens (.atsResponse pasid page a) s fun t =>
      t = s.modHub fun x => { x with atsStale := s.hub.atsStale.erase key }) ∧
    (key ∈ s.hub.atsOut → key ∉ s.hub.atsStale → answerHeld pasid page s = false →
      (∀ frame r u, Happens (.atsResponse pasid page (.translation frame r u)) s fun t => key ∉ t.hub.atsOut ∧
        t.hub.atc.find? here = some ⟨pasid, page, frame, r, u⟩ ∧ SameBytes s t) ∧
      Happens (.atsResponse pasid page .notPresent) s fun t => key ∉ t.hub.atsOut ∧ key ∈ t.hub.noAnswer ∧ SameBytes s t) ∧
    (Happens (.atsInvalidation pasid page) s fun t => t.hub.atc.find? here = none ∧ key ∉ t.hub.noAnswer ∧ key ∈ t.hub.invOut ∧
      key ∉ t.hub.atsOut ∧ (key ∈ s.hub.atsOut → key ∈ t.hub.atsStale) ∧ t.hub.priFailed = s.hub.priFailed ∧ SameBytes s t) ∧
    (key ∈ s.hub.invOut → Happens (.invalidationCompletion pasid page) s fun t => t.hub.invOut = s.hub.invOut.erase key ∧ SameBytes s t) ∧
    (∀ a v, Happens (.translationInvalidation w a v) s fun t => SameBytes s t ∧
      ∀ k, NMap.get? (t.world w).ptes k = if k = a / 8 * 8 then some v else NMap.get? (s.world w).ptes k) ∧
    ∀ f r, (s.world w).freeing = f :: r → frameHeld f s = false → Happens (.pgfreeFramePush w) s fun t =>
      let bytes := pageBytes (f.size.toNat + 1)
      (t.world w).freeing = r ∧
      (∀ x, t.byteAt x = if paDevice f.frame ≤ x ∧ x < paDevice f.frame + bytes then 0 else s.byteAt x) ∧
      (f.size = 0 → (t.world w).free64k = f.frame :: (s.world w).free64k) ∧
      (f.size = 1 → (t.world w).free32m = f.frame :: (s.world w).free32m) ∧
      (f.size = 2 → (t.world w).free16g = f.frame :: (s.world w).free16g)

/-! ## Domains, kills, far gates -/

/-- R310, R311, R322-R326, R347: a domain is created with its generation kept; a kill raises the generations, marks the domains
dead and asks every home; the acknowledgements; and how threads unwind: out of a killed domain with LOST, out of an ejected or an
overdrawn call with REVOKED or BUDGET, or not at all where no live caller is left. A far gate's hop lands as a new continuation and
returns to its caller; a kill sends back the calls on their way into it, and the call of a GATED caller that it kills has lost it. Log
entries settle that a dead entry may be made live again once its kill has ended (83), that a callee whose caller is dead keeps its
budget (72), that an unwinding leaves the queues empty (78), and that a far return leaves the registers but a1-a11 as they were (45). -/
def Obligations.DomainsAndKills : Prop :=
  ∀ (w k n : Nat) (s : State) (e : DomEntry),
    let u := s.focus k
    let h := u.thr
    let returned := fun (status : BitVec 8) (t : State) =>
      t.pc = e.retpc ∧ t.thr.ctx.domain = e.cdom ∧ t.thr.ctx.lastStatus = status ∧ t.thr.ctx.wbase = e.cwbase ∧ t.thr.ctx.fs = e.cfs ∧
      t.thr.ctx.dstack.length + (n + 1) = h.ctx.dstack.length ∧ SameBytes u t ∧
      t.thr.ctx.lq0 = [] ∧ t.thr.ctx.lq1 = [] ∧ t.thr.ctx.sq0 = [] ∧ t.thr.ctx.sq1 = [] ∧
      ∀ r : RegNum, 4 ≤ r.toNat → r.toNat < 12 → t.reg r = Cap.null
    let plain := h.ctx.dstack[n]? = some e ∧ e.trap = false ∧ e.far = false
    (∀ d : DomainSpec, d.id < 4096 → ((s.world w).dom d.id).state = .free ∨ ((s.world w).dom d.id).state = .dead →
      killRunning w d.id s = false → trapGateOk w d.trapGate s = true →
      Happens (.domainCreate w d) s fun t => SameBytes s t ∧
        (t.world w).dom d.id = ⟨.live, ((s.world w).dom d.id).gen, d.trapGate, d.ptroot,
          ⟨d.rootBits, d.rootTag && tagAllowed ⟨d.rootBits, true⟩⟩, d.pasid⟩) ∧
    (((s.world w).dom n).state = .live → ((s.world w).dom n).gen < 4095 → Happens (.domainKill w n) s fun t =>
      ((t.world w).dom n).state = .dead ∧ ((t.world w).dom n).gen = ((s.world w).dom n).gen + 1 ∧ SameBytes s t ∧
      t.hub.kills = s.hub.kills ++ [⟨s.nextId, w, some n, allHomes⟩] ∧
      (∀ g, s.thread? k = some g → g.world = w → g.ctx.domain = n → g.status = .gated → faultPending g = false →
        (∃ y, t.thread? k = some y ∧ y.status = .killed) ∧ ∀ x ∈ t.hub.hops, x.caller = k → x.orphan = true ∧ x.back = false) ∧
      ∀ x, hopOf k s = some x → x.back = false → x.landing = none → x.orphan = false → x.gateWorld = w →
        ((s.world w).gate x.gate).domain = n → (∀ y ∈ s.hub.hops, y.id = k → y = x) →
        (∀ g ∈ s.threads, g.tid = x.caller → g.world ≠ w) →
        hopOf k t = some { x with back := true, remain := x.grant, status := 4, args := [] }) ∧
    (Happens (.worldKill w) s fun t => t.hub.kills = s.hub.kills ++ [⟨s.nextId, w, none, allHomes⟩] ∧ SameBytes s t ∧
      ∀ l ∈ t.launches, l.world = w → l.written = false → l.status ≠ none) ∧
    (∀ x home, (s.hub.kills.find? fun y => y.id == n && y.homes.contains home) = some x →
      let left := x.homes.filter (· != home)
      (left ≠ [] → Happens (.generationBumpAck n home) s fun t => SameBytes s t ∧
        t.hub.kills = s.hub.kills.map fun y => if y.id = n then { y with homes := left } else y) ∧
      (left = [] → pagesHeld x s = false → Happens (.generationBumpAck n home) s fun t => t.hub.kills = s.hub.kills.filter fun y => y.id != n)) ∧
    (h.tid = k → unwindReady h = true →
      (killCase h u = .kill → (∀ g ∈ u.rest, g.tid ≠ k) → Happens (.killUnwind k) s fun t => SameBytes u t ∧
        if killOpen h.world u = true then t.thr.status = .killed ∧ t.thr.place = none else t.thread? k = none) ∧
      (killCase h u = .lost → (h.ctx.dstack.findIdx? fun x => callerLive h.world x u) = some n → plain →
        Happens (.killUnwind k) s (returned 4)) ∧
      (∀ r, killCase h u = .grace → h.ctx.dstack = e :: r → e.blim < h.ctx.allot → Happens (.killUnwind k) s fun t =>
        t = u.modCtx fun c => { c with
          allot := h.ctx.allot - e.blim
          dstack := { e with blim := 0, grace := true } :: r.map fun x => { x with blim := x.blim - e.blim } }) ∧
      (unwindPoint h = some (n, 1) → partRuns h.part u = true → plain → callerLive h.world e u = true →
        Happens (.ejectUnwind k) s (returned 1)) ∧
      (unwindPoint h = some (n, 2) → partRuns h.part u = true → plain → callerLive h.world e u = true → Happens (.budgetEnd k) s (returned 2))) ∧
    (∀ x, hopOf n s = some x → x.back = false → x.landing = none → (∀ y ∈ s.hub.hops, y.id = n → y = x) →
      let v := s.world x.gateWorld
      let g := v.gate x.gate
      let dead := domDead x.gateWorld g.domain (v.dom g.domain).gen s
      (v.landing = none ∨ (∃ c, v.landing = some c ∧ partOf x.gateWorld c s = none) ∨ dead = true →
        Happens (.farGateLanding n) s fun t => SameBytes s t ∧ t.rest = s.rest ∧
          hopOf n t = if x.orphan = true then none else some { x with back := true, remain := x.grant, status := 4, args := [] }) ∧
      (∀ c p, v.landing = some c → partOf x.gateWorld c s = some p → dead = false →
        matrixRuns p s = true → Happens (.farGateLanding n) s fun t =>
          hopOf n t = some { x with landing := some c } ∧ SameBytes s t ∧ ((t.world x.gateWorld).gate x.gate).count = g.count + 1 ∧
          ∃ y, t.rest = s.rest ++ [y] ∧ y.status = .ready ∧ y.world = x.gateWorld ∧ y.part = p ∧ y.cluster = c ∧ y.hop = none ∧
            y.ctx.domain = g.domain ∧ y.ctx.dgen = (v.dom g.domain).gen ∧ y.ctx.code = g.code ∧ y.ctx.allot = x.grant ∧
            y.ctx.fs = g.frame * 64 ∧ ∃ f, y.ctx.dstack = [f] ∧ f.far = true ∧ f.hop = some n ∧ f.gworld = x.gateWorld ∧
              f.gate = x.gate ∧ f.cworld = x.cworld ∧ f.cdom = x.cdom ∧ f.argw = x.argw ∧ f.grace = x.orphan)) ∧
    (∀ x c r, hopOf n s = some x → x.back = true → s.thread? x.caller = some c → c.status = .gated → c.hop = some n →
      matrixRuns c.part s = true → s.arrivalHeld x.caller (.back x.status) = false → c.ctx.dstack = e :: r → Happens (.farGateReturn n) s fun t => SameBytes s t ∧ hopOf n t = none ∧
        ∃ y, t.thread? x.caller = some y ∧ y.status = .ready ∧ y.hop = none ∧ y.ctx.dstack = r ∧ y.ctx.lastStatus = x.status ∧
          y.ctx.allot = c.ctx.allot - (x.grant - x.remain) ∧
          ∀ q : Fin 32, y.ctx.regs[q] = if 4 ≤ q.val ∧ q.val < 12 then (x.args[q.val - 4]?).getD Cap.null
            else if 1 ≤ q.val ∧ q.val < 4 then e.saved[q] else c.ctx.regs[q])

/-! ## Keys, tenancy, partitions, recovery, the platform -/

/-- R332-R339, R349-R354: key slots, die latches, turnover, the report and the hub's pages. Log entries settle the offsets 8n of KSTATn
and DLATCHn and 72 of the go bit (27), and that a die is scrubbed in the step that unlatches it (55). -/
def Obligations.KeysAndTenancy : Prop :=
  ∀ (w home die page o : Nat) (v : Word64) (s : State),
    let x := s.world w
    (x.keyState = .active → Happens (.rekey w) s fun t => SameBytes s t ∧ let y := t.world w
      y.keyState = .rekeying ∧ y.keyEpoch = x.keyEpoch + 1 ∧ y.oldKeyId = some x.keyId ∧ y.keyId = s.nextId ∧ y.swept = 0) ∧
    (x.keyState = .rekeying → home < 16 → x.swept.getLsbD home = false →
      (∀ l z, s.sweepNext w home (x.sweeps.getD home 0) = some l → s.quiet (l * 64) = false → NMap.get? s.seals l = some z → z.world = w → some z.key = x.oldKeyId → l ∉ s.broken →
        Happens (.keySweepLine w home) s fun t => NMap.get? t.seals l = some ⟨w, x.keyId⟩ ∧ t.broken = s.broken ∧ SameBytes s t) ∧
      (s.sweepNext w home (x.sweeps.getD home 0) = none → Happens (.keySweepLine w home) s fun t => (t.world w).swept.getLsbD home = true ∧ SameBytes s t ∧
        ((t.world w).swept = 0xFFFF → (t.world w).keyState = .active ∧ (t.world w).oldKeyId = none))) ∧
    (x.keyState = .destroying → Happens (.keySlotDestroy w) s fun t => (t.world w).keyState = .empty ∧ SameBytes s t) ∧
    (x.keyState = .active ∨ x.keyState = .rekeying → Happens (.keySlotDestroy w) s fun t => (t.world w).keyState = .destroying ∧ SameBytes s t) ∧
    (x.keyState = .empty → w < 64 → Happens (.worldKeyLoad w) s fun t => (t.world w).keyState = .active ∧ (t.world w).keyId = s.nextId ∧
      (∀ a, t.keyAt w a = some s.nextId) ∧
      (x.keyId ≠ 0 → (t.world w).keyEpoch = x.keyEpoch + 1) ∧ SameBytes s t) ∧
    (die < 8 → let y := dlatchAt die s
      (v.getLsbD 15 = true → y.latched = false → y.clean = true → v.toNat % 64 ≠ 0 → Happens (.dlatchWrite die v) s fun t =>
        dlatchAt die t = ⟨true, false, v.toNat % 64⟩ ∧ SameBytes s t) ∧
      (v.getLsbD 15 = true → y.latched = true ∨ y.clean = false ∨ v.toNat % 64 = 0 → Happens (.dlatchWrite die v) s fun t =>
        t = s.logEvent (.latchDropped die)) ∧
      (v.getLsbD 15 = false → y.latched = true → dieUsed die s = true → Happens (.dlatchWrite die v) s fun t =>
        t = s.logEvent (.latchDropped die)) ∧
      (v.getLsbD 15 = false → y.latched = true → dieUsed die s = false → Happens (.dlatchWrite die v) s fun t =>
        dlatchAt die t = ⟨false, true, 0⟩ ∧ ∀ a, t.byteAt a = if die * 2 ^ 27 ≤ a ∧ a < (die + 1) * 2 ^ 27 then 0 else s.byteAt a)) ∧
    (s.hub.turnBusy = false → w ≠ 0 → w < 64 → Happens (.turnoverStart w) s fun t => t.hub.turnBusy = true ∧ t.hub.turnWorld = w ∧
      t.hub.turnStage = 0 ∧ t.hub.turnDone = false ∧ SameBytes s t) ∧
    (s.hub.turnBusy = true → Happens (.turnoverStart w) s fun t => t = s.logEvent .turnoverDropped) ∧
    (s.hub.turnBusy = true → ¬ (s.hub.turnStage = 1 ∧ killOpen s.hub.turnWorld s = true) →
      ¬ (s.hub.turnStage = 3 ∧ turnHeld s.hub.turnWorld s.nextTick = true) → Happens .turnoverOrderComplete s fun t =>
      t.hub.turnStage = s.hub.turnStage + 1 ∧ (s.hub.turnStage = 2 → (t.world s.hub.turnWorld).keyState = .empty) ∧
      (s.hub.turnStage = 3 → ∀ l z i, NMap.get? s.seals l = some z → z.world = s.hub.turnWorld →
        regionOf (l * 64) = 1 ∨ regionOf (l * 64) = 2 → i < 64 → t.byteAt (l * 64 + i) = 0) ∧
      (s.hub.turnStage = 4 → (∀ h ∈ t.threads, h.world ≠ s.hub.turnWorld) ∧ (∀ y ∈ t.parts, y.2.world ≠ s.hub.turnWorld) ∧
        (∀ l ∈ t.launches, l.world ≠ s.hub.turnWorld) ∧ (∀ e ∈ t.sheaf, e.world ≠ s.hub.turnWorld) ∧
        (∀ f ∈ t.hub.peerEarly, f.world = s.hub.turnWorld → f.op = .copyWrite []) ∧ ∀ y ∈ t.hub.compWorld, y.2.world ≠ s.hub.turnWorld) ∧
      (s.hub.turnStage = 5 → t.hub.turns = s.hub.turns + 1) ∧
      (s.hub.turnStage = 7 → t.hub.turnBusy = false ∧ t.hub.turnDone = true)) ∧
    (s.hub.attGo = true → Happens .sounariReport s fun t => t.hub.attGo = false ∧ t.hub.attReport.take 256 = reportBody s ∧
      t.hub.attReport.length = 320 ∧ SameBytes s t) ∧
    (privatePage page = true →
      (Happens (.hubRegisterWrite false page o (some v)) s fun t => t = s.logEvent (.untrustedAccess page)) ∧
      Happens (.hubRegisterWrite false page o none) s fun t => t.hub.reply = some ⟨page, o, 0⟩ ∧
        t.hub.log = (s.logEvent (.untrustedAccess page)).hub.log ∧ SameBytes s t) ∧
    (die < 8 → Happens (.hubRegisterWrite true 1 (8 * die) (some v)) s fun t => exec (.dlatchWrite die v) s = .next t) ∧
    (s.hub.attGo = false → Happens (.hubRegisterWrite false 2 72 (some v)) s fun t => t.hub.attGo = v.getLsbD 0 ∧ SameBytes s t) ∧
    (w < 64 → Happens (.hubRegisterWrite true 0 (8 * w) none) s fun t => SameBytes s t ∧ ∃ r, t.hub.reply = some ⟨0, 8 * w, r⟩ ∧
      (r.extractLsb' 0 3).toNat = keyStateCode x.keyState ∧ r.extractLsb' 12 8 = x.keyEpoch) ∧
    (Happens (.hubRegisterWrite true 3 8 none) s fun t => SameBytes s t ∧ ∃ r, t.hub.reply = some ⟨3, 8, r⟩ ∧
      r.getLsbD 0 = s.hub.turnBusy ∧ r.getLsbD 1 = s.hub.turnDone ∧ (r.extractLsb' 4 4).toNat = s.hub.turnStage % 16)

/-- R192, R240, R294, R298-R301, R384-R389, R392-R394, R396: partition switches, step boundaries, the restore of a replay (undo log,
page snapshot, members, cancelled work) or the loss of the step, and re-runs of tasks and of record-mode continuations. Log entries
settle that a saved slot comes back with the larger `next` (84), that a replay and a re-run keep the words and units of phases (52),
that a member restored stands where it stood (53), and the place of a record-mode re-run: its spill area (11) and the cluster of its
second member (25). -/
def Obligations.SwitchAndRecovery : Prop :=
  ∀ (p q at_ k : Nat) (s : State),
    let x := s.part p
    (p ≠ q → x.phase = .active → canEnter p q s = true → s.now + 2000 ≤ at_ → Happens (.switchAnnounce p q at_) s fun t =>
      t.part p = { x with phase := .announced, switchAt := at_, incoming := some q } ∧ SameBytes s t) ∧
    (x.phase = .announced → x.switchAt ≤ s.now → enginesDone p s = true →
      Happens (.switchStop p) s fun t => t.part p = { x with phase := .stopped } ∧ SameBytes s t) ∧
    (p ≠ q → x.phase = .stopped → x.incoming = some q → Happens (.bankSwap p) s fun t => (t.part p).phase = .shadow ∧
      (t.part q).phase = .entering ∧ (∀ c ∈ x.clusters, ∀ e j, jobAt c e t = some j → j.part ≠ p) ∧ SameBytes s t ∧
      List.Forall₂ sameButAside s.rest t.rest ∧
      ((s.part q).savedSlots.Pairwise (fun y z => y.cluster ≠ z.cluster ∨ y.slot ≠ z.slot) → ∀ y ∈ (s.part q).savedSlots,
        slotAt y.cluster y.slot t = { y.val with next := max y.val.next (slotAt y.cluster y.slot s).next })) ∧
    (x.phase = .entering → foldsHeld p s = false → Happens (.partitionResume p) s fun t =>
      (t.part p).phase = .active ∧ (t.part p).folds = [] ∧ (t.part p).savedJobs = [] ∧
      (x.savedJobs.Pairwise (fun y z => y.cluster ≠ z.cluster ∨ y.entry ≠ z.entry) → ∀ y ∈ x.savedJobs, jobAt y.cluster y.entry t = some y.job) ∧
      (x.folds = [] → ((t.part p).errors = x.errors ↔ ¬ (x.saveBroken = true ∨ ∃ h ∈ slotHolders p s, contextWhole h = false)) ∧
        ∀ h, s.thread? k = some h → (∀ g ∈ s.threads, g.tid = k → g = h) → h.part = p → h.place.isSome = true → coreHalted h s = false →
          (contextWhole h = true → t.thread? k = some (State.thawThread h)) ∧
          (contextWhole h = false → t.thread? k = some { h with broken := false, stall := some .recovery } ∧
            ∃ e ∈ (t.part p).errors, e.tid = k ∧ e.save = true ∧ e.pc = h.ctx.code.cursor ∧ e.cref = h.cref))) ∧
    (x.phase = .entering → foldsHeld p s = true → Happens (.partitionResume p) s (· = s)) ∧
    (x.phase = .shadow → Happens (.partitionSave p) s fun t => t.part p = { x with phase := .saved } ∧ SameBytes s t) ∧
    (matrixRuns p s = true → x.errors = [] → (∀ h ∈ membersOf p s, h.stall = some .boundary ∧ workDone h.tid s = true) →
      (membersOf p s ≠ [] ∨ x.exited ≠ []) → pairStray (membersOf p s) s = none → Happens (.stepBoundary p) s fun t =>
        (t.part p).stepNo = x.stepNo + 1 ∧ (t.part p).errors = [] ∧ (t.part p).undo = [] ∧ (t.part p).exited = [] ∧ SameBytes s t ∧
        (∀ e ∈ t.sheaf, ¬ (e.world = x.world ∧ e.part = p)) ∧
        ∀ h ∈ s.threads, h.part = p → h.stall = some .boundary → (∀ g ∈ s.threads, g.tid = h.tid → g = h) → ∃ g ∈ t.threads,
          g.tid = h.tid ∧ g.stall = none ∧ g.ctx.code.cursor = h.ctx.code.cursor + 4 ∧ g.ctx.sseq = 0 ∧ g.ctx.regs = h.ctx.regs ∧
            (h.status = .waiting → g.status = .ready)) ∧
    (∀ h, boundaryDue p s = true → pairStray (membersOf p s) s = some h → (s.focus h.tid).thr = h →
      (s.focus h.tid).isRepeat 0x43 = false → s.faultQueueFull h.world = false → Happens (.stepBoundary p) s fun t =>
        (t.part p).stepNo = x.stepNo ∧ SameBytes s t ∧ (∃ g, t.thread? h.tid = some g ∧ g.stall = some .recovery) ∧
        ∃ e ∈ (t.part p).errors, e.tid = h.tid ∧ e.code = 0x43 ∧ e.pc = h.ctx.code.cursor) ∧
    (∀ e, matrixRuns p s = true → (x.errors.find? fun y => needsReplay y s) = some e →
      (x.keeps = true → e.replay = true → x.recordsBroken = false → x.restored = false → restoreWaits p s = false → Happens (.stepReplay p) s fun t =>
        let restoredLine := fun (line : Nat) (cells : List Host.Cell) =>
          let pa := line * 64
          s.isCounterLine pa = false → (regionOf pa = 2 → s.farBacked pa = true) → s.serves ⟨x.world, some (clusterOfLocal pa)⟩ pa = true →
            (∀ m ∈ x.mredGranules, m / 64 ≠ line) → t.readMem pa 64 = Cells.read cells pa 64
        (t.part p).restored = true ∧ (t.part p).stopped = true ∧ (t.part p).errors = [] ∧ (t.part p).repeated = x.repeated ++ [e] ∧
        (∀ y ∈ x.undo, (∀ z ∈ x.undo, z.line = y.line → z = y) → (∀ g ∈ x.pages, g.page ≠ y.line / 64) → restoredLine y.line y.cells) ∧
        (∀ y ∈ x.pages, (∀ z ∈ x.pages, z.page = y.page → z = y) → ∀ i < 64, restoredLine (y.page * 64 + i) y.cells) ∧
        (∀ c, (∀ m ∈ (t.cluster c).mat.cmds, m.part ≠ p) ∧ ∀ j ∈ (t.cluster c).engine.entries, j.2.part = p → j.2.stepNo ≠ x.stepNo) ∧
        ∀ h ∈ s.threads, h.part = p → h.status ≠ .killed → (∀ g ∈ s.threads, g.tid = h.tid → g = h) → ∀ y ∈ x.snaps, y.tid = h.tid →
          ∃ g ∈ t.threads, g.tid = h.tid ∧ g.place = h.place ∧ g.stall = none ∧ g.wait = none ∧ g.ctx.code = y.ctx.code ∧ g.ctx.regs = y.ctx.regs ∧
            g.ctx.win = y.ctx.win ∧ g.ctx.kctr = y.ctx.kctr ∧ g.ctx.lq0 = y.ctx.lq0 ∧ g.ctx.lq1 = y.ctx.lq1 ∧ g.ctx.sq0 = y.ctx.sq0 ∧
            g.ctx.sq1 = y.ctx.sq1 ∧ g.ctx.dstack = y.ctx.dstack ∧ g.ctx.swcount = h.ctx.swcount ∧
            g.ctx.swtree = h.ctx.swtree ∧ g.ctx.sseq = 0) ∧
      (x.keeps = false ∨ e.replay = false ∨ x.recordsBroken = true ∨ x.restored = true → Happens (.stepReplay p) s fun t =>
        SameBytes s t ∧ (t.part p).errors = [] ∧ (∀ l ∈ t.launches, l.part = p → l.written = false → l.status ≠ none) ∧
        ∀ h ∈ s.threads, h.part = p → (∀ g ∈ s.threads, g.tid = h.tid → g = h) → ∀ g ∈ t.threads, g.tid = h.tid → g.status = .killed)) ∧
    (x.stopped = true → x.restored = true → x.recordsBroken = false → Happens (.replayResume p) s fun t =>
      t.part p = { x with stopped := false, restored := false } ∧ SameBytes s t) ∧
    (∀ h l, s.thread? k = some h → h.task = some l → rerunnable h s = true → matrixRuns h.part s = true → h.broken = false → Happens (.taskRerun k) s fun t =>
      SameBytes s t ∧ ∃ g, t.thread? k = some g ∧ g.ctx.regs = l.start.regs ∧ g.ctx.code = l.start.code ∧ g.ctx.win = l.start.win ∧
        g.ctx.swcount = h.ctx.swcount ∧ g.ctx.swtree = h.ctx.swtree ∧ g.stall = none ∧ g.wait = none ∧ g.task = some { l with reruns := l.reruns + 1, giving := l.vals, skip := l.effects } ∧
        (otherSlot h s = none → (∀ x ∈ s.threads, x.tid = k → x = h) → g.place = h.place)) ∧
    ∀ a, NMap.get? s.recAreas k = some a →
      let first := fun g : Thread => g.ctx = { a.start.ctx with spill := Config.spillBase s.nextId } ∧ g.recGiving = a.log ∧ g.cluster = a.start.cluster
      (a.start.paired = false → Happens (.recordModeRerun k) s fun t => SameBytes s t ∧ ∃ g, t.rest = s.rest ++ [g] ∧ first g) ∧
      ∀ c, a.start.paired = true → pairCluster a.start.part a.start.level a.start.cls a.start.cluster s = some c →
        Happens (.recordModeRerun k) s fun t => SameBytes s t ∧ ∃ g y, t.rest = s.rest ++ [g, y] ∧ first g ∧ g.member = 0 ∧ y.member = 1 ∧
          y.cluster = c ∧ y.recGiving = a.log

/-- R192, R376, R387, R390-R392, R403, R405-R411: memory errors and repair, bring-up, reset, power, links, expanders, flits of peers in
their sequence with their answers (at most 112 bytes of data in each flit), and the end of a halt. Log entries settle the numbers of
hardware-owned areas (54), where a flit lies, the source that an answer names, and that a flit that is not admitted is answered with 0x06 (29), and that RESET keeps HOST and
PEER, with their seals and counter lines, and the turnover count (32), starts the time again (31) and leaves zeros in DEVICE and FAR (3). -/
def Obligations.PlatformEvents : Prop :=
  ∀ (n p stop : Nat) (row : HbmRow) (f : Flit) (s : State),
    let pa := flitPa f
    let q := flitReq f
    let held := fun t : State => t.sheafFind f.world (peerPart f) f.cref f.stepNo f.sseq
    let answer := fun (i : Nat) (b : SentBody) =>
      (⟨Config.ownPeer, f.src, NMap.getD s.hub.sentSeq f.src 0 + i, f.world, f.cref, f.stepNo, f.sseq, b⟩ : SentFlit)
    let takes := fun (b : SentBody) (t : State) => nextSeq f.src t = f.seq + 1 ∧
      t.hub.sent = s.hub.sent ++ [answer 0 b]
    let ports := fun (i : Nat) (t : State) => t.hub.expanders.filter fun e => e.port == i
    let quiet := ∀ g ∈ s.hub.peerEarly, g.src ≠ f.src
    (n < 6 * regionSize → Happens (.uncorrectableError n) s fun t => t.isPoisoned n = true ∧ SameBytes s t) ∧
    (p < regionSize →
      ((NMap.get? s.parts p).isSome = true →
        (Happens (.uncorrectableError (6 * regionSize + p)) s fun t => (t.part p).saveBroken = true ∧ SameBytes s t) ∧
        Happens (.uncorrectableError (7 * regionSize + p)) s fun t => (t.part p).recordsBroken = true ∧ SameBytes s t) ∧
      ∀ h, s.thread? p = some h →
        (Happens (.uncorrectableError (8 * regionSize + p)) s fun t => t.thread? p = some { h with logBroken := true } ∧ SameBytes s t) ∧
        (Happens (.uncorrectableError (9 * regionSize + p)) s fun t =>
          t.thread? p = some { h with broken := h.place.isNone || coreHalted h s } ∧ SameBytes s t) ∧
        Happens (.uncorrectableError (10 * regionSize + p)) s fun t => SameBytes s t ∧
          t.thread? p = some { h with ctx := { h.ctx with stream := h.ctx.stream.map fun e => if e.frozen = true then { e with dchk := e.dchk + 1 } else e } }) ∧
    (Happens (.correctedError row) s fun t => recentCorrections row t = recentCorrections row s + 1 ∧ SameBytes s t) ∧
    (dueRow s = some row → Happens .softRepair s fun t => t.hub.quiesced = s.hub.quiesced ++ [row] ∧ SameBytes s t ∧
      ((∃ i, i < 512 ∧ ((s.hub.repairList[i]?).getD 0).getLsbD 63 = false) → repairEntry row ∈ t.hub.repairList)) ∧
    (∀ r, s.hub.quiesced = row :: r → Happens .softRepairComplete s fun t => t.hub.quiesced = r ∧ t.hub.spared = s.hub.spared ++ [row] ∧
      SameBytes s t) ∧
    (Happens .reset s fun t => t.hub.stage = 0 ∧ t.threads = [] ∧ t.worlds = [] ∧ t.parts = [] ∧ t.launches = [] ∧ t.sheaf = [] ∧
      t.hub.repairList = s.hub.repairList ∧ t.hub.turns = s.hub.turns ∧ t.hub.links = 0 ∧ t.hub.expanders = [] ∧ t.now = 0 ∧
      ∀ a, if outsidePackage a = true then t.byteAt a = s.byteAt a ∧ t.isCounterLine a = s.isCounterLine a ∧
          t.isPoisoned a = s.isPoisoned a ∧ NMap.get? t.seals (a / 64) = NMap.get? s.seals (a / 64)
        else t.byteAt a = 0 ∧ t.isCounterLine a = false ∧ t.isPoisoned a = false ∧ NMap.get? t.seals (a / 64) = none) ∧
    (∀ a, outsidePackage a = true ↔ regionOf a = 3 ∨ regionOf a = 4) ∧
    (s.hub.stage < 7 → s.hub.failed = false → Happens .bringupStageComplete s fun t => SameBytes s t ∧
      (t.hub.stage = s.hub.stage + 1 ∧ t.hub.failed = false ∨ s.hub.stage < 2 ∧ t.hub.stage = s.hub.stage ∧ t.hub.failed = true)) ∧
    (Happens (.powerLimit n) s fun t => t = s.modHub fun h => { h with clockMhz := n }) ∧
    (n < 32 → (Happens (.linkFailure n) s fun t => t.hub.links.getLsbD n = false ∧ SameBytes s t ∧
        ∀ k, k ≠ n → t.hub.links.getLsbD k = s.hub.links.getLsbD k) ∧
      Happens (.linkRetrainComplete n) s fun t => t.hub.links.getLsbD n = true ∧ SameBytes s t ∧
        ∀ k, k ≠ n → t.hub.links.getLsbD k = s.hub.links.getLsbD k) ∧
    (Happens (.expanderRemoval n) s fun t => SameBytes s t ∧ ∀ i k, (ports i t)[k]? =
      if i = n % 4 ∧ k = n / 4 then ((ports i s)[k]?).map fun e => { e with present := false } else (ports i s)[k]?) ∧
    (f.seq < nextSeq f.src s ∨ (∃ g ∈ s.hub.peerEarly, g.src = f.src ∧ g.seq = f.seq) → Happens (.nelturFlit f) s (· = s)) ∧
    (nextSeq f.src s < f.seq ∨ (f.seq = nextSeq f.src s ∧ flitHeld f s = true) → quiet → Happens (.nelturFlit f) s fun t =>
      t = s.modHub fun h => { h with peerEarly := h.peerEarly ++ [f] }) ∧
    (f.seq = nextSeq f.src s → flitHeld f s = false → quiet →
      let kept := fun (b : SentBody) (t : State) => takes b t ∧ SameBytes s t
      let added := fun (v : Word64) (t : State) => t.readNat pa 8 = s.readNat pa 8 + v.toNat
      let fits := fun v : Word64 => ctrRefusal q pa s = none ∧ s.readNat pa 8 + v.toNat < 2 ^ 64
      (flitAdmitted f s = false → Happens (.nelturFlit f) s (kept (.answer f.cref 0 0x06))) ∧
      (flitAdmitted f s = true →
        (∀ v, f.op = .counterAdd v →
          (∀ e, f.sector = none → held s = some e →
            Happens (.nelturFlit f) s (kept (.answer f.cref e.result (if State.sameStamp e 0x18 1 v = true then e.fault else 0x43)))) ∧
          (f.sector = none → held s = none → fits v → Happens (.nelturFlit f) s fun t =>
            takes (.answer f.cref (BitVec.ofNat 64 (s.readNat pa 8)) 0) t ∧ added v t ∧ (held t).isSome = true) ∧
          ∀ i, f.sector = some i →
            (∀ e, held s = some e → e.maj = 0x1C → e.func = 0 → i ∈ e.sectors → Happens (.nelturFlit f) s (kept (.answer f.cref 0 0))) ∧
            ((∀ e, held s = some e → e.maj = 0x1C ∧ e.func = 0 ∧ e.fault = 0 ∧ i ∉ e.sectors) → fits v → Happens (.nelturFlit f) s fun t =>
              takes (.answer f.cref 0 0) t ∧ added v t ∧ ∃ e, held t = some e ∧ i ∈ e.sectors)) ∧
        (∀ v, f.op = .counterInit v → held s = none → s.serves q pa = true → s.isPoisoned pa = false → s.isCounterLine pa = false →
          Happens (.nelturFlit f) s fun t => takes (.answer f.cref 0 0) t ∧ t.isCounterLine pa = true ∧ t.readNat pa 8 = v.toNat) ∧
        (∀ v l, f.op = .counterWait v l → ctrRefusal q pa s = none →
          (v.toNat ≤ s.readNat pa 8 → Happens (.nelturFlit f) s (kept (.answer f.cref (BitVec.ofNat 64 (s.readNat pa 8)) 0))) ∧
          (s.readNat pa 8 < v.toNat → Happens (.nelturFlit f) s fun t => SameBytes s t ∧ t.hub.sent = s.hub.sent ∧
            t.hub.peerWaits = s.hub.peerWaits.map (judgePeerWait s) ++
              [⟨f.src, s.nextId, f.cref, f.world, pa, v, l.map (· + s.now), .held⟩])) ∧
        (f.op = .counterRead → (ctrRefusal q pa s = none →
            Happens (.nelturFlit f) s (kept (.answer f.cref (BitVec.ofNat 64 (s.readNat pa 8)) 0))) ∧
          ∀ code, ctrRefusal q pa s = some code → Happens (.nelturFlit f) s (kept (.answer f.cref 0 code))) ∧
        (∀ bs, f.op = .copyWrite bs → (∀ x, pa ≤ x → x < pa + bs.length → takesStore s q x) → Happens (.nelturFlit f) s fun t =>
          takes (.answer f.cref 0 0) t ∧ t.readMem pa bs.length = bs ∧ ∀ x, x < pa ∨ pa + bs.length ≤ x → t.byteAt x = s.byteAt x) ∧
        ∀ m, f.op = .copyRead m → (s.readFault q pa m = none → Happens (.nelturFlit f) s fun t => SameBytes s t ∧
            nextSeq f.src t = f.seq + 1 ∧ ∃ xs : List (List Byte), xs.flatten = s.readMem pa m ∧ (∀ x ∈ xs, x.length ≤ 112) ∧
              t.hub.sent = s.hub.sent ++ xs.mapIdx fun i x => answer i (.bytes f.cref x 0)) ∧
          ∀ x, s.readFault q pa m = some x → Happens (.nelturFlit f) s (kept (.bytes f.cref [] x.1)))) ∧
    Happens (.haltResume stop) s fun t => SameBytes s t ∧
      (t.part p).savedCores = (s.part p).savedCores.map (fun r =>
        if r.halted = true ∧ r.stop = stop then { r with halted := false, stopped := 0 } else r) ∧
      (∀ c k r, NMap.get? (s.cluster c).cores k = some r →
        NMap.get? (t.cluster c).cores k = some (if r.halted = true ∧ r.stop = stop then { r with halted := false, stopped := 0 } else r)) ∧
      ∀ h, s.thread? p = some h → (∀ g ∈ s.threads, g.tid = p → g = h) → matrixRuns h.part s = true → coreHalted h s = true →
        coreHalted h t = false →
        (contextWhole h = true → t.thread? p = some (State.thawThread h)) ∧
        (contextWhole h = false → ∃ g, t.thread? p = some g ∧ g.stall = some .recovery ∧
          ∃ e ∈ (t.part h.part).errors, e.tid = p ∧ e.save = true)
end

