-- ==== Sys2Proof/Laws/Maps.lean ====
section
/-! SUPPORT. Keyed maps, sets of numbers, little-endian numbers and the fields of capabilities: what each operation leaves to read. -/

namespace Sys2Proof.Machine

open Sys2Proof

/-! ## Keyed maps -/

theorem NMap.get?_set {α : Type} (m : NMap α) (k j : Nat) (x : α) : NMap.get? (NMap.set m k x) j = if j = k then some x else NMap.get? m j := by
  induction m with
  | nil => simp [NMap.set, NMap.get?]
  | cons c r ih =>
    obtain ⟨i, y⟩ := c
    simp only [NMap.set]
    split
    · simp [NMap.get?]
    · split
      · subst k; simp only [NMap.get?]; split <;> rfl
      · simp only [NMap.get?, ih]
        split
        · rw [if_neg (by omega)]
        · rfl

theorem NMap.get?_set_self {α : Type} (m : NMap α) (k : Nat) (x : α) : NMap.get? (NMap.set m k x) k = some x := by simp [NMap.get?_set]

theorem NMap.get?_set_ne {α : Type} (m : NMap α) {k j : Nat} (x : α) (h : j ≠ k) : NMap.get? (NMap.set m k x) j = NMap.get? m j := by
  simp [NMap.get?_set, h]

theorem NMap.getD_set_self {α : Type} (m : NMap α) (k : Nat) (x y : α) : NMap.getD (NMap.set m k x) k y = x := by
  simp [NMap.getD, NMap.get?_set]

theorem NMap.getD_set_ne {α : Type} (m : NMap α) {k j : Nat} (x y : α) (h : j ≠ k) : NMap.getD (NMap.set m k x) j y = NMap.getD m j y := by
  simp [NMap.getD, NMap.get?_set, h]

theorem NMap.get?_del {α : Type} (m : NMap α) (k j : Nat) : NMap.get? (NMap.del m k) j = if j = k then none else NMap.get? m j := by
  induction m with
  | nil => simp [NMap.del, NMap.get?]
  | cons c r ih =>
    obtain ⟨i, y⟩ := c
    unfold NMap.del at ih ⊢
    by_cases h : i = k
    · subst h
      rw [List.filter_cons_of_neg (by simp), ih]
      by_cases g : j = i <;> simp [NMap.get?, g]
    · rw [List.filter_cons_of_pos (by simpa using h)]
      simp only [NMap.get?, ih]
      split
      · rw [if_neg (by omega)]
      · rfl

/-- A map with one value at each of a list of keys. -/
theorem NMap.get?_const {α : Type} (x : α) (l : List Nat) (k : Nat) : NMap.get? (l.map fun j => (j, x)) k = if k ∈ l then some x else none := by
  induction l with
  | nil => simp [NMap.get?]
  | cons j r ih =>
    simp only [List.map_cons, NMap.get?, ih, List.mem_cons]
    by_cases h : k = j <;> simp [h]

theorem NMap.mem_of_get? {α : Type} {m : NMap α} {k : Nat} {x : α} (h : NMap.get? m k = some x) : (k, x) ∈ m := by
  induction m with
  | nil => simp [NMap.get?] at h
  | cons c r ih =>
    obtain ⟨i, y⟩ := c
    simp only [NMap.get?] at h
    split at h
    · subst i; obtain rfl := Option.some.inj h; exact List.mem_cons_self
    · exact List.mem_cons_of_mem _ (ih h)

/-! ## Sets of numbers -/

theorem NSet.mem_add (m : List Nat) (k j : Nat) : j ∈ NSet.add m k ↔ j = k ∨ j ∈ m := by
  induction m with
  | nil => simp [NSet.add]
  | cons i r ih =>
    simp only [NSet.add]
    split
    · simp
    · split
      · subst k; simp
      · simp only [List.mem_cons, ih]; tauto

theorem NSet.mem_del (m : List Nat) (k j : Nat) : j ∈ NSet.del m k ↔ j ∈ m ∧ j ≠ k := by simp [NSet.del]

/-! ## Little-endian numbers -/

theorem toLe_length (n x : Nat) : (toLe n x).length = n := by
  induction n generalizing x with
  | zero => rfl
  | succ n ih => simp [toLe, ih]

theorem leNat_toLe (n x : Nat) : leNat (toLe n x) = x % 256 ^ n := by
  induction n generalizing x with
  | zero => simp [toLe, leNat, Nat.mod_one]
  | succ n ih =>
    have h : (BitVec.ofNat 8 (x % 256)).toNat = x % 256 := by simp
    rw [toLe, leNat, ih, h, Nat.pow_succ', Nat.mod_mul]

/-! ## Fields of capabilities -/

@[simp] theorem Cap.ofInt_tag (v : Word64) : (Cap.ofInt v).tag = false := rfl

@[simp] theorem Cap.ofInt_cursor (v : Word64) : (Cap.ofInt v).cursor = v := by
  apply BitVec.eq_of_toNat_eq
  simp only [Cap.ofInt, Cap.cursor, BitVec.extractLsb'_toNat, BitVec.toNat_setWidth, Nat.shiftRight_zero]
  have := v.isLt
  omega

@[simp] theorem Cap.setCursor_tag (c : Cap) (v : Word64) : (c.setCursor v).tag = c.tag := rfl

@[simp] theorem Cap.setCursor_cursor (c : Cap) (v : Word64) : (c.setCursor v).cursor = v := by
  apply BitVec.eq_of_getLsbD_eq
  intro i hi
  simp only [Cap.setCursor, Cap.cursor, BitVec.getLsbD_extractLsb', BitVec.getLsbD_append, Nat.zero_add, hi]
  simp

theorem Cap.setCursor_high (c : Cap) (v : Word64) : (c.setCursor v).bits.extractLsb' 64 64 = c.bits.extractLsb' 64 64 := by
  apply BitVec.eq_of_getLsbD_eq
  intro i hi
  simp only [Cap.setCursor, BitVec.getLsbD_extractLsb', BitVec.getLsbD_append, hi, decide_true, Bool.true_and]
  rw [if_neg (by omega), show 64 + i - 64 = i by omega]
  simp [hi]

@[simp] theorem Cap.setPerm_tag (c : Cap) (p : BitVec 9) : (c.setPerm p).tag = c.tag := rfl

@[simp] theorem Cap.setSeal_tag (c : Cap) (x : Bool) : (c.setSeal x).tag = c.tag := rfl

@[simp] theorem Cap.setPerm_perm (c : Cap) (p : BitVec 9) : (c.setPerm p).perm = p := by
  apply BitVec.eq_of_getLsbD_eq
  intro i hi
  simp only [Cap.setPerm, Cap.perm, BitVec.getLsbD_extractLsb', BitVec.getLsbD_append, hi]
  rw [if_pos (by omega), if_neg (by omega), show 116 + i - 116 = i by omega]
  simp

@[simp] theorem Cap.setPerm_cursor (c : Cap) (p : BitVec 9) : (c.setPerm p).cursor = c.cursor := by
  apply BitVec.eq_of_getLsbD_eq
  intro i hi
  simp only [Cap.setPerm, Cap.cursor, BitVec.getLsbD_extractLsb', BitVec.getLsbD_append, hi, Nat.zero_add]
  rw [if_pos (by omega)]
  simp [show i < 116 by omega]

@[simp] theorem Cap.setSeal_cursor (c : Cap) (x : Bool) : (c.setSeal x).cursor = c.cursor := Cap.setPerm_cursor ..

end Sys2Proof.Machine
end

