-- ==== Sys2Proof/Laws/State.lean ====
section
/-! SUPPORT. One lemma per field per shared update of the state. -/

namespace Sys2Proof.Machine

open Sys2Proof

@[simp] theorem State.modCtx_rest (s : State) (f : Ctx → Ctx) : (s.modCtx f).rest = s.rest := rfl
@[simp] theorem State.modCtx_mem (s : State) (f : Ctx → Ctx) : (s.modCtx f).mem = s.mem := rfl
@[simp] theorem State.modCtx_tags (s : State) (f : Ctx → Ctx) : (s.modCtx f).tags = s.tags := rfl
@[simp] theorem State.modCtx_ctrLines (s : State) (f : Ctx → Ctx) : (s.modCtx f).ctrLines = s.ctrLines := rfl
@[simp] theorem State.modCtx_poison (s : State) (f : Ctx → Ctx) : (s.modCtx f).poison = s.poison := rfl
@[simp] theorem State.modCtx_broken (s : State) (f : Ctx → Ctx) : (s.modCtx f).broken = s.broken := rfl
@[simp] theorem State.modCtx_seals (s : State) (f : Ctx → Ctx) : (s.modCtx f).seals = s.seals := rfl
@[simp] theorem State.modCtx_worlds (s : State) (f : Ctx → Ctx) : (s.modCtx f).worlds = s.worlds := rfl
@[simp] theorem State.modCtx_parts (s : State) (f : Ctx → Ctx) : (s.modCtx f).parts = s.parts := rfl
@[simp] theorem State.modCtx_clusters (s : State) (f : Ctx → Ctx) : (s.modCtx f).clusters = s.clusters := rfl
@[simp] theorem State.modCtx_hub (s : State) (f : Ctx → Ctx) : (s.modCtx f).hub = s.hub := rfl
@[simp] theorem State.modCtx_launches (s : State) (f : Ctx → Ctx) : (s.modCtx f).launches = s.launches := rfl
@[simp] theorem State.modCtx_hostWaits (s : State) (f : Ctx → Ctx) : (s.modCtx f).hostWaits = s.hostWaits := rfl
@[simp] theorem State.modCtx_sheaf (s : State) (f : Ctx → Ctx) : (s.modCtx f).sheaf = s.sheaf := rfl
@[simp] theorem State.modCtx_swards (s : State) (f : Ctx → Ctx) : (s.modCtx f).swards = s.swards := rfl
@[simp] theorem State.modCtx_leavers (s : State) (f : Ctx → Ctx) : (s.modCtx f).leavers = s.leavers := rfl
@[simp] theorem State.modCtx_recAreas (s : State) (f : Ctx → Ctx) : (s.modCtx f).recAreas = s.recAreas := rfl
@[simp] theorem State.modCtx_now (s : State) (f : Ctx → Ctx) : (s.modCtx f).now = s.now := rfl
@[simp] theorem State.modCtx_cycle (s : State) (f : Ctx → Ctx) : (s.modCtx f).cycle = s.cycle := rfl
@[simp] theorem State.modCtx_inputs (s : State) (f : Ctx → Ctx) : (s.modCtx f).inputs = s.inputs := rfl
@[simp] theorem State.modCtx_tick (s : State) (f : Ctx → Ctx) : (s.modCtx f).tick = s.tick := rfl
@[simp] theorem State.modCtx_nextId (s : State) (f : Ctx → Ctx) : (s.modCtx f).nextId = s.nextId := rfl
@[simp] theorem State.modThr_rest (s : State) (f : Thread → Thread) : (s.modThr f).rest = s.rest := rfl
@[simp] theorem State.modThr_mem (s : State) (f : Thread → Thread) : (s.modThr f).mem = s.mem := rfl
@[simp] theorem State.modThr_tags (s : State) (f : Thread → Thread) : (s.modThr f).tags = s.tags := rfl
@[simp] theorem State.modThr_ctrLines (s : State) (f : Thread → Thread) : (s.modThr f).ctrLines = s.ctrLines := rfl
@[simp] theorem State.modThr_poison (s : State) (f : Thread → Thread) : (s.modThr f).poison = s.poison := rfl
@[simp] theorem State.modThr_broken (s : State) (f : Thread → Thread) : (s.modThr f).broken = s.broken := rfl
@[simp] theorem State.modThr_seals (s : State) (f : Thread → Thread) : (s.modThr f).seals = s.seals := rfl
@[simp] theorem State.modThr_worlds (s : State) (f : Thread → Thread) : (s.modThr f).worlds = s.worlds := rfl
@[simp] theorem State.modThr_parts (s : State) (f : Thread → Thread) : (s.modThr f).parts = s.parts := rfl
@[simp] theorem State.modThr_clusters (s : State) (f : Thread → Thread) : (s.modThr f).clusters = s.clusters := rfl
@[simp] theorem State.modThr_hub (s : State) (f : Thread → Thread) : (s.modThr f).hub = s.hub := rfl
@[simp] theorem State.modThr_launches (s : State) (f : Thread → Thread) : (s.modThr f).launches = s.launches := rfl
@[simp] theorem State.modThr_hostWaits (s : State) (f : Thread → Thread) : (s.modThr f).hostWaits = s.hostWaits := rfl
@[simp] theorem State.modThr_sheaf (s : State) (f : Thread → Thread) : (s.modThr f).sheaf = s.sheaf := rfl
@[simp] theorem State.modThr_swards (s : State) (f : Thread → Thread) : (s.modThr f).swards = s.swards := rfl
@[simp] theorem State.modThr_leavers (s : State) (f : Thread → Thread) : (s.modThr f).leavers = s.leavers := rfl
@[simp] theorem State.modThr_recAreas (s : State) (f : Thread → Thread) : (s.modThr f).recAreas = s.recAreas := rfl
@[simp] theorem State.modThr_now (s : State) (f : Thread → Thread) : (s.modThr f).now = s.now := rfl
@[simp] theorem State.modThr_cycle (s : State) (f : Thread → Thread) : (s.modThr f).cycle = s.cycle := rfl
@[simp] theorem State.modThr_inputs (s : State) (f : Thread → Thread) : (s.modThr f).inputs = s.inputs := rfl
@[simp] theorem State.modThr_tick (s : State) (f : Thread → Thread) : (s.modThr f).tick = s.tick := rfl
@[simp] theorem State.modThr_nextId (s : State) (f : Thread → Thread) : (s.modThr f).nextId = s.nextId := rfl
@[simp] theorem State.modHub_thr (s : State) (f : Hub → Hub) : (s.modHub f).thr = s.thr := rfl
@[simp] theorem State.modHub_rest (s : State) (f : Hub → Hub) : (s.modHub f).rest = s.rest := rfl
@[simp] theorem State.modHub_mem (s : State) (f : Hub → Hub) : (s.modHub f).mem = s.mem := rfl
@[simp] theorem State.modHub_tags (s : State) (f : Hub → Hub) : (s.modHub f).tags = s.tags := rfl
@[simp] theorem State.modHub_ctrLines (s : State) (f : Hub → Hub) : (s.modHub f).ctrLines = s.ctrLines := rfl
@[simp] theorem State.modHub_poison (s : State) (f : Hub → Hub) : (s.modHub f).poison = s.poison := rfl
@[simp] theorem State.modHub_broken (s : State) (f : Hub → Hub) : (s.modHub f).broken = s.broken := rfl
@[simp] theorem State.modHub_seals (s : State) (f : Hub → Hub) : (s.modHub f).seals = s.seals := rfl
@[simp] theorem State.modHub_worlds (s : State) (f : Hub → Hub) : (s.modHub f).worlds = s.worlds := rfl
@[simp] theorem State.modHub_parts (s : State) (f : Hub → Hub) : (s.modHub f).parts = s.parts := rfl
@[simp] theorem State.modHub_clusters (s : State) (f : Hub → Hub) : (s.modHub f).clusters = s.clusters := rfl
@[simp] theorem State.modHub_launches (s : State) (f : Hub → Hub) : (s.modHub f).launches = s.launches := rfl
@[simp] theorem State.modHub_hostWaits (s : State) (f : Hub → Hub) : (s.modHub f).hostWaits = s.hostWaits := rfl
@[simp] theorem State.modHub_sheaf (s : State) (f : Hub → Hub) : (s.modHub f).sheaf = s.sheaf := rfl
@[simp] theorem State.modHub_swards (s : State) (f : Hub → Hub) : (s.modHub f).swards = s.swards := rfl
@[simp] theorem State.modHub_leavers (s : State) (f : Hub → Hub) : (s.modHub f).leavers = s.leavers := rfl
@[simp] theorem State.modHub_recAreas (s : State) (f : Hub → Hub) : (s.modHub f).recAreas = s.recAreas := rfl
@[simp] theorem State.modHub_now (s : State) (f : Hub → Hub) : (s.modHub f).now = s.now := rfl
@[simp] theorem State.modHub_cycle (s : State) (f : Hub → Hub) : (s.modHub f).cycle = s.cycle := rfl
@[simp] theorem State.modHub_inputs (s : State) (f : Hub → Hub) : (s.modHub f).inputs = s.inputs := rfl
@[simp] theorem State.modHub_tick (s : State) (f : Hub → Hub) : (s.modHub f).tick = s.tick := rfl
@[simp] theorem State.modHub_nextId (s : State) (f : Hub → Hub) : (s.modHub f).nextId = s.nextId := rfl
@[simp] theorem State.setWorld_thr (s : State) (w : Nat) (x : World) : (s.setWorld w x).thr = s.thr := rfl
@[simp] theorem State.setWorld_rest (s : State) (w : Nat) (x : World) : (s.setWorld w x).rest = s.rest := rfl
@[simp] theorem State.setWorld_mem (s : State) (w : Nat) (x : World) : (s.setWorld w x).mem = s.mem := rfl
@[simp] theorem State.setWorld_tags (s : State) (w : Nat) (x : World) : (s.setWorld w x).tags = s.tags := rfl
@[simp] theorem State.setWorld_ctrLines (s : State) (w : Nat) (x : World) : (s.setWorld w x).ctrLines = s.ctrLines := rfl
@[simp] theorem State.setWorld_poison (s : State) (w : Nat) (x : World) : (s.setWorld w x).poison = s.poison := rfl
@[simp] theorem State.setWorld_broken (s : State) (w : Nat) (x : World) : (s.setWorld w x).broken = s.broken := rfl
@[simp] theorem State.setWorld_seals (s : State) (w : Nat) (x : World) : (s.setWorld w x).seals = s.seals := rfl
@[simp] theorem State.setWorld_parts (s : State) (w : Nat) (x : World) : (s.setWorld w x).parts = s.parts := rfl
@[simp] theorem State.setWorld_clusters (s : State) (w : Nat) (x : World) : (s.setWorld w x).clusters = s.clusters := rfl
@[simp] theorem State.setWorld_hub (s : State) (w : Nat) (x : World) : (s.setWorld w x).hub = s.hub := rfl
@[simp] theorem State.setWorld_launches (s : State) (w : Nat) (x : World) : (s.setWorld w x).launches = s.launches := rfl
@[simp] theorem State.setWorld_hostWaits (s : State) (w : Nat) (x : World) : (s.setWorld w x).hostWaits = s.hostWaits := rfl
@[simp] theorem State.setWorld_sheaf (s : State) (w : Nat) (x : World) : (s.setWorld w x).sheaf = s.sheaf := rfl
@[simp] theorem State.setWorld_swards (s : State) (w : Nat) (x : World) : (s.setWorld w x).swards = s.swards := rfl
@[simp] theorem State.setWorld_leavers (s : State) (w : Nat) (x : World) : (s.setWorld w x).leavers = s.leavers := rfl
@[simp] theorem State.setWorld_recAreas (s : State) (w : Nat) (x : World) : (s.setWorld w x).recAreas = s.recAreas := rfl
@[simp] theorem State.setWorld_now (s : State) (w : Nat) (x : World) : (s.setWorld w x).now = s.now := rfl
@[simp] theorem State.setWorld_cycle (s : State) (w : Nat) (x : World) : (s.setWorld w x).cycle = s.cycle := rfl
@[simp] theorem State.setWorld_inputs (s : State) (w : Nat) (x : World) : (s.setWorld w x).inputs = s.inputs := rfl
@[simp] theorem State.setWorld_tick (s : State) (w : Nat) (x : World) : (s.setWorld w x).tick = s.tick := rfl
@[simp] theorem State.setWorld_nextId (s : State) (w : Nat) (x : World) : (s.setWorld w x).nextId = s.nextId := rfl
@[simp] theorem State.modWorld_thr (s : State) (w : Nat) (f : World → World) : (s.modWorld w f).thr = s.thr := rfl
@[simp] theorem State.modWorld_rest (s : State) (w : Nat) (f : World → World) : (s.modWorld w f).rest = s.rest := rfl
@[simp] theorem State.modWorld_mem (s : State) (w : Nat) (f : World → World) : (s.modWorld w f).mem = s.mem := rfl
@[simp] theorem State.modWorld_tags (s : State) (w : Nat) (f : World → World) : (s.modWorld w f).tags = s.tags := rfl
@[simp] theorem State.modWorld_ctrLines (s : State) (w : Nat) (f : World → World) : (s.modWorld w f).ctrLines = s.ctrLines := rfl
@[simp] theorem State.modWorld_poison (s : State) (w : Nat) (f : World → World) : (s.modWorld w f).poison = s.poison := rfl
@[simp] theorem State.modWorld_broken (s : State) (w : Nat) (f : World → World) : (s.modWorld w f).broken = s.broken := rfl
@[simp] theorem State.modWorld_seals (s : State) (w : Nat) (f : World → World) : (s.modWorld w f).seals = s.seals := rfl
@[simp] theorem State.modWorld_parts (s : State) (w : Nat) (f : World → World) : (s.modWorld w f).parts = s.parts := rfl
@[simp] theorem State.modWorld_clusters (s : State) (w : Nat) (f : World → World) : (s.modWorld w f).clusters = s.clusters := rfl
@[simp] theorem State.modWorld_hub (s : State) (w : Nat) (f : World → World) : (s.modWorld w f).hub = s.hub := rfl
@[simp] theorem State.modWorld_launches (s : State) (w : Nat) (f : World → World) : (s.modWorld w f).launches = s.launches := rfl
@[simp] theorem State.modWorld_hostWaits (s : State) (w : Nat) (f : World → World) : (s.modWorld w f).hostWaits = s.hostWaits := rfl
@[simp] theorem State.modWorld_sheaf (s : State) (w : Nat) (f : World → World) : (s.modWorld w f).sheaf = s.sheaf := rfl
@[simp] theorem State.modWorld_swards (s : State) (w : Nat) (f : World → World) : (s.modWorld w f).swards = s.swards := rfl
@[simp] theorem State.modWorld_leavers (s : State) (w : Nat) (f : World → World) : (s.modWorld w f).leavers = s.leavers := rfl
@[simp] theorem State.modWorld_recAreas (s : State) (w : Nat) (f : World → World) : (s.modWorld w f).recAreas = s.recAreas := rfl
@[simp] theorem State.modWorld_now (s : State) (w : Nat) (f : World → World) : (s.modWorld w f).now = s.now := rfl
@[simp] theorem State.modWorld_cycle (s : State) (w : Nat) (f : World → World) : (s.modWorld w f).cycle = s.cycle := rfl
@[simp] theorem State.modWorld_inputs (s : State) (w : Nat) (f : World → World) : (s.modWorld w f).inputs = s.inputs := rfl
@[simp] theorem State.modWorld_tick (s : State) (w : Nat) (f : World → World) : (s.modWorld w f).tick = s.tick := rfl
@[simp] theorem State.modWorld_nextId (s : State) (w : Nat) (f : World → World) : (s.modWorld w f).nextId = s.nextId := rfl
@[simp] theorem State.setPart_thr (s : State) (p : Nat) (x : Partition) : (s.setPart p x).thr = s.thr := rfl
@[simp] theorem State.setPart_rest (s : State) (p : Nat) (x : Partition) : (s.setPart p x).rest = s.rest := rfl
@[simp] theorem State.setPart_mem (s : State) (p : Nat) (x : Partition) : (s.setPart p x).mem = s.mem := rfl
@[simp] theorem State.setPart_tags (s : State) (p : Nat) (x : Partition) : (s.setPart p x).tags = s.tags := rfl
@[simp] theorem State.setPart_ctrLines (s : State) (p : Nat) (x : Partition) : (s.setPart p x).ctrLines = s.ctrLines := rfl
@[simp] theorem State.setPart_poison (s : State) (p : Nat) (x : Partition) : (s.setPart p x).poison = s.poison := rfl
@[simp] theorem State.setPart_broken (s : State) (p : Nat) (x : Partition) : (s.setPart p x).broken = s.broken := rfl
@[simp] theorem State.setPart_seals (s : State) (p : Nat) (x : Partition) : (s.setPart p x).seals = s.seals := rfl
@[simp] theorem State.setPart_worlds (s : State) (p : Nat) (x : Partition) : (s.setPart p x).worlds = s.worlds := rfl
@[simp] theorem State.setPart_clusters (s : State) (p : Nat) (x : Partition) : (s.setPart p x).clusters = s.clusters := rfl
@[simp] theorem State.setPart_hub (s : State) (p : Nat) (x : Partition) : (s.setPart p x).hub = s.hub := rfl
@[simp] theorem State.setPart_launches (s : State) (p : Nat) (x : Partition) : (s.setPart p x).launches = s.launches := rfl
@[simp] theorem State.setPart_hostWaits (s : State) (p : Nat) (x : Partition) : (s.setPart p x).hostWaits = s.hostWaits := rfl
@[simp] theorem State.setPart_sheaf (s : State) (p : Nat) (x : Partition) : (s.setPart p x).sheaf = s.sheaf := rfl
@[simp] theorem State.setPart_swards (s : State) (p : Nat) (x : Partition) : (s.setPart p x).swards = s.swards := rfl
@[simp] theorem State.setPart_leavers (s : State) (p : Nat) (x : Partition) : (s.setPart p x).leavers = s.leavers := rfl
@[simp] theorem State.setPart_recAreas (s : State) (p : Nat) (x : Partition) : (s.setPart p x).recAreas = s.recAreas := rfl
@[simp] theorem State.setPart_now (s : State) (p : Nat) (x : Partition) : (s.setPart p x).now = s.now := rfl
@[simp] theorem State.setPart_cycle (s : State) (p : Nat) (x : Partition) : (s.setPart p x).cycle = s.cycle := rfl
@[simp] theorem State.setPart_inputs (s : State) (p : Nat) (x : Partition) : (s.setPart p x).inputs = s.inputs := rfl
@[simp] theorem State.setPart_tick (s : State) (p : Nat) (x : Partition) : (s.setPart p x).tick = s.tick := rfl
@[simp] theorem State.setPart_nextId (s : State) (p : Nat) (x : Partition) : (s.setPart p x).nextId = s.nextId := rfl
@[simp] theorem State.modPart_thr (s : State) (p : Nat) (f : Partition → Partition) : (s.modPart p f).thr = s.thr := rfl
@[simp] theorem State.modPart_rest (s : State) (p : Nat) (f : Partition → Partition) : (s.modPart p f).rest = s.rest := rfl
@[simp] theorem State.modPart_mem (s : State) (p : Nat) (f : Partition → Partition) : (s.modPart p f).mem = s.mem := rfl
@[simp] theorem State.modPart_tags (s : State) (p : Nat) (f : Partition → Partition) : (s.modPart p f).tags = s.tags := rfl
@[simp] theorem State.modPart_ctrLines (s : State) (p : Nat) (f : Partition → Partition) : (s.modPart p f).ctrLines = s.ctrLines := rfl
@[simp] theorem State.modPart_poison (s : State) (p : Nat) (f : Partition → Partition) : (s.modPart p f).poison = s.poison := rfl
@[simp] theorem State.modPart_broken (s : State) (p : Nat) (f : Partition → Partition) : (s.modPart p f).broken = s.broken := rfl
@[simp] theorem State.modPart_seals (s : State) (p : Nat) (f : Partition → Partition) : (s.modPart p f).seals = s.seals := rfl
@[simp] theorem State.modPart_worlds (s : State) (p : Nat) (f : Partition → Partition) : (s.modPart p f).worlds = s.worlds := rfl
@[simp] theorem State.modPart_clusters (s : State) (p : Nat) (f : Partition → Partition) : (s.modPart p f).clusters = s.clusters := rfl
@[simp] theorem State.modPart_hub (s : State) (p : Nat) (f : Partition → Partition) : (s.modPart p f).hub = s.hub := rfl
@[simp] theorem State.modPart_launches (s : State) (p : Nat) (f : Partition → Partition) : (s.modPart p f).launches = s.launches := rfl
@[simp] theorem State.modPart_hostWaits (s : State) (p : Nat) (f : Partition → Partition) : (s.modPart p f).hostWaits = s.hostWaits := rfl
@[simp] theorem State.modPart_sheaf (s : State) (p : Nat) (f : Partition → Partition) : (s.modPart p f).sheaf = s.sheaf := rfl
@[simp] theorem State.modPart_swards (s : State) (p : Nat) (f : Partition → Partition) : (s.modPart p f).swards = s.swards := rfl
@[simp] theorem State.modPart_leavers (s : State) (p : Nat) (f : Partition → Partition) : (s.modPart p f).leavers = s.leavers := rfl
@[simp] theorem State.modPart_recAreas (s : State) (p : Nat) (f : Partition → Partition) : (s.modPart p f).recAreas = s.recAreas := rfl
@[simp] theorem State.modPart_now (s : State) (p : Nat) (f : Partition → Partition) : (s.modPart p f).now = s.now := rfl
@[simp] theorem State.modPart_cycle (s : State) (p : Nat) (f : Partition → Partition) : (s.modPart p f).cycle = s.cycle := rfl
@[simp] theorem State.modPart_inputs (s : State) (p : Nat) (f : Partition → Partition) : (s.modPart p f).inputs = s.inputs := rfl
@[simp] theorem State.modPart_tick (s : State) (p : Nat) (f : Partition → Partition) : (s.modPart p f).tick = s.tick := rfl
@[simp] theorem State.modPart_nextId (s : State) (p : Nat) (f : Partition → Partition) : (s.modPart p f).nextId = s.nextId := rfl
@[simp] theorem State.setCluster_thr (s : State) (c : Nat) (x : Cluster) : (s.setCluster c x).thr = s.thr := rfl
@[simp] theorem State.setCluster_rest (s : State) (c : Nat) (x : Cluster) : (s.setCluster c x).rest = s.rest := rfl
@[simp] theorem State.setCluster_mem (s : State) (c : Nat) (x : Cluster) : (s.setCluster c x).mem = s.mem := rfl
@[simp] theorem State.setCluster_tags (s : State) (c : Nat) (x : Cluster) : (s.setCluster c x).tags = s.tags := rfl
@[simp] theorem State.setCluster_ctrLines (s : State) (c : Nat) (x : Cluster) : (s.setCluster c x).ctrLines = s.ctrLines := rfl
@[simp] theorem State.setCluster_poison (s : State) (c : Nat) (x : Cluster) : (s.setCluster c x).poison = s.poison := rfl
@[simp] theorem State.setCluster_broken (s : State) (c : Nat) (x : Cluster) : (s.setCluster c x).broken = s.broken := rfl
@[simp] theorem State.setCluster_seals (s : State) (c : Nat) (x : Cluster) : (s.setCluster c x).seals = s.seals := rfl
@[simp] theorem State.setCluster_worlds (s : State) (c : Nat) (x : Cluster) : (s.setCluster c x).worlds = s.worlds := rfl
@[simp] theorem State.setCluster_parts (s : State) (c : Nat) (x : Cluster) : (s.setCluster c x).parts = s.parts := rfl
@[simp] theorem State.setCluster_hub (s : State) (c : Nat) (x : Cluster) : (s.setCluster c x).hub = s.hub := rfl
@[simp] theorem State.setCluster_launches (s : State) (c : Nat) (x : Cluster) : (s.setCluster c x).launches = s.launches := rfl
@[simp] theorem State.setCluster_hostWaits (s : State) (c : Nat) (x : Cluster) : (s.setCluster c x).hostWaits = s.hostWaits := rfl
@[simp] theorem State.setCluster_sheaf (s : State) (c : Nat) (x : Cluster) : (s.setCluster c x).sheaf = s.sheaf := rfl
@[simp] theorem State.setCluster_swards (s : State) (c : Nat) (x : Cluster) : (s.setCluster c x).swards = s.swards := rfl
@[simp] theorem State.setCluster_leavers (s : State) (c : Nat) (x : Cluster) : (s.setCluster c x).leavers = s.leavers := rfl
@[simp] theorem State.setCluster_recAreas (s : State) (c : Nat) (x : Cluster) : (s.setCluster c x).recAreas = s.recAreas := rfl
@[simp] theorem State.setCluster_now (s : State) (c : Nat) (x : Cluster) : (s.setCluster c x).now = s.now := rfl
@[simp] theorem State.setCluster_cycle (s : State) (c : Nat) (x : Cluster) : (s.setCluster c x).cycle = s.cycle := rfl
@[simp] theorem State.setCluster_inputs (s : State) (c : Nat) (x : Cluster) : (s.setCluster c x).inputs = s.inputs := rfl
@[simp] theorem State.setCluster_tick (s : State) (c : Nat) (x : Cluster) : (s.setCluster c x).tick = s.tick := rfl
@[simp] theorem State.setCluster_nextId (s : State) (c : Nat) (x : Cluster) : (s.setCluster c x).nextId = s.nextId := rfl
@[simp] theorem State.modCluster_thr (s : State) (c : Nat) (f : Cluster → Cluster) : (s.modCluster c f).thr = s.thr := rfl
@[simp] theorem State.modCluster_rest (s : State) (c : Nat) (f : Cluster → Cluster) : (s.modCluster c f).rest = s.rest := rfl
@[simp] theorem State.modCluster_mem (s : State) (c : Nat) (f : Cluster → Cluster) : (s.modCluster c f).mem = s.mem := rfl
@[simp] theorem State.modCluster_tags (s : State) (c : Nat) (f : Cluster → Cluster) : (s.modCluster c f).tags = s.tags := rfl
@[simp] theorem State.modCluster_ctrLines (s : State) (c : Nat) (f : Cluster → Cluster) : (s.modCluster c f).ctrLines = s.ctrLines := rfl
@[simp] theorem State.modCluster_poison (s : State) (c : Nat) (f : Cluster → Cluster) : (s.modCluster c f).poison = s.poison := rfl
@[simp] theorem State.modCluster_broken (s : State) (c : Nat) (f : Cluster → Cluster) : (s.modCluster c f).broken = s.broken := rfl
@[simp] theorem State.modCluster_seals (s : State) (c : Nat) (f : Cluster → Cluster) : (s.modCluster c f).seals = s.seals := rfl
@[simp] theorem State.modCluster_worlds (s : State) (c : Nat) (f : Cluster → Cluster) : (s.modCluster c f).worlds = s.worlds := rfl
@[simp] theorem State.modCluster_parts (s : State) (c : Nat) (f : Cluster → Cluster) : (s.modCluster c f).parts = s.parts := rfl
@[simp] theorem State.modCluster_hub (s : State) (c : Nat) (f : Cluster → Cluster) : (s.modCluster c f).hub = s.hub := rfl
@[simp] theorem State.modCluster_launches (s : State) (c : Nat) (f : Cluster → Cluster) : (s.modCluster c f).launches = s.launches := rfl
@[simp] theorem State.modCluster_hostWaits (s : State) (c : Nat) (f : Cluster → Cluster) : (s.modCluster c f).hostWaits = s.hostWaits := rfl
@[simp] theorem State.modCluster_sheaf (s : State) (c : Nat) (f : Cluster → Cluster) : (s.modCluster c f).sheaf = s.sheaf := rfl
@[simp] theorem State.modCluster_swards (s : State) (c : Nat) (f : Cluster → Cluster) : (s.modCluster c f).swards = s.swards := rfl
@[simp] theorem State.modCluster_leavers (s : State) (c : Nat) (f : Cluster → Cluster) : (s.modCluster c f).leavers = s.leavers := rfl
@[simp] theorem State.modCluster_recAreas (s : State) (c : Nat) (f : Cluster → Cluster) : (s.modCluster c f).recAreas = s.recAreas := rfl
@[simp] theorem State.modCluster_now (s : State) (c : Nat) (f : Cluster → Cluster) : (s.modCluster c f).now = s.now := rfl
@[simp] theorem State.modCluster_cycle (s : State) (c : Nat) (f : Cluster → Cluster) : (s.modCluster c f).cycle = s.cycle := rfl
@[simp] theorem State.modCluster_inputs (s : State) (c : Nat) (f : Cluster → Cluster) : (s.modCluster c f).inputs = s.inputs := rfl
@[simp] theorem State.modCluster_tick (s : State) (c : Nat) (f : Cluster → Cluster) : (s.modCluster c f).tick = s.tick := rfl
@[simp] theorem State.modCluster_nextId (s : State) (c : Nat) (f : Cluster → Cluster) : (s.modCluster c f).nextId = s.nextId := rfl
@[simp] theorem State.pokeMem_thr (s : State) (a : Nat) (bs : List Byte) : (s.pokeMem a bs).thr = s.thr := rfl
@[simp] theorem State.pokeMem_rest (s : State) (a : Nat) (bs : List Byte) : (s.pokeMem a bs).rest = s.rest := rfl
@[simp] theorem State.pokeMem_tags (s : State) (a : Nat) (bs : List Byte) : (s.pokeMem a bs).tags = s.tags := rfl
@[simp] theorem State.pokeMem_ctrLines (s : State) (a : Nat) (bs : List Byte) : (s.pokeMem a bs).ctrLines = s.ctrLines := rfl
@[simp] theorem State.pokeMem_poison (s : State) (a : Nat) (bs : List Byte) : (s.pokeMem a bs).poison = s.poison := rfl
@[simp] theorem State.pokeMem_broken (s : State) (a : Nat) (bs : List Byte) : (s.pokeMem a bs).broken = s.broken := rfl
@[simp] theorem State.pokeMem_seals (s : State) (a : Nat) (bs : List Byte) : (s.pokeMem a bs).seals = s.seals := rfl
@[simp] theorem State.pokeMem_worlds (s : State) (a : Nat) (bs : List Byte) : (s.pokeMem a bs).worlds = s.worlds := rfl
@[simp] theorem State.pokeMem_parts (s : State) (a : Nat) (bs : List Byte) : (s.pokeMem a bs).parts = s.parts := rfl
@[simp] theorem State.pokeMem_clusters (s : State) (a : Nat) (bs : List Byte) : (s.pokeMem a bs).clusters = s.clusters := rfl
@[simp] theorem State.pokeMem_hub (s : State) (a : Nat) (bs : List Byte) : (s.pokeMem a bs).hub = s.hub := rfl
@[simp] theorem State.pokeMem_launches (s : State) (a : Nat) (bs : List Byte) : (s.pokeMem a bs).launches = s.launches := rfl
@[simp] theorem State.pokeMem_hostWaits (s : State) (a : Nat) (bs : List Byte) : (s.pokeMem a bs).hostWaits = s.hostWaits := rfl
@[simp] theorem State.pokeMem_sheaf (s : State) (a : Nat) (bs : List Byte) : (s.pokeMem a bs).sheaf = s.sheaf := rfl
@[simp] theorem State.pokeMem_swards (s : State) (a : Nat) (bs : List Byte) : (s.pokeMem a bs).swards = s.swards := rfl
@[simp] theorem State.pokeMem_leavers (s : State) (a : Nat) (bs : List Byte) : (s.pokeMem a bs).leavers = s.leavers := rfl
@[simp] theorem State.pokeMem_recAreas (s : State) (a : Nat) (bs : List Byte) : (s.pokeMem a bs).recAreas = s.recAreas := rfl
@[simp] theorem State.pokeMem_now (s : State) (a : Nat) (bs : List Byte) : (s.pokeMem a bs).now = s.now := rfl
@[simp] theorem State.pokeMem_cycle (s : State) (a : Nat) (bs : List Byte) : (s.pokeMem a bs).cycle = s.cycle := rfl
@[simp] theorem State.pokeMem_inputs (s : State) (a : Nat) (bs : List Byte) : (s.pokeMem a bs).inputs = s.inputs := rfl
@[simp] theorem State.pokeMem_tick (s : State) (a : Nat) (bs : List Byte) : (s.pokeMem a bs).tick = s.tick := rfl
@[simp] theorem State.pokeMem_nextId (s : State) (a : Nat) (bs : List Byte) : (s.pokeMem a bs).nextId = s.nextId := rfl
@[simp] theorem State.setTag_thr (s : State) (a : Nat) (x : Bool) : (s.setTag a x).thr = s.thr := rfl
@[simp] theorem State.setTag_rest (s : State) (a : Nat) (x : Bool) : (s.setTag a x).rest = s.rest := rfl
@[simp] theorem State.setTag_mem (s : State) (a : Nat) (x : Bool) : (s.setTag a x).mem = s.mem := rfl
@[simp] theorem State.setTag_ctrLines (s : State) (a : Nat) (x : Bool) : (s.setTag a x).ctrLines = s.ctrLines := rfl
@[simp] theorem State.setTag_poison (s : State) (a : Nat) (x : Bool) : (s.setTag a x).poison = s.poison := rfl
@[simp] theorem State.setTag_broken (s : State) (a : Nat) (x : Bool) : (s.setTag a x).broken = s.broken := rfl
@[simp] theorem State.setTag_seals (s : State) (a : Nat) (x : Bool) : (s.setTag a x).seals = s.seals := rfl
@[simp] theorem State.setTag_worlds (s : State) (a : Nat) (x : Bool) : (s.setTag a x).worlds = s.worlds := rfl
@[simp] theorem State.setTag_parts (s : State) (a : Nat) (x : Bool) : (s.setTag a x).parts = s.parts := rfl
@[simp] theorem State.setTag_clusters (s : State) (a : Nat) (x : Bool) : (s.setTag a x).clusters = s.clusters := rfl
@[simp] theorem State.setTag_hub (s : State) (a : Nat) (x : Bool) : (s.setTag a x).hub = s.hub := rfl
@[simp] theorem State.setTag_launches (s : State) (a : Nat) (x : Bool) : (s.setTag a x).launches = s.launches := rfl
@[simp] theorem State.setTag_hostWaits (s : State) (a : Nat) (x : Bool) : (s.setTag a x).hostWaits = s.hostWaits := rfl
@[simp] theorem State.setTag_sheaf (s : State) (a : Nat) (x : Bool) : (s.setTag a x).sheaf = s.sheaf := rfl
@[simp] theorem State.setTag_swards (s : State) (a : Nat) (x : Bool) : (s.setTag a x).swards = s.swards := rfl
@[simp] theorem State.setTag_leavers (s : State) (a : Nat) (x : Bool) : (s.setTag a x).leavers = s.leavers := rfl
@[simp] theorem State.setTag_recAreas (s : State) (a : Nat) (x : Bool) : (s.setTag a x).recAreas = s.recAreas := rfl
@[simp] theorem State.setTag_now (s : State) (a : Nat) (x : Bool) : (s.setTag a x).now = s.now := rfl
@[simp] theorem State.setTag_cycle (s : State) (a : Nat) (x : Bool) : (s.setTag a x).cycle = s.cycle := rfl
@[simp] theorem State.setTag_inputs (s : State) (a : Nat) (x : Bool) : (s.setTag a x).inputs = s.inputs := rfl
@[simp] theorem State.setTag_tick (s : State) (a : Nat) (x : Bool) : (s.setTag a x).tick = s.tick := rfl
@[simp] theorem State.setTag_nextId (s : State) (a : Nat) (x : Bool) : (s.setTag a x).nextId = s.nextId := rfl
@[simp] theorem State.nextTick_thr (s : State) : (s.nextTick).thr = s.thr := rfl
@[simp] theorem State.nextTick_rest (s : State) : (s.nextTick).rest = s.rest := rfl
@[simp] theorem State.nextTick_mem (s : State) : (s.nextTick).mem = s.mem := rfl
@[simp] theorem State.nextTick_tags (s : State) : (s.nextTick).tags = s.tags := rfl
@[simp] theorem State.nextTick_ctrLines (s : State) : (s.nextTick).ctrLines = s.ctrLines := rfl
@[simp] theorem State.nextTick_poison (s : State) : (s.nextTick).poison = s.poison := rfl
@[simp] theorem State.nextTick_broken (s : State) : (s.nextTick).broken = s.broken := rfl
@[simp] theorem State.nextTick_seals (s : State) : (s.nextTick).seals = s.seals := rfl
@[simp] theorem State.nextTick_worlds (s : State) : (s.nextTick).worlds = s.worlds := rfl
@[simp] theorem State.nextTick_parts (s : State) : (s.nextTick).parts = s.parts := rfl
@[simp] theorem State.nextTick_clusters (s : State) : (s.nextTick).clusters = s.clusters := rfl
@[simp] theorem State.nextTick_hub (s : State) : (s.nextTick).hub = s.hub := rfl
@[simp] theorem State.nextTick_launches (s : State) : (s.nextTick).launches = s.launches := rfl
@[simp] theorem State.nextTick_hostWaits (s : State) : (s.nextTick).hostWaits = s.hostWaits := rfl
@[simp] theorem State.nextTick_sheaf (s : State) : (s.nextTick).sheaf = s.sheaf := rfl
@[simp] theorem State.nextTick_swards (s : State) : (s.nextTick).swards = s.swards := rfl
@[simp] theorem State.nextTick_leavers (s : State) : (s.nextTick).leavers = s.leavers := rfl
@[simp] theorem State.nextTick_recAreas (s : State) : (s.nextTick).recAreas = s.recAreas := rfl
@[simp] theorem State.nextTick_now (s : State) : (s.nextTick).now = s.now := rfl
@[simp] theorem State.nextTick_cycle (s : State) : (s.nextTick).cycle = s.cycle := rfl
@[simp] theorem State.nextTick_inputs (s : State) : (s.nextTick).inputs = s.inputs := rfl
@[simp] theorem State.nextTick_nextId (s : State) : (s.nextTick).nextId = s.nextId := rfl
@[simp] theorem State.clearStall_rest (s : State) : (s.clearStall).rest = s.rest := rfl
@[simp] theorem State.clearStall_mem (s : State) : (s.clearStall).mem = s.mem := rfl
@[simp] theorem State.clearStall_tags (s : State) : (s.clearStall).tags = s.tags := rfl
@[simp] theorem State.clearStall_ctrLines (s : State) : (s.clearStall).ctrLines = s.ctrLines := rfl
@[simp] theorem State.clearStall_poison (s : State) : (s.clearStall).poison = s.poison := rfl
@[simp] theorem State.clearStall_broken (s : State) : (s.clearStall).broken = s.broken := rfl
@[simp] theorem State.clearStall_seals (s : State) : (s.clearStall).seals = s.seals := rfl
@[simp] theorem State.clearStall_worlds (s : State) : (s.clearStall).worlds = s.worlds := rfl
@[simp] theorem State.clearStall_parts (s : State) : (s.clearStall).parts = s.parts := rfl
@[simp] theorem State.clearStall_clusters (s : State) : (s.clearStall).clusters = s.clusters := rfl
@[simp] theorem State.clearStall_hub (s : State) : (s.clearStall).hub = s.hub := rfl
@[simp] theorem State.clearStall_launches (s : State) : (s.clearStall).launches = s.launches := rfl
@[simp] theorem State.clearStall_hostWaits (s : State) : (s.clearStall).hostWaits = s.hostWaits := rfl
@[simp] theorem State.clearStall_sheaf (s : State) : (s.clearStall).sheaf = s.sheaf := rfl
@[simp] theorem State.clearStall_swards (s : State) : (s.clearStall).swards = s.swards := rfl
@[simp] theorem State.clearStall_leavers (s : State) : (s.clearStall).leavers = s.leavers := rfl
@[simp] theorem State.clearStall_recAreas (s : State) : (s.clearStall).recAreas = s.recAreas := rfl
@[simp] theorem State.clearStall_now (s : State) : (s.clearStall).now = s.now := rfl
@[simp] theorem State.clearStall_cycle (s : State) : (s.clearStall).cycle = s.cycle := rfl
@[simp] theorem State.clearStall_inputs (s : State) : (s.clearStall).inputs = s.inputs := rfl
@[simp] theorem State.clearStall_tick (s : State) : (s.clearStall).tick = s.tick := rfl
@[simp] theorem State.clearStall_nextId (s : State) : (s.clearStall).nextId = s.nextId := rfl
@[simp] theorem State.modCtx_thr (s : State) (f : Ctx → Ctx) : (s.modCtx f).thr = { s.thr with ctx := f s.thr.ctx } := rfl
@[simp] theorem State.modThr_thr (s : State) (f : Thread → Thread) : (s.modThr f).thr = f s.thr := rfl
@[simp] theorem State.modHub_hub (s : State) (f : Hub → Hub) : (s.modHub f).hub = f s.hub := rfl
@[simp] theorem State.pokeMem_mem (s : State) (a : Nat) (bs : List Byte) : (s.pokeMem a bs).mem = Cells.write s.mem a bs := rfl
@[simp] theorem State.nextTick_tick (s : State) : s.nextTick.tick = s.tick + 1 := rfl
@[simp] theorem State.clearStall_thr_tid (s : State) : s.clearStall.thr.tid = s.thr.tid := rfl
@[simp] theorem State.clearStall_thr_cref (s : State) : s.clearStall.thr.cref = s.thr.cref := rfl
@[simp] theorem State.clearStall_thr_member (s : State) : s.clearStall.thr.member = s.thr.member := rfl
@[simp] theorem State.clearStall_thr_world (s : State) : s.clearStall.thr.world = s.thr.world := rfl
@[simp] theorem State.clearStall_thr_baseDomain (s : State) : s.clearStall.thr.baseDomain = s.thr.baseDomain := rfl
@[simp] theorem State.clearStall_thr_part (s : State) : s.clearStall.thr.part = s.thr.part := rfl
@[simp] theorem State.clearStall_thr_launch (s : State) : s.clearStall.thr.launch = s.thr.launch := rfl
@[simp] theorem State.clearStall_thr_status (s : State) : s.clearStall.thr.status = s.thr.status := rfl
@[simp] theorem State.clearStall_thr_level (s : State) : s.clearStall.thr.level = s.thr.level := rfl
@[simp] theorem State.clearStall_thr_cls (s : State) : s.clearStall.thr.cls = s.thr.cls := rfl
@[simp] theorem State.clearStall_thr_named (s : State) : s.clearStall.thr.named = s.thr.named := rfl
@[simp] theorem State.clearStall_thr_cluster (s : State) : s.clearStall.thr.cluster = s.thr.cluster := rfl
@[simp] theorem State.clearStall_thr_ctxb (s : State) : s.clearStall.thr.ctxb = s.thr.ctxb := rfl
@[simp] theorem State.clearStall_thr_overflow (s : State) : s.clearStall.thr.overflow = s.thr.overflow := rfl
@[simp] theorem State.clearStall_thr_broken (s : State) : s.clearStall.thr.broken = s.thr.broken := rfl
@[simp] theorem State.clearStall_thr_logBroken (s : State) : s.clearStall.thr.logBroken = s.thr.logBroken := rfl
@[simp] theorem State.clearStall_thr_captured (s : State) : s.clearStall.thr.captured = s.thr.captured := rfl
@[simp] theorem State.clearStall_thr_record (s : State) : s.clearStall.thr.record = s.thr.record := rfl
@[simp] theorem State.clearStall_thr_tunnelled (s : State) : s.clearStall.thr.tunnelled = s.thr.tunnelled := rfl
@[simp] theorem State.clearStall_thr_paired (s : State) : s.clearStall.thr.paired = s.thr.paired := rfl
@[simp] theorem State.clearStall_thr_restartable (s : State) : s.clearStall.thr.restartable = s.thr.restartable := rfl
@[simp] theorem State.clearStall_thr_prio (s : State) : s.clearStall.thr.prio = s.thr.prio := rfl
@[simp] theorem State.clearStall_thr_effLevel (s : State) : s.clearStall.thr.effLevel = s.thr.effLevel := rfl
@[simp] theorem State.clearStall_thr_place (s : State) : s.clearStall.thr.place = s.thr.place := rfl
@[simp] theorem State.clearStall_thr_spanPlace (s : State) : s.clearStall.thr.spanPlace = s.thr.spanPlace := rfl
@[simp] theorem State.clearStall_thr_readyOrder (s : State) : s.clearStall.thr.readyOrder = s.thr.readyOrder := rfl
@[simp] theorem State.clearStall_thr_readySince (s : State) : s.clearStall.thr.readySince = s.thr.readySince := rfl
@[simp] theorem State.clearStall_thr_slotSince (s : State) : s.clearStall.thr.slotSince = s.thr.slotSince := rfl
@[simp] theorem State.clearStall_thr_wait (s : State) : s.clearStall.thr.wait = s.thr.wait := rfl
@[simp] theorem State.clearStall_thr_waitSince (s : State) : s.clearStall.thr.waitSince = s.thr.waitSince := rfl
@[simp] theorem State.clearStall_thr_hop (s : State) : s.clearStall.thr.hop = s.thr.hop := rfl
@[simp] theorem State.clearStall_thr_task (s : State) : s.clearStall.thr.task = s.thr.task := rfl
@[simp] theorem State.clearStall_thr_recGiving (s : State) : s.clearStall.thr.recGiving = s.thr.recGiving := rfl
@[simp] theorem State.clearStall_thr_pairOut (s : State) : s.clearStall.thr.pairOut = s.thr.pairOut := rfl
@[simp] theorem State.clearStall_thr_exitStatus (s : State) : s.clearStall.thr.exitStatus = s.thr.exitStatus := rfl
@[simp] theorem State.clearStall_thr_ctx (s : State) : s.clearStall.thr.ctx = s.thr.ctx := rfl
@[simp] theorem State.clearStall_thr_stall (s : State) : s.clearStall.thr.stall = none := rfl
@[simp] theorem State.setPc_rest (s : State) (v : Word64) : (s.setPc v).rest = s.rest := rfl
@[simp] theorem State.setPc_mem (s : State) (v : Word64) : (s.setPc v).mem = s.mem := rfl
@[simp] theorem State.setPc_tags (s : State) (v : Word64) : (s.setPc v).tags = s.tags := rfl
@[simp] theorem State.setPc_ctrLines (s : State) (v : Word64) : (s.setPc v).ctrLines = s.ctrLines := rfl
@[simp] theorem State.setPc_poison (s : State) (v : Word64) : (s.setPc v).poison = s.poison := rfl
@[simp] theorem State.setPc_broken (s : State) (v : Word64) : (s.setPc v).broken = s.broken := rfl
@[simp] theorem State.setPc_seals (s : State) (v : Word64) : (s.setPc v).seals = s.seals := rfl
@[simp] theorem State.setPc_worlds (s : State) (v : Word64) : (s.setPc v).worlds = s.worlds := rfl
@[simp] theorem State.setPc_parts (s : State) (v : Word64) : (s.setPc v).parts = s.parts := rfl
@[simp] theorem State.setPc_clusters (s : State) (v : Word64) : (s.setPc v).clusters = s.clusters := rfl
@[simp] theorem State.setPc_hub (s : State) (v : Word64) : (s.setPc v).hub = s.hub := rfl
@[simp] theorem State.setPc_launches (s : State) (v : Word64) : (s.setPc v).launches = s.launches := rfl
@[simp] theorem State.setPc_hostWaits (s : State) (v : Word64) : (s.setPc v).hostWaits = s.hostWaits := rfl
@[simp] theorem State.setPc_sheaf (s : State) (v : Word64) : (s.setPc v).sheaf = s.sheaf := rfl
@[simp] theorem State.setPc_swards (s : State) (v : Word64) : (s.setPc v).swards = s.swards := rfl
@[simp] theorem State.setPc_leavers (s : State) (v : Word64) : (s.setPc v).leavers = s.leavers := rfl
@[simp] theorem State.setPc_recAreas (s : State) (v : Word64) : (s.setPc v).recAreas = s.recAreas := rfl
@[simp] theorem State.setPc_now (s : State) (v : Word64) : (s.setPc v).now = s.now := rfl
@[simp] theorem State.setPc_cycle (s : State) (v : Word64) : (s.setPc v).cycle = s.cycle := rfl
@[simp] theorem State.setPc_inputs (s : State) (v : Word64) : (s.setPc v).inputs = s.inputs := rfl
@[simp] theorem State.setPc_tick (s : State) (v : Word64) : (s.setPc v).tick = s.tick := rfl
@[simp] theorem State.setPc_nextId (s : State) (v : Word64) : (s.setPc v).nextId = s.nextId := rfl
@[simp] theorem State.setPc_thr_tid (s : State) (v : Word64) : (s.setPc v).thr.tid = s.thr.tid := rfl
@[simp] theorem State.setPc_thr_cref (s : State) (v : Word64) : (s.setPc v).thr.cref = s.thr.cref := rfl
@[simp] theorem State.setPc_thr_member (s : State) (v : Word64) : (s.setPc v).thr.member = s.thr.member := rfl
@[simp] theorem State.setPc_thr_world (s : State) (v : Word64) : (s.setPc v).thr.world = s.thr.world := rfl
@[simp] theorem State.setPc_thr_baseDomain (s : State) (v : Word64) : (s.setPc v).thr.baseDomain = s.thr.baseDomain := rfl
@[simp] theorem State.setPc_thr_part (s : State) (v : Word64) : (s.setPc v).thr.part = s.thr.part := rfl
@[simp] theorem State.setPc_thr_launch (s : State) (v : Word64) : (s.setPc v).thr.launch = s.thr.launch := rfl
@[simp] theorem State.setPc_thr_status (s : State) (v : Word64) : (s.setPc v).thr.status = s.thr.status := rfl
@[simp] theorem State.setPc_thr_level (s : State) (v : Word64) : (s.setPc v).thr.level = s.thr.level := rfl
@[simp] theorem State.setPc_thr_cls (s : State) (v : Word64) : (s.setPc v).thr.cls = s.thr.cls := rfl
@[simp] theorem State.setPc_thr_named (s : State) (v : Word64) : (s.setPc v).thr.named = s.thr.named := rfl
@[simp] theorem State.setPc_thr_cluster (s : State) (v : Word64) : (s.setPc v).thr.cluster = s.thr.cluster := rfl
@[simp] theorem State.setPc_thr_ctxb (s : State) (v : Word64) : (s.setPc v).thr.ctxb = s.thr.ctxb := rfl
@[simp] theorem State.setPc_thr_overflow (s : State) (v : Word64) : (s.setPc v).thr.overflow = s.thr.overflow := rfl
@[simp] theorem State.setPc_thr_broken (s : State) (v : Word64) : (s.setPc v).thr.broken = s.thr.broken := rfl
@[simp] theorem State.setPc_thr_logBroken (s : State) (v : Word64) : (s.setPc v).thr.logBroken = s.thr.logBroken := rfl
@[simp] theorem State.setPc_thr_captured (s : State) (v : Word64) : (s.setPc v).thr.captured = s.thr.captured := rfl
@[simp] theorem State.setPc_thr_record (s : State) (v : Word64) : (s.setPc v).thr.record = s.thr.record := rfl
@[simp] theorem State.setPc_thr_tunnelled (s : State) (v : Word64) : (s.setPc v).thr.tunnelled = s.thr.tunnelled := rfl
@[simp] theorem State.setPc_thr_paired (s : State) (v : Word64) : (s.setPc v).thr.paired = s.thr.paired := rfl
@[simp] theorem State.setPc_thr_restartable (s : State) (v : Word64) : (s.setPc v).thr.restartable = s.thr.restartable := rfl
@[simp] theorem State.setPc_thr_prio (s : State) (v : Word64) : (s.setPc v).thr.prio = s.thr.prio := rfl
@[simp] theorem State.setPc_thr_effLevel (s : State) (v : Word64) : (s.setPc v).thr.effLevel = s.thr.effLevel := rfl
@[simp] theorem State.setPc_thr_place (s : State) (v : Word64) : (s.setPc v).thr.place = s.thr.place := rfl
@[simp] theorem State.setPc_thr_spanPlace (s : State) (v : Word64) : (s.setPc v).thr.spanPlace = s.thr.spanPlace := rfl
@[simp] theorem State.setPc_thr_readyOrder (s : State) (v : Word64) : (s.setPc v).thr.readyOrder = s.thr.readyOrder := rfl
@[simp] theorem State.setPc_thr_readySince (s : State) (v : Word64) : (s.setPc v).thr.readySince = s.thr.readySince := rfl
@[simp] theorem State.setPc_thr_slotSince (s : State) (v : Word64) : (s.setPc v).thr.slotSince = s.thr.slotSince := rfl
@[simp] theorem State.setPc_thr_wait (s : State) (v : Word64) : (s.setPc v).thr.wait = s.thr.wait := rfl
@[simp] theorem State.setPc_thr_stall (s : State) (v : Word64) : (s.setPc v).thr.stall = s.thr.stall := rfl
@[simp] theorem State.setPc_thr_waitSince (s : State) (v : Word64) : (s.setPc v).thr.waitSince = s.thr.waitSince := rfl
@[simp] theorem State.setPc_thr_hop (s : State) (v : Word64) : (s.setPc v).thr.hop = s.thr.hop := rfl
@[simp] theorem State.setPc_thr_task (s : State) (v : Word64) : (s.setPc v).thr.task = s.thr.task := rfl
@[simp] theorem State.setPc_thr_recGiving (s : State) (v : Word64) : (s.setPc v).thr.recGiving = s.thr.recGiving := rfl
@[simp] theorem State.setPc_thr_pairOut (s : State) (v : Word64) : (s.setPc v).thr.pairOut = s.thr.pairOut := rfl
@[simp] theorem State.setPc_thr_exitStatus (s : State) (v : Word64) : (s.setPc v).thr.exitStatus = s.thr.exitStatus := rfl
@[simp] theorem State.setPc_ctx_regs (s : State) (v : Word64) : (s.setPc v).thr.ctx.regs = s.thr.ctx.regs := rfl
@[simp] theorem State.setPc_ctx_regMarks (s : State) (v : Word64) : (s.setPc v).thr.ctx.regMarks = s.thr.ctx.regMarks := rfl
@[simp] theorem State.setPc_ctx_kctr (s : State) (v : Word64) : (s.setPc v).thr.ctx.kctr = s.thr.ctx.kctr := rfl
@[simp] theorem State.setPc_ctx_win (s : State) (v : Word64) : (s.setPc v).thr.ctx.win = s.thr.ctx.win := rfl
@[simp] theorem State.setPc_ctx_wbase (s : State) (v : Word64) : (s.setPc v).thr.ctx.wbase = s.thr.ctx.wbase := rfl
@[simp] theorem State.setPc_ctx_fs (s : State) (v : Word64) : (s.setPc v).thr.ctx.fs = s.thr.ctx.fs := rfl
@[simp] theorem State.setPc_ctx_cdepth (s : State) (v : Word64) : (s.setPc v).thr.ctx.cdepth = s.thr.ctx.cdepth := rfl
@[simp] theorem State.setPc_ctx_wstack (s : State) (v : Word64) : (s.setPc v).thr.ctx.wstack = s.thr.ctx.wstack := rfl
@[simp] theorem State.setPc_ctx_spill (s : State) (v : Word64) : (s.setPc v).thr.ctx.spill = s.thr.ctx.spill := rfl
@[simp] theorem State.setPc_ctx_vbase (s : State) (v : Word64) : (s.setPc v).thr.ctx.vbase = s.thr.ctx.vbase := rfl
@[simp] theorem State.setPc_ctx_tbase (s : State) (v : Word64) : (s.setPc v).thr.ctx.tbase = s.thr.ctx.tbase := rfl
@[simp] theorem State.setPc_ctx_tstride (s : State) (v : Word64) : (s.setPc v).thr.ctx.tstride = s.thr.ctx.tstride := rfl
@[simp] theorem State.setPc_ctx_tshape (s : State) (v : Word64) : (s.setPc v).thr.ctx.tshape = s.thr.ctx.tshape := rfl
@[simp] theorem State.setPc_ctx_fmtWord (s : State) (v : Word64) : (s.setPc v).thr.ctx.fmtWord = s.thr.ctx.fmtWord := rfl
@[simp] theorem State.setPc_ctx_tscale (s : State) (v : Word64) : (s.setPc v).thr.ctx.tscale = s.thr.ctx.tscale := rfl
@[simp] theorem State.setPc_ctx_xflags (s : State) (v : Word64) : (s.setPc v).thr.ctx.xflags = s.thr.ctx.xflags := rfl
@[simp] theorem State.setPc_ctx_stream (s : State) (v : Word64) : (s.setPc v).thr.ctx.stream = s.thr.ctx.stream := rfl
@[simp] theorem State.setPc_ctx_lq0 (s : State) (v : Word64) : (s.setPc v).thr.ctx.lq0 = s.thr.ctx.lq0 := rfl
@[simp] theorem State.setPc_ctx_lq1 (s : State) (v : Word64) : (s.setPc v).thr.ctx.lq1 = s.thr.ctx.lq1 := rfl
@[simp] theorem State.setPc_ctx_sq0 (s : State) (v : Word64) : (s.setPc v).thr.ctx.sq0 = s.thr.ctx.sq0 := rfl
@[simp] theorem State.setPc_ctx_sq1 (s : State) (v : Word64) : (s.setPc v).thr.ctx.sq1 = s.thr.ctx.sq1 := rfl
@[simp] theorem State.setPc_ctx_pend (s : State) (v : Word64) : (s.setPc v).thr.ctx.pend = s.thr.ctx.pend := rfl
@[simp] theorem State.setPc_ctx_late (s : State) (v : Word64) : (s.setPc v).thr.ctx.late = s.thr.ctx.late := rfl
@[simp] theorem State.setPc_ctx_told (s : State) (v : Word64) : (s.setPc v).thr.ctx.told = s.thr.ctx.told := rfl
@[simp] theorem State.setPc_ctx_checker (s : State) (v : Word64) : (s.setPc v).thr.ctx.checker = s.thr.ctx.checker := rfl
@[simp] theorem State.setPc_ctx_trapCause (s : State) (v : Word64) : (s.setPc v).thr.ctx.trapCause = s.thr.ctx.trapCause := rfl
@[simp] theorem State.setPc_ctx_trapAddr (s : State) (v : Word64) : (s.setPc v).thr.ctx.trapAddr = s.thr.ctx.trapAddr := rfl
@[simp] theorem State.setPc_ctx_trapPc (s : State) (v : Word64) : (s.setPc v).thr.ctx.trapPc = s.thr.ctx.trapPc := rfl
@[simp] theorem State.setPc_ctx_dstack (s : State) (v : Word64) : (s.setPc v).thr.ctx.dstack = s.thr.ctx.dstack := rfl
@[simp] theorem State.setPc_ctx_lastStatus (s : State) (v : Word64) : (s.setPc v).thr.ctx.lastStatus = s.thr.ctx.lastStatus := rfl
@[simp] theorem State.setPc_ctx_domain (s : State) (v : Word64) : (s.setPc v).thr.ctx.domain = s.thr.ctx.domain := rfl
@[simp] theorem State.setPc_ctx_dgen (s : State) (v : Word64) : (s.setPc v).thr.ctx.dgen = s.thr.ctx.dgen := rfl
@[simp] theorem State.setPc_ctx_allot (s : State) (v : Word64) : (s.setPc v).thr.ctx.allot = s.thr.ctx.allot := rfl
@[simp] theorem State.setPc_ctx_swmask (s : State) (v : Word64) : (s.setPc v).thr.ctx.swmask = s.thr.ctx.swmask := rfl
@[simp] theorem State.setPc_ctx_swcount (s : State) (v : Word64) : (s.setPc v).thr.ctx.swcount = s.thr.ctx.swcount := rfl
@[simp] theorem State.setPc_ctx_swtree (s : State) (v : Word64) : (s.setPc v).thr.ctx.swtree = s.thr.ctx.swtree := rfl
@[simp] theorem State.setPc_ctx_sseq (s : State) (v : Word64) : (s.setPc v).thr.ctx.sseq = s.thr.ctx.sseq := rfl
@[simp] theorem State.setPc_ctx_stamped (s : State) (v : Word64) : (s.setPc v).thr.ctx.stamped = s.thr.ctx.stamped := rfl
@[simp] theorem State.setPc_ctx_lastTime (s : State) (v : Word64) : (s.setPc v).thr.ctx.lastTime = s.thr.ctx.lastTime := rfl
@[simp] theorem State.setPc_ctx_spawned (s : State) (v : Word64) : (s.setPc v).thr.ctx.spawned = s.thr.ctx.spawned := rfl
@[simp] theorem State.setPc_ctx_ir (s : State) (v : Word64) : (s.setPc v).thr.ctx.ir = s.thr.ctx.ir := rfl
@[simp] theorem State.advance_rest (s : State) : (s.advance).rest = s.rest := rfl
@[simp] theorem State.advance_mem (s : State) : (s.advance).mem = s.mem := rfl
@[simp] theorem State.advance_tags (s : State) : (s.advance).tags = s.tags := rfl
@[simp] theorem State.advance_ctrLines (s : State) : (s.advance).ctrLines = s.ctrLines := rfl
@[simp] theorem State.advance_poison (s : State) : (s.advance).poison = s.poison := rfl
@[simp] theorem State.advance_broken (s : State) : (s.advance).broken = s.broken := rfl
@[simp] theorem State.advance_seals (s : State) : (s.advance).seals = s.seals := rfl
@[simp] theorem State.advance_worlds (s : State) : (s.advance).worlds = s.worlds := rfl
@[simp] theorem State.advance_parts (s : State) : (s.advance).parts = s.parts := rfl
@[simp] theorem State.advance_clusters (s : State) : (s.advance).clusters = s.clusters := rfl
@[simp] theorem State.advance_hub (s : State) : (s.advance).hub = s.hub := rfl
@[simp] theorem State.advance_launches (s : State) : (s.advance).launches = s.launches := rfl
@[simp] theorem State.advance_hostWaits (s : State) : (s.advance).hostWaits = s.hostWaits := rfl
@[simp] theorem State.advance_sheaf (s : State) : (s.advance).sheaf = s.sheaf := rfl
@[simp] theorem State.advance_swards (s : State) : (s.advance).swards = s.swards := rfl
@[simp] theorem State.advance_leavers (s : State) : (s.advance).leavers = s.leavers := rfl
@[simp] theorem State.advance_recAreas (s : State) : (s.advance).recAreas = s.recAreas := rfl
@[simp] theorem State.advance_now (s : State) : (s.advance).now = s.now := rfl
@[simp] theorem State.advance_cycle (s : State) : (s.advance).cycle = s.cycle := rfl
@[simp] theorem State.advance_inputs (s : State) : (s.advance).inputs = s.inputs := rfl
@[simp] theorem State.advance_tick (s : State) : (s.advance).tick = s.tick := rfl
@[simp] theorem State.advance_nextId (s : State) : (s.advance).nextId = s.nextId := rfl
@[simp] theorem State.advance_thr_tid (s : State) : (s.advance).thr.tid = s.thr.tid := rfl
@[simp] theorem State.advance_thr_cref (s : State) : (s.advance).thr.cref = s.thr.cref := rfl
@[simp] theorem State.advance_thr_member (s : State) : (s.advance).thr.member = s.thr.member := rfl
@[simp] theorem State.advance_thr_world (s : State) : (s.advance).thr.world = s.thr.world := rfl
@[simp] theorem State.advance_thr_baseDomain (s : State) : (s.advance).thr.baseDomain = s.thr.baseDomain := rfl
@[simp] theorem State.advance_thr_part (s : State) : (s.advance).thr.part = s.thr.part := rfl
@[simp] theorem State.advance_thr_launch (s : State) : (s.advance).thr.launch = s.thr.launch := rfl
@[simp] theorem State.advance_thr_status (s : State) : (s.advance).thr.status = s.thr.status := rfl
@[simp] theorem State.advance_thr_level (s : State) : (s.advance).thr.level = s.thr.level := rfl
@[simp] theorem State.advance_thr_cls (s : State) : (s.advance).thr.cls = s.thr.cls := rfl
@[simp] theorem State.advance_thr_named (s : State) : (s.advance).thr.named = s.thr.named := rfl
@[simp] theorem State.advance_thr_cluster (s : State) : (s.advance).thr.cluster = s.thr.cluster := rfl
@[simp] theorem State.advance_thr_ctxb (s : State) : (s.advance).thr.ctxb = s.thr.ctxb := rfl
@[simp] theorem State.advance_thr_overflow (s : State) : (s.advance).thr.overflow = s.thr.overflow := rfl
@[simp] theorem State.advance_thr_broken (s : State) : (s.advance).thr.broken = s.thr.broken := rfl
@[simp] theorem State.advance_thr_logBroken (s : State) : (s.advance).thr.logBroken = s.thr.logBroken := rfl
@[simp] theorem State.advance_thr_captured (s : State) : (s.advance).thr.captured = s.thr.captured := rfl
@[simp] theorem State.advance_thr_record (s : State) : (s.advance).thr.record = s.thr.record := rfl
@[simp] theorem State.advance_thr_tunnelled (s : State) : (s.advance).thr.tunnelled = s.thr.tunnelled := rfl
@[simp] theorem State.advance_thr_paired (s : State) : (s.advance).thr.paired = s.thr.paired := rfl
@[simp] theorem State.advance_thr_restartable (s : State) : (s.advance).thr.restartable = s.thr.restartable := rfl
@[simp] theorem State.advance_thr_prio (s : State) : (s.advance).thr.prio = s.thr.prio := rfl
@[simp] theorem State.advance_thr_effLevel (s : State) : (s.advance).thr.effLevel = s.thr.effLevel := rfl
@[simp] theorem State.advance_thr_place (s : State) : (s.advance).thr.place = s.thr.place := rfl
@[simp] theorem State.advance_thr_spanPlace (s : State) : (s.advance).thr.spanPlace = s.thr.spanPlace := rfl
@[simp] theorem State.advance_thr_readyOrder (s : State) : (s.advance).thr.readyOrder = s.thr.readyOrder := rfl
@[simp] theorem State.advance_thr_readySince (s : State) : (s.advance).thr.readySince = s.thr.readySince := rfl
@[simp] theorem State.advance_thr_slotSince (s : State) : (s.advance).thr.slotSince = s.thr.slotSince := rfl
@[simp] theorem State.advance_thr_wait (s : State) : (s.advance).thr.wait = s.thr.wait := rfl
@[simp] theorem State.advance_thr_stall (s : State) : (s.advance).thr.stall = s.thr.stall := rfl
@[simp] theorem State.advance_thr_waitSince (s : State) : (s.advance).thr.waitSince = s.thr.waitSince := rfl
@[simp] theorem State.advance_thr_hop (s : State) : (s.advance).thr.hop = s.thr.hop := rfl
@[simp] theorem State.advance_thr_task (s : State) : (s.advance).thr.task = s.thr.task := rfl
@[simp] theorem State.advance_thr_recGiving (s : State) : (s.advance).thr.recGiving = s.thr.recGiving := rfl
@[simp] theorem State.advance_thr_pairOut (s : State) : (s.advance).thr.pairOut = s.thr.pairOut := rfl
@[simp] theorem State.advance_thr_exitStatus (s : State) : (s.advance).thr.exitStatus = s.thr.exitStatus := rfl
@[simp] theorem State.advance_ctx_regs (s : State) : (s.advance).thr.ctx.regs = s.thr.ctx.regs := rfl
@[simp] theorem State.advance_ctx_regMarks (s : State) : (s.advance).thr.ctx.regMarks = s.thr.ctx.regMarks := rfl
@[simp] theorem State.advance_ctx_kctr (s : State) : (s.advance).thr.ctx.kctr = s.thr.ctx.kctr := rfl
@[simp] theorem State.advance_ctx_win (s : State) : (s.advance).thr.ctx.win = s.thr.ctx.win := rfl
@[simp] theorem State.advance_ctx_wbase (s : State) : (s.advance).thr.ctx.wbase = s.thr.ctx.wbase := rfl
@[simp] theorem State.advance_ctx_fs (s : State) : (s.advance).thr.ctx.fs = s.thr.ctx.fs := rfl
@[simp] theorem State.advance_ctx_cdepth (s : State) : (s.advance).thr.ctx.cdepth = s.thr.ctx.cdepth := rfl
@[simp] theorem State.advance_ctx_wstack (s : State) : (s.advance).thr.ctx.wstack = s.thr.ctx.wstack := rfl
@[simp] theorem State.advance_ctx_spill (s : State) : (s.advance).thr.ctx.spill = s.thr.ctx.spill := rfl
@[simp] theorem State.advance_ctx_vbase (s : State) : (s.advance).thr.ctx.vbase = s.thr.ctx.vbase := rfl
@[simp] theorem State.advance_ctx_tbase (s : State) : (s.advance).thr.ctx.tbase = s.thr.ctx.tbase := rfl
@[simp] theorem State.advance_ctx_tstride (s : State) : (s.advance).thr.ctx.tstride = s.thr.ctx.tstride := rfl
@[simp] theorem State.advance_ctx_tshape (s : State) : (s.advance).thr.ctx.tshape = s.thr.ctx.tshape := rfl
@[simp] theorem State.advance_ctx_fmtWord (s : State) : (s.advance).thr.ctx.fmtWord = s.thr.ctx.fmtWord := rfl
@[simp] theorem State.advance_ctx_tscale (s : State) : (s.advance).thr.ctx.tscale = s.thr.ctx.tscale := rfl
@[simp] theorem State.advance_ctx_xflags (s : State) : (s.advance).thr.ctx.xflags = s.thr.ctx.xflags := rfl
@[simp] theorem State.advance_ctx_stream (s : State) : (s.advance).thr.ctx.stream = s.thr.ctx.stream := rfl
@[simp] theorem State.advance_ctx_lq0 (s : State) : (s.advance).thr.ctx.lq0 = s.thr.ctx.lq0 := rfl
@[simp] theorem State.advance_ctx_lq1 (s : State) : (s.advance).thr.ctx.lq1 = s.thr.ctx.lq1 := rfl
@[simp] theorem State.advance_ctx_sq0 (s : State) : (s.advance).thr.ctx.sq0 = s.thr.ctx.sq0 := rfl
@[simp] theorem State.advance_ctx_sq1 (s : State) : (s.advance).thr.ctx.sq1 = s.thr.ctx.sq1 := rfl
@[simp] theorem State.advance_ctx_pend (s : State) : (s.advance).thr.ctx.pend = s.thr.ctx.pend := rfl
@[simp] theorem State.advance_ctx_late (s : State) : (s.advance).thr.ctx.late = s.thr.ctx.late := rfl
@[simp] theorem State.advance_ctx_told (s : State) : (s.advance).thr.ctx.told = s.thr.ctx.told := rfl
@[simp] theorem State.advance_ctx_checker (s : State) : (s.advance).thr.ctx.checker = s.thr.ctx.checker := rfl
@[simp] theorem State.advance_ctx_trapCause (s : State) : (s.advance).thr.ctx.trapCause = s.thr.ctx.trapCause := rfl
@[simp] theorem State.advance_ctx_trapAddr (s : State) : (s.advance).thr.ctx.trapAddr = s.thr.ctx.trapAddr := rfl
@[simp] theorem State.advance_ctx_trapPc (s : State) : (s.advance).thr.ctx.trapPc = s.thr.ctx.trapPc := rfl
@[simp] theorem State.advance_ctx_dstack (s : State) : (s.advance).thr.ctx.dstack = s.thr.ctx.dstack := rfl
@[simp] theorem State.advance_ctx_lastStatus (s : State) : (s.advance).thr.ctx.lastStatus = s.thr.ctx.lastStatus := rfl
@[simp] theorem State.advance_ctx_domain (s : State) : (s.advance).thr.ctx.domain = s.thr.ctx.domain := rfl
@[simp] theorem State.advance_ctx_dgen (s : State) : (s.advance).thr.ctx.dgen = s.thr.ctx.dgen := rfl
@[simp] theorem State.advance_ctx_allot (s : State) : (s.advance).thr.ctx.allot = s.thr.ctx.allot := rfl
@[simp] theorem State.advance_ctx_swmask (s : State) : (s.advance).thr.ctx.swmask = s.thr.ctx.swmask := rfl
@[simp] theorem State.advance_ctx_swcount (s : State) : (s.advance).thr.ctx.swcount = s.thr.ctx.swcount := rfl
@[simp] theorem State.advance_ctx_swtree (s : State) : (s.advance).thr.ctx.swtree = s.thr.ctx.swtree := rfl
@[simp] theorem State.advance_ctx_sseq (s : State) : (s.advance).thr.ctx.sseq = s.thr.ctx.sseq := rfl
@[simp] theorem State.advance_ctx_stamped (s : State) : (s.advance).thr.ctx.stamped = s.thr.ctx.stamped := rfl
@[simp] theorem State.advance_ctx_lastTime (s : State) : (s.advance).thr.ctx.lastTime = s.thr.ctx.lastTime := rfl
@[simp] theorem State.advance_ctx_spawned (s : State) : (s.advance).thr.ctx.spawned = s.thr.ctx.spawned := rfl
@[simp] theorem State.advance_ctx_ir (s : State) : (s.advance).thr.ctx.ir = s.thr.ctx.ir := rfl
@[simp] theorem State.accrue_rest (s : State) (f : Flags) : (s.accrue f).rest = s.rest := rfl
@[simp] theorem State.accrue_mem (s : State) (f : Flags) : (s.accrue f).mem = s.mem := rfl
@[simp] theorem State.accrue_tags (s : State) (f : Flags) : (s.accrue f).tags = s.tags := rfl
@[simp] theorem State.accrue_ctrLines (s : State) (f : Flags) : (s.accrue f).ctrLines = s.ctrLines := rfl
@[simp] theorem State.accrue_poison (s : State) (f : Flags) : (s.accrue f).poison = s.poison := rfl
@[simp] theorem State.accrue_broken (s : State) (f : Flags) : (s.accrue f).broken = s.broken := rfl
@[simp] theorem State.accrue_seals (s : State) (f : Flags) : (s.accrue f).seals = s.seals := rfl
@[simp] theorem State.accrue_worlds (s : State) (f : Flags) : (s.accrue f).worlds = s.worlds := rfl
@[simp] theorem State.accrue_parts (s : State) (f : Flags) : (s.accrue f).parts = s.parts := rfl
@[simp] theorem State.accrue_clusters (s : State) (f : Flags) : (s.accrue f).clusters = s.clusters := rfl
@[simp] theorem State.accrue_hub (s : State) (f : Flags) : (s.accrue f).hub = s.hub := rfl
@[simp] theorem State.accrue_launches (s : State) (f : Flags) : (s.accrue f).launches = s.launches := rfl
@[simp] theorem State.accrue_hostWaits (s : State) (f : Flags) : (s.accrue f).hostWaits = s.hostWaits := rfl
@[simp] theorem State.accrue_sheaf (s : State) (f : Flags) : (s.accrue f).sheaf = s.sheaf := rfl
@[simp] theorem State.accrue_swards (s : State) (f : Flags) : (s.accrue f).swards = s.swards := rfl
@[simp] theorem State.accrue_leavers (s : State) (f : Flags) : (s.accrue f).leavers = s.leavers := rfl
@[simp] theorem State.accrue_recAreas (s : State) (f : Flags) : (s.accrue f).recAreas = s.recAreas := rfl
@[simp] theorem State.accrue_now (s : State) (f : Flags) : (s.accrue f).now = s.now := rfl
@[simp] theorem State.accrue_cycle (s : State) (f : Flags) : (s.accrue f).cycle = s.cycle := rfl
@[simp] theorem State.accrue_inputs (s : State) (f : Flags) : (s.accrue f).inputs = s.inputs := rfl
@[simp] theorem State.accrue_tick (s : State) (f : Flags) : (s.accrue f).tick = s.tick := rfl
@[simp] theorem State.accrue_nextId (s : State) (f : Flags) : (s.accrue f).nextId = s.nextId := rfl
@[simp] theorem State.accrue_thr_tid (s : State) (f : Flags) : (s.accrue f).thr.tid = s.thr.tid := rfl
@[simp] theorem State.accrue_thr_cref (s : State) (f : Flags) : (s.accrue f).thr.cref = s.thr.cref := rfl
@[simp] theorem State.accrue_thr_member (s : State) (f : Flags) : (s.accrue f).thr.member = s.thr.member := rfl
@[simp] theorem State.accrue_thr_world (s : State) (f : Flags) : (s.accrue f).thr.world = s.thr.world := rfl
@[simp] theorem State.accrue_thr_baseDomain (s : State) (f : Flags) : (s.accrue f).thr.baseDomain = s.thr.baseDomain := rfl
@[simp] theorem State.accrue_thr_part (s : State) (f : Flags) : (s.accrue f).thr.part = s.thr.part := rfl
@[simp] theorem State.accrue_thr_launch (s : State) (f : Flags) : (s.accrue f).thr.launch = s.thr.launch := rfl
@[simp] theorem State.accrue_thr_status (s : State) (f : Flags) : (s.accrue f).thr.status = s.thr.status := rfl
@[simp] theorem State.accrue_thr_level (s : State) (f : Flags) : (s.accrue f).thr.level = s.thr.level := rfl
@[simp] theorem State.accrue_thr_cls (s : State) (f : Flags) : (s.accrue f).thr.cls = s.thr.cls := rfl
@[simp] theorem State.accrue_thr_named (s : State) (f : Flags) : (s.accrue f).thr.named = s.thr.named := rfl
@[simp] theorem State.accrue_thr_cluster (s : State) (f : Flags) : (s.accrue f).thr.cluster = s.thr.cluster := rfl
@[simp] theorem State.accrue_thr_ctxb (s : State) (f : Flags) : (s.accrue f).thr.ctxb = s.thr.ctxb := rfl
@[simp] theorem State.accrue_thr_overflow (s : State) (f : Flags) : (s.accrue f).thr.overflow = s.thr.overflow := rfl
@[simp] theorem State.accrue_thr_broken (s : State) (f : Flags) : (s.accrue f).thr.broken = s.thr.broken := rfl
@[simp] theorem State.accrue_thr_logBroken (s : State) (f : Flags) : (s.accrue f).thr.logBroken = s.thr.logBroken := rfl
@[simp] theorem State.accrue_thr_captured (s : State) (f : Flags) : (s.accrue f).thr.captured = s.thr.captured := rfl
@[simp] theorem State.accrue_thr_record (s : State) (f : Flags) : (s.accrue f).thr.record = s.thr.record := rfl
@[simp] theorem State.accrue_thr_tunnelled (s : State) (f : Flags) : (s.accrue f).thr.tunnelled = s.thr.tunnelled := rfl
@[simp] theorem State.accrue_thr_paired (s : State) (f : Flags) : (s.accrue f).thr.paired = s.thr.paired := rfl
@[simp] theorem State.accrue_thr_restartable (s : State) (f : Flags) : (s.accrue f).thr.restartable = s.thr.restartable := rfl
@[simp] theorem State.accrue_thr_prio (s : State) (f : Flags) : (s.accrue f).thr.prio = s.thr.prio := rfl
@[simp] theorem State.accrue_thr_effLevel (s : State) (f : Flags) : (s.accrue f).thr.effLevel = s.thr.effLevel := rfl
@[simp] theorem State.accrue_thr_place (s : State) (f : Flags) : (s.accrue f).thr.place = s.thr.place := rfl
@[simp] theorem State.accrue_thr_spanPlace (s : State) (f : Flags) : (s.accrue f).thr.spanPlace = s.thr.spanPlace := rfl
@[simp] theorem State.accrue_thr_readyOrder (s : State) (f : Flags) : (s.accrue f).thr.readyOrder = s.thr.readyOrder := rfl
@[simp] theorem State.accrue_thr_readySince (s : State) (f : Flags) : (s.accrue f).thr.readySince = s.thr.readySince := rfl
@[simp] theorem State.accrue_thr_slotSince (s : State) (f : Flags) : (s.accrue f).thr.slotSince = s.thr.slotSince := rfl
@[simp] theorem State.accrue_thr_wait (s : State) (f : Flags) : (s.accrue f).thr.wait = s.thr.wait := rfl
@[simp] theorem State.accrue_thr_stall (s : State) (f : Flags) : (s.accrue f).thr.stall = s.thr.stall := rfl
@[simp] theorem State.accrue_thr_waitSince (s : State) (f : Flags) : (s.accrue f).thr.waitSince = s.thr.waitSince := rfl
@[simp] theorem State.accrue_thr_hop (s : State) (f : Flags) : (s.accrue f).thr.hop = s.thr.hop := rfl
@[simp] theorem State.accrue_thr_task (s : State) (f : Flags) : (s.accrue f).thr.task = s.thr.task := rfl
@[simp] theorem State.accrue_thr_recGiving (s : State) (f : Flags) : (s.accrue f).thr.recGiving = s.thr.recGiving := rfl
@[simp] theorem State.accrue_thr_pairOut (s : State) (f : Flags) : (s.accrue f).thr.pairOut = s.thr.pairOut := rfl
@[simp] theorem State.accrue_thr_exitStatus (s : State) (f : Flags) : (s.accrue f).thr.exitStatus = s.thr.exitStatus := rfl
@[simp] theorem State.accrue_ctx_code (s : State) (f : Flags) : (s.accrue f).thr.ctx.code = s.thr.ctx.code := rfl
@[simp] theorem State.accrue_ctx_regs (s : State) (f : Flags) : (s.accrue f).thr.ctx.regs = s.thr.ctx.regs := rfl
@[simp] theorem State.accrue_ctx_regMarks (s : State) (f : Flags) : (s.accrue f).thr.ctx.regMarks = s.thr.ctx.regMarks := rfl
@[simp] theorem State.accrue_ctx_kctr (s : State) (f : Flags) : (s.accrue f).thr.ctx.kctr = s.thr.ctx.kctr := rfl
@[simp] theorem State.accrue_ctx_win (s : State) (f : Flags) : (s.accrue f).thr.ctx.win = s.thr.ctx.win := rfl
@[simp] theorem State.accrue_ctx_wbase (s : State) (f : Flags) : (s.accrue f).thr.ctx.wbase = s.thr.ctx.wbase := rfl
@[simp] theorem State.accrue_ctx_fs (s : State) (f : Flags) : (s.accrue f).thr.ctx.fs = s.thr.ctx.fs := rfl
@[simp] theorem State.accrue_ctx_cdepth (s : State) (f : Flags) : (s.accrue f).thr.ctx.cdepth = s.thr.ctx.cdepth := rfl
@[simp] theorem State.accrue_ctx_wstack (s : State) (f : Flags) : (s.accrue f).thr.ctx.wstack = s.thr.ctx.wstack := rfl
@[simp] theorem State.accrue_ctx_spill (s : State) (f : Flags) : (s.accrue f).thr.ctx.spill = s.thr.ctx.spill := rfl
@[simp] theorem State.accrue_ctx_vbase (s : State) (f : Flags) : (s.accrue f).thr.ctx.vbase = s.thr.ctx.vbase := rfl
@[simp] theorem State.accrue_ctx_tbase (s : State) (f : Flags) : (s.accrue f).thr.ctx.tbase = s.thr.ctx.tbase := rfl
@[simp] theorem State.accrue_ctx_tstride (s : State) (f : Flags) : (s.accrue f).thr.ctx.tstride = s.thr.ctx.tstride := rfl
@[simp] theorem State.accrue_ctx_tshape (s : State) (f : Flags) : (s.accrue f).thr.ctx.tshape = s.thr.ctx.tshape := rfl
@[simp] theorem State.accrue_ctx_fmtWord (s : State) (f : Flags) : (s.accrue f).thr.ctx.fmtWord = s.thr.ctx.fmtWord := rfl
@[simp] theorem State.accrue_ctx_tscale (s : State) (f : Flags) : (s.accrue f).thr.ctx.tscale = s.thr.ctx.tscale := rfl
@[simp] theorem State.accrue_ctx_stream (s : State) (f : Flags) : (s.accrue f).thr.ctx.stream = s.thr.ctx.stream := rfl
@[simp] theorem State.accrue_ctx_lq0 (s : State) (f : Flags) : (s.accrue f).thr.ctx.lq0 = s.thr.ctx.lq0 := rfl
@[simp] theorem State.accrue_ctx_lq1 (s : State) (f : Flags) : (s.accrue f).thr.ctx.lq1 = s.thr.ctx.lq1 := rfl
@[simp] theorem State.accrue_ctx_sq0 (s : State) (f : Flags) : (s.accrue f).thr.ctx.sq0 = s.thr.ctx.sq0 := rfl
@[simp] theorem State.accrue_ctx_sq1 (s : State) (f : Flags) : (s.accrue f).thr.ctx.sq1 = s.thr.ctx.sq1 := rfl
@[simp] theorem State.accrue_ctx_pend (s : State) (f : Flags) : (s.accrue f).thr.ctx.pend = s.thr.ctx.pend := rfl
@[simp] theorem State.accrue_ctx_late (s : State) (f : Flags) : (s.accrue f).thr.ctx.late = s.thr.ctx.late := rfl
@[simp] theorem State.accrue_ctx_told (s : State) (f : Flags) : (s.accrue f).thr.ctx.told = s.thr.ctx.told := rfl
@[simp] theorem State.accrue_ctx_checker (s : State) (f : Flags) : (s.accrue f).thr.ctx.checker = s.thr.ctx.checker := rfl
@[simp] theorem State.accrue_ctx_trapCause (s : State) (f : Flags) : (s.accrue f).thr.ctx.trapCause = s.thr.ctx.trapCause := rfl
@[simp] theorem State.accrue_ctx_trapAddr (s : State) (f : Flags) : (s.accrue f).thr.ctx.trapAddr = s.thr.ctx.trapAddr := rfl
@[simp] theorem State.accrue_ctx_trapPc (s : State) (f : Flags) : (s.accrue f).thr.ctx.trapPc = s.thr.ctx.trapPc := rfl
@[simp] theorem State.accrue_ctx_dstack (s : State) (f : Flags) : (s.accrue f).thr.ctx.dstack = s.thr.ctx.dstack := rfl
@[simp] theorem State.accrue_ctx_lastStatus (s : State) (f : Flags) : (s.accrue f).thr.ctx.lastStatus = s.thr.ctx.lastStatus := rfl
@[simp] theorem State.accrue_ctx_domain (s : State) (f : Flags) : (s.accrue f).thr.ctx.domain = s.thr.ctx.domain := rfl
@[simp] theorem State.accrue_ctx_dgen (s : State) (f : Flags) : (s.accrue f).thr.ctx.dgen = s.thr.ctx.dgen := rfl
@[simp] theorem State.accrue_ctx_allot (s : State) (f : Flags) : (s.accrue f).thr.ctx.allot = s.thr.ctx.allot := rfl
@[simp] theorem State.accrue_ctx_swmask (s : State) (f : Flags) : (s.accrue f).thr.ctx.swmask = s.thr.ctx.swmask := rfl
@[simp] theorem State.accrue_ctx_swcount (s : State) (f : Flags) : (s.accrue f).thr.ctx.swcount = s.thr.ctx.swcount := rfl
@[simp] theorem State.accrue_ctx_swtree (s : State) (f : Flags) : (s.accrue f).thr.ctx.swtree = s.thr.ctx.swtree := rfl
@[simp] theorem State.accrue_ctx_sseq (s : State) (f : Flags) : (s.accrue f).thr.ctx.sseq = s.thr.ctx.sseq := rfl
@[simp] theorem State.accrue_ctx_stamped (s : State) (f : Flags) : (s.accrue f).thr.ctx.stamped = s.thr.ctx.stamped := rfl
@[simp] theorem State.accrue_ctx_lastTime (s : State) (f : Flags) : (s.accrue f).thr.ctx.lastTime = s.thr.ctx.lastTime := rfl
@[simp] theorem State.accrue_ctx_spawned (s : State) (f : Flags) : (s.accrue f).thr.ctx.spawned = s.thr.ctx.spawned := rfl
@[simp] theorem State.accrue_ctx_ir (s : State) (f : Flags) : (s.accrue f).thr.ctx.ir = s.thr.ctx.ir := rfl
@[simp] theorem State.defer_rest (s : State) (x : Deferred) : (s.defer x).rest = s.rest := rfl
@[simp] theorem State.defer_mem (s : State) (x : Deferred) : (s.defer x).mem = s.mem := rfl
@[simp] theorem State.defer_tags (s : State) (x : Deferred) : (s.defer x).tags = s.tags := rfl
@[simp] theorem State.defer_ctrLines (s : State) (x : Deferred) : (s.defer x).ctrLines = s.ctrLines := rfl
@[simp] theorem State.defer_poison (s : State) (x : Deferred) : (s.defer x).poison = s.poison := rfl
@[simp] theorem State.defer_broken (s : State) (x : Deferred) : (s.defer x).broken = s.broken := rfl
@[simp] theorem State.defer_seals (s : State) (x : Deferred) : (s.defer x).seals = s.seals := rfl
@[simp] theorem State.defer_worlds (s : State) (x : Deferred) : (s.defer x).worlds = s.worlds := rfl
@[simp] theorem State.defer_parts (s : State) (x : Deferred) : (s.defer x).parts = s.parts := rfl
@[simp] theorem State.defer_clusters (s : State) (x : Deferred) : (s.defer x).clusters = s.clusters := rfl
@[simp] theorem State.defer_hub (s : State) (x : Deferred) : (s.defer x).hub = s.hub := rfl
@[simp] theorem State.defer_launches (s : State) (x : Deferred) : (s.defer x).launches = s.launches := rfl
@[simp] theorem State.defer_hostWaits (s : State) (x : Deferred) : (s.defer x).hostWaits = s.hostWaits := rfl
@[simp] theorem State.defer_sheaf (s : State) (x : Deferred) : (s.defer x).sheaf = s.sheaf := rfl
@[simp] theorem State.defer_swards (s : State) (x : Deferred) : (s.defer x).swards = s.swards := rfl
@[simp] theorem State.defer_leavers (s : State) (x : Deferred) : (s.defer x).leavers = s.leavers := rfl
@[simp] theorem State.defer_recAreas (s : State) (x : Deferred) : (s.defer x).recAreas = s.recAreas := rfl
@[simp] theorem State.defer_now (s : State) (x : Deferred) : (s.defer x).now = s.now := rfl
@[simp] theorem State.defer_cycle (s : State) (x : Deferred) : (s.defer x).cycle = s.cycle := rfl
@[simp] theorem State.defer_inputs (s : State) (x : Deferred) : (s.defer x).inputs = s.inputs := rfl
@[simp] theorem State.defer_tick (s : State) (x : Deferred) : (s.defer x).tick = s.tick := rfl
@[simp] theorem State.defer_nextId (s : State) (x : Deferred) : (s.defer x).nextId = s.nextId := rfl
@[simp] theorem State.defer_thr_tid (s : State) (x : Deferred) : (s.defer x).thr.tid = s.thr.tid := rfl
@[simp] theorem State.defer_thr_cref (s : State) (x : Deferred) : (s.defer x).thr.cref = s.thr.cref := rfl
@[simp] theorem State.defer_thr_member (s : State) (x : Deferred) : (s.defer x).thr.member = s.thr.member := rfl
@[simp] theorem State.defer_thr_world (s : State) (x : Deferred) : (s.defer x).thr.world = s.thr.world := rfl
@[simp] theorem State.defer_thr_baseDomain (s : State) (x : Deferred) : (s.defer x).thr.baseDomain = s.thr.baseDomain := rfl
@[simp] theorem State.defer_thr_part (s : State) (x : Deferred) : (s.defer x).thr.part = s.thr.part := rfl
@[simp] theorem State.defer_thr_launch (s : State) (x : Deferred) : (s.defer x).thr.launch = s.thr.launch := rfl
@[simp] theorem State.defer_thr_status (s : State) (x : Deferred) : (s.defer x).thr.status = s.thr.status := rfl
@[simp] theorem State.defer_thr_level (s : State) (x : Deferred) : (s.defer x).thr.level = s.thr.level := rfl
@[simp] theorem State.defer_thr_cls (s : State) (x : Deferred) : (s.defer x).thr.cls = s.thr.cls := rfl
@[simp] theorem State.defer_thr_named (s : State) (x : Deferred) : (s.defer x).thr.named = s.thr.named := rfl
@[simp] theorem State.defer_thr_cluster (s : State) (x : Deferred) : (s.defer x).thr.cluster = s.thr.cluster := rfl
@[simp] theorem State.defer_thr_ctxb (s : State) (x : Deferred) : (s.defer x).thr.ctxb = s.thr.ctxb := rfl
@[simp] theorem State.defer_thr_overflow (s : State) (x : Deferred) : (s.defer x).thr.overflow = s.thr.overflow := rfl
@[simp] theorem State.defer_thr_broken (s : State) (x : Deferred) : (s.defer x).thr.broken = s.thr.broken := rfl
@[simp] theorem State.defer_thr_logBroken (s : State) (x : Deferred) : (s.defer x).thr.logBroken = s.thr.logBroken := rfl
@[simp] theorem State.defer_thr_captured (s : State) (x : Deferred) : (s.defer x).thr.captured = s.thr.captured := rfl
@[simp] theorem State.defer_thr_record (s : State) (x : Deferred) : (s.defer x).thr.record = s.thr.record := rfl
@[simp] theorem State.defer_thr_tunnelled (s : State) (x : Deferred) : (s.defer x).thr.tunnelled = s.thr.tunnelled := rfl
@[simp] theorem State.defer_thr_paired (s : State) (x : Deferred) : (s.defer x).thr.paired = s.thr.paired := rfl
@[simp] theorem State.defer_thr_restartable (s : State) (x : Deferred) : (s.defer x).thr.restartable = s.thr.restartable := rfl
@[simp] theorem State.defer_thr_prio (s : State) (x : Deferred) : (s.defer x).thr.prio = s.thr.prio := rfl
@[simp] theorem State.defer_thr_effLevel (s : State) (x : Deferred) : (s.defer x).thr.effLevel = s.thr.effLevel := rfl
@[simp] theorem State.defer_thr_place (s : State) (x : Deferred) : (s.defer x).thr.place = s.thr.place := rfl
@[simp] theorem State.defer_thr_spanPlace (s : State) (x : Deferred) : (s.defer x).thr.spanPlace = s.thr.spanPlace := rfl
@[simp] theorem State.defer_thr_readyOrder (s : State) (x : Deferred) : (s.defer x).thr.readyOrder = s.thr.readyOrder := rfl
@[simp] theorem State.defer_thr_readySince (s : State) (x : Deferred) : (s.defer x).thr.readySince = s.thr.readySince := rfl
@[simp] theorem State.defer_thr_slotSince (s : State) (x : Deferred) : (s.defer x).thr.slotSince = s.thr.slotSince := rfl
@[simp] theorem State.defer_thr_wait (s : State) (x : Deferred) : (s.defer x).thr.wait = s.thr.wait := rfl
@[simp] theorem State.defer_thr_stall (s : State) (x : Deferred) : (s.defer x).thr.stall = s.thr.stall := rfl
@[simp] theorem State.defer_thr_waitSince (s : State) (x : Deferred) : (s.defer x).thr.waitSince = s.thr.waitSince := rfl
@[simp] theorem State.defer_thr_hop (s : State) (x : Deferred) : (s.defer x).thr.hop = s.thr.hop := rfl
@[simp] theorem State.defer_thr_task (s : State) (x : Deferred) : (s.defer x).thr.task = s.thr.task := rfl
@[simp] theorem State.defer_thr_recGiving (s : State) (x : Deferred) : (s.defer x).thr.recGiving = s.thr.recGiving := rfl
@[simp] theorem State.defer_thr_pairOut (s : State) (x : Deferred) : (s.defer x).thr.pairOut = s.thr.pairOut := rfl
@[simp] theorem State.defer_thr_exitStatus (s : State) (x : Deferred) : (s.defer x).thr.exitStatus = s.thr.exitStatus := rfl
@[simp] theorem State.defer_ctx_code (s : State) (x : Deferred) : (s.defer x).thr.ctx.code = s.thr.ctx.code := rfl
@[simp] theorem State.defer_ctx_regs (s : State) (x : Deferred) : (s.defer x).thr.ctx.regs = s.thr.ctx.regs := rfl
@[simp] theorem State.defer_ctx_regMarks (s : State) (x : Deferred) : (s.defer x).thr.ctx.regMarks = s.thr.ctx.regMarks := rfl
@[simp] theorem State.defer_ctx_kctr (s : State) (x : Deferred) : (s.defer x).thr.ctx.kctr = s.thr.ctx.kctr := rfl
@[simp] theorem State.defer_ctx_win (s : State) (x : Deferred) : (s.defer x).thr.ctx.win = s.thr.ctx.win := rfl
@[simp] theorem State.defer_ctx_wbase (s : State) (x : Deferred) : (s.defer x).thr.ctx.wbase = s.thr.ctx.wbase := rfl
@[simp] theorem State.defer_ctx_fs (s : State) (x : Deferred) : (s.defer x).thr.ctx.fs = s.thr.ctx.fs := rfl
@[simp] theorem State.defer_ctx_cdepth (s : State) (x : Deferred) : (s.defer x).thr.ctx.cdepth = s.thr.ctx.cdepth := rfl
@[simp] theorem State.defer_ctx_wstack (s : State) (x : Deferred) : (s.defer x).thr.ctx.wstack = s.thr.ctx.wstack := rfl
@[simp] theorem State.defer_ctx_spill (s : State) (x : Deferred) : (s.defer x).thr.ctx.spill = s.thr.ctx.spill := rfl
@[simp] theorem State.defer_ctx_vbase (s : State) (x : Deferred) : (s.defer x).thr.ctx.vbase = s.thr.ctx.vbase := rfl
@[simp] theorem State.defer_ctx_tbase (s : State) (x : Deferred) : (s.defer x).thr.ctx.tbase = s.thr.ctx.tbase := rfl
@[simp] theorem State.defer_ctx_tstride (s : State) (x : Deferred) : (s.defer x).thr.ctx.tstride = s.thr.ctx.tstride := rfl
@[simp] theorem State.defer_ctx_tshape (s : State) (x : Deferred) : (s.defer x).thr.ctx.tshape = s.thr.ctx.tshape := rfl
@[simp] theorem State.defer_ctx_fmtWord (s : State) (x : Deferred) : (s.defer x).thr.ctx.fmtWord = s.thr.ctx.fmtWord := rfl
@[simp] theorem State.defer_ctx_tscale (s : State) (x : Deferred) : (s.defer x).thr.ctx.tscale = s.thr.ctx.tscale := rfl
@[simp] theorem State.defer_ctx_xflags (s : State) (x : Deferred) : (s.defer x).thr.ctx.xflags = s.thr.ctx.xflags := rfl
@[simp] theorem State.defer_ctx_stream (s : State) (x : Deferred) : (s.defer x).thr.ctx.stream = s.thr.ctx.stream := rfl
@[simp] theorem State.defer_ctx_lq0 (s : State) (x : Deferred) : (s.defer x).thr.ctx.lq0 = s.thr.ctx.lq0 := rfl
@[simp] theorem State.defer_ctx_lq1 (s : State) (x : Deferred) : (s.defer x).thr.ctx.lq1 = s.thr.ctx.lq1 := rfl
@[simp] theorem State.defer_ctx_sq0 (s : State) (x : Deferred) : (s.defer x).thr.ctx.sq0 = s.thr.ctx.sq0 := rfl
@[simp] theorem State.defer_ctx_sq1 (s : State) (x : Deferred) : (s.defer x).thr.ctx.sq1 = s.thr.ctx.sq1 := rfl
@[simp] theorem State.defer_ctx_pend (s : State) (x : Deferred) : (s.defer x).thr.ctx.pend = s.thr.ctx.pend := rfl
@[simp] theorem State.defer_ctx_told (s : State) (x : Deferred) : (s.defer x).thr.ctx.told = s.thr.ctx.told := rfl
@[simp] theorem State.defer_ctx_checker (s : State) (x : Deferred) : (s.defer x).thr.ctx.checker = s.thr.ctx.checker := rfl
@[simp] theorem State.defer_ctx_trapCause (s : State) (x : Deferred) : (s.defer x).thr.ctx.trapCause = s.thr.ctx.trapCause := rfl
@[simp] theorem State.defer_ctx_trapAddr (s : State) (x : Deferred) : (s.defer x).thr.ctx.trapAddr = s.thr.ctx.trapAddr := rfl
@[simp] theorem State.defer_ctx_trapPc (s : State) (x : Deferred) : (s.defer x).thr.ctx.trapPc = s.thr.ctx.trapPc := rfl
@[simp] theorem State.defer_ctx_dstack (s : State) (x : Deferred) : (s.defer x).thr.ctx.dstack = s.thr.ctx.dstack := rfl
@[simp] theorem State.defer_ctx_lastStatus (s : State) (x : Deferred) : (s.defer x).thr.ctx.lastStatus = s.thr.ctx.lastStatus := rfl
@[simp] theorem State.defer_ctx_domain (s : State) (x : Deferred) : (s.defer x).thr.ctx.domain = s.thr.ctx.domain := rfl
@[simp] theorem State.defer_ctx_dgen (s : State) (x : Deferred) : (s.defer x).thr.ctx.dgen = s.thr.ctx.dgen := rfl
@[simp] theorem State.defer_ctx_allot (s : State) (x : Deferred) : (s.defer x).thr.ctx.allot = s.thr.ctx.allot := rfl
@[simp] theorem State.defer_ctx_swmask (s : State) (x : Deferred) : (s.defer x).thr.ctx.swmask = s.thr.ctx.swmask := rfl
@[simp] theorem State.defer_ctx_swcount (s : State) (x : Deferred) : (s.defer x).thr.ctx.swcount = s.thr.ctx.swcount := rfl
@[simp] theorem State.defer_ctx_swtree (s : State) (x : Deferred) : (s.defer x).thr.ctx.swtree = s.thr.ctx.swtree := rfl
@[simp] theorem State.defer_ctx_sseq (s : State) (x : Deferred) : (s.defer x).thr.ctx.sseq = s.thr.ctx.sseq := rfl
@[simp] theorem State.defer_ctx_stamped (s : State) (x : Deferred) : (s.defer x).thr.ctx.stamped = s.thr.ctx.stamped := rfl
@[simp] theorem State.defer_ctx_lastTime (s : State) (x : Deferred) : (s.defer x).thr.ctx.lastTime = s.thr.ctx.lastTime := rfl
@[simp] theorem State.defer_ctx_spawned (s : State) (x : Deferred) : (s.defer x).thr.ctx.spawned = s.thr.ctx.spawned := rfl
@[simp] theorem State.defer_ctx_ir (s : State) (x : Deferred) : (s.defer x).thr.ctx.ir = s.thr.ctx.ir := rfl
@[simp] theorem State.countWindows_rest (s : State) : (s.countWindows).rest = s.rest := rfl
@[simp] theorem State.countWindows_mem (s : State) : (s.countWindows).mem = s.mem := rfl
@[simp] theorem State.countWindows_tags (s : State) : (s.countWindows).tags = s.tags := rfl
@[simp] theorem State.countWindows_ctrLines (s : State) : (s.countWindows).ctrLines = s.ctrLines := rfl
@[simp] theorem State.countWindows_poison (s : State) : (s.countWindows).poison = s.poison := rfl
@[simp] theorem State.countWindows_broken (s : State) : (s.countWindows).broken = s.broken := rfl
@[simp] theorem State.countWindows_seals (s : State) : (s.countWindows).seals = s.seals := rfl
@[simp] theorem State.countWindows_worlds (s : State) : (s.countWindows).worlds = s.worlds := rfl
@[simp] theorem State.countWindows_parts (s : State) : (s.countWindows).parts = s.parts := rfl
@[simp] theorem State.countWindows_clusters (s : State) : (s.countWindows).clusters = s.clusters := rfl
@[simp] theorem State.countWindows_hub (s : State) : (s.countWindows).hub = s.hub := rfl
@[simp] theorem State.countWindows_launches (s : State) : (s.countWindows).launches = s.launches := rfl
@[simp] theorem State.countWindows_hostWaits (s : State) : (s.countWindows).hostWaits = s.hostWaits := rfl
@[simp] theorem State.countWindows_sheaf (s : State) : (s.countWindows).sheaf = s.sheaf := rfl
@[simp] theorem State.countWindows_swards (s : State) : (s.countWindows).swards = s.swards := rfl
@[simp] theorem State.countWindows_leavers (s : State) : (s.countWindows).leavers = s.leavers := rfl
@[simp] theorem State.countWindows_recAreas (s : State) : (s.countWindows).recAreas = s.recAreas := rfl
@[simp] theorem State.countWindows_now (s : State) : (s.countWindows).now = s.now := rfl
@[simp] theorem State.countWindows_cycle (s : State) : (s.countWindows).cycle = s.cycle := rfl
@[simp] theorem State.countWindows_inputs (s : State) : (s.countWindows).inputs = s.inputs := rfl
@[simp] theorem State.countWindows_tick (s : State) : (s.countWindows).tick = s.tick := rfl
@[simp] theorem State.countWindows_nextId (s : State) : (s.countWindows).nextId = s.nextId := rfl
@[simp] theorem State.countWindows_thr_tid (s : State) : (s.countWindows).thr.tid = s.thr.tid := rfl
@[simp] theorem State.countWindows_thr_cref (s : State) : (s.countWindows).thr.cref = s.thr.cref := rfl
@[simp] theorem State.countWindows_thr_member (s : State) : (s.countWindows).thr.member = s.thr.member := rfl
@[simp] theorem State.countWindows_thr_world (s : State) : (s.countWindows).thr.world = s.thr.world := rfl
@[simp] theorem State.countWindows_thr_baseDomain (s : State) : (s.countWindows).thr.baseDomain = s.thr.baseDomain := rfl
@[simp] theorem State.countWindows_thr_part (s : State) : (s.countWindows).thr.part = s.thr.part := rfl
@[simp] theorem State.countWindows_thr_launch (s : State) : (s.countWindows).thr.launch = s.thr.launch := rfl
@[simp] theorem State.countWindows_thr_status (s : State) : (s.countWindows).thr.status = s.thr.status := rfl
@[simp] theorem State.countWindows_thr_level (s : State) : (s.countWindows).thr.level = s.thr.level := rfl
@[simp] theorem State.countWindows_thr_cls (s : State) : (s.countWindows).thr.cls = s.thr.cls := rfl
@[simp] theorem State.countWindows_thr_named (s : State) : (s.countWindows).thr.named = s.thr.named := rfl
@[simp] theorem State.countWindows_thr_cluster (s : State) : (s.countWindows).thr.cluster = s.thr.cluster := rfl
@[simp] theorem State.countWindows_thr_ctxb (s : State) : (s.countWindows).thr.ctxb = s.thr.ctxb := rfl
@[simp] theorem State.countWindows_thr_overflow (s : State) : (s.countWindows).thr.overflow = s.thr.overflow := rfl
@[simp] theorem State.countWindows_thr_broken (s : State) : (s.countWindows).thr.broken = s.thr.broken := rfl
@[simp] theorem State.countWindows_thr_logBroken (s : State) : (s.countWindows).thr.logBroken = s.thr.logBroken := rfl
@[simp] theorem State.countWindows_thr_captured (s : State) : (s.countWindows).thr.captured = s.thr.captured := rfl
@[simp] theorem State.countWindows_thr_record (s : State) : (s.countWindows).thr.record = s.thr.record := rfl
@[simp] theorem State.countWindows_thr_tunnelled (s : State) : (s.countWindows).thr.tunnelled = s.thr.tunnelled := rfl
@[simp] theorem State.countWindows_thr_paired (s : State) : (s.countWindows).thr.paired = s.thr.paired := rfl
@[simp] theorem State.countWindows_thr_restartable (s : State) : (s.countWindows).thr.restartable = s.thr.restartable := rfl
@[simp] theorem State.countWindows_thr_prio (s : State) : (s.countWindows).thr.prio = s.thr.prio := rfl
@[simp] theorem State.countWindows_thr_effLevel (s : State) : (s.countWindows).thr.effLevel = s.thr.effLevel := rfl
@[simp] theorem State.countWindows_thr_place (s : State) : (s.countWindows).thr.place = s.thr.place := rfl
@[simp] theorem State.countWindows_thr_spanPlace (s : State) : (s.countWindows).thr.spanPlace = s.thr.spanPlace := rfl
@[simp] theorem State.countWindows_thr_readyOrder (s : State) : (s.countWindows).thr.readyOrder = s.thr.readyOrder := rfl
@[simp] theorem State.countWindows_thr_readySince (s : State) : (s.countWindows).thr.readySince = s.thr.readySince := rfl
@[simp] theorem State.countWindows_thr_slotSince (s : State) : (s.countWindows).thr.slotSince = s.thr.slotSince := rfl
@[simp] theorem State.countWindows_thr_wait (s : State) : (s.countWindows).thr.wait = s.thr.wait := rfl
@[simp] theorem State.countWindows_thr_stall (s : State) : (s.countWindows).thr.stall = s.thr.stall := rfl
@[simp] theorem State.countWindows_thr_waitSince (s : State) : (s.countWindows).thr.waitSince = s.thr.waitSince := rfl
@[simp] theorem State.countWindows_thr_hop (s : State) : (s.countWindows).thr.hop = s.thr.hop := rfl
@[simp] theorem State.countWindows_thr_task (s : State) : (s.countWindows).thr.task = s.thr.task := rfl
@[simp] theorem State.countWindows_thr_recGiving (s : State) : (s.countWindows).thr.recGiving = s.thr.recGiving := rfl
@[simp] theorem State.countWindows_thr_pairOut (s : State) : (s.countWindows).thr.pairOut = s.thr.pairOut := rfl
@[simp] theorem State.countWindows_thr_exitStatus (s : State) : (s.countWindows).thr.exitStatus = s.thr.exitStatus := rfl
@[simp] theorem State.countWindows_ctx_code (s : State) : (s.countWindows).thr.ctx.code = s.thr.ctx.code := rfl
@[simp] theorem State.countWindows_ctx_regs (s : State) : (s.countWindows).thr.ctx.regs = s.thr.ctx.regs := rfl
@[simp] theorem State.countWindows_ctx_regMarks (s : State) : (s.countWindows).thr.ctx.regMarks = s.thr.ctx.regMarks := rfl
@[simp] theorem State.countWindows_ctx_kctr (s : State) : (s.countWindows).thr.ctx.kctr = s.thr.ctx.kctr := rfl
@[simp] theorem State.countWindows_ctx_win (s : State) : (s.countWindows).thr.ctx.win = s.thr.ctx.win := rfl
@[simp] theorem State.countWindows_ctx_wbase (s : State) : (s.countWindows).thr.ctx.wbase = s.thr.ctx.wbase := rfl
@[simp] theorem State.countWindows_ctx_fs (s : State) : (s.countWindows).thr.ctx.fs = s.thr.ctx.fs := rfl
@[simp] theorem State.countWindows_ctx_cdepth (s : State) : (s.countWindows).thr.ctx.cdepth = s.thr.ctx.cdepth := rfl
@[simp] theorem State.countWindows_ctx_wstack (s : State) : (s.countWindows).thr.ctx.wstack = s.thr.ctx.wstack := rfl
@[simp] theorem State.countWindows_ctx_spill (s : State) : (s.countWindows).thr.ctx.spill = s.thr.ctx.spill := rfl
@[simp] theorem State.countWindows_ctx_vbase (s : State) : (s.countWindows).thr.ctx.vbase = s.thr.ctx.vbase := rfl
@[simp] theorem State.countWindows_ctx_tbase (s : State) : (s.countWindows).thr.ctx.tbase = s.thr.ctx.tbase := rfl
@[simp] theorem State.countWindows_ctx_tstride (s : State) : (s.countWindows).thr.ctx.tstride = s.thr.ctx.tstride := rfl
@[simp] theorem State.countWindows_ctx_tshape (s : State) : (s.countWindows).thr.ctx.tshape = s.thr.ctx.tshape := rfl
@[simp] theorem State.countWindows_ctx_fmtWord (s : State) : (s.countWindows).thr.ctx.fmtWord = s.thr.ctx.fmtWord := rfl
@[simp] theorem State.countWindows_ctx_tscale (s : State) : (s.countWindows).thr.ctx.tscale = s.thr.ctx.tscale := rfl
@[simp] theorem State.countWindows_ctx_xflags (s : State) : (s.countWindows).thr.ctx.xflags = s.thr.ctx.xflags := rfl
@[simp] theorem State.countWindows_ctx_stream (s : State) : (s.countWindows).thr.ctx.stream = s.thr.ctx.stream := rfl
@[simp] theorem State.countWindows_ctx_lq0 (s : State) : (s.countWindows).thr.ctx.lq0 = s.thr.ctx.lq0 := rfl
@[simp] theorem State.countWindows_ctx_lq1 (s : State) : (s.countWindows).thr.ctx.lq1 = s.thr.ctx.lq1 := rfl
@[simp] theorem State.countWindows_ctx_sq0 (s : State) : (s.countWindows).thr.ctx.sq0 = s.thr.ctx.sq0 := rfl
@[simp] theorem State.countWindows_ctx_sq1 (s : State) : (s.countWindows).thr.ctx.sq1 = s.thr.ctx.sq1 := rfl
@[simp] theorem State.countWindows_ctx_late (s : State) : (s.countWindows).thr.ctx.late = s.thr.ctx.late := rfl
@[simp] theorem State.countWindows_ctx_told (s : State) : (s.countWindows).thr.ctx.told = s.thr.ctx.told := rfl
@[simp] theorem State.countWindows_ctx_checker (s : State) : (s.countWindows).thr.ctx.checker = s.thr.ctx.checker := rfl
@[simp] theorem State.countWindows_ctx_trapCause (s : State) : (s.countWindows).thr.ctx.trapCause = s.thr.ctx.trapCause := rfl
@[simp] theorem State.countWindows_ctx_trapAddr (s : State) : (s.countWindows).thr.ctx.trapAddr = s.thr.ctx.trapAddr := rfl
@[simp] theorem State.countWindows_ctx_trapPc (s : State) : (s.countWindows).thr.ctx.trapPc = s.thr.ctx.trapPc := rfl
@[simp] theorem State.countWindows_ctx_dstack (s : State) : (s.countWindows).thr.ctx.dstack = s.thr.ctx.dstack := rfl
@[simp] theorem State.countWindows_ctx_lastStatus (s : State) : (s.countWindows).thr.ctx.lastStatus = s.thr.ctx.lastStatus := rfl
@[simp] theorem State.countWindows_ctx_domain (s : State) : (s.countWindows).thr.ctx.domain = s.thr.ctx.domain := rfl
@[simp] theorem State.countWindows_ctx_dgen (s : State) : (s.countWindows).thr.ctx.dgen = s.thr.ctx.dgen := rfl
@[simp] theorem State.countWindows_ctx_allot (s : State) : (s.countWindows).thr.ctx.allot = s.thr.ctx.allot := rfl
@[simp] theorem State.countWindows_ctx_swmask (s : State) : (s.countWindows).thr.ctx.swmask = s.thr.ctx.swmask := rfl
@[simp] theorem State.countWindows_ctx_swcount (s : State) : (s.countWindows).thr.ctx.swcount = s.thr.ctx.swcount := rfl
@[simp] theorem State.countWindows_ctx_swtree (s : State) : (s.countWindows).thr.ctx.swtree = s.thr.ctx.swtree := rfl
@[simp] theorem State.countWindows_ctx_sseq (s : State) : (s.countWindows).thr.ctx.sseq = s.thr.ctx.sseq := rfl
@[simp] theorem State.countWindows_ctx_stamped (s : State) : (s.countWindows).thr.ctx.stamped = s.thr.ctx.stamped := rfl
@[simp] theorem State.countWindows_ctx_lastTime (s : State) : (s.countWindows).thr.ctx.lastTime = s.thr.ctx.lastTime := rfl
@[simp] theorem State.countWindows_ctx_spawned (s : State) : (s.countWindows).thr.ctx.spawned = s.thr.ctx.spawned := rfl
@[simp] theorem State.countWindows_ctx_ir (s : State) : (s.countWindows).thr.ctx.ir = s.thr.ctx.ir := rfl
@[simp] theorem State.countChecker_rest (s : State) : (s.countChecker).rest = s.rest := rfl
@[simp] theorem State.countChecker_mem (s : State) : (s.countChecker).mem = s.mem := rfl
@[simp] theorem State.countChecker_tags (s : State) : (s.countChecker).tags = s.tags := rfl
@[simp] theorem State.countChecker_ctrLines (s : State) : (s.countChecker).ctrLines = s.ctrLines := rfl
@[simp] theorem State.countChecker_poison (s : State) : (s.countChecker).poison = s.poison := rfl
@[simp] theorem State.countChecker_broken (s : State) : (s.countChecker).broken = s.broken := rfl
@[simp] theorem State.countChecker_seals (s : State) : (s.countChecker).seals = s.seals := rfl
@[simp] theorem State.countChecker_worlds (s : State) : (s.countChecker).worlds = s.worlds := rfl
@[simp] theorem State.countChecker_parts (s : State) : (s.countChecker).parts = s.parts := rfl
@[simp] theorem State.countChecker_clusters (s : State) : (s.countChecker).clusters = s.clusters := rfl
@[simp] theorem State.countChecker_hub (s : State) : (s.countChecker).hub = s.hub := rfl
@[simp] theorem State.countChecker_launches (s : State) : (s.countChecker).launches = s.launches := rfl
@[simp] theorem State.countChecker_hostWaits (s : State) : (s.countChecker).hostWaits = s.hostWaits := rfl
@[simp] theorem State.countChecker_sheaf (s : State) : (s.countChecker).sheaf = s.sheaf := rfl
@[simp] theorem State.countChecker_swards (s : State) : (s.countChecker).swards = s.swards := rfl
@[simp] theorem State.countChecker_leavers (s : State) : (s.countChecker).leavers = s.leavers := rfl
@[simp] theorem State.countChecker_recAreas (s : State) : (s.countChecker).recAreas = s.recAreas := rfl
@[simp] theorem State.countChecker_now (s : State) : (s.countChecker).now = s.now := rfl
@[simp] theorem State.countChecker_cycle (s : State) : (s.countChecker).cycle = s.cycle := rfl
@[simp] theorem State.countChecker_inputs (s : State) : (s.countChecker).inputs = s.inputs := rfl
@[simp] theorem State.countChecker_tick (s : State) : (s.countChecker).tick = s.tick := rfl
@[simp] theorem State.countChecker_nextId (s : State) : (s.countChecker).nextId = s.nextId := rfl
@[simp] theorem State.countChecker_thr_tid (s : State) : (s.countChecker).thr.tid = s.thr.tid := rfl
@[simp] theorem State.countChecker_thr_cref (s : State) : (s.countChecker).thr.cref = s.thr.cref := rfl
@[simp] theorem State.countChecker_thr_member (s : State) : (s.countChecker).thr.member = s.thr.member := rfl
@[simp] theorem State.countChecker_thr_world (s : State) : (s.countChecker).thr.world = s.thr.world := rfl
@[simp] theorem State.countChecker_thr_baseDomain (s : State) : (s.countChecker).thr.baseDomain = s.thr.baseDomain := rfl
@[simp] theorem State.countChecker_thr_part (s : State) : (s.countChecker).thr.part = s.thr.part := rfl
@[simp] theorem State.countChecker_thr_launch (s : State) : (s.countChecker).thr.launch = s.thr.launch := rfl
@[simp] theorem State.countChecker_thr_status (s : State) : (s.countChecker).thr.status = s.thr.status := rfl
@[simp] theorem State.countChecker_thr_level (s : State) : (s.countChecker).thr.level = s.thr.level := rfl
@[simp] theorem State.countChecker_thr_cls (s : State) : (s.countChecker).thr.cls = s.thr.cls := rfl
@[simp] theorem State.countChecker_thr_named (s : State) : (s.countChecker).thr.named = s.thr.named := rfl
@[simp] theorem State.countChecker_thr_cluster (s : State) : (s.countChecker).thr.cluster = s.thr.cluster := rfl
@[simp] theorem State.countChecker_thr_ctxb (s : State) : (s.countChecker).thr.ctxb = s.thr.ctxb := rfl
@[simp] theorem State.countChecker_thr_overflow (s : State) : (s.countChecker).thr.overflow = s.thr.overflow := rfl
@[simp] theorem State.countChecker_thr_broken (s : State) : (s.countChecker).thr.broken = s.thr.broken := rfl
@[simp] theorem State.countChecker_thr_logBroken (s : State) : (s.countChecker).thr.logBroken = s.thr.logBroken := rfl
@[simp] theorem State.countChecker_thr_captured (s : State) : (s.countChecker).thr.captured = s.thr.captured := rfl
@[simp] theorem State.countChecker_thr_record (s : State) : (s.countChecker).thr.record = s.thr.record := rfl
@[simp] theorem State.countChecker_thr_tunnelled (s : State) : (s.countChecker).thr.tunnelled = s.thr.tunnelled := rfl
@[simp] theorem State.countChecker_thr_paired (s : State) : (s.countChecker).thr.paired = s.thr.paired := rfl
@[simp] theorem State.countChecker_thr_restartable (s : State) : (s.countChecker).thr.restartable = s.thr.restartable := rfl
@[simp] theorem State.countChecker_thr_prio (s : State) : (s.countChecker).thr.prio = s.thr.prio := rfl
@[simp] theorem State.countChecker_thr_effLevel (s : State) : (s.countChecker).thr.effLevel = s.thr.effLevel := rfl
@[simp] theorem State.countChecker_thr_place (s : State) : (s.countChecker).thr.place = s.thr.place := rfl
@[simp] theorem State.countChecker_thr_spanPlace (s : State) : (s.countChecker).thr.spanPlace = s.thr.spanPlace := rfl
@[simp] theorem State.countChecker_thr_readyOrder (s : State) : (s.countChecker).thr.readyOrder = s.thr.readyOrder := rfl
@[simp] theorem State.countChecker_thr_readySince (s : State) : (s.countChecker).thr.readySince = s.thr.readySince := rfl
@[simp] theorem State.countChecker_thr_slotSince (s : State) : (s.countChecker).thr.slotSince = s.thr.slotSince := rfl
@[simp] theorem State.countChecker_thr_wait (s : State) : (s.countChecker).thr.wait = s.thr.wait := rfl
@[simp] theorem State.countChecker_thr_stall (s : State) : (s.countChecker).thr.stall = s.thr.stall := rfl
@[simp] theorem State.countChecker_thr_waitSince (s : State) : (s.countChecker).thr.waitSince = s.thr.waitSince := rfl
@[simp] theorem State.countChecker_thr_hop (s : State) : (s.countChecker).thr.hop = s.thr.hop := rfl
@[simp] theorem State.countChecker_thr_task (s : State) : (s.countChecker).thr.task = s.thr.task := rfl
@[simp] theorem State.countChecker_thr_recGiving (s : State) : (s.countChecker).thr.recGiving = s.thr.recGiving := rfl
@[simp] theorem State.countChecker_thr_pairOut (s : State) : (s.countChecker).thr.pairOut = s.thr.pairOut := rfl
@[simp] theorem State.countChecker_thr_exitStatus (s : State) : (s.countChecker).thr.exitStatus = s.thr.exitStatus := rfl
@[simp] theorem State.countChecker_ctx_code (s : State) : (s.countChecker).thr.ctx.code = s.thr.ctx.code := rfl
@[simp] theorem State.countChecker_ctx_regs (s : State) : (s.countChecker).thr.ctx.regs = s.thr.ctx.regs := rfl
@[simp] theorem State.countChecker_ctx_regMarks (s : State) : (s.countChecker).thr.ctx.regMarks = s.thr.ctx.regMarks := rfl
@[simp] theorem State.countChecker_ctx_kctr (s : State) : (s.countChecker).thr.ctx.kctr = s.thr.ctx.kctr := rfl
@[simp] theorem State.countChecker_ctx_win (s : State) : (s.countChecker).thr.ctx.win = s.thr.ctx.win := rfl
@[simp] theorem State.countChecker_ctx_wbase (s : State) : (s.countChecker).thr.ctx.wbase = s.thr.ctx.wbase := rfl
@[simp] theorem State.countChecker_ctx_fs (s : State) : (s.countChecker).thr.ctx.fs = s.thr.ctx.fs := rfl
@[simp] theorem State.countChecker_ctx_cdepth (s : State) : (s.countChecker).thr.ctx.cdepth = s.thr.ctx.cdepth := rfl
@[simp] theorem State.countChecker_ctx_wstack (s : State) : (s.countChecker).thr.ctx.wstack = s.thr.ctx.wstack := rfl
@[simp] theorem State.countChecker_ctx_spill (s : State) : (s.countChecker).thr.ctx.spill = s.thr.ctx.spill := rfl
@[simp] theorem State.countChecker_ctx_vbase (s : State) : (s.countChecker).thr.ctx.vbase = s.thr.ctx.vbase := rfl
@[simp] theorem State.countChecker_ctx_tbase (s : State) : (s.countChecker).thr.ctx.tbase = s.thr.ctx.tbase := rfl
@[simp] theorem State.countChecker_ctx_tstride (s : State) : (s.countChecker).thr.ctx.tstride = s.thr.ctx.tstride := rfl
@[simp] theorem State.countChecker_ctx_tshape (s : State) : (s.countChecker).thr.ctx.tshape = s.thr.ctx.tshape := rfl
@[simp] theorem State.countChecker_ctx_fmtWord (s : State) : (s.countChecker).thr.ctx.fmtWord = s.thr.ctx.fmtWord := rfl
@[simp] theorem State.countChecker_ctx_tscale (s : State) : (s.countChecker).thr.ctx.tscale = s.thr.ctx.tscale := rfl
@[simp] theorem State.countChecker_ctx_xflags (s : State) : (s.countChecker).thr.ctx.xflags = s.thr.ctx.xflags := rfl
@[simp] theorem State.countChecker_ctx_stream (s : State) : (s.countChecker).thr.ctx.stream = s.thr.ctx.stream := rfl
@[simp] theorem State.countChecker_ctx_lq0 (s : State) : (s.countChecker).thr.ctx.lq0 = s.thr.ctx.lq0 := rfl
@[simp] theorem State.countChecker_ctx_lq1 (s : State) : (s.countChecker).thr.ctx.lq1 = s.thr.ctx.lq1 := rfl
@[simp] theorem State.countChecker_ctx_sq0 (s : State) : (s.countChecker).thr.ctx.sq0 = s.thr.ctx.sq0 := rfl
@[simp] theorem State.countChecker_ctx_sq1 (s : State) : (s.countChecker).thr.ctx.sq1 = s.thr.ctx.sq1 := rfl
@[simp] theorem State.countChecker_ctx_pend (s : State) : (s.countChecker).thr.ctx.pend = s.thr.ctx.pend := rfl
@[simp] theorem State.countChecker_ctx_late (s : State) : (s.countChecker).thr.ctx.late = s.thr.ctx.late := rfl
@[simp] theorem State.countChecker_ctx_told (s : State) : (s.countChecker).thr.ctx.told = s.thr.ctx.told := rfl
@[simp] theorem State.countChecker_ctx_trapCause (s : State) : (s.countChecker).thr.ctx.trapCause = s.thr.ctx.trapCause := rfl
@[simp] theorem State.countChecker_ctx_trapAddr (s : State) : (s.countChecker).thr.ctx.trapAddr = s.thr.ctx.trapAddr := rfl
@[simp] theorem State.countChecker_ctx_trapPc (s : State) : (s.countChecker).thr.ctx.trapPc = s.thr.ctx.trapPc := rfl
@[simp] theorem State.countChecker_ctx_dstack (s : State) : (s.countChecker).thr.ctx.dstack = s.thr.ctx.dstack := rfl
@[simp] theorem State.countChecker_ctx_lastStatus (s : State) : (s.countChecker).thr.ctx.lastStatus = s.thr.ctx.lastStatus := rfl
@[simp] theorem State.countChecker_ctx_domain (s : State) : (s.countChecker).thr.ctx.domain = s.thr.ctx.domain := rfl
@[simp] theorem State.countChecker_ctx_dgen (s : State) : (s.countChecker).thr.ctx.dgen = s.thr.ctx.dgen := rfl
@[simp] theorem State.countChecker_ctx_allot (s : State) : (s.countChecker).thr.ctx.allot = s.thr.ctx.allot := rfl
@[simp] theorem State.countChecker_ctx_swmask (s : State) : (s.countChecker).thr.ctx.swmask = s.thr.ctx.swmask := rfl
@[simp] theorem State.countChecker_ctx_swcount (s : State) : (s.countChecker).thr.ctx.swcount = s.thr.ctx.swcount := rfl
@[simp] theorem State.countChecker_ctx_swtree (s : State) : (s.countChecker).thr.ctx.swtree = s.thr.ctx.swtree := rfl
@[simp] theorem State.countChecker_ctx_sseq (s : State) : (s.countChecker).thr.ctx.sseq = s.thr.ctx.sseq := rfl
@[simp] theorem State.countChecker_ctx_stamped (s : State) : (s.countChecker).thr.ctx.stamped = s.thr.ctx.stamped := rfl
@[simp] theorem State.countChecker_ctx_lastTime (s : State) : (s.countChecker).thr.ctx.lastTime = s.thr.ctx.lastTime := rfl
@[simp] theorem State.countChecker_ctx_spawned (s : State) : (s.countChecker).thr.ctx.spawned = s.thr.ctx.spawned := rfl
@[simp] theorem State.countChecker_ctx_ir (s : State) : (s.countChecker).thr.ctx.ir = s.thr.ctx.ir := rfl
@[simp] theorem State.complete_rest (s : State) : (s.complete).rest = s.rest := rfl
@[simp] theorem State.complete_mem (s : State) : (s.complete).mem = s.mem := rfl
@[simp] theorem State.complete_tags (s : State) : (s.complete).tags = s.tags := rfl
@[simp] theorem State.complete_ctrLines (s : State) : (s.complete).ctrLines = s.ctrLines := rfl
@[simp] theorem State.complete_poison (s : State) : (s.complete).poison = s.poison := rfl
@[simp] theorem State.complete_broken (s : State) : (s.complete).broken = s.broken := rfl
@[simp] theorem State.complete_seals (s : State) : (s.complete).seals = s.seals := rfl
@[simp] theorem State.complete_worlds (s : State) : (s.complete).worlds = s.worlds := rfl
@[simp] theorem State.complete_parts (s : State) : (s.complete).parts = s.parts := rfl
@[simp] theorem State.complete_clusters (s : State) : (s.complete).clusters = s.clusters := rfl
@[simp] theorem State.complete_hub (s : State) : (s.complete).hub = s.hub := rfl
@[simp] theorem State.complete_launches (s : State) : (s.complete).launches = s.launches := rfl
@[simp] theorem State.complete_hostWaits (s : State) : (s.complete).hostWaits = s.hostWaits := rfl
@[simp] theorem State.complete_sheaf (s : State) : (s.complete).sheaf = s.sheaf := rfl
@[simp] theorem State.complete_swards (s : State) : (s.complete).swards = s.swards := rfl
@[simp] theorem State.complete_leavers (s : State) : (s.complete).leavers = s.leavers := rfl
@[simp] theorem State.complete_recAreas (s : State) : (s.complete).recAreas = s.recAreas := rfl
@[simp] theorem State.complete_now (s : State) : (s.complete).now = s.now := rfl
@[simp] theorem State.complete_cycle (s : State) : (s.complete).cycle = s.cycle := rfl
@[simp] theorem State.complete_inputs (s : State) : (s.complete).inputs = s.inputs := rfl
@[simp] theorem State.complete_tick (s : State) : (s.complete).tick = s.tick := rfl
@[simp] theorem State.complete_nextId (s : State) : (s.complete).nextId = s.nextId := rfl
@[simp] theorem State.complete_thr_tid (s : State) : (s.complete).thr.tid = s.thr.tid := rfl
@[simp] theorem State.complete_thr_cref (s : State) : (s.complete).thr.cref = s.thr.cref := rfl
@[simp] theorem State.complete_thr_member (s : State) : (s.complete).thr.member = s.thr.member := rfl
@[simp] theorem State.complete_thr_world (s : State) : (s.complete).thr.world = s.thr.world := rfl
@[simp] theorem State.complete_thr_baseDomain (s : State) : (s.complete).thr.baseDomain = s.thr.baseDomain := rfl
@[simp] theorem State.complete_thr_part (s : State) : (s.complete).thr.part = s.thr.part := rfl
@[simp] theorem State.complete_thr_launch (s : State) : (s.complete).thr.launch = s.thr.launch := rfl
@[simp] theorem State.complete_thr_status (s : State) : (s.complete).thr.status = s.thr.status := rfl
@[simp] theorem State.complete_thr_level (s : State) : (s.complete).thr.level = s.thr.level := rfl
@[simp] theorem State.complete_thr_cls (s : State) : (s.complete).thr.cls = s.thr.cls := rfl
@[simp] theorem State.complete_thr_named (s : State) : (s.complete).thr.named = s.thr.named := rfl
@[simp] theorem State.complete_thr_cluster (s : State) : (s.complete).thr.cluster = s.thr.cluster := rfl
@[simp] theorem State.complete_thr_ctxb (s : State) : (s.complete).thr.ctxb = s.thr.ctxb := rfl
@[simp] theorem State.complete_thr_overflow (s : State) : (s.complete).thr.overflow = s.thr.overflow := rfl
@[simp] theorem State.complete_thr_broken (s : State) : (s.complete).thr.broken = s.thr.broken := rfl
@[simp] theorem State.complete_thr_logBroken (s : State) : (s.complete).thr.logBroken = s.thr.logBroken := rfl
@[simp] theorem State.complete_thr_captured (s : State) : (s.complete).thr.captured = s.thr.captured := rfl
@[simp] theorem State.complete_thr_record (s : State) : (s.complete).thr.record = s.thr.record := rfl
@[simp] theorem State.complete_thr_tunnelled (s : State) : (s.complete).thr.tunnelled = s.thr.tunnelled := rfl
@[simp] theorem State.complete_thr_paired (s : State) : (s.complete).thr.paired = s.thr.paired := rfl
@[simp] theorem State.complete_thr_restartable (s : State) : (s.complete).thr.restartable = s.thr.restartable := rfl
@[simp] theorem State.complete_thr_prio (s : State) : (s.complete).thr.prio = s.thr.prio := rfl
@[simp] theorem State.complete_thr_effLevel (s : State) : (s.complete).thr.effLevel = s.thr.effLevel := rfl
@[simp] theorem State.complete_thr_place (s : State) : (s.complete).thr.place = s.thr.place := rfl
@[simp] theorem State.complete_thr_spanPlace (s : State) : (s.complete).thr.spanPlace = s.thr.spanPlace := rfl
@[simp] theorem State.complete_thr_readyOrder (s : State) : (s.complete).thr.readyOrder = s.thr.readyOrder := rfl
@[simp] theorem State.complete_thr_readySince (s : State) : (s.complete).thr.readySince = s.thr.readySince := rfl
@[simp] theorem State.complete_thr_slotSince (s : State) : (s.complete).thr.slotSince = s.thr.slotSince := rfl
@[simp] theorem State.complete_thr_wait (s : State) : (s.complete).thr.wait = s.thr.wait := rfl
@[simp] theorem State.complete_thr_stall (s : State) : (s.complete).thr.stall = s.thr.stall := rfl
@[simp] theorem State.complete_thr_waitSince (s : State) : (s.complete).thr.waitSince = s.thr.waitSince := rfl
@[simp] theorem State.complete_thr_hop (s : State) : (s.complete).thr.hop = s.thr.hop := rfl
@[simp] theorem State.complete_thr_task (s : State) : (s.complete).thr.task = s.thr.task := rfl
@[simp] theorem State.complete_thr_recGiving (s : State) : (s.complete).thr.recGiving = s.thr.recGiving := rfl
@[simp] theorem State.complete_thr_pairOut (s : State) : (s.complete).thr.pairOut = s.thr.pairOut := rfl
@[simp] theorem State.complete_thr_exitStatus (s : State) : (s.complete).thr.exitStatus = s.thr.exitStatus := rfl
@[simp] theorem State.complete_ctx_code (s : State) : (s.complete).thr.ctx.code = s.thr.ctx.code := rfl
@[simp] theorem State.complete_ctx_regs (s : State) : (s.complete).thr.ctx.regs = s.thr.ctx.regs := rfl
@[simp] theorem State.complete_ctx_regMarks (s : State) : (s.complete).thr.ctx.regMarks = s.thr.ctx.regMarks := rfl
@[simp] theorem State.complete_ctx_kctr (s : State) : (s.complete).thr.ctx.kctr = s.thr.ctx.kctr := rfl
@[simp] theorem State.complete_ctx_win (s : State) : (s.complete).thr.ctx.win = s.thr.ctx.win := rfl
@[simp] theorem State.complete_ctx_wbase (s : State) : (s.complete).thr.ctx.wbase = s.thr.ctx.wbase := rfl
@[simp] theorem State.complete_ctx_fs (s : State) : (s.complete).thr.ctx.fs = s.thr.ctx.fs := rfl
@[simp] theorem State.complete_ctx_cdepth (s : State) : (s.complete).thr.ctx.cdepth = s.thr.ctx.cdepth := rfl
@[simp] theorem State.complete_ctx_wstack (s : State) : (s.complete).thr.ctx.wstack = s.thr.ctx.wstack := rfl
@[simp] theorem State.complete_ctx_spill (s : State) : (s.complete).thr.ctx.spill = s.thr.ctx.spill := rfl
@[simp] theorem State.complete_ctx_vbase (s : State) : (s.complete).thr.ctx.vbase = s.thr.ctx.vbase := rfl
@[simp] theorem State.complete_ctx_tbase (s : State) : (s.complete).thr.ctx.tbase = s.thr.ctx.tbase := rfl
@[simp] theorem State.complete_ctx_tstride (s : State) : (s.complete).thr.ctx.tstride = s.thr.ctx.tstride := rfl
@[simp] theorem State.complete_ctx_tshape (s : State) : (s.complete).thr.ctx.tshape = s.thr.ctx.tshape := rfl
@[simp] theorem State.complete_ctx_fmtWord (s : State) : (s.complete).thr.ctx.fmtWord = s.thr.ctx.fmtWord := rfl
@[simp] theorem State.complete_ctx_tscale (s : State) : (s.complete).thr.ctx.tscale = s.thr.ctx.tscale := rfl
@[simp] theorem State.complete_ctx_xflags (s : State) : (s.complete).thr.ctx.xflags = s.thr.ctx.xflags := rfl
@[simp] theorem State.complete_ctx_stream (s : State) : (s.complete).thr.ctx.stream = s.thr.ctx.stream := rfl
@[simp] theorem State.complete_ctx_lq0 (s : State) : (s.complete).thr.ctx.lq0 = s.thr.ctx.lq0 := rfl
@[simp] theorem State.complete_ctx_lq1 (s : State) : (s.complete).thr.ctx.lq1 = s.thr.ctx.lq1 := rfl
@[simp] theorem State.complete_ctx_sq0 (s : State) : (s.complete).thr.ctx.sq0 = s.thr.ctx.sq0 := rfl
@[simp] theorem State.complete_ctx_sq1 (s : State) : (s.complete).thr.ctx.sq1 = s.thr.ctx.sq1 := rfl
@[simp] theorem State.complete_ctx_late (s : State) : (s.complete).thr.ctx.late = s.thr.ctx.late := rfl
@[simp] theorem State.complete_ctx_told (s : State) : (s.complete).thr.ctx.told = s.thr.ctx.told := rfl
@[simp] theorem State.complete_ctx_trapCause (s : State) : (s.complete).thr.ctx.trapCause = s.thr.ctx.trapCause := rfl
@[simp] theorem State.complete_ctx_trapAddr (s : State) : (s.complete).thr.ctx.trapAddr = s.thr.ctx.trapAddr := rfl
@[simp] theorem State.complete_ctx_trapPc (s : State) : (s.complete).thr.ctx.trapPc = s.thr.ctx.trapPc := rfl
@[simp] theorem State.complete_ctx_dstack (s : State) : (s.complete).thr.ctx.dstack = s.thr.ctx.dstack := rfl
@[simp] theorem State.complete_ctx_lastStatus (s : State) : (s.complete).thr.ctx.lastStatus = s.thr.ctx.lastStatus := rfl
@[simp] theorem State.complete_ctx_domain (s : State) : (s.complete).thr.ctx.domain = s.thr.ctx.domain := rfl
@[simp] theorem State.complete_ctx_dgen (s : State) : (s.complete).thr.ctx.dgen = s.thr.ctx.dgen := rfl
@[simp] theorem State.complete_ctx_allot (s : State) : (s.complete).thr.ctx.allot = s.thr.ctx.allot := rfl
@[simp] theorem State.complete_ctx_swmask (s : State) : (s.complete).thr.ctx.swmask = s.thr.ctx.swmask := rfl
@[simp] theorem State.complete_ctx_swcount (s : State) : (s.complete).thr.ctx.swcount = s.thr.ctx.swcount := rfl
@[simp] theorem State.complete_ctx_swtree (s : State) : (s.complete).thr.ctx.swtree = s.thr.ctx.swtree := rfl
@[simp] theorem State.complete_ctx_sseq (s : State) : (s.complete).thr.ctx.sseq = s.thr.ctx.sseq := rfl
@[simp] theorem State.complete_ctx_stamped (s : State) : (s.complete).thr.ctx.stamped = s.thr.ctx.stamped := rfl
@[simp] theorem State.complete_ctx_lastTime (s : State) : (s.complete).thr.ctx.lastTime = s.thr.ctx.lastTime := rfl
@[simp] theorem State.complete_ctx_spawned (s : State) : (s.complete).thr.ctx.spawned = s.thr.ctx.spawned := rfl
@[simp] theorem State.complete_ctx_ir (s : State) : (s.complete).thr.ctx.ir = s.thr.ctx.ir := rfl
@[simp] theorem State.land_rest (s : State) : (s.land).rest = s.rest := rfl
@[simp] theorem State.land_mem (s : State) : (s.land).mem = s.mem := rfl
@[simp] theorem State.land_tags (s : State) : (s.land).tags = s.tags := rfl
@[simp] theorem State.land_ctrLines (s : State) : (s.land).ctrLines = s.ctrLines := rfl
@[simp] theorem State.land_poison (s : State) : (s.land).poison = s.poison := rfl
@[simp] theorem State.land_broken (s : State) : (s.land).broken = s.broken := rfl
@[simp] theorem State.land_seals (s : State) : (s.land).seals = s.seals := rfl
@[simp] theorem State.land_worlds (s : State) : (s.land).worlds = s.worlds := rfl
@[simp] theorem State.land_parts (s : State) : (s.land).parts = s.parts := rfl
@[simp] theorem State.land_clusters (s : State) : (s.land).clusters = s.clusters := rfl
@[simp] theorem State.land_hub (s : State) : (s.land).hub = s.hub := rfl
@[simp] theorem State.land_launches (s : State) : (s.land).launches = s.launches := rfl
@[simp] theorem State.land_hostWaits (s : State) : (s.land).hostWaits = s.hostWaits := rfl
@[simp] theorem State.land_sheaf (s : State) : (s.land).sheaf = s.sheaf := rfl
@[simp] theorem State.land_swards (s : State) : (s.land).swards = s.swards := rfl
@[simp] theorem State.land_leavers (s : State) : (s.land).leavers = s.leavers := rfl
@[simp] theorem State.land_recAreas (s : State) : (s.land).recAreas = s.recAreas := rfl
@[simp] theorem State.land_now (s : State) : (s.land).now = s.now := rfl
@[simp] theorem State.land_cycle (s : State) : (s.land).cycle = s.cycle := rfl
@[simp] theorem State.land_inputs (s : State) : (s.land).inputs = s.inputs := rfl
@[simp] theorem State.land_tick (s : State) : (s.land).tick = s.tick := rfl
@[simp] theorem State.land_nextId (s : State) : (s.land).nextId = s.nextId := rfl
@[simp] theorem State.land_thr_tid (s : State) : (s.land).thr.tid = s.thr.tid := rfl
@[simp] theorem State.land_thr_cref (s : State) : (s.land).thr.cref = s.thr.cref := rfl
@[simp] theorem State.land_thr_member (s : State) : (s.land).thr.member = s.thr.member := rfl
@[simp] theorem State.land_thr_world (s : State) : (s.land).thr.world = s.thr.world := rfl
@[simp] theorem State.land_thr_baseDomain (s : State) : (s.land).thr.baseDomain = s.thr.baseDomain := rfl
@[simp] theorem State.land_thr_part (s : State) : (s.land).thr.part = s.thr.part := rfl
@[simp] theorem State.land_thr_launch (s : State) : (s.land).thr.launch = s.thr.launch := rfl
@[simp] theorem State.land_thr_status (s : State) : (s.land).thr.status = s.thr.status := rfl
@[simp] theorem State.land_thr_level (s : State) : (s.land).thr.level = s.thr.level := rfl
@[simp] theorem State.land_thr_cls (s : State) : (s.land).thr.cls = s.thr.cls := rfl
@[simp] theorem State.land_thr_named (s : State) : (s.land).thr.named = s.thr.named := rfl
@[simp] theorem State.land_thr_cluster (s : State) : (s.land).thr.cluster = s.thr.cluster := rfl
@[simp] theorem State.land_thr_ctxb (s : State) : (s.land).thr.ctxb = s.thr.ctxb := rfl
@[simp] theorem State.land_thr_overflow (s : State) : (s.land).thr.overflow = s.thr.overflow := rfl
@[simp] theorem State.land_thr_broken (s : State) : (s.land).thr.broken = s.thr.broken := rfl
@[simp] theorem State.land_thr_logBroken (s : State) : (s.land).thr.logBroken = s.thr.logBroken := rfl
@[simp] theorem State.land_thr_captured (s : State) : (s.land).thr.captured = s.thr.captured := rfl
@[simp] theorem State.land_thr_record (s : State) : (s.land).thr.record = s.thr.record := rfl
@[simp] theorem State.land_thr_tunnelled (s : State) : (s.land).thr.tunnelled = s.thr.tunnelled := rfl
@[simp] theorem State.land_thr_paired (s : State) : (s.land).thr.paired = s.thr.paired := rfl
@[simp] theorem State.land_thr_restartable (s : State) : (s.land).thr.restartable = s.thr.restartable := rfl
@[simp] theorem State.land_thr_prio (s : State) : (s.land).thr.prio = s.thr.prio := rfl
@[simp] theorem State.land_thr_effLevel (s : State) : (s.land).thr.effLevel = s.thr.effLevel := rfl
@[simp] theorem State.land_thr_place (s : State) : (s.land).thr.place = s.thr.place := rfl
@[simp] theorem State.land_thr_spanPlace (s : State) : (s.land).thr.spanPlace = s.thr.spanPlace := rfl
@[simp] theorem State.land_thr_readyOrder (s : State) : (s.land).thr.readyOrder = s.thr.readyOrder := rfl
@[simp] theorem State.land_thr_readySince (s : State) : (s.land).thr.readySince = s.thr.readySince := rfl
@[simp] theorem State.land_thr_slotSince (s : State) : (s.land).thr.slotSince = s.thr.slotSince := rfl
@[simp] theorem State.land_thr_wait (s : State) : (s.land).thr.wait = s.thr.wait := rfl
@[simp] theorem State.land_thr_stall (s : State) : (s.land).thr.stall = s.thr.stall := rfl
@[simp] theorem State.land_thr_waitSince (s : State) : (s.land).thr.waitSince = s.thr.waitSince := rfl
@[simp] theorem State.land_thr_hop (s : State) : (s.land).thr.hop = s.thr.hop := rfl
@[simp] theorem State.land_thr_task (s : State) : (s.land).thr.task = s.thr.task := rfl
@[simp] theorem State.land_thr_recGiving (s : State) : (s.land).thr.recGiving = s.thr.recGiving := rfl
@[simp] theorem State.land_thr_pairOut (s : State) : (s.land).thr.pairOut = s.thr.pairOut := rfl
@[simp] theorem State.land_thr_exitStatus (s : State) : (s.land).thr.exitStatus = s.thr.exitStatus := rfl
@[simp] theorem State.land_ctx_code (s : State) : (s.land).thr.ctx.code = s.thr.ctx.code := rfl
@[simp] theorem State.land_ctx_regs (s : State) : (s.land).thr.ctx.regs = s.thr.ctx.regs := rfl
@[simp] theorem State.land_ctx_regMarks (s : State) : (s.land).thr.ctx.regMarks = s.thr.ctx.regMarks := rfl
@[simp] theorem State.land_ctx_kctr (s : State) : (s.land).thr.ctx.kctr = s.thr.ctx.kctr := rfl
@[simp] theorem State.land_ctx_win (s : State) : (s.land).thr.ctx.win = s.thr.ctx.win := rfl
@[simp] theorem State.land_ctx_wbase (s : State) : (s.land).thr.ctx.wbase = s.thr.ctx.wbase := rfl
@[simp] theorem State.land_ctx_fs (s : State) : (s.land).thr.ctx.fs = s.thr.ctx.fs := rfl
@[simp] theorem State.land_ctx_cdepth (s : State) : (s.land).thr.ctx.cdepth = s.thr.ctx.cdepth := rfl
@[simp] theorem State.land_ctx_wstack (s : State) : (s.land).thr.ctx.wstack = s.thr.ctx.wstack := rfl
@[simp] theorem State.land_ctx_spill (s : State) : (s.land).thr.ctx.spill = s.thr.ctx.spill := rfl
@[simp] theorem State.land_ctx_vbase (s : State) : (s.land).thr.ctx.vbase = s.thr.ctx.vbase := rfl
@[simp] theorem State.land_ctx_tbase (s : State) : (s.land).thr.ctx.tbase = s.thr.ctx.tbase := rfl
@[simp] theorem State.land_ctx_tstride (s : State) : (s.land).thr.ctx.tstride = s.thr.ctx.tstride := rfl
@[simp] theorem State.land_ctx_tshape (s : State) : (s.land).thr.ctx.tshape = s.thr.ctx.tshape := rfl
@[simp] theorem State.land_ctx_fmtWord (s : State) : (s.land).thr.ctx.fmtWord = s.thr.ctx.fmtWord := rfl
@[simp] theorem State.land_ctx_tscale (s : State) : (s.land).thr.ctx.tscale = s.thr.ctx.tscale := rfl
@[simp] theorem State.land_ctx_xflags (s : State) : (s.land).thr.ctx.xflags = s.thr.ctx.xflags := rfl
@[simp] theorem State.land_ctx_stream (s : State) : (s.land).thr.ctx.stream = s.thr.ctx.stream := rfl
@[simp] theorem State.land_ctx_lq0 (s : State) : (s.land).thr.ctx.lq0 = s.thr.ctx.lq0 := rfl
@[simp] theorem State.land_ctx_lq1 (s : State) : (s.land).thr.ctx.lq1 = s.thr.ctx.lq1 := rfl
@[simp] theorem State.land_ctx_sq0 (s : State) : (s.land).thr.ctx.sq0 = s.thr.ctx.sq0 := rfl
@[simp] theorem State.land_ctx_sq1 (s : State) : (s.land).thr.ctx.sq1 = s.thr.ctx.sq1 := rfl
@[simp] theorem State.land_ctx_pend (s : State) : (s.land).thr.ctx.pend = s.thr.ctx.pend := rfl
@[simp] theorem State.land_ctx_late (s : State) : (s.land).thr.ctx.late = s.thr.ctx.late := rfl
@[simp] theorem State.land_ctx_told (s : State) : (s.land).thr.ctx.told = s.thr.ctx.told := rfl
@[simp] theorem State.land_ctx_trapCause (s : State) : (s.land).thr.ctx.trapCause = s.thr.ctx.trapCause := rfl
@[simp] theorem State.land_ctx_trapAddr (s : State) : (s.land).thr.ctx.trapAddr = s.thr.ctx.trapAddr := rfl
@[simp] theorem State.land_ctx_trapPc (s : State) : (s.land).thr.ctx.trapPc = s.thr.ctx.trapPc := rfl
@[simp] theorem State.land_ctx_dstack (s : State) : (s.land).thr.ctx.dstack = s.thr.ctx.dstack := rfl
@[simp] theorem State.land_ctx_lastStatus (s : State) : (s.land).thr.ctx.lastStatus = s.thr.ctx.lastStatus := rfl
@[simp] theorem State.land_ctx_domain (s : State) : (s.land).thr.ctx.domain = s.thr.ctx.domain := rfl
@[simp] theorem State.land_ctx_dgen (s : State) : (s.land).thr.ctx.dgen = s.thr.ctx.dgen := rfl
@[simp] theorem State.land_ctx_allot (s : State) : (s.land).thr.ctx.allot = s.thr.ctx.allot := rfl
@[simp] theorem State.land_ctx_swmask (s : State) : (s.land).thr.ctx.swmask = s.thr.ctx.swmask := rfl
@[simp] theorem State.land_ctx_swcount (s : State) : (s.land).thr.ctx.swcount = s.thr.ctx.swcount := rfl
@[simp] theorem State.land_ctx_swtree (s : State) : (s.land).thr.ctx.swtree = s.thr.ctx.swtree := rfl
@[simp] theorem State.land_ctx_sseq (s : State) : (s.land).thr.ctx.sseq = s.thr.ctx.sseq := rfl
@[simp] theorem State.land_ctx_stamped (s : State) : (s.land).thr.ctx.stamped = s.thr.ctx.stamped := rfl
@[simp] theorem State.land_ctx_lastTime (s : State) : (s.land).thr.ctx.lastTime = s.thr.ctx.lastTime := rfl
@[simp] theorem State.land_ctx_spawned (s : State) : (s.land).thr.ctx.spawned = s.thr.ctx.spawned := rfl
@[simp] theorem State.land_ctx_ir (s : State) : (s.land).thr.ctx.ir = s.thr.ctx.ir := rfl
@[simp] theorem State.winWrite_rest (s : State) (o : Nat) (bs : List Byte) : (s.winWrite o bs).rest = s.rest := rfl
@[simp] theorem State.winWrite_mem (s : State) (o : Nat) (bs : List Byte) : (s.winWrite o bs).mem = s.mem := rfl
@[simp] theorem State.winWrite_tags (s : State) (o : Nat) (bs : List Byte) : (s.winWrite o bs).tags = s.tags := rfl
@[simp] theorem State.winWrite_ctrLines (s : State) (o : Nat) (bs : List Byte) : (s.winWrite o bs).ctrLines = s.ctrLines := rfl
@[simp] theorem State.winWrite_poison (s : State) (o : Nat) (bs : List Byte) : (s.winWrite o bs).poison = s.poison := rfl
@[simp] theorem State.winWrite_broken (s : State) (o : Nat) (bs : List Byte) : (s.winWrite o bs).broken = s.broken := rfl
@[simp] theorem State.winWrite_seals (s : State) (o : Nat) (bs : List Byte) : (s.winWrite o bs).seals = s.seals := rfl
@[simp] theorem State.winWrite_worlds (s : State) (o : Nat) (bs : List Byte) : (s.winWrite o bs).worlds = s.worlds := rfl
@[simp] theorem State.winWrite_parts (s : State) (o : Nat) (bs : List Byte) : (s.winWrite o bs).parts = s.parts := rfl
@[simp] theorem State.winWrite_clusters (s : State) (o : Nat) (bs : List Byte) : (s.winWrite o bs).clusters = s.clusters := rfl
@[simp] theorem State.winWrite_hub (s : State) (o : Nat) (bs : List Byte) : (s.winWrite o bs).hub = s.hub := rfl
@[simp] theorem State.winWrite_launches (s : State) (o : Nat) (bs : List Byte) : (s.winWrite o bs).launches = s.launches := rfl
@[simp] theorem State.winWrite_hostWaits (s : State) (o : Nat) (bs : List Byte) : (s.winWrite o bs).hostWaits = s.hostWaits := rfl
@[simp] theorem State.winWrite_sheaf (s : State) (o : Nat) (bs : List Byte) : (s.winWrite o bs).sheaf = s.sheaf := rfl
@[simp] theorem State.winWrite_swards (s : State) (o : Nat) (bs : List Byte) : (s.winWrite o bs).swards = s.swards := rfl
@[simp] theorem State.winWrite_leavers (s : State) (o : Nat) (bs : List Byte) : (s.winWrite o bs).leavers = s.leavers := rfl
@[simp] theorem State.winWrite_recAreas (s : State) (o : Nat) (bs : List Byte) : (s.winWrite o bs).recAreas = s.recAreas := rfl
@[simp] theorem State.winWrite_now (s : State) (o : Nat) (bs : List Byte) : (s.winWrite o bs).now = s.now := rfl
@[simp] theorem State.winWrite_cycle (s : State) (o : Nat) (bs : List Byte) : (s.winWrite o bs).cycle = s.cycle := rfl
@[simp] theorem State.winWrite_inputs (s : State) (o : Nat) (bs : List Byte) : (s.winWrite o bs).inputs = s.inputs := rfl
@[simp] theorem State.winWrite_tick (s : State) (o : Nat) (bs : List Byte) : (s.winWrite o bs).tick = s.tick := rfl
@[simp] theorem State.winWrite_nextId (s : State) (o : Nat) (bs : List Byte) : (s.winWrite o bs).nextId = s.nextId := rfl
@[simp] theorem State.winWrite_thr_tid (s : State) (o : Nat) (bs : List Byte) : (s.winWrite o bs).thr.tid = s.thr.tid := rfl
@[simp] theorem State.winWrite_thr_cref (s : State) (o : Nat) (bs : List Byte) : (s.winWrite o bs).thr.cref = s.thr.cref := rfl
@[simp] theorem State.winWrite_thr_member (s : State) (o : Nat) (bs : List Byte) : (s.winWrite o bs).thr.member = s.thr.member := rfl
@[simp] theorem State.winWrite_thr_world (s : State) (o : Nat) (bs : List Byte) : (s.winWrite o bs).thr.world = s.thr.world := rfl
@[simp] theorem State.winWrite_thr_baseDomain (s : State) (o : Nat) (bs : List Byte) : (s.winWrite o bs).thr.baseDomain = s.thr.baseDomain := rfl
@[simp] theorem State.winWrite_thr_part (s : State) (o : Nat) (bs : List Byte) : (s.winWrite o bs).thr.part = s.thr.part := rfl
@[simp] theorem State.winWrite_thr_launch (s : State) (o : Nat) (bs : List Byte) : (s.winWrite o bs).thr.launch = s.thr.launch := rfl
@[simp] theorem State.winWrite_thr_status (s : State) (o : Nat) (bs : List Byte) : (s.winWrite o bs).thr.status = s.thr.status := rfl
@[simp] theorem State.winWrite_thr_level (s : State) (o : Nat) (bs : List Byte) : (s.winWrite o bs).thr.level = s.thr.level := rfl
@[simp] theorem State.winWrite_thr_cls (s : State) (o : Nat) (bs : List Byte) : (s.winWrite o bs).thr.cls = s.thr.cls := rfl
@[simp] theorem State.winWrite_thr_named (s : State) (o : Nat) (bs : List Byte) : (s.winWrite o bs).thr.named = s.thr.named := rfl
@[simp] theorem State.winWrite_thr_cluster (s : State) (o : Nat) (bs : List Byte) : (s.winWrite o bs).thr.cluster = s.thr.cluster := rfl
@[simp] theorem State.winWrite_thr_ctxb (s : State) (o : Nat) (bs : List Byte) : (s.winWrite o bs).thr.ctxb = s.thr.ctxb := rfl
@[simp] theorem State.winWrite_thr_overflow (s : State) (o : Nat) (bs : List Byte) : (s.winWrite o bs).thr.overflow = s.thr.overflow := rfl
@[simp] theorem State.winWrite_thr_broken (s : State) (o : Nat) (bs : List Byte) : (s.winWrite o bs).thr.broken = s.thr.broken := rfl
@[simp] theorem State.winWrite_thr_logBroken (s : State) (o : Nat) (bs : List Byte) : (s.winWrite o bs).thr.logBroken = s.thr.logBroken := rfl
@[simp] theorem State.winWrite_thr_captured (s : State) (o : Nat) (bs : List Byte) : (s.winWrite o bs).thr.captured = s.thr.captured := rfl
@[simp] theorem State.winWrite_thr_record (s : State) (o : Nat) (bs : List Byte) : (s.winWrite o bs).thr.record = s.thr.record := rfl
@[simp] theorem State.winWrite_thr_tunnelled (s : State) (o : Nat) (bs : List Byte) : (s.winWrite o bs).thr.tunnelled = s.thr.tunnelled := rfl
@[simp] theorem State.winWrite_thr_paired (s : State) (o : Nat) (bs : List Byte) : (s.winWrite o bs).thr.paired = s.thr.paired := rfl
@[simp] theorem State.winWrite_thr_restartable (s : State) (o : Nat) (bs : List Byte) : (s.winWrite o bs).thr.restartable = s.thr.restartable := rfl
@[simp] theorem State.winWrite_thr_prio (s : State) (o : Nat) (bs : List Byte) : (s.winWrite o bs).thr.prio = s.thr.prio := rfl
@[simp] theorem State.winWrite_thr_effLevel (s : State) (o : Nat) (bs : List Byte) : (s.winWrite o bs).thr.effLevel = s.thr.effLevel := rfl
@[simp] theorem State.winWrite_thr_place (s : State) (o : Nat) (bs : List Byte) : (s.winWrite o bs).thr.place = s.thr.place := rfl
@[simp] theorem State.winWrite_thr_spanPlace (s : State) (o : Nat) (bs : List Byte) : (s.winWrite o bs).thr.spanPlace = s.thr.spanPlace := rfl
@[simp] theorem State.winWrite_thr_readyOrder (s : State) (o : Nat) (bs : List Byte) : (s.winWrite o bs).thr.readyOrder = s.thr.readyOrder := rfl
@[simp] theorem State.winWrite_thr_readySince (s : State) (o : Nat) (bs : List Byte) : (s.winWrite o bs).thr.readySince = s.thr.readySince := rfl
@[simp] theorem State.winWrite_thr_slotSince (s : State) (o : Nat) (bs : List Byte) : (s.winWrite o bs).thr.slotSince = s.thr.slotSince := rfl
@[simp] theorem State.winWrite_thr_wait (s : State) (o : Nat) (bs : List Byte) : (s.winWrite o bs).thr.wait = s.thr.wait := rfl
@[simp] theorem State.winWrite_thr_stall (s : State) (o : Nat) (bs : List Byte) : (s.winWrite o bs).thr.stall = s.thr.stall := rfl
@[simp] theorem State.winWrite_thr_waitSince (s : State) (o : Nat) (bs : List Byte) : (s.winWrite o bs).thr.waitSince = s.thr.waitSince := rfl
@[simp] theorem State.winWrite_thr_hop (s : State) (o : Nat) (bs : List Byte) : (s.winWrite o bs).thr.hop = s.thr.hop := rfl
@[simp] theorem State.winWrite_thr_task (s : State) (o : Nat) (bs : List Byte) : (s.winWrite o bs).thr.task = s.thr.task := rfl
@[simp] theorem State.winWrite_thr_recGiving (s : State) (o : Nat) (bs : List Byte) : (s.winWrite o bs).thr.recGiving = s.thr.recGiving := rfl
@[simp] theorem State.winWrite_thr_pairOut (s : State) (o : Nat) (bs : List Byte) : (s.winWrite o bs).thr.pairOut = s.thr.pairOut := rfl
@[simp] theorem State.winWrite_thr_exitStatus (s : State) (o : Nat) (bs : List Byte) : (s.winWrite o bs).thr.exitStatus = s.thr.exitStatus := rfl
@[simp] theorem State.winWrite_ctx_code (s : State) (o : Nat) (bs : List Byte) : (s.winWrite o bs).thr.ctx.code = s.thr.ctx.code := rfl
@[simp] theorem State.winWrite_ctx_regs (s : State) (o : Nat) (bs : List Byte) : (s.winWrite o bs).thr.ctx.regs = s.thr.ctx.regs := rfl
@[simp] theorem State.winWrite_ctx_regMarks (s : State) (o : Nat) (bs : List Byte) : (s.winWrite o bs).thr.ctx.regMarks = s.thr.ctx.regMarks := rfl
@[simp] theorem State.winWrite_ctx_kctr (s : State) (o : Nat) (bs : List Byte) : (s.winWrite o bs).thr.ctx.kctr = s.thr.ctx.kctr := rfl
@[simp] theorem State.winWrite_ctx_wbase (s : State) (o : Nat) (bs : List Byte) : (s.winWrite o bs).thr.ctx.wbase = s.thr.ctx.wbase := rfl
@[simp] theorem State.winWrite_ctx_fs (s : State) (o : Nat) (bs : List Byte) : (s.winWrite o bs).thr.ctx.fs = s.thr.ctx.fs := rfl
@[simp] theorem State.winWrite_ctx_cdepth (s : State) (o : Nat) (bs : List Byte) : (s.winWrite o bs).thr.ctx.cdepth = s.thr.ctx.cdepth := rfl
@[simp] theorem State.winWrite_ctx_wstack (s : State) (o : Nat) (bs : List Byte) : (s.winWrite o bs).thr.ctx.wstack = s.thr.ctx.wstack := rfl
@[simp] theorem State.winWrite_ctx_spill (s : State) (o : Nat) (bs : List Byte) : (s.winWrite o bs).thr.ctx.spill = s.thr.ctx.spill := rfl
@[simp] theorem State.winWrite_ctx_vbase (s : State) (o : Nat) (bs : List Byte) : (s.winWrite o bs).thr.ctx.vbase = s.thr.ctx.vbase := rfl
@[simp] theorem State.winWrite_ctx_tbase (s : State) (o : Nat) (bs : List Byte) : (s.winWrite o bs).thr.ctx.tbase = s.thr.ctx.tbase := rfl
@[simp] theorem State.winWrite_ctx_tstride (s : State) (o : Nat) (bs : List Byte) : (s.winWrite o bs).thr.ctx.tstride = s.thr.ctx.tstride := rfl
@[simp] theorem State.winWrite_ctx_tshape (s : State) (o : Nat) (bs : List Byte) : (s.winWrite o bs).thr.ctx.tshape = s.thr.ctx.tshape := rfl
@[simp] theorem State.winWrite_ctx_fmtWord (s : State) (o : Nat) (bs : List Byte) : (s.winWrite o bs).thr.ctx.fmtWord = s.thr.ctx.fmtWord := rfl
@[simp] theorem State.winWrite_ctx_tscale (s : State) (o : Nat) (bs : List Byte) : (s.winWrite o bs).thr.ctx.tscale = s.thr.ctx.tscale := rfl
@[simp] theorem State.winWrite_ctx_xflags (s : State) (o : Nat) (bs : List Byte) : (s.winWrite o bs).thr.ctx.xflags = s.thr.ctx.xflags := rfl
@[simp] theorem State.winWrite_ctx_stream (s : State) (o : Nat) (bs : List Byte) : (s.winWrite o bs).thr.ctx.stream = s.thr.ctx.stream := rfl
@[simp] theorem State.winWrite_ctx_lq0 (s : State) (o : Nat) (bs : List Byte) : (s.winWrite o bs).thr.ctx.lq0 = s.thr.ctx.lq0 := rfl
@[simp] theorem State.winWrite_ctx_lq1 (s : State) (o : Nat) (bs : List Byte) : (s.winWrite o bs).thr.ctx.lq1 = s.thr.ctx.lq1 := rfl
@[simp] theorem State.winWrite_ctx_sq0 (s : State) (o : Nat) (bs : List Byte) : (s.winWrite o bs).thr.ctx.sq0 = s.thr.ctx.sq0 := rfl
@[simp] theorem State.winWrite_ctx_sq1 (s : State) (o : Nat) (bs : List Byte) : (s.winWrite o bs).thr.ctx.sq1 = s.thr.ctx.sq1 := rfl
@[simp] theorem State.winWrite_ctx_pend (s : State) (o : Nat) (bs : List Byte) : (s.winWrite o bs).thr.ctx.pend = s.thr.ctx.pend := rfl
@[simp] theorem State.winWrite_ctx_late (s : State) (o : Nat) (bs : List Byte) : (s.winWrite o bs).thr.ctx.late = s.thr.ctx.late := rfl
@[simp] theorem State.winWrite_ctx_told (s : State) (o : Nat) (bs : List Byte) : (s.winWrite o bs).thr.ctx.told = s.thr.ctx.told := rfl
@[simp] theorem State.winWrite_ctx_checker (s : State) (o : Nat) (bs : List Byte) : (s.winWrite o bs).thr.ctx.checker = s.thr.ctx.checker := rfl
@[simp] theorem State.winWrite_ctx_trapCause (s : State) (o : Nat) (bs : List Byte) : (s.winWrite o bs).thr.ctx.trapCause = s.thr.ctx.trapCause := rfl
@[simp] theorem State.winWrite_ctx_trapAddr (s : State) (o : Nat) (bs : List Byte) : (s.winWrite o bs).thr.ctx.trapAddr = s.thr.ctx.trapAddr := rfl
@[simp] theorem State.winWrite_ctx_trapPc (s : State) (o : Nat) (bs : List Byte) : (s.winWrite o bs).thr.ctx.trapPc = s.thr.ctx.trapPc := rfl
@[simp] theorem State.winWrite_ctx_dstack (s : State) (o : Nat) (bs : List Byte) : (s.winWrite o bs).thr.ctx.dstack = s.thr.ctx.dstack := rfl
@[simp] theorem State.winWrite_ctx_lastStatus (s : State) (o : Nat) (bs : List Byte) : (s.winWrite o bs).thr.ctx.lastStatus = s.thr.ctx.lastStatus := rfl
@[simp] theorem State.winWrite_ctx_domain (s : State) (o : Nat) (bs : List Byte) : (s.winWrite o bs).thr.ctx.domain = s.thr.ctx.domain := rfl
@[simp] theorem State.winWrite_ctx_dgen (s : State) (o : Nat) (bs : List Byte) : (s.winWrite o bs).thr.ctx.dgen = s.thr.ctx.dgen := rfl
@[simp] theorem State.winWrite_ctx_allot (s : State) (o : Nat) (bs : List Byte) : (s.winWrite o bs).thr.ctx.allot = s.thr.ctx.allot := rfl
@[simp] theorem State.winWrite_ctx_swmask (s : State) (o : Nat) (bs : List Byte) : (s.winWrite o bs).thr.ctx.swmask = s.thr.ctx.swmask := rfl
@[simp] theorem State.winWrite_ctx_swcount (s : State) (o : Nat) (bs : List Byte) : (s.winWrite o bs).thr.ctx.swcount = s.thr.ctx.swcount := rfl
@[simp] theorem State.winWrite_ctx_swtree (s : State) (o : Nat) (bs : List Byte) : (s.winWrite o bs).thr.ctx.swtree = s.thr.ctx.swtree := rfl
@[simp] theorem State.winWrite_ctx_sseq (s : State) (o : Nat) (bs : List Byte) : (s.winWrite o bs).thr.ctx.sseq = s.thr.ctx.sseq := rfl
@[simp] theorem State.winWrite_ctx_stamped (s : State) (o : Nat) (bs : List Byte) : (s.winWrite o bs).thr.ctx.stamped = s.thr.ctx.stamped := rfl
@[simp] theorem State.winWrite_ctx_lastTime (s : State) (o : Nat) (bs : List Byte) : (s.winWrite o bs).thr.ctx.lastTime = s.thr.ctx.lastTime := rfl
@[simp] theorem State.winWrite_ctx_spawned (s : State) (o : Nat) (bs : List Byte) : (s.winWrite o bs).thr.ctx.spawned = s.thr.ctx.spawned := rfl
@[simp] theorem State.winWrite_ctx_ir (s : State) (o : Nat) (bs : List Byte) : (s.winWrite o bs).thr.ctx.ir = s.thr.ctx.ir := rfl
@[simp] theorem State.winZero_rest (s : State) (o n : Nat) : (s.winZero o n).rest = s.rest := rfl
@[simp] theorem State.winZero_mem (s : State) (o n : Nat) : (s.winZero o n).mem = s.mem := rfl
@[simp] theorem State.winZero_tags (s : State) (o n : Nat) : (s.winZero o n).tags = s.tags := rfl
@[simp] theorem State.winZero_ctrLines (s : State) (o n : Nat) : (s.winZero o n).ctrLines = s.ctrLines := rfl
@[simp] theorem State.winZero_poison (s : State) (o n : Nat) : (s.winZero o n).poison = s.poison := rfl
@[simp] theorem State.winZero_broken (s : State) (o n : Nat) : (s.winZero o n).broken = s.broken := rfl
@[simp] theorem State.winZero_seals (s : State) (o n : Nat) : (s.winZero o n).seals = s.seals := rfl
@[simp] theorem State.winZero_worlds (s : State) (o n : Nat) : (s.winZero o n).worlds = s.worlds := rfl
@[simp] theorem State.winZero_parts (s : State) (o n : Nat) : (s.winZero o n).parts = s.parts := rfl
@[simp] theorem State.winZero_clusters (s : State) (o n : Nat) : (s.winZero o n).clusters = s.clusters := rfl
@[simp] theorem State.winZero_hub (s : State) (o n : Nat) : (s.winZero o n).hub = s.hub := rfl
@[simp] theorem State.winZero_launches (s : State) (o n : Nat) : (s.winZero o n).launches = s.launches := rfl
@[simp] theorem State.winZero_hostWaits (s : State) (o n : Nat) : (s.winZero o n).hostWaits = s.hostWaits := rfl
@[simp] theorem State.winZero_sheaf (s : State) (o n : Nat) : (s.winZero o n).sheaf = s.sheaf := rfl
@[simp] theorem State.winZero_swards (s : State) (o n : Nat) : (s.winZero o n).swards = s.swards := rfl
@[simp] theorem State.winZero_leavers (s : State) (o n : Nat) : (s.winZero o n).leavers = s.leavers := rfl
@[simp] theorem State.winZero_recAreas (s : State) (o n : Nat) : (s.winZero o n).recAreas = s.recAreas := rfl
@[simp] theorem State.winZero_now (s : State) (o n : Nat) : (s.winZero o n).now = s.now := rfl
@[simp] theorem State.winZero_cycle (s : State) (o n : Nat) : (s.winZero o n).cycle = s.cycle := rfl
@[simp] theorem State.winZero_inputs (s : State) (o n : Nat) : (s.winZero o n).inputs = s.inputs := rfl
@[simp] theorem State.winZero_tick (s : State) (o n : Nat) : (s.winZero o n).tick = s.tick := rfl
@[simp] theorem State.winZero_nextId (s : State) (o n : Nat) : (s.winZero o n).nextId = s.nextId := rfl
@[simp] theorem State.winZero_thr_tid (s : State) (o n : Nat) : (s.winZero o n).thr.tid = s.thr.tid := rfl
@[simp] theorem State.winZero_thr_cref (s : State) (o n : Nat) : (s.winZero o n).thr.cref = s.thr.cref := rfl
@[simp] theorem State.winZero_thr_member (s : State) (o n : Nat) : (s.winZero o n).thr.member = s.thr.member := rfl
@[simp] theorem State.winZero_thr_world (s : State) (o n : Nat) : (s.winZero o n).thr.world = s.thr.world := rfl
@[simp] theorem State.winZero_thr_baseDomain (s : State) (o n : Nat) : (s.winZero o n).thr.baseDomain = s.thr.baseDomain := rfl
@[simp] theorem State.winZero_thr_part (s : State) (o n : Nat) : (s.winZero o n).thr.part = s.thr.part := rfl
@[simp] theorem State.winZero_thr_launch (s : State) (o n : Nat) : (s.winZero o n).thr.launch = s.thr.launch := rfl
@[simp] theorem State.winZero_thr_status (s : State) (o n : Nat) : (s.winZero o n).thr.status = s.thr.status := rfl
@[simp] theorem State.winZero_thr_level (s : State) (o n : Nat) : (s.winZero o n).thr.level = s.thr.level := rfl
@[simp] theorem State.winZero_thr_cls (s : State) (o n : Nat) : (s.winZero o n).thr.cls = s.thr.cls := rfl
@[simp] theorem State.winZero_thr_named (s : State) (o n : Nat) : (s.winZero o n).thr.named = s.thr.named := rfl
@[simp] theorem State.winZero_thr_cluster (s : State) (o n : Nat) : (s.winZero o n).thr.cluster = s.thr.cluster := rfl
@[simp] theorem State.winZero_thr_ctxb (s : State) (o n : Nat) : (s.winZero o n).thr.ctxb = s.thr.ctxb := rfl
@[simp] theorem State.winZero_thr_overflow (s : State) (o n : Nat) : (s.winZero o n).thr.overflow = s.thr.overflow := rfl
@[simp] theorem State.winZero_thr_broken (s : State) (o n : Nat) : (s.winZero o n).thr.broken = s.thr.broken := rfl
@[simp] theorem State.winZero_thr_logBroken (s : State) (o n : Nat) : (s.winZero o n).thr.logBroken = s.thr.logBroken := rfl
@[simp] theorem State.winZero_thr_captured (s : State) (o n : Nat) : (s.winZero o n).thr.captured = s.thr.captured := rfl
@[simp] theorem State.winZero_thr_record (s : State) (o n : Nat) : (s.winZero o n).thr.record = s.thr.record := rfl
@[simp] theorem State.winZero_thr_tunnelled (s : State) (o n : Nat) : (s.winZero o n).thr.tunnelled = s.thr.tunnelled := rfl
@[simp] theorem State.winZero_thr_paired (s : State) (o n : Nat) : (s.winZero o n).thr.paired = s.thr.paired := rfl
@[simp] theorem State.winZero_thr_restartable (s : State) (o n : Nat) : (s.winZero o n).thr.restartable = s.thr.restartable := rfl
@[simp] theorem State.winZero_thr_prio (s : State) (o n : Nat) : (s.winZero o n).thr.prio = s.thr.prio := rfl
@[simp] theorem State.winZero_thr_effLevel (s : State) (o n : Nat) : (s.winZero o n).thr.effLevel = s.thr.effLevel := rfl
@[simp] theorem State.winZero_thr_place (s : State) (o n : Nat) : (s.winZero o n).thr.place = s.thr.place := rfl
@[simp] theorem State.winZero_thr_spanPlace (s : State) (o n : Nat) : (s.winZero o n).thr.spanPlace = s.thr.spanPlace := rfl
@[simp] theorem State.winZero_thr_readyOrder (s : State) (o n : Nat) : (s.winZero o n).thr.readyOrder = s.thr.readyOrder := rfl
@[simp] theorem State.winZero_thr_readySince (s : State) (o n : Nat) : (s.winZero o n).thr.readySince = s.thr.readySince := rfl
@[simp] theorem State.winZero_thr_slotSince (s : State) (o n : Nat) : (s.winZero o n).thr.slotSince = s.thr.slotSince := rfl
@[simp] theorem State.winZero_thr_wait (s : State) (o n : Nat) : (s.winZero o n).thr.wait = s.thr.wait := rfl
@[simp] theorem State.winZero_thr_stall (s : State) (o n : Nat) : (s.winZero o n).thr.stall = s.thr.stall := rfl
@[simp] theorem State.winZero_thr_waitSince (s : State) (o n : Nat) : (s.winZero o n).thr.waitSince = s.thr.waitSince := rfl
@[simp] theorem State.winZero_thr_hop (s : State) (o n : Nat) : (s.winZero o n).thr.hop = s.thr.hop := rfl
@[simp] theorem State.winZero_thr_task (s : State) (o n : Nat) : (s.winZero o n).thr.task = s.thr.task := rfl
@[simp] theorem State.winZero_thr_recGiving (s : State) (o n : Nat) : (s.winZero o n).thr.recGiving = s.thr.recGiving := rfl
@[simp] theorem State.winZero_thr_pairOut (s : State) (o n : Nat) : (s.winZero o n).thr.pairOut = s.thr.pairOut := rfl
@[simp] theorem State.winZero_thr_exitStatus (s : State) (o n : Nat) : (s.winZero o n).thr.exitStatus = s.thr.exitStatus := rfl
@[simp] theorem State.winZero_ctx_code (s : State) (o n : Nat) : (s.winZero o n).thr.ctx.code = s.thr.ctx.code := rfl
@[simp] theorem State.winZero_ctx_regs (s : State) (o n : Nat) : (s.winZero o n).thr.ctx.regs = s.thr.ctx.regs := rfl
@[simp] theorem State.winZero_ctx_regMarks (s : State) (o n : Nat) : (s.winZero o n).thr.ctx.regMarks = s.thr.ctx.regMarks := rfl
@[simp] theorem State.winZero_ctx_kctr (s : State) (o n : Nat) : (s.winZero o n).thr.ctx.kctr = s.thr.ctx.kctr := rfl
@[simp] theorem State.winZero_ctx_wbase (s : State) (o n : Nat) : (s.winZero o n).thr.ctx.wbase = s.thr.ctx.wbase := rfl
@[simp] theorem State.winZero_ctx_fs (s : State) (o n : Nat) : (s.winZero o n).thr.ctx.fs = s.thr.ctx.fs := rfl
@[simp] theorem State.winZero_ctx_cdepth (s : State) (o n : Nat) : (s.winZero o n).thr.ctx.cdepth = s.thr.ctx.cdepth := rfl
@[simp] theorem State.winZero_ctx_wstack (s : State) (o n : Nat) : (s.winZero o n).thr.ctx.wstack = s.thr.ctx.wstack := rfl
@[simp] theorem State.winZero_ctx_spill (s : State) (o n : Nat) : (s.winZero o n).thr.ctx.spill = s.thr.ctx.spill := rfl
@[simp] theorem State.winZero_ctx_vbase (s : State) (o n : Nat) : (s.winZero o n).thr.ctx.vbase = s.thr.ctx.vbase := rfl
@[simp] theorem State.winZero_ctx_tbase (s : State) (o n : Nat) : (s.winZero o n).thr.ctx.tbase = s.thr.ctx.tbase := rfl
@[simp] theorem State.winZero_ctx_tstride (s : State) (o n : Nat) : (s.winZero o n).thr.ctx.tstride = s.thr.ctx.tstride := rfl
@[simp] theorem State.winZero_ctx_tshape (s : State) (o n : Nat) : (s.winZero o n).thr.ctx.tshape = s.thr.ctx.tshape := rfl
@[simp] theorem State.winZero_ctx_fmtWord (s : State) (o n : Nat) : (s.winZero o n).thr.ctx.fmtWord = s.thr.ctx.fmtWord := rfl
@[simp] theorem State.winZero_ctx_tscale (s : State) (o n : Nat) : (s.winZero o n).thr.ctx.tscale = s.thr.ctx.tscale := rfl
@[simp] theorem State.winZero_ctx_xflags (s : State) (o n : Nat) : (s.winZero o n).thr.ctx.xflags = s.thr.ctx.xflags := rfl
@[simp] theorem State.winZero_ctx_stream (s : State) (o n : Nat) : (s.winZero o n).thr.ctx.stream = s.thr.ctx.stream := rfl
@[simp] theorem State.winZero_ctx_lq0 (s : State) (o n : Nat) : (s.winZero o n).thr.ctx.lq0 = s.thr.ctx.lq0 := rfl
@[simp] theorem State.winZero_ctx_lq1 (s : State) (o n : Nat) : (s.winZero o n).thr.ctx.lq1 = s.thr.ctx.lq1 := rfl
@[simp] theorem State.winZero_ctx_sq0 (s : State) (o n : Nat) : (s.winZero o n).thr.ctx.sq0 = s.thr.ctx.sq0 := rfl
@[simp] theorem State.winZero_ctx_sq1 (s : State) (o n : Nat) : (s.winZero o n).thr.ctx.sq1 = s.thr.ctx.sq1 := rfl
@[simp] theorem State.winZero_ctx_pend (s : State) (o n : Nat) : (s.winZero o n).thr.ctx.pend = s.thr.ctx.pend := rfl
@[simp] theorem State.winZero_ctx_late (s : State) (o n : Nat) : (s.winZero o n).thr.ctx.late = s.thr.ctx.late := rfl
@[simp] theorem State.winZero_ctx_told (s : State) (o n : Nat) : (s.winZero o n).thr.ctx.told = s.thr.ctx.told := rfl
@[simp] theorem State.winZero_ctx_checker (s : State) (o n : Nat) : (s.winZero o n).thr.ctx.checker = s.thr.ctx.checker := rfl
@[simp] theorem State.winZero_ctx_trapCause (s : State) (o n : Nat) : (s.winZero o n).thr.ctx.trapCause = s.thr.ctx.trapCause := rfl
@[simp] theorem State.winZero_ctx_trapAddr (s : State) (o n : Nat) : (s.winZero o n).thr.ctx.trapAddr = s.thr.ctx.trapAddr := rfl
@[simp] theorem State.winZero_ctx_trapPc (s : State) (o n : Nat) : (s.winZero o n).thr.ctx.trapPc = s.thr.ctx.trapPc := rfl
@[simp] theorem State.winZero_ctx_dstack (s : State) (o n : Nat) : (s.winZero o n).thr.ctx.dstack = s.thr.ctx.dstack := rfl
@[simp] theorem State.winZero_ctx_lastStatus (s : State) (o n : Nat) : (s.winZero o n).thr.ctx.lastStatus = s.thr.ctx.lastStatus := rfl
@[simp] theorem State.winZero_ctx_domain (s : State) (o n : Nat) : (s.winZero o n).thr.ctx.domain = s.thr.ctx.domain := rfl
@[simp] theorem State.winZero_ctx_dgen (s : State) (o n : Nat) : (s.winZero o n).thr.ctx.dgen = s.thr.ctx.dgen := rfl
@[simp] theorem State.winZero_ctx_allot (s : State) (o n : Nat) : (s.winZero o n).thr.ctx.allot = s.thr.ctx.allot := rfl
@[simp] theorem State.winZero_ctx_swmask (s : State) (o n : Nat) : (s.winZero o n).thr.ctx.swmask = s.thr.ctx.swmask := rfl
@[simp] theorem State.winZero_ctx_swcount (s : State) (o n : Nat) : (s.winZero o n).thr.ctx.swcount = s.thr.ctx.swcount := rfl
@[simp] theorem State.winZero_ctx_swtree (s : State) (o n : Nat) : (s.winZero o n).thr.ctx.swtree = s.thr.ctx.swtree := rfl
@[simp] theorem State.winZero_ctx_sseq (s : State) (o n : Nat) : (s.winZero o n).thr.ctx.sseq = s.thr.ctx.sseq := rfl
@[simp] theorem State.winZero_ctx_stamped (s : State) (o n : Nat) : (s.winZero o n).thr.ctx.stamped = s.thr.ctx.stamped := rfl
@[simp] theorem State.winZero_ctx_lastTime (s : State) (o n : Nat) : (s.winZero o n).thr.ctx.lastTime = s.thr.ctx.lastTime := rfl
@[simp] theorem State.winZero_ctx_spawned (s : State) (o n : Nat) : (s.winZero o n).thr.ctx.spawned = s.thr.ctx.spawned := rfl
@[simp] theorem State.winZero_ctx_ir (s : State) (o n : Nat) : (s.winZero o n).thr.ctx.ir = s.thr.ctx.ir := rfl
@[simp] theorem State.writeReg_rest (s : State) (r : RegNum) (v : Cap) : (s.writeReg r v).rest = s.rest := by
  unfold State.writeReg; split <;> rfl
@[simp] theorem State.writeReg_mem (s : State) (r : RegNum) (v : Cap) : (s.writeReg r v).mem = s.mem := by
  unfold State.writeReg; split <;> rfl
@[simp] theorem State.writeReg_tags (s : State) (r : RegNum) (v : Cap) : (s.writeReg r v).tags = s.tags := by
  unfold State.writeReg; split <;> rfl
@[simp] theorem State.writeReg_ctrLines (s : State) (r : RegNum) (v : Cap) : (s.writeReg r v).ctrLines = s.ctrLines := by
  unfold State.writeReg; split <;> rfl
@[simp] theorem State.writeReg_poison (s : State) (r : RegNum) (v : Cap) : (s.writeReg r v).poison = s.poison := by
  unfold State.writeReg; split <;> rfl
@[simp] theorem State.writeReg_broken (s : State) (r : RegNum) (v : Cap) : (s.writeReg r v).broken = s.broken := by
  unfold State.writeReg; split <;> rfl
@[simp] theorem State.writeReg_seals (s : State) (r : RegNum) (v : Cap) : (s.writeReg r v).seals = s.seals := by
  unfold State.writeReg; split <;> rfl
@[simp] theorem State.writeReg_worlds (s : State) (r : RegNum) (v : Cap) : (s.writeReg r v).worlds = s.worlds := by
  unfold State.writeReg; split <;> rfl
@[simp] theorem State.writeReg_parts (s : State) (r : RegNum) (v : Cap) : (s.writeReg r v).parts = s.parts := by
  unfold State.writeReg; split <;> rfl
@[simp] theorem State.writeReg_clusters (s : State) (r : RegNum) (v : Cap) : (s.writeReg r v).clusters = s.clusters := by
  unfold State.writeReg; split <;> rfl
@[simp] theorem State.writeReg_hub (s : State) (r : RegNum) (v : Cap) : (s.writeReg r v).hub = s.hub := by
  unfold State.writeReg; split <;> rfl
@[simp] theorem State.writeReg_launches (s : State) (r : RegNum) (v : Cap) : (s.writeReg r v).launches = s.launches := by
  unfold State.writeReg; split <;> rfl
@[simp] theorem State.writeReg_hostWaits (s : State) (r : RegNum) (v : Cap) : (s.writeReg r v).hostWaits = s.hostWaits := by
  unfold State.writeReg; split <;> rfl
@[simp] theorem State.writeReg_sheaf (s : State) (r : RegNum) (v : Cap) : (s.writeReg r v).sheaf = s.sheaf := by
  unfold State.writeReg; split <;> rfl
@[simp] theorem State.writeReg_swards (s : State) (r : RegNum) (v : Cap) : (s.writeReg r v).swards = s.swards := by
  unfold State.writeReg; split <;> rfl
@[simp] theorem State.writeReg_leavers (s : State) (r : RegNum) (v : Cap) : (s.writeReg r v).leavers = s.leavers := by
  unfold State.writeReg; split <;> rfl
@[simp] theorem State.writeReg_recAreas (s : State) (r : RegNum) (v : Cap) : (s.writeReg r v).recAreas = s.recAreas := by
  unfold State.writeReg; split <;> rfl
@[simp] theorem State.writeReg_now (s : State) (r : RegNum) (v : Cap) : (s.writeReg r v).now = s.now := by
  unfold State.writeReg; split <;> rfl
@[simp] theorem State.writeReg_cycle (s : State) (r : RegNum) (v : Cap) : (s.writeReg r v).cycle = s.cycle := by
  unfold State.writeReg; split <;> rfl
@[simp] theorem State.writeReg_inputs (s : State) (r : RegNum) (v : Cap) : (s.writeReg r v).inputs = s.inputs := by
  unfold State.writeReg; split <;> rfl
@[simp] theorem State.writeReg_tick (s : State) (r : RegNum) (v : Cap) : (s.writeReg r v).tick = s.tick := by
  unfold State.writeReg; split <;> rfl
@[simp] theorem State.writeReg_nextId (s : State) (r : RegNum) (v : Cap) : (s.writeReg r v).nextId = s.nextId := by
  unfold State.writeReg; split <;> rfl
@[simp] theorem State.writeReg_thr_tid (s : State) (r : RegNum) (v : Cap) : (s.writeReg r v).thr.tid = s.thr.tid := by
  unfold State.writeReg; split <;> rfl
@[simp] theorem State.writeReg_thr_cref (s : State) (r : RegNum) (v : Cap) : (s.writeReg r v).thr.cref = s.thr.cref := by
  unfold State.writeReg; split <;> rfl
@[simp] theorem State.writeReg_thr_member (s : State) (r : RegNum) (v : Cap) : (s.writeReg r v).thr.member = s.thr.member := by
  unfold State.writeReg; split <;> rfl
@[simp] theorem State.writeReg_thr_world (s : State) (r : RegNum) (v : Cap) : (s.writeReg r v).thr.world = s.thr.world := by
  unfold State.writeReg; split <;> rfl
@[simp] theorem State.writeReg_thr_baseDomain (s : State) (r : RegNum) (v : Cap) : (s.writeReg r v).thr.baseDomain = s.thr.baseDomain := by
  unfold State.writeReg; split <;> rfl
@[simp] theorem State.writeReg_thr_part (s : State) (r : RegNum) (v : Cap) : (s.writeReg r v).thr.part = s.thr.part := by
  unfold State.writeReg; split <;> rfl
@[simp] theorem State.writeReg_thr_launch (s : State) (r : RegNum) (v : Cap) : (s.writeReg r v).thr.launch = s.thr.launch := by
  unfold State.writeReg; split <;> rfl
@[simp] theorem State.writeReg_thr_status (s : State) (r : RegNum) (v : Cap) : (s.writeReg r v).thr.status = s.thr.status := by
  unfold State.writeReg; split <;> rfl
@[simp] theorem State.writeReg_thr_level (s : State) (r : RegNum) (v : Cap) : (s.writeReg r v).thr.level = s.thr.level := by
  unfold State.writeReg; split <;> rfl
@[simp] theorem State.writeReg_thr_cls (s : State) (r : RegNum) (v : Cap) : (s.writeReg r v).thr.cls = s.thr.cls := by
  unfold State.writeReg; split <;> rfl
@[simp] theorem State.writeReg_thr_named (s : State) (r : RegNum) (v : Cap) : (s.writeReg r v).thr.named = s.thr.named := by
  unfold State.writeReg; split <;> rfl
@[simp] theorem State.writeReg_thr_cluster (s : State) (r : RegNum) (v : Cap) : (s.writeReg r v).thr.cluster = s.thr.cluster := by
  unfold State.writeReg; split <;> rfl
@[simp] theorem State.writeReg_thr_ctxb (s : State) (r : RegNum) (v : Cap) : (s.writeReg r v).thr.ctxb = s.thr.ctxb := by
  unfold State.writeReg; split <;> rfl
@[simp] theorem State.writeReg_thr_overflow (s : State) (r : RegNum) (v : Cap) : (s.writeReg r v).thr.overflow = s.thr.overflow := by
  unfold State.writeReg; split <;> rfl
@[simp] theorem State.writeReg_thr_broken (s : State) (r : RegNum) (v : Cap) : (s.writeReg r v).thr.broken = s.thr.broken := by
  unfold State.writeReg; split <;> rfl
@[simp] theorem State.writeReg_thr_logBroken (s : State) (r : RegNum) (v : Cap) : (s.writeReg r v).thr.logBroken = s.thr.logBroken := by
  unfold State.writeReg; split <;> rfl
@[simp] theorem State.writeReg_thr_captured (s : State) (r : RegNum) (v : Cap) : (s.writeReg r v).thr.captured = s.thr.captured := by
  unfold State.writeReg; split <;> rfl
@[simp] theorem State.writeReg_thr_record (s : State) (r : RegNum) (v : Cap) : (s.writeReg r v).thr.record = s.thr.record := by
  unfold State.writeReg; split <;> rfl
@[simp] theorem State.writeReg_thr_tunnelled (s : State) (r : RegNum) (v : Cap) : (s.writeReg r v).thr.tunnelled = s.thr.tunnelled := by
  unfold State.writeReg; split <;> rfl
@[simp] theorem State.writeReg_thr_paired (s : State) (r : RegNum) (v : Cap) : (s.writeReg r v).thr.paired = s.thr.paired := by
  unfold State.writeReg; split <;> rfl
@[simp] theorem State.writeReg_thr_restartable (s : State) (r : RegNum) (v : Cap) : (s.writeReg r v).thr.restartable = s.thr.restartable := by
  unfold State.writeReg; split <;> rfl
@[simp] theorem State.writeReg_thr_prio (s : State) (r : RegNum) (v : Cap) : (s.writeReg r v).thr.prio = s.thr.prio := by
  unfold State.writeReg; split <;> rfl
@[simp] theorem State.writeReg_thr_effLevel (s : State) (r : RegNum) (v : Cap) : (s.writeReg r v).thr.effLevel = s.thr.effLevel := by
  unfold State.writeReg; split <;> rfl
@[simp] theorem State.writeReg_thr_place (s : State) (r : RegNum) (v : Cap) : (s.writeReg r v).thr.place = s.thr.place := by
  unfold State.writeReg; split <;> rfl
@[simp] theorem State.writeReg_thr_spanPlace (s : State) (r : RegNum) (v : Cap) : (s.writeReg r v).thr.spanPlace = s.thr.spanPlace := by
  unfold State.writeReg; split <;> rfl
@[simp] theorem State.writeReg_thr_readyOrder (s : State) (r : RegNum) (v : Cap) : (s.writeReg r v).thr.readyOrder = s.thr.readyOrder := by
  unfold State.writeReg; split <;> rfl
@[simp] theorem State.writeReg_thr_readySince (s : State) (r : RegNum) (v : Cap) : (s.writeReg r v).thr.readySince = s.thr.readySince := by
  unfold State.writeReg; split <;> rfl
@[simp] theorem State.writeReg_thr_slotSince (s : State) (r : RegNum) (v : Cap) : (s.writeReg r v).thr.slotSince = s.thr.slotSince := by
  unfold State.writeReg; split <;> rfl
@[simp] theorem State.writeReg_thr_wait (s : State) (r : RegNum) (v : Cap) : (s.writeReg r v).thr.wait = s.thr.wait := by
  unfold State.writeReg; split <;> rfl
@[simp] theorem State.writeReg_thr_stall (s : State) (r : RegNum) (v : Cap) : (s.writeReg r v).thr.stall = s.thr.stall := by
  unfold State.writeReg; split <;> rfl
@[simp] theorem State.writeReg_thr_waitSince (s : State) (r : RegNum) (v : Cap) : (s.writeReg r v).thr.waitSince = s.thr.waitSince := by
  unfold State.writeReg; split <;> rfl
@[simp] theorem State.writeReg_thr_hop (s : State) (r : RegNum) (v : Cap) : (s.writeReg r v).thr.hop = s.thr.hop := by
  unfold State.writeReg; split <;> rfl
@[simp] theorem State.writeReg_thr_task (s : State) (r : RegNum) (v : Cap) : (s.writeReg r v).thr.task = s.thr.task := by
  unfold State.writeReg; split <;> rfl
@[simp] theorem State.writeReg_thr_recGiving (s : State) (r : RegNum) (v : Cap) : (s.writeReg r v).thr.recGiving = s.thr.recGiving := by
  unfold State.writeReg; split <;> rfl
@[simp] theorem State.writeReg_thr_pairOut (s : State) (r : RegNum) (v : Cap) : (s.writeReg r v).thr.pairOut = s.thr.pairOut := by
  unfold State.writeReg; split <;> rfl
@[simp] theorem State.writeReg_thr_exitStatus (s : State) (r : RegNum) (v : Cap) : (s.writeReg r v).thr.exitStatus = s.thr.exitStatus := by
  unfold State.writeReg; split <;> rfl
@[simp] theorem State.writeReg_ctx_code (s : State) (r : RegNum) (v : Cap) : (s.writeReg r v).thr.ctx.code = s.thr.ctx.code := by
  unfold State.writeReg; split <;> rfl
@[simp] theorem State.writeReg_ctx_kctr (s : State) (r : RegNum) (v : Cap) : (s.writeReg r v).thr.ctx.kctr = s.thr.ctx.kctr := by
  unfold State.writeReg; split <;> rfl
@[simp] theorem State.writeReg_ctx_win (s : State) (r : RegNum) (v : Cap) : (s.writeReg r v).thr.ctx.win = s.thr.ctx.win := by
  unfold State.writeReg; split <;> rfl
@[simp] theorem State.writeReg_ctx_wbase (s : State) (r : RegNum) (v : Cap) : (s.writeReg r v).thr.ctx.wbase = s.thr.ctx.wbase := by
  unfold State.writeReg; split <;> rfl
@[simp] theorem State.writeReg_ctx_fs (s : State) (r : RegNum) (v : Cap) : (s.writeReg r v).thr.ctx.fs = s.thr.ctx.fs := by
  unfold State.writeReg; split <;> rfl
@[simp] theorem State.writeReg_ctx_cdepth (s : State) (r : RegNum) (v : Cap) : (s.writeReg r v).thr.ctx.cdepth = s.thr.ctx.cdepth := by
  unfold State.writeReg; split <;> rfl
@[simp] theorem State.writeReg_ctx_wstack (s : State) (r : RegNum) (v : Cap) : (s.writeReg r v).thr.ctx.wstack = s.thr.ctx.wstack := by
  unfold State.writeReg; split <;> rfl
@[simp] theorem State.writeReg_ctx_spill (s : State) (r : RegNum) (v : Cap) : (s.writeReg r v).thr.ctx.spill = s.thr.ctx.spill := by
  unfold State.writeReg; split <;> rfl
@[simp] theorem State.writeReg_ctx_vbase (s : State) (r : RegNum) (v : Cap) : (s.writeReg r v).thr.ctx.vbase = s.thr.ctx.vbase := by
  unfold State.writeReg; split <;> rfl
@[simp] theorem State.writeReg_ctx_tbase (s : State) (r : RegNum) (v : Cap) : (s.writeReg r v).thr.ctx.tbase = s.thr.ctx.tbase := by
  unfold State.writeReg; split <;> rfl
@[simp] theorem State.writeReg_ctx_tstride (s : State) (r : RegNum) (v : Cap) : (s.writeReg r v).thr.ctx.tstride = s.thr.ctx.tstride := by
  unfold State.writeReg; split <;> rfl
@[simp] theorem State.writeReg_ctx_tshape (s : State) (r : RegNum) (v : Cap) : (s.writeReg r v).thr.ctx.tshape = s.thr.ctx.tshape := by
  unfold State.writeReg; split <;> rfl
@[simp] theorem State.writeReg_ctx_fmtWord (s : State) (r : RegNum) (v : Cap) : (s.writeReg r v).thr.ctx.fmtWord = s.thr.ctx.fmtWord := by
  unfold State.writeReg; split <;> rfl
@[simp] theorem State.writeReg_ctx_tscale (s : State) (r : RegNum) (v : Cap) : (s.writeReg r v).thr.ctx.tscale = s.thr.ctx.tscale := by
  unfold State.writeReg; split <;> rfl
@[simp] theorem State.writeReg_ctx_xflags (s : State) (r : RegNum) (v : Cap) : (s.writeReg r v).thr.ctx.xflags = s.thr.ctx.xflags := by
  unfold State.writeReg; split <;> rfl
@[simp] theorem State.writeReg_ctx_stream (s : State) (r : RegNum) (v : Cap) : (s.writeReg r v).thr.ctx.stream = s.thr.ctx.stream := by
  unfold State.writeReg; split <;> rfl
@[simp] theorem State.writeReg_ctx_lq0 (s : State) (r : RegNum) (v : Cap) : (s.writeReg r v).thr.ctx.lq0 = s.thr.ctx.lq0 := by
  unfold State.writeReg; split <;> rfl
@[simp] theorem State.writeReg_ctx_lq1 (s : State) (r : RegNum) (v : Cap) : (s.writeReg r v).thr.ctx.lq1 = s.thr.ctx.lq1 := by
  unfold State.writeReg; split <;> rfl
@[simp] theorem State.writeReg_ctx_sq0 (s : State) (r : RegNum) (v : Cap) : (s.writeReg r v).thr.ctx.sq0 = s.thr.ctx.sq0 := by
  unfold State.writeReg; split <;> rfl
@[simp] theorem State.writeReg_ctx_sq1 (s : State) (r : RegNum) (v : Cap) : (s.writeReg r v).thr.ctx.sq1 = s.thr.ctx.sq1 := by
  unfold State.writeReg; split <;> rfl
@[simp] theorem State.writeReg_ctx_pend (s : State) (r : RegNum) (v : Cap) : (s.writeReg r v).thr.ctx.pend = s.thr.ctx.pend := by
  unfold State.writeReg; split <;> rfl
@[simp] theorem State.writeReg_ctx_told (s : State) (r : RegNum) (v : Cap) : (s.writeReg r v).thr.ctx.told = s.thr.ctx.told := by
  unfold State.writeReg; split <;> rfl
@[simp] theorem State.writeReg_ctx_checker (s : State) (r : RegNum) (v : Cap) : (s.writeReg r v).thr.ctx.checker = s.thr.ctx.checker := by
  unfold State.writeReg; split <;> rfl
@[simp] theorem State.writeReg_ctx_trapCause (s : State) (r : RegNum) (v : Cap) : (s.writeReg r v).thr.ctx.trapCause = s.thr.ctx.trapCause := by
  unfold State.writeReg; split <;> rfl
@[simp] theorem State.writeReg_ctx_trapAddr (s : State) (r : RegNum) (v : Cap) : (s.writeReg r v).thr.ctx.trapAddr = s.thr.ctx.trapAddr := by
  unfold State.writeReg; split <;> rfl
@[simp] theorem State.writeReg_ctx_trapPc (s : State) (r : RegNum) (v : Cap) : (s.writeReg r v).thr.ctx.trapPc = s.thr.ctx.trapPc := by
  unfold State.writeReg; split <;> rfl
@[simp] theorem State.writeReg_ctx_dstack (s : State) (r : RegNum) (v : Cap) : (s.writeReg r v).thr.ctx.dstack = s.thr.ctx.dstack := by
  unfold State.writeReg; split <;> rfl
@[simp] theorem State.writeReg_ctx_lastStatus (s : State) (r : RegNum) (v : Cap) : (s.writeReg r v).thr.ctx.lastStatus = s.thr.ctx.lastStatus := by
  unfold State.writeReg; split <;> rfl
@[simp] theorem State.writeReg_ctx_domain (s : State) (r : RegNum) (v : Cap) : (s.writeReg r v).thr.ctx.domain = s.thr.ctx.domain := by
  unfold State.writeReg; split <;> rfl
@[simp] theorem State.writeReg_ctx_dgen (s : State) (r : RegNum) (v : Cap) : (s.writeReg r v).thr.ctx.dgen = s.thr.ctx.dgen := by
  unfold State.writeReg; split <;> rfl
@[simp] theorem State.writeReg_ctx_allot (s : State) (r : RegNum) (v : Cap) : (s.writeReg r v).thr.ctx.allot = s.thr.ctx.allot := by
  unfold State.writeReg; split <;> rfl
@[simp] theorem State.writeReg_ctx_swmask (s : State) (r : RegNum) (v : Cap) : (s.writeReg r v).thr.ctx.swmask = s.thr.ctx.swmask := by
  unfold State.writeReg; split <;> rfl
@[simp] theorem State.writeReg_ctx_swcount (s : State) (r : RegNum) (v : Cap) : (s.writeReg r v).thr.ctx.swcount = s.thr.ctx.swcount := by
  unfold State.writeReg; split <;> rfl
@[simp] theorem State.writeReg_ctx_swtree (s : State) (r : RegNum) (v : Cap) : (s.writeReg r v).thr.ctx.swtree = s.thr.ctx.swtree := by
  unfold State.writeReg; split <;> rfl
@[simp] theorem State.writeReg_ctx_sseq (s : State) (r : RegNum) (v : Cap) : (s.writeReg r v).thr.ctx.sseq = s.thr.ctx.sseq := by
  unfold State.writeReg; split <;> rfl
@[simp] theorem State.writeReg_ctx_stamped (s : State) (r : RegNum) (v : Cap) : (s.writeReg r v).thr.ctx.stamped = s.thr.ctx.stamped := by
  unfold State.writeReg; split <;> rfl
@[simp] theorem State.writeReg_ctx_lastTime (s : State) (r : RegNum) (v : Cap) : (s.writeReg r v).thr.ctx.lastTime = s.thr.ctx.lastTime := by
  unfold State.writeReg; split <;> rfl
@[simp] theorem State.writeReg_ctx_spawned (s : State) (r : RegNum) (v : Cap) : (s.writeReg r v).thr.ctx.spawned = s.thr.ctx.spawned := by
  unfold State.writeReg; split <;> rfl
@[simp] theorem State.writeReg_ctx_ir (s : State) (r : RegNum) (v : Cap) : (s.writeReg r v).thr.ctx.ir = s.thr.ctx.ir := by
  unfold State.writeReg; split <;> rfl

end Sys2Proof.Machine
end

