-- ==== Sys2Proof/Laws/Memory.lean ====
section
/-! SUPPORT. Memory: every operation keeps the canonical form; a read after a write; a write leaves other places alone. -/

namespace Sys2Proof.Machine

open Sys2Proof

/-! ## The canonical form -/

theorem Cells.wfFrom_mono {m : List Host.Cell} : ∀ {lo hi : Nat}, lo ≤ hi → Cells.wfFrom hi m = true → Cells.wfFrom lo m = true := by
  cases m with
  | nil => intros; rfl
  | cons c r =>
    intro lo hi h w
    simp only [Cells.wfFrom, Bool.and_eq_true, decide_eq_true_eq] at w ⊢
    exact ⟨⟨by omega, w.1.2⟩, w.2⟩

theorem Cells.wfFrom_filter (p : Host.Cell → Bool) : ∀ (m : List Host.Cell) (lo : Nat), Cells.wfFrom lo m = true →
    Cells.wfFrom lo (m.filter p) = true := by
  intro m
  induction m with
  | nil => intros; rfl
  | cons c r ih =>
    intro lo w
    simp only [Cells.wfFrom, Bool.and_eq_true, decide_eq_true_eq] at w
    have h := ih _ w.2
    by_cases hp : p c
    · rw [List.filter_cons_of_pos hp]
      simp only [Cells.wfFrom, Bool.and_eq_true, decide_eq_true_eq]
      exact ⟨w.1, h⟩
    · rw [List.filter_cons_of_neg hp]
      exact Cells.wfFrom_mono (by omega) h

theorem Cells.wfFrom_insert (a : Nat) (v : Byte) (hv : v ≠ 0) : ∀ (m : List Host.Cell) (lo : Nat), lo ≤ a → Cells.wfFrom lo m = true →
    Cells.wfFrom lo (Cells.insert m a v) = true := by
  intro m
  induction m with
  | nil =>
    intro lo h _
    simp only [Cells.insert, Cells.wfFrom, Bool.and_eq_true, decide_eq_true_eq, bne_iff_ne, ne_eq]
    exact ⟨⟨h, hv⟩, trivial⟩
  | cons c r ih =>
    intro lo h w
    obtain ⟨b, x⟩ := c
    simp only [Cells.wfFrom, Bool.and_eq_true, decide_eq_true_eq, bne_iff_ne, ne_eq] at w
    unfold Cells.insert
    split
    · simp only [Cells.wfFrom, Bool.and_eq_true, decide_eq_true_eq, bne_iff_ne, ne_eq]
      exact ⟨⟨h, hv⟩, ⟨by omega, w.1.2⟩, w.2⟩
    · split
      · rename_i hab
        simp only [Cells.wfFrom, Bool.and_eq_true, decide_eq_true_eq, bne_iff_ne, ne_eq]
        exact ⟨⟨h, hv⟩, hab ▸ w.2⟩
      · simp only [Cells.wfFrom, Bool.and_eq_true, decide_eq_true_eq, bne_iff_ne, ne_eq]
        exact ⟨w.1, ih _ (by omega) w.2⟩

theorem Cells.wf_put {m : List Host.Cell} (h : Cells.wf m = true) (a : Nat) (v : Byte) : Cells.wf (Cells.put m a v) = true := by
  unfold Cells.put Cells.wf at *
  split
  · exact Cells.wfFrom_filter _ _ _ h
  · rename_i hv
    exact Cells.wfFrom_insert a v hv m 0 (Nat.zero_le _) h

theorem Cells.wf_write (bs : List Byte) : ∀ (m : List Host.Cell) (a : Nat), Cells.wf m = true → Cells.wf (Cells.write m a bs) = true := by
  induction bs with
  | nil => intro m a h; exact h
  | cons v r ih => intro m a h; exact ih _ _ (Cells.wf_put h a v)

theorem Cells.wf_apply (cs : List Host.Cell) : ∀ m : List Host.Cell, Cells.wf m = true → Cells.wf (Cells.apply m cs) = true := by
  induction cs with
  | nil => intro m h; exact h
  | cons c r ih => intro m h; exact ih _ (Cells.wf_put h c.1 c.2)

theorem Cells.wf_clear {m : List Host.Cell} (h : Cells.wf m = true) (a n : Nat) : Cells.wf (Cells.clear m a n) = true :=
  Cells.wfFrom_filter _ _ _ h

theorem Cells.wf_within {m : List Host.Cell} (h : Cells.wf m = true) (a n : Nat) : Cells.wf (Cells.within m a n) = true :=
  Cells.wfFrom_filter _ _ _ h

theorem Memory.wf_reset : Memory.wf State.reset.mem = true := rfl

/-! ## Reads and writes -/

theorem Cells.get_filter_other (m : List Host.Cell) (a x : Nat) (h : x ≠ a) :
    Cells.get (m.filter fun c => c.1 ≠ a) x = Cells.get m x := by
  induction m with
  | nil => rfl
  | cons c r ih =>
    obtain ⟨b, w⟩ := c
    by_cases hb : b = a
    · subst hb
      rw [List.filter_cons_of_neg (by simp)]
      rw [ih]; simp [Cells.get, h]
    · rw [List.filter_cons_of_pos (by simpa using hb)]
      simp only [Cells.get, ih]

theorem Cells.get_filter_self (m : List Host.Cell) (a : Nat) : Cells.get (m.filter fun c => c.1 ≠ a) a = 0 := by
  induction m with
  | nil => rfl
  | cons c r ih =>
    obtain ⟨b, w⟩ := c
    by_cases hb : b = a
    · rw [List.filter_cons_of_neg (by simpa using hb)]; exact ih
    · rw [List.filter_cons_of_pos (by simpa using hb)]
      simp only [Cells.get, if_neg (Ne.symm hb), ih]

theorem Cells.get_insert (m : List Host.Cell) (a : Nat) (v : Byte) (x : Nat) :
    Cells.get (Cells.insert m a v) x = if x = a then v else Cells.get m x := by
  induction m with
  | nil => simp [Cells.insert, Cells.get]
  | cons c r ih =>
    obtain ⟨b, w⟩ := c
    unfold Cells.insert
    split
    · simp [Cells.get]
    · split
      · rename_i h
        subst h
        by_cases hx : x = a <;> simp [Cells.get, hx]
      · rename_i h1 h2
        by_cases hx : x = b
        · subst hx
          simp [Cells.get, Ne.symm h2]
        · simp [Cells.get, hx, ih]

/-- A write to one address gives the byte written there and leaves every other address alone. -/
theorem Cells.get_put (m : List Host.Cell) (a : Nat) (v : Byte) (x : Nat) :
    Cells.get (Cells.put m a v) x = if x = a then v else Cells.get m x := by
  unfold Cells.put
  split
  · rename_i h
    by_cases hx : x = a
    · subst hx; rw [Cells.get_filter_self]; simp [h, unlisted]
    · rw [Cells.get_filter_other _ _ _ hx, if_neg hx]
  · exact Cells.get_insert m a v x

/-- The byte at any address after a write of bytes. -/
theorem Cells.get_write (bs : List Byte) : ∀ (m : List Host.Cell) (a x : Nat),
    Cells.get (Cells.write m a bs) x = if a ≤ x ∧ x < a + bs.length then (bs[x - a]?).getD 0 else Cells.get m x := by
  induction bs with
  | nil => intro m a x; rw [if_neg (by simp only [List.length_nil]; omega)]; rfl
  | cons v r ih =>
    intro m a x
    simp only [Cells.write, ih, Cells.get_put, List.length_cons]
    by_cases h1 : a + 1 ≤ x ∧ x < a + 1 + r.length
    · rw [if_pos h1, if_pos (by omega)]
      have : x - a = (x - (a + 1)) + 1 := by omega
      rw [this]; simp
    · rw [if_neg h1]
      by_cases h2 : x = a
      · subst h2; simp
      · rw [if_neg h2, if_neg (by omega)]

theorem Cells.get_write_outside (m : List Host.Cell) (a : Nat) (bs : List Byte) (x : Nat) (h : x < a ∨ a + bs.length ≤ x) :
    Cells.get (Cells.write m a bs) x = Cells.get m x := by
  rw [Cells.get_write, if_neg (by omega)]

theorem Cells.read_length (m : List Host.Cell) : ∀ (n a : Nat), (Cells.read m a n).length = n := by
  intro n
  induction n with
  | zero => intro a; rfl
  | succ n ih => intro a; simp [Cells.read, ih]

theorem Cells.read_getElem? (m : List Host.Cell) : ∀ (n a k : Nat), k < n → (Cells.read m a n)[k]? = some (Cells.get m (a + k)) := by
  intro n
  induction n with
  | zero => intro a k h; omega
  | succ n ih =>
    intro a k h
    cases k with
    | zero => simp [Cells.read]
    | succ k => simp only [Cells.read, List.getElem?_cons_succ]; rw [ih _ _ (by omega)]; congr 2; omega

/-- Bytes read back as written. -/
theorem Cells.read_write (m : List Host.Cell) (a : Nat) (bs : List Byte) : Cells.read (Cells.write m a bs) a bs.length = bs := by
  apply List.ext_getElem?
  intro k
  by_cases h : k < bs.length
  · rw [Cells.read_getElem? _ _ _ _ h, Cells.get_write, if_pos (by omega)]
    simp [h]
  · rw [List.getElem?_eq_none (by rw [Cells.read_length]; omega), List.getElem?_eq_none (by omega)]

/-- A read of bytes that a write does not touch. -/
theorem Cells.read_write_outside (m : List Host.Cell) (a : Nat) (bs : List Byte) : ∀ (n b : Nat), b + n ≤ a ∨ a + bs.length ≤ b →
    Cells.read (Cells.write m a bs) b n = Cells.read m b n := by
  intro n
  induction n with
  | zero => intros; rfl
  | succ n ih =>
    intro b h
    simp only [Cells.read]
    rw [Cells.get_write_outside _ _ _ _ (by omega), ih _ (by omega)]

/-! ## The state's own operations keep the canonical form -/

theorem State.pokeMem_wf (s : State) (a : Nat) (bs : List Byte) (h : Memory.wf s.mem = true) :
    Memory.wf (s.pokeMem a bs).mem = true := Cells.wf_write bs _ _ h

theorem State.zeroFill_wf (s : State) (a n : Nat) (h : Memory.wf s.mem = true) : Memory.wf (s.zeroFill a n).mem = true :=
  Cells.wf_clear h _ _

theorem State.clearTags_mem (s : State) (a n : Nat) : (s.clearTags a n).mem = s.mem := by
  unfold State.clearTags; split <;> rfl

@[simp] theorem State.notePort_mem (s : State) (q : Req) (pa : Nat) : (s.notePort q pa).mem = s.mem := by
  unfold State.notePort; split <;> rfl

/-- A store to one line changes memory as a plain write does, or not at all. -/
theorem State.storeLine_mem (s : State) (q : Req) (pa : Nat) (bs : List Byte) :
    (s.storeLine q pa bs).mem = s.mem ∨ (s.storeLine q pa bs).mem = Cells.write s.mem pa bs := by
  unfold State.storeLine
  split
  · left; rfl
  · split
    · left; simp
    · right
      simp only []
      split
      · split <;> split <;> simp [State.clearTags_mem]
      · split <;> simp [State.clearTags_mem]

theorem State.storeLine_wf (s : State) (q : Req) (pa : Nat) (bs : List Byte) (h : Memory.wf s.mem = true) :
    Memory.wf (s.storeLine q pa bs).mem = true := by
  rcases State.storeLine_mem s q pa bs with e | e <;> rw [e]
  · exact h
  · exact Cells.wf_write bs _ _ h

theorem State.storeBytes_wf (q : Req) (l : List (Nat × List Byte)) : ∀ (off : Nat) (s : State), Memory.wf s.mem = true →
    Memory.wf (s.storeBytes q off l).1.mem = true := by
  induction l with
  | nil => intro _ s h; exact h
  | cons c r ih =>
    intro off s h
    obtain ⟨pa, bs⟩ := c
    unfold State.storeBytes
    split
    · exact ih _ _ (by simpa using h)
    · exact ih _ _ (State.storeLine_wf s q pa bs h)

/-- Outside the chunks of a store, every byte is as before. -/
theorem State.storeBytes_outside (q : Req) (l : List (Nat × List Byte)) (x : Nat) : ∀ (off : Nat) (s : State),
    (∀ c ∈ l, x < c.1 ∨ c.1 + c.2.length ≤ x) → (s.storeBytes q off l).1.byteAt x = s.byteAt x := by
  induction l with
  | nil => intro _ s _; rfl
  | cons c r ih =>
    intro off s h
    obtain ⟨pa, bs⟩ := c
    have hr : ∀ c ∈ r, x < c.1 ∨ c.1 + c.2.length ≤ x := fun c hc => h c (List.mem_cons_of_mem _ hc)
    have h0 := h (pa, bs) List.mem_cons_self
    unfold State.storeBytes
    split
    · refine (ih _ _ hr).trans ?_
      unfold State.byteAt; rw [State.notePort_mem]
    · rw [ih _ _ hr]
      unfold State.byteAt
      rcases State.storeLine_mem s q pa bs with e | e <;> rw [e]
      exact Cells.get_write_outside _ _ _ _ h0

@[simp] theorem State.loseStep_mem (s : State) (p : Nat) : (s.loseStep p).mem = s.mem := rfl

theorem State.recordLine_mem (s : State) (p pa n : Nat) : (s.recordLine p pa n).mem = s.mem := by
  unfold State.recordLine
  simp only []
  split
  · rfl
  · split <;> split <;> (try split) <;> (try split) <;> rfl

theorem State.recordChunks_mem (p : Nat) (l : List (Nat × List Byte)) : ∀ s : State, (s.recordChunks p l).mem = s.mem := by
  induction l with
  | nil => intro s; rfl
  | cons c r ih =>
    intro s; obtain ⟨pa, bs⟩ := c; simp only [State.recordChunks]; rw [ih]; exact State.recordLine_mem s p pa bs.length

theorem State.performStore_wf (s : State) (l : List (Nat × List Byte)) (cur : Word64) (h : Memory.wf s.mem = true) :
    Memory.wf (s.performStore l cur).mem = true := by
  unfold State.performStore
  have := State.storeBytes_wf s.req l 0 (s.recordChunks s.thr.part (l.filter fun c => (s.storeRefusal s.req c.1).isNone)) (by rw [State.recordChunks_mem]; exact h)
  simp only []
  split
  · exact this
  · exact this

end Sys2Proof.Machine
end

