-- ==== Sys2Proof/Laws/Ops.lean ====
section
/-! SUPPORT. What the shared operations over one continuation can do: registers, the end of a word, queues, the window. -/

namespace Sys2Proof.Machine

open Sys2Proof

/-! ## Cursors -/

@[simp] theorem Cap.cursor_setCursor (c : Cap) (v : Word64) : (c.setCursor v).cursor = v := by
  apply BitVec.eq_of_getLsbD_eq
  intro i hi
  simp only [Cap.setCursor, Cap.cursor, BitVec.getLsbD_extractLsb', BitVec.getLsbD_append, hi, Nat.zero_add, decide_true,
    Bool.true_and, ite_true]

@[simp] theorem Cap.setCursor_setCursor (c : Cap) (v w : Word64) : (c.setCursor v).setCursor w = c.setCursor w := by
  simp only [Cap.setCursor, Cap.mk.injEq, and_true]
  apply BitVec.eq_of_getLsbD_eq
  intro i hi
  simp only [BitVec.getLsbD_append, BitVec.getLsbD_extractLsb']
  by_cases h : i < 64
  · simp [h]
  · have e : 64 + (i - 64) = i := by omega
    have f : i - 64 < 64 := by omega
    simp [h, e, f]

@[simp] theorem Cap.setCursor_self (c : Cap) : c.setCursor c.cursor = c := by
  obtain ⟨b, t⟩ := c
  simp only [Cap.setCursor, Cap.cursor, Cap.mk.injEq, and_true]
  apply BitVec.eq_of_getLsbD_eq
  intro i hi
  simp only [BitVec.getLsbD_append, BitVec.getLsbD_extractLsb']
  by_cases h : i < 64
  · simp [h]
  · have e : 64 + (i - 64) = i := by omega
    have f : i - 64 < 64 := by omega
    simp [h, e, f]

/-! ## Registers -/

namespace State

theorem reg_eq (s : State) (r : RegNum) : s.reg r = if r = 0 then Cap.null else s.thr.ctx.regs[r.toNat] := rfl

@[simp] theorem writeReg_zero (s : State) (v : Cap) : s.writeReg 0#5 v = s := if_pos rfl

theorem writeReg_a0 (s : State) {d : RegNum} (v : Cap) (h : d = 0) : s.writeReg d v = s := if_pos h

theorem writeReg_of_ne (s : State) {d : RegNum} (v : Cap) (h : d ≠ 0) : s.writeReg d v =
    s.modCtx fun c =>
      { c with regs := c.regs.set d.toNat v, late := orphanMark c d.toNat, regMarks := NMap.del c.regMarks d.toNat } := by
  rw [writeReg, if_neg h]

@[simp] theorem reg_zero (s : State) : s.reg 0#5 = Cap.null := if_pos rfl

/-- What overwriting a marked register leaves among the faults with no register (R364): the mark, where it is not delivered. -/
theorem orphanMark_kept (c : Ctx) (r : Nat) {x : Deferred} (h : x ∈ c.late) : x ∈ orphanMark c r := by
  unfold orphanMark
  split
  · split
    · exact h
    · exact List.mem_append_left _ h
  · exact h

theorem orphanMark_new (c : Ctx) (r : Nat) {x : Deferred} (h : x ∈ orphanMark c r) :
    x ∈ c.late ∨ NMap.get? c.regMarks r = some x := by
  unfold orphanMark at h
  split at h
  · next d hd =>
    split at h
    · exact .inl h
    · rcases List.mem_append.mp h with g | g
      · exact .inl g
      · exact .inr (by rw [hd, List.mem_singleton.mp g])
  · exact .inl h

theorem reg_a0 (s : State) {r : RegNum} (h : r = 0) : s.reg r = Cap.null := if_pos h

theorem reg_of_ne (s : State) {r : RegNum} (h : r ≠ 0) : s.reg r = s.thr.ctx.regs[r.toNat] := if_neg h

@[simp] theorem reg_writeReg (s : State) (d : RegNum) (v : Cap) : (s.writeReg d v).reg d = written d v := by
  by_cases h : d = 0
  · subst h; rfl
  · rw [writeReg_of_ne s v h, reg_of_ne _ h, written, if_neg h]
    exact Vector.getElem_set_self ..

theorem reg_writeReg_ne (s : State) {d r : RegNum} (v : Cap) (h : r ≠ d) : (s.writeReg d v).reg r = s.reg r := by
  have hn : d.toNat ≠ r.toNat := fun e => h (BitVec.eq_of_toNat_eq e.symm)
  by_cases hd : d = 0
  · rw [writeReg_a0 s v hd]
  · by_cases hr : r = 0
    · rw [reg_a0 _ hr, reg_a0 _ hr]
    · rw [writeReg_of_ne s v hd, reg_of_ne _ hr, reg_of_ne _ hr]
      exact Vector.getElem_set_ne d.isLt r.isLt hn

@[simp] theorem setPc_pc (s : State) (v : Word64) : (s.setPc v).pc = v := Cap.cursor_setCursor _ _

@[simp] theorem advance_pc (s : State) : s.advance.pc = s.pc + 4 := setPc_pc s _

@[simp] theorem writeReg_pc (s : State) (d : RegNum) (v : Cap) : (s.writeReg d v).pc = s.pc := by
  by_cases h : d = 0
  · rw [writeReg_a0 s v h]
  · rw [writeReg_of_ne s v h]; rfl

@[simp] theorem advance_reg (s : State) (r : RegNum) : s.advance.reg r = s.reg r := rfl

/-! ## The end of a word -/

@[simp] theorem finish_ok (s t : State) : s.finish (.ok t) = .next t.clearStall.complete := rfl
@[simp] theorem finish_fault (s : State) (f : FaultInfo) :
    s.finish (.error (.fault f)) = .next (s.clearStall.deliverTrap f) := rfl
theorem finish_hold (s : State) (f : State → State) : ∃ u, s.finish (.error (.hold f)) = .next u := ⟨_, rfl⟩

/-! The fields that the end of a word changes, and those that it does not. -/

theorem end_thr (u : State) : u.clearStall.complete.thr =
    { u.thr with stall := none, ctx := u.clearStall.complete.thr.ctx } := rfl

theorem land_thr (u : State) : u.clearStall.countWindows.land.thr =
    { u.thr with stall := none, ctx := u.clearStall.countWindows.land.thr.ctx } := rfl

@[simp] theorem end_reg (u : State) (r : RegNum) : u.clearStall.complete.reg r = u.reg r := rfl
@[simp] theorem land_reg (u : State) (r : RegNum) : u.clearStall.countWindows.land.reg r = u.reg r := rfl
@[simp] theorem end_pc (u : State) : u.clearStall.complete.pc = u.pc := rfl
@[simp] theorem land_pc (u : State) : u.clearStall.countWindows.land.pc = u.pc := rfl
@[simp] theorem end_stall (u : State) : u.clearStall.complete.thr.stall = none := rfl
@[simp] theorem land_stall (u : State) : u.clearStall.countWindows.land.thr.stall = none := rfl
@[simp] theorem land_landed (u : State) : u.clearStall.countWindows.land.thr.ctx.checker.landed = true := rfl
@[simp] theorem end_byteAt (u : State) (a : Nat) : u.clearStall.complete.byteAt a = u.byteAt a := rfl

/-- A word always ends in a next state: it completes, it traps, or it waits. -/
theorem finish_next (s : State) (r : Res State) : ∃ t, s.finish r = .next t := by
  match r with
  | .ok t => exact ⟨_, rfl⟩
  | .error (.fault f) => exact ⟨_, rfl⟩
  | .error (.hold t) => exact ⟨_, rfl⟩

theorem finishTransfer_next (s : State) (r : Res State) : ∃ t, s.finishTransfer r = .next t := by
  unfold finishTransfer finishWith
  split <;> exact ⟨_, rfl⟩

/-- A transfer whose block may end here: it completes and lands. -/
theorem finishTransfer_ok (s t : State) (h : s.checkTransfer = .ok ()) :
    s.finishTransfer (.ok t) = .next (t.clearStall.countWindows.land) := by
  unfold finishTransfer
  simp only [bind, Except.bind, h]
  rfl

end State

/-! ## Agreement -/

theorem Agrees.refl (s : State) : Agrees s s := ⟨rfl, rfl, rfl⟩

theorem Agrees.trans {x y z : State} (h : Agrees x y) (g : Agrees y z) : Agrees x z where
  context := g.context.trans (by rw [h.context])
  thread := g.thread.trans (by rw [h.thread])
  machine := g.machine.trans (by rw [h.machine])

theorem Agrees.setPc (s : State) (v : Word64) : Agrees s (s.setPc v) := ⟨rfl, rfl, rfl⟩

theorem Agrees.writeReg (s : State) (d : RegNum) (v : Cap) : Agrees s (s.writeReg d v) := by
  by_cases h : d = 0
  · rw [State.writeReg_a0 s v h]; exact Agrees.refl s
  · rw [State.writeReg_of_ne s v h]; exact ⟨rfl, rfl, rfl⟩

theorem Agrees.complete (s : State) : Agrees s s.clearStall.complete := ⟨rfl, rfl, rfl⟩

theorem Agrees.land (s : State) : Agrees s s.clearStall.countWindows.land := ⟨rfl, rfl, rfl⟩

theorem Agrees.bytes {m t : State} (h : Agrees m t) (a : Nat) : t.byteAt a = m.byteAt a := by rw [h.machine]; rfl

/-! ## Becoming: the frame of the end of a word -/

/-- What a word made, before its end counts it in the open windows. -/
structure Made (ds : List RegNum) (m s u : State) : Prop where
  regs : ∀ r, r ∉ ds → u.reg r = s.reg r
  marks : ∀ k, k ∈ u.thr.ctx.regMarks → k ∈ s.thr.ctx.regMarks
  marksKept : ∀ k, k ∈ s.thr.ctx.regMarks → (∀ d, d ∈ ds → k.1 ≠ d.toNat) → k ∈ u.thr.ctx.regMarks
  lateKept : ∀ x, x ∈ m.thr.ctx.late → x ∈ u.thr.ctx.late
  lateNew : ∀ x, x ∈ u.thr.ctx.late → x ∈ m.thr.ctx.late ∨ ∃ d, d ∈ ds ∧ (d.toNat, x) ∈ s.thr.ctx.regMarks
  code : u.thr.ctx.code = m.thr.ctx.code.setCursor u.pc
  pend : u.thr.ctx.pend = m.thr.ctx.pend
  rest : Agrees m u

/-- A state whose registers and marks are those of `s`. -/
theorem Made.self (m s : State) (hr : m.thr.ctx.regs = s.thr.ctx.regs) (hk : m.thr.ctx.regMarks = s.thr.ctx.regMarks) :
    Made [] m s m where
  regs := fun r _ => by simp only [State.reg_eq, hr]
  marks := fun k h => hk ▸ h
  marksKept := fun k h _ => hk ▸ h
  lateKept := fun _ h => h
  lateNew := fun _ h => .inl h
  code := by simp [State.pc]
  pend := rfl
  rest := Agrees.refl m

theorem Made.setPc {ds : List RegNum} {m s u : State} (h : Made ds m s u) (v : Word64) : Made ds m s (u.setPc v) where
  regs := fun r hr => h.regs r hr
  marks := h.marks
  marksKept := h.marksKept
  lateKept := h.lateKept
  lateNew := h.lateNew
  code := by
    have := h.code
    simp only [State.setPc, State.modCtx, State.pc] at this ⊢
    rw [this]; simp
  pend := h.pend
  rest := h.rest.trans (Agrees.setPc u v)

theorem Made.advance {ds : List RegNum} {m s u : State} (h : Made ds m s u) : Made ds m s u.advance := h.setPc _

theorem Made.writeReg {ds : List RegNum} {m s u : State} (h : Made ds m s u) (d : RegNum) (v : Cap) (hd : d ∈ ds) :
    Made ds m s (u.writeReg d v) := by
  by_cases h0 : d = 0
  · rw [State.writeReg_a0 u v h0]; exact h
  · refine ⟨fun r hr => ?_, fun k hk => ?_, fun k hk hn => ?_, fun x hx => ?_, fun x hx => ?_, ?_, ?_,
      h.rest.trans (Agrees.writeReg u d v)⟩
    · rw [State.reg_writeReg_ne _ _ (fun e => hr (by rw [e]; exact hd))]
      exact h.regs r hr
    · rw [State.writeReg_of_ne u v h0] at hk
      exact h.marks k (List.mem_of_mem_filter hk)
    · rw [State.writeReg_of_ne u v h0]
      refine List.mem_filter.mpr ⟨h.marksKept k hk hn, by simpa using hn d hd⟩
    · rw [State.writeReg_of_ne u v h0]
      exact State.orphanMark_kept _ _ (h.lateKept x hx)
    · rw [State.writeReg_of_ne u v h0] at hx
      rcases State.orphanMark_new _ _ hx with g | g
      · exact h.lateNew x g
      · exact .inr ⟨d, hd, h.marks _ (NMap.mem_of_get? g)⟩
    all_goals rw [State.writeReg_of_ne u v h0]
    · exact h.code
    · exact h.pend

theorem Made.widen {ds es : List RegNum} {m s u : State} (h : Made ds m s u) (hs : ∀ d, d ∈ ds → d ∈ es) : Made es m s u where
  regs := fun r hr => h.regs r fun e => hr (hs r e)
  marks := h.marks
  marksKept := fun k hk hn => h.marksKept k hk fun d hd => hn d (hs d hd)
  lateKept := h.lateKept
  lateNew := fun x hx => (h.lateNew x hx).imp_right fun ⟨d, hd, hm⟩ => ⟨d, hs d hd, hm⟩
  code := h.code
  pend := h.pend
  rest := h.rest

/-- A word that ends by completing. -/
theorem Made.complete {ds : List RegNum} {m s u : State} (h : Made ds m s u) : Becomes ds m s u.clearStall.complete where
  regs := fun r hr => h.regs r hr
  marks := h.marks
  marksKept := h.marksKept
  lateKept := h.lateKept
  lateNew := h.lateNew
  code := h.code
  windows := by rw [← h.pend]; rfl
  rest := h.rest.trans (Agrees.complete u)

/-- A word that ends by landing. -/
theorem Made.land {ds : List RegNum} {m s u : State} (h : Made ds m s u) : Becomes ds m s u.clearStall.countWindows.land where
  regs := fun r hr => h.regs r hr
  marks := h.marks
  marksKept := h.marksKept
  lateKept := h.lateKept
  lateNew := h.lateNew
  code := h.code
  windows := by rw [← h.pend]; rfl
  rest := h.rest.trans (Agrees.land u)

theorem Made.start (ds : List RegNum) (s : State) : Made ds s s s := (Made.self s s rfl rfl).widen (by simp)

theorem Becomes.frame {ds : List RegNum} {s t : State} (h : Becomes ds s s t) : Frame ds s t := ⟨h, h.rest.bytes⟩

/-- A word that writes one register and goes on. -/
theorem Gives.of_writeReg {i : Instr} {s : State} {d : RegNum} {v : Cap}
    (h : exec i s = s.finish (.ok (s.writeReg d v).advance)) : Gives i s d v :=
  ⟨_, h, by simp, rfl, by simp, ((Made.start [d] s).writeReg d v (by simp)).advance.complete.frame⟩

/-- A word that only goes on. -/
theorem Passes.of_advance {i : Instr} {s : State} (h : exec i s = s.finish (.ok s.advance)) : Passes i s :=
  ⟨_, h, by simp, rfl, (Made.start [] s).advance.complete.frame⟩

/-- A transfer that may land. -/
theorem Transfers.of_setPc {i : Instr} {s : State} {v : Word64} (h : exec i s = s.finishTransfer (.ok (s.setPc v)))
    (hc : s.checkTransfer = .ok ()) : Transfers i s v :=
  ⟨_, h.trans (State.finishTransfer_ok _ _ hc), by simp, rfl, rfl, ((Made.start [] s).setPc v).land.frame⟩

end Sys2Proof.Machine
end

