-- ==== Sys2Proof/Tests/Slice0.lean ====
section
/-! SUPPORT. Tests of the model, and for each statement of the certificates a named state that meets its hypotheses. Expected
values come from the spec's own examples and tables, or are worked out by hand from its rules. -/

namespace Sys2Proof.Tests

open Sys2Proof Sys2Proof.Machine

set_option maxRecDepth 100000

/-! ## A small machine -/

/-- A tagged capability at a cursor: bounds from 0 to `top`, in units of 2^e. -/
def cap (space : BitVec 3) (perm : BitVec 9) (e : BitVec 6) (top : BitVec 17) (cur : Word64) : Cap :=
  ⟨capBits space perm 0 e 0 top cur, true⟩

/-- The whole cluster memory of cluster 0, with every permission but SE. -/
def localAt (cur : Word64) : Cap := cap 1 0x0FF 8 0x10000 cur
/-- The first 4 GiB of DEVICE. -/
def deviceAt (cur : Word64) : Cap := cap 2 0x0FF 16 0x10000 cur

/-- One page table: pages 0 and 1 are mapped, page 2 is first-touch, page 3 lies in the same table and is absent, the
entry of page 6 is malformed. -/
def tables : NMap Word64 :=
  [(0x10000, pteBits 0 0x20000 false false false 1), (0x20000, pteBits 0 0x30000 false false false 1),
   (0x30000, pteBits 0 0x40000 false false false 1), (0x40000, pteBits 0 0x140000 true true true 2), (0x40008, pteBits 0 0x100000 true true true 2),
   (0x40010, pteBits 0 0 true true true 3), (0x40030, pteBits 0 0x50000 false false false 1)]

def liveGate : Gate := { Gate.free with
  live := true, code := localAt 0x4000, root := localAt 0, frameCap := localAt 0x5000, budget := 10, frame := 4, argw := 1 }

def world1 : World := { World.empty with
  domains := [(0, { Domain.free with state := .live, ptroot := 0x10000, root := localAt 0 })], gates := [(0, liveGate)]
  ptes := tables, free64k := (List.range 8).map fun k => 0x200000 + k * 0x10000, contLimit := 4, keyState := .active, keyId := 7 }

def part0 : Partition := { Partition.empty with world := 1, clusters := [0], phase := .active }

def cluster0 : Cluster := { Cluster.empty with allocs := [⟨0, 256, 1, 0, 1⟩] }

def hub0 : Hub := { Hub.reset with stage := 7, dlatch := Hub.reset.dlatch.set 0 ⟨true, true, 1⟩ }

/-- A context at address 0x1000 of cluster 0, a frame of 2 KiB, the registers given. -/
def ctx0 (regs : List (Nat × Cap)) : Ctx := { Ctx.empty with
  code := localAt 0x1000, regs := regs.foldl (fun v x => if h : x.1 < 32 then v.set x.1 x.2 else v) Ctx.empty.regs
  fs := 2048, allot := 1000 }

/-- A running thread in slot 0 of core 0. -/
def thread0 (regs : List (Nat × Cap)) : Thread := { Thread.vacant with
  tid := 1, cref := 1, world := 1, status := .running, place := some 0, prio := 3, effLevel := 3, ctx := ctx0 regs }

/-- The machine with that one thread. -/
def base (regs : List (Nat × Cap)) : State := { State.reset with
  thr := thread0 regs, worlds := [(1, world1)], parts := [(0, part0)], clusters := [(0, cluster0)], hub := hub0, nextId := 10 }

/-- a4 = 5, a5 = -3, a6 in cluster memory, a7 in DEVICE page 1, a8 sealed, a9 untagged, a10 another cursor of cluster memory. -/
def sample : State := base [(4, Cap.ofInt 5), (5, Cap.ofInt (-3)), (6, localAt 0x2000), (7, deviceAt 0x10040),
  (8, (localAt 0x3000).setSeal true), (9, Cap.ofInt 0x3000), (10, localAt 0x6000)]

/-- The requests of the sample's thread. -/
def q0 : Req := ⟨1, some 0⟩

theorem sample_req : sample.req = q0 := rfl

/-- `p` holds of the next state. -/
def nextIs (o : Out) (p : State → Bool) : Bool := match o with
  | .next t => p t
  | .fault _ => false
  | .refused _ => false

/-- `p` holds of the result. -/
def okIs {α : Type} (r : Res α) (p : α → Bool) : Bool := match r with
  | .ok x => p x
  | .error _ => false

theorem okIs_elim {α : Type} {r : Res α} {p : α → Bool} (h : okIs r p = true) : ∃ x, r = .ok x ∧ p x = true := by
  cases r with
  | ok x => exact ⟨x, rfl, h⟩
  | error e => exact absurd h (by simp [okIs])

/-- A fault with that code and address. -/
def trapIs {α : Type} (r : Res α) (code : BitVec 8) (addr : Word64) : Bool := match r with
  | .error (.fault f) => f == plainFault code addr
  | _ => false

theorem trapIs_elim {α : Type} {r : Res α} {code : BitVec 8} {addr : Word64} (h : trapIs r code addr = true) :
    ∃ f, r = .error (.fault f) := by
  cases r with
  | ok x => exact absurd h (by simp [trapIs])
  | error e => cases e with
    | fault f => exact ⟨f, rfl⟩
    | hold s => exact absurd h (by simp [trapIs])

/-! ## Well-formedness: one ill-formed instruction for each check, and one at each edge that is well formed -/

theorem test_wf_refuses : ([
    Instr.call 0 0, .enter 0 0, .enter 513 0, .enter 1 5, .ld 3 0 0 0 0 6 4, .ld 1 0 0 7 0 6 4, .st 3 0 0 0 6 4, .st 2 0 7 0 6 4,
    .mredAdd 0 4 0 6 4, .mredAddFloat 0 0 0 6 4, .mredMaxFloat 0 3 0 6 4, .pgalloc 0 3 6 4, .pgfree 3 6,
    .ctadd 0 0 3 0 6 4, .ctadd 0 0 0 0 16 4, .ctadd 1 0 1 0 6 4, .ctwait 0 2 0 16, .ctwaitt 0 3 0 6 4, .ctread 0 2 1 6 4,
    .ctarr 0 16, .ctarrDrop 0 16, .ctarrJoin 0 31, .vadd .f32 1 2 3, .vadd .i32 30 2 3, .vadd .i32 1 31 3, .vadd .i32 1 2 28,
    .vmad .i32 1 2 30, .vabs .i8 30 3, .vredAdd .bf16 2 3, .fadd 0 .i32 1 2 3, .fadd 0 .f32 30 2 3, .fsqrt 0 .i64 2 3,
    .ffma 0 .f32 30 1 2 3, .vsel false false .f32 1 2 31, .vperm .f32 1 2 29, .vbcast .f32 16 2 3, .vbcast .i64 8 2 3, .vslide .i8 1 30 3,
    .fcvtFromFc 0 .f32 .i8 2 3, .fcvtToFc 0 .i32 .e4m3 2 3, .icvtToInt 0 .f32 .e4m3 2 3, .icvtToFloat 0 .i8 .i8 2 3, .vpack .i8 1 2 3,
    .xins .i64 8 4 3, .xins .f32 0 4 30, .xext .f32 16 2 4, .xext .i8 0 30 4, .xmov 30 3, .xli 0 .f32 29, .xliHi 0 28, .xliLo 0 30,
    .aread .i32 0 4 0, .srd 0 4, .srd 0x813 4, .swr 0x050 4, .hint 0, .sig 0xFFFFF 0x3F,
    .launchRecord 4096, .continuationTake 1024 0, .steal 0 8, .engineStop 64, .copyJobStart 0 64, .rekey 64, .domainKill 0 4096,
    .domainCreate 0 ⟨4096, 0, false, 0, 0, none⟩, .keySweepLine 0 16, .dlatchWrite 8 0, .linkFailure 32,
    .nelturFlit ⟨4096, 0, 0, 0, 0, 0, 0, 0, none, 0, .copyWrite []⟩, .correctedError ⟨12, 0, 0, 0⟩].all fun i => !i.wf) = true := by
  decide

theorem test_wf_accepts : ([
    Instr.call 0 1, .enter 512 4, .ld 0 0 0 7 0 6 4, .mredAdd 0 3 0 6 4, .mredAddFloat 0 1 0 6 4, .pgfree 2 6, .ctadd 1 2 0 0 15 4,
    .ctread 2 1 1 31 4, .vadd .i64 29 27 31, .fadd 3 .bf16 28 28 30, .vbcast .i8 31 2 3, .xext .bf16 31 29 4, .srd 0x812 4,
    .swr 0x01F 4, .hint 0x3FFFFFF, .sig 0xFFFFF 0, .launchRecord 4095, .steal 1023 7, .correctedError ⟨11, 383, 63, 524287⟩].all Instr.wf) = true := by
  decide

/-! ## Decoding: words written out from the encoding tables of 03_encoding R50-R74 -/

/-- The word is that instruction. -/
def reads (w : Word32) (i : Instr) : Bool := match decodeWord w with
  | .ok j => j == i
  | .error _ => false

theorem test_decode_access : (
    reads 0x30062901 (.add 3 6 5 4) && reads 0x9C402102 (.addi (-3192) 4 4) && reads 0x00000903 (.ahi 1 4) &&
    reads 0x30804904 (.cpget 3 9 4) && reads 0xFFE10105 (.bne (-4) 0 4) && reads 0x00210008 (.enter 4 1)) = true := by
  decide

theorem test_decode_memory : (
    reads 0x13624950 (.ld 0 1 3 3 2 9 5) && reads 0x10614950 (.ld 0 1 0 3 1 9 5) && reads 0x20E14951 (.st 0 2 7 1 9 5) &&
    reads 0xA0473112 (.mredMaxFloat 0 2 7 6 4) && reads 0x02003114 (.pgalloc 2 0 6 4)) = true := by
  decide

theorem test_decode_counters : (
    reads 0x02A73118 (.ctadd 2 1 1 7 6 4) && reads 0x00A73019 (.ctwait 1 1 7 6) && reads 0x0540191A (.ctread 5 2 2 3 4) &&
    reads 0x0000601C (.cpyj 12) && reads 0x00203BDC (.cpyq 7 15)) = true := by
  decide

theorem test_decode_vectors : (
    reads 0x200208E1 (.fadd 2 .f32 2 1 3) && reads 0x080208E0 (.vadd .i32 2 1 3) && reads 0x99662920 (.vmin true false true .i32 6 5 4) &&
    reads 0x810521E4 (.fcmpLt true false .f32 5 4 7) && reads 0x046808A5 (.vslide .i8 8 1 2) && reads 0x00040926 (.fcvtFromFc 0 .f32 .e2m1 1 4) &&
    reads 0x0A001827 (.vredAdd .i64 3 0) && reads 0x08221968 (.xext .i32 2 3 5)) = true := by
  decide

theorem test_decode_matrix_system : (
    reads 0x00083830 (.mfmt 8 7) && reads 0x00044231 (.mmaAcc 2 1 0 8) && reads 0x01244331 (.mmaNew 1 2 1 0 12) &&
    reads 0x008AD532 (.mmarAcc 5 3 2 20) && reads 0x00006034 (.arel 12) && reads 0x02004936 (.spawn 2 9 4) &&
    reads 0x02202937 (.sysc 17 5 4) && reads 0x00006038 (.gcall 12) && reads 0x00212839 (.grevokeEject 5) &&
    reads 0x0020003A .tretSkip && reads 0x0024283A (.swr 0x001 5) && reads 0x0102493B (.engrd 8 9 4) &&
    reads 0x00A0003C (.dbgstop 5) && reads 0x9018807F (.sig 0x90188 1)) = true := by
  decide

/-- Words that are no instruction: an S on `mul`, a second shift code, all ones, all zeros; and fewer than four bytes. -/
theorem test_decode_refuses : ([0xB0000812, 0x00800812, 0xFFFFFFFF, 0x00000000].all fun w => match decodeWord w with
    | .ok _ => false
    | .error _ => true) = true := by
  decide

/-! ## Witnesses: the integer and capability words, control transfer -/

/-- A context like that of a state. -/
def withCtx (s : State) (f : Ctx → Ctx) : State := { s with thr := { s.thr with ctx := f s.thr.ctx } }

/-- The sample with another a11. -/
def with11 (c : Cap) : State := withCtx sample fun k => { k with regs := k.regs.set 11 c }

theorem wit_CpboundResult :
    (let s := sample
     ¬ ((s.reg 6).tag = true ∧ (s.reg 6).sealed = true) ∧ (s.int 4).toNat = 5 ∧ (s.reg 6).addr = 0x2000 ∧
     (0x2005 + 2 ^ 0 - 1) / 2 ^ 0 - 0x2000 / 2 ^ 0 ≤ 2 ^ 16 ∧ (s.reg 6).base ≤ 0x2000 ∧ (0x2005 : Int) ≤ (s.reg 6).top) ∧
    (let s := with11 (Cap.ofInt 0x10001)
     (s.int 11).toNat = 0x10001 ∧ (0x12001 + 2 ^ 1 - 1) / 2 ^ 1 - 0x2000 / 2 ^ 1 ≤ 2 ^ 16 ∧
     (∀ k, k < 1 → ¬ ((0x12001 + 2 ^ k - 1) / 2 ^ k - 0x2000 / 2 ^ k ≤ 2 ^ 16)) ∧ (s.reg 6).base ≤ (0x1000 * 2 : Nat) ∧
     ((0x9001 * 2 : Nat) : Int) ≤ (s.reg 6).top) := by
  decide

theorem wit_CapabilityWords : ((sample.reg 6).tag = true ∧ (sample.reg 6).sealed = false) ∧ (sample.reg 9).tag = false ∧
    ((sample.reg 8).tag = true ∧ (sample.reg 8).sealed = true) := by
  decide

theorem sample_mayTransfer : mayTransfer sample := by unfold mayTransfer; decide

/-- Each relation holds of some registers, for a target in the bounds (the word itself) and for one below them. -/
theorem wit_BranchWords : sample.int 4 = sample.int 4 ∧ sample.int 4 ≠ sample.int 5 ∧ (sample.int 5).toInt < (sample.int 4).toInt ∧
    (sample.int 4).toNat < (sample.int 5).toNat ∧ (sample.reg 6).tag = true ∧ (sample.reg 4).tag = false ∧
    codeCovers sample.thr.ctx.code (sample.pc + BitVec.ofInt 64 ((0 : BitVec 13).toInt * 4)) = true ∧
    codeCovers sample.thr.ctx.code (sample.pc + BitVec.ofInt 64 ((-4096 : BitVec 13).toInt * 4)) = false := by
  decide

theorem sample_target : TargetOk 6 false sample :=
  ⟨by decide, by decide, by decide, by decide, by decide, by decide, by decide⟩

theorem wit_JumpsAndCalls : mayTransfer sample ∧ TargetOk 6 false sample ∧
    codeCovers sample.thr.ctx.code (sample.pc + BitVec.ofInt 64 ((1 : BitVec 21).toInt * 4)) = true ∧
    codeCovers sample.thr.ctx.code (sample.pc + BitVec.ofInt 64 ((-1048576 : BitVec 21).toInt * 4)) = false :=
  ⟨sample_mayTransfer, sample_target, by decide, by decide⟩

/-- A frame opened by `enter` at this depth, queues with entries, an open window, a mark on a5. -/
def framed : State := withCtx sample fun c => { c with
  wstack := [⟨0, 512, 0, false⟩, ⟨0, 0, 0, true⟩], wbase := 512, fs := 128, sq0 := [⟨5, none, true⟩, ⟨7, none, true⟩], sq1 := [⟨9, none, true⟩]
  lq0 := List.replicate 32 ⟨1, none, true⟩, regMarks := [(5, ⟨0x40, 0, 0, 0⟩)], pend := [⟨11, some (Cap.ofInt 3), none, 3, none⟩] }

theorem wit_RetRestoresWindow : mayTransfer sample ∧ TargetOk 8 true sample ∧ frameOpen sample = none ∧
    mayTransfer framed ∧ TargetOk 8 true framed ∧ frameOpen framed = some ⟨0, 512, 0, false⟩ :=
  ⟨sample_mayTransfer, ⟨by decide, by decide, by decide, by decide, by decide, by decide, by decide⟩, by decide,
    by unfold mayTransfer; decide, ⟨by decide, by decide, by decide, by decide, by decide, by decide, by decide⟩, by decide⟩

/-- A new frame and a resize that ends at the top of the resident window; arguments that the frame or the caller does not hold. -/
theorem wit_EnterOpensFrame :
    ((Instr.enter 1 1).wf = true ∧ 64 ≤ sample.thr.ctx.fs ∧ sample.thr.ctx.wbase + sample.thr.ctx.fs - 64 + 64 ≤ residentWindow) ∧
    (let s := withCtx framed fun c => { c with wbase := residentWindow - 64 }
     (frameOpen s).isSome = true ∧ s.thr.ctx.wbase + 64 = residentWindow) ∧
    ((Instr.enter 1 2).wf = true ∧ 1 * 64 < 2 * 64) ∧
    ((Instr.enter 4 3).wf = true ∧ framed.thr.ctx.fs < 3 * 64) := by
  decide

/-- The kinds of bad targets, in the order of the checks: two of alignment, a return token; no tag, an old generation, a sealed target
and one that is not, no X, another space, a die of nobody; a target outside its bounds, and bounds that wrap, of both seals. -/
theorem wit_BadTargetTraps :
    (let s := with11 (localAt 0x2002)
     (s.reg 11).cursor.toNat % 4 ≠ 0 ∧ isReturnToken (s.reg 11) = false) ∧
    isReturnToken ((with11 (State.returnToken 3)).reg 11) = true ∧
    ((sample.reg 9).cursor.toNat % 4 = 0 ∧ (sample.reg 9).tag = false) ∧
    (let s := with11 ⟨capBits 1 0x0FF 5 8 0 0x10000 0x2000, true⟩
     (s.reg 11).cursor.toNat % 4 = 0 ∧ (s.reg 11).tag = true ∧ s.genOk s.who (s.reg 11) (s.reg 11).addr 4 = false) ∧
    (sample.genOk sample.who (sample.reg 8) (sample.reg 8).addr 4 = true ∧ (sample.reg 8).sealed = true) ∧
    (sample.genOk sample.who (sample.reg 6) (sample.reg 6).addr 4 = true ∧ (sample.reg 6).sealed = false) ∧
    (let s := with11 ((localAt 0x2000).setPerm 0x03)
     (s.reg 11).permX = false ∧ s.genOk s.who (s.reg 11) (s.reg 11).addr 4 = true) ∧
    (let s := with11 (cap 3 0x0FF 8 0x10000 0)
     (s.reg 11).space = 3 ∧ s.genOk s.who (s.reg 11) (s.reg 11).addr 4 = true) ∧
    (let s := with11 (cap 1 0x0FF 15 0x10000 0x8000000)
     (s.reg 11).space = 1 ∧ s.diesServe s.thr.world (s.reg 11).addr 4 = false ∧ s.genOk s.who (s.reg 11) (s.reg 11).addr 4 = true) ∧
    ([false, true].all fun z =>
      let s := with11 ((cap 1 0x0FF 0 16 0x2000).setSeal z)
      (s.reg 11).sealed == z && (s.reg 11).permX && s.diesServe s.thr.world (s.reg 11).addr 4 && !codeCovers (s.reg 11) (s.reg 11).cursor &&
        s.genOk s.who (s.reg 11) (s.reg 11).addr 4) = true ∧
    (let s := with11 ⟨capBits 2 0x0FF 0 47 0x1FFFF 0x10000 0x2000, true⟩
     (s.reg 11).boundsOk = false ∧ s.genOk s.who (s.reg 11) (s.reg 11).addr 4 = true) := by
  decide

/-! ## Witnesses: loads, stores, reductions, pages -/

/-- The access of `n` bytes at a register's effective address passes, and `p` holds of its pieces and the state after translation. -/
def reaching (s : State) (a : RegNum) (m : BitVec 2) (b : RegNum) (n : Nat) (need : Need)
    (p : List (Nat × Nat) → State → Bool) : Bool :=
  okIs (s.access s.who (s.reg a) (effective (s.reg a) m b n s) n need (a.setWidth 64)) fun x => p x.1 x.2

theorem reaching_elim {s : State} {a : RegNum} {m : BitVec 2} {b : RegNum} {n : Nat} {need : Need}
    {p : List (Nat × Nat) → State → Bool} (h : reaching s a m b n need p = true) :
    ∃ ps t, Reaches s (s.reg a) (effective (s.reg a) m b n s) n need (a.setWidth 64) ps t ∧ p ps t = true := by
  obtain ⟨⟨ps, t⟩, h, hp⟩ := okIs_elim h
  exact ⟨ps, t, h, hp⟩

/-- Memory with bytes at 0x2000, tagged there, and a counter line at 0x6040. -/
def filled : State := { sample with
  mem := (List.range 64).map fun k => (0x2000 + k, BitVec.ofNat 8 (k + 1)), tags := [0x200], ctrLines := [0x6040 / 64] }

/-- A doubleword at once, a capability with lookahead, an access of two pages. -/
theorem wit_LoadRegister :
    reaching filled 6 0 0 8 needLoad (fun ps t => ps == [(0x2000, 8)] && (t.piecesFault q0 0x2000 ps).isNone) = true ∧
    (filled.givenEntry = none ∧ (effective (filled.reg 6) 2 0 16 filled).toNat % 16 = 0) ∧
    reaching filled 6 2 0 16 needLoad (fun ps t => ps == [(0x2000, 16)] && (t.piecesFault q0 0x2000 ps).isNone) = true ∧
    (let s := with11 (deviceAt 0xFFFC)
     reaching s 11 0 0 8 needLoad (fun ps t => decide (ps.length = 2) && (t.piecesFault q0 0xFFFC ps).isNone) = true) := by
  decide

/-- A queue with one free entry, and an empty one. -/
theorem wit_LoadQueue :
    (let s := withCtx sample fun c => { c with lq0 := List.replicate (Config.lqDepth - 1) ⟨1, none, true⟩ }
     (s.queue 0).length < Config.lqDepth ∧ (s.queue 1).length < Config.lqDepth ∧ s.givenEntry = none ∧
     reaching s 6 0 0 64 needLoad (fun ps t => (t.piecesFault q0 0x2000 ps).isNone) = true) := by
  decide

theorem wit_StoreWords :
    reaching sample 6 0 0 8 needStore (fun ps _ => ps == [(0x2000, 8)]) = true ∧
    ((sample.reg 6).permSC = true ∧ (sample.reg 6).space ≠ 3 ∧ (sample.reg 6).space ≠ 4 ∧ (sample.reg 6).tag = true ∧
      sample.skipEffect = none ∧ (effective (sample.reg 6) 0 0 16 sample).toNat % 16 = 0) ∧
    reaching sample 6 0 0 16 needStore (fun ps _ => ps == [(0x2000, 16)]) = true ∧
    framed.queue 2 = ⟨5, none, true⟩ :: [⟨7, none, true⟩] ∧ framed.queue 3 = ⟨9, none, true⟩ :: [] ∧
    reaching framed 6 2 0 16 needStore (fun ps _ => ps == [(0x2000, 16)]) = true := by
  decide

/-- Requests of the sample's thread to its own cluster are served, with any state. -/
theorem serves_own (s : State) (x : Nat) (h : x < 2 ^ 24) : s.serves q0 x = true := by
  have hr : regionOf x = 0 := by unfold regionOf regionSize; omega
  have hc : clusterOfLocal x = 0 := by unfold clusterOfLocal; omega
  simp [State.serves, State.portAdmits, Req.leaves, sealedRegion, hr, hc, q0]

theorem takes_own (s : State) (x : Nat) (h : x < 2 ^ 24) (hc : s.isCounterLine x = false) : takesStore s q0 x := by
  have hr : regionOf x = 0 := by unfold regionOf regionSize; omega
  refine ⟨hc, fun h2 => ?_, serves_own s x h, fun hs => ?_⟩
  · omega
  · unfold sealedRegion at hs
    rw [hr] at hs
    exact absurd hs (by decide)

theorem wit_StoreWords_home : piecesApart [(0x2000, 8)] ∧ (∀ x, inPieces [(0x2000, 8)] x → takesStore sample q0 x) := by
  refine ⟨by unfold piecesApart; decide, ?_⟩
  rintro x ⟨p, hp, h1, h2⟩
  rw [List.mem_singleton] at hp
  subst hp
  have h8 : x < 0x2008 := h2
  exact takes_own _ _ (by omega) rfl

/-- A page that nothing has touched: its size and its entry's place. -/
def touched (l : Leaf) : Option (Nat × Nat) := match l with
  | .touch lv _ entry _ _ _ => some (pageBytes lv, entry)
  | _ => none

/-- An untagged base, a sealed one, a reduction that SC and GATE do not matter for, a page that nothing has touched, a full queue and
an empty one. -/
theorem wit_RefusedAccessTraps :
    (sample.givenEntry = none ∧
      trapIs (sample.checkCap sample.who (sample.reg 9) (effective (sample.reg 9) 0 0 8 sample) 8 needLoad 9) 0x03 9 = true) ∧
    ((sample.reg 5).tag = false ∧
      trapIs (sample.checkCap sample.who (sample.reg 8) (effective (sample.reg 8) 0 0 8 sample) 8 needStore 8) 0x05 8 = true) ∧
    trapIs (sample.checkCap sample.who (sample.reg 9) (sample.reg 9).cursor 8 needMred 9) 0x03 9 = true ∧
    (let s := with11 (deviceAt 0x20000)
     (s.reg 11).space = 2 ∧ okIs (s.checkCap s.who (s.reg 11) (effective (s.reg 11) 0 0 8 s) 8 needLoad 11) (fun _ => true) = true ∧
     touched (s.walk s.who (addrOf 2 (effective (s.reg 11) 0 0 8 s))) = some (0x10000, 0x40010) ∧
     (State.fillTouch s.who 0x20000 1 0 0x40010 true true true s).isSome = true) ∧
    ((framed.queue 0).length = Config.lqDepth ∧ sample.queue 2 = [] ∧ sample.queue 3 = []) := by
  decide

/-- For every reduction at once: the checks pass, the home takes it, the stamp is fresh; all widths; `wf` of each word. -/
theorem wit_MemoryReductions :
    okIs (filled.checkCap filled.who (filled.reg 6) (filled.reg 6).cursor 8 needMred 6) (fun _ => true) = true ∧
    (filled.reg 6).cursor.toNat % 8 = 0 ∧
    okIs (filled.translateAt filled.who (filled.reg 6).space (filled.reg 6).addr needMred)
      (fun x => x.1 == 0x2000 && (homeRefusal q0 x.1 8 x.2).isNone) = true ∧
    (filled.givenEntry = none ∧ filled.sheafFind 1 0 1 filled.curPart.stepNo filled.thr.ctx.stamped = none) ∧
    ([Instr.mredAdd 0 0 4 6 5, .mredAnd 0 3 4 6 5, .mredOr 0 3 4 6 0, .mredXor 0 1 4 6 5, .mredMin 0 2 4 6 5, .mredMax 15 3 4 6 5,
      .mredMinUn 0 3 4 6 5, .mredMaxUn 0 3 4 6 5, .mredAddFloat 0 2 4 6 5, .mredMinFloat 0 1 4 6 5, .mredMaxFloat 0 2 4 6 5].all Instr.wf) = true := by
  decide

theorem wit_ReductionValues : (0 : BitVec 3).toNat ≤ 3 ∧ (3 : BitVec 3).toNat ≤ 3 ∧ 2 ^ 64 - 1 < 2 ^ (8 * accessSize 3) ∧
    255 < 2 ^ (8 * accessSize 0) := by
  decide

/-- The size of the page at the end of a walk. -/
def leafSize (l : Leaf) : Option Nat := match l with
  | .page _ size _ _ _ _ _ => some size
  | _ => none

/-- Page 1 is covered; an absent page of an existing table; an empty stack; a table that is not there; pages of the asked and of
another size; no page, a page that nothing has touched, a malformed entry; a page of another domain of the world. -/
theorem wit_PageWords :
    ([(0x10000 : Word64), 0x30000, 0x4000000].all fun v => let s := with11 (deviceAt v)
      okIs (s.checkCap s.who (s.reg 11) (s.reg 11).cursor 0x10000 needPage 11) (fun _ => true) && v.toNat % 0x10000 == 0 &&
      s.skipEffect.isNone && s.givenEntry.isNone && (s.sheafFind 1 0 1 s.curPart.stepNo s.thr.ctx.stamped).isNone) = true ∧
    pageBytes (levelOf 0) = 0x10000 ∧ sample.curDomain.ptroot = 0x10000 ∧
    coveredAt world1 0x10000 1 4 0x10000 = true ∧ coveredAt world1 0x30000 1 4 0x10000 = false ∧
    (sample.popFrame 1 1).isSome = true ∧ leafEntry world1 0x30000 1 4 0x10000 = some 0x40018 ∧
    leafEntry world1 0x4000000 1 4 0x10000 = none ∧
    (let s := { sample with worlds := [(1, { world1 with free64k := [] })] }
     (s.popFrame 1 1).isNone = true ∧ coveredAt (s.world 1) 0x30000 1 4 0x10000 = false) ∧
    leafSize (sample.walk sample.who 0x10000) = some 0x10000 ∧ pageBytes (levelOf 1) ≠ 0x10000 ∧
    sample.walk sample.who 0x30000 = .absent ∧ touched (sample.walk sample.who 0x20000) = some (0x10000, 0x40010) ∧
    sample.walk sample.who 0x60000 = .bad ∧
    (let s := { sample with worlds := [(1, { world1 with
        ptes := tables ++ [(0x70000, pteBits 0 0x80000 false false false 1), (0x80000, pteBits 0 0x90000 false false false 1),
          (0x90000, pteBits 0 0xA0000 false false false 1), (0xA0018, pteBits 5 0x300000 true true true 2)]
        domains := world1.domains ++ [(5, { Domain.free with state := .live, ptroot := 0x70000 })] })] }
     coveredAt (s.world 1) 0x30000 1 4 0x10000 = false ∧ (s.worldFrame 1 0x30000 1).isSome = true) := by
  decide

/-! ## Witnesses: counters -/

/-- Two members of one sward tree. Counter lines at 0x6040 (value 3), in a7's page of DEVICE (0), and at 0x8000 (2^64 - 1). a11
names 0x8000 and a12 a line that is none. k2 is at 2^64 - 1. -/
def counting : State :=
  let m : Thread := { thread0 [] with tid := 2, cref := 2, ctx := { ctx0 [] with
    swmask := (Ctx.empty.swmask.set 4 ⟨1, true, false⟩).set 6 ⟨1, true, false⟩, swcount := Ctx.empty.swcount.set 4 2 } }
  let s := base [(4, Cap.ofInt 5), (5, Cap.ofInt (-3)), (6, localAt 0x6040), (7, deviceAt 0x10040), (11, localAt 0x8000),
    (12, localAt 0x2000)]
  { withCtx s fun c => { c with
      kctr := c.kctr.set 2 (-1), swcount := c.swcount.set 4 3
      swmask := ((c.swmask.set 4 ⟨1, true, false⟩).set 5 ⟨2, true, true⟩).set 6 ⟨1, false, false⟩ } with
    mem := (0x6040, 3) :: (List.range 8).map (fun k => (0x8000 + k, 255)), tags := [0x200]
    ctrLines := [0x6040 / 64, 0x8000 / 64], rest := [m] }

/-- A sum that fits, and the first that does not. -/
theorem wit_LocalCounterAdd : (4 : RegNum).toNat < 16 ∧ (15 : RegNum).toNat < 16 ∧
    (counting.thr.ctx.kctr[2]).toNat + (counting.int 0).toNat + counting.pendingMatrix 1 2 = 2 ^ 64 - 1 ∧
    2 ^ 64 ≤ (counting.thr.ctx.kctr[2]).toNat + (counting.int 4).toNat + counting.pendingMatrix 1 2 := by
  decide

theorem counting_plain : plainRun counting ∧ freshStamp counting := by
  unfold plainRun freshStamp; decide

/-- The counter that a word names. -/
def refIs (k : BitVec 2) (a : RegNum) (need : Need) (s : State) (p : CtrRef → State → Bool) : Bool :=
  okIs (counterRef k a need s) fun x => p x.1 x.2

theorem wit_MemoryCounterAdd :
    refIs 1 6 needCounter counting (fun r t => r == .mem 0x6040 && (ctrRefusal q0 0x6040 t).isNone &&
      decide (t.readNat 0x6040 8 + (counting.int 4).toNat < 2 ^ 64)) = true ∧
    refIs 1 11 needCounter counting (fun r t => r == .mem 0x8000 && (ctrRefusal q0 0x8000 t).isNone &&
      decide (t.readNat 0x8000 8 + (counting.int 0).toNat < 2 ^ 64) && decide (2 ^ 64 ≤ t.readNat 0x8000 8 + (counting.int 4).toNat)) = true := by
  decide

/-- A member that adds, arrives and drops; one that is no member but has a span; and one of span 0. -/
theorem wit_SwardArrivals :
    ((ownMask 4 counting).member = true ∧ (ownCount 4 counting).toNat + (counting.int 4).toNat < 2 ^ 64 ∧
      (ownCount 4 counting).toNat + 1 < 2 ^ 64) ∧
    ((ownMask 6 counting).member = false ∧ (ownMask 6 counting).span ≠ 0 ∧
      (swValue counting (swKey counting.thr 6)).toNat + 1 < 2 ^ 64) ∧
    ((ownMask 15 counting).member = false ∧ (ownMask 15 counting).span = 0) := by
  decide

/-- Local, memory and sward counters; a threshold met exactly, and one above the value; a limit of 0 and one that is not. -/
theorem wit_CounterReadsAndWaits : counting.givenEntry = none ∧
    refIs 0 3 needCounter counting (fun r t => (ctrFault r q0 t).isNone &&
      decide ((counting.int 0).toNat ≤ (ctrValue r t.thr t).toNat) && decide ((ctrValue r t.thr t).toNat < (counting.int 4).toNat)) = true ∧
    refIs 1 6 needCounter counting (fun r t => (ctrFault r q0 t).isNone && (ctrValue r t.thr t) == 3 &&
      decide ((ctrValue r t.thr t).toNat < (counting.int 4).toNat)) = true ∧
    refIs 2 4 needCounter counting (fun r t => (ctrFault r q0 t).isNone &&
      decide ((ctrValue r t.thr t).toNat < (counting.int 4).toNat)) = true ∧
    counting.int 0 = 0 ∧ counting.int 4 ≠ 0 := by
  decide

theorem wit_CounterInit :
    refIs 1 12 needInit counting (fun r t => r == .mem 0x2000 && t.serves q0 0x2000) = true ∧
    refIs 1 6 needInit counting (fun r t => r == .mem 0x6040 && t.serves q0 0x6040) = true ∧
    (counting.isPoisoned 0x2000 = false ∧ counting.isCounterLine 0x2000 = false) ∧
    (counting.isPoisoned 0x6040 = false ∧ counting.isCounterLine 0x6040 = true) ∧
    0x2000 % 64 = 0 ∧ 0x6040 % 64 = 0 := by
  decide

theorem wit_CounterInit_home : ∀ x, 0x2000 ≤ x → x < 0x2000 + 64 → counting.isCounterLine 0x2000 = false → takesStore counting q0 x := by
  intro x h0 h1 _
  refine takes_own _ _ (by omega) ?_
  have hl : x / 64 = 0x80 := by omega
  unfold State.isCounterLine
  rw [hl]
  decide

/-! ## Witnesses: the execute half -/

/-- Views that end with the frame, two entries in lq0, one in lq1, one free place in sq0. -/
def vectors : State := withCtx sample fun c => { c with
  win := [(0, 1), (1, 2), (64, 0x43), (70, 9)], lq0 := [⟨0x1234FFFF, none, true⟩, ⟨7, none, true⟩], lq1 := [⟨3, none, true⟩]
  sq0 := List.replicate (Config.sqDepth - 1) ⟨1, none, true⟩, fs := 1024 }

theorem ready_two : VecReady [3, 15] 2 vectors :=
  ⟨by decide, by decide, by decide, by decide, by decide, by decide, by decide⟩

/-- Both sources pop lq0, and the result takes the last place of sq0. -/
theorem ready_queues : VecReady [28, 28] 30 vectors :=
  ⟨by decide, by decide, by decide, by decide, by decide, by decide, by decide⟩

theorem ready_one : VecReady [29] 2 vectors := ⟨by decide, by decide, by decide, by decide, by decide, by decide, by decide⟩

theorem ready_dest : VecReady [2, 3, 29] 2 vectors ∧ VecReady [2] 2 vectors ∧ VecReady [] 2 vectors ∧ readDstOk 2 = true :=
  ⟨⟨by decide, by decide, by decide, by decide, by decide, by decide, by decide⟩,
    ⟨by decide, by decide, by decide, by decide, by decide, by decide, by decide⟩,
    ⟨by decide, by decide, by decide, by decide, by decide, by decide, by decide⟩, by decide⟩

/-- The last register of the frame ends where the frame ends. -/
theorem last_view : viewOff 15 vectors + 64 = vectors.thr.ctx.fs := by decide

theorem wit_VectorIntegerWords : ElemTy.i8.isInt = true ∧ ElemTy.i64.isInt = true ∧ VecReady [3, 15] 2 vectors ∧
    VecReady [28, 28] 30 vectors ∧ VecReady [2, 3, 29] 2 vectors ∧ VecReady [29] 2 vectors ∧ readDstOk 2 = true :=
  ⟨rfl, rfl, ready_two, ready_queues, ready_dest.1, ready_one, ready_dest.2.2.2⟩

theorem wit_FloatWords : ElemTy.f32.isFloat = true ∧ ElemTy.bf16.isFloat = true ∧ VecReady [28, 28] 30 vectors ∧
    VecReady [3, 15, 28] 2 vectors ∧ VecReady [29] 2 vectors :=
  ⟨rfl, rfl, ready_queues, ⟨by decide, by decide, by decide, by decide, by decide, by decide, by decide⟩, ready_one⟩

/-- NaNs, infinities, zeros and a least negative value, of both formats. -/
theorem wit_FloatSpecialValues : (decodeNum .f32 0x7F800001).isSNan = true ∧ (decodeNum .bf16 0x7FC0).isNan = true ∧
    decodeNum .f32 0x7F800000 = .inf false ∧ decodeNum .f32 0xFF800000 = .inf (!false) ∧ decodeNum .bf16 0xFF80 = .inf true ∧
    (∃ k, decodeNum .f32 0x80000000 = .fin true 0 k) ∧ (∃ k, decodeNum .bf16 0 = .fin false 0 k) ∧
    (∃ k, decodeNum .f32 1 = .fin false (0 + 1) k) ∧ (∃ k, decodeNum .f32 0x80000001 = .fin true (0 + 1) k) :=
  ⟨rfl, rfl, rfl, rfl, rfl, ⟨_, rfl⟩, ⟨_, rfl⟩, ⟨_, rfl⟩, ⟨_, rfl⟩⟩

/-- The greatest code of a tapered format is a number; of f32 the one below infinity. -/
theorem wit_RoundingKeepsCodes : (0x7F7FFFFF < 2 ^ fmtBits .f32 ∧ (decodeNum .f32 0x7F7FFFFF).isNan = false) ∧
    (0xF < 2 ^ fmtBits .e2m1 ∧ (decodeNum .e2m1 0xF).isNan = false) ∧ (0x7F < 2 ^ fmtBits .t8 ∧ (decodeNum .t8 0x7F).isNan = false) ∧
    (∀ n, decodeNum .e2m1 0xF ≠ .inf n) ∧ (∀ n, decodeNum .f32 0x7F7FFFFF ≠ .inf n) := by
  decide

theorem wit_CompareWords : VecReady [3, 15] 2 vectors ∧ VecReady [28, 28] 30 vectors ∧ ElemTy.i32.isInt = true ∧
    ElemTy.bf16.isFloat = true :=
  ⟨ready_two, ready_queues, rfl, rfl⟩

theorem wit_ElementMoves : VecReady [2, 3, 29] 2 vectors ∧ readDstOk 2 = true ∧ VecReady [28, 28] 30 vectors ∧
    VecReady [29] 2 vectors ∧ (15 : RegNum).toNat < ElemTy.f32.count ∧ (7 : RegNum).toNat < ElemTy.i64.count :=
  ⟨ready_dest.1, ready_dest.2.2.2, ready_queues, ready_one, by decide, by decide⟩

theorem wit_ConversionWords : VecReady [29] 2 vectors ∧ ElemTy.bf16.isFloat = true ∧ Fmt.e2m1.isFloat = true ∧
    ElemTy.i64.isInt = true ∧ VecReady [28, 28] 30 vectors :=
  ⟨ready_one, rfl, rfl, rfl, ready_queues⟩

theorem wit_LaneReductions : VecReady [29] 2 vectors ∧ ElemTy.i64.isInt = true ∧ ElemTy.bf16.isFloat = true := ⟨ready_one, rfl, rfl⟩

theorem wit_MovesAndImmediates : VecReady [29] 2 vectors ∧ VecReady [] 2 vectors ∧ VecReady [2] 2 vectors ∧ readDstOk 2 = true :=
  ⟨ready_one, ready_dest.2.2.1, ready_dest.2.1, ready_dest.2.2.2⟩

/-- The last element of the last register, and queue sources that have an entry. -/
theorem wit_ViewsFlagsElements : ((Instr.xins .i64 7 4 15).wf = true ∧ viewOff 15 vectors + 64 ≤ vectors.thr.ctx.fs) ∧
    (Instr.xext .i64 7 15 4).wf = true ∧ (Instr.xext .i32 15 28 4).wf = true ∧ (Instr.xext .bf16 31 29 4).wf = true ∧
    vectors.thr.ctx.lq0 ≠ [] ∧ vectors.thr.ctx.lq1 ≠ [] := by
  decide

/-! ## Witnesses: the matrix unit -/

def shapeWord (fc rows cols : Nat) : BitVec 19 := BitVec.ofNat 19 (fc + (rows - 1) * 16 + (cols - 1) * 2048)

/-- A SLOT capability of kind 1 or 2 of a cluster. -/
def unitCap (kind cl : Nat) : Cap := slotSpaceCap (if kind = 1 then 0x043 else 0x040) 0 (BitVec.ofNat 64 (kind * 2 ^ 60 + cl * 2 ^ 24))

def usedSlot : MSlot := { MSlot.free with sinc := 5, used := true, world := 1, core := some 0, elems := [(0, 3)] }

/-- Slot 3 of the unit is the thread's own (a4); a7 names its next incarnation, a8 the unit, a5 and a6 memory operands. Tiles 0 to 2
are 2 × 2 of e2m1 and bf16, tile 7 is 2 × 2 of f32; tiles 3 to 6 are scaled operands and their scales. -/
def tiled (fw : Word64) (slots : NMap MSlot) : State :=
  let s := base [(4, slotCap 0 3 5 0), (5, localAt 0x2000), (6, localAt 0x2040), (7, slotCap 0 3 4 0), (8, unitCap 2 0),
    (9, localAt 0x2003), (10, localAt 0x2007)]
  { withCtx s fun c => { c with
      fmtWord := fw, tstride := 1
      tshape := #v[shapeWord 4 2 2, shapeWord 4 2 2, shapeWord 1 2 2, shapeWord 4 2 8, shapeWord 4 2 8, shapeWord 2 2 1,
        shapeWord 2 2 1, shapeWord 0 2 2] } with
    clusters := [(0, { cluster0 with mat := ⟨slots, [], 0⟩ })] }

def plainTiles : State := tiled 0x644 [(3, usedSlot)]
def scaledTiles : State := tiled (0x44 + 5 * 2 ^ 12 + 6 * 2 ^ 16) [(3, usedSlot)]
/-- Every slot of the unit is taken. -/
def noSlot : State := tiled 0x644 ((List.range 64).map fun k => (k, usedSlot))

/-- The core's entries of the unit, or the remote ones, are full. -/
def unitFull (core : Option Nat) (n : Nat) : State :=
  let m (k : Nat) : MCmd := {
    id := k, pc := 0, queued := false, kind := .zero, tid := 7, core := core, world := 1, domain := 0, part := 0, cref := 7, slot := some 3, sinc := usedSlot.sinc
    shape := ⟨2, 2, 2, .e2m1, .e2m1, 8, none⟩, aBytes := [], bBytes := [], saBytes := [], sbBytes := [], aAddr := none, bAddr := none
    kctr := 0, tile := 0, tileOff := 0, rows := 0, cols := 0, blkIdx := 0, outFmt := .bf16, ts := 0, started := false }
  { plainTiles with clusters := [(0, { cluster0 with mat := ⟨[(3, usedSlot)], (List.range n).map m, 0⟩ })] }

theorem units_full : entryFree 0 (some 0) (unitFull (some 0) 8) = false ∧ addsFit 3 (unitFull (some 0) 8) ∧
    entryFree 0 none (unitFull none 16) = false ∧ addsFit 3 (unitFull none 16) := by
  unfold addsFit; decide

theorem tiles_free : entryFree 0 (some 0) plainTiles ∧ addsFit 3 plainTiles ∧ entryFree 0 none plainTiles ∧
    entryFree 0 (some 0) noSlot ∧ addsFit 3 noSlot ∧ entryFree 0 none noSlot ∧ plainRun noSlot := by
  unfold entryFree addsFit plainRun; decide

/-- The shape of a command on the own cluster's unit. -/
def shapeIs (x y : Nat) (s : State) (p : MShape → Bool) : Bool := okIs (commandShape (broadUnit 0) x y s) p

theorem wit_MatrixWords :
    shapeIs 0 1 plainTiles (fun sh => sh.scale.isNone && (commandTiles sh 0 1 plainTiles).all fun t =>
      decide (tileOff t plainTiles + tileSize (tileShape t plainTiles) ≤ plainTiles.thr.ctx.fs)) = true ∧
    shapeIs 3 4 scaledTiles (fun sh => sh.scale.isSome && (commandTiles sh 3 4 scaledTiles).all fun t =>
      decide (tileOff t scaledTiles + tileSize (tileShape t scaledTiles) ≤ scaledTiles.thr.ctx.fs)) = true ∧
    (okIs (checkOwnSlot (plainTiles.reg 4) ⟨0, false, true, false⟩ 4 plainTiles) (fun _ => true) = true ∧
      okIs (checkOwnSlot (plainTiles.reg 4) ⟨0, true, false, false⟩ 4 plainTiles) (fun _ => true) = true ∧
      okIs (checkSinc (plainTiles.reg 4) plainTiles) (fun _ => true) = true) ∧
    allocSlot 0 (some 0) plainTiles = some 0 ∧ allocSlot 0 (some 0) noSlot = none ∧ noSlot.rest = [] ∧
    ((unitFull (some 0) 8).thr.paired = false ∧ shapeIs 0 1 (unitFull (some 0) 8) (fun sh => (commandTiles sh 0 1 (unitFull (some 0) 8)).all
      fun t => decide (tileOff t plainTiles + tileSize (tileShape t plainTiles) ≤ plainTiles.thr.ctx.fs)) = true) ∧
    (shapeValid (tileShape 7 plainTiles) = some .f32 ∧ shapeRows (tileShape 7 plainTiles) = 2 ∧ (63 + 1) * 2 = slotSide 0 ∧
      shapeCols (tileShape 7 plainTiles) ≤ slotSide 0 ∧ tileOff 7 plainTiles + tileSize (tileShape 7 plainTiles) ≤ plainTiles.thr.ctx.fs) := by
  decide

theorem wit_RemoteMatrixWords : plainTiles.thr.paired = false ∧ curCluster (plainTiles.reg 4).cursor = 0 ∧
    shapeIs 0 1 plainTiles (fun sh =>
      okIs (remoteOperand sh 0 (fwAsct 0x644) (nextReg 4 1) 0 plainTiles) (fun p => p == 0x2000) &&
      okIs (remoteOperand sh 1 (fwBsct 0x644) (nextReg 4 2) 0 plainTiles) (fun p => p == 0x2040) &&
      okIs (remoteOperand sh 0 (fwAsct 0x644) (nextReg 8 1) 0 plainTiles) (fun p => p == 0x2003) &&
      okIs (remoteOperand sh 1 (fwBsct 0x644) (nextReg 8 2) 0 plainTiles) (fun p => p == 0x2007)) = true ∧
    (okIs (checkSlotCap (plainTiles.reg 4) ⟨0, false, true, true⟩ 4 plainTiles) (fun _ => true) = true ∧
      okIs (checkSinc (plainTiles.reg 4) plainTiles) (fun _ => true) = true) ∧
    okIs (checkSlotCap (plainTiles.reg 8) ⟨2, false, false, true⟩ 8 plainTiles) (fun _ => true) = true ∧
    (allocSlot 0 none plainTiles).isSome = true ∧ (allocSlot 0 none noSlot).isNone = true ∧
    (let s := unitFull none 16
     okIs (checkSlotCap (s.reg 8) ⟨2, false, false, true⟩ 8 s) (fun _ => true) = true ∧ s.thr.paired = false ∧
     shapeIs 0 1 s (fun sh => okIs (remoteOperand sh 0 (fwAsct 0x644) (nextReg 8 1) 0 s) (fun _ => true) &&
       okIs (remoteOperand sh 1 (fwBsct 0x644) (nextReg 8 2) 0 s) (fun _ => true)) = true) := by
  decide

/-! ## Witnesses: copy engines, scheduling words -/

/-- The bytes of a card (R150): the capabilities, the first extent and seven of 1, strides of 0, CTL, the footprints. -/
def cardBytes (src dst : Cap) (e0 ctl rl wl : Nat) : List Byte :=
  toLe 16 src.bits.toNat ++ toLe 16 dst.bits.toNat ++ (toLe 2 e0 ++ (List.replicate 7 (toLe 2 1)).flatten) ++ toLe 64 0 ++ toLe 8 ctl
    ++ toLe 8 0 ++ toLe 16 0 ++ toLe 8 src.cursor.toNat ++ toLe 8 rl ++ toLe 8 dst.cursor.toNat ++ toLe 8 wl ++ toLe 16 0

def card1 : List Byte := cardBytes (deviceAt 0x10100) (localAt 0x7000) 64 1023 64 64

/-- A template of R290: entry 0x1400, priority 5, allotment 300. -/
def template : List Byte := toLe 8 0x1400 ++ toLe 8 (5 * 256) ++ toLe 16 0 ++ toLe 6 300 ++ toLe 26 0

def job1 (st : JobState) : Job :=
  { state := st, card := card1, srcTag := true, dstTag := true, ccapTag := false, landed := [], ascendTo := 0, owed := false, fault := 0, faultAddr := 0
    faultKind := 0, bmap := 5, order := 0, cardAddr := 0x2000, tid := 1, cref := 1, world := 1, domain := 0, gen := 0, part := 0
    stepNo := 0, sseq := 0, deps := [], readFoot := [⟨2 ^ 65 + 0x10100, 64⟩], writeFoot := [⟨2 ^ 64 + 0x7000, 64⟩] }

/-- A card at a6, a template at a7, the engine in a5. -/
def copying : State :=
  let s := base [(4, Cap.ofInt 5), (5, unitCap 1 0), (6, localAt 0x2000), (7, localAt 0x3000), (9, Cap.ofInt 0x3000)]
  { s with mem := Cells.write (Cells.write [] 0x2000 card1) 0x3000 template, tags := [0x200, 0x201] }

/-- A job that the engine holds. -/
def withJob (st : JobState) (stop stopped : Bool) (s : State) : State :=
  { s with clusters := [(0, { cluster0 with engine := ⟨[(0, job1 st)], stop, stopped, 2⟩ })] }

theorem wit_CopyWords :
    ((copying.reg 6).space ≠ 6 ∧ copying.thr.paired = false ∧ freeEntry (engineOf 0 copying) = some 0 ∧
      (engineOf 0 copying).stop = false ∧ 0 < freeEntries (engineOf 0 copying) ∧ copying.rest = []) ∧
    okIs (copying.readBlock (copying.reg 6) 192 needRead12 6) (fun x =>
      okIs (checkCard (x.1.take 176) (copying.reg 6).cursor (x.2.2.tagAt (State.placeIn x.2.1 0)) (x.2.2.tagAt (State.placeIn x.2.1 16))
          (x.2.2.tagAt (State.placeIn x.2.1 128)) x.2.2)
        fun _ => true) = true ∧
    ((copying.reg 5).tag = true ∧ (copying.reg 5).space = 6 ∧
      okIs (checkSlotCap (copying.reg 5) ⟨1, false, false, true⟩ 5 copying) (fun _ => true) = true ∧
      okIs (checkSlotCap (copying.reg 5) ⟨1, true, false, false⟩ 5 copying) (fun _ => true) = true) ∧
    okIs (copying.access copying.who (copying.reg 6) (copying.reg 6).cursor 1 needRead12 6) (fun _ => true) = true ∧
    latestJob (engineOf 0 copying) (copying.reg 6).cursor = none ∧
    (latestJob (engineOf 0 (withJob .queued false false copying)) (copying.reg 6).cursor).isSome = true := by
  decide

theorem wit_SpawnWord : copying.givenEntry = none ∧
    okIs (copying.readBlock (copying.reg 7) 64 needLoad 7) (fun x =>
      okIs (checkTemplate (copying.reg 7).cursor (BitVec.ofNat 64 (cardNat x.1 0 8)) (cardNat x.1 8 8) x.2.2) (fun _ => true) &&
      !(cardNat x.1 8 8).testBit 17 && !(childRef x.2.2).2 && decide (contCount 1 x.2.2 < (x.2.2.world 1).contLimit)) = true ∧
    copying.rest = [] := by
  decide

theorem copying_mayCreate : mayCreate copying := by
  refine .inr ⟨by decide, ?_⟩
  intro h hh hne
  exact absurd (congrArg Thread.tid (List.mem_singleton.mp hh)) hne

/-- Another thread of the cluster, READY, of the same level. -/
def rival (level : Nat) : Thread := { thread0 [] with tid := 2, cref := 2, status := .ready, place := none, prio := level, effLevel := level }

/-- A trap taken by the sample: gate depth 1. -/
def trapped : State := sample.enterTrap 0 (plainFault 0x10 0x1234)

/-- A thread with stream entries, a group to leave and a launch. -/
def exiting : State :=
  { withCtx sample fun c => { c with
      swmask := (c.swmask.set 4 ⟨1, true, false⟩).set 5 ⟨1, true, true⟩, stream := [⟨0, 0, 0, 0, 0, false, false, 0, 0, 0, [(0, 1)], [(0, 0)], 1⟩] } with
    launches := [⟨3, 0, 1, 0, [], true, 1, 1, 0, 0, false, 0, 0, 0, 0, none, false⟩] }

theorem wit_ExitAndYield :
    (exiting.unbalanced = none ∧ exiting.depth = 0 ∧ exiting.thr.paired = false ∧
      okIs (dropAll (exiting.drain.modCtx fun c => { c with pend := [] }) (List.range 16)) (fun u => !u.curPart.keeps) = true) ∧
    (withCtx sample fun c => { c with lq1 := [⟨0, none, true⟩] }).unbalanced.isSome = true ∧
    (trapped.unbalanced = none ∧ trapped.depth ≠ 0) ∧
    sample.rest = [] ∧
    (let s := { sample with rest := [rival 3] }
     ∃ h ∈ s.threads, h.cluster = s.thr.cluster ∧ takeable h s = true ∧ mayRunOn h s.thr.cluster s = true ∧ s.thr.prio ≤ h.effLevel) ∧
    (let s := { sample with rest := [rival 2] }
     ¬ ∃ h ∈ s.threads, h.cluster = s.thr.cluster ∧ takeable h s = true ∧ mayRunOn h s.thr.cluster s = true ∧ s.thr.prio ≤ h.effLevel) := by
  decide

/-- A core whose groups a `dbgstop` stops; a partition with DBGEN, and one without. -/
def debugged : State := { sample with
  parts := [(0, { part0 with dbgen := true })], clusters := [(0, { cluster0 with cores := [(0, ⟨8, 5, 0, false, 0, 0⟩), (3, ⟨8, 4, 0, false, 0, 0⟩)] })] }

theorem wit_ThreadWords : sample.givenEntry = none ∧ debugged.curPart.dbgen = true ∧
    (coreRec debugged.thr.cluster (coreOf debugged.thr) debugged).groups = 5 ∧ sample.curPart.dbgen = false ∧
    (let s := { sample with parts := [(0, { part0 with dbgen := true })] }
     s.curPart.dbgen = true ∧ (coreRec s.thr.cluster (coreOf s.thr) s).groups = 0) ∧
    NMap.get? (debugged.cluster 0).cores 3 = some ⟨8, 4, 0, false, 0, 0⟩ ∧ (4 : BitVec 8) &&& 5 ≠ 0 := by
  decide

/-- A ring with room, a ring that is full, a stamp already served. -/
theorem wit_SystemCallAndStep :
    (sample.thr.stall = none ∧ sample.givenEntry = none ∧ sample.sheafFind 1 0 1 0 0 = none ∧ ringTwin 0 sample = none ∧
      twinWaits 4 sample = none ∧ sample.curPart.stepNo = 0 ∧ sample.thr.ctx.stamped = 0) ∧
    ((sample.world 1).ringTail < (sample.world 1).ringFree + Config.ringSize) ∧
    (let s := { sample with worlds := [(1, { world1 with ringTail := Config.ringSize, ringFree := 0 })] }
     ¬ (s.world 1).ringTail < (s.world 1).ringFree + Config.ringSize) ∧
    (let e : SheafEntry := ⟨1, 0, 1, 0, 0, 0x37, 0, 5, 99, 0, false, []⟩
     let s := { sample with sheaf := [e] }
     s.sheafFind 1 0 1 0 0 = some e ∧ e.maj = 0x37 ∧ e.func = 0 ∧ e.operand = s.int 4) ∧
    (sample.unbalanced = none ∧ sample.depth = 0) := by
  decide

/-! ## Witnesses: gates, traps, system words -/

/-- a4 names gate 0 of the own world, a5 a far gate of world 2; domain 0 has gate 0 as its trap gate. -/
def gated : State :=
  let s := base [(4, gateCap 1 0 0 0 false), (5, gateCap 2 3 1 0 false), (6, localAt 0x2000), (7, (localAt 0x3000).setPerm 0x07F),
    (8, localAt 0), (9, Cap.ofInt 8)]
  let desc := toLe 16 (localAt 0x4000).bits.toNat ++ toLe 16 (localAt 0).bits.toNat ++ toLe 16 0 ++ toLe 6 77 ++ toLe 2 4 ++ toLe 1 1 ++ toLe 7 0
  { withCtx s fun c => { c with win := [(2047, 8)], stream := [⟨0, 0, 0, 0, 0, false, false, 0, 0, 0, [(0, 1)], [(0, 0)], 1⟩], ir := 0x1234 } with
    mem := Cells.write [] 0x2000 desc, tags := [0x200, 0x201], now := 50
    worlds := [(1, { world1 with
        domains := [(0, { Domain.free with state := .live, ptroot := 0x10000, root := localAt 0, trapGate := some 0 })] }),
      (2, { World.empty with
        gates := [(1, { liveGate with domain := 3, far := true, code := deviceAt 0x10000 })]
        domains := [(3, { Domain.free with state := .live })] })] }

/-- The state after a word that completes. -/
def after (i : Instr) (s : State) : State := match exec i s with
  | .next t => t
  | .fault _ => s
  | .refused _ => s

/-- Inside gate 0. -/
def called : State := after (.gcall 4) gated

theorem wit_GateCallAndReturn : ¬ (gated.thr.ctx.checker.inBlock = true ∧ 1 < gated.thr.ctx.checker.left) ∧
    okIs (checkGcall 4 gated.landAll) (fun x => x.1 == gated.thr.world && x.2.1 == 0) = true ∧
    okIs (checkGcall 5 gated.landAll) (fun x => x.1 == 2 && x.2.1 == 1 && x.1 != gated.thr.world) = true ∧
    (called.unbalanced = none ∧ (called.landAll.thr.ctx.dstack.map fun e => (e.trap, e.far, domDead 1 e.cdom e.cgen called)) = [(false, false, false)]) ∧
    (trapped.unbalanced = none ∧ (trapped.landAll.thr.ctx.dstack.map fun e => e.trap) = [true]) ∧
    gated.landAll.thr.ctx.dstack = [] := by
  decide

/-- A descriptor at a6; a gate of a generation at its end; every gate taken; the root of the domain in a8. -/
theorem wit_GateWords :
    okIs (gated.readBlock (gated.reg 6) 64 needDescriptor 6) (fun x =>
      okIs (x.2.2.access gated.who (x.2.2.capAt (State.placeIn x.2.1 0)) (x.2.2.capAt (State.placeIn x.2.1 0)).cursor 4 needFetch 0x2000)
        (fun _ => okIs (plainCapOk (x.2.2.capAt (State.placeIn x.2.1 16)) x.2.2) fun _ => true) &&
      !(x.2.2.capAt (State.placeIn x.2.1 32)).tag && (descriptorOffence x.1).isNone) = true ∧
    freeGate (gated.world 1) = some 1 ∧
    ((gated.reg 4).tag = true ∧ (gated.reg 4).space = 5 ∧ gateDomain (gated.reg 4).cursor = 0 ∧ gateWorld (gated.reg 4).cursor = 1 ∧
      gateIndex (gated.reg 4).cursor = 0 ∧ ((gated.world 1).gate 0).live = true ∧
      ((gated.world 1).gate 0).gen % 4096 = (gated.reg 4).gen.toNat ∧ gated.thr.stall = none ∧ gated.thr.status ≠ .vacant ∧ gated.rest = []) ∧
    ((gated.reg 8).tag = true ∧ (gated.reg 8).space ≠ 5 ∧ (gated.reg 8).bits = gated.curDomain.root.bits ∧ gated.curDomain.gen < 4095) := by
  decide

/-- Every gate is taken. -/
theorem wit_GateWords_full : freeGate { world1 with gates := (List.range 4096).map fun k => (k, liveGate) } = none := by
  unfold freeGate firstIdx
  rw [List.find?_eq_none]
  intro g hg
  have h : ∀ w : World, w.gates = (List.range 4096).map (fun k => (k, liveGate)) → (w.gate g) = liveGate := by
    intro w hw
    unfold World.gate NMap.getD
    rw [hw, NMap.get?_const, if_pos hg]
    rfl
  rw [h _ rfl]
  decide

/-- Registers that are read-only. -/
theorem wit_SystemRegisters : (sysRegOk 0x020 = true ∧ (0x020 : BitVec 12).toNat = 0x020) ∧
    (sysRegOk 0x040 = true ∧ 0x040 ≤ (0x040 : BitVec 12).toNat) ∧ sysRegOk 0x812 = true := by
  decide

/-- A world with no trap gate; its fault queue full. -/
def queueFull : State := { sample with worlds := [(1, { world1 with faultQ := List.replicate 4096 ⟨0, 0, 0, 0, 0, 0, 0, 0⟩ })] }

theorem wit_TrapEntry :
    (gated.trapGate? = some 0 ∧ State.classE 0x10 = false ∧ State.classE 0x18 = false ∧ gated.faultQueueFull 1 = false ∧
      gated.priWaits (plainFault 0x10 0) = none) ∧
    (sample.trapGate? = none ∧ sample.faultQueueFull 1 = false) ∧
    (State.classE 0x40 = true ∧ sample.isRepeat 0x40 = false) ∧ queueFull.faultQueueFull 1 = true := by
  decide

theorem wit_TrapReturn :
    (trapped.unbalanced = none ∧ trapped.thr.ctx.dstack.map (fun e => e.trap) = [true]) ∧
    (withCtx trapped fun c => { c with lq0 := [⟨0, none, true⟩] }).unbalanced.isSome = true ∧
    (sample.unbalanced = none ∧ sample.thr.ctx.dstack = []) ∧
    (called.unbalanced = none ∧ called.thr.ctx.dstack.map (fun e => e.trap) = [false]) ∧
    (sample.thr.ctx.stream = [] ∧ (plainFault 0x10 0).due = none) := by
  decide

/-- A READY continuation beside the sample. -/
def imaging : State := { sample with rest := [rival 3] }

/-- The target is named by its own reference, whatever its bits. -/
theorem imaging_target : imageTarget (State.refBits (rival 3)) imaging = some (rival 3) := by
  unfold imageTarget
  apply List.find?_cons_of_pos
  rw [beq_self_eq_true]
  decide

theorem wit_ContextImages_store :
    okIs (imaging.checkCap imaging.who (imaging.reg 6) (imaging.reg 6).cursor 65536 needWrite12 6) (fun _ => true) = true ∧
    (imaging.reg 6).cursor.toNat % 64 = 0 ∧
    okIs (State.translatePieces imaging imaging.who 1 needWrite12 (piecesAt (pageStep 1) (imaging.reg 6).addr 65536)) (fun _ => true) = true ∧
    (imaging.reg 6).space = 1 ∧ imaging.thr.stall = none ∧
    targetStill (rival 3) imaging = true ∧ workDone 2 imaging = true ∧ imaging.thr.status ≠ .vacant ∧ imaging.rest = [rival 3] := by
  decide

/-- The header and the bytes of an image of world 1 with ticket 3. -/
def header3 : List Byte := imageHeader 1 0 3 0 0
def image3 : List Byte := imageBytes header3 3

theorem image3_length : image3.length = 65536 := by
  have h : header3.length = 56 := by decide
  unfold image3 imageBytes imageBody
  simp only [List.length_append, List.length_map, List.length_range, toLe_length, h]
  rfl

/-- The image lies at a11; the world has the saved continuation of the ticket, or none. -/
def imaged (saved : NMap Thread) : State :=
  { with11 (localAt 0x10000) with mem := Cells.write [] 0x10000 image3, worlds := [(1, { world1 with images := saved })] }

theorem cardNat_append (h r : List Byte) (off n : Nat) (hl : off + n ≤ h.length) : cardNat (h ++ r) off n = cardNat h off n := by
  unfold cardNat
  rw [List.drop_append_of_le_length (by omega), List.take_append_of_le_length (by rw [List.length_drop]; omega)]

theorem wit_ContextImages_bytes (saved : NMap Thread) : (imaged saved).readPieces [(0x10000, 65536)] = image3 ∧
    imageGenuine 1 image3 = true := by
  constructor
  · have h : Cells.read (Cells.write [] 0x10000 image3) 0x10000 65536 = image3 := by
      have := Cells.read_write [] 0x10000 image3
      rwa [image3_length] at this
    have hm : (imaged saved).mem = Cells.write [] 0x10000 image3 := by simp only [imaged]
    have hp : (imaged saved).readPieces [(0x10000, 65536)] = Cells.read (imaged saved).mem 0x10000 65536 ++ [] := by
      simp only [State.readPieces, State.readMem]
    rw [hp, List.append_nil, hm, h]
  · obtain ⟨r, hr⟩ : ∃ r, image3 = header3 ++ r := ⟨_, by unfold image3 imageBytes; rw [List.append_assoc, List.append_assoc]⟩
    have hl : header3.length = 56 := by decide
    have h : image3.take 56 = header3 := by rw [hr]; exact List.take_left' hl
    have h0 : cardNat image3 8 8 = 3 := by rw [hr, cardNat_append _ _ _ _ (by omega)]; decide
    have h1 : cardNat image3 6 2 = 0 := by rw [hr, cardNat_append _ _ _ _ (by omega)]; decide
    have h2 : cardNat image3 16 1 = 0 := by rw [hr, cardNat_append _ _ _ _ (by omega)]; decide
    have h3 : cardNat image3 24 8 = 0 := by rw [hr, cardNat_append _ _ _ _ (by omega)]; decide
    unfold imageGenuine
    simp only [h, h0, h1, h2, h3]
    rw [show imageBytes header3 3 = image3 from rfl, show imageHeader 1 0 3 0 0 = header3 from rfl]
    simp

theorem wit_ContextImages_load :
    (let s := imaged [(3, rival 3)]
     okIs (s.checkCap s.who (s.reg 11) (s.reg 11).cursor 65536 needRead12 11) (fun _ => true) = true ∧ (s.reg 11).cursor.toNat % 64 = 0 ∧
     okIs (State.translatePieces s s.who 1 needRead12 (piecesAt (pageStep 1) (s.reg 11).addr 65536)) (fun x =>
       x.1 == [(0x10000, 65536)] && (x.2.piecesFault q0 0x10000 x.1).isNone && epochLive (x.2.world 1) 0 &&
       (NMap.get? (x.2.world 1).images 3).isSome && (placeImage 0 (rival 3) x.2).isSome &&
       decide (contCount 1 x.2 < (x.2.world 1).contLimit) && x.2.rest.isEmpty) = true ∧
     (rival 3).baseDomain = s.thr.ctx.domain ∧ (rival 3).paired = false) ∧
    NMap.get? ((imaged []).world 1).images 3 = none ∧ epochLive { world1 with keyEpoch := 9 } 0 = false ∧
    (let s := { with11 (localAt 0x10000) with poison := [0x10000 / 64 + 5] }
     s.piecesFault s.req 0x10000 [(0x10000, 65536)] = some (0x40, 0x10140)) := by
  decide

theorem wit_EngineWords :
    okIs (checkSlotCap (copying.reg 5) ⟨1, true, false, false⟩ 5 copying) (fun _ => true) = true ∧
    okIs (checkSlotCap (copying.reg 5) ⟨1, false, true, false⟩ 5 copying) (fun _ => true) = true ∧
    NMap.get? (engineOf 0 (withJob .paused false false copying)).entries 0 = some (job1 .paused) ∧
    NMap.get? (engineOf 0 copying).entries 63 = none ∧ ((1543 - 8) / 24, (1543 - 8) % 24) = (63, 23) ∧
    (engineOf 0 (withJob .paused true true copying)).stopped = true ∧ (engineOf 0 copying).stopped = false ∧
    jobAt 0 0 (withJob .paused true true copying) = some (job1 .paused) := by
  decide

theorem wit_HintsAndIllegalWords : (sample.world 1).sigCheck = false ∧
    ({ sample with worlds := [(1, { world1 with sigCheck := true })] } : State).thr.world = 1 ∧ ((0 : BitVec 6) = 0 → (0xFFFFF : BitVec 20) = 0xFFFFF) := by
  decide

/-- Words at the program counter of a machine with one thread: `fadd` and a word that is no instruction. -/
def placed (w : Nat) : State := { sample with mem := Cells.write [] 0x1000 (toLe 4 w) }

def fetches (s : State) (w : Word32) : Bool := okIs (fetch (s.focus 1)) fun x => x.1 == w && okIs (checkerVerdict .yield x.2) (fun _ => true)

/-- A fault that had been deferred. -/
def trapsDue (r : Res Unit) : Bool := match r with
  | .error (.fault f) => f.due.isSome
  | _ => false

theorem wit_StepRunsDecoded :
    ((placed 0x200208E1).inputs = [] ∧ actions (placed 0x200208E1) = [.word 1] ∧ fetches (placed 0x200208E1) 0x200208E1 = true ∧
      decodeWord 0x200208E1 = .ok (.fadd 2 .f32 2 1 3) ∧ firstDue (dueAt (.fadd 2 .f32 2 1 3) (placed 0x200208E1)) = none ∧
      areadPending (placed 0x200208E1).thr (placed 0x200208E1) = false) ∧
    (let s := withCtx (placed 0x30062901) fun c => { c with regMarks := [(5, ⟨0x40, 0x2000, 0xFF0, 7⟩)] }
     (actions s == [.word 1] && okIs (fetch (s.focus 1)) fun x => trapsDue (wordVerdict (.add 3 6 5 4) x.2)) = true) ∧
    (let s := placed 0x00006038
     actions s = [.word 1] ∧ fetches s 0x00006038 = true ∧ decodeWord 0x00006038 = .ok (.gcall 12) ∧ endsWindows (.gcall 12) = true ∧
     s.resultPending = false ∧ firstDue (dueAt (.gcall 12) s.landAll) = none) ∧
    (actions (placed 0xFFFFFFFF) = [.word 1] ∧ fetches (placed 0xFFFFFFFF) 0xFFFFFFFF = true ∧ decodeWord 0xFFFFFFFF = .error .illegalWord) := by
  decide

/-- A memory with a byte is in canonical form, and a step from it goes on. -/
theorem wit_MemoryStaysCanonical : Memory.wf (placed 0x200208E1).mem = true ∧ nextIs (step (placed 0x200208E1)) (fun _ => true) = true := by
  decide

theorem wit_EncodingRoundTrip : (Instr.addi 0x1FFF 31 31).isWord = true ∧ (Instr.addi 0x1FFF 31 31).wf = true ∧
    decodeWord 0x200208E1 = .ok (.fadd 2 .f32 2 1 3) := by
  decide

/-! ## Witnesses: the host's side -/

/-- A counter record, or a record of any type, of the command window; its go word is 1. -/
def counterRecord (ty handle value limit reply : Nat) : List Byte :=
  toLe 8 ty ++ toLe 8 handle ++ toLe 8 value ++ toLe 8 limit ++ toLe 8 reply ++ toLe 16 0 ++ toLe 8 1

/-- A launch record (R274). -/
def launchWith (args n prog start done target : Nat) : List Byte :=
  toLe 2 1 ++ toLe 2 n ++ toLe 4 5 ++ toLe 4 prog ++ toLe 4 3 ++ toLe 8 args ++ toLe 8 1 ++ toLe 6 500 ++ toLe 2 0 ++ toLe 4 start
    ++ toLe 4 done ++ toLe 4 target ++ toLe 4 2 ++ toLe 8 3

def launchBytes : Nat → Nat → Nat → Nat → Nat → List Byte := launchWith 0

/-- Slot 5 belongs to partition 0 of world 1, which has counter handles 1, 2 and 4 (no counter line) and program handle 9. -/
def hosted : State :=
  { base [] with
    worlds := [(1, { world1 with
      ctrHandles := [(1, ⟨0x6040, 0x6040⟩), (2, ⟨0x6080, 0x6080⟩), (4, ⟨0x60C0, 0⟩)], progs := [(9, ⟨localAt 0x1000, 0⟩)] })]
    ctrLines := [0x6040 / 64, 0x6080 / 64], mem := (0x6040, 7) :: (List.range 8).map (fun k => (0x6080 + k, 255))
    hub := { hub0 with slotPart := [(5, 0)] } }

/-- The host has stored a record and its go word. -/
def storing (bs : List Byte) : State := after (.hostMemoryAccess ⟨.hdm, 5 * 64, 64, some bs⟩) hosted

/-- The dispatcher finds a record of that type, and `p` holds of its bytes and the state with its go word cleared. -/
def taking (ok : Nat → Bool) (bs : List Byte) (p : List Byte → State → Bool) : Bool := match takeRecord 5 ok (storing bs) with
  | some (x, t) => p x t
  | none => false

/-- The counter line of a record. -/
def lineIs (bs : List Byte) (t : State) (p : Nat → Bool) : Bool := match recordLine 1 bs t with
  | .inl pa => p pa
  | .inr _ => false

/-- Adds that fit and that do not, an unknown handle, waits met and not met with a limit and without, a record of unknown type. -/
theorem wit_HostRecords_counters :
    taking (· == 2) (counterRecord 2 1 3 0 0x40) (fun bs t => recordAnswers homeAnswers 5 bs t && lineIs bs t fun pa => pa % 64 == 0 &&
      decide (pa < 5 * regionSize) && decide (t.readNat pa 8 + cardNat bs 16 8 < 2 ^ 64)) = true ∧
    taking (· == 2) (counterRecord 2 2 1 0 0x40) (fun bs t => recordAnswers homeAnswers 5 bs t && lineIs bs t fun pa =>
      decide (t.readNat pa 8 + cardNat bs 16 8 = 2 ^ 64)) = true ∧
    taking (· == 2) (counterRecord 2 99 1 0 0x40) (fun bs t => recordAnswers homeAnswers 5 bs t && (recordLine 1 bs t).isRight) = true ∧
    taking (· == 3) (counterRecord 3 1 7 0 0x40) (fun bs t => recordAnswers waitAnswers 5 bs t && lineIs bs t fun pa =>
      decide (cardNat bs 16 8 = t.readNat pa 8)) = true ∧
    taking (· == 3) (counterRecord 3 1 8 55 0x40) (fun bs t => recordAnswers waitAnswers 5 bs t && lineIs bs t fun pa =>
      decide (t.readNat pa 8 < cardNat bs 16 8)) = true ∧
    taking (· == 3) (counterRecord 3 98 8 55 0x40) (fun bs t => recordAnswers waitAnswers 5 bs t && (recordLine 1 bs t).isRight) = true ∧
    taking (fun n => n != 1 && n != 2 && n != 3) (counterRecord 77 1 2 3 4) (fun _ _ => true) = true := by
  decide

/-- What the checks of a launch answer: a plan, a status, or that the launch waits. -/
def planIs (r : Res LaunchCheck) (p : LaunchPlan → Bool) : Bool := match r with
  | .ok (.inr q) => p q
  | _ => false
def statusIs (r : Res LaunchCheck) : Bool := match r with
  | .ok (.inl _) => true
  | _ => false
def launchWaits (r : Res LaunchCheck) : Bool := match r with
  | .error (.hold _) => true
  | _ => false

/-- A launch for a partition that does not run, one with an unknown program, one whose arguments lie in a page that nothing has
touched, one that is performed at the limit of the world, and one with a root above it. -/
theorem wit_HostRecords_launches :
    taking (· == 1) (launchBytes 3 9 1 1 4) (fun bs t => matrixRuns (slotPartition 5 t) t && !(launchReq 5 bs).paired &&
      planIs (checkLaunch 1 0 (launchReq 5 bs) t) fun q =>
        decide ((launchReq 5 bs).n = (q.state.world 1).contLimit - contClaims 1 q.state) && homeAnswers q.startPa q.state &&
        (ctrRefusal ⟨1, none⟩ q.startPa q.state).isNone && q.startPa % 64 == 0 && decide (q.state.readNat q.startPa 8 + 3 < 2 ^ 64)) = true ∧
    taking (· == 1) (launchBytes 4 9 1 1 4) (fun bs t => planIs (checkLaunch 1 0 (launchReq 5 bs) t) fun q =>
      decide ((q.state.world 1).contLimit - contClaims 1 q.state < (launchReq 5 bs).n)) = true ∧
    taking (· == 1) (launchBytes 2 8 1 1 4) (fun bs t => matrixRuns (slotPartition 5 t) t && statusIs (checkLaunch 1 0 (launchReq 5 bs) t)) = true ∧
    taking (· == 1) (launchWith 0x20000 1 9 1 1 4) (fun bs t => matrixRuns (slotPartition 5 t) t &&
      launchWaits (checkLaunch 1 0 (launchReq 5 bs) t)) = true ∧
    (let s := { storing (launchBytes 1 9 1 1 4) with parts := [(0, { part0 with phase := .stopped })] }
     (takeRecord 5 (· == 1) s).isSome = true ∧ matrixRuns 0 s = false) := by
  decide

def launch20 (written : Bool) : Launch := ⟨20, 5, 3, 0x6080, [], true, 3, 1, 0, 0, false, 0x6040, 4, 2, 0, none, written⟩

/-- Host waits that are over or not, one that its home has met and one it has broken, and launches whose record is due, written, or
that are over. -/
def replying : State :=
  { hosted with
    hostWaits := [⟨12, 0x6040, 7, none, 0x40, 1, .held⟩, ⟨14, 0x6040, 9, some 0, 0x60, 1, .held⟩, ⟨15, 0x60C0, 5, none, 0x40, 1, .held⟩,
      ⟨16, 0x6040, 5, none, 0x40, 1, .met 6⟩, ⟨17, 0x60C0, 5, none, 0x40, 1, .broken 0x21⟩]
    launches := [launch20 false] }

theorem wit_HostRecords_replies :
    ((replying.hostWaits.take 3).map fun x => (regionOf x.pa, (ctrRefusal ⟨x.world, none⟩ x.pa replying).isSome,
      decide (x.thr.toNat ≤ replying.readNat x.pa 8))) = [(0, false, true), (0, false, false), (0, true, false)] ∧ replying.now = 0 ∧
    (launchStatus (launch20 false) replying).isSome = true ∧ (launch20 false).written = false ∧ launchOver (launch20 false) replying = true ∧
    (let s := { replying with launches := [launch20 true], thr := { replying.thr with launch := some 20 } }
     launchOver (launch20 true) s = false) ∧
    (∀ c ∈ replying.clusters, c.1 < 64 ∧ ∀ y ∈ c.2.allocs, y.unit + y.count ≤ 256) ∧
    (¬ hosted.hub.stage < 7 ∧ (counterRecord 2 1 3 0 0x40).length = 64 ∧ ((counterRecord 2 1 3 0 0x40)[56]?.getD 0).getLsbD 0 = true ∧
      slotBusy 5 hosted = false ∧ NMap.get? hosted.hub.slotPart 5 = some 0) ∧
    ({ hosted with hub := { hosted.hub with stage := 6 } } : State).hub.stage < 7 := by
  decide

/-! ## Witnesses: threads between their words -/

def waitFor (c : CtrRef) (v : Word64) (limit : Option Nat) (d : Option RegNum) : WaitReq := ⟨c, v, limit, d, 3, 0x6040, none, 1000, .held⟩

/-- The sample waits; the line at 0x6040 holds 7; it is 5000 ns. -/
def waiting (w : WaitReq) : State :=
  { sample with thr := { sample.thr with wait := some w }, ctrLines := [0x6040 / 64], mem := [(0x6040, 7)], now := 5000 }

/-- The sample waits for the reply to the ring's oldest entry. -/
def asking (n : BitVec 11) (arg : Cap) : State :=
  { sample with
    thr := { sample.thr with stall := some (.sysc 10 4) }
    worlds := [(1, { world1 with ring := [⟨4, n, arg, 0, 1, 1, 0, 0, 0⟩], ringTail := 5 })] }

/-- The call is answered, or refused, at once. -/
def servedNow (r : Served) : Bool := match r with
  | .error (.hold _) => false
  | _ => true

theorem wit_WaitsAndReplies :
    (let s := waiting (waitFor (.mem 0x6040) 7 none none); let u := s.focus 1
     u.thr.tid = 1 ∧ coreHalted u.thr u = false ∧ u.thr.captured = false ∧
     waitVerdict u.thr (waitFor (.mem 0x6040) 7 none none) u = .met 7 ∧ firstMet u.thr u = true) ∧
    (let w := waitFor (.mem 0x6080) 7 none none
     let u := (waiting w).focus 1
     waitVerdict u.thr w u = .broken 0x21 ∧ u.thr.status ≠ .waiting ∧ inSlot u.thr u = true ∧ coreHalted u.thr u = false) ∧
    (let w := waitFor (.mem 0x6080) 7 none none
     let u := ({ waiting w with thr := { (waiting w).thr with status := .waiting, place := none } } : State).focus 1
     u.thr.tid = 1 ∧ waitVerdict u.thr w u = .broken 0x21 ∧ u.thr.status = .waiting ∧ coreHalted u.thr u = false) ∧
    (let w := waitFor (.mem 0x6040) 7 none (some 12)
     let u := ({ waiting w with poison := [0x6040 / 64] } : State).focus 1
     waitVerdict u.thr w u = .broken 0x40 ∧ inSlot u.thr u = true) ∧
    (let w := waitFor (.mem 0x6040) 8 (some 5000) (some 12)
     let u := (waiting w).focus 1
     waitVerdict u.thr w u = .held ∧ u.now = 5000 ∧ coreHalted u.thr u = false ∧ u.thr.captured = false ∧
     inSlot u.thr u = true ∧ waitsToPark u.thr = true ∧ waitStart u.thr + 4000 = u.now) ∧
    (let s := withCtx sample fun c => { c with
       pend := [⟨12, some (Cap.ofInt 5), none, 0, none⟩, ⟨11, some (Cap.ofInt 3), none, 3, none⟩]
       stream := [⟨0, 0, 0, 0, 0, false, false, 0, 0, 0, [(0, 1)], [(0, 0)], 1⟩] }
     inSlot s.thr s = true ∧ (State.splitDue [] s.thr.ctx.pend).1 = [] ++ [⟨12, some (Cap.ofInt 5), none, 0, none⟩] ∧
     s.thr.ctx.stream ≠ []) ∧
    (let s := asking 4 (Cap.ofInt 77)
     (ringHead 1 s).map (·.ticket) = some 4 ∧ s.thr.status = .running ∧ s.thr.stall = some (.sysc 10 4) ∧ s.rest = [] ∧
     coreHalted s.thr s = false ∧ (callerOf 1 ⟨4, 4, Cap.ofInt 77, 0, 1, 1, 0, 0, 0⟩ s).map (·.tid) = some 1 ∧
     ([false, true].all fun refuse => servedNow (serveCall 1 refuse 5 ⟨4, 4, Cap.ofInt 77, 0, 1, 1, 0, 0, 0⟩ s)) = true) ∧
    ((5 : BitVec 11).toNat ≤ 5 ∧ 5 < (6 : BitVec 11).toNat) := by
  decide

/-- A thread with that identity, level and status, in no slot. -/
def thread (t p : Nat) (st : Status) : Thread :=
  { thread0 [] with tid := t, cref := BitVec.ofNat 64 t, status := st, place := none, prio := p, effLevel := p, readyOrder := t }

/-- READY records of two levels and a FAULTED one; clusters 0 and 1 are one partition. -/
def queued : State :=
  { sample with
    rest := [thread 2 3 .ready, thread 3 4 .ready, thread 4 4 .ready, thread 5 7 .faulted]
    parts := [(0, { part0 with clusters := [0, 1] })], now := 20000, cycle := 5000000 }

theorem wit_RunQueues_slots :
    (slotIsFree 0 1 queued = true ∧ thread 3 4 .ready ∈ queueFor 0 0 queued ∧ queued.thread? 3 = some (thread 3 4 .ready) ∧
      ((queueFor 0 0 queued).all fun g => g.tid == 3 || decide (g.effLevel < 4 ∨ (g.effLevel = 4 ∧ 3 < g.readyOrder))) = true) ∧
    (slotIsFree 16 0 queued = true ∧ queueFor 1 1 queued = [] ∧ (coreRec 1 0 queued).idleSince + 10000 ≤ queued.now ∧
      stealFrom 1 queued = some 0 ∧ thread 3 4 .ready ∈ stealable 0 1 queued ∧
      ((stealable 0 1 queued).all fun g => g.tid == 3 || decide (g.effLevel < 4 ∨ (g.effLevel = 4 ∧ 3 < g.readyOrder))) = true) ∧
    (let u := queued.focus 1
     u.thr.tid = 1 ∧ inSlot u.thr u = true ∧ u.thr.slotSince + 65536 ≤ u.cycle ∧ waitsToPark u.thr = false ∧ atBoundary u.thr = true ∧
     ((queueFor u.thr.cluster u.thr.cluster u).any fun g => decide (u.thr.prio ≤ g.effLevel)) = true) ∧
    (let u := ({ queued with rest := [thread 2 2 .ready] } : State).focus 1
     ((queueFor u.thr.cluster u.thr.cluster u).all fun g => decide (g.effLevel < u.thr.prio)) = true) ∧
    (let s := { queued with thr := { queued.thr with wait := some (waitFor (.mem 0x6040) 9 none none) } }
     waitsToPark s.thr = true ∧ inSlot s.thr s = true ∧ s.thr.slotSince + 65536 ≤ s.cycle) := by
  decide

theorem wit_RunQueues_threads :
    (let s := withCtx queued fun c => { c with allot := 0 }
     inSlot s.thr s = true ∧ s.thr.ctx.allot = 0 ∧ unwindPoint s.thr = none ∧ s.thr.stall ≠ some .recovery ∧ s.faultQueueFull 1 = false ∧
     atBoundary s.thr = true ∧ okIs (s.access s.who s.thr.ctx.code s.pc 4 needFetch 0) (fun _ => true) = true) ∧
    (queued.thread? 2 = some (thread 2 3 .ready) ∧ partRuns 0 queued = true ∧ (thread 2 3 .ready).effLevel < 7 ∧
      (thread 2 3 .ready).readySince + 64 * 65536 ≤ queued.cycle) ∧
    (let h := { thread 2 3 .running with place := some 4, stall := some (.contLimit 6) }
     let s := { queued with rest := [h] }
     s.thread? 2 = some h ∧ firstAtLimit h s = true ∧ contClaims 1 s < (s.world 1).contLimit) ∧
    (queued.thread? 5 = some (thread 5 7 .faulted) ∧ queued.thr.tid ≠ 5) ∧
    (queueFull.world 1).faultQ ≠ [] := by
  decide

/-! ## Witnesses: engines, units, translation, domains -/

/-- A job that copies 300 bytes from DEVICE to cluster memory; the destination's capability does not carry tags. -/
def wideCard : List Byte := cardBytes (deviceAt 0x10100) ((localAt 0x7000).setPerm 0x02F) 300 1023 300 300
def wideJob (st : JobState) : Job := { job1 st with card := wideCard }
def emptyJob : Job := { job1 .queued with card := cardBytes (deviceAt 0x10100) (localAt 0x7000) 0 1023 64 64 }

def command (id : Nat) (k : MKind) (started : Bool) : MCmd :=
  { id := id, pc := 0x1000, queued := false, kind := k, tid := 1, core := some 0, world := 1, domain := 0, part := 0, cref := 1, slot := some 3
    sinc := usedSlot.sinc
    shape := ⟨2, 2, 2, .e2m1, .e2m1, 8, none⟩, aBytes := [0x22, 0x34], bBytes := [0x22, 0x11], saBytes := [], sbBytes := []
    aAddr := none, bAddr := none, kctr := 5, tile := 0, tileOff := 64, rows := 2, cols := 2, blkIdx := 0, outFmt := .bf16
    ts := 0x3F80, started := started }

/-- Cluster 0 with jobs, the engine's STOP and STOPPED, and a unit with one used slot and entries. -/
def working (js : NMap Job) (stop stopped : Bool) (cmds : List MCmd) : State :=
  { sample with clusters := [(0, { cluster0 with engine := ⟨js, stop, stopped, 4⟩, mat := ⟨[(3, usedSlot)], cmds, 0⟩ })] }

/-- Another thread that waits in that way. -/
def stalled (t : Nat) (x : Stall) : Thread := { thread t 3 .running with place := some t, stall := some x }

/-- Domain 0 is killed. -/
def orphan (s : State) : State := s.modWorld 1 fun w => w.setDom 0 { w.dom 0 with state := .dead }

/-- A job whose source lies at `a`. -/
def strayJob (a : Word64) : Job := { job1 .running with card := cardBytes (deviceAt a) ((localAt 0x7000).setPerm 0x02F) 300 1023 300 300 }

/-- The reads of a sector fail with that code. -/
def readsFail (q : Req) (j : Job) (s : State) (n : Nat) (code : BitVec 8) : Bool := match sectorReads q j s (sectorRuns j.card n) with
  | .error (_, .fault f) => f.code == code
  | _ => false

theorem wit_EnginesAndUnits_jobs :
    (let s := { working [] false false [] with rest := [stalled 2 (.copyQueue 0 8), stalled 3 (.copyQueue 0 4)] }
     oldestCardWaiter 0 s = some (stalled 3 (.copyQueue 0 4)) ∧ s.thread? 3 = some (stalled 3 (.copyQueue 0 4)) ∧
     (engineOf 0 s).stop = false ∧ (s.threads.filter (grantedCard 0 s)).length < freeEntries (engineOf 0 s)) ∧
    (let s := working [(0, wideJob .queued), (1, emptyJob)] false false []
     jobAt 0 0 s = some (wideJob .queued) ∧ edgesOver 0 (wideJob .queued) s = true ∧ engineRuns 0 (wideJob .queued) s = true ∧
     draining 0 (wideJob .queued) s = false ∧ jobKilled (wideJob .queued) s = false ∧
     s.faultQueueFull 1 = false ∧ sectorCount wideCard = 2 ∧ jobAt 0 1 s = some emptyJob ∧ edgesOver 0 emptyJob s = true ∧
     engineRuns 0 emptyJob s = true ∧ sectorCount emptyJob.card = 0 ∧ ctlAddm (cardCtl emptyJob.card) = false) ∧
    (let s := orphan (working [(0, wideJob .queued), (1, wideJob .running)] false false [])
     jobKilled (wideJob .queued) s = true ∧ edgesOver 0 (wideJob .queued) s = true ∧ engineRuns 0 (wideJob .queued) s = true ∧
     draining 0 (wideJob .running) s = false) ∧
    (let j := wideJob .running
     let s := working [(0, j)] false false []
     jobAt 0 0 s = some j ∧ engineRuns 0 j s = true ∧ 1 < sectorCount j.card ∧ 1 ∉ j.landed ∧ jobKilled j s = false ∧ draining 0 j s = false ∧
     1 < firstUnlanded j + 4096 ∧ j.ascendTo ≤ firstUnlanded j ∧ ctlCkind (cardCtl j.card) = 0 ∧ carriesTags j = false ∧
     ((sectorReads q0 j s (sectorRuns j.card 1)).toOption.map fun x => (sectorWrites q0 j x.2 x.1).toOption.isSome) = some true) ∧
    (let s := working [(0, strayJob 0x30100), (1, strayJob 0x60100)] false false []
     s.faultQueueFull 1 = false ∧ readsFail q0 (strayJob 0x30100) s 0 0x10 = true ∧ readsFail q0 (strayJob 0x60100) s 0 0x12 = true) := by
  decide

/-- A remote command whose operands lie at those places of cluster memory. -/
def remoteCmd (q : Bool) : MCmd :=
  { command 7 (if q then .new else .acc) false with
    queued := q, core := none, slot := if q then none else some 3, aBytes := [], bBytes := [], aAddr := some 0x2000, bAddr := some 0x2040 }

theorem wit_EnginesAndUnits_unit :
    (let s := { working [] false false [] with rest := [stalled 4 (.matrixQueue 0 8 (some 0))] }
     oldestWaiter 0 s = some (.thread 4 8) ∧ s.thread? 4 = some (stalled 4 (.matrixQueue 0 8 (some 0)))) ∧
    (let s := working [] false false [remoteCmd true]
     oldestWaiter 0 s = some (.cmd (remoteCmd true)) ∧ (allocSlot 0 none s).isSome = true ∧ s.thr.status ≠ .vacant ∧ s.thr.tid = 1) ∧
    nextStart 0 (working [] false false [command 7 .acc false]) = some (command 7 .acc false) ∧
    operandPoison (command 7 .acc false) (working [] false false [command 7 .acc false]) = none ∧
    (let s := { working [] false false [remoteCmd false] with poison := [0x2040 / 64] }
     nextStart 0 s = some (remoteCmd false) ∧ operandPoison (remoteCmd false) s = some (0x2040 / 64)) ∧
    engineDrained 0 (working [(0, job1 .paused)] true false []) = true ∧
    startedCmd 0 7 (working [] false false [command 7 .acc true]) = some (command 7 .acc true) ∧
    readyEntry .aread 0 7 (working [] false false [command 7 .aread false]) = some (command 7 .aread false) ∧
    readyEntry .arel 0 7 (working [] false false [command 7 .arel false]) = some (command 7 .arel false) ∧
    (sample.thr.status ≠ .vacant ∧ sample.thr.record = false ∧ sample.thr.tid = (command 7 .acc true).tid ∧ sample.rest = []) ∧
    (usedSlot.sinc.toNat < 2 ^ 46 - 1 ∧ (BitVec.ofNat 46 (2 ^ 46 - 1)).toNat = 2 ^ 46 - 1) ∧
    ((engineOf 0 (working [] true false [])).stop = true ∧ (engineOf 0 (working [] true false [])).stopped = false ∧
      (engineOf 0 (working [] true true [])).stopped = true ∧ (engineOf 0 sample).stop = false) := by
  decide

/-- Requests, answers and invalidations in flight, and frames on their way back. -/
def asked : State :=
  { withJob .paused false false sample with
    clusters := [(0, { cluster0 with engine := ⟨[(0, { job1 .paused with fault := 0x11, faultAddr := 0x3010 })], false, false, 2⟩ })]
    hub := { hub0 with priOut := [(0, 3)], atsOut := [(0, 3)], invOut := [(0, 3)], noAnswer := [(0, 3)] }
    worlds := [(1, { world1 with freeing := [⟨0x100000, 0⟩, ⟨0x2000000, 1⟩] })] }

theorem wit_TranslationEvents : (0, 3) ∉ sample.hub.priOut ∧ (0, 3) ∈ asked.hub.priOut ∧ (0, 3) ∈ asked.hub.atsOut ∧
    (0, 3) ∉ asked.hub.priQueue ∧ ((jobAt 0 0 asked).map fun j => pausedOn 0 3 j asked) = some true ∧ (asked.world 1).faultQ = [] ∧
    (0, 3) ∈ asked.hub.invOut ∧ (asked.world 1).freeing = ⟨0x100000, 0⟩ :: [⟨0x2000000, 1⟩] := by
  decide

def domainIs (st : DomState) : Domain := { Domain.free with state := st, ptroot := 0x10000, root := localAt 0, pasid := 4 }

/-- Domains 0 to 2 with a gate each into 1 and 2, a dead domain 4; world 2 has a far gate into its domain 3 and a landing cluster. -/
def nested : State :=
  { base [(4, gateCap 1 1 0 0 false), (5, gateCap 2 3 1 0 false), (12, gateCap 1 2 2 0 false)] with
    worlds := [(1, { world1 with
        gates := [(0, { liveGate with domain := 1 }), (2, { liveGate with domain := 2 })]
        domains := [(0, domainIs .live), (1, domainIs .live), (2, domainIs .live), (4, domainIs .dead)] }),
      (2, { World.empty with
        gates := [(1, { liveGate with domain := 3, far := true, code := deviceAt 0x10000 })]
        domains := [(3, domainIs .live)], landing := some 1 })]
    parts := [(0, part0), (1, { part0 with world := 2, clusters := [1] })] }

/-- One call deep, and two. -/
def inner : State := after (.gcall 4) nested
def inner2 : State := after (.gcall 12) (withCtx inner fun c => { c with regs := nested.thr.ctx.regs })
def killing (d : Nat) (s : State) : State := s.modWorld 1 fun w => w.setDom d { w.dom d with state := .dead }
/-- The top entry, with another eject mark and budget limit. -/
def withTop (f : DomEntry → DomEntry) (s : State) : State := withCtx s fun c => { c with dstack := match c.dstack with
  | e :: r => f e :: r
  | [] => [] }

theorem wit_DomainsAndKills_tables :
    (((nested.world 1).dom 4).state = .dead ∧ ((nested.world 1).dom 5).state = .free ∧ killRunning 1 4 nested = false ∧
      trapGateOk 1 none nested = true) ∧
    (((nested.world 1).dom 1).state = .live ∧ ((nested.world 1).dom 1).gen < 4095) ∧
    (let s := { nested with hub := { nested.hub with kills := [⟨5, 1, some 4, [.hbm, .matrixUnits]⟩, ⟨6, 1, none, [.hbm]⟩] } }
     (s.hub.kills.find? fun y => y.id == 5 && y.homes.contains .hbm) = some ⟨5, 1, some 4, [.hbm, .matrixUnits]⟩ ∧
     (s.hub.kills.find? fun y => y.id == 6 && y.homes.contains .hbm) = some ⟨6, 1, none, [.hbm]⟩) := by
  decide

theorem wit_DomainsAndKills_unwind :
    (let s := killing 0 nested; let u := s.focus 1
     u.thr.tid = 1 ∧ unwindReady u.thr = true ∧ killCase u.thr u = .kill ∧ u.rest = [] ∧ killOpen 1 u = false) ∧
    (let u := (killing 2 inner2).focus 1
     unwindReady u.thr = true ∧ killCase u.thr u = .lost ∧ (u.thr.ctx.dstack.findIdx? fun x => callerLive 1 x u) = some 0) ∧
    (let u := (killing 2 (killing 1 inner2)).focus 1
     killCase u.thr u = .lost ∧ (u.thr.ctx.dstack.findIdx? fun x => callerLive 1 x u) = some 1 ∧
     (u.thr.ctx.dstack.map fun e => (e.trap, e.far)) = [(false, false), (false, false)]) ∧
    (let u := (killing 0 inner).focus 1
     unwindReady u.thr = true ∧ killCase u.thr u = .grace ∧
     (u.thr.ctx.dstack.map fun e => decide (e.blim < u.thr.ctx.allot)) = [true]) ∧
    (let u := (withTop (fun e => { e with eject := true }) inner).focus 1
     unwindReady u.thr = true ∧ unwindPoint u.thr = some (0, 1) ∧ (u.thr.ctx.dstack.all fun e => callerLive 1 e u) = true) ∧
    (let u := (withTop (fun e => { e with blim := inner.thr.ctx.allot }) inner).focus 1
     unwindPoint u.thr = some (0, 2)) := by
  decide

/-- A far call on its way, landed, and on its way back. -/
def farAway : State := after (.gcall 5) nested
def hopId : Nat := (farAway.hub.hops.map fun x => x.id).headD 0
def farLanded : State := after (.farGateLanding hopId) farAway
def farBack : State := after .gret (farLanded.focus ((farLanded.rest.map fun h => h.tid).headD 0))

theorem wit_DomainsAndKills_far :
    (farAway.hub.hops.map fun x => (x.id, x.gateWorld, x.back, x.landing)) = [(hopId, 2, false, none)] ∧
    ((farAway.world 2).landing = some 1 ∧ partOf 2 1 farAway = some 1 ∧ domDead 2 3 ((farAway.world 2).dom 3).gen farAway = false ∧ (farAway.part 1).phase = .active) ∧
    (let s := farAway.modWorld 2 fun w => { w with landing := none }
     (s.world 2).landing = none ∧ s.hub.hops = farAway.hub.hops) ∧
    (farBack.hub.hops.map fun x => (x.id, x.back, x.caller)) = [(hopId, true, 1)] ∧
    (farBack.thread? 1).map (fun c => (c.status, c.hop, c.ctx.dstack.length)) = some (.gated, some hopId, 1) ∧ (farBack.part 0).phase = .active := by
  decide

/-! ## Witnesses: keys, tenancy, partitions, recovery, the platform -/

/-- A sealed line of expander port 0, whose home is 12. -/
def keyed (k : KeyState) (swept : BitVec 16) : State :=
  { sample with
    seals := [(2 * regionSize / 64, ⟨1, 7⟩)]
    worlds := [(1, { world1 with
      keyState := k, oldKeyId := if k = .rekeying then some 7 else none, keyId := if k = .rekeying then 9 else 7, swept := swept })] }

theorem wit_KeysAndTenancy_keys :
    ((keyed .active 0).world 1).keyState = .active ∧
    (let s := keyed .rekeying 0; let l := 2 * regionSize / 64
     (s.world 1).keyState = .rekeying ∧ (s.world 1).swept.getLsbD 12 = false ∧ s.sweepNext 1 12 ((s.world 1).sweeps.getD 12 0) = some l ∧
     NMap.get? s.seals l = some ⟨1, 7⟩ ∧ some 7 = (s.world 1).oldKeyId ∧ l ∉ s.broken ∧ s.sweepNext 1 15 ((s.world 1).sweeps.getD 15 0) = none) ∧
    ((keyed .rekeying 0x7FFF).sweepNext 1 15 (((keyed .rekeying 0x7FFF).world 1).sweeps.getD 15 0) = none ∧
      ((keyed .rekeying 0x7FFF).world 1).swept.getLsbD 15 = false) ∧
    ((keyed .destroying 0).world 1).keyState = .destroying ∧ ((keyed .empty 0).world 1).keyState = .empty ∧
    (State.reset.world 63).keyState = .empty := by
  decide

def latching (x : DLatch) : State := setDlatch 7 x sample

theorem wit_KeysAndTenancy_hub :
    (let y := dlatchAt 7 (latching ⟨false, true, 0⟩)
     y.latched = false ∧ y.clean = true ∧ (0x803F : Word64).getLsbD 15 = true ∧ (0x803F : Word64).toNat % 64 ≠ 0) ∧
    (dlatchAt 7 (latching ⟨false, false, 0⟩)).clean = false ∧ (0x8000 : Word64).toNat % 64 = 0 ∧
    ((dlatchAt 0 sample).latched = true ∧ dieUsed 0 sample = true ∧ (0 : Word64).getLsbD 15 = false) ∧
    ((dlatchAt 7 (latching ⟨true, false, 1⟩)).latched = true ∧ dieUsed 7 (latching ⟨true, false, 1⟩) = false) ∧
    sample.hub.turnBusy = false ∧
    (let s := (List.range 8).map fun n => ({ sample with hub := { hub0 with turnBusy := true, turnWorld := 1, turnStage := n } } : State)
     (s.all fun x => !killOpen x.hub.turnWorld x) = true) ∧
    ((privatePage 0 && privatePage 1 && privatePage 3 && privatePage 4) = true ∧ sample.hub.attGo = false) := by
  decide

def waitsStep : Thread := { thread 2 3 .running with place := some 8, stall := some .boundary }

/-- Two members at their `step`, a step that keeps records; partition 1 in the shadow banks. -/
def atStep : State :=
  { sample with
    thr := { sample.thr with stall := some .boundary }, rest := [waitsStep]
    parts := [(0, { part0 with
        keeps := true, restartable := true, undo := [⟨0x2000 / 64, [(0x2000, 9)], []⟩], snaps := [thread0 [], waitsStep] }),
      (1, { Partition.empty with phase := .shadow, world := 1, clusters := [0] })]
    mem := [(0x2000, 5)] }

def part (f : Partition → Partition) (s : State) : State := { s with parts := s.parts.map fun p => if p.1 = 0 then (0, f p.2) else p }

theorem wit_SwitchAndRecovery_switch :
    (canEnter 0 1 atStep = true ∧ (atStep.part 0).phase = .active ∧ atStep.now = 0) ∧
    (let s := { part (fun p => { p with phase := .announced, switchAt := 2000, incoming := some 1 }) atStep with now := 2000 }
     (s.part 0).phase = .announced ∧ (s.part 0).switchAt = s.now ∧ enginesDone 0 s = true) ∧
    (let s := part (fun p => { p with phase := .stopped, incoming := some 1 }) atStep
     (s.part 0).phase = .stopped ∧ (s.part 0).incoming = some 1) ∧
    (let s := part (fun p => { p with phase := .entering, savedJobs := [⟨0, 63, job1 .running⟩] }) atStep
     (s.part 0).phase = .entering ∧ (s.part 0).savedJobs = [⟨0, 63, job1 .running⟩]) ∧
    (atStep.part 1).phase = .shadow := by
  decide

/-- Two errors of the step. -/
def erring : State :=
  part (fun p => { p with errors := [⟨0x40, 2, 0x1000, 2, 0, false, true⟩, ⟨0x40, 1, 0x1000, 1, 0, false, true⟩] })
    { atStep with thr := { atStep.thr with stall := some .recovery, restartable := true, task := some ⟨ctx0 [], [], 0, 0, 0, [], 0⟩ } }

theorem wit_SwitchAndRecovery_recovery :
    (matrixRuns 0 atStep = true ∧ (atStep.part 0).errors = [] ∧
      ((membersOf 0 atStep).all fun h => h.stall == some .boundary && workDone h.tid atStep) = true ∧ membersOf 0 atStep ≠ [] ∧
       pairStray (membersOf 0 atStep) atStep = none) ∧
    (matrixRuns 0 erring = true ∧ ((erring.part 0).errors.any fun e => needsReplay e erring) = true ∧ (erring.part 0).keeps = true ∧
      (erring.part 0).restartable = true ∧ (erring.part 0).recordsBroken = false ∧ (erring.part 0).restored = false ∧ restoreWaits 0 erring = false) ∧
    ((part (fun p => { p with keeps := false }) erring).part 0).keeps = false ∧
    (let s := part (fun p => { p with stopped := true, restored := true }) atStep
     (s.part 0).stopped = true ∧ (s.part 0).restored = true ∧ (s.part 0).recordsBroken = false) ∧
    (rerunnable erring.thr erring = true ∧ erring.thread? 1 = some erring.thr ∧ matrixRuns erring.thr.part erring = true) ∧
    (let s := { atStep with recAreas := [(1, ⟨thread0 [], []⟩)] }
     NMap.get? s.recAreas 1 = some ⟨thread0 [], []⟩ ∧ (thread0 []).paired = false) := by
  decide

def row1 : HbmRow := ⟨1, 2, 3, 4⟩

/-- A row corrected 16 times, a full repair list but for its last place, a row in repair. -/
def repairing : State :=
  { sample with
    hub := { hub0 with
      corrections := List.replicate 16 (row1, 0), repairList := List.replicate 511 (1 <<< 63), quiesced := [⟨2, 0, 0, 0⟩] } }

/-- A stream entry set aside, its digit record as it was written. -/
def frozenEntry : StreamEntry := ⟨0, 0, 0, 0, 0, false, true, 0, 0, Config.digitCheck 0, [(0, 1)], [(0, 0)], 1⟩

/-- A thread in a slot of a halted core; two expanders at port 1. -/
def halting : State :=
  { sample with
    clusters := [(0, { cluster0 with cores := [(0, ⟨8, 5, 3, true, 12, 0⟩), (3, ⟨8, 5, 3, true, 12, 0⟩)] })]
    hub := { hub0 with expanders := [⟨1, 0, 64, true⟩, ⟨0, 0, 64, true⟩, ⟨1, 64, 128, true⟩] } }

theorem wit_PlatformEvents :
    (6 * regionSize - 1 < 6 * regionSize) ∧ dueRow repairing = some row1 ∧
    (511 < 512 ∧ ((repairing.hub.repairList[511]?).getD 0).getLsbD 63 = false) ∧ repairing.hub.quiesced = ⟨2, 0, 0, 0⟩ :: [] ∧
    (State.reset.hub.stage < 7 ∧ State.reset.hub.failed = false) ∧
    (let s := sample
     (NMap.get? s.parts 0).isSome = true ∧ (s.thread? 1).isSome = true) ∧
    NMap.get? (halting.cluster 0).cores 3 = some ⟨8, 5, 3, true, 12, 0⟩ ∧
    (halting.rest = [] ∧ matrixRuns 0 halting = true ∧ coreHalted halting.thr halting = true ∧
      (5 = 1 % 4 + 4 ∧ (halting.hub.expanders.filter fun e => e.port == 1)[5 / 4]? = some ⟨1, 64, 128, true⟩)) := by
  decide

/-- The halted thread goes on, or its context cannot be restored. -/
theorem wit_PlatformEvents_halt : halting.thread? 1 = some halting.thr ∧ coreHalted halting.thr (after (.haltResume 12) halting) = false ∧
    State.digitsOk [frozenEntry] = true ∧ contextWhole { halting.thr with broken := true } = false := by
  refine ⟨by decide, by decide, ?_, by decide⟩
  simp [State.digitsOk, frozenEntry]

/-- A peer's next sequence number is 4; a counter line in a page of DEVICE. -/
def peering : State := { sample with ctrLines := [paDevice 0x100040 / 64], hub := { hub0 with peerSeq := [(3, 4)] } }

def flit (sector : Option Nat) (op : FlitOp) : Flit := ⟨3, 0, 4, 1, 0, 5, 0, 2 ^ 16 - 1, sector, 0x100040, op⟩

/-- Flits that come too early, again and in turn; one that must wait at the pointer of a sweep. -/
theorem wit_PlatformEvents_sequence :
    ((3 : Nat) < nextSeq 3 peering ∧ nextSeq 3 peering = 4 ∧ nextSeq 3 peering < 5 ∧ peering.hub.peerEarly = []) ∧
    (let f := flit none .counterRead
     flitHeld f peering = false ∧ flitAdmitted f peering = true ∧ flitAdmitted { f with gen := 1 } peering = false ∧
     (let s := after (.nelturFlit { f with seq := 5 }) peering
      s.hub.peerEarly = [{ f with seq := 5 }] ∧ nextSeq 3 s = 4)) := by
  decide

/-- The world is rekeying, and the line of the flits is the one at its home's pointer. -/
def sweeping : State := { peering with
  seals := [(paDevice 0x100040 / 64, ⟨1, 7⟩)]
  worlds := [(1, { world1 with keyState := .rekeying, oldKeyId := some 7, keyId := 9, swept := 0, sweeps := Vector.replicate 16 0 })] }

theorem wit_PlatformEvents_held : nextSeq 3 sweeping = 4 ∧ sweeping.hub.peerEarly = [] ∧ flitHeld (flit none .counterRead) sweeping = true := by
  refine ⟨by decide, by decide, ?_⟩
  have hb : blocksOf 64 (flitPa (flit none .counterRead)) 64 = [paDevice 0x100040 / 64] := by decide
  have hr : regionOf (flitPa (flit none .counterRead)) = 1 := by decide
  have hn : flitBytes (flit none .counterRead) = 64 := rfl
  have hz : ∀ n, (Vector.replicate 16 (0 : Nat)).getD n 0 = 0 := fun n => by
    simp [Vector.getD, Array.getD]
  have h : sweeping.underSweep (paDevice 0x100040 / 64 * 64) = true := by
    simp [State.underSweep, sweeping, State.sweepNext, sweptRegion, paDevice, regionOf, regionSize, hz]
  simp [flitHeld, State.heldIn, sweptRegion, hn, hb, hr, State.lineHeld, h]

/-- An add of a thread and of a job's sector, each new and come again; a line to make a counter; waits met and not; a place that holds no
counter; a write and a read of bytes. -/
theorem wit_PlatformEvents_flits :
    (let f := flit none (.counterAdd (-1))
     let s := after (.nelturFlit f) peering
     (peering.sheafFind f.world (peerPart f) f.cref f.stepNo f.sseq).isNone = true ∧
     ctrRefusal (flitReq f) (flitPa f) peering = none ∧ peering.readNat (flitPa f) 8 + (-1 : Word64).toNat < 2 ^ 64 ∧
     nextSeq 3 s = 5 ∧ (s.sheafFind f.world (peerPart f) f.cref f.stepNo f.sseq).map (fun e => State.sameStamp e 0x18 1 (-1)) = some true) ∧
    (let f := flit (some 2) (.counterAdd 8)
     let s := after (.nelturFlit f) peering
     (s.sheafFind f.world (peerPart f) f.cref f.stepNo f.sseq).map (fun e => (e.maj, e.func, e.fault, e.sectors)) = some (0x1C, 0, 0, [2]) ∧
     ctrRefusal (flitReq f) (flitPa f) s = none ∧ s.readNat (flitPa f) 8 + (8 : Word64).toNat < 2 ^ 64) ∧
    (let f := { flit none (.counterInit 9) with target := 0x100080 }
     flitAdmitted f peering = true ∧ peering.serves (flitReq f) (flitPa f) = true ∧ peering.isPoisoned (flitPa f) = false ∧
     peering.isCounterLine (flitPa f) = false ∧ ctrRefusal (flitReq f) (flitPa f) peering = some 0x21) ∧
    ((0 : Word64).toNat ≤ peering.readNat (flitPa (flit none .counterRead)) 8 ∧
      peering.readNat (flitPa (flit none .counterRead)) 8 < (3 : Word64).toNat) ∧
    (let f := { flit none (.copyRead 100) with target := 0x100090 }
     flitHeld f peering = false ∧ peering.readFault (flitReq f) (flitPa f) 100 = none) ∧
    (let f := { flit none (.copyRead 100) with target := 0x100090 }
     ({ peering with poison := [paDevice 0x1000C0 / 64] } : State).readFault (flitReq f) (flitPa f) 100 = some (0x40, paDevice 0x1000C0)) := by
  decide

theorem wit_PlatformEvents_write : ∀ x, paDevice 0x100090 ≤ x → x < paDevice 0x100090 + 2 → takesStore peering ⟨1, none⟩ x := by
  intro x h1 h2
  have h : x = paDevice 0x100090 ∨ x = paDevice 0x100091 := by
    have : paDevice 0x100091 = paDevice 0x100090 + 1 := by decide
    omega
  rcases h with rfl | rfl
  · unfold takesStore; decide
  · unfold takesStore; decide

/-! ## Witnesses: further clauses -/

/-- New bounds outside the source's, and a length that no exponent fits, of a tagged and of an untagged source. -/
theorem wit_CpboundResult_bounds :
    (let s := with11 (cap 1 0x0FF 0 16 0x2000)
     ¬ ((s.reg 11).tag = true ∧ (s.reg 11).sealed = true) ∧ (s.int 4).toNat = 5 ∧ (0x2005 + 2 ^ 0 - 1) / 2 ^ 0 - 0x2000 / 2 ^ 0 ≤ 2 ^ 16 ∧
     (s.reg 11).tag = true ∧ ((0x2005 * 2 ^ 0 : Nat) : Int) > (s.reg 11).top) ∧
    (∀ k, k < 48 → ¬ ((0x2000 + (sample.int 5).toNat + 2 ^ k - 1) / 2 ^ k - 0x2000 / 2 ^ k ≤ 2 ^ 16)) ∧ (sample.reg 6).addr = 0x2000 ∧
    ((sample.reg 6).tag = true ∧ (sample.reg 6).sealed = false) ∧ (sample.reg 9).tag = false := by
  decide

/-- A window that ends where the spill area ends. -/
def spilling : State := withCtx sample fun c => { c with wbase := residentWindow + Config.spillBytes 1 }

theorem wit_EnterOpensFrame_spill : frameOpen spilling = none ∧ (Instr.enter 1 0).wf = true ∧
    residentWindow + Config.spillBytes spilling.thr.tid < spilling.thr.ctx.wbase + spilling.thr.ctx.fs - 0 + 64 ∧
    residentWindow < spilling.thr.ctx.wbase + spilling.thr.ctx.fs - 0 + 64 := by
  have ht : spilling.thr.tid = 1 := rfl
  have hf : spilling.thr.ctx.fs = 2048 := rfl
  have hw : spilling.thr.ctx.wbase = residentWindow + Config.spillBytes 1 := rfl
  rw [ht, hf, hw]
  exact ⟨rfl, by decide, by omega, by omega⟩

/-- A page of another domain of the world, asked for itself and as the middle of a larger one. -/
theorem wit_PageWords_covered :
    let w : World := { world1 with
      ptes := [(0x70000, pteBits 0 0x80000 false false false 1), (0x80000, pteBits 0 0x90000 false false false 1),
        (0x90000, pteBits 0 0xA0000 false false false 1), (0xA0018, pteBits 5 0x300000 true true true 2)]
      domains := world1.domains ++ [(5, { Domain.free with state := .live, ptroot := 0x70000 })] }
    coveredAt w 0x30000 1 4 0x10000 = false ∧ w.covered 0x30000 1 = true ∧ coveredAt w 0 2 4 0x10000 = false ∧ w.covered 0 2 = true := by
  decide

/-- The members of a redundant pair at a local counter: the first, and the second with what the first has left. -/
def pairing : State := { counting with thr := { counting.thr with paired := true } }

theorem wit_LocalCounterAdd_pair : counting.thr.paired = false ∧ pairing.thr.paired = true ∧
    pairing.sheafFind 1 0 1 pairing.curPart.stepNo pairing.thr.ctx.stamped = none ∧
    (pairing.thr.ctx.kctr[2]).toNat + (pairing.int 0).toNat < 2 ^ 64 ∧
    (let e : SheafEntry := ⟨1, 0, 1, 0, 0, 0x18, 0, 0, -1, 0, false, []⟩
     let s := { pairing with sheaf := [e] }
     s.sheafFind 1 0 1 s.curPart.stepNo s.thr.ctx.stamped = some e ∧ e.operand = s.int 0 ∧ e.result = s.thr.ctx.kctr[2]) := by
  decide

/-- Finite values and 1, and a product that is infinite. -/
theorem wit_FloatSpecialValues_more : (∃ p k, decodeNum .f32 0x3F800000 = .fin false (p + 1) k) ∧
    (∃ p k, decodeNum .bf16 0xBF80 = .fin true (p + 1) k) ∧ (numMul (decodeNum .f32 0x7F800000) (decodeNum .f32 0x3F800000)).1 = .inf false ∧
    decodeNum .f32 0xFF800000 = .inf true := by
  refine ⟨⟨0x7FFFFF, ?_⟩, ⟨0x7F, ?_⟩, ?_, rfl⟩ <;> first | exact ⟨_, rfl⟩ | rfl

/-- A stream entry of the window's first bytes, which `xext` of v1 does not wait for. -/
theorem wit_ViewsFlagsElements_stream :
    let s := withCtx vectors fun c => { c with stream := [⟨0, 0, 0, 0, 0, false, false, 0, 0, 0, [(0, 1)], [(0, 0)], 1⟩] }
    (∀ y ∈ s.thr.ctx.stream, ∀ z ∈ y.new, z.1 < winOff 1 s ∨ winOff 1 s + 4 ≤ z.1) ∧
    ¬ (∀ y ∈ s.thr.ctx.stream, ∀ z ∈ y.new, z.1 < winOff 0 s ∨ winOff 0 s + 4 ≤ z.1) := by
  decide

/-- Every slot of the unit stands for a partition that is switched out: one is claimed. -/
def claiming : State :=
  { tiled 0x644 ((List.range 64).map fun k => (k, { usedSlot with part := 1 })) with
    parts := [(0, part0), (1, { part0 with phase := .shadow })] }

theorem wit_MatrixWords_claim : allocSlot 0 (some 0) claiming = some 0 ∧ (slotAt 0 0 claiming).used = true ∧ allocSlot 0 none claiming = none := by
  decide

/-- A partition with step records; a redundant pair whose other member runs, has ended with this status, or with another. -/
def paired (x : Option (BitVec 8)) : State :=
  { exiting with
    thr := { exiting.thr with paired := true }
    rest := [{ thread0 [] with tid := 2, member := 1, paired := true, place := some 128, exitStatus := x }] }

theorem wit_ExitAndYield_kept : pairOther exiting = none ∧
    (let s := { exiting with parts := [(0, { part0 with keeps := true })] }
     s.unbalanced = none ∧ s.depth = 0 ∧ pairOther s = none ∧
     okIs (dropAll (s.drain.modCtx fun c => { c with pend := [] }) (List.range 16)) (fun u => u.curPart.keeps && u.thr.part == 0) = true) ∧
    ([none, some 5, some 6].all fun x => let s := paired x
     (s.unbalanced == none && s.depth == 0 && (pairOther s).map (·.exitStatus) == some x && (s.int 4).setWidth 8 == (5 : BitVec 8) &&
     okIs (dropAll (s.drain.modCtx fun c => { c with pend := [] }) (List.range 16)) (fun u => u.thr.part == 0))) = true := by
  decide

/-- The reply came while the thread waited for room in the ring. -/
theorem wit_SystemCallAndStep_served :
    let e : SheafEntry := ⟨1, 0, 1, 0, 0, 0x37, 0, 5, 99, 0, false, []⟩
    let s := { withCtx sample fun c => { c with stamped := 1 } with sheaf := [e] }
    let t := { s with thr := { s.thr with stall := some (.ring 3) } }
    t.thr.stall = some (.ring 3) ∧ t.sheafFind 1 0 1 t.curPart.stepNo (t.thr.ctx.stamped - 1) = some e := by
  decide

/-- A digit record that is not as it was written. -/
def badEntry : StreamEntry := { frozenEntry with dchk := Config.digitCheck 0 + 1 }

theorem badEntry_digits : State.digitsOk [badEntry] = false := by
  simp [State.digitsOk, badEntry, frozenEntry]

theorem wit_TrapReturn_digits :
    let s := withCtx trapped fun c => { c with dstack := c.dstack.map fun e => { e with frozen := [badEntry] } }
    s.unbalanced = none ∧ s.thr.ctx.dstack.map (fun e => (e.trap, e.frozen.length)) = [(true, 1)] ∧ State.digitsOk [badEntry] = false ∧
    (trapped.thr.ctx.dstack.all fun e => State.digitsOk e.frozen) = true := by
  refine ⟨by decide, by decide, badEntry_digits, by decide⟩

/-- An image of a redundant pair, for which the partition has two clusters, and one whose digit records are broken. -/
theorem wit_ContextImages_pair :
    (let h := { rival 3 with paired := true }
     let s := { imaged [(3, h)] with parts := [(0, { part0 with clusters := [0, 1] })], clusters := [(0, cluster0), (1, cluster0)] }
     (placeImage 0 h s).bind (fun k => (pairCluster 0 h.level h.cls k s).map fun j => k != j) = some true ∧ threadDigitsOk h = true ∧
     contCount 1 s < (s.world 1).contLimit ∧ s.rest = []) ∧
    (rival 3).paired = false ∧ threadDigitsOk (rival 3) = true := by
  decide

theorem wit_ContextImages_digits :
    threadDigitsOk { rival 3 with ctx := { (rival 3).ctx with stream := [badEntry] } } = false := by
  simp [threadDigitsOk, badEntry_digits]

/-- A hint word at a step. -/
theorem wit_StepRunsDecoded_hint : actions (placed 0x0000003E) = [.word 1] ∧ fetches (placed 0x0000003E) 0x0000003E = true ∧
    decodeWord 0x0000003E = .ok .nop ∧ actions (placed 0x0000017E) = [.word 1] ∧ fetches (placed 0x0000017E) 0x0000017E = true ∧
    decodeWord 0x0000017E = .ok (.hint 5) := by
  decide

/-- A host that reads shared memory, and stores to the slot of a world that has no key; its wait on a line of a peer that no link reaches. -/
def sharing : State :=
  { hosted with
    hub := { hosted.hub with share := [(1, (1, 0x100000))] }
    worlds := (hosted.worlds.map fun w => (w.1, { w.2 with ctrHandles := w.2.ctrHandles ++ [(5, ⟨paPeer 3 0x40, 0⟩)] })) }

theorem wit_HostRecords_shared :
    (¬ sharing.hub.stage < 7 ∧ sharedFrame sharedBase sharing = none ∧ sharedFrame (sharedBase + 0x10000) sharing = some (1, 0x100000) ∧
      hostHeld ⟨.hdm, sharedBase, 64, none⟩ sharing = false ∧ hostHeld ⟨.hdm, sharedBase + 0x10030, 16, none⟩ sharing = false ∧
      sharedBase % 64 + 64 ≤ 64 ∧ (sharedBase + 0x10030) % 64 + 16 ≤ 64) ∧
    slotOpen 5 hosted = true ∧
    (let s := { hosted with worlds := hosted.worlds.map fun w => (w.1, { w.2 with keyState := .empty }) }
     ¬ s.hub.stage < 7 ∧ slotOpen 5 s = false) := by
  decide

theorem wit_HostRecords_peer :
    (let s := after (.hostMemoryAccess ⟨.hdm, 5 * 64, 64, some (counterRecord 3 5 8 55 0x40)⟩) sharing
     match takeRecord 5 (· == 3) s with
     | some (bs, t) => recordAnswers waitAnswers 5 bs t && (NMap.get? (t.world 1).ctrHandles (cardNat bs 8 8)).any fun x => !t.pathReaches x.pa
     | none => false) = true ∧
    sharing.pathReaches (paPeer 3 0x40) = false ∧
    (let x : HostWait := ⟨18, paPeer 3 0x40, 5, some 0, 0x40, 1, .held⟩
     x.thr ≠ 0 ∧ ({ sharing with hostWaits := [x, { x with id := 19, verdict := .expired 4 }] } : State).now = 0) := by
  decide

/-- A wait that its home has ended at its limit; one that a slot gives up for; windows of units' results besides. -/
theorem wit_WaitsAndReplies_more :
    (waiting (waitFor (.mem 0x6040) 7 none none)).pathReaches 0x6040 = true ∧
    (let w := { waitFor (.mem 0x6040) 8 (some 5000) (some 12) with verdict := .expired 7 }
     let u := (waiting w).focus 1
     waitVerdict u.thr w u = .expired 7 ∧ coreHalted u.thr u = false ∧ u.thr.captured = false) ∧
    (let s := waiting (waitFor (.mem 0x6040) 8 none (some 12))
     s.thread? 1 = some s.thr ∧ inSlot s.thr s = true ∧ stillWaits s.thr s = true ∧ waitStart s.thr + 4000 = s.now) ∧
    (let w := waitFor (.mem 0x6080) 7 none none
     let u := (waiting w).focus 1
     ((u.modThr fun x => { x with wait := none }).deliverTrap (plainFault 0x21 w.cursor)).thr.stall = none) ∧
    (let h := (withCtx sample fun c => { c with
       pend := [⟨12, some (Cap.ofInt 5), none, 0, none⟩, ⟨11, some (Cap.ofInt 3), none, 3, none⟩] }).thr
     (∀ x ∈ h.ctx.pend, x.cmd = none) ∧ h.ctx.pend.filter (fun x => x.left = 0) = [] ++ [⟨12, some (Cap.ofInt 5), none, 0, none⟩]) := by
  decide

/-- Records that can be restored and one that cannot; waits that are not over, in a slot. -/
theorem wit_RunQueues_whole :
    ((thread 3 4 .ready).broken = false ∧ State.digitsOk (thread 3 4 .ready).ctx.stream = true) ∧
    (let h := { thread 3 4 .ready with broken := true }
     let s := { queued with rest := [h] }
     slotIsFree 0 1 s = true ∧ h ∈ queueFor 0 0 s ∧ s.thread? 3 = some h ∧ ¬ (h.broken = false)) ∧
    (let s := { queued with thr := { queued.thr with wait := some (waitFor (.mem 0x6040) 9 none none) }, ctrLines := [0x6040 / 64] }
     let u := s.focus 1
     u.thr.tid = 1 ∧ inSlot u.thr u = true ∧ u.thr.slotSince + 65536 ≤ u.cycle ∧ stillWaits u.thr u = true) ∧
    stillWaits (queued.focus 1).thr (queued.focus 1) = false := by
  decide

/-- No earlier choice of an engine is still to come, no add waits; a pause that lands nothing else; a unit's slot that has another
holder by now; a counter that is full. -/
theorem wit_EnginesAndUnits_more :
    (let s := working [(0, wideJob .queued), (1, emptyJob)] false false []
     choiceHeld true 0 1 (engineRequests 0 s) s = false) ∧
    addHeld (wideJob .running) 1 (working [(0, wideJob .running)] false false []) = false ∧
    (let s := working [(0, strayJob 0x30100)] false false []
     let t := landFlight 0 0 (inFlight 0 0 (strayJob 0x30100) s) s
     (jobAt 0 0 t).map (fun y => (y.state, y.world)) = some (.running, 1) ∧ t.faultQueueFull 1 = false) ∧
    ((readsFail q0 (strayJob 0x60100) (working [(0, strayJob 0x60100)] false false []) 0 0x12 = true)) ∧
    (let s := working [] false false [command 7 .arel false]
     slotIs 0 3 (command 7 .arel false).sinc s = true ∧
     readyEntry .arel 0 7 (working [] false false [{ command 7 .arel false with sinc := 4 }]) = some { command 7 .arel false with sinc := 4 } ∧
     slotIs 0 3 4 s = false) ∧
    (let s := withCtx (working [] false false [command 7 .acc true]) fun c => { c with kctr := c.kctr.set 5 (-1) }
     startedCmd 0 7 s = some (command 7 .acc true) ∧ 2 ^ 64 ≤ (s.thr.ctx.kctr[5]).toNat + 1) ∧
    (max (usedSlot.sinc.toNat + 1) usedSlot.next < 2 ^ 46 ∧ 2 ^ 46 ≤ max (usedSlot.sinc.toNat + 1) ({ usedSlot with next := 2 ^ 46 } : MSlot).next) := by
  decide

/-- A record-mode thread whose log has this answer later; a saved job that waits for a page. -/
theorem wit_TranslationEvents_more : answerHeld 0 3 asked = false ∧
    (let s := { asked with
       thr := { asked.thr with record := true, recGiving := [.counter 5, .answer 3], stall := some (.ats 0 3) } }
     (0, 3) ∈ s.hub.atsOut ∧ answerHeld 0 3 s = true) ∧
    (let j := { job1 .paused with fault := 0x11, faultAddr := 0x3010 }
     let s := { asked with parts := [(0, { part0 with savedJobs := [⟨0, 1, j⟩] })] }
     (s.part 0).savedJobs = [⟨0, 1, j⟩] ∧ pausedOn 0 3 j s = true) ∧
    ((asked.clusters.flatMap fun x => x.2.engine.entries.map fun y => (x.1, y)).filter fun y => pausedOn 0 3 y.2.2 asked).length = 1 := by
  decide

/-- A far caller that waits while its domain is killed; a call on its way into a domain that is killed; one that lands nowhere. -/
theorem wit_DomainsAndKills_calls :
    (((farAway.world 1).dom 0).state = .live ∧ ((farAway.world 1).dom 0).gen < 4095 ∧
      (farAway.thread? 1).map (fun g => (g.world, g.ctx.domain, g.status)) = some (1, 0, .gated)) ∧
    (((farAway.world 2).dom 3).state = .live ∧ (farAway.hub.hops.map fun x => (x.id, x.back, x.landing, x.orphan, x.gateWorld)) =
      [(hopId, false, none, false, 2)] ∧ ((farAway.world 2).gate 1).domain = 3 ∧ (farAway.threads.map fun g => (g.tid, g.world)) = [(1, 1)]) ∧
    (let s := farAway.modWorld 2 fun w => w.setDom 3 { w.dom 3 with state := .dead }
     domDead 2 3 ((s.world 2).dom 3).gen s = true) ∧
    (let s := { farAway with parts := [(0, part0)] }
     (s.world 2).landing = some 1 ∧ partOf 2 1 s = none) ∧
    (farBack.arrivalHeld 1 (.back 0) = false ∧ (farBack.hub.hops.map fun x => x.status) = [0]) := by
  decide

/-- A slot and a job that the incoming partition has in its save area; a save area and digit records that are whole, and broken ones. -/
theorem wit_SwitchAndRecovery_saved :
    (let y : SlotSnap := ⟨0, 3, usedSlot⟩
     let s := { part (fun p => { p with phase := .stopped, incoming := some 1 }) atStep with
       parts := [(0, { part0 with phase := .stopped, incoming := some 1 }), (1, { Partition.empty with phase := .shadow, world := 1, clusters := [0], savedSlots := [y] })] }
     (s.part 0).phase = .stopped ∧ (s.part 0).incoming = some 1 ∧ (s.part 1).savedSlots = [y]) ∧
    (let s := part (fun p => { p with phase := .entering }) atStep
     (s.part 0).folds = [] ∧ (s.part 0).saveBroken = false ∧ (slotHolders 0 s).all (fun h => State.digitsOk h.ctx.stream) = true ∧
     s.thread? 1 = some s.thr ∧ s.thr.place.isSome = true ∧ coreHalted s.thr s = false) := by
  decide

theorem wit_SwitchAndRecovery_digits :
    let s := withCtx (part (fun p => { p with phase := .entering }) atStep) fun c => { c with stream := [badEntry] }
    (slotHolders 0 s).map (fun h => h.ctx.stream.length) = [1, 0] ∧ State.digitsOk [badEntry] = false :=
  ⟨by decide, badEntry_digits⟩

/-- The step's first error, its undo log, a page snapshot, and what members have been. -/
theorem wit_SwitchAndRecovery_restore :
    ((erring.part 0).errors.find? fun y => needsReplay y erring) = some ⟨0x40, 2, 0x1000, 2, 0, false, true⟩ ∧
    ((erring.part 0).undo = [⟨0x2000 / 64, [(0x2000, 9)], []⟩] ∧ (erring.part 0).pages = [] ∧ (erring.part 0).mredGranules = [] ∧
      erring.isCounterLine 0x2000 = false ∧ regionOf 0x2000 = 0 ∧ erring.serves ⟨1, some 0⟩ 0x2000 = true) ∧
    ((erring.threads.map fun h => (h.tid, h.part, h.status)) = [(1, 0, .running), (2, 0, .running)] ∧
      ((erring.part 0).snaps.map fun h => h.tid) = [1, 2]) ∧
    (let s := part (fun p => { p with errors := [⟨0x43, 2, 0x1000, 2, 0, false, false⟩] }) erring
     ((s.part 0).errors.find? fun y => needsReplay y s) = some ⟨0x43, 2, 0x1000, 2, 0, false, false⟩) ∧
    (erring.thr.broken = false ∧ (∀ x ∈ erring.threads, x.tid = 1 → x = erring.thr)) ∧
    (let s := { erring with clusters := [(0, { cluster0 with cores := (List.range 16).map fun k => (k, ⟨if k = 0 then 1 else 0, 0, 0, false, 0, 0⟩) })] }
     otherSlot s.thr s = none) ∧
    (let h := { thread0 [] with paired := true }
     let s := { atStep with recAreas := [(1, ⟨h, []⟩)], parts := [(0, { part0 with clusters := [0, 1] })], clusters := [(0, cluster0), (1, cluster0)] }
     NMap.get? s.recAreas 1 = some ⟨h, []⟩ ∧ pairCluster h.part h.level h.cls h.cluster s = some 1) := by
  decide

/-! ## Witnesses: what reviews have added -/

/-- Sums that fit, of an access in cluster memory and in DEVICE; a store from a queue whose entry is still being made. -/
def pushing : State := withCtx framed fun c => { c with
  sq0 := [⟨5, none, false⟩, ⟨7, none, true⟩], stream := [⟨0, 0, 2, 0, 0, false, false, 0, 0, 0, [], [], 1⟩] }

theorem wit_Access_sums : effectiveFits (filled.reg 6) 0 0 8 filled = true ∧ effectiveFits (filled.reg 6) 2 0 16 filled = true ∧
    (let s := with11 (deviceAt 0xFFFC)
     effectiveFits (s.reg 11) 0 0 8 s = true) ∧
    (let s := with11 (deviceAt 0x20000)
     effectiveFits (s.reg 11) 0 0 8 s = true) ∧
    effectiveFits (sample.reg 9) 0 0 8 sample = true ∧ effectiveFits (sample.reg 8) 0 0 8 sample = true ∧
    (pushing.queue 2 = ⟨5, none, false⟩ :: [⟨7, none, true⟩] ∧ effectiveFits (pushing.reg 6) 2 0 16 pushing = true ∧ pushing.skipEffect = none ∧
      reaching pushing 6 2 0 8 needStore (fun ps _ => ps == [(0x2000, 8)]) = true ∧
      (pushing.thr.ctx.stream.map fun y => y.dkind.toNat) = [1 + 1]) := by
  decide

/-- A DEVICE capability of 2^63 bytes whose cursor and index sum to 2^64; every check before the bounds passes. -/
theorem wit_RefusedAccessTraps_sum :
    let s := with11 (cap 2 0x0FF 47 0x10000 (0xA000 <<< 48))
    let s := withCtx s fun c => { c with regs := c.regs.set 12 (Cap.ofInt (0x6000 <<< 48)) }
    effectiveFits (s.reg 11) 0 12 8 s = false ∧ s.givenEntry = none ∧ (s.reg 5).tag = false ∧
    okIs (s.checkRights s.who (s.reg 11) (effective (s.reg 11) 0 12 8 s) 8 needLoad 11) (fun _ => true) = true ∧
    okIs (s.checkRights s.who (s.reg 11) (effective (s.reg 11) 0 12 8 s) 8 needStore 11) (fun _ => true) = true := by
  decide

/-- A signalling NaN, quiet ones, and numbers of both signs, of both formats. -/
theorem wit_ReductionValues_float : (0x7F81 < 2 ^ (8 * accessSize 1) ∧ (decodeNum .bf16 0x7F81).isSNan = true) ∧
    ((decodeNum .f32 0x7FC00000).isSNan = false ∧ (decodeNum .f32 0x7FC00000).isNan = true) ∧
    ((decodeNum .f32 0xBF800000).isNan = false ∧ (decodeNum .bf16 0).isNan = false ∧ (decodeNum .bf16 0).isSNan = false) := by
  decide

/-- A pref of a sealed base. -/
theorem wit_PrefChangesBaseOnly_sealed : (sample.reg 8).sealed = true ∧ 2 ≤ (2 : BitVec 2).toNat := by decide

/-- Finite values of a float and of an integer format, NaN and infinities, and finite operands of an addition. -/
theorem wit_RoundingKeepsCodes_more : Fmt.e2m1 ∈ [Fmt.f32, .bf16, .e5m2, .e4m3, .e2m1] ∧ Fmt.t6 ∈ [Fmt.t8, .t6] ∧ Fmt.i8.isFloat = false ∧
    (∃ n m e, decodeNum .f32 0x3F800001 = .fin n m e) ∧ (∃ n m e, decodeNum .bf16 0x8000 = .fin n m e) :=
  ⟨by decide, by decide, rfl, ⟨_, _, _, rfl⟩, ⟨_, _, _, rfl⟩⟩

/-- No group value above a count, of a member that takes no part in a drop and of one that may join. -/
theorem wit_SwardArrivals_counts :
    (let s := withCtx counting fun c => { c with swtree := c.swtree.set 4 ⟨true, none⟩ }
     (∀ m ∈ memberCounts s (swKey s.thr 4) 4, (swValue s (swKey s.thr 4)).toNat ≤ m) ∧
     (swValue s (swKey s.thr 4)).toNat ≤ (ownCount 4 s).toNat + 1 ∧ s.thr.member = 0 ∧ ownTree 4 s = ⟨true, none⟩ ∧
     memberCounts s (swKey s.thr 4) 4 ≠ []) ∧
    (∀ m ∈ memberCounts counting (swKey counting.thr 6) 6, (swValue counting (swKey counting.thr 6)).toNat ≤ m) := by
  decide

/-- No other record of the thread; a command that finds the unit's places free. -/
theorem wit_MatrixWords_alone : plainRun plainTiles ∧ (∀ h ∈ plainTiles.rest, h.tid ≠ plainTiles.thr.tid) := by
  unfold plainRun; decide

/-- A landed far call whose caller waits for it, and one whose caller is gone. -/
def landed : State := farLanded.focus ((farLanded.rest.map fun h => h.tid).headD 0)
def landedOrphan : State := { landed with hub := { landed.hub with hops := landed.hub.hops.map fun y => { y with orphan := true } } }

theorem wit_GateCallAndReturn_far : ([landed, landedOrphan].all fun s =>
      s.unbalanced == none && (s.landAll.thr.ctx.dstack.map fun e => (e.trap, e.far, e.hop)) == [(false, true, some hopId)]) = true ∧
    (landed.hub.hops.map fun y => (y.id, y.back, y.orphan)) = [(hopId, false, false)] ∧
    (landedOrphan.hub.hops.map fun y => (y.id, y.back, y.orphan)) = [(hopId, false, true)] := by
  decide

/-- The other threads of the world stand in no core's slot. -/
theorem wit_GateWords_resident :
    let s := { gated with rest := [thread 2 3 .ready, { thread 3 3 .running with part := 1 }], parts := [(0, part0), (1, { part0 with phase := .shadow })] }
    (s.rest.all fun h => !resident h s) = true := by
  decide

/-- A full fault queue before faults that need a record: by their code, of class E, and for want of a gate. -/
theorem wit_TrapEntry_full : queueFull.faultQueueFull 1 = true ∧ (plainFault 0x38 0).code = 0x38 ∧ (plainFault 0x18 0).code = 0x18 ∧
    (State.classE 0x40 = true ∧ queueFull.isRepeat 0x40 = false) ∧ (State.classE 0x10 = false ∧ queueFull.trapGate? = none) := by
  decide

/-- The pieces of an image stand where the home takes stores. -/
theorem wit_ContextImages_pieces :
    okIs (State.translatePieces imaging imaging.who 1 needWrite12 (piecesAt (pageStep 1) (imaging.reg 6).addr 65536))
      (fun x => x.1 == [(0x2000, 0xE000), (0x10000, 0x2000)] && x.2.ctrLines.isEmpty) = true ∧
    piecesApart [(0x2000, 0xE000), (0x10000, 0x2000)] ∧
    ∀ s : State, s.ctrLines = [] → ∀ x, inPieces [(0x2000, 0xE000), (0x10000, 0x2000)] x → takesStore s q0 x := by
  refine ⟨by decide, by unfold piecesApart; decide, ?_⟩
  rintro s hs x ⟨p, hp, h1, h2⟩
  have hx : x < 2 ^ 24 := by
    simp only [List.mem_cons, List.not_mem_nil, or_false] at hp
    rcases hp with rfl | rfl <;> simp only at h2 <;> omega
  exact takes_own _ _ hx (by unfold State.isCounterLine; rw [hs]; rfl)

/-- Waits of the host whose turn it is; a record and a completion entry that another key has sealed. -/
theorem wit_HostRecords_sealed :
    (let s := { replying with hostWaits := replying.hostWaits.filter fun x => x.id == 12 || x.id == 17 }
     (s.hostWaits.all fun x => !lineBefore x.pa (hostKey x) s) = true ∧ s.hostWaits.length = 2) ∧
    (replying.hostWaits.find? fun x => x.id == 16 && !lineBefore x.pa (hostKey x) replying).isSome = true ∧
    (let s := { hosted with seals := [(slotPa 5 / 64, ⟨1, 4⟩)] }
     ¬ s.hub.stage < 7 ∧ slotBusy 5 s = false ∧ NMap.get? s.hub.slotPart 5 = some 0 ∧ slotOpen 5 s = true ∧ slotOpens 5 s = false) ∧
    (let s := { hosted with hub := { hosted.hub with compWorld := [(7, ⟨1, 4⟩)] } }
     NMap.get? s.hub.compWorld 7 = some ⟨1, 4⟩ ∧ s.keyAt 1 (completionPa 7) ≠ some 4) := by
  decide

/-- A wait on a peer's line that bears another generation than its home now compares. -/
def strange (pa : Nat) : WaitReq := { waitFor (.mem pa) 7 none none with gen := some (Config.peerGen 0 3 0 + 1) }
def reachingPeer (w : WaitReq) : State := { waiting w with hub := { hub0 with links := 1, peerPaths := [(3, 1)] } }

theorem strange_refused (pa : Nat) (u : State) (h0 : u.tick = 0) (h1 : u.peerReached 3 = true) (h2 : (pa - 4 * regionSize) / 2 ^ 48 % 4096 = 3)
    (h3 : (pa - 4 * regionSize) % 2 ^ 48 / 2 ^ 16 = 0) : genRefused (strange pa) u = true := by
  unfold genRefused
  simp only [strange, waitFor, State.peerGenOk, h0, h1, h2, h3]
  generalize Config.peerGen 0 3 0 = x
  simp

def peerLine : Nat := 4 * regionSize + 3 * 2 ^ 48

theorem strange_waits (pa : Nat) (hp : pa = peerLine) : (strange pa).verdict = .held ∧
    genRefused (strange pa) (reachingPeer (strange pa)) = true ∧
    waitVerdict (reachingPeer (strange pa)).thr (strange pa) (reachingPeer (strange pa)) = .broken 0x06 ∧
    genRefused (waitFor (.mem 0x6040) 7 none none) (waiting (waitFor (.mem 0x6040) 7 none none)) = false := by
  have h : genRefused (strange pa) (reachingPeer (strange pa)) = true :=
    strange_refused pa _ rfl (by show ((1 : BitVec 32) &&& NMap.getD [(3, 1)] 3 0 != 0) = true; decide) (by rw [hp]; unfold peerLine; omega)
      (by rw [hp]; unfold peerLine; omega)
  refine ⟨rfl, h, ?_, by decide⟩
  unfold waitVerdict
  rw [show (strange pa).verdict = .held from rfl]
  simp only [h, if_true]

theorem wit_WaitsAndReplies_gen : (strange peerLine).verdict = .held ∧
    genRefused (strange peerLine) (reachingPeer (strange peerLine)) = true ∧
    waitVerdict (reachingPeer (strange peerLine)).thr (strange peerLine) (reachingPeer (strange peerLine)) = .broken 0x06 ∧
    genRefused (waitFor (.mem 0x6040) 7 none none) (waiting (waitFor (.mem 0x6040) 7 none none)) = false :=
  strange_waits peerLine rfl

/-- Waits whose value no record-mode log has for later; an entry of a store queue that the oldest stream entry makes. -/
theorem wit_WaitsAndReplies_order :
    (let w := waitFor (.mem 0x6040) 7 none (some 12)
     let u := (waiting w).focus 1
     waitHeld u.thr w 7 = false ∧ waitHeld u.thr w (expiryValue u.thr w u) = false) ∧
    (let s := withCtx sample fun c => { c with
       sq0 := [⟨3, none, true⟩, ⟨5, none, false⟩, ⟨6, none, false⟩], stream := [⟨0, 0, 2, 0, 0, false, false, 0, 0, 0, [], [], 1⟩] }
     inSlot s.thr s = true ∧ (s.thr.ctx.stream.map fun e => e.dkind.toNat) = [2] ∧
     s.thr.ctx.sq0 = [⟨3, none, true⟩] ++ ⟨5, none, false⟩ :: [⟨6, none, false⟩]) := by
  decide

/-- No fault waits for its queue. -/
theorem wit_RunQueues_pending : faultPending queued.thr = false ∧ faultPending (stalled 2 (.faultQueue (plainFault 0x38 0))) = true := by decide

/-- A card of `n` bytes, from DEVICE to cluster memory. -/
def wide (n : Nat) : List Byte := cardBytes (deviceAt 0x10100) ((localAt 0x7000).setPerm 0x02F) n 1023 300 300

/-- The wide card with a completion add: to k5 of the thread, or to the counter line at 0x6040, in byte mode or one at its end. -/
def countingCard (n kind : Nat) (addm : Bool) : List Byte :=
  (wide n).take 112 ++ toLe 8 (1023 + (if addm then 2 ^ 16 else 0) + kind * 2 ^ 17 + 5 * 2 ^ 19) ++ toLe 8 0 ++
    toLe 16 (localAt 0x6040).bits.toNat ++ (wide n).drop 144
def countingJob (n kind : Nat) (addm : Bool) (landed : List Nat) (st : JobState) : Job :=
  { job1 st with card := countingCard n kind addm, ccapTag := true, landed := landed }

/-- The line at 0x6040 and k5 hold `v`. -/
def countingCopy (v : Word64) (j : Job) : State :=
  let s := working [(0, j)] false false []
  { withCtx s fun c => { c with kctr := c.kctr.set 5 v } with
    ctrLines := [0x6040 / 64], mem := Cells.write [] 0x6040 (toLe 8 v.toNat) }

/-- A running job's second sector may land; `p` holds of the counter's place and of the state before the data is written. -/
def mayLand (s : State) (p : Nat → State → Bool) : Bool := (jobAt 0 0 s).any fun j =>
  j.state == .running && engineRuns 0 j s && decide (1 < sectorCount j.card) && !(j.landed.contains 1) && decide (1 < firstUnlanded j + 4096) &&
  decide (1 = firstUnlanded j ∨ j.ascendTo ≤ firstUnlanded j) && !draining 0 j s && !addHeld j 1 s && !jobKilled j s &&
  match sectorReads q0 j s (sectorRuns j.card 1) with
  | .error _ => false
  | .ok (parts, t) => match sectorWrites q0 j t parts with
    | .error _ => false
    | .ok (chunks, u) => match counterPlace j u with
      | .error _ => false
      | .ok (pa, v) => p pa (((sendWrites j (cardCap j.card 16 j.dstTag) chunks v).recordChunks j.part chunks).storeBytes q0 0 chunks).1

/-- Completion adds in the job's own counter and in memory, that fit and that do not; a line that is no counter line; a fault queue with room. -/
theorem wit_EnginesAndUnits_counts :
    (let j := countingJob 300 1 false [] .running
     mayLand (countingCopy 7 j) (fun _ z => decide (7 + sectorBytes j.card 1 < 2 ^ 64) && !z.faultQueueFull 1) = true ∧
     mayLand (countingCopy (-1) j) (fun _ z => decide (2 ^ 64 ≤ (-1 : Word64).toNat + sectorBytes j.card 1) && !z.faultQueueFull 1) = true ∧
     (countingCopy 7 j).thr.tid = j.tid ∧ (countingCopy 7 j).rest = [] ∧ ctlCkind (cardCtl j.card) = 1 ∧ sectorCounts j = true ∧
     carriesTags j = false) ∧
    (let j := countingJob 300 2 true [0] .running
     mayLand (countingCopy 7 j) (fun pa z => pa == 0x6040 && (ctrRefusal q0 pa z).isNone && z.readNat pa 8 == 7) = true ∧
     mayLand (countingCopy (-1) j) (fun pa z => (ctrRefusal q0 pa z).isNone && decide (2 ^ 64 ≤ z.readNat pa 8 + 1)) = true ∧
     mayLand { countingCopy 7 j with ctrLines := [] } (fun pa z => (ctrRefusal q0 pa z) == some 0x21) = true ∧
     ctlCkind (cardCtl j.card) = 2 ∧ sectorCounts j = true ∧ (countingCopy 7 j).sheaf = []) ∧
    (let j := countingJob 300 1 true [] .running
     sectorCounts j = false ∧ mayLand (countingCopy 7 j) (fun _ _ => true) = true) ∧
    (let j := countingJob 0 1 true [] .queued
     let s := countingCopy 7 j
     jobAt 0 0 s = some j ∧ emptyHeld j s = false ∧ edgesOver 0 j s = true ∧ engineRuns 0 j s = true ∧ draining 0 j s = false ∧
     choiceHeld true 0 1 (engineRequests 0 s) s = false ∧ jobKilled j s = false ∧ sectorCount j.card = 0) := by
  decide

theorem counting_copy_plain : plainRun (countingCopy 7 (countingJob 300 1 false [] .running)) := by unfold plainRun; decide

/-- META words of every state, over an entry that holds a job and over a free one. -/
theorem wit_EnginesAndUnits_meta : ([1, 2, 3, 5].all fun n => decide ((0x1208 + n : Word64).toNat % 8 ≠ 0)) = true ∧
    (engineOf 0 (withJob .paused true true copying)).stopped = true ∧ jobAt 0 0 (withJob .paused true true copying) = some (job1 .paused) ∧
    jobAt 0 7 (withJob .paused true true copying) = none := by
  decide

/-- An old answer still to come; a 16 GiB frame on its way back that no line holds; codes of failure. -/
theorem wit_TranslationEvents_stale :
    (let s := { asked with hub := { asked.hub with atsStale := [(0, 3)] } }
     (0, 3) ∈ s.hub.atsStale) ∧ (0, 3) ∉ asked.hub.atsStale ∧
    (let s := { asked with worlds := [(1, { world1 with freeing := [⟨0x400000000, 2⟩] })] }
     (s.world 1).freeing = ⟨0x400000000, 2⟩ :: [] ∧ frameHeld ⟨0x400000000, 2⟩ s = false) ∧
    frameHeld ⟨0x100000, 0⟩ asked = false ∧ PriCode.responseFailure ≠ .success ∧ PriCode.invalidRequest ≠ .success := by
  decide

/-- No fault waits, no page of the killed domain is held, and the partition runs. -/
theorem wit_DomainsAndKills_runs :
    ((farAway.thread? 1).map faultPending) = some false ∧
    (pagesHeld ⟨6, 1, none, [.hbm]⟩ nested = false ∧ partRuns 0 nested = true ∧ partRuns 0 inner = true) := by
  decide

/-- No row in repair and no turnover that waits. -/
theorem wit_KeysAndTenancy_quiet : (keyed .rekeying 0).quiet (2 * regionSize / 64 * 64) = false ∧
    turnHeld 1 ({ sample with hub := { hub0 with turnBusy := true, turnWorld := 1, turnStage := 3 } } : State).nextTick = false := by
  decide

/-- Two slots and two jobs that the incoming partition has in its save area; a thread whose context block cannot be restored; a fold flit at a
held line. -/
theorem wit_SwitchAndRecovery_several :
    (let s := { atStep with
       parts := [(0, { part0 with phase := .stopped, incoming := some 1 }), (1, { Partition.empty with
         phase := .shadow, world := 1, clusters := [0], savedSlots := [⟨0, 3, usedSlot⟩, ⟨0, 4, usedSlot⟩] })] }
     (s.part 0).phase = .stopped ∧ (s.part 0).incoming = some 1 ∧ (s.part 1).savedSlots.length = 2 ∧
     (s.part 1).savedSlots.Pairwise fun y z => y.cluster ≠ z.cluster ∨ y.slot ≠ z.slot) ∧
    (let s := part (fun p => { p with phase := .entering, savedJobs := [⟨0, 63, job1 .running⟩, ⟨0, 2, job1 .queued⟩] }) atStep
     (s.part 0).phase = .entering ∧ foldsHeld 0 s = false ∧ (s.part 0).savedJobs.length = 2 ∧
     (s.part 0).savedJobs.Pairwise fun y z => y.cluster ≠ z.cluster ∨ y.entry ≠ z.entry) ∧
    (let s := part (fun p => { p with phase := .entering }) atStep
     contextWhole s.thr = true ∧ (∀ g ∈ s.threads, g.tid = 1 → g = s.thr)) ∧
    (let s := part (fun p => { p with phase := .entering }) { atStep with thr := { atStep.thr with broken := true } }
     s.thread? 1 = some s.thr ∧ (s.part 0).folds = [] ∧ contextWhole s.thr = false ∧ (∀ g ∈ s.threads, g.tid = 1 → g = s.thr) ∧
     s.thr.part = 0 ∧ s.thr.place.isSome = true ∧ coreHalted s.thr s = false) ∧
    ((atStep.threads.filter fun h => h.status == .waiting).length = 0) := by
  decide

/-- A redundant pair whose second member has stamped one operation more than the first, and a member that waits without a slot. -/
def strayPair : State :=
  { atStep with
    thr := { atStep.thr with paired := true }
    rest := [{ atStep.thr with tid := 2, member := 1, paired := true, place := none, status := .waiting, ctx := { atStep.thr.ctx with stamped := 1 } }] }

theorem wit_SwitchAndRecovery_stray : boundaryDue 0 strayPair = true ∧
    ((pairStray (membersOf 0 strayPair) strayPair).map fun h => (h.tid, (strayPair.focus h.tid).thr == h)) = some (2, true) ∧
    (strayPair.focus 2).isRepeat 0x43 = false ∧ strayPair.faultQueueFull 1 = false ∧
    (let s := { atStep with rest := [{ waitsStep with status := .waiting, place := none }] }
     boundaryDue 0 s = true ∧ pairStray (membersOf 0 s) s = none ∧ (s.threads.map fun h => h.status) = [.running, .waiting]) := by
  decide

/-- A fold flit whose line stands at the pointer of a sweep. -/
theorem wit_SwitchAndRecovery_folds :
    (part (fun p => { p with phase := .entering, folds := [flit none .counterRead] }) sweeping).part 0 =
      { part0 with phase := .entering, folds := [flit none .counterRead] } ∧
    foldsHeld 0 (part (fun p => { p with phase := .entering, folds := [flit none .counterRead] }) sweeping) = true := by
  refine ⟨by decide, ?_⟩
  have h : flitHeld (flit none .counterRead) (part (fun p => { p with phase := .entering, folds := [flit none .counterRead] }) sweeping)
      = flitHeld (flit none .counterRead) sweeping := rfl
  show ((flit none .counterRead) :: []).any _ = true
  simp only [List.any_cons, List.any_nil, Bool.or_false]
  exact h.trans wit_PlatformEvents_held.2.2

/-- A thread whose fault waits for its queue, and one without. -/
theorem wit_StepRunsDecoded_pending :
    (let s := { placed 0x200208E1 with thr := { (placed 0x200208E1).thr with stall := some (.faultQueue (plainFault 0x38 0)) } }
     s.inputs = [] ∧ actions s = [.word 1] ∧ (s.focus 1).thr.stall = some (.faultQueue (plainFault 0x38 0))) ∧
    ((placed 0x200208E1).focus 1).thr.stall = none := by
  decide

/-! ## One step: values worked out by hand from the rules -/

/-- Register `d` holds the integer `v` after the word. -/
def givesInt (i : Instr) (s : State) (d : RegNum) (v : Word64) : Bool := nextIs (exec i s) fun t => t.reg d == Cap.ofInt v && t.pc == s.pc + 4

theorem test_add_scaled : givesInt (.add 3 4 4 11) sample 11 45 = true := by decide
theorem test_sub_wraps : givesInt (.sub 0 4 5 11) sample 11 (-8) = true := by decide
theorem test_mulh_signed : givesInt (.mulh 4 5 11) sample 11 (-1) = true := by decide
theorem test_shl_modulo_64 : givesInt (.shl 5 4 11) sample 11 0xA000000000000000 = true := by decide
theorem test_slo_unsigned : givesInt (.slo 0 4 5 11) sample 11 0 = true := by decide
theorem test_slt_signed : givesInt (.slt 0 4 5 11) sample 11 1 = true := by decide
theorem test_addi_sign_extends : givesInt (.addi 0x1FFF 4 11) sample 11 4 = true := by decide
theorem test_ahi_high_bits : givesInt (.ahi 0x100000 11) sample 11 0xFFFFFFFE00000000 = true := by decide
theorem test_a0_discards : nextIs (exec (.add 0 4 4 0) sample) (fun t => t.reg 0 == Cap.null) = true := by decide

theorem test_cpaddr_keeps_tag : nextIs (exec (.cpaddr 4 6 11) sample) (fun t => (t.reg 11).tag && t.int 11 == 5) = true := by decide
/-- The spec's example of an exponent: a length above 2^16 takes e = 1. -/
theorem test_cpbound_exponent : nextIs (exec (.cpbound 11 6 12) (with11 (Cap.ofInt 0x10001)))
    (fun t => (t.reg 12).expo == 1 && (t.reg 12).base == 0x2000 && (t.reg 12).top == 0x12002) = true := by decide

theorem test_call_links : nextIs (exec (.call 3 1) sample) (fun t => t.pc == 0x100C && (t.reg 1).sealed && t.int 1 == 0x1004) = true := by
  decide
theorem test_enter_overlaps : nextIs (exec (.enter 4 1) sample) (fun t => t.thr.ctx.wbase == 1984 && t.thr.ctx.fs == 256) = true := by
  decide

/-- Bytes come lowest first. -/
theorem test_ld_little_endian : givesInt (.ld 0 0 0 2 0 6 11) filled 11 0x04030201 = true := by decide
theorem test_ld_lookahead : nextIs (exec (.ld 0 0 2 2 0 6 11) filled) (fun t => t.int 11 == 0 && t.thr.ctx.pend.map (·.left) == [2]) = true := by
  decide
theorem test_st_own_base : nextIs (exec (.st 0 2 3 1 6 6) sample) (fun t => t.readNat 0x2000 8 == 0x2000 && t.int 6 == 0x2008) = true := by
  decide
theorem test_mred_min_signed : nextIs (exec (.mredMin 0 0 5 6 11) filled) (fun t => t.readNat 0x2000 1 == 0xFD && t.int 11 == 1) = true := by
  decide
theorem test_ctadd_memory : nextIs (exec (.ctadd 0 0 1 4 6 11) counting) (fun t => t.readNat 0x6040 8 == 8 && t.int 11 == 3) = true := by
  decide
theorem test_ctadd_overflow : nextIs (exec (.ctadd 0 0 0 4 2 11) counting) (fun t => t.thr.status == .faulted && t.pc == 0x1000) = true := by
  decide
theorem test_ctwait_waits : nextIs (exec (.ctwait 0 1 4 6) counting) (fun t => t.thr.wait.isSome && t.pc == 0x1000) = true := by decide

/-- 1.0 + 1.0 = 2.0 in f32 and bf16; a halfway case goes to the even neighbour; the greatest value overflows to infinity. -/
theorem test_float_add : floatAdd .f32 0 0x3F800000 0x3F800000 = (0x40000000, 0) ∧ floatAdd .bf16 0 0x3F80 0x3F80 = (0x4000, 0) ∧
    floatAdd .f32 0 0x4B800000 0x3F800000 = (0x4B800000, fInexact) ∧
    floatAdd .f32 0 0x7F7FFFFF 0x7F7FFFFF = (0x7F800000, fOverflow ||| fInexact) := by
  decide
theorem test_float_divide : floatDiv .f32 0 0x3F800000 0x40000000 = (0x3F000000, 0) ∧ floatDiv .f32 0 0x3F800000 0 = (0x7F800000, fDivZero) ∧
    floatSqrt .f32 0 0x40800000 = (0x40000000, 0) := by
  decide
theorem test_vadd_wraps : nextIs (exec (.vadd .i8 1 0 2) (withCtx sample fun c => { c with win := [(0, 200), (64, 100)] }))
    (fun t => elem .i8 (vecOfBytes (t.winRead (winOff 2 t) 64)) 0 == 44) = true := by
  decide
theorem test_xli_sign_extends : nextIs (exec (.xli 0xFFFE .i32 2) sample)
    (fun t => elem .i32 (vecOfBytes (t.winRead (winOff 2 t) 64)) 15 == 0xFFFFFFFE) = true := by
  decide

theorem test_mma_accepts : nextIs (exec (.mmaAcc 3 1 0 4) plainTiles) (fun t => (t.cluster 0).mat.cmds.length == 1) = true := by decide
theorem test_cpyj_queues : nextIs (exec (.cpyj 6) copying) (fun t => (jobAt 0 0 t).map (·.state) == some .queued) = true := by decide
theorem test_spawn_pays : nextIs (exec (.spawn 0 7 11) copying) (fun t => t.thr.ctx.allot == 700 && t.rest.map (·.ctx.allot) == [300]) = true := by
  decide
theorem test_gcall_enters : nextIs (exec (.gcall 4) gated) (fun t => t.pc == 0x4000 && t.thr.ctx.fs == 256 && t.depth == 1) = true := by
  decide
theorem test_gret_returns : nextIs (exec .gret called) (fun t => t.pc == 0x1004 && t.depth == 0) = true := by decide
theorem test_illegal_word_traps : nextIs (exec .illegalInstruction (withCtx gated fun c => { c with stream := [] }))
    (fun t => t.pc == 0x4000 && t.thr.ctx.trapCause.extractLsb' 0 8 == 0x01 && t.thr.ctx.trapPc == 0x1000) = true := by
  decide
theorem test_tret_skip : nextIs (exec .tretSkip trapped) (fun t => t.pc == 0x1004 && t.reg 4 == sample.reg 4) = true := by decide
theorem test_srd_trap_registers : givesInt (.srd 0x811 11) trapped 11 0x1234 = true := by decide
theorem test_step_waits : nextIs (exec .step sample) (fun t => t.thr.stall == some .boundary && t.pc == 0x1000) = true := by decide
theorem test_boundary_counts : nextIs (exec (.stepBoundary 0) atStep) (fun t => (t.part 0).stepNo == 1 && t.thr.ctx.code.cursor == 0x1004) = true := by
  decide
/-- The word that the table's bits place where a step fetches runs as the first word after reset. -/
theorem test_first_word : nextIs (step (State.reset.withFetchWord 32 0x9C402102)) (fun t => t.int 4 == -3192) = true := by decide

/-! ## A program comes to run from nothing: a record of the host is performed, its thread takes a slot -/

theorem test_launch_then_take : (let s := after (.launchRecord 5) (storing (launchBytes 1 9 1 1 4))
    nextIs (exec (.continuationTake 1 0) { s with rest := s.rest.filter fun h => h.launch.isSome })
      fun t => (t.threads.any fun h => h.status == .running && h.ctx.code.cursor == 0xC && h.place == some 8)) = true := by
  decide

end Sys2Proof.Tests
end

section
/-! Threads between their words (O53): what the events do that end a wait, park a thread, land a late result, complete a stream entry and
answer a system call. One lemma says when an event happens, others what its effect leaves. -/

namespace Sys2Proof.Machine

open Sys2Proof

/-! ## Reads at the home of a counter line -/

theorem leNat_lt (bs : List Byte) : leNat bs < 256 ^ bs.length := by
  induction bs with
  | nil => simp [leNat]
  | cons b r ih =>
    have hb := b.isLt
    simp only [leNat, List.length_cons, Nat.pow_succ]
    omega

theorem State.readNat_lt (s : State) (pa n : Nat) : s.readNat pa n < 256 ^ n := by
  have h := leNat_lt (s.readMem pa n)
  rwa [State.readMem, Cells.read_length] at h

/-- The comparison of a doubleword in memory with a threshold is one of numbers. -/
theorem State.le_readNat_iff (s : State) (pa : Nat) (thr : Word64) :
    thr ≤ BitVec.ofNat 64 (s.readNat pa 8) ↔ thr.toNat ≤ s.readNat pa 8 := by
  have h : s.readNat pa 8 < 2 ^ 64 := s.readNat_lt pa 8
  rw [BitVec.le_def, BitVec.toNat_ofNat, Nat.mod_eq_of_lt h]

theorem genRefused_iff (w : WaitReq) (s : State) :
    genRefused w s = true ↔ ∃ pa g, w.ctr = .mem pa ∧ w.gen = some g ∧ s.peerGenOk (pa - 4 * regionSize) g = false := by
  unfold genRefused
  cases w.ctr <;> cases w.gen <;> simp

theorem waitVerdict_of_genRefused {w : WaitReq} {s : State} (h : Thread) (hv : w.verdict = .held) (hg : genRefused w s = true) :
    waitVerdict h w s = .broken 0x06 := by
  simp [waitVerdict, hv, hg]

/-- What the home of a line that a path reaches says of a wait. -/
theorem waitVerdict_of_line {w : WaitReq} {s : State} {pa : Nat} (h : Thread) (hv : w.verdict = .held) (hc : w.ctr = .mem pa)
    (hp : s.pathReaches pa = true) (hg : genRefused w s = false) :
    waitVerdict h w s = match ctrRefusal ⟨h.world, some h.cluster⟩ pa s with
      | some c => .broken c
      | none => if w.thr.toNat ≤ s.readNat pa 8 then .met (BitVec.ofNat 64 (s.readNat pa 8)) else .held := by
  cases hr : ctrRefusal ⟨h.world, some h.cluster⟩ pa s <;> simp [waitVerdict, hv, hc, hg, lineVerdict, hp, hr, State.le_readNat_iff]

/-! ## Updates of one thread -/

@[simp] theorem State.modThread_mem (s : State) (t : Nat) (f : Thread → Thread) : (s.modThread t f).mem = s.mem := by
  unfold State.modThread; split <;> rfl

theorem State.modThread_own {s : State} (f : Thread → Thread) (h : s.thr.status ≠ .vacant) :
    s.modThread s.thr.tid f = { s with thr := f s.thr } := by
  simp [State.modThread, h]

/-- An update of threads reaches the thread whose word issues, or leaves it as it is. -/
theorem State.modThread_thr (s : State) (t : Nat) (f : Thread → Thread) :
    (s.modThread t f).thr = s.thr ∨ (s.modThread t f).thr = f s.thr := by
  unfold State.modThread
  split
  · exact .inr rfl
  · exact .inl rfl

/-! ## Arrivals of record mode (R393) -/

@[simp] theorem State.noteArrival_mem (t : Nat) (v : Arrival) (s : State) : (s.noteArrival t v).mem = s.mem := by
  unfold State.noteArrival
  repeat' split
  all_goals simp [State.logEvent]

/-- An arrival changes no more of the thread than where its record-mode log stands. -/
theorem State.noteArrival_thr (t : Nat) (v : Arrival) (s : State) :
    ∃ l b, (s.noteArrival t v).thr = { s.thr with recGiving := l, record := b } := by
  have same : ∃ l b, s.thr = { s.thr with recGiving := l, record := b } := ⟨s.thr.recGiving, s.thr.record, rfl⟩
  have moved : ∀ (u : State) (f : Thread → Thread), u.thr = s.thr → (∃ l b, f s.thr = { s.thr with recGiving := l, record := b }) →
      ∃ l b, (u.modThread t f).thr = { s.thr with recGiving := l, record := b } := by
    intro u f hu hf
    rcases u.modThread_thr t f with h | h <;> rw [h, hu]
    · exact same
    · exact hf
  unfold State.noteArrival
  split
  · exact same
  · split
    · exact same
    · split
      · split <;> exact moved _ _ rfl ⟨_, _, rfl⟩
      · split
        · exact same
        · split
          · exact moved _ _ rfl ⟨_, _, rfl⟩
          · exact same

section
variable (s : State) (v : Word64)

@[simp] theorem State.noteCounter_mem : (s.noteCounter v).mem = s.mem := State.noteArrival_mem ..

@[simp] theorem State.noteCounter_ctx : (s.noteCounter v).thr.ctx = s.thr.ctx := by
  obtain ⟨l, b, h⟩ := State.noteArrival_thr s.thr.tid (.counter v) s
  rw [State.noteCounter, h]

@[simp] theorem State.noteCounter_status : (s.noteCounter v).thr.status = s.thr.status := by
  obtain ⟨l, b, h⟩ := State.noteArrival_thr s.thr.tid (.counter v) s
  rw [State.noteCounter, h]

@[simp] theorem State.noteCounter_wait : (s.noteCounter v).thr.wait = s.thr.wait := by
  obtain ⟨l, b, h⟩ := State.noteArrival_thr s.thr.tid (.counter v) s
  rw [State.noteCounter, h]

@[simp] theorem State.noteCounter_reg (r : RegNum) : (s.noteCounter v).reg r = s.reg r := by
  simp only [State.reg_eq, State.noteCounter_ctx]

@[simp] theorem State.noteCounter_pc : (s.noteCounter v).pc = s.pc := by
  simp only [State.pc, State.noteCounter_ctx]

end

/-- A thread that keeps no record-mode log notes nothing. -/
theorem State.noteArrival_of_no_record {s : State} (v : Arrival) (hs : s.thr.status ≠ .vacant) (hr : s.thr.record = false) :
    s.noteArrival s.thr.tid v = s := by
  simp [State.noteArrival, State.thread?, hs, hr]

/-! ## A thread that wakes up -/

/-- A thread that leaves its slot keeps all of its context but its stream entries, which are set aside. -/
theorem State.leaveSlot_ctx (s : State) (h : Thread) : ∃ l, (s.leaveSlot h).ctx = { h.ctx with stream := l } := by
  unfold State.leaveSlot
  split
  · exact ⟨h.ctx.stream, rfl⟩
  · exact ⟨_, rfl⟩

@[simp] theorem State.leaveSlot_wait (s : State) (h : Thread) : (s.leaveSlot h).wait = h.wait := by
  unfold State.leaveSlot; split <;> rfl

theorem makeReady_own {s : State} (h : s.thr.status ≠ .vacant) :
    makeReady s.thr.tid s = { s with thr := rejoin s s.thr, nextId := s.nextId + 1 } := by
  rw [makeReady, State.modThread_own _ h]; rfl

/-- What waking up does to the focused thread and what it leaves. -/
structure WokeUp (s t : State) : Prop where
  mem : t.mem = s.mem
  wait : t.thr.wait = s.thr.wait
  status : t.thr.status = if s.thr.status = .waiting then .ready else s.thr.status
  ctx : ∃ l, t.thr.ctx = { s.thr.ctx with stream := l }

namespace WokeUp
variable {s t : State}

theorem reg (h : WokeUp s t) (r : RegNum) : t.reg r = s.reg r := by
  obtain ⟨l, hl⟩ := h.ctx
  simp only [State.reg_eq, hl]

theorem pc (h : WokeUp s t) : t.pc = s.pc := by
  obtain ⟨l, hl⟩ := h.ctx
  simp only [State.pc, hl]

theorem regMarks (h : WokeUp s t) : t.thr.ctx.regMarks = s.thr.ctx.regMarks := by
  obtain ⟨l, hl⟩ := h.ctx
  simp only [hl]

theorem late (h : WokeUp s t) : t.thr.ctx.late = s.thr.ctx.late := by
  obtain ⟨l, hl⟩ := h.ctx
  simp only [hl]

theorem bytes (h : WokeUp s t) : SameBytes s t := fun a => by rw [State.byteAt, h.mem]; rfl

end WokeUp

theorem wokeUp_makeReady {s : State} (h : s.thr.status = .waiting) : WokeUp s (makeReady s.thr.tid s) := by
  rw [makeReady_own (by rw [h]; decide)]
  exact ⟨rfl, State.leaveSlot_wait s s.thr, by rw [if_pos h]; rfl, State.leaveSlot_ctx s s.thr⟩

theorem wokeUp_wakeUp (s : State) : WokeUp s (wakeUp s) := by
  unfold wakeUp
  split
  · next h => exact wokeUp_makeReady h
  · next h => exact ⟨rfl, rfl, (if_neg h).symm, s.thr.ctx.stream, rfl⟩

/-! ## A wait that ends -/

section
variable (s : State) (r : RegNum) (o : Option WaitReq)

@[simp] theorem State.modThr_wait_reg : (s.modThr fun h => { h with wait := o }).reg r = s.reg r := rfl
@[simp] theorem State.modThr_wait_pc : (s.modThr fun h => { h with wait := o }).pc = s.pc := rfl
@[simp] theorem State.modThr_wait_status : (s.modThr fun h => { h with wait := o }).thr.status = s.thr.status := rfl
@[simp] theorem State.modThr_wait_wait : (s.modThr fun h => { h with wait := o }).thr.wait = o := rfl
@[simp] theorem State.modThr_wait_ctx : (s.modThr fun h => { h with wait := o }).thr.ctx = s.thr.ctx := rfl
@[simp] theorem State.complete_reg : s.complete.reg r = s.reg r := rfl
@[simp] theorem State.complete_pc : s.complete.pc = s.pc := rfl
@[simp] theorem State.writeInt_eq (v : Word64) : s.writeInt r v = s.writeReg r (Cap.ofInt v) := rfl

end

theorem endWait_of_none {w : WaitReq} (v : Word64) (s : State) (h : w.dest = none) :
    endWait v w s = (s.modThr fun x => { x with wait := none }).advance.complete := by
  rw [endWait, h]

theorem endWait_of_some {w : WaitReq} {d : RegNum} (v : Word64) (s : State) (h : w.dest = some d) :
    endWait v w s = (((s.modThr fun x => { x with wait := none }).noteCounter v).writeInt d v).advance.complete := by
  rw [endWait, h]

/-- The word of a wait is complete, and the thread goes on where it stands: what every end of a wait leaves. -/
structure WaitOver (s t : State) : Prop where
  wait : t.thr.wait = none
  pc : t.pc = s.pc + 4
  bytes : SameBytes s t
  status : t.thr.status = if s.thr.status = .waiting then .ready else s.thr.status

/-- The wait has ended, and then the thread wakes up. -/
theorem WaitOver.of_wokeUp {s u t : State} (h : WokeUp u t) (hw : u.thr.wait = none) (hp : u.pc = s.pc + 4) (hm : u.mem = s.mem)
    (hs : u.thr.status = s.thr.status) : WaitOver s t :=
  ⟨h.wait.trans hw, h.pc.trans hp, fun a => by rw [State.byteAt, h.mem, hm]; rfl, by rw [h.status, hs]⟩

theorem waitOver_endWait (v : Word64) (w : WaitReq) (s : State) : WaitOver s (wakeUp (endWait v w s)) := by
  refine .of_wokeUp (wokeUp_wakeUp _) ?_ ?_ ?_ ?_
  all_goals
    cases h : w.dest with
    | none => rw [endWait_of_none v s h]; simp
    | some d => rw [endWait_of_some v s h]; simp

/-- A wait that ends well: besides, its register holds the value that the home has read, and no other register has changed. -/
structure WaitEnds (w : WaitReq) (v : Word64) (s t : State) : Prop extends WaitOver s t where
  reg : ∀ d, w.dest = some d → t.reg d = written d (Cap.ofInt v)
  regs : ∀ r, (∀ d, w.dest = some d → r ≠ d) → t.reg r = s.reg r

theorem waitEnds_endWait (w : WaitReq) (v : Word64) (s : State) : WaitEnds w v s (wakeUp (endWait v w s)) := by
  refine ⟨waitOver_endWait v w s, fun d hd => ?_, fun r hr => ?_⟩
  · rw [(wokeUp_wakeUp _).reg, endWait_of_some v s hd]; simp
  · rw [(wokeUp_wakeUp _).reg]
    cases hd : w.dest with
    | none => rw [endWait_of_none v s hd]; simp
    | some d => rw [endWait_of_some v s hd]; simp [State.reg_writeReg_ne _ _ (hr d hd)]

/-- A free value that has been used shows nowhere in the thread or in memory. -/
theorem WaitEnds.of_nextTick {w : WaitReq} {v : Word64} {s t : State} (h : WaitEnds w v s.nextTick t) : WaitEnds w v s t :=
  ⟨⟨h.wait, h.pc, h.bytes, h.status⟩, h.reg, h.regs⟩

/-! ## A wait that its home refuses -/

section
variable (s : State) (r d : RegNum) (f : Deferred)

theorem State.markReg_a0 {d : RegNum} (h : d = 0) : s.markReg d f = s.defer f := if_pos h

theorem State.markReg_of_ne {d : RegNum} (h : d ≠ 0) : s.markReg d f =
    s.modCtx fun c => { c with late := orphanMark c d.toNat, regMarks := NMap.set c.regMarks d.toNat f } := if_neg h

@[simp] theorem State.markReg_mem : (s.markReg d f).mem = s.mem := by unfold State.markReg; split <;> rfl
@[simp] theorem State.markReg_wait : (s.markReg d f).thr.wait = s.thr.wait := by unfold State.markReg; split <;> rfl
@[simp] theorem State.markReg_status : (s.markReg d f).thr.status = s.thr.status := by unfold State.markReg; split <;> rfl
@[simp] theorem State.markReg_pc : (s.markReg d f).pc = s.pc := by unfold State.markReg; split <;> rfl
@[simp] theorem State.markReg_reg : (s.markReg d f).reg r = s.reg r := by unfold State.markReg; split <;> rfl
@[simp] theorem State.defer_pc : (s.defer f).pc = s.pc := rfl
@[simp] theorem State.defer_reg : (s.defer f).reg r = s.reg r := rfl
@[simp] theorem State.fresh_mem : s.fresh.2.mem = s.mem := rfl
@[simp] theorem State.fresh_thr : s.fresh.2.thr = s.thr := rfl
@[simp] theorem State.fresh_pc : s.fresh.2.pc = s.pc := rfl
@[simp] theorem State.fresh_reg : s.fresh.2.reg r = s.reg r := rfl

end

/-- The deferred fault of a wait that its home has refused. -/
def refusalOf (c : BitVec 8) (w : WaitReq) (s : State) : Deferred := ⟨c, w.cursor, s.pc, s.nextId⟩

section
variable (c : BitVec 8) (s : State) {w : WaitReq}

theorem endRefused_of_none (h : w.dest = none) :
    endRefused c w s = ((s.modThr fun x => { x with wait := none }).defer (refusalOf c w s)).fresh.2.advance.complete := by
  rw [endRefused, h]; rfl

theorem endRefused_of_some {d : RegNum} (h : w.dest = some d) :
    endRefused c w s = ((s.modThr fun x => { x with wait := none }).markReg d (refusalOf c w s)).fresh.2.advance.complete := by
  rw [endRefused, h]; rfl

variable (w)

theorem waitOver_endRefused : WaitOver s (wakeUp (endRefused c w s)) := by
  refine .of_wokeUp (wokeUp_wakeUp _) ?_ ?_ ?_ ?_
  all_goals
    cases h : w.dest with
    | none => rw [endRefused_of_none c s h]; simp
    | some d => rw [endRefused_of_some c s h]; simp

theorem endRefused_reg (r : RegNum) : (wakeUp (endRefused c w s)).reg r = s.reg r := by
  rw [(wokeUp_wakeUp _).reg]
  cases h : w.dest with
  | none => rw [endRefused_of_none c s h]; simp
  | some d => rw [endRefused_of_some c s h]; simp

/-- The fault marks the register of the wait; where that is none or a0, it stands among those with no register. -/
theorem endRefused_defers :
    if w.dest.all (· == 0) then refusalOf c w s ∈ (wakeUp (endRefused c w s)).thr.ctx.late
    else ∃ d, w.dest = some d ∧ NMap.get? (wakeUp (endRefused c w s)).thr.ctx.regMarks d.toNat = some (refusalOf c w s) := by
  have hw := wokeUp_wakeUp (endRefused c w s)
  cases h : w.dest with
  | none =>
    rw [if_pos Option.all_none, hw.late, endRefused_of_none c s h]
    exact List.mem_append_right _ List.mem_cons_self
  | some d =>
    by_cases h0 : d = 0
    · rw [if_pos (by simpa using h0), hw.late, endRefused_of_some c s h, State.markReg_a0 _ _ h0]
      exact List.mem_append_right _ List.mem_cons_self
    · rw [if_neg (by simpa using h0), hw.regMarks, endRefused_of_some c s h, State.markReg_of_ne _ _ h0]
      exact ⟨d, rfl, NMap.get?_set_self ..⟩

end

/-! ## WAITER_WAKE and WAIT_LIMIT_EXPIRY -/

/-- An event whose condition holds happens. -/
theorem Happens.of_some {i : Instr} {s t : State} {r : Option State} {p : State → Prop} (h : exec i s = happen r s) (hr : r = some t)
    (hp : p t) : Happens i s p := ⟨t, by rw [h, hr]; rfl, hp⟩

theorem exec_waiterWake (k : Nat) (s : State) : exec (.waiterWake k) s = happen (tryWaiterWake k s) s := rfl
theorem exec_waitLimitExpiry (k : Nat) (s : State) : exec (.waitLimitExpiry k) s = happen (tryWaitLimitExpiry k s) s := rfl
theorem exec_park (k : Nat) (s : State) : exec (.park k) s = happen (tryPark k s) s := rfl
theorem exec_lookaheadWrite (k : Nat) (s : State) : exec (.lookaheadWrite k) s = happen (tryLookaheadWrite k s) s := rfl
theorem exec_streamEntryComplete (k : Nat) (s : State) : exec (.streamEntryComplete k) s = happen (tryStreamEntryComplete k s) s := rfl
theorem exec_syscReply (w : Nat) (refuse : Bool) (grant : Nat) (s : State) :
    exec (.syscReply w refuse grant) s = happen (trySyscReply w refuse grant s) s := rfl

section
variable {k : Nat} {s : State} {w : WaitReq}

theorem tryWaiterWake_of_wait (hk : (s.focus k).thr.tid = k) (hw : (s.focus k).thr.wait = some w)
    (hh : coreHalted (s.focus k).thr (s.focus k) = false) : tryWaiterWake k s = wakeAtHome w (s.focus k) := by
  simp [tryWaiterWake, hk, hw, hh]

/-- The home's word to a thread whose wait is met. -/
theorem wakeAtHome_of_met {v : Word64} (hw : s.thr.wait = some w) (hh : coreHalted s.thr s = false) (hc : s.thr.captured = false)
    (hv : waitVerdict s.thr w s = .met v) (hd : waitHeld s.thr w v = false) (hf : firstMet s.thr s = true) :
    wakeAtHome w s = some (wakeUp (endWait v w s)) := by
  simp [wakeAtHome, wakesNow, hw, hh, hc, hv, hd, hf]

/-- The home's word to a thread whose wait has come to no good end. -/
theorem wakeAtHome_of_broken {c : BitVec 8} (hw : s.thr.wait = some w) (hh : coreHalted s.thr s = false) (hc : s.thr.captured = false)
    (hv : waitVerdict s.thr w s = .broken c) :
    wakeAtHome w s = if c = 0x21 ∨ c = 0x06 then wakeBroken c w s
      else if s.thr.status = .waiting ∨ inSlot s.thr s then some (wakeUp (endRefused c w s)) else none := by
  simp [wakeAtHome, wakesNow, hw, hh, hc, hv]

theorem tryWaitLimitExpiry_of_unmet {v : Word64} (hk : (s.focus k).thr.tid = k) (hw : (s.focus k).thr.wait = some w)
    (hh : coreHalted (s.focus k).thr (s.focus k) = false) (hc : (s.focus k).thr.captured = false)
    (hv : unmetValue (s.focus k).thr w (s.focus k) = some v) (hd : waitHeld (s.focus k).thr w v = false) :
    tryWaitLimitExpiry k s = some (wakeUp (endWait v w (s.focus k).nextTick)) := by
  simp [tryWaitLimitExpiry, hk, hw, hh, hc, hv, hd]

end

theorem unmetValue_of_limit {h : Thread} {w : WaitReq} {s : State} {l : Nat} (hv : waitVerdict h w s = .held) (hl : w.limit = some l)
    (hn : l ≤ s.now) : unmetValue h w s = some (expiryValue h w s) := by
  simp [unmetValue, hv, limitPassed, hl, hn]

theorem unmetValue_of_expired {h : Thread} {w : WaitReq} {s : State} {v : Word64} (hv : waitVerdict h w s = .expired v) :
    unmetValue h w s = some v := by
  simp [unmetValue, hv]

/-! ## PARK (R20) -/

/-- A freeze sets entries aside and changes nothing else of them (R192). -/
theorem onlyAside_freezeAll (tick : Nat) (l : List StreamEntry) : onlyAside l (State.freezeAll tick l) := by
  refine List.forall₂_iff_get.mpr ⟨by simp [State.freezeAll], fun i h1 h2 => ?_⟩
  simp only [State.freezeAll, List.get_eq_getElem, List.getElem_mapIdx, State.frozenEntry]
  split <;> rfl

/-- A thread that gives up its slot stands in none, with whatever status it then has. -/
theorem outOfSlot_leaveSlot (s : State) (h : Thread) (hp : h.place.isSome = true) : outOfSlot s h (s.leaveSlot h) := by
  have hn : h.place.isNone = false := by cases e : h.place <;> simp_all
  rw [outOfSlot, State.leaveSlot, hn]
  exact ⟨⟨rfl, rfl, onlyAside_freezeAll ..⟩, rfl⟩

theorem leaveSlot_place (s : State) (h : Thread) : (s.leaveSlot h).place = none := by
  unfold State.leaveSlot
  split
  · next hp => exact Option.isNone_iff_eq_none.mp hp
  · rfl

/-- An update of a thread is found under its name. -/
theorem State.thread?_modThread {s : State} {k : Nat} {g : Thread} {f : Thread → Thread} (h : s.thread? k = some g)
    (ht : ∀ x, (f x).tid = x.tid) (hv : (f g).status ≠ .vacant) : (s.modThread k f).thread? k = some (f g) := by
  by_cases hc : (s.thr.status != .vacant && s.thr.tid == k) = true
  · have hg : s.thr = g := by simpa [State.thread?, hc] using h
    have hk : g.tid = k := by rw [hg] at hc; simpa using (Bool.and_eq_true_iff.mp hc).2
    rw [State.modThread, if_pos hc]
    simp [State.thread?, ht, hv, hk, hg]
  · have hg : (s.rest.find? fun x => x.tid == k) = some g := by simpa [State.thread?, hc] using h
    have hk : (g.tid == k) = true := by simpa using List.find?_some hg
    have hf : ((fun x : Thread => x.tid == k) ∘ fun x => if x.tid == k then f x else x) = fun x => x.tid == k := by
      funext x; simp only [Function.comp]; split <;> simp [ht]
    rw [State.modThread, if_neg hc, State.thread?, if_neg hc, List.find?_map, hf, hg, Option.map_some, if_pos hk]

theorem inSlot_place {h : Thread} {s : State} (hi : inSlot h s = true) : h.place.isSome = true := by
  simp only [inSlot, Bool.and_eq_true] at hi
  obtain ⟨⟨⟨-, hp⟩, -⟩, -⟩ := hi
  exact hp

theorem tryPark_of_wait {k : Nat} {s : State} {g : Thread} (hg : s.thread? k = some g) (hi : inSlot g s = true)
    (hw : stillWaits g s = true) (hn : waitStart g + 4000 ≤ s.now) : tryPark k s = some (parkThread k s) := by
  simp [tryPark, hg, hi, hw, Config.parkNs, hn]

/-- A park changes no byte; the record stands in no slot and waits. -/
theorem parkThread_spec {k : Nat} {s : State} {g : Thread} (hg : s.thread? k = some g) (hp : g.place.isSome = true) :
    SameBytes s (parkThread k s) ∧ ∃ y, (parkThread k s).thread? k = some y ∧ y.status = .waiting ∧ y.place = none ∧
      outOfSlot s g { y with status := g.status } := by
  have ho := outOfSlot_leaveSlot s g hp
  have hst : { s.leaveSlot g with status := g.status } = s.leaveSlot g := by unfold State.leaveSlot; split <;> rfl
  refine ⟨fun a => by simp [State.byteAt, parkThread], _,
    State.thread?_modThread (f := fun h => { s.leaveSlot h with status := .waiting }) hg (fun x => ?_) (by simp),
    rfl, leaveSlot_place s g, by rw [← hst] at ho; exact ho⟩
  show (s.leaveSlot x).tid = x.tid
  unfold State.leaveSlot; split <;> rfl

/-! ## LOOKAHEAD_WRITE (R93, R94) -/

section
variable (s : State) (p : PendWrite)

@[simp] theorem State.landOne_mem : (s.landOne p).mem = s.mem := by
  unfold State.landOne State.deliver
  rw [if_pos rfl]
  split <;> simp

@[simp] theorem State.landOne_pc : (s.landOne p).pc = s.pc := by
  unfold State.landOne State.deliver
  rw [if_pos rfl]
  split <;> simp

@[simp] theorem State.landOne_pend : (s.landOne p).thr.ctx.pend = s.thr.ctx.pend := by
  unfold State.landOne State.deliver
  rw [if_pos rfl]
  split
  · unfold State.markReg; split <;> rfl
  · simp
  · rfl

end

theorem State.landOne_of_value (s : State) {p : PendWrite} {v : Cap} (hm : p.mark = none) (hv : p.val = some v) :
    s.landOne p = s.writeReg p.reg v := by
  simp [State.landOne, State.deliver, hm, hv]

theorem State.landList_append (l m : List PendWrite) : ∀ s : State, s.landList (l ++ m) = (s.landList l).landList m := by
  induction l with
  | nil => intro s; rfl
  | cons p r ih => intro s; exact ih _

/-- Results that land change registers and their marks: no byte, no program counter, no window that stays open. -/
theorem State.landList_keeps (l : List PendWrite) : ∀ s : State, (s.landList l).mem = s.mem ∧ (s.landList l).pc = s.pc ∧
    (s.landList l).thr.ctx.pend = s.thr.ctx.pend := by
  induction l with
  | nil => intro s; exact ⟨rfl, rfl, rfl⟩
  | cons p r ih =>
    intro s
    obtain ⟨hm, hp, hw⟩ := ih (s.landOne p)
    exact ⟨hm.trans (s.landOne_mem p), hp.trans (s.landOne_pc p), hw.trans (s.landOne_pend p)⟩

/-- The windows that have ended write; the last of them decides its register (R94). -/
theorem State.landDue_spec {s : State} {i : List PendWrite} {p : PendWrite} {v : Cap} (hm : p.mark = none) (hv : p.val = some v)
    (hd : (splitDue [] s.thr.ctx.pend).1 = i ++ [p]) : s.landDue.reg p.reg = written p.reg v ∧ s.landDue.pc = s.pc ∧ SameBytes s s.landDue ∧
      s.landDue.thr.ctx.pend = (splitDue [] s.thr.ctx.pend).2 := by
  obtain ⟨hb, hp, hw⟩ := State.landList_keeps (splitDue [] s.thr.ctx.pend).1
    (s.modCtx fun c => { c with pend := (splitDue [] s.thr.ctx.pend).2 })
  refine ⟨?_, hp, fun a => congrArg (Cells.get · a) hb, hw⟩
  rw [State.landDue, hd, State.landList_append]
  simp only [State.landList, State.landOne_of_value _ hm hv, State.reg_writeReg]

/-- With no result of a unit on its way, the windows that have ended are those with no word left. -/
theorem State.splitDue_of_no_cmd (l : List PendWrite) (h : ∀ x ∈ l, x.cmd = none) :
    splitDue [] l = (l.filter fun x => x.left = 0, l.filter fun x => x.left ≠ 0) := by
  induction l with
  | nil => rfl
  | cons p r ih =>
    have hp := h p List.mem_cons_self
    have hr := ih fun x hx => h x (List.mem_cons_of_mem _ hx)
    by_cases h0 : p.left = 0 <;> simp [splitDue, hp, hr, h0]

section
variable {k : Nat} {s : State} (hk : (s.focus k).thr.tid = k) (hi : inSlot (s.focus k).thr (s.focus k) = true)
include hk hi

theorem tryLookaheadWrite_of_due {i : List PendWrite} {p : PendWrite}
    (hd : (State.splitDue [] (s.focus k).thr.ctx.pend).1 = i ++ [p]) : tryLookaheadWrite k s = some (s.focus k).landDue := by
  simp [tryLookaheadWrite, hk, hi, windowDue, hd]

/-! ## STREAM_ENTRY_COMPLETE (R191) -/

theorem tryStreamEntryComplete_of_entry {e : StreamEntry} {r : List StreamEntry} (he : (s.focus k).thr.ctx.stream = e :: r) :
    tryStreamEntryComplete k s = some (s.focus k).completeOldest := by
  simp [tryStreamEntryComplete, hk, hi, he]

end

/-- The oldest entry that was not there is there. -/
theorem State.readyFirst_append {i j : List QEntry} {x : QEntry} (hx : x.ready = false) (hi : ∀ y ∈ i, y.ready = true) :
    readyFirst (i ++ x :: j) = i ++ { x with ready := true } :: j := by
  induction i with
  | nil => simp [readyFirst, hx]
  | cons y r ih =>
    have hr := ih fun z hz => hi z (List.mem_cons_of_mem _ hz)
    simp [readyFirst, hi y List.mem_cons_self, hr]

theorem State.readyFirst_of_all {l : List QEntry} (h : ∀ y ∈ l, y.ready = true) : readyFirst l = l := by
  induction l with
  | nil => rfl
  | cons y r ih => simp [readyFirst, h y List.mem_cons_self, ih fun z hz => h z (List.mem_cons_of_mem _ hz)]

/-- What the completion of the oldest entry does to a queue `l` of DKIND `n`: the entry that it pushed is there. -/
def CameTo (e : StreamEntry) (n : Nat) (l m : List QEntry) : Prop :=
  if e.dkind.toNat = n then
    (∀ i (x : QEntry) j, l = i ++ x :: j → x.ready = false → (∀ y ∈ i, y.ready = true) → m = i ++ { x with ready := true } :: j) ∧
    ((∀ y ∈ l, y.ready = true) → m = l)
  else m = l

theorem cameTo_readyFirst (e : StreamEntry) (d : BitVec 2) (l : List QEntry) :
    CameTo e d.toNat l (if e.dkind = d then State.readyFirst l else l) := by
  unfold CameTo
  by_cases h : e.dkind = d
  · rw [if_pos (congrArg _ h), if_pos h]
    exact ⟨fun i x j hl hx hi => by rw [hl, State.readyFirst_append hx hi], State.readyFirst_of_all⟩
  · rw [if_neg (fun c => h (BitVec.eq_of_toNat_eq c)), if_neg h]

theorem State.completeOldest_of_entry {s : State} {e : StreamEntry} {r : List StreamEntry} (h : s.thr.ctx.stream = e :: r) :
    s.completeOldest = s.modCtx fun c => { c with
      stream := r, xflags := c.xflags ||| e.flags
      sq0 := if e.dkind = 2 then readyFirst c.sq0 else c.sq0
      sq1 := if e.dkind = 3 then readyFirst c.sq1 else c.sq1 } := by
  rw [State.completeOldest, h]

/-! ## System calls: what serving one leaves (R288, R293) -/

/-- A chain of checks is through where each part of it is. -/
theorem Res.bind_ok {α β : Type} {x : Res α} {f : α → Res β} {b : β} (h : x >>= f = .ok b) : ∃ a, x = .ok a ∧ f a = .ok b := by
  cases x with
  | error e => cases h
  | ok a => exact ⟨a, rfl, h⟩

/-- A translation that answers changes nothing. -/
theorem State.translateDevice_state {s t : State} {who : Who} {va pa : Nat} {need : Need}
    (h : s.translateDevice who va need = .ok (pa, t)) : t = s := by
  unfold State.translateDevice at h
  simp only [] at h
  split at h
  · cases h
  · cases h
  · split at h
    · cases h; rfl
    · cases h
  · split at h <;> cases h

theorem State.translateHost_state {s t : State} {who : Who} {va pa : Nat} {need : Need}
    (h : s.translateHost who va need = .ok (pa, t)) : t = s := by
  unfold State.translateHost at h
  simp only [] at h
  split at h
  · split at h
    · cases h; rfl
    · cases h
  · split at h
    · split at h <;> cases h
    · cases h

theorem State.placeAt_state {s t : State} {who : Who} {space a pa : Nat} {need : Need} (h : s.placeAt who space a need = .ok (pa, t)) :
    t = s := by
  unfold State.placeAt at h
  split at h
  · cases h; rfl
  · exact State.translateDevice_state h
  · split at h
    · split at h
      · cases h; rfl
      · cases h
    · cases h
  · exact State.translateHost_state h
  · split at h
    · cases h; rfl
    · cases h

theorem State.translateAt_state {s t : State} {who : Who} {space a pa : Nat} {need : Need}
    (h : s.translateAt who space a need = .ok (pa, t)) : t = s := by
  obtain ⟨⟨pa', t'⟩, hp, h⟩ := Res.bind_ok h
  obtain ⟨_, _, h⟩ := Res.bind_ok h
  cases h
  exact State.placeAt_state hp

theorem State.translatePieces_state {who : Who} {space : Nat} {need : Need} (l : List (Nat × Nat)) :
    ∀ {s t : State} {ps : List (Nat × Nat)}, s.translatePieces who space need l = .ok (ps, t) → t = s := by
  induction l with
  | nil => intro s t ps h; cases h; rfl
  | cons x r ih =>
    intro s t ps h
    obtain ⟨⟨pa, u⟩, hp, h⟩ := Res.bind_ok h
    obtain ⟨_, _, h⟩ := Res.bind_ok h
    obtain ⟨⟨qs, v⟩, hr, h⟩ := Res.bind_ok h
    cases h
    rw [ih hr, State.placeAt_state hp]

theorem State.access_state {s t : State} {who : Who} {c : Cap} {cur name : Word64} {n : Nat} {need : Need} {ps : List (Nat × Nat)}
    (h : s.access who c cur n need name = .ok (ps, t)) : t = s := by
  obtain ⟨_, _, h⟩ := Res.bind_ok h
  exact State.translatePieces_state _ h

/-- What no memory home touches: the threads and the tables of worlds. -/
structure HomesOnly (s t : State) : Prop where
  thr : t.thr = s.thr
  rest : t.rest = s.rest
  worlds : t.worlds = s.worlds

theorem HomesOnly.refl (s : State) : HomesOnly s s := ⟨rfl, rfl, rfl⟩

theorem HomesOnly.trans {s t u : State} (h : HomesOnly s t) (g : HomesOnly t u) : HomesOnly s u :=
  ⟨g.thr.trans h.thr, g.rest.trans h.rest, g.worlds.trans h.worlds⟩

theorem homesOnly_recordLine (s : State) (p pa n : Nat) : HomesOnly s (s.recordLine p pa n) := by
  unfold State.recordLine
  simp only []
  split
  · exact .refl s
  · split <;> split <;> (try split) <;> (try split) <;> exact ⟨rfl, rfl, rfl⟩

theorem homesOnly_recordChunks (p : Nat) (l : List (Nat × List Byte)) : ∀ s : State, HomesOnly s (s.recordChunks p l) := by
  induction l with
  | nil => exact .refl
  | cons x r ih => intro s; exact (homesOnly_recordLine s p x.1 x.2.length).trans (ih _)

theorem homesOnly_clearTags (s : State) (pa n : Nat) : HomesOnly s (s.clearTags pa n) := by
  unfold State.clearTags; split <;> exact ⟨rfl, rfl, rfl⟩

theorem homesOnly_setTag (s : State) (pa : Nat) (x : Bool) : HomesOnly s (s.setTag pa x) := ⟨rfl, rfl, rfl⟩

theorem homesOnly_notePort (s : State) (q : Req) (pa : Nat) : HomesOnly s (s.notePort q pa) := by
  unfold State.notePort; split <;> exact ⟨rfl, rfl, rfl⟩

theorem homesOnly_storeLine (s : State) (q : Req) (pa : Nat) (bs : List Byte) : HomesOnly s (s.storeLine q pa bs) := by
  have hc : HomesOnly s ((s.pokeMem pa bs).clearTags pa bs.length) :=
    (⟨rfl, rfl, rfl⟩ : HomesOnly s (s.pokeMem pa bs)).trans (homesOnly_clearTags ..)
  unfold State.storeLine
  split
  · exact ⟨rfl, rfl, rfl⟩
  · split
    · exact homesOnly_notePort ..
    · refine hc.trans ?_
      simp only []
      split <;> split <;> (try split) <;> exact ⟨rfl, rfl, rfl⟩

@[simp] theorem State.world_modWorld (s : State) (w : Nat) (f : World → World) : (s.modWorld w f).world w = f (s.world w) :=
  NMap.getD_set_self ..

/-- Serving a call of world `w` leaves the threads and the ring as they are: the reply comes after it. -/
structure CallLeaves (w : Nat) (s t : State) : Prop where
  thr : t.thr = s.thr
  rest : t.rest = s.rest
  ring : (t.world w).ring = (s.world w).ring
  ringFree : (t.world w).ringFree = (s.world w).ringFree
  ringTail : (t.world w).ringTail = (s.world w).ringTail

theorem HomesOnly.callLeaves {s t : State} (h : HomesOnly s t) (w : Nat) : CallLeaves w s t := by
  have hw : t.world w = s.world w := by rw [State.world, h.worlds]; rfl
  exact ⟨h.thr, h.rest, by rw [hw], by rw [hw], by rw [hw]⟩

theorem CallLeaves.refl (w : Nat) (s : State) : CallLeaves w s s := (HomesOnly.refl s).callLeaves w

/-- A handle enters a table of the world. -/
theorem CallLeaves.handle {w : Nat} {s u : State} {f : World → World} (hu : u = s.fresh.2) (hr : ∀ x, (f x).ring = x.ring)
    (hf : ∀ x, (f x).ringFree = x.ringFree) (ht : ∀ x, (f x).ringTail = x.ringTail) : CallLeaves w s (u.modWorld w f) := by
  subst hu
  exact ⟨rfl, rfl, by rw [State.world_modWorld, hr]; rfl, by rw [State.world_modWorld, hf]; rfl, by rw [State.world_modWorld, ht]; rfl⟩

section
variable {w grant : Nat} {e : SyscReq} {s t : State} {v : Word64}

theorem serveCounter_leaves (h : serveCounter w e s = .ok (v, t)) : CallLeaves w s t := by
  obtain ⟨_, _, h⟩ := Res.bind_ok h
  obtain ⟨_, _, h⟩ := Res.bind_ok h
  obtain ⟨⟨pa, u⟩, hu, h⟩ := Res.bind_ok h
  rw [State.translateAt_state hu] at h
  cases h
  exact .handle rfl (fun _ => rfl) (fun _ => rfl) fun _ => rfl

theorem serveCap_leaves (h : serveCap w e s = .ok (v, t)) : CallLeaves w s t := by
  obtain ⟨_, _, h⟩ := Res.bind_ok h
  cases h
  exact .handle rfl (fun _ => rfl) (fun _ => rfl) fun _ => rfl

theorem serveProg_leaves (h : serveProg w e s = .ok (v, t)) : CallLeaves w s t := by
  obtain ⟨_, _, h⟩ := Res.bind_ok h
  cases h
  exact .handle rfl (fun _ => rfl) (fun _ => rfl) fun _ => rfl

theorem serveAllot_leaves (h : serveAllot w grant e s = .ok (v, t)) : CallLeaves w s t := by
  unfold serveAllot at h
  split at h
  · cases h
  · cases h; exact .refl w s

theorem serveUnit_leaves (h : serveUnit w e s = .ok (v, t)) : CallLeaves w s t := by
  obtain ⟨⟨ps, u⟩, hu, h⟩ := Res.bind_ok h
  rw [State.access_state hu] at h
  obtain ⟨_, _, h⟩ := Res.bind_ok h
  cases h
  exact HomesOnly.callLeaves (((homesOnly_recordChunks ..).trans (homesOnly_storeLine ..)).trans (homesOnly_setTag ..)) w

theorem serveCall_leaves {refuse : Bool} (h : serveCall w refuse grant e s = .ok (v, t)) : CallLeaves w s t := by
  unfold serveCall at h
  split at h
  · cases h; exact .refl w s
  · split at h
    · cases h
    · split at h
      · exact serveCounter_leaves h
      · exact serveCap_leaves h
      · exact serveProg_leaves h
      · exact serveAllot_leaves h
      · exact serveUnit_leaves h
      · cases h

/-- Call 0x000 answers 0. -/
theorem serveCall_zero {refuse : Bool} (h : e.n = 0) : serveCall w refuse grant e s = .ok (0, s) := if_pos h

/-- A call that Moaly refuses, and one of no number that it knows. -/
theorem serveCall_refused {refuse : Bool} (h0 : e.n ≠ 0) (h : refuse = true ∨ 5 < e.n.toNat) :
    serveCall w refuse grant e s = refuseCall := by
  rw [serveCall, if_neg h0]
  split
  · rfl
  · next hr =>
    have h5 : 5 < e.n.toNat := h.resolve_left hr
    split
    case h_6 => rfl -- the last arm: no number from 1 to 5
    all_goals omega

end

/-! ## SYSC_REPLY (R288, R293) -/

/-- The value that the caller receives. -/
def replyValue (r : Served) : Word64 := match r with
  | .ok x => x.1
  | .error _ => syscRefused

/-- The state from which the reply leaves: a refused call has done nothing. -/
def servedState (r : Served) (s : State) : State := match r with
  | .ok x => x.2
  | .error _ => s

theorem servedState_leaves (w : Nat) (refuse : Bool) (grant : Nat) (e : SyscReq) (s : State) :
    CallLeaves w s (servedState (serveCall w refuse grant e s) s) := by
  cases h : serveCall w refuse grant e s with
  | ok x => exact serveCall_leaves h
  | error f => exact .refl w s

/-- No record-mode log holds the reply back where the one thread that waits for it keeps none. -/
theorem replyHeld_of_no_record {w : Nat} {e : SyscReq} {s : State} (v : Word64) (hs : s.thr.status ≠ .vacant) (hr : s.thr.record = false)
    (ho : ∀ g ∈ s.rest, waitsReply w e.ticket g = none) : replyHeld w e v s = false := by
  have hc : State.comesLater s.thr (.reply v) = false := by
    unfold State.comesLater; split <;> simp [hr]
  have ht : s.thread? s.thr.tid = some s.thr := by simp [State.thread?, hs]
  simp only [replyHeld, State.threads, if_neg hs, List.any_cons, State.arrivalHeld, ht, Option.any_some, hc, Bool.and_false, Bool.false_or]
  exact List.any_eq_false.mpr fun g hg => by simp [ho g hg]

theorem replyTo_of_none {w k : Nat} (n : BitVec 11) (v : Word64) (s : State) :
    ∀ l : List Thread, (∀ g ∈ l, waitsReply w k g = none) → replyTo w k n v l s = s
  | [], _ => rfl
  | g :: r, h => by
    rw [replyTo, h g List.mem_cons_self]
    exact replyTo_of_none n v s r fun x hx => h x (List.mem_cons_of_mem _ hx)

section
variable (n : BitVec 11) (v : Word64) (r : RegNum) (s : State)

/-! A call 0x004 raises the allotment; no other call changes anything of its caller here. -/

@[simp] theorem regrant_tid : (regrant n v s).thr.tid = s.thr.tid := by unfold regrant; split <;> rfl
@[simp] theorem regrant_status : (regrant n v s).thr.status = s.thr.status := by unfold regrant; split <;> rfl
@[simp] theorem regrant_record : (regrant n v s).thr.record = s.thr.record := by unfold regrant; split <;> rfl
@[simp] theorem regrant_worlds : (regrant n v s).worlds = s.worlds := by unfold regrant; split <;> rfl
@[simp] theorem regrant_pc : (regrant n v s).pc = s.pc := by unfold regrant; split <;> rfl
@[simp] theorem regrant_reg : (regrant n v s).reg r = s.reg r := by unfold regrant; split <;> rfl
theorem regrant_allot : (regrant n v s).thr.ctx.allot =
    if n = 4 ∧ v ≠ 0xFFFFFFFFFFFFFFFF then min (s.thr.ctx.allot + v.toNat) (2 ^ 48 - 1) else s.thr.ctx.allot := by
  unfold regrant; split <;> rfl

/-! A logged value changes the task log and whether the task can be re-run (R389), and nothing of the context. -/

variable (x : TaskVal) (size : Nat)

@[simp] theorem State.logValue_ctx : (s.logValue x size).thr.ctx = s.thr.ctx := by
  unfold State.logValue State.logEntry
  repeat' split
  all_goals rfl

@[simp] theorem State.logValue_status : (s.logValue x size).thr.status = s.thr.status := by
  unfold State.logValue State.logEntry
  repeat' split
  all_goals rfl

@[simp] theorem State.logValue_stall : (s.logValue x size).thr.stall = s.thr.stall := by
  unfold State.logValue State.logEntry
  repeat' split
  all_goals rfl

@[simp] theorem State.logValue_worlds : (s.logValue x size).worlds = s.worlds := by
  unfold State.logValue State.logEntry
  repeat' split
  all_goals rfl

@[simp] theorem State.logValue_pc : (s.logValue x size).pc = s.pc := by simp only [State.pc, State.logValue_ctx]
@[simp] theorem State.logValue_reg : (s.logValue x size).reg r = s.reg r := by simp only [State.reg_eq, State.logValue_ctx]
@[simp] theorem State.clearStall_pc : s.clearStall.pc = s.pc := rfl
@[simp] theorem State.clearStall_reg : s.clearStall.reg r = s.reg r := rfl

end

/-- The thread has the reply `v` in `d` and goes on at the next word; the tables of worlds are as before. -/
structure ReplyTaken (n : BitVec 11) (v : Word64) (d : RegNum) (s t : State) : Prop where
  pc : t.pc = s.pc + 4
  stall : t.thr.stall = none
  reg : t.reg d = written d (Cap.ofInt v)
  regs : ∀ q, q ≠ d → t.reg q = s.reg q
  allot : t.thr.ctx.allot = if n = 4 ∧ v ≠ 0xFFFFFFFFFFFFFFFF then min (s.thr.ctx.allot + v.toNat) (2 ^ 48 - 1) else s.thr.ctx.allot
  worlds : t.worlds = s.worlds

theorem replyTaken_takeSysc (n : BitVec 11) (v : Word64) (d : RegNum) {s : State} (hs : s.thr.status = .running) (hr : s.thr.record = false) :
    ReplyTaken n v d s (takeSysc n v d s) := by
  have hn : (regrant n v s).clearStall.noteArrival s.thr.tid (.reply v) = (regrant n v s).clearStall := by
    have h := State.noteArrival_of_no_record (s := (regrant n v s).clearStall) (.reply v) (by simp [hs]) (by simp [hr])
    simpa using h
  have hw : takeSysc n v d s = (((regrant n v s).clearStall.logValue ⟨Cap.ofInt v, 0⟩ 16).writeInt d v).advance.complete := by
    rw [takeSysc, hn, wakeUp, if_neg (by simp [hs])]
  rw [hw]
  refine ⟨?_, ?_, ?_, fun q hq => ?_, ?_, ?_⟩
  all_goals simp
  · rw [State.reg_writeReg_ne _ _ hq]; simp
  · simpa using regrant_allot n v s

theorem liveTickets_freeTickets (w : Nat) (s : State) : liveTickets w (freeTickets w s) = liveTickets w s := by
  simp only [liveTickets, freeTickets, State.world_modWorld]
  rfl

/-- The request has left the ring of its world, and `l` are the replies kept under their stamps. -/
def offRing (w : Nat) (e : SyscReq) (l : List SheafEntry) (s : State) : State :=
  { s.modWorld w fun x => { x with ring := x.ring.filter fun y => y.ticket != e.ticket } with sheaf := l }

theorem offRing_world (w : Nat) (e : SyscReq) (l : List SheafEntry) (s : State) :
    (offRing w e l s).world w = { s.world w with ring := (s.world w).ring.filter fun y => y.ticket != e.ticket } :=
  NMap.getD_set_self ..

theorem replyWith_eq (w : Nat) (e : SyscReq) (v : Word64) (s : State) : ∃ l, replyWith w e v s =
    freeTickets w (replyToImages w e.ticket e.n v (replyTo w e.ticket e.n v (offRing w e l s).threads (offRing w e l s))) := by
  unfold replyWith
  simp only []
  split <;> exact ⟨_, rfl⟩

/-- The one thread that waits for a ticket takes its reply. -/
theorem replyTo_threads {w k : Nat} {d : RegNum} {s : State} (n : BitVec 11) (v : Word64) (hs : s.thr.status ≠ .vacant)
    (hw : waitsReply w k s.thr = some d) (ho : ∀ g ∈ s.rest, waitsReply w k g = none) :
    replyTo w k n v s.threads s = takeSysc n v d s := by
  rw [State.threads, if_neg hs, replyTo, hw]
  simp only []
  rw [replyTo_of_none _ _ _ _ ho, State.focus, if_pos rfl]

/-- What the answer to a call leaves: the ring without the request, its free counter past every ticket served, and the caller with its
reply. -/
structure Answered (w : Nat) (e : SyscReq) (v : Word64) (d : RegNum) (s t : State) : Prop where
  ring : (t.world w).ring = (s.world w).ring.filter (fun x => x.ticket != e.ticket)
  ringFree : (t.world w).ringFree = max (s.world w).ringFree ((leastOf (liveTickets w t)).getD (s.world w).ringTail)
  pc : t.pc = s.pc + 4
  stall : t.thr.stall = none
  reg : t.reg d = written d (Cap.ofInt v)
  regs : ∀ q, q ≠ d → t.reg q = s.reg q
  allot : t.thr.ctx.allot = if e.n = 4 ∧ v ≠ 0xFFFFFFFFFFFFFFFF then min (s.thr.ctx.allot + v.toNat) (2 ^ 48 - 1) else s.thr.ctx.allot

theorem answered_replyWith {w : Nat} {e : SyscReq} {d : RegNum} {s t : State} (v : Word64) (hc : CallLeaves w s t)
    (hs : s.thr.status = .running) (hr : s.thr.record = false) (hw : waitsReply w e.ticket s.thr = some d)
    (ho : ∀ g ∈ s.rest, waitsReply w e.ticket g = none) : Answered w e v d s (replyWith w e v t) := by
  obtain ⟨l, he⟩ := replyWith_eq w e v t
  have hx := offRing_world w e l t
  have hu : (offRing w e l t).thr = s.thr := hc.thr
  have ht := replyTaken_takeSysc e.n v d (s := offRing w e l t) (by rw [hu, hs]) (by rw [hu, hr])
  have hd : (takeSysc e.n v d (offRing w e l t)).world w = (offRing w e l t).world w := by rw [State.world, ht.worlds]; rfl
  rw [replyTo_threads (s := offRing w e l t) e.n v (by rw [hu, hs]; decide) (by rw [hu, hw]) (fun g hg => ho g (hc.rest ▸ hg))] at he
  rw [he]
  refine ⟨?_, ?_, ht.pc.trans ?_, ht.stall, ht.reg, fun q hq => (ht.regs q hq).trans ?_, ht.allot.trans ?_⟩
  · simp only [freeTickets, replyToImages, State.world_modWorld, hd, hx, hc.ring]
  · rw [liveTickets_freeTickets]
    simp only [freeTickets, replyToImages, State.world_modWorld, hd, hx, hc.ringFree, hc.ringTail]
  · rw [State.pc, hu]; rfl
  · simp only [State.reg_eq, hu]
  · rw [hu]

/-- SYSC_REPLY answers the request of the lowest ticket, served or refused. -/
theorem trySyscReply_of_head {w grant : Nat} {refuse : Bool} {e : SyscReq} {s : State} (hh : ringHead w s = some e)
    (hc : ∀ g, callerOf w e s = some g → coreHalted g s = false) (hf : ∀ f, serveCall w refuse grant e s ≠ .error (.hold f))
    (hr : ∀ v, replyHeld w e v s = false) : trySyscReply w refuse grant s =
      some (replyWith w e (replyValue (serveCall w refuse grant e s)) (servedState (serveCall w refuse grant e s) s)) := by
  have hn : ((callerOf w e s).any fun h => coreHalted h s) = false := by
    cases h : callerOf w e s with
    | none => rfl
    | some g => exact hc g h
  simp only [trySyscReply, hh, Option.filter_some, hn, Bool.not_false, if_true, Option.bind_some]
  cases h : serveCall w refuse grant e s with
  | ok x => simp [hr, replyValue, servedState]
  | error x =>
    cases x with
    | fault f => simp [hr, replyValue, servedState]
    | hold f => exact absurd h (hf f)

/-! ## The statement, event by event -/

section
variable {k : Nat} {s : State} {w : WaitReq} {c : BitVec 8} (hk : (s.focus k).thr.tid = k) (hw : (s.focus k).thr.wait = some w)
  (hh : coreHalted (s.focus k).thr (s.focus k) = false) (hc : (s.focus k).thr.captured = false)
  (hv : waitVerdict (s.focus k).thr w (s.focus k) = .broken c)
include hk hw hh hc hv

/-- A parked thread whose wait cannot be held any longer becomes READY and stays at its word (R258, R407). -/
theorem tryWaiterWake_of_parked (h21 : c = 0x21 ∨ c = 0x06) (hst : (s.focus k).thr.status = .waiting) :
    tryWaiterWake k s = some (makeReady (s.focus k).thr.tid (s.focus k)) := by
  rw [tryWaiterWake_of_wait hk hw hh, wakeAtHome_of_broken hw hh hc hv, if_pos h21, wakeBroken, if_pos hst]

/-- A thread that runs takes the fault at its word (R258, R407). -/
theorem tryWaiterWake_of_running (h21 : c = 0x21 ∨ c = 0x06) (hst : (s.focus k).thr.status ≠ .waiting)
    (hi : inSlot (s.focus k).thr (s.focus k) = true) : tryWaiterWake k s =
      some (((s.focus k).modThr fun x => { x with wait := none }).deliverTrap (plainFault c w.cursor)) := by
  rw [tryWaiterWake_of_wait hk hw hh, wakeAtHome_of_broken hw hh hc hv, if_pos h21, wakeBroken, if_neg hst, if_pos hi]

/-- Any other refusal completes the word and stays deferred (R364, R390). -/
theorem tryWaiterWake_of_refused (h21 : c ≠ 0x21) (h06 : c ≠ 0x06)
    (hst : (s.focus k).thr.status = .waiting ∨ inSlot (s.focus k).thr (s.focus k) = true) :
    tryWaiterWake k s = some (wakeUp (endRefused c w (s.focus k))) := by
  rw [tryWaiterWake_of_wait hk hw hh, wakeAtHome_of_broken hw hh hc hv, if_neg (not_or_intro h21 h06), if_pos hst]

end

/-- Settles O53: the hypotheses of each clause are the condition of its event, and the lemmas above say what the event's effect leaves. -/
theorem waitsAndReplies : Obligations.WaitsAndReplies := by
  unfold Obligations.WaitsAndReplies
  intro k s u h hk woken ended
  have ends : ∀ {w v t}, WaitEnds w v u t → ended w v t := fun o => ⟨o.wait, o.pc, o.bytes, o.status, o.reg, o.regs⟩
  refine ⟨fun w hw => ⟨waitVerdict_of_genRefused h, genRefused_iff w u, fun pa hv hc hp hg => waitVerdict_of_line h hv hc hp hg,
    fun hh hc => ⟨fun v hv hd hf => ?met, fun c hv hcode => ⟨fun hst => ?parked, fun hst hi => ?faults⟩,
      fun c hv h21 h06 hst => ?refused, fun l hv hd hl hn => ?limit, fun v hv hd => ?expired⟩⟩,
    fun g hg hi hs hn => ?park, fun i p v hi hm hv => ⟨fun hd => ?lands, fun hn hd => ?landsAll⟩, fun e r hi he => ?stream,
    fun w refuse grant e d hh hst hw hstall hr ho hc hf => ?sysc⟩
  case met =>
    exact .of_some (exec_waiterWake k s) ((tryWaiterWake_of_wait hk hw hh).trans (wakeAtHome_of_met hw hh hc hv hd hf))
      (ends (waitEnds_endWait w v u))
  case parked =>
    have o := wokeUp_makeReady hst
    exact .of_some (exec_waiterWake k s) (tryWaiterWake_of_parked hk hw hh hc hv hcode hst)
      ⟨o.status.trans (if_pos hst), o.pc, o.wait.trans hw, o.bytes⟩
  case faults => exact .of_some (exec_waiterWake k s) (tryWaiterWake_of_running hk hw hh hc hv hcode hst hi) rfl
  case refused =>
    have o := waitOver_endRefused c u w
    exact .of_some (exec_waiterWake k s) (tryWaiterWake_of_refused hk hw hh hc hv h21 h06 hst)
      ⟨o.wait, o.pc, o.bytes, o.status, endRefused_reg c u w, refusalOf c w u, rfl, rfl, endRefused_defers c u w⟩
  case limit =>
    exact .of_some (exec_waitLimitExpiry k s) (tryWaitLimitExpiry_of_unmet hk hw hh hc (unmetValue_of_limit hv hl hn) hd)
      (ends (waitEnds_endWait w _ u.nextTick).of_nextTick)
  case expired =>
    exact .of_some (exec_waitLimitExpiry k s) (tryWaitLimitExpiry_of_unmet hk hw hh hc (unmetValue_of_expired hv) hd)
      (ends (waitEnds_endWait w v u.nextTick).of_nextTick)
  case park =>
    exact .of_some (exec_park k s) (tryPark_of_wait hg hi hs hn) (parkThread_spec hg (inSlot_place hi))
  case lands =>
    exact .of_some (exec_lookaheadWrite k s) (tryLookaheadWrite_of_due hk hi hd) (State.landDue_spec hm hv hd)
  case landsAll =>
    have hs := State.splitDue_of_no_cmd _ hn
    have hd' : (State.splitDue [] h.ctx.pend).1 = i ++ [p] := by rw [hs]; exact hd
    obtain ⟨hreg, -, -, hpend⟩ := State.landDue_spec (s := u) hm hv hd'
    exact .of_some (exec_lookaheadWrite k s) (tryLookaheadWrite_of_due hk hi hd') ⟨hreg, hpend.trans (by rw [hs])⟩
  case stream =>
    refine .of_some (exec_streamEntryComplete k s) (tryStreamEntryComplete_of_entry hk hi he) ?_
    rw [State.completeOldest_of_entry he]
    exact ⟨cameTo_readyFirst e 2 h.ctx.sq0, cameTo_readyFirst e 3 h.ctx.sq1, rfl⟩
  case sysc =>
    have hwait : waitsReply w e.ticket s.thr = some d := by simp [waitsReply, hstall, hw]
    have hheld := fun v => replyHeld_of_no_record (w := w) (e := e) v (by rw [hst]; decide) hr ho
    have ha := answered_replyWith (replyValue (serveCall w refuse grant e s)) (servedState_leaves w refuse grant e s) hst hr hwait ho
    refine ⟨fun h0 => ?_, fun h0 hx => ?_, .of_some (exec_syscReply w refuse grant s) (trySyscReply_of_head hh hc hf hheld)
      ⟨ha.ring, ha.ringFree, ha.pc, ha.stall, ha.reg, ha.regs, ha.allot⟩⟩
    · rw [serveCall_zero h0]
    · rw [serveCall_refused h0 hx]; rfl

end Sys2Proof.Machine
end

section
/-! The encoding (O47, O48): the decoder reads back what the encoder writes. The layers are the parts of a word, one law per field of each
format of R50, what the field codes and the shared checks do, the round trip over the instructions major by major; and, the other way, that
each major's decoder answers with words only. -/

namespace Sys2Proof

open BitVec

/-! ## The parts of a word (R50) -/

theorem Fields.of_pack (f : Fields) : Fields.of f.pack = f := by
  obtain ⟨top, b, a, d, maj⟩ := f
  simp only [Fields.of, Fields.pack, Fields.mk.injEq]
  refine ⟨extractLsb'_append_eq_left, ?_, ?_, ?_, ?_⟩
  all_goals rw [extractLsb'_append_eq_of_add_le (by decide)]
  · exact extractLsb'_append_eq_left
  all_goals rw [extractLsb'_append_eq_of_add_le (by decide)]
  · exact extractLsb'_append_eq_left
  all_goals rw [extractLsb'_append_eq_of_add_le (by decide)]
  · exact extractLsb'_append_eq_left
  · exact extractLsb'_append_eq_right

/-- A field that the format cuts in two is whole again. -/
theorem extract_append_extract {m n : Nat} (x : BitVec (m + n)) : x.extractLsb' n m ++ x.extractLsb' 0 n = x := by
  rw [extractLsb'_append_extractLsb'_eq_extractLsb' (Nat.zero_add n).symm, extractLsb'_eq_self]

/-- The bit of `.un` is the low bit of RM. -/
theorem Fields.un_eq_rm (f : Fields) : f.un = f.rm.getLsbD 0 := by simp [Fields.un, Fields.rm]

@[simp] theorem flag_getLsbD_zero (x : Bool) : (flag x).getLsbD 0 = x := by cases x <;> rfl

/-! ## The formats: what each field of an encoded word reads (R50) -/

section
variable (m : BitVec 6) (b a d : RegNum)

section
variable (fn : BitVec 7) (s : BitVec 4)

@[simp] theorem encAR_maj : (encAR m fn s b a d).maj = m := by rw [encAR]
@[simp] theorem encAR_b : (encAR m fn s b a d).b = b := rfl
@[simp] theorem encAR_a : (encAR m fn s b a d).a = a := rfl
@[simp] theorem encAR_d : (encAR m fn s b a d).d = d := rfl
@[simp] theorem encAR_fn : (encAR m fn s b a d).top.extractLsb' 0 7 = fn := extractLsb'_append_eq_right
@[simp] theorem encAR_s : (encAR m fn s b a d).top.extractLsb' 7 4 = s := extractLsb'_append_eq_left

end

section
variable (fn : BitVec 3) (i : BitVec 13)

@[simp] theorem encAI_maj : (encAI m fn i a d).maj = m := by rw [encAI]
@[simp] theorem encAI_a : (encAI m fn i a d).a = a := rfl
@[simp] theorem encAI_d : (encAI m fn i a d).d = d := rfl
@[simp] theorem encAI_f3 : (encAI m fn i a d).f3 = fn := extractLsb'_append_eq_right
@[simp] theorem encAI_imm13 : (encAI m fn i a d).imm13 = i := by
  have h : (i.extractLsb' 0 2 ++ fn).extractLsb' 3 2 = i.extractLsb' 0 2 := extractLsb'_append_eq_left
  rw [Fields.imm13, encAI, h]
  exact extract_append_extract (n := 2) i

end

section
variable (i : BitVec 21)

@[simp] theorem encAU_maj : (encAU m i d).maj = m := by rw [encAU]
@[simp] theorem encAU_d : (encAU m i d).d = d := rfl
@[simp] theorem encAU_imm21 : (encAU m i d).imm21 = i := by
  rw [Fields.imm21, encAU, extractLsb'_append_extractLsb'_eq_extractLsb' (Nat.zero_add 5).symm]
  exact extract_append_extract (n := 10) i

end

section
variable (hi l : BitVec 4) (z : BitVec 3) (q k : BitVec 2)

@[simp] theorem encLS_maj : (encLS m hi l z b a d).maj = m := by rw [encLS]
@[simp] theorem encLS_b : (encLS m hi l z b a d).b = b := rfl
@[simp] theorem encLS_a : (encLS m hi l z b a d).a = a := rfl
@[simp] theorem encLS_d : (encLS m hi l z b a d).d = d := rfl
@[simp] theorem encLS_z : (encLS m hi l z b a d).top.extractLsb' 0 3 = z :=
  (extractLsb'_append_eq_of_add_le (by decide)).trans extractLsb'_append_eq_right
@[simp] theorem encLS_l : (encLS m hi l z b a d).top.extractLsb' 3 4 = l :=
  (extractLsb'_append_eq_of_add_le (by decide)).trans extractLsb'_append_eq_left
@[simp] theorem encLS_rop : (encLS m hi l z b a d).top.extractLsb' 7 4 = hi := extractLsb'_append_eq_left
theorem encLS_mode_of_rop : (encLS m hi l z b a d).top.extractLsb' 7 2 = hi.extractLsb' 0 2 := extractLsb'_append_eq_of_le (by decide)
@[simp] theorem encLS_qk : (encLS m (q ++ k) l z b a d).top.extractLsb' 9 2 = q :=
  (extractLsb'_append_eq_of_le (by decide)).trans extractLsb'_append_eq_left
@[simp] theorem encLS_mode : (encLS m (q ++ k) l z b a d).top.extractLsb' 7 2 = k :=
  (encLS_mode_of_rop ..).trans extractLsb'_append_eq_right

end

section
variable (fn l : BitVec 4) (h : BitVec 3) (s k : BitVec 2)

@[simp] theorem encCT_maj : (encCT m fn h s k b a d).maj = m := by rw [encCT]
@[simp] theorem encCT_b : (encCT m fn h s k b a d).b = b := rfl
@[simp] theorem encCT_a : (encCT m fn h s k b a d).a = a := rfl
@[simp] theorem encCT_d : (encCT m fn h s k b a d).d = d := rfl
@[simp] theorem encCT_fn : (encCT m fn h s k b a d).top.extractLsb' 7 4 = fn := extractLsb'_append_eq_left
@[simp] theorem encCT_s : (encCT m fn h s k b a d).top.extractLsb' 2 2 = s := by
  rw [encCT, extractLsb'_append_eq_of_add_le (by decide), extractLsb'_append_eq_of_add_le (by decide)]
  exact extractLsb'_append_eq_left
@[simp] theorem encCT_k : (encCT m fn h s k b a d).top.extractLsb' 0 2 = k := by
  rw [encCT, extractLsb'_append_eq_of_add_le (by decide), extractLsb'_append_eq_of_add_le (by decide)]
  exact extractLsb'_append_eq_right

/-- LK is whole where its low bit, which SC[1] writes, agrees with it (R55). -/
theorem encCT_l (hl : lkScOk l s = true) : (encCT m fn (l.extractLsb' 1 3) s k b a d).top.extractLsb' 3 4 = l := by
  rw [encCT, extractLsb'_append_eq_of_add_le (by decide)]
  revert l s k
  decide

end

section
variable (fn : BitVec 4) (ka kb u : Bool) (r : BitVec 2) (et : BitVec 3)

@[simp] theorem encXR_maj : (encXR m fn ka kb r et b a d).maj = m := by rw [encXR]
@[simp] theorem encXR_b : (encXR m fn ka kb r et b a d).b = b := rfl
@[simp] theorem encXR_a : (encXR m fn ka kb r et b a d).a = a := rfl
@[simp] theorem encXR_d : (encXR m fn ka kb r et b a d).d = d := rfl
@[simp] theorem encXR_ka : (encXR m fn ka kb r et b a d).ka = ka := by
  rw [Fields.ka, encXR, getLsbD_append]
  exact flag_getLsbD_zero ka
@[simp] theorem encXR_kb : (encXR m fn ka kb r et b a d).kb = kb := by
  rw [Fields.kb, encXR, getLsbD_append, getLsbD_append]
  exact flag_getLsbD_zero kb
@[simp] theorem encXR_rm : (encXR m fn ka kb r et b a d).rm = r := by
  rw [Fields.rm, encXR, extractLsb'_append_eq_of_add_le (by decide), extractLsb'_append_eq_of_add_le (by decide)]
  exact extractLsb'_append_eq_left
@[simp] theorem encXR_et : (encXR m fn ka kb r et b a d).et = et := by
  rw [Fields.et, encXR, extractLsb'_append_eq_of_add_le (by decide), extractLsb'_append_eq_of_add_le (by decide),
    extractLsb'_append_eq_of_add_le (by decide)]
  exact extractLsb'_append_eq_left
@[simp] theorem encXR_xfn : (encXR m fn ka kb r et b a d).xfn = fn := by
  rw [Fields.xfn, encXR, extractLsb'_append_eq_of_add_le (by decide), extractLsb'_append_eq_of_add_le (by decide),
    extractLsb'_append_eq_of_add_le (by decide)]
  exact extractLsb'_append_eq_right
@[simp] theorem encXR_un : (encXR m fn ka kb (unBits u) et b a d).un = u := by
  rw [Fields.un_eq_rm, encXR_rm, unBits, getLsbD_append]
  exact flag_getLsbD_zero u

end

section
variable (neg : Bool) (r : BitVec 2) (et : BitVec 3) (c : RegNum)

@[simp] theorem encXF_maj : (encXF neg r et c b a d).maj = 0x22 := by rw [encXF]
@[simp] theorem encXF_b : (encXF neg r et c b a d).b = b := rfl
@[simp] theorem encXF_a : (encXF neg r et c b a d).a = a := rfl
@[simp] theorem encXF_d : (encXF neg r et c b a d).d = d := rfl
@[simp] theorem encXF_neg : (encXF neg r et c b a d).top[10] = neg := by
  rw [encXF, ← getLsbD_eq_getElem, getLsbD_append]
  exact flag_getLsbD_zero neg
@[simp] theorem encXF_r : (encXF neg r et c b a d).top.extractLsb' 8 2 = r :=
  (extractLsb'_append_eq_of_add_le (by decide)).trans extractLsb'_append_eq_left
@[simp] theorem encXF_et : (encXF neg r et c b a d).top.extractLsb' 5 3 = et := by
  rw [encXF, extractLsb'_append_eq_of_add_le (by decide), extractLsb'_append_eq_of_add_le (by decide)]
  exact extractLsb'_append_eq_left
@[simp] theorem encXF_c : (encXF neg r et c b a d).top.extractLsb' 0 5 = c := by
  rw [encXF, extractLsb'_append_eq_of_add_le (by decide), extractLsb'_append_eq_of_add_le (by decide)]
  exact extractLsb'_append_eq_right

end

section
variable (p : BitVec 2) (et : BitVec 3) (i : BitVec 16)

@[simp] theorem encXI_maj : (encXI p et i d).maj = 0x29 := by rw [encXI]
@[simp] theorem encXI_d : (encXI p et i d).d = d := rfl
@[simp] theorem encXI_et : (encXI p et i d).a.extractLsb' 0 3 = et := extractLsb'_append_eq_right
@[simp] theorem encXI_p : (encXI p et i d).a.extractLsb' 3 2 = p := extractLsb'_append_eq_left
@[simp] theorem encXI_imm : (encXI p et i d).top ++ (encXI p et i d).b = i := extract_append_extract (n := 5) i

end

section
variable (l c : BitVec 4) (rm y t : BitVec 3) (p : RegNum)

@[simp] theorem encMM_maj : (encMM m l rm c y t p).maj = m := by rw [encMM]
@[simp] theorem encMM_d : (encMM m l rm c y t p).d = p := rfl
@[simp] theorem encMM_l : (encMM m l rm c y t p).top.extractLsb' 3 4 = l :=
  (extractLsb'_append_eq_of_add_le (by decide)).trans extractLsb'_append_eq_left
@[simp] theorem encMM_m : (encMM m l rm c y t p).top.extractLsb' 0 3 = rm :=
  (extractLsb'_append_eq_of_add_le (by decide)).trans extractLsb'_append_eq_right
@[simp] theorem encMM_c : (encMM m l rm c y t p).b.extractLsb' 1 4 = c := extractLsb'_append_eq_left
@[simp] theorem encMM_t : (encMM m l rm c y t p).a.extractLsb' 0 3 = t := extractLsb'_append_eq_right
@[simp] theorem encMM_y : (encMM m l rm c y t p).b.extractLsb' 0 1 ++ (encMM m l rm c y t p).a.extractLsb' 3 2 = y := by
  have hb : (c ++ y.extractLsb' 2 1).extractLsb' 0 1 = y.extractLsb' 2 1 := extractLsb'_append_eq_right
  have ha : (y.extractLsb' 0 2 ++ t).extractLsb' 3 2 = y.extractLsb' 0 2 := extractLsb'_append_eq_left
  rw [encMM, hb, ha]
  exact extract_append_extract (n := 2) y

end

section
variable (fn : BitVec 5) (i : BitVec 11)

@[simp] theorem encSY_maj : (encSY m fn i a d).maj = m := by rw [encSY]
@[simp] theorem encSY_top : (encSY m fn i a d).top = i := rfl
@[simp] theorem encSY_b : (encSY m fn i a d).b = fn := rfl
@[simp] theorem encSY_a : (encSY m fn i a d).a = a := rfl
@[simp] theorem encSY_d : (encSY m fn i a d).d = d := rfl

end

section
variable (p : BitVec 26)

@[simp] theorem encHN_maj : (encHN m p).maj = m := by rw [encHN]
@[simp] theorem encHN_payload : (encHN m p).payload = p := by
  rw [Fields.payload, encHN, extractLsb'_append_extractLsb'_eq_extractLsb' (Nat.zero_add 5).symm,
    extractLsb'_append_extractLsb'_eq_extractLsb' (Nat.zero_add 10).symm]
  exact extract_append_extract (n := 15) p

end

end

/-! ## Field codes and shared checks -/

@[simp] theorem ElemTy.ofCode_code (e : ElemTy) : ElemTy.ofCode e.code = some e := by cases e <;> rfl
@[simp] theorem Fmt.ofCode_code (f : Fmt) : Fmt.ofCode f.code = some f := by cases f <;> rfl

/-- The words that hold no element type are written with code 000. -/
@[simp] theorem ElemTy.ofCode_zero : ElemTy.ofCode 0#3 = some .f32 := rfl

@[simp] theorem noShift_zero (i : Instr) : noShift 0#4 i = .ok i := rfl

@[simp] theorem noKill_encXR (m : BitVec 6) (fn : BitVec 4) (r : BitVec 2) (et : BitVec 3) (b a d : RegNum) (i : Instr) :
    noKill (encXR m fn false false r et b a d) i = .ok i := by simp [noKill]

theorem withEt_of_ofCode {f : Fields} {e : ElemTy} (h : ElemTy.ofCode f.et = some e) (k : ElemTy → Except DecodeError Instr) :
    withEt f k = k e := by rw [withEt, h]

@[simp] theorem withEt_encXR (m : BitVec 6) (fn : BitVec 4) (ka kb : Bool) (r : BitVec 2) (e : ElemTy) (b a d : RegNum)
    (k : ElemTy → Except DecodeError Instr) : withEt (encXR m fn ka kb r e.code b a d) k = k e :=
  withEt_of_ofCode (by simp) k

@[simp] theorem withEt_encXR_zero (m : BitVec 6) (fn : BitVec 4) (ka kb : Bool) (r : BitVec 2) (b a d : RegNum)
    (k : ElemTy → Except DecodeError Instr) : withEt (encXR m fn ka kb r 0#3 b a d) k = k .f32 :=
  withEt_encXR m fn ka kb r .f32 b a d k

@[simp] theorem tileNum_append (n : BitVec 3) (k : BitVec 3 → Instr) : tileNum (0#2 ++ n) k = .ok (k n) := by
  have hz : (0#2 ++ n).extractLsb' 3 2 = 0 := extractLsb'_append_eq_left
  have hn : (0#2 ++ n).extractLsb' 0 3 = n := extractLsb'_append_eq_right
  rw [tileNum, hz, hn, if_pos rfl]

/-! ## The major map (R56) -/

section
variable {f : Fields}

theorem decodeMajor_int (h : f.maj = 0x01#6) : decodeMajor f = decInt f := by rw [decodeMajor, h]; rfl
theorem decodeMajor_imm (h : f.maj = 0x02#6) : decodeMajor f = decImm f := by rw [decodeMajor, h]; rfl
theorem decodeMajor_ahi (h : f.maj = 0x03#6) : decodeMajor f = .ok (.ahi f.imm21 f.d) := by rw [decodeMajor, h]; rfl
theorem decodeMajor_cap (h : f.maj = 0x04#6) : decodeMajor f = decCap f := by rw [decodeMajor, h]; rfl
theorem decodeMajor_branch (h : f.maj = 0x05#6) : decodeMajor f = decBranch f := by rw [decodeMajor, h]; rfl
theorem decodeMajor_jump (h : f.maj = 0x06#6) : decodeMajor f = decJump f := by rw [decodeMajor, h]; rfl
theorem decodeMajor_jumpReg (h : f.maj = 0x07#6) : decodeMajor f = decJumpReg f := by rw [decodeMajor, h]; rfl
theorem decodeMajor_enter (h : f.maj = 0x08#6) : decodeMajor f = .ok (.enter f.imm13 f.f3) := by rw [decodeMajor, h]; rfl
theorem decodeMajor_ld (h : f.maj = 0x10#6) : decodeMajor f =
    .ok (.ld (f.top.extractLsb' 9 2) (f.top.extractLsb' 7 2) (f.top.extractLsb' 3 4) (f.top.extractLsb' 0 3) f.b f.a f.d) := by
  rw [decodeMajor, h]; rfl
theorem decodeMajor_st (h : f.maj = 0x11#6) : decodeMajor f =
    .ok (.st (f.top.extractLsb' 9 2) (f.top.extractLsb' 7 2) (f.top.extractLsb' 0 3) f.b f.a f.d) := by
  rw [decodeMajor, h]; rfl
theorem decodeMajor_mred (h : f.maj = 0x12#6) : decodeMajor f = decMred f := by rw [decodeMajor, h]; rfl
theorem decodeMajor_pref (h : f.maj = 0x13#6) : decodeMajor f =
    .ok (.pref (f.top.extractLsb' 7 2) (f.top.extractLsb' 0 3) f.b f.a) := by rw [decodeMajor, h]; rfl
theorem decodeMajor_page (h : f.maj = 0x14#6) : decodeMajor f = decPage f := by rw [decodeMajor, h]; rfl
theorem decodeMajor_counter (h : f.maj ∈ [0x18#6, 0x19#6, 0x1A#6, 0x1B#6]) : decodeMajor f = decCounter f := by
  simp only [List.mem_cons, List.not_mem_nil, or_false] at h
  obtain h | h | h | h := h
  all_goals rw [decodeMajor, h]; rfl
theorem decodeMajor_copy (h : f.maj = 0x1C#6) : decodeMajor f = decCopy f := by rw [decodeMajor, h]; rfl
theorem decodeMajor_vecInt (h : f.maj = 0x20#6) : decodeMajor f = withEt f (decVecInt f) := by rw [decodeMajor, h]; rfl
theorem decodeMajor_float (h : f.maj = 0x21#6) : decodeMajor f = withEt f (decFloat f) := by rw [decodeMajor, h]; rfl
theorem decodeMajor_fused (h : f.maj = 0x22#6) : decodeMajor f = decFused f := by rw [decodeMajor, h]; rfl
theorem decodeMajor_root (h : f.maj = 0x23#6) : decodeMajor f = withEt f (decRoot f) := by rw [decodeMajor, h]; rfl
theorem decodeMajor_compare (h : f.maj = 0x24#6) : decodeMajor f = withEt f (decCompare f) := by rw [decodeMajor, h]; rfl
theorem decodeMajor_select (h : f.maj = 0x25#6) : decodeMajor f = withEt f (decSelect f) := by rw [decodeMajor, h]; rfl
theorem decodeMajor_convert (h : f.maj = 0x26#6) : decodeMajor f = withEt f (decConvert f) := by rw [decodeMajor, h]; rfl
theorem decodeMajor_reduce (h : f.maj = 0x27#6) : decodeMajor f = withEt f (decReduce f) := by rw [decodeMajor, h]; rfl
theorem decodeMajor_move (h : f.maj = 0x28#6) : decodeMajor f = withEt f (decMove f) := by rw [decodeMajor, h]; rfl
theorem decodeMajor_xli (h : f.maj = 0x29#6) : decodeMajor f = decXli f := by rw [decodeMajor, h]; rfl
theorem decodeMajor_view (h : f.maj = 0x2A#6) : decodeMajor f = decView f := by rw [decodeMajor, h]; rfl
theorem decodeMajor_mfmt (h : f.maj = 0x30#6) : decodeMajor f = decMfmt f := by rw [decodeMajor, h]; rfl
theorem decodeMajor_mma (h : f.maj ∈ [0x31#6, 0x32#6]) : decodeMajor f = decMma f := by
  simp only [List.mem_cons, List.not_mem_nil, or_false] at h
  obtain h | h := h
  all_goals rw [decodeMajor, h]; rfl
theorem decodeMajor_aread (h : f.maj = 0x33#6) : decodeMajor f = decAread f := by rw [decodeMajor, h]; rfl
theorem decodeMajor_arel (h : f.maj = 0x34#6) : decodeMajor f = decArel f := by rw [decodeMajor, h]; rfl
theorem decodeMajor_system (h : f.maj ∈ [0x36#6, 0x37#6, 0x38#6, 0x39#6, 0x3A#6, 0x3B#6, 0x3C#6]) : decodeMajor f = decSystem f := by
  simp only [List.mem_cons, List.not_mem_nil, or_false] at h
  obtain h | h | h | h | h | h | h := h
  all_goals rw [decodeMajor, h]; rfl
theorem decodeMajor_hint (h : f.maj = 0x3E#6) : decodeMajor f = decHint f := by rw [decodeMajor, h]; rfl
theorem decodeMajor_sig (h : f.maj = 0x3F#6) : decodeMajor f = decSig f := by rw [decodeMajor, h]; rfl

end

/-! ## The round trip, major by major (R56-R74) -/

section
variable (b a d : RegNum)

/-! Words whose operand is a part of a field, shares a bit with another, or says which word it is. -/

theorem decodes_cpget (s : BitVec 3) : decodeMajor (encodeFields (.cpget s a d)) = .ok (.cpget s a d) := by
  have hz : (0#1 ++ s).extractLsb' 3 1 = 0 := extractLsb'_append_eq_left
  have hs : (0#1 ++ s).extractLsb' 0 3 = s := extractLsb'_append_eq_right
  show decodeMajor (encAR _ _ _ _ _ _) = _
  simp [decodeMajor_cap, decCap, hz, hs]

theorem decodes_ctadd {l : BitVec 4} {s k : BitVec 2} (h : (Instr.ctadd l s k b a d).wf = true) :
    decodeMajor (encodeFields (.ctadd l s k b a d)) = .ok (.ctadd l s k b a d) := by
  obtain ⟨-, hl⟩ := Bool.and_eq_true_iff.mp h
  show decodeMajor (encCT _ _ _ _ _ _ _ _) = _
  simp [decodeMajor_counter, decCounter, encCT_l _ _ _ _ _ _ _ _ hl]

theorem decodes_ctread {l : BitVec 4} {s k : BitVec 2} (h : (Instr.ctread l s k a d).wf = true) :
    decodeMajor (encodeFields (.ctread l s k a d)) = .ok (.ctread l s k a d) := by
  obtain ⟨-, hl⟩ := Bool.and_eq_true_iff.mp h
  show decodeMajor (encCT _ _ _ _ _ _ _ _) = _
  simp [decodeMajor_counter, decCounter, encCT_l _ _ _ _ _ _ _ _ hl]

theorem ElemTy.isFloat_iff (e : ElemTy) : e.isFloat = true ↔ e = .f32 ∨ e = .bf16 := by cases e <;> decide

/-- The four fused words differ in the sign bit and in the ET code, which only the float types have (R62). -/
theorem decodes_fused (neg minus : Bool) (r : BitVec 2) {e : ElemTy} {c b a d : RegNum}
    (h : (e.isFloat && srcOk c && vec3Ok b a d) = true) :
    decodeMajor (encXF neg r (fusedEt minus e) c b a d) = .ok (match neg, minus with
      | false, false => .ffma r e c b a d
      | false, true => .ffms r e c b a d
      | true, false => .ffnma r e c b a d
      | true, true => .ffnms r e c b a d) := by
  obtain ⟨⟨he, -⟩, -⟩ : (e.isFloat = true ∧ _) ∧ _ := by simpa only [Bool.and_eq_true] using h
  obtain rfl | rfl := e.isFloat_iff.mp he
  all_goals cases neg <;> cases minus <;> simp [decodeMajor_fused, decFused, fusedEt]

theorem decodes_aread {e : ElemTy} (blk : RegNum) (t : BitVec 3) (h : e.isFloat = true) :
    decodeMajor (encodeFields (.aread e blk a t)) = .ok (.aread e blk a t) := by
  show decodeMajor (encXR _ _ _ _ _ _ _ _ _) = _
  obtain rfl | rfl := e.isFloat_iff.mp h
  all_goals simp [decodeMajor_aread, decAread, ElemTy.code]

theorem decodes_spawn (l : BitVec 4) : decodeMajor (encodeFields (.spawn l a d)) = .ok (.spawn l a d) := by
  have hl : (0#4 ++ (l ++ 0#3)).extractLsb' 3 4 = l :=
    (extractLsb'_append_eq_of_add_le (by decide)).trans extractLsb'_append_eq_left
  show decodeMajor (encSY _ _ _ _ _) = _
  simp [decodeMajor_system, decSystem, hl]

theorem decodes_getid (n : BitVec 3) : decodeMajor (encodeFields (.getid n d)) = .ok (.getid n d) := by
  have hz : (0#8 ++ n).extractLsb' 3 8 = 0 := extractLsb'_append_eq_left
  have hn : (0#8 ++ n).extractLsb' 0 3 = n := extractLsb'_append_eq_right
  show decodeMajor (encSY _ _ _ _ _) = _
  simp [decodeMajor_system, decSystem, hz, hn]

theorem decodes_dstat (n : BitVec 2) : decodeMajor (encodeFields (.dstat n d)) = .ok (.dstat n d) := by
  have hz : (0#9 ++ n).extractLsb' 2 9 = 0 := extractLsb'_append_eq_left
  have hn : (0#9 ++ n).extractLsb' 0 2 = n := extractLsb'_append_eq_right
  show decodeMajor (encSY _ _ _ _ _) = _
  simp [decodeMajor_system, decSystem, hz, hn]

/-- The number of a system register is 11 bits of the word's immediate and one of its function (R73). -/
theorem sysReg_cases (n : BitVec 12) :
    (n.extractLsb' 11 1 = 0#1 ∧ 0#1 ++ n.extractLsb' 0 11 = n) ∨ (n.extractLsb' 11 1 = 1#1 ∧ 1#1 ++ n.extractLsb' 0 11 = n) := by
  have hn : n.extractLsb' 11 1 ++ n.extractLsb' 0 11 = n := extract_append_extract (n := 11) n
  obtain h | h := eq_zero_or_eq_one (n.extractLsb' 11 1)
  all_goals rw [h] at hn
  · exact .inl ⟨h, hn⟩
  · exact .inr ⟨h, hn⟩

theorem decodes_srd (n : BitVec 12) : decodeMajor (encodeFields (.srd n d)) = .ok (.srd n d) := by
  show decodeMajor (encSY _ _ _ _ _) = _
  obtain ⟨h, hn⟩ | ⟨h, hn⟩ := sysReg_cases n
  all_goals simp [decodeMajor_system, decSystem, h, hn]

theorem decodes_swr (n : BitVec 12) : decodeMajor (encodeFields (.swr n a)) = .ok (.swr n a) := by
  show decodeMajor (encSY _ _ _ _ _) = _
  obtain ⟨h, hn⟩ | ⟨h, hn⟩ := sysReg_cases n
  all_goals simp [decodeMajor_system, decSystem, h, hn]

theorem decodes_sig (crc : BitVec 20) (len : BitVec 6) : decodeMajor (encodeFields (.sig crc len)) = .ok (.sig crc len) := by
  have hc : (crc ++ len).extractLsb' 6 20 = crc := extractLsb'_append_eq_left
  have hl : (crc ++ len).extractLsb' 0 6 = len := extractLsb'_append_eq_right
  show decodeMajor (encHN _ _) = _
  simp [decodeMajor_sig, decSig, hc, hl]

end

/-- R56-R74: the major map reads back the fields of every well-formed word. -/
theorem decodeMajor_encodeFields (i : Instr) (hw : i.isWord = true) (h : i.wf = true) : decodeMajor (encodeFields i) = .ok i := by
  cases i with
  | add | sub | mul | mulh | and | or | xor | shl | shr | sra | min | max | slt | slo =>
    show decodeMajor (encAR _ _ _ _ _ _) = _
    simp [decodeMajor_int, decInt]
  | addi | andi | ori | xori | slti =>
    show decodeMajor (encAI _ _ _ _ _) = _
    simp [decodeMajor_imm, decImm]
  | shli n | shri n | srai n =>
    have hn : (0#7 ++ n).extractLsb' 0 6 = n := extractLsb'_append_eq_right
    show decodeMajor (encAI _ _ _ _ _) = _
    simp [decodeMajor_imm, decImm, hn]
  | ahi =>
    show decodeMajor (encAU _ _ _) = _
    simp [decodeMajor_ahi]
  | cpget => exact decodes_cpget ..
  | cpbound | cpperm | cpaddr | cpinc | cptest | cpmove =>
    show decodeMajor (encAR _ _ _ _ _ _) = _
    simp [decodeMajor_cap, decCap]
  | beq | bne | blt | bge | blo | bhs | btag | bnotag =>
    show decodeMajor (encAI _ _ _ _ _) = _
    simp [decodeMajor_branch, decBranch]
  | jmp =>
    show decodeMajor (encAU _ _ _) = _
    simp [decodeMajor_jump, decJump]
  | call o d =>
    have hd : d ≠ 0#5 := bne_iff_ne.mp h
    show decodeMajor (encAU _ _ _) = _
    simp [decodeMajor_jump, decJump, hd]
  | callr | jmpr | ret =>
    show decodeMajor (encAR _ _ _ _ _ _) = _
    simp [decodeMajor_jumpReg, decJumpReg]
  | enter =>
    show decodeMajor (encAI _ _ _ _ _) = _
    simp [decodeMajor_enter]
  | ld | st | pref =>
    show decodeMajor (encLS _ (_ ++ _) _ _ _ _ _) = _
    simp [decodeMajor_ld, decodeMajor_st, decodeMajor_pref]
  | mredAdd | mredAnd | mredOr | mredXor | mredMin | mredMax | mredMinUn | mredMaxUn | mredAddFloat | mredMinFloat | mredMaxFloat =>
    show decodeMajor (encLS _ _ _ _ _ _ _) = _
    simp [decodeMajor_mred, decMred]
  | pgalloc | pgfree =>
    show decodeMajor (encLS _ _ _ _ _ _ _) = _
    simp [decodeMajor_page, decPage, encLS_mode_of_rop]
  | ctadd => exact decodes_ctadd _ _ _ h
  | ctread => exact decodes_ctread _ _ h
  | ctwait | ctwaitt | ctinit | ctarr | ctarrDrop | ctarrJoin =>
    show decodeMajor (encCT _ _ _ _ _ _ _ _) = _
    simp [decodeMajor_counter, decCounter]
  | cpyj | cpyq =>
    show decodeMajor (encAR _ _ _ _ _ _) = _
    simp [decodeMajor_copy, decCopy]
  | vadd | vsub | vmul | vmulh | vmad | vand | vor | vxor | vshl | vshr | vsra | vmin | vmax | vabs | vclz | vpop =>
    show decodeMajor (encXR _ _ _ _ _ _ _ _ _) = _
    simp [decodeMajor_vecInt, decVecInt]
  | fadd | fsub | fmul | fmin | fmax | fabs | fneg | fsgn =>
    show decodeMajor (encXR _ _ _ _ _ _ _ _ _) = _
    simp [decodeMajor_float, decFloat]
  | ffma => exact decodes_fused false false _ h
  | ffms => exact decodes_fused false true _ h
  | ffnma => exact decodes_fused true false _ h
  | ffnms => exact decodes_fused true true _ h
  | fdiv | fsqrt | frcp | frsq | fexp2 | flog2 =>
    show decodeMajor (encXR _ _ _ _ _ _ _ _ _) = _
    simp [decodeMajor_root, decRoot]
  | vcmpEq | vcmpNe | vcmpLt | vcmpLe | vcmpGt | vcmpGe | fcmpEq | fcmpNe | fcmpLt | fcmpLe | fcmpGt | fcmpGe | fthrGe | fthrLt =>
    show decodeMajor (encXR _ _ _ _ _ _ _ _ _) = _
    simp [decodeMajor_compare, decCompare]
  | vsel | vperm | vbcast | vslide =>
    show decodeMajor (encXR _ _ _ _ _ _ _ _ _) = _
    simp [decodeMajor_select, decSelect]
  | fcvtFromFc | fcvtToFc | icvtToInt | icvtToFloat | vpack =>
    show decodeMajor (encXR _ _ _ _ _ _ _ _ _) = _
    simp [decodeMajor_convert, decConvert]
  | vredAdd | vredMin | vredMax | fredAdd | fredMin | fredMax =>
    show decodeMajor (encXR _ _ _ _ _ _ _ _ _) = _
    simp [decodeMajor_reduce, decReduce]
  | xins | xext | xmov =>
    show decodeMajor (encXR _ _ _ _ _ _ _ _ _) = _
    simp [decodeMajor_move, decMove]
  | xli | xliHi | xliLo =>
    show decodeMajor (encXI _ _ _ _) = _
    simp [decodeMajor_xli, decXli]
  | xview | xshape | xflags =>
    show decodeMajor (encXR _ _ _ _ _ _ _ _ _) = _
    simp [decodeMajor_view, decView]
  | mfmt =>
    show decodeMajor (encXR _ _ _ _ _ _ _ _ _) = _
    simp [decodeMajor_mfmt, decMfmt]
  | mmaAcc | mmaNew | mmaZero | mmarAcc | mmarNew | mmarZero =>
    show decodeMajor (encMM _ _ _ _ _ _ _) = _
    simp [decodeMajor_mma, decMma]
  | aread => exact decodes_aread _ _ _ h
  | arel =>
    show decodeMajor (encXR _ _ _ _ _ _ _ _ _) = _
    simp [decodeMajor_arel, decArel]
  | spawn => exact decodes_spawn ..
  | getid => exact decodes_getid ..
  | dstat => exact decodes_dstat ..
  | srd => exact decodes_srd ..
  | swr => exact decodes_swr ..
  | exit | yield | sysc | step | allot | time | gcall | gret | gmake | grevoke | grevokeEject | tret | tretSkip | ctxst | ctxld | engrd
  | engwr | dbgstop | haltg =>
    show decodeMajor (encSY _ _ _ _ _) = _
    simp [decodeMajor_system, decSystem]
  | nop =>
    show decodeMajor (encHN _ _) = _
    simp [decodeMajor_hint, decHint]
  | hint p =>
    have hp : p ≠ 0#26 := bne_iff_ne.mp h
    show decodeMajor (encHN _ _) = _
    simp [decodeMajor_hint, decHint, hp]
  | sig => exact decodes_sig ..
  | _ => cases hw -- the events, which have no word

/-! ## What decodes is a word -/

/-- The answer is an error or an instruction that has a word. -/
def yieldsWord : Except DecodeError Instr → Bool
  | .ok i => i.isWord
  | .error _ => true

section
variable (f : Fields) {i : Instr}

theorem yieldsWord_noShift (s : BitVec 4) (h : i.isWord = true) : yieldsWord (noShift s i) = true := by
  unfold noShift
  split
  · exact h
  · rfl

theorem yieldsWord_noKill (h : i.isWord = true) : yieldsWord (noKill f i) = true := by
  unfold noKill
  split
  · rfl
  · exact h

theorem yieldsWord_tileNum (r : RegNum) {k : BitVec 3 → Instr} (h : ∀ n, (k n).isWord = true) : yieldsWord (tileNum r k) = true := by
  unfold tileNum
  split
  · exact h _
  · rfl

theorem yieldsWord_withEt {k : ElemTy → Except DecodeError Instr} (h : ∀ e, yieldsWord (k e) = true) :
    yieldsWord (withEt f k) = true := by
  unfold withEt
  split
  · exact h _
  · rfl

@[simp] theorem yieldsWord_decInt : yieldsWord (decInt f) = true := by
  unfold decInt
  split
  case h_3 | h_4 | h_8 | h_9 | h_10 => exact yieldsWord_noShift _ rfl
  all_goals rfl

@[simp] theorem yieldsWord_decImm : yieldsWord (decImm f) = true := by
  unfold decImm
  split <;> rfl

@[simp] theorem yieldsWord_decCap : yieldsWord (decCap f) = true := by
  unfold decCap
  dsimp only
  split
  case h_5 => split <;> rfl
  case h_8 => rfl
  all_goals exact yieldsWord_noShift _ rfl

@[simp] theorem yieldsWord_decBranch : yieldsWord (decBranch f) = true := by
  unfold decBranch
  split <;> rfl

@[simp] theorem yieldsWord_decJump : yieldsWord (decJump f) = true := by
  unfold decJump
  split <;> rfl

@[simp] theorem yieldsWord_decJumpReg : yieldsWord (decJumpReg f) = true := by
  unfold decJumpReg
  split <;> rfl

@[simp] theorem yieldsWord_decMred : yieldsWord (decMred f) = true := by
  unfold decMred
  split <;> rfl

@[simp] theorem yieldsWord_decPage : yieldsWord (decPage f) = true := by
  unfold decPage
  split <;> rfl

@[simp] theorem yieldsWord_decCounter : yieldsWord (decCounter f) = true := by
  unfold decCounter
  dsimp only
  repeat' split
  all_goals rfl

@[simp] theorem yieldsWord_decCopy : yieldsWord (decCopy f) = true := by
  unfold decCopy
  split <;> rfl

@[simp] theorem yieldsWord_decVecInt (e : ElemTy) : yieldsWord (decVecInt f e) = true := by
  unfold decVecInt
  split
  case h_12 | h_13 => rfl
  all_goals exact yieldsWord_noKill f rfl

@[simp] theorem yieldsWord_decFloat (e : ElemTy) : yieldsWord (decFloat f e) = true := by
  unfold decFloat
  split
  case h_4 | h_5 | h_9 => rfl
  all_goals exact yieldsWord_noKill f rfl

@[simp] theorem yieldsWord_decFused : yieldsWord (decFused f) = true := by
  unfold decFused
  dsimp only
  repeat' split
  all_goals rfl

@[simp] theorem yieldsWord_decRoot (e : ElemTy) : yieldsWord (decRoot f e) = true := by
  unfold decRoot
  split
  case h_7 => rfl
  all_goals exact yieldsWord_noKill f rfl

@[simp] theorem yieldsWord_decCompare (e : ElemTy) : yieldsWord (decCompare f e) = true := by
  unfold decCompare
  split <;> rfl

@[simp] theorem yieldsWord_decSelect (e : ElemTy) : yieldsWord (decSelect f e) = true := by
  unfold decSelect
  split
  case h_1 | h_5 => rfl
  all_goals exact yieldsWord_noKill f rfl

@[simp] theorem yieldsWord_decConvert (e : ElemTy) : yieldsWord (decConvert f e) = true := by
  unfold decConvert
  split
  case h_6 => split <;> rfl
  all_goals exact yieldsWord_noKill f rfl

@[simp] theorem yieldsWord_decReduce (e : ElemTy) : yieldsWord (decReduce f e) = true := by
  unfold decReduce
  split
  case h_7 => rfl
  all_goals exact yieldsWord_noKill f rfl

@[simp] theorem yieldsWord_decMove (e : ElemTy) : yieldsWord (decMove f e) = true := by
  unfold decMove
  split
  case h_4 => rfl
  all_goals exact yieldsWord_noKill f rfl

@[simp] theorem yieldsWord_decXli : yieldsWord (decXli f) = true := by
  unfold decXli
  dsimp only
  split <;> rfl

@[simp] theorem yieldsWord_decView : yieldsWord (decView f) = true := by
  unfold decView
  split
  case h_2 =>
    split
    · rfl
    · exact yieldsWord_tileNum _ fun _ => rfl
  case h_4 => rfl
  all_goals exact yieldsWord_noKill f rfl

@[simp] theorem yieldsWord_decMfmt : yieldsWord (decMfmt f) = true := by
  unfold decMfmt
  split
  · exact yieldsWord_noKill f rfl
  · rfl

@[simp] theorem yieldsWord_decAread : yieldsWord (decAread f) = true := by
  unfold decAread
  split
  case h_1 | h_2 =>
    split
    · rfl
    · exact yieldsWord_tileNum _ fun _ => rfl
  all_goals rfl

@[simp] theorem yieldsWord_decArel : yieldsWord (decArel f) = true := by
  unfold decArel
  split
  · exact yieldsWord_noKill f rfl
  · rfl

@[simp] theorem yieldsWord_decMma : yieldsWord (decMma f) = true := by
  unfold decMma
  dsimp only
  split <;> rfl

@[simp] theorem yieldsWord_decSystem : yieldsWord (decSystem f) = true := by
  unfold decSystem
  repeat' split
  all_goals rfl

@[simp] theorem yieldsWord_decHint : yieldsWord (decHint f) = true := by
  unfold decHint
  split <;> rfl

@[simp] theorem yieldsWord_decSig : yieldsWord (decSig f) = true := rfl

/-- R56: the decoder of every major answers with words only. -/
theorem yieldsWord_decodeMajor : yieldsWord (decodeMajor f) = true := by
  unfold decodeMajor
  split
  case h_1 | h_45 => rfl -- the majors that are illegal or reserved
  case h_4 | h_9 | h_10 | h_11 | h_13 => rfl -- the majors of one word
  all_goals simp [yieldsWord_withEt]

end

/-! ## Words -/

/-- The one word of all ones, which decodes to nothing (R75), holds the fields of a `sig` that is not well formed. -/
theorem decodeMajor_ones : decodeMajor (Fields.of 0xFFFFFFFF) = .ok (.sig 0xFFFFF 0x3F) := rfl

theorem encode_ne_ones {i : Instr} (hw : i.isWord = true) (h : i.wf = true) : encode i ≠ 0xFFFFFFFF := by
  intro he
  have hf : encodeFields i = Fields.of 0xFFFFFFFF := by rw [← he, encode, Fields.of_pack]
  have hd := decodeMajor_encodeFields i hw h
  rw [hf, decodeMajor_ones] at hd
  obtain rfl := Except.ok.inj hd
  exact absurd h (by decide)

theorem decodeWord_eq_ok_iff (w : Word32) (i : Instr) :
    decodeWord w = .ok i ↔ w ≠ 0xFFFFFFFF ∧ decodeMajor (Fields.of w) = .ok i ∧ i.wf = true := by
  unfold decodeWord
  split
  · next h => simp [h]
  · next h =>
    cases decodeMajor (Fields.of w) with
    | error e => simp
    | ok j => grind

theorem decodeWord_encode {i : Instr} (hw : i.isWord = true) (h : i.wf = true) : decodeWord (encode i) = .ok i := by
  refine (decodeWord_eq_ok_iff _ _).mpr ⟨encode_ne_ones hw h, ?_, h⟩
  rw [encode, Fields.of_pack, decodeMajor_encodeFields i hw h]

theorem isWord_of_decodeMajor {f : Fields} {i : Instr} (h : decodeMajor f = .ok i) : i.isWord = true := by
  have hw := yieldsWord_decodeMajor f
  rwa [h] at hw

/-- Settles O47: a well-formed word is the fields that its major reads back, and the decoder asks of every answer that it is well formed. -/
theorem encodingRoundTrip : Obligations.EncodingRoundTrip := by
  unfold Obligations.EncodingRoundTrip
  refine ⟨fun i hw h => decodeWord_encode hw h, fun w i h => ?_⟩
  obtain ⟨-, hd, hwf⟩ := (decodeWord_eq_ok_iff w i).mp h
  exact ⟨isWord_of_decodeMajor hd, hwf⟩

/-- Settles O48: each sample is decoded by computation. -/
theorem decodeSamples : Obligations.DecodeSamples := by
  unfold Obligations.DecodeSamples
  repeat refine ⟨rfl, ?_⟩
  intro w hw i h
  simp only [List.mem_cons, List.not_mem_nil, or_false] at hw
  obtain rfl | rfl | rfl | rfl := hw
  all_goals cases h

end Sys2Proof
end

section
/-! A step and the word it runs (O46, O49): what the words of the hint region and the illegal word do, what a fetch leaves, what a
decoded word meets before its meaning, and which step a machine takes where one word is all that can happen. -/

namespace Sys2Proof.Machine

open Sys2Proof

/-! ## Hint words, `sig`, and the word that is no instruction (R74, R75, R381) -/

theorem exec_nop (s : State) : exec .nop s = retireHint s := rfl
theorem exec_hint (p : BitVec 26) (s : State) : exec (.hint p) s = retireHint s := rfl
theorem exec_sig (crc : BitVec 20) (len : BitVec 6) (s : State) : exec (.sig crc len) s = execSig crc len s := rfl
theorem exec_illegalInstruction (s : State) : exec .illegalInstruction s = execIllegalInstruction s := rfl

/-- The word goes on at the next word, and beside the program counter it changes no more than the checker. -/
def Quiet (s t : State) : Prop :=
  t.pc = s.pc + 4 ∧ t.thr.ctx.pend = s.thr.ctx.pend ∧ t.thr.ctx.regs = s.thr.ctx.regs ∧ t.thr.ctx.regMarks = s.thr.ctx.regMarks ∧
    t.thr.stall = s.thr.stall ∧ Agrees s t ∧ SameBytes s t

theorem quiet_advance (s : State) : Quiet s s.advance :=
  ⟨s.advance_pc, rfl, rfl, rfl, rfl, Agrees.setPc s _, (Agrees.setPc s _).bytes⟩

/-- An update of the checker alone keeps a word quiet. -/
theorem Quiet.withChecker {s t : State} (h : Quiet s t) (f : Ctx → Checker) :
    Quiet s (t.modCtx fun c => { c with checker := f c }) := by
  obtain ⟨hpc, hpend, hregs, hmarks, hstall, hrest, hbytes⟩ := h
  exact ⟨hpc, hpend, hregs, hmarks, hstall, hrest.trans ⟨rfl, rfl, rfl⟩, hbytes⟩

theorem hintChecked_eq (s : State) : hintChecked s = s.modCtx fun c =>
    { c with checker := { (State.checkedCtx c).checker with landed := c.checker.landed } } := rfl

theorem quiet_hintChecked (s : State) : Quiet s (hintChecked s.advance) := by
  rw [hintChecked_eq]
  exact (quiet_advance s).withChecker _

theorem happens_of_retireHint {i : Instr} {s : State} (h : exec i s = retireHint s) : Happens i s (Quiet s) :=
  ⟨_, h, quiet_hintChecked s⟩

theorem execSig_of_off {s : State} (crc : BitVec 20) (len : BitVec 6) (h : (s.world s.thr.world).sigCheck = false) :
    execSig crc len s = retireHint s := by
  simp [execSig, h]

theorem execSig_of_on {s : State} {crc : BitVec 20} {len : BitVec 6} (h : (s.world s.thr.world).sigCheck = true)
    (hc : len = 0 → crc = 0xFFFFF) : execSig crc len s = .next (loadSig crc len s).advance := by
  rw [execSig, if_pos h, if_neg fun ⟨hl, hn⟩ => hn (hc hl)]

/-- Loading the checker and going on commute: `sig` is quiet, too. -/
theorem quiet_loadSig (crc : BitVec 20) (len : BitVec 6) (s : State) : Quiet s (loadSig crc len s).advance :=
  (quiet_advance s).withChecker fun _ =>
    { inBlock := true, crc := 0xFFFFF, want := crc, left := len.toNat, sigPc := s.pc, landed := false }

theorem traps_of_raise {i : Instr} {s : State} {code : BitVec 8} {addr : Word64} (h : exec i s = s.finish (raise code addr)) :
    Traps i s code addr := h

/-- Settles O46: each word of the hint region retires quietly, and the illegal word does nothing but raise its fault. -/
theorem hintsAndIllegalWords : Obligations.HintsAndIllegalWords := by
  unfold Obligations.HintsAndIllegalWords
  intro p crc len s
  refine ⟨happens_of_retireHint (exec_nop s), happens_of_retireHint (exec_hint p s), fun hoff => ?_, fun hon hcrc => ?_, ?_⟩
  · exact happens_of_retireHint ((exec_sig crc len s).trans (execSig_of_off crc len hoff))
  · exact ⟨_, (exec_sig crc len s).trans (execSig_of_on hon hcrc), quiet_loadSig crc len s, rfl, rfl, rfl, rfl, rfl, rfl⟩
  · exact traps_of_raise (exec_illegalInstruction s)

/-! ## The fetch (R48, R49, R127) -/

/-- A fetch that answers changes nothing but the word that it has put before the thread. -/
theorem fetch_state {s u : State} {w : Word32} (h : fetch s = .ok (w, u)) : u = s.modCtx fun c => { c with ir := w } := by
  obtain ⟨⟨ps, t⟩, ha, h⟩ := Res.bind_ok h
  obtain rfl := State.access_state ha
  dsimp only at h
  split at h
  · cases h
  · cases h; rfl

section
variable {s u : State} {w : Word32} (hf : fetch s = .ok (w, u))
include hf

theorem fetch_ir : u.thr.ctx.ir = w := by rw [fetch_state hf]; rfl

theorem fetch_pc : u.pc = s.pc := by rw [fetch_state hf]; rfl

theorem fetchAndRun_of_decoded {i : Instr} (hd : decodeWord w = .ok i) : fetchAndRun s = runWord i u := by
  simp only [fetchAndRun, hf, hd]

theorem fetchAndRun_of_undecoded {e : DecodeError} (hd : decodeWord w = .error e) : fetchAndRun s = exec .illegalInstruction u := by
  simp only [fetchAndRun, hf, hd, exec_illegalInstruction]

end

/-! ## What a decoded word meets before its meaning (R93, R237, R364, R381) -/

theorem wordVerdict_of_isHint {i : Instr} (s : State) (h : isHint i = true) : wordVerdict i s = .ok () := by
  simp [wordVerdict, checkerVerdict, h]

/-- Where no fault is due, or at a word that meets none, only the checker speaks. -/
theorem wordVerdict_eq_checkerVerdict {i : Instr} {s : State}
    (h : (∃ p, i = .hint p) ∨ (∃ c l, i = .sig c l) ∨ i = .nop ∨ firstDue (dueAt i s) = none) :
    wordVerdict i s = checkerVerdict i s := by
  obtain ⟨p, rfl⟩ | ⟨c, l, rfl⟩ | rfl | hn := h
  case inr.inr.inr => simp [wordVerdict, hn]
  all_goals rfl

section
variable {i : Instr} {u : State} (hr : endsWindows i = true → u.resultPending = false)
include hr

theorem runWord_of_clear (hv : wordVerdict i (atIssue i u) = .ok ()) (hw : areadPending u.thr u = true → usesWindow i = false) :
    runWord i u = exec i (atIssue i u) := by
  have h1 : ¬ (endsWindows i && u.resultPending) = true := by grind
  have h2 : ¬ (areadPending u.thr u && usesWindow i) = true := by grind
  simp only [runWord, if_neg h1, hv, if_neg h2]

theorem runWord_of_fault {f : FaultInfo} (hv : wordVerdict i (atIssue i u) = .error (.fault f)) :
    runWord i u = .next ((atIssue i u).clearStall.deliverTrap f) := by
  have h1 : ¬ (endsWindows i && u.resultPending) = true := by grind
  simp only [runWord, if_neg h1, hv, State.finish_fault]

end

/-- A hint word runs whatever is due, still to be written or owed to the checker. -/
theorem runWord_of_hint {i : Instr} (u : State) (h : i = .nop ∨ ∃ p, i = .hint p) : runWord i u = exec i u := by
  have hh : isHint i = true ∧ endsWindows i = false ∧ usesWindow i = false := by
    obtain rfl | ⟨p, rfl⟩ := h <;> exact ⟨rfl, rfl, rfl⟩
  obtain ⟨hint, hends, huses⟩ := hh
  have hat : atIssue i u = u := by simp [atIssue, hends]
  have hrun := runWord_of_clear (u := u) (by simp [hends]) (wordVerdict_of_isHint (atIssue i u) hint) fun _ => huses
  rwa [hat] at hrun

/-! ## The step of a machine where one word is all that can happen -/

theorem step_of_word {s : State} {k : Nat} (hi : s.inputs = []) (ha : actions s = [.word k]) :
    step s = andPass (issueFocused (s.focus k)) := by
  simp only [step, advanceMachine, hi, nextInput, ha, perform, issueWord]

theorem issueFocused_of_faultQueue {s : State} {f : FaultInfo} (h : s.thr.stall = some (.faultQueue f)) :
    issueFocused s = .next (s.clearStall.deliverTrap f) := by
  simp only [issueFocused, h]

theorem issueFocused_of_no_fault {s : State} (h : ∀ f, s.thr.stall ≠ some (.faultQueue f)) : issueFocused s = fetchAndRun s := by
  unfold issueFocused
  split
  · next f hf => exact absurd hf (h f)
  · rfl

/-- Settles O49: the step is the one word's issue, and a word issues by the fetch, the verdict and its meaning in turn. -/
theorem stepRunsDecoded : Obligations.StepRunsDecoded := by
  unfold Obligations.StepRunsDecoded
  intro s u k w hi ha
  have hstep := step_of_word hi ha
  refine ⟨fun f hq => by rw [hstep, issueFocused_of_faultQueue hq], fun hq hf => ?_⟩
  rw [issueFocused_of_no_fault hq] at hstep
  refine ⟨fetch_ir hf, fetch_pc hf, fun i hh hd => ?_, fun e hd => ?_, fun i hd => ?_⟩
  · rw [hstep, fetchAndRun_of_decoded hf hd, runWord_of_hint u hh]
  · rw [hstep, fetchAndRun_of_undecoded hf hd]
  · rw [hstep, fetchAndRun_of_decoded hf hd]
    intro v hr
    refine ⟨fun hdue hc hw => ?_, fun f hv => ?_⟩
    · rw [runWord_of_clear hr ((wordVerdict_eq_checkerVerdict hdue).trans hc) hw]; rfl
    · rw [runWord_of_fault hr hv]; rfl

end Sys2Proof.Machine
end

section
/-! Operations that leave memory as it is (frame rules): one rule for each function of the model that touches no byte. -/

namespace Sys2Proof.Machine

open Sys2Proof

/-! Memory and its log. -/

@[simp] theorem State.logEvent_mem (s e) : (State.logEvent s e).mem = s.mem := rfl
@[simp] theorem State.noteRead_mem (s q pa n) : (State.noteRead s q pa n).mem = s.mem := by unfold State.noteRead; split <;> simp

/-! Accesses and waits. -/

@[simp] theorem State.waitIn_mem (k s) : (State.waitIn k s).mem = s.mem := rfl
@[simp] theorem State.setPte_mem (s w entry e) : (State.setPte s w entry e).mem = s.mem := rfl
theorem State.popFrame_mem (s : State) (w level) : ∀ p ∈ s.popFrame w level, p.2.mem = s.mem := by
  unfold State.popFrame
  simp only []
  (repeat' split) <;> simp
@[simp] theorem State.splitTouch_mem (w entry s) : (State.splitTouch w entry s).mem = s.mem := rfl
theorem State.fillTouch_mem (who va level owner entry r w x) (s : State) :
    ∀ t ∈ State.fillTouch who va level owner entry r w x s, t.mem = s.mem := by
  unfold State.fillTouch
  split
  · simp
  · split
    · simp
    · intro t ht
      obtain ⟨p, hp, rfl⟩ := Option.map_eq_some_iff.mp ht
      simpa using State.popFrame_mem _ _ _ _ hp
@[simp] theorem State.askHost_mem (key s) : (State.askHost key s).mem = s.mem := by unfold State.askHost; split <;> rfl
@[simp] theorem State.sendFlit_mem (dst world cref stepNo sseq body s) : (State.sendFlit dst world cref stepNo sseq body s).mem = s.mem := rfl
@[simp] theorem State.sendRequest_mem (pa world cref stepNo sseq gen sector op s)
    : (State.sendRequest pa world cref stepNo sseq gen sector op s).mem = s.mem := by
  unfold State.sendRequest
  split <;> rfl

/-! Registers, streams, logs and threads. -/

@[simp] theorem State.writeInt_mem (s r v) : (State.writeInt s r v).mem = s.mem := by simp [State.writeInt]
@[simp] theorem State.deliver_mem (s d lk val mark) : (State.deliver s d lk val mark).mem = s.mem := by unfold State.deliver; (repeat' split) <;> simp
@[simp] theorem State.awaitResult_mem (s d lk cmd) : (State.awaitResult s d lk cmd).mem = s.mem := rfl
@[simp] theorem State.landList_mem (s a) : (State.landList s a).mem = s.mem := by fun_induction State.landList <;> simp [*]
@[simp] theorem State.landDue_mem (s) : (State.landDue s).mem = s.mem := by simp [State.landDue]
@[simp] theorem State.landAll_mem (s) : (State.landAll s).mem = s.mem := by simp [State.landAll]
@[simp] theorem State.completeOldest_mem (s) : (State.completeOldest s).mem = s.mem := by unfold State.completeOldest; split <;> rfl
@[simp] theorem State.completeN_mem (s a) : (State.completeN s a).mem = s.mem := by fun_induction State.completeN <;> simp [*]
@[simp] theorem State.drain_mem (s) : (State.drain s).mem = s.mem := by simp [State.drain]
@[simp] theorem State.freeze_mem (s) : (State.freeze s).2.mem = s.mem := by unfold State.freeze; split <;> simp
@[simp] theorem State.reinstate_mem (s f) : (State.reinstate s f).mem = s.mem := rfl
@[simp] theorem State.completeInto_mem (s a n) : (State.completeInto s a n).mem = s.mem := by simp [State.completeInto]
@[simp] theorem State.streamRoom_mem (s) : (State.streamRoom s).mem = s.mem := by unfold State.streamRoom; split <;> simp
@[simp] theorem State.streamWrite_mem (s kind off bs flags) : (State.streamWrite s kind off bs flags).mem = s.mem := by simp [State.streamWrite]
@[simp] theorem State.setQueue_mem (s q l) : (State.setQueue s q l).mem = s.mem := rfl
@[simp] theorem State.completeHead_mem (s q) : (State.completeHead s q).mem = s.mem := by unfold State.completeHead; (repeat' split) <;> simp
@[simp] theorem State.logEntry_mem (s v size) : (State.logEntry s v size).mem = s.mem := by unfold State.logEntry; (repeat' split) <;> rfl
@[simp] theorem State.logValue_mem (s v size) : (State.logValue s v size).mem = s.mem := by simp [State.logValue]
@[simp] theorem State.countEffect_mem (s) : (State.countEffect s).mem = s.mem := by unfold State.countEffect; split <;> rfl
theorem State.skipEffect_mem (s) : ∀ t ∈ State.skipEffect s, t.mem = s.mem := by unfold State.skipEffect; split <;> simp
@[simp] theorem State.endTask_mem (s) : (State.endTask s).mem = s.mem := rfl
@[simp] theorem State.useStamp_mem (s) : (State.useStamp s).mem = s.mem := by unfold State.useStamp; split <;> rfl
@[simp] theorem State.focus_mem (s t) : (State.focus s t).mem = s.mem := by unfold State.focus; (repeat' split) <;> rfl
/-- A fold over updates that leave memory alone leaves it alone. -/
@[simp] theorem foldl_mem {α : Type} {f : State → α → State} (h : ∀ u x, (f u x).mem = u.mem) (l : List α) (s : State) :
    (l.foldl f s).mem = s.mem := by
  induction l generalizing s with
  | nil => rfl
  | cons x r ih => rw [List.foldl_cons, ih, h]

/-- An event that makes a state of something found leaves memory alone where making it does. -/
theorem map_mem {α : Type} {o : Option α} {f : α → State} {s : State} (h : ∀ a, (f a).mem = s.mem) : ∀ t ∈ o.map f, t.mem = s.mem := by
  cases o with
  | none => simp
  | some a => simpa using h a
@[simp] theorem State.modAll_mem (s f) : (State.modAll s f).mem = s.mem := rfl
@[simp] theorem State.noteEach_mem (p v) (s : State) : (State.noteEach p v s).mem = s.mem := by simp [State.noteEach]
@[simp] theorem State.pushFault_mem (s w r) : (State.pushFault s w r).mem = s.mem := rfl
@[simp] theorem State.dropQueues_mem (s) : (State.dropQueues s).mem = s.mem := rfl
@[simp] theorem State.enterDomain_mem (s g trap retpc nb zeroFrom frozen) : (State.enterDomain s g trap retpc nb zeroFrom frozen).mem = s.mem := rfl
@[simp] theorem State.releaseGate_mem (s w g) : (State.releaseGate s w g).mem = s.mem := rfl
@[simp] theorem State.leaveGate_mem (s e rest status results) : (State.leaveGate s e rest status results).mem = s.mem := rfl
@[simp] theorem State.leaveTrap_mem (s e rest) : (State.leaveTrap s e rest).mem = s.mem := rfl
@[simp] theorem State.stopFaulted_mem (s) : (State.stopFaulted s).mem = s.mem := rfl
@[simp] theorem State.waitForQueue_mem (f s) : (State.waitForQueue f s).mem = s.mem := rfl
@[simp] theorem State.takeDue_mem (s due) : (State.takeDue s due).mem = s.mem := by unfold State.takeDue; split <;> rfl
@[simp] theorem State.dueAgain_mem (s due) : (State.dueAgain s due).mem = s.mem := by unfold State.dueAgain; split <;> rfl
@[simp] theorem State.enterTrap_mem (s g f) : (State.enterTrap s g f).mem = s.mem := by simp [State.enterTrap]
@[simp] theorem State.hostFault_mem (s f) : (State.hostFault s f).mem = s.mem := rfl
@[simp] theorem State.restoreError_mem (s) : (State.restoreError s).mem = s.mem := rfl
@[simp] theorem State.deliverTrap_mem (s f) : (State.deliverTrap s f).mem = s.mem := by simp only [State.deliverTrap]; (repeat' split) <;> simp
@[simp] theorem State.trapReturn_mem (s skip) : (State.trapReturn s skip).mem = s.mem := by unfold State.trapReturn; (repeat' split) <;> simp
theorem State.heldBy_mem {f : State → State} (h : ∀ u, (f u).mem = u.mem) (s : State) : (State.heldBy f s).mem = s.mem := h s
@[simp] theorem State.sendPri_mem (k s) : (State.sendPri k s).mem = s.mem := by unfold State.sendPri; (repeat' split) <;> rfl

/-! Control transfer. -/

@[simp] theorem deeper_mem (s) : (deeper s).mem = s.mem := rfl
@[simp] theorem enterCode_mem (x s) : (enterCode x s).mem = s.mem := rfl
@[simp] theorem returnStep_mem (s) : (returnStep s).mem = s.mem := by unfold returnStep; (repeat' split) <;> simp

/-! Loads and stores. -/

@[simp] theorem updateBase_mem (a m b n c s) : (updateBase a m b n c s).mem = s.mem := by unfold updateBase; split <;> simp
@[simp] theorem noteReads_mem (ps s) : (noteReads ps s).mem = s.mem := by unfold noteReads; split <;> rfl

/-! Memory reductions. -/

@[simp] theorem recordMred_mem (p pa s) : (recordMred p pa s).mem = s.mem := by simp only [recordMred]; (repeat' split) <;> simp
@[simp] theorem takeReply_mem (d l v code line old s) : (takeReply d l v code line old s).mem = s.mem := by unfold takeReply; (repeat' split) <;> simp

/-! Counters. -/

@[simp] theorem setSwValue_mem (s k v) : (setSwValue s k v).mem = s.mem := rfl
@[simp] theorem leaveDropped_mem (k n v s) : (leaveDropped k n v s).mem = s.mem := rfl
@[simp] theorem settle_mem (k n fuel s) : (settle k n fuel s).mem = s.mem := by
  induction fuel generalizing s with
  | zero => rfl
  | succ fuel ih =>
    rw [settle]
    split
    · rfl
    · simp only []
      split <;> simp [ih]
@[simp] theorem settleAll_mem (k n s) : (settleAll k n s).mem = s.mem := settle_mem ..
@[simp] theorem setMember_mem (n count x s) : (setMember n count x s).mem = s.mem := rfl
@[simp] theorem setMask_mem (n m s) : (setMask n m s).mem = s.mem := rfl
@[simp] theorem maskAgain_mem (n join drop s) : (maskAgain n join drop s).mem = s.mem := by unfold maskAgain; (repeat' split) <;> rfl
@[simp] theorem setLocal_mem (k v s) : (setLocal k v s).mem = s.mem := rfl
@[simp] theorem sendCounter_mem (r a op s) : (sendCounter r a op s).mem = s.mem := by unfold sendCounter; split <;> simp
@[simp] theorem noteRefused_mem (r s) : (noteRefused r s).mem = s.mem := by unfold noteRefused; split <;> simp
@[simp] theorem waitRequest_mem (r thr limit dest name gen s) : (waitRequest r thr limit dest name gen s).mem = s.mem := rfl
@[simp] theorem endWait_mem (v w s) : (endWait v w s).mem = s.mem := by unfold endWait; split <;> simp
@[simp] theorem endRefused_mem (code w s) : (endRefused code w s).mem = s.mem := by unfold endRefused; split <;> simp
@[simp] theorem judgeWaits_mem (s) : (judgeWaits s).mem = s.mem := rfl

/-! Operands. -/

@[simp] theorem fillVoid_mem (e r s) : (fillVoid e r s).mem = s.mem := by unfold fillVoid; split <;> rfl
@[simp] theorem fillMarked_mem (e l s) : (fillMarked e l s).mem = s.mem := by
  fun_induction fillMarked with
  | case1 => rfl
  | case2 s k r l ih => rw [ih]; split <;> simp

/-! Matrix units. -/

@[simp] theorem awaitTiles_mem (s a) : (awaitTiles s a).mem = s.mem := by fun_induction awaitTiles <;> simp [*]
@[simp] theorem modUnit_mem (c f s) : (modUnit c f s).mem = s.mem := rfl
@[simp] theorem snapSlot_mem (p c k s) : (snapSlot p c k s).mem = s.mem := by simp only [snapSlot]; (repeat' split) <;> simp
@[simp] theorem setSlot_mem (p c k x s) : (setSlot p c k x s).mem = s.mem := by simp [setSlot]
@[simp] theorem endSlot_mem (p c k s) : (endSlot p c k s).mem = s.mem := by simp only [endSlot]; (repeat' split) <;> simp
@[simp] theorem saveSlot_mem (c k s) : (saveSlot c k s).mem = s.mem := rfl
@[simp] theorem takeSlot_mem (c k m s) : (takeSlot c k m s).mem = s.mem := by simp only [takeSlot]; (repeat' split) <;> simp
@[simp] theorem waitEntry_mem (c core s) : (waitEntry c core s).mem = s.mem := by unfold waitEntry; split <;> rfl
@[simp] theorem acceptCmd_mem (c m s) : (acceptCmd c m s).mem = s.mem := rfl
@[simp] theorem addToK_mem (t k both v pc s) : (addToK t k both v pc s).mem = s.mem := by simp [addToK]
@[simp] theorem noteSlot_mem (c n m s) : (noteSlot c n m s).mem = s.mem := by simp [noteSlot]
@[simp] theorem acceptNew_mem (c m s0) : (acceptNew c m s0).2.mem = s0.mem := by unfold acceptNew; split <;> simp
@[simp] theorem presentNew_mem (c l p m s) : (presentNew c l p m s).mem = s.mem := by unfold presentNew; split <;> simp
@[simp] theorem notePair_mem (card regs reply cmd s) : (notePair card regs reply cmd s).mem = s.mem := by unfold notePair; split <;> rfl
@[simp] theorem noteChoice_mem (engine c t waiting s) : (noteChoice engine c t waiting s).mem = s.mem := by simp [noteChoice]
@[simp] theorem dropCmd_mem (c id s) : (dropCmd c id s).mem = s.mem := rfl
@[simp] theorem refuseCmd_mem (c line m s) : (refuseCmd c line m s).mem = s.mem := by simp [refuseCmd]
@[simp] theorem startCmd_mem (c m s) : (startCmd c m s).mem = s.mem := rfl
theorem tryMatrixCommandStart_mem (c s) : ∀ t ∈ tryMatrixCommandStart c s, t.mem = s.mem :=
  map_mem fun m => by simp only []; split <;> simp
@[simp] theorem onSaved_mem (c k m f s) : (onSaved c k m f s).mem = s.mem := by simp only [onSaved]; (repeat' split) <;> simp
@[simp] theorem onSlot_mem (c m f s) : (onSlot c m f s).mem = s.mem := by simp only [onSlot]; (repeat' split) <;> simp
theorem tryMatrixCommandComplete_mem (c id s) : ∀ t ∈ tryMatrixCommandComplete c id s, t.mem = s.mem := map_mem fun m => by simp
theorem tryAreadTileWrite_mem (c id s) : ∀ t ∈ tryAreadTileWrite c id s, t.mem = s.mem := by simp [tryAreadTileWrite]
theorem trySlotRelease_mem (c id s) : ∀ t ∈ trySlotRelease c id s, t.mem = s.mem := map_mem fun m => by simp only []; split <;> simp
@[simp] theorem fillResult_mem (id v s) : (fillResult id v s).mem = s.mem := rfl
@[simp] theorem acceptQueued_mem (c m s) : (acceptQueued c m s).mem = s.mem := by simp [acceptQueued]
theorem tryMatrixQueueGrant_mem (c s) : ∀ t ∈ tryMatrixQueueGrant c s, t.mem = s.mem := map_mem fun w => by cases w <;> simp

/-! Copy engines. -/

@[simp] theorem modEngine_mem (c f s) : (modEngine c f s).mem = s.mem := rfl
@[simp] theorem setJob_mem (c e j s) : (setJob c e j s).mem = s.mem := rfl
@[simp] theorem waitCard_mem (c s) : (waitCard c s).mem = s.mem := by unfold waitCard; split <;> rfl
@[simp] theorem recordJob_mem (card reads writes s) : (recordJob card reads writes s).mem = s.mem := by
  simp only [recordJob]
  (repeat' split) <;> simp
@[simp] theorem acceptJob_mem (n card at_ st dt ct s) : (acceptJob n card at_ st dt ct s).mem = s.mem := by simp [acceptJob]
@[simp] theorem resumeWhere_mem (c p s) : (resumeWhere c p s).mem = s.mem := rfl
@[simp] theorem sendReads_mem (j c ps s) : (sendReads j c ps s).mem = s.mem := by simp [sendReads]
@[simp] theorem sendWrites_mem (j c chunks s) : (sendWrites j c chunks s).mem = s.mem := by simp [sendWrites]
@[simp] theorem takeTags_mem (j landed old l s) : (takeTags j landed old l s).mem = s.mem := by
  induction l generalizing s with
  | nil => rfl
  | cons g r ih => rw [takeTags, ih]; (repeat' split) <;> simp
@[simp] theorem setSaved_mem (p c e j s) : (setSaved p c e j s).mem = s.mem := rfl
@[simp] theorem writeJobRecord_mem {put : Job → State → State} (hp : ∀ j s, (put j s).mem = s.mem) (c e j s) :
    (writeJobRecord put c e j s).mem = s.mem := by simp [writeJobRecord, hp]
/-! Updates of every job of the engines and of the save areas keep what each keeps. -/

section
variable {P : State → Prop} {f : (Job → State → State) → Nat → Nat → Job → State → State} {g : Nat → Nat → Job → State → State}

theorem eachEntry_keeps (hg : ∀ c e j s, P s → P (g c e j s)) (c : Nat) (l : List (Nat × Job)) : ∀ s, P s → P (eachEntry g c l s) := by
  induction l with
  | nil => exact fun s h => h
  | cons x r ih => exact fun s h => ih _ (hg _ _ _ _ h)

theorem eachJob_keeps (hg : ∀ c e j s, P s → P (g c e j s)) (l : List (Nat × Cluster)) : ∀ s, P s → P (eachJob g l s) := by
  induction l with
  | nil => exact fun s h => h
  | cons x r ih => exact fun s h => ih _ (eachEntry_keeps hg _ _ _ h)

theorem eachSaved_keeps (hf : ∀ c e c' e' p j s, P s → P (f (setSaved p c' e') c e j s)) (p : Nat) (l : List SavedJob) :
    ∀ s, P s → P (eachSaved f p l s) := by
  induction l with
  | nil => exact fun s h => h
  | cons x r ih => exact fun s h => ih _ (hf _ _ _ _ _ _ _ h)

theorem eachSavedIn_keeps (hf : ∀ c e c' e' p j s, P s → P (f (setSaved p c' e') c e j s)) (l : List (Nat × Partition)) :
    ∀ s, P s → P (eachSavedIn f l s) := by
  induction l with
  | nil => exact fun s h => h
  | cons x r ih => exact fun s h => ih _ (eachSaved_keeps hf _ _ _ h)

/-- An update that keeps something however it puts the job back keeps it over every job. -/
theorem everyJob_keeps (hf : ∀ put c e j s, (∀ j s, (put j s).mem = s.mem) → P s → P (f put c e j s)) {s : State} (h : P s) :
    P (everyJob f s) :=
  eachSavedIn_keeps (fun c e c' e' p j s => hf _ c e j s (setSaved_mem p c' e')) _ _
    (eachJob_keeps (fun c e j s => hf _ c e j s (setJob_mem c e)) _ _ h)

end
@[simp] theorem payRecord_mem {put : Job → State → State} (hp : ∀ j s, (put j s).mem = s.mem) (w c e j s) :
    (payRecord w put c e j s).mem = s.mem := by
  unfold payRecord
  simp only []
  (repeat' split) <;> simp [hp]
theorem tryCopyQueueGrant_mem (c s) : ∀ t ∈ tryCopyQueueGrant c s, t.mem = s.mem := map_mem fun h => by simp

/-! Threads and scheduling. -/

@[simp] theorem modCore_mem (c k f s) : (modCore c k f s).mem = s.mem := rfl
@[simp] theorem makeReady_mem (t s) : (makeReady t s).mem = s.mem := by simp [makeReady]
@[simp] theorem addThread_mem (h s) : (addThread h s).mem = s.mem := by unfold addThread; (repeat' split) <;> rfl
@[simp] theorem noteChild_mem (ref s) : (noteChild ref s).mem = s.mem := by unfold noteChild; split <;> rfl
@[simp] theorem createChild_mem (dw0 dw1 g home s) : (createChild dw0 dw1 g home s).2.mem = s.mem := by unfold createChild; (repeat' split) <;> simp
@[simp] theorem reportExit_mem (l st s) : (reportExit l st s).mem = s.mem := rfl
@[simp] theorem endThread_mem (st s) : (endThread st s).mem = s.mem := by simp only [endThread]; (repeat' split) <;> simp
@[simp] theorem freeTickets_mem (w s) : (freeTickets w s).mem = s.mem := rfl
@[simp] theorem ringRequest_mem (t n a d q s) : (ringRequest t n a d q s).mem = s.mem := rfl
@[simp] theorem placeRequest_mem (t n a d q s) : (placeRequest t n a d q s).mem = s.mem := by unfold placeRequest; split <;> rfl
@[simp] theorem placeWaiting_mem (t n a d s) : (placeWaiting t n a d s).mem = s.mem := by simp only [placeWaiting]; (repeat' split) <;> simp
@[simp] theorem regrant_mem (n v s) : (regrant n v s).mem = s.mem := by unfold regrant; split <;> rfl
@[simp] theorem takeLogged_mem (n d e s) : (takeLogged n d e s).mem = s.mem := by simp [takeLogged]

/-! Gates. -/

@[simp] theorem farCall_mem (w g x s) : (farCall w g x s).mem = s.mem := by simp [farCall]
@[simp] theorem sendBack_mem (id status args window remain s) : (sendBack id status args window remain s).mem = s.mem := rfl
@[simp] theorem farSend_mem (e status s) : (farSend e status s).mem = s.mem := by unfold farSend; (repeat' split) <;> simp
@[simp] theorem clearArgs_mem (s) : (clearArgs s).mem = s.mem := rfl
@[simp] theorem unwindGate_mem (e r status results s) : (unwindGate e r status results s).mem = s.mem := by simp [unwindGate]
@[simp] theorem popTop_mem (s) : (popTop s).mem = s.mem := by unfold popTop; (repeat' split) <;> simp
@[simp] theorem unwindTo_mem (status l s) : (unwindTo status l s).mem = s.mem := by fun_induction unwindTo <;> simp [*]
@[simp] theorem releaseEntries_mem (l s) : (releaseEntries l s).mem = s.mem := by fun_induction releaseEntries <;> simp [*]
@[simp] theorem modEvery_mem (f s) : (modEvery f s).mem = s.mem := rfl
@[simp] theorem orphanHops_mem (t s) : (orphanHops t s).mem = s.mem := rfl
@[simp] theorem answerLost_mem (h l s) : (answerLost h l s).mem = s.mem := by
  fun_induction answerLost with
  | case1 => rfl
  | _ => rename_i ih; rw [ih]; split <;> simp
@[simp] theorem dropThread_mem (t s) : (dropThread t s).mem = s.mem := by unfold dropThread; split <;> rfl
@[simp] theorem freeThread_mem (h s) : (freeThread h s).mem = s.mem := by simp [freeThread]
@[simp] theorem killThread_mem (t s) : (killThread t s).mem = s.mem := by
  simp only [killThread]
  split
  · rw [freeTickets_mem]; split <;> simp
  · simp
@[simp] theorem unwindLost_mem (s) : (unwindLost s).mem = s.mem := by unfold unwindLost; split <;> simp
@[simp] theorem revokeGate_mem (w g s) : (revokeGate w g s).mem = s.mem := rfl
@[simp] theorem raiseDomain_mem (w d killed s) : (raiseDomain w d killed s).mem = s.mem := rfl
@[simp] theorem refreshDomain_mem (w dom old new s) : (refreshDomain w dom old new s).mem = s.mem := rfl
@[simp] theorem markEject_mem (w p g s) : (markEject w p g s).mem = s.mem := rfl
@[simp] theorem unwindAt_mem (n status s) : (unwindAt n status s).mem = s.mem := by unfold unwindAt; (repeat' split) <;> simp
@[simp] theorem dropWord_mem (s) : (dropWord s).mem = s.mem := rfl
theorem tryUnwind_mem (status t s) : ∀ u ∈ tryUnwind status t s, u.mem = s.mem := by
  unfold tryUnwind
  simp only []
  (repeat' split) <;> simp
@[simp] theorem giveGrace_mem (s) : (giveGrace s).mem = s.mem := by simp only [giveGrace]; (repeat' split) <;> simp
@[simp] theorem runOn_mem (t s) : (runOn t s).mem = s.mem := by unfold runOn; (repeat' split) <;> simp
theorem tryKillUnwind_mem (t s) : ∀ u ∈ tryKillUnwind t s, u.mem = s.mem := by
  unfold tryKillUnwind
  simp only []
  (repeat' split) <;> simp
@[simp] theorem setHop_mem (id f s) : (setHop id f s).mem = s.mem := rfl
@[simp] theorem landHop_mem (x c p s) : (landHop x c p s).mem = s.mem := rfl
theorem tryFarGateLanding_mem (id s) : ∀ t ∈ tryFarGateLanding id s, t.mem = s.mem := by simp only [tryFarGateLanding]; (repeat' split) <;> simp
theorem tryFarGateReturn_mem (id s) : ∀ t ∈ tryFarGateReturn id s, t.mem = s.mem := by unfold tryFarGateReturn; (repeat' split) <;> simp

/-! Moves. -/

@[simp] theorem setShape_mem (n v s) : (setShape n v s).mem = s.mem := rfl

/-! System words. -/

@[simp] theorem readStrmcnt_mem (s) : (readStrmcnt s).2.mem = s.mem := by simp only [readStrmcnt]; (repeat' split) <;> simp
@[simp] theorem sysRead_mem (n s) : (sysRead n s).2.mem = s.mem := by
  simp only [sysRead, apply_ite Prod.snd, apply_ite State.mem]
  simp
@[simp] theorem stopTarget_mem (t s) : (stopTarget t s).mem = s.mem := by simp [stopTarget]
@[simp] theorem captureTarget_mem (t s) : (captureTarget t s).mem = s.mem := by simp [captureTarget]
@[simp] theorem joinImage_mem (ticket h c s) : (joinImage ticket h c s).2.mem = s.mem := by simp [joinImage]
@[simp] theorem haltCores_mem (p groups s) : (haltCores p groups s).mem = s.mem := rfl

/-! Threads between their words. -/

@[simp] theorem parkThread_mem (t s) : (parkThread t s).mem = s.mem := by simp [parkThread]
@[simp] theorem wakeUp_mem (s) : (wakeUp s).mem = s.mem := by unfold wakeUp; split <;> simp
theorem wakeBroken_mem (code w s) : ∀ t ∈ wakeBroken code w s, t.mem = s.mem := by simp only [wakeBroken]; (repeat' split) <;> simp
theorem wakeAtHome_mem (w s) : ∀ t ∈ wakeAtHome w s, t.mem = s.mem := by
  unfold wakeAtHome
  simp only []
  split
  · split <;> simp
  · split
    · simp
    · split
      · split
        · exact wakeBroken_mem _ _ _
        · split <;> simp
      · simp
theorem tryWaiterWake_mem (t s) : ∀ u ∈ tryWaiterWake t s, u.mem = s.mem := by
  unfold tryWaiterWake
  simp only []
  split
  · simp
  · split
    · exact fun u hu => (wakeAtHome_mem _ _ u hu).trans (State.focus_mem s t)
    · split <;> simp
    · simp
theorem tryWaitLimitExpiry_mem (t s) : ∀ u ∈ tryWaitLimitExpiry t s, u.mem = s.mem := by
  unfold tryWaitLimitExpiry
  intro u hu
  obtain ⟨w, -, hw⟩ := Option.bind_eq_some_iff.mp hu
  split at hw
  · exact map_mem (fun v => by simp) u hw
  · cases hw
theorem tryPark_mem (t s) : ∀ u ∈ tryPark t s, u.mem = s.mem := map_mem fun _ => by simp
@[simp] theorem enterSlot_mem (t core slot s) : (enterSlot t core slot s).mem = s.mem := by simp [enterSlot]
@[simp] theorem refuseBroken_mem (h s) : (refuseBroken h s).mem = s.mem := by simp [refuseBroken]
@[simp] theorem takeReady_mem (h core slot s) : (takeReady h core slot s).mem = s.mem := by unfold takeReady; split <;> simp
theorem tryContinuationTake_mem (core slot s) : ∀ t ∈ tryContinuationTake core slot s, t.mem = s.mem := by unfold tryContinuationTake; split <;> simp
theorem trySteal_mem (core slot s) : ∀ t ∈ trySteal core slot s, t.mem = s.mem := by unfold trySteal; split <;> simp
theorem tryQuantumEnd_mem (t s) : ∀ u ∈ tryQuantumEnd t s, u.mem = s.mem := by
  unfold tryQuantumEnd
  simp only []
  (repeat' split) <;> simp
theorem tryPriorityAging_mem (t s) : ∀ u ∈ tryPriorityAging t s, u.mem = s.mem := map_mem fun _ => by simp
@[simp] theorem stopExhausted_mem (s) : (stopExhausted s).mem = s.mem := by unfold stopExhausted; split <;> simp
theorem tryAllotmentExhausted_mem (t s) : ∀ u ∈ tryAllotmentExhausted t s, u.mem = s.mem := by
  unfold tryAllotmentExhausted
  simp only []
  (repeat' split) <;> simp
theorem tryContinuationLimitRelease_mem (t s) : ∀ u ∈ tryContinuationLimitRelease t s, u.mem = s.mem := map_mem fun _ => by simp
@[simp] theorem takeSysc_mem (n v d s) : (takeSysc n v d s).mem = s.mem := by simp [takeSysc]
@[simp] theorem replyTo_mem (w k n v l s) : (replyTo w k n v l s).mem = s.mem := by fun_induction replyTo <;> simp [*]
@[simp] theorem replyToImages_mem (w k n v s) : (replyToImages w k n v s).mem = s.mem := rfl
@[simp] theorem replyWith_mem (w e v s) : (replyWith w e v s).mem = s.mem := by simp only [replyWith]; (repeat' split) <;> simp
theorem tryStreamEntryComplete_mem (t s) : ∀ u ∈ tryStreamEntryComplete t s, u.mem = s.mem := by
  unfold tryStreamEntryComplete
  simp only []
  (repeat' split) <;> simp
theorem tryLookaheadWrite_mem (t s) : ∀ u ∈ tryLookaheadWrite t s, u.mem = s.mem := by
  unfold tryLookaheadWrite
  simp only []
  (repeat' split) <;> simp
@[simp] theorem releaseReports_mem (l s) : (releaseReports l s).mem = s.mem := by fun_induction releaseReports <;> simp [*]
@[simp] theorem openStep_mem (p s) : (openStep p s).mem = s.mem := rfl
@[simp] theorem readyParked_mem (l s) : (readyParked l s).mem = s.mem := by
  fun_induction readyParked with
  | case1 => rfl
  | _ => rename_i ih; rw [ih]; split <;> simp
@[simp] theorem completeStep_mem (p s) : (completeStep p s).mem = s.mem := by simp [completeStep]
@[simp] theorem strayMember_mem (h s) : (strayMember h s).mem = s.mem := by simp only [strayMember]; (repeat' split) <;> simp
theorem tryStepBoundary_mem (p s) : ∀ t ∈ tryStepBoundary p s, t.mem = s.mem := by
  unfold tryStepBoundary
  split
  · split <;> simp
  · simp
theorem tryFaultedResume_mem (t allot s) : ∀ u ∈ tryFaultedResume t allot s, u.mem = s.mem := map_mem fun _ => by simp
theorem tryFaultedFree_mem (t s) : ∀ u ∈ tryFaultedFree t s, u.mem = s.mem := map_mem fun _ => by simp
theorem tryFaultQueueDrain_mem (w s) : ∀ t ∈ tryFaultQueueDrain w s, t.mem = s.mem := by
  unfold tryFaultQueueDrain
  split
  · simp
  · rintro t ⟨⟩
    exact everyJob_keeps (P := fun t => t.mem = s.mem) (fun put c e j u hp hu => by rw [payRecord_mem hp, hu]) (by simp)
@[simp] theorem thawAll_mem (l s) : (thawAll l s).mem = s.mem := by
  fun_induction thawAll with
  | case1 => rfl
  | _ => rename_i ih; rw [ih]; split <;> simp

/-! The dispatcher. -/

@[simp] theorem hostRead_mem (offset n s) : (hostRead offset n s).mem = s.mem := foldl_mem (fun _ _ => State.logEvent_mem ..) _ _
@[simp] theorem createRoots_mem (l s) : (createRoots l s).mem = s.mem := by fun_induction createRoots <;> simp [*]
@[simp] theorem allocate_mem (w dom id n l s) : (allocate w dom id n l s).mem = s.mem := by fun_induction allocate <;> simp [*]
@[simp] theorem launchStep_mem (p first idle restartable s) : (launchStep p first idle restartable s).mem = s.mem := by
  unfold launchStep
  (repeat' split) <;> simp
@[simp] theorem holdRecord_mem (slot bs s) : (holdRecord slot bs s).mem = s.mem := rfl
@[simp] theorem judgeLaunches_mem (s) : (judgeLaunches s).mem = s.mem := rfl

/-! Hints. -/

@[simp] theorem hintChecked_mem (s) : (hintChecked s).mem = s.mem := rfl
@[simp] theorem loadSig_mem (crc len s) : (loadSig crc len s).mem = s.mem := rfl

/-! Translation. -/

@[simp] theorem resumeOn_mem {put : Job → State → State} (hp : ∀ j s, (put j s).mem = s.mem) (pasid page c e j s) :
    (resumeOn pasid page put c e j s).mem = s.mem := by
  unfold resumeOn
  (repeat' split) <;> simp [hp]
@[simp] theorem noteAnswers_mem (pasid page l s) : (noteAnswers pasid page l s).mem = s.mem := by
  fun_induction noteAnswers with
  | case1 => rfl
  | _ => rename_i ih; rw [ih]; split <;> simp
theorem tryAtsResponse_mem (pasid page answer s) : ∀ t ∈ tryAtsResponse pasid page answer s, t.mem = s.mem := by
  unfold tryAtsResponse
  simp only []
  (repeat' split) <;> simp
theorem tryInvalidationCompletion_mem (pasid page s) : ∀ t ∈ tryInvalidationCompletion pasid page s, t.mem = s.mem := by
  simp [tryInvalidationCompletion]

/-! Kills. -/

theorem tryDomainCreate_mem (w d s) : ∀ t ∈ tryDomainCreate w d s, t.mem = s.mem := by simp only [tryDomainCreate]; (repeat' split) <;> simp
@[simp] theorem endKilledJob_mem (k c e j s) : (endKilledJob k c e j s).mem = s.mem := rfl
@[simp] theorem endSaved_mem (k s) : (endSaved k s).mem = s.mem := rfl
@[simp] theorem killResting_mem (w l s) : (killResting w l s).mem = s.mem := by
  induction l generalizing s with
  | nil => rfl
  | cons x r ih => simp only [killResting, ih]; split <;> simp
@[simp] theorem killLaunches_mem (k s) : (killLaunches k s).mem = s.mem := rfl
@[simp] theorem turnKilled_mem (k s) : (turnKilled k s).mem = s.mem := foldl_mem (fun _ _ => by simp) _ _
@[simp] theorem startKill_mem (k s) : (startKill k s).mem = s.mem := by
  simp only [startKill, killResting_mem]
  exact eachJob_keeps (P := fun t => t.mem = s.mem) (fun c e j u hu => by simp [hu]) _ _ (by simp)
theorem tryDomainKill_mem (w d s) : ∀ t ∈ tryDomainKill w d s, t.mem = s.mem := by
  unfold tryDomainKill
  split <;> simp
@[simp] theorem raiseAll_mem (w l s) : (raiseAll w l s).mem = s.mem := by
  fun_induction raiseAll with
  | case1 => rfl
  | _ => rename_i ih; rw [ih]; split <;> simp
@[simp] theorem killWorld_mem (w s) : (killWorld w s).mem = s.mem := by simp [killWorld]
@[simp] theorem killSaved_mem (k s) : (killSaved k s).mem = s.mem := rfl
@[simp] theorem killSlots_mem (k c l s) : (killSlots k c l s).mem = s.mem := by
  fun_induction killSlots with
  | case1 => rfl
  | _ => rename_i ih; rw [ih]; split <;> simp
@[simp] theorem discardCmd_mem (c m s) : (discardCmd c m s).mem = s.mem := by unfold discardCmd; (repeat' split) <;> simp
@[simp] theorem discardCmds_mem (c l s) : (discardCmds c l s).mem = s.mem := by fun_induction discardCmds <;> simp [*]
@[simp] theorem killUnits_mem (k l s) : (killUnits k l s).mem = s.mem := by fun_induction killUnits <;> simp_all
@[simp] theorem killWaits_mem (k l s) : (killWaits k l s).mem = s.mem := by
  induction l generalizing s with
  | nil => rfl
  | cons x r ih => simp only [killWaits, ih]; (repeat' split) <;> simp
@[simp] theorem dropPasids_mem (cached asked s) : (dropPasids cached asked s).mem = s.mem := rfl
@[simp] theorem homeActs_mem (k home s) : (homeActs k home s).mem = s.mem := by
  unfold homeActs
  (repeat' split) <;> simp
@[simp] theorem unmapPages_mem (w l s) : (unmapPages w l s).mem = s.mem := by fun_induction unmapPages <;> simp_all
@[simp] theorem freeKilled_mem (w l s) : (freeKilled w l s).mem = s.mem := by
  fun_induction freeKilled with
  | case1 => rfl
  | _ => rename_i ih; rw [ih]; split <;> simp

/-! Keys. -/

theorem tryRekey_mem (w s) : ∀ t ∈ tryRekey w s, t.mem = s.mem := by simp [tryRekey]
@[simp] theorem reseal_mem (w line s) : (reseal w line s).mem = s.mem := by simp only [reseal]; (repeat' split) <;> simp
@[simp] theorem homeSwept_mem (w home s) : (homeSwept w home s).mem = s.mem := rfl
theorem tryKeySweepLine_mem (w home s) : ∀ t ∈ tryKeySweepLine w home s, t.mem = s.mem := by simp only [tryKeySweepLine]; (repeat' split) <;> simp
@[simp] theorem eraseKeys_mem (w s) : (eraseKeys w s).mem = s.mem := rfl
theorem tryKeySlotDestroy_mem (w s) : ∀ t ∈ tryKeySlotDestroy w s, t.mem = s.mem := by unfold tryKeySlotDestroy; split <;> simp
theorem tryWorldKeyLoad_mem (w s) : ∀ t ∈ tryWorldKeyLoad w s, t.mem = s.mem := by simp [tryWorldKeyLoad]
@[simp] theorem setDlatch_mem (die x s) : (setDlatch die x s).mem = s.mem := rfl
@[simp] theorem measureFirmware_mem (s) : (measureFirmware s).mem = s.mem := rfl
@[simp] theorem measureConfig_mem (s) : (measureConfig s).mem = s.mem := rfl
@[simp] theorem startTurnover_mem (w s) : (startTurnover w s).mem = s.mem := by unfold startTurnover; split <;> rfl
@[simp] theorem turnHops_mem (w s) : (turnHops w s).mem = s.mem := rfl
@[simp] theorem failDies_mem (bad l s) : (failDies bad l s).mem = s.mem := by
  induction l generalizing s with
  | nil => rfl
  | cons x r ih => simp only [failDies, ih]; (repeat' split) <;> simp
@[simp] theorem passDies_mem (l s) : (passDies l s).mem = s.mem := by fun_induction passDies <;> simp [*]
theorem trySounariReport_mem (s) : ∀ t ∈ trySounariReport s, t.mem = s.mem := by simp [trySounariReport]
@[simp] theorem writeAttest_mem (offset v s) : (writeAttest offset v s).mem = s.mem := by simp only [writeAttest]; (repeat' split) <;> simp
@[simp] theorem writeRepair_mem (n v s) : (writeRepair n v s).mem = s.mem := by unfold writeRepair; split <;> rfl

/-! Pages. -/

@[simp] theorem mapLeaf_mem (w va target leaf lv base s) : (mapLeaf w va target leaf lv base s).mem = s.mem := by
  induction lv generalizing base s with
  | zero => rfl
  | succ lv ih =>
    simp only [mapLeaf]
    split
    · simp
    · split <;> simp [ih]
@[simp] theorem unmapFrame_mem (w frame s) : (unmapFrame w frame s).mem = s.mem :=
  foldl_mem (fun u x => by split <;> simp) _ _

/-! Switches and flits. -/

@[simp] theorem endPeerStep_mem (f s) : (endPeerStep f s).mem = s.mem := rfl
@[simp] theorem answerPeer_mem (f value fault s) : (answerPeer f value fault s).mem = s.mem := rfl
@[simp] theorem peerWait_mem (f thr limit s) : (peerWait f thr limit s).mem = s.mem := by unfold peerWait; split <;> rfl
@[simp] theorem peerRead_mem (f s) : (peerRead f s).mem = s.mem := by unfold peerRead; split <;> rfl
@[simp] theorem sendBytes_mem (f fault bs s) : (sendBytes f fault bs s).mem = s.mem := foldl_mem (fun _ _ => State.sendFlit_mem ..) _ _
@[simp] theorem peerCopy_mem (f n s) : (peerCopy f n s).mem = s.mem := by unfold peerCopy; split <;> simp
@[simp] theorem endPeerWait_mem (x a s) : (endPeerWait x a s).mem = s.mem := rfl
@[simp] theorem answerPeers_mem (l s) : (answerPeers l s).mem = s.mem := by fun_induction answerPeers <;> simp [*]
theorem trySwitchAnnounce_mem (outgoing incoming at_ s) : ∀ t ∈ trySwitchAnnounce outgoing incoming at_ s, t.mem = s.mem := by
  unfold trySwitchAnnounce
  split <;> simp
@[simp] theorem saveJobs_mem (p l s) : (saveJobs p l s).mem = s.mem := by
  induction l generalizing s with
  | nil => rfl
  | cons x r ih => simp only [saveJobs, ih]; simp
@[simp] theorem saveCores_mem (p l s) : (saveCores p l s).mem = s.mem := by
  induction l generalizing s with
  | nil => rfl
  | cons x r ih => simp only [saveCores, ih]; simp
@[simp] theorem restoreCores_mem (l s) : (restoreCores l s).mem = s.mem := by fun_induction restoreCores <;> simp [*]
@[simp] theorem returnSlot_mem (x s) : (returnSlot x s).mem = s.mem := by simp only [returnSlot]; (repeat' split) <;> simp
@[simp] theorem returnSlots_mem (l s) : (returnSlots l s).mem = s.mem := by fun_induction returnSlots <;> simp [*]
@[simp] theorem asidePart_mem (p s) : (asidePart p s).mem = s.mem := rfl
theorem tryBankSwap_mem (p s) : ∀ t ∈ tryBankSwap p s, t.mem = s.mem := map_mem fun q => by simp
@[simp] theorem rebuildJobs_mem (l s) : (rebuildJobs l s).mem = s.mem := by fun_induction rebuildJobs <;> simp [*]
@[simp] theorem breakResume_mem (p s) : (breakResume p s).mem = s.mem := by unfold breakResume; split <;> rfl
@[simp] theorem thawPart_mem (p s) : (thawPart p s).mem = s.mem := by simp [thawPart]
theorem tryPartitionSave_mem (p s) : ∀ t ∈ tryPartitionSave p s, t.mem = s.mem := by simp [tryPartitionSave]

/-! Recovery. -/

@[simp] theorem breakArea_mem (area n s) : (breakArea area n s).mem = s.mem := by simp only [breakArea]; (repeat' split) <;> simp
@[simp] theorem appendRepair_mem (row s) : (appendRepair row s).mem = s.mem := by unfold appendRepair; split <;> simp
theorem trySoftRepair_mem (s) : ∀ t ∈ trySoftRepair s, t.mem = s.mem := by simp [trySoftRepair]
theorem trySoftRepairComplete_mem (s) : ∀ t ∈ trySoftRepairComplete s, t.mem = s.mem := by unfold trySoftRepairComplete; split <;> simp
@[simp] theorem restoreSlots_mem (p l s) : (restoreSlots p l s).mem = s.mem := by fun_induction restoreSlots <;> simp [*]
@[simp] theorem cancelWork_mem (p gone s) : (cancelWork p gone s).mem = s.mem := rfl
@[simp] theorem freeCreated_mem (ids l s) : (freeCreated ids l s).mem = s.mem := by
  fun_induction freeCreated with
  | case1 => rfl
  | _ => rename_i ih; rw [ih]; split <;> simp
@[simp] theorem releaseMembers_mem (l s) : (releaseMembers l s).mem = s.mem := by fun_induction releaseMembers <;> simp [*]
@[simp] theorem restoreThreads_mem (p s) : (restoreThreads p s).mem = s.mem := by simp [restoreThreads]
@[simp] theorem killAll_mem (l s) : (killAll l s).mem = s.mem := by fun_induction killAll <;> simp [*]
@[simp] theorem endPartSlots_mem (p c l s) : (endPartSlots p c l s).mem = s.mem := by
  fun_induction endPartSlots with
  | case1 => rfl
  | _ => rename_i ih; rw [ih]; split <;> simp
@[simp] theorem endPartUnits_mem (p l s) : (endPartUnits p l s).mem = s.mem := by fun_induction endPartUnits <;> simp_all
@[simp] theorem lostStep_mem (p s) : (lostStep p s).mem = s.mem := by simp [lostStep]
theorem tryReplayResume_mem (p s) : ∀ t ∈ tryReplayResume p s, t.mem = s.mem := by
  simp only [tryReplayResume]
  split
  · split <;> simp
  · simp
theorem tryTaskRerun_mem (t s) : ∀ u ∈ tryTaskRerun t s, u.mem = s.mem := by
  intro u hu
  obtain ⟨h, -, hh⟩ := Option.bind_eq_some_iff.mp hu
  refine map_mem (fun l => ?_) u hh
  simp only []
  (repeat' split) <;> simp
theorem tryRecordModeRerun_mem (t s) : ∀ u ∈ tryRecordModeRerun t s, u.mem = s.mem := map_mem fun _ => by simp

/-! The platform. -/

@[simp] theorem stageAction_mem (n s) : (stageAction n s).mem = s.mem := by unfold stageAction; split <;> rfl
theorem tryBringupStageComplete_mem (s) : ∀ t ∈ tryBringupStageComplete s, t.mem = s.mem := by
  simp only [tryBringupStageComplete]
  (repeat' split) <;> simp
theorem tryEngineResume_mem (c s) : ∀ t ∈ tryEngineResume c s, t.mem = s.mem := by simp [tryEngineResume]
theorem tryEngineEntryWrite_mem (c entry v s) : ∀ t ∈ tryEngineEntryWrite c entry v s, t.mem = s.mem := by simp [tryEngineEntryWrite]

/-! The agenda. -/

@[simp] theorem unreadWord_mem (s) : (unreadWord s).mem = s.mem := rfl
@[simp] theorem atIssue_mem (i s) : (atIssue i s).mem = s.mem := by unfold atIssue; split <;> simp
@[simp] theorem pass_mem (s) : (pass s).mem = s.mem := rfl

end Sys2Proof.Machine
end

section
/-! A logic of computations: what a word gives where it ends, and what it keeps where it waits. Checks and translations leave the state alone. -/

namespace Sys2Proof.Machine

open Sys2Proof

/-! ## Words and events that keep the canonical form -/

/-- What a word that waits does to the state keeps the canonical form. -/
def Exn.KeepsForm : Exn → Prop
  | .fault _ => True
  | .hold f => ∀ u, Memory.wf u.mem = true → Memory.wf (f u).mem = true

/-- A computation that ends satisfies `P`, and one that fails satisfies `Q`. -/
def Meets {ε α : Type} (Q : ε → Prop) (P : α → Prop) : Except ε α → Prop
  | .ok a => P a
  | .error e => Q e

/-- A computation of a word gives what `P` says, or keeps the canonical form while the word waits. -/
abbrev ResMeets {α : Type} (P : α → Prop) (r : Res α) : Prop := Meets Exn.KeepsForm P r

/-- The same of what a job does, whose failures name a side. -/
abbrev JobMeets {α : Type} (P : α → Prop) (r : JobRes α) : Prop := Meets (fun e => e.2.KeepsForm) P r

/-- An outcome that goes on leaves memory in canonical form. -/
structure KeepsForm (o : Out) : Prop where
  next : ∀ t, o = .next t → Memory.wf t.mem = true

section
variable {ε α β : Type} {Q : ε → Prop} {P R : α → Prop} {S : β → Prop}

theorem Meets.imp {r : Except ε α} (h : Meets Q P r) (hr : ∀ a, P a → R a) : Meets Q R r := by
  cases r with
  | ok a => exact hr a h
  | error e => exact h

@[simp] theorem meets_bind (r : Except ε α) (f : α → Except ε β) : Meets Q S (r >>= f) ↔ Meets Q (fun a => Meets Q S (f a)) r := by
  cases r <;> rfl

@[simp] theorem meets_ok (a : α) : Meets Q P (.ok a) ↔ P a := Iff.rfl
@[simp] theorem meets_pure (a : α) : Meets Q P (pure a) ↔ P a := Iff.rfl

@[simp] theorem meets_ite {c : Prop} [Decidable c] (x y : Except ε α) :
    Meets Q P (if c then x else y) ↔ (c → Meets Q P x) ∧ (¬ c → Meets Q P y) := by
  split <;> simp [*]

@[simp] theorem meets_fault (f : FaultInfo) : ResMeets P (.error (.fault f)) := trivial
@[simp] theorem meets_hold (f : State → State) :
    ResMeets P (.error (.hold f)) ↔ ∀ u, Memory.wf u.mem = true → Memory.wf (f u).mem = true := Iff.rfl
@[simp] theorem meets_raise (code : BitVec 8) (addr : Word64) : ResMeets P (raise code addr) := trivial
@[simp] theorem meets_holdIn (k : Stall) : ResMeets P (holdIn k) := fun u h => by simpa using h

@[simp] theorem meets_onSide (k : BitVec 8) (r : Res α) : JobMeets P (onSide k r) ↔ ResMeets P r := by
  cases r <;> rfl

end

/-! Checks change nothing. -/

section
variable {P : Unit → Prop} (h : P ())
include h

@[simp] theorem require_meets (p : Bool) (code : BitVec 8) (addr : Word64) : ResMeets P (require p code addr) := by
  unfold require; simp [h]

@[simp] theorem checkRights_meets (s : State) (who c cur n need name) : ResMeets P (s.checkRights who c cur n need name) := by
  simp [State.checkRights, h]

@[simp] theorem checkPlace_meets (c cur n) : ResMeets P (checkPlace c cur n) := by simp [checkPlace, h]

@[simp] theorem checkCap_meets (s : State) (who c cur n need name) : ResMeets P (s.checkCap who c cur n need name) := by
  simp [State.checkCap, h]

@[simp] theorem answersNow_meets (s : State) (pa n) : ResMeets P (s.answersNow pa n) := by
  unfold State.answersNow; split <;> simp [h]

@[simp] theorem blockData_meets (s : State) (a ps) : ResMeets P (s.blockData a ps) := by
  unfold State.blockData; split <;> simp [h]

@[simp] theorem requireBalanced_meets (s : State) : ResMeets P s.requireBalanced := by
  unfold State.requireBalanced; split <;> simp [h]

@[simp] theorem checkTransfer_meets (s : State) : ResMeets P s.checkTransfer := require_meets h ..

@[simp] theorem checkTarget_meets (r z s) : ResMeets P (checkTarget r z s) := by simp [checkTarget, h]

@[simp] theorem checkEffective_meets (c cur fits n need a s) : ResMeets P (checkEffective c cur fits n need a s) := by
  simp [checkEffective, h]

@[simp] theorem holdEarly_meets (v s) : ResMeets P (holdEarly v s) := by simp [holdEarly, h]

@[simp] theorem checkPops_meets (s m n l) : ResMeets P (checkPops s m n l) := by
  induction l generalizing m n with
  | nil => exact h
  | cons r l ih => simp [checkPops, ih]

@[simp] theorem checkQueues_meets (srcs dst s) : ResMeets P (checkQueues srcs dst s) := by simp [checkQueues, h]

@[simp] theorem checkViews_meets (s l) : ResMeets P (checkViews s l) := by
  induction l with
  | nil => exact h
  | cons r l ih => simp [checkViews, ih]

@[simp] theorem tileInFrame_meets (t s) : ResMeets P (tileInFrame t s) := require_meets h ..

@[simp] theorem tilesInFrame_meets (s l) : ResMeets P (tilesInFrame s l) := by
  induction l with
  | nil => exact h
  | cons r l ih => simp [tilesInFrame, ih]

@[simp] theorem requireCause_meets (p cause) : ResMeets P (requireCause p cause) := by simp [requireCause, mismatch, h]

@[simp] theorem checkSlotCap_meets (c need r s) : ResMeets P (checkSlotCap c need r s) := by simp [checkSlotCap, h]

@[simp] theorem checkOwnSlot_meets (c need r s) : ResMeets P (checkOwnSlot c need r s) := by simp [checkOwnSlot, h]

@[simp] theorem checkSinc_meets (c s) : ResMeets P (checkSinc c s) := require_meets h ..

@[simp] theorem checkCount_meets (k s) : ResMeets P (checkCount k s) := require_meets h ..

@[simp] theorem reserveEntry_meets (c core s) : ResMeets P (reserveEntry c core s) := by
  simp +contextual [reserveEntry, h]

@[simp] theorem holdNew_meets (c m s) : ResMeets P (holdNew c m s) := by simp [holdNew, h]

@[simp] theorem reserveCont_meets (s) : ResMeets P (reserveCont s) := by
  simp only [reserveCont, meets_ite, meets_ok, meets_hold]
  refine ⟨fun _ => h, fun _ => ⟨fun _ => h, fun _ u hu => ?_⟩⟩
  split <;> simpa using hu

@[simp] theorem plainCapOk_meets (c s) : ResMeets P (plainCapOk c s) := by simp [plainCapOk, h]

end

@[simp] theorem nameFault_meets {α : Type} {P : α → Prop} {r : Res α} (h : ResMeets P r) (at_ : Word64) : ResMeets P (nameFault at_ r) := by
  unfold nameFault; split
  · trivial
  · exact h

/-! Translations leave the state as it is. -/

section
variable {s : State}

@[simp] theorem translateDevice_meets {P : Nat × State → Prop} (h : ∀ pa, P (pa, s)) (who va need) :
    ResMeets P (s.translateDevice who va need) := by
  unfold State.translateDevice
  simp only []
  split
  · simp
  · simp
  · simp [h]
  · split
    · simp
    · intro u hu
      simp only []
      cases hf : State.fillTouch _ _ _ _ _ _ _ _ u with
      | none => exact hu
      | some t => exact (congrArg Memory.wf (State.fillTouch_mem _ _ _ _ _ _ _ _ _ t hf)).trans hu

@[simp] theorem translateHost_meets {P : Nat × State → Prop} (h : ∀ pa, P (pa, s)) (who va need) :
    ResMeets P (s.translateHost who va need) := by
  unfold State.translateHost
  simp only []
  split
  · simp [h]
  · simp +contextual

@[simp] theorem placeAt_meets {P : Nat × State → Prop} (h : ∀ pa, P (pa, s)) (who space a need) :
    ResMeets P (s.placeAt who space a need) := by
  unfold State.placeAt
  split
  · exact h _
  · exact translateDevice_meets h ..
  · split <;> simp [h]
  · exact translateHost_meets h ..
  · simp [h]

@[simp] theorem translateAt_meets {P : Nat × State → Prop} (h : ∀ pa, P (pa, s)) (who space a need) :
    ResMeets P (s.translateAt who space a need) := by
  simp [State.translateAt, h]

@[simp] theorem translatePieces_meets {P : List (Nat × Nat) × State → Prop} (h : ∀ ps, P (ps, s)) (who space need l) :
    ResMeets P (s.translatePieces who space need l) := by
  induction l generalizing P with
  | nil => exact h _
  | cons x r ih => simp [State.translatePieces, ih, h]

@[simp] theorem access_meets {P : List (Nat × Nat) × State → Prop} (h : ∀ ps, P (ps, s)) (who c cur n need name) :
    ResMeets P (s.access who c cur n need name) := by
  simp [State.access, h]

@[simp] theorem readBlock_meets {P : List Byte × List (Nat × Nat) × State → Prop} (h : ∀ bs ps, P (bs, ps, s)) (c n need name) :
    ResMeets P (s.readBlock c n need name) := by
  simp [State.readBlock, h]

@[simp] theorem fetch_meets {P : Word32 × State → Prop} (h : ∀ w, P (w, s.modCtx fun x => { x with ir := w })) : ResMeets P (fetch s) := by
  simp only [fetch, meets_bind]
  refine access_meets (fun ps => ?_) ..
  simp only []
  split <;> simp [h]

@[simp] theorem counterRef_meets {P : CtrRef × State → Prop} (h : ∀ r, P (r, s)) (k a need) : ResMeets P (counterRef k a need s) := by
  simp [counterRef, h]

@[simp] theorem addRef_meets {P : CtrRef × State → Prop} (h : ∀ r, P (r, s)) (k a) : ResMeets P (addRef k a s) := by
  simp [addRef, h]

@[simp] theorem timedRef_meets {P : CtrRef × State → Prop} (h : ∀ r, P (r, s)) (k a) : ResMeets P (timedRef k a s) := by
  simp [timedRef, h]

@[simp] theorem remoteOperand_meets {P : Nat → Prop} (h : ∀ n, P n) (sh tile sc r target) :
    ResMeets P (remoteOperand sh tile sc r target s) := by
  simp [remoteOperand, h]

@[simp] theorem commandShape_meets {P : MShape → Prop} (h : ∀ x, P x) (broad tA tB) : ResMeets P (commandShape broad tA tB s) := by
  unfold commandShape
  simp only []
  split <;> simp [mismatch, h]

@[simp] theorem checkTemplate_meets {P : Nat → Prop} (h : ∀ n, P n) (at_ dw0 dw1) : ResMeets P (checkTemplate at_ dw0 dw1 s) := by
  simp only [checkTemplate, meets_bind]
  refine require_meets (require_meets ?_ ..) ..
  split <;> simp [h]

@[simp] theorem checkGcall_meets {P : Nat × Nat × Gate → Prop} (h : ∀ x, P x) (a) : ResMeets P (checkGcall a s) := by
  simp [checkGcall, h]

@[simp] theorem reserveCard_meets {P : Nat → Prop} (h : ∀ n, P n) (c) : ResMeets P (reserveCard c s) := by
  unfold reserveCard
  simp only []
  split <;> simp +contextual [h]

@[simp] theorem checkCard_meets {P : State → Prop} (h : P s) (card at_ st dt ct) : ResMeets P (checkCard card at_ st dt ct s) := by
  unfold checkCard
  split <;> simp [h]

@[simp] theorem counterPlace_meets {P : Nat × State → Prop} (h : ∀ n, P (n, s)) (j) : ResMeets P (counterPlace j s) := by
  simp [counterPlace, h]

@[simp] theorem readEntry_meets {P : List Cap × State → Prop} (h : ∀ l, P (l, s)) (who a) : ResMeets P (readEntry who a s) := by
  simp only [readEntry, meets_bind]
  refine require_meets (translatePieces_meets (fun ps => require_meets ?_ ..) ..) ..
  split <;> simp [badEntry, h]

@[simp] theorem readArgs_meets {P : List (List Cap) × State → Prop} (h : ∀ l, P (l, s)) (who args i n) :
    ResMeets P (readArgs who args i n s) := by
  induction n generalizing i P with
  | zero => exact h _
  | succ n ih => simp [readArgs, ih, h]

end

/-! The ends of a word. -/

section
variable {s : State}

theorem keepsForm_next {t : State} (h : Memory.wf t.mem = true) : KeepsForm (.next t) := by
  exact ⟨fun u hu => by cases hu; exact h⟩

theorem finishWith_keeps {after : State → State} {r : Res State} (ha : ∀ t, (after t).mem = t.mem) (hs : Memory.wf s.mem = true)
    (hr : ResMeets (fun t => Memory.wf t.mem = true) r) : KeepsForm (s.finishWith after r) := by
  match r, hr with
  | .ok t, hr => exact keepsForm_next (by simpa [ha] using hr)
  | .error (.fault f), _ => exact keepsForm_next (by simpa using hs)
  | .error (.hold f), hr =>
    refine keepsForm_next ?_
    split
    · simpa using hr s hs
    · exact hr s hs

theorem finish_keeps {r : Res State} (hs : Memory.wf s.mem = true) (hr : ResMeets (fun t => Memory.wf t.mem = true) r) :
    KeepsForm (s.finish r) := finishWith_keeps (fun t => State.complete_mem t) hs hr

theorem finishTransfer_keeps {r : Res State} (hs : Memory.wf s.mem = true) (hr : ResMeets (fun t => Memory.wf t.mem = true) r) :
    KeepsForm (s.finishTransfer r) := by
  refine finishWith_keeps (fun t => by simp) hs ?_
  exact (meets_bind _ _).mpr (hr.imp fun t ht => by simp [ht])

theorem happen_keeps {r : Option State} (hs : Memory.wf s.mem = true) (hr : ∀ t ∈ r, Memory.wf t.mem = true) : KeepsForm (happen r s) := by
  cases r with
  | none => exact keepsForm_next hs
  | some t => exact keepsForm_next (hr t rfl)

/-- An event that leaves memory alone keeps its canonical form. -/
theorem happen_keeps_of_mem {r : Option State} (hs : Memory.wf s.mem = true) (hr : ∀ t ∈ r, t.mem = s.mem) : KeepsForm (happen r s) :=
  happen_keeps hs fun t ht => by rw [hr t ht]; exact hs

/-! Queues and logs. -/

@[simp] theorem popQueue_meets {P : Vec512 × State → Prop} {q : Nat} (h : ∀ v l, P (v, s.setQueue q l)) : ResMeets P (s.popQueue q) := by
  unfold State.popQueue; split <;> simp [h]

@[simp] theorem pushQueue_meets {P : State → Prop} {q : Nat} (h : ∀ l, P (s.setQueue q l)) (e) : ResMeets P (s.pushQueue q e) := by
  simp [State.pushQueue, h]

theorem givenEntry_mem {g : TaskEntry} {t : State} (h : s.givenEntry = some (g, t)) : t.mem = s.mem := by
  unfold State.givenEntry at h
  (repeat' split at h) <;> cases h
  rfl

theorem givenValue_mem {g : TaskVal} {t : State} (h : s.givenValue = some (g, t)) : t.mem = s.mem := by
  obtain ⟨x, hx, rfl, rfl⟩ : ∃ x, s.givenEntry = some x ∧ x.1.val = g ∧ x.2 = t := by simpa [State.givenValue] using h
  exact givenEntry_mem hx

@[simp] theorem skipEffect_getD_mem (s : State) : (s.skipEffect.getD s).mem = s.mem := by
  cases h : s.skipEffect with
  | none => rfl
  | some t => exact State.skipEffect_mem s t h

end

end Sys2Proof.Machine
end

section
/-! The canonical form of memory (O51): integer, capability, control, memory, counter and vector words. -/

namespace Sys2Proof.Machine

open Sys2Proof

/-! ## Words of integers, capabilities and control -/

section
variable {s : State} (h : Memory.wf s.mem = true)
include h

@[simp] theorem State.storePlain_wf (pa bs) : Memory.wf (s.storePlain pa bs).mem = true := by
  simp only [State.storePlain]
  (repeat' split) <;> exact State.pokeMem_wf s pa bs h

/-- A stamped operation keeps what its home keeps. -/
@[simp] theorem stamped_meets {P : State.Reply → Prop} {apply : State → Res State.Reply} (hP : ∀ r, Memory.wf r.state.mem = true → P r)
    (happly : ∀ u, Memory.wf u.mem = true → ResMeets (fun r => Memory.wf r.state.mem = true) (apply u)) (maj func operand line) :
    ResMeets P (s.stamped maj func operand line apply) := by
  simp only [State.stamped]
  split
  · simp [h, hP]
  · simp only [meets_bind, meets_ok]
    refine (happly _ (by simpa using h)).imp fun r hr => hP _ ?_
    split <;> exact hr

theorem derive_keeps {r : Cap → Res Cap} (hr : ∀ c, ResMeets (fun _ => True) (r c)) (a d) : KeepsForm (derive a d r s) :=
  finish_keeps h (by
    simp only [meets_bind]
    exact require_meets ((hr _).imp fun x _ => by simpa using h) ..)

theorem execCpbound_keeps (b a d) : KeepsForm (execCpbound b a d s) :=
  derive_keeps h (r := fun c => match c.narrow (s.int b).toNat with
    | some x => .ok x
    | none => raise 0x04 (BitVec.ofNat 64 (firstOutside c.addr c.base c.top))) (fun c => by split <;> simp) a d

omit h in
@[simp] theorem jumpTo_meets (v) {P : State → Prop} (hP : P (s.setPc v)) : ResMeets P (jumpTo v s) := by simp [jumpTo, hP]

theorem branchWord_keeps (o : BitVec 13) (taken) : KeepsForm (branchWord o taken s) := by
  unfold branchWord
  split
  · exact finishTransfer_keeps h (by simp [h])
  · exact finish_keeps h (by simp [h])

theorem execJmp_keeps (o) : KeepsForm (execJmp o s) := finishTransfer_keeps h (by simp [h])
theorem execCall_keeps (o d) : KeepsForm (execCall o d s) := finishTransfer_keeps h (by simp [h])
theorem execCallr_keeps (a d) : KeepsForm (execCallr a d s) := finishTransfer_keeps h (by simp [h])
theorem execJmpr_keeps (a) : KeepsForm (execJmpr a s) := finishTransfer_keeps h (by simp [h])
theorem execRet_keeps (a) : KeepsForm (execRet a s) := finishTransfer_keeps h (by simp [h])
theorem execEnter_keeps (frame argw) : KeepsForm (execEnter frame argw s) := finish_keeps h (by simp [h])

/-! ## Loads and stores -/

omit h in
@[simp] theorem readMemory_meets {P : TaskVal × Option (BitVec 8 × Nat) × State → Prop} (hP : ∀ v f t, t.mem = s.mem → P (v, f, t))
    (c z cur fits a) : ResMeets P (readMemory c z cur fits a s) := by simp [readMemory, hP]

omit h in
@[simp] theorem loadValue_meets {P : TaskVal × Option Deferred × State → Prop} (hP : ∀ v f t, t.mem = s.mem → P (v, f, t))
    (c z cur fits a) : ResMeets P (loadValue c z cur fits a s) := by
  unfold loadValue
  split
  · simp only [meets_bind]
    refine readMemory_meets (fun v f t ht => hP _ _ _ ?_) ..
    cases f <;> simpa using ht
  next e u hu =>
    have hu' := givenEntry_mem hu
    refine (meets_ite _ _).mpr ⟨fun _ => hP _ _ _ hu', fun _ => (meets_ite _ _).mpr ⟨fun _ => ?_, fun _ => hP _ _ _ (by simpa using hu')⟩⟩
    simp only [meets_bind]
    exact readMemory_meets (fun v f t ht => hP _ _ _ (by simpa [ht] using hu')) ..

theorem execLd_keeps (q m l z b a d) : KeepsForm (execLd q m l z b a d s) :=
  finish_keeps h (by
    split
    · simp +contextual [loadReg, h]
    · simp +contextual [loadQueue, h])

@[simp] theorem storeAt_meets {P : State → Prop} (hP : ∀ t, Memory.wf t.mem = true → P t) (c cur fits bs z tag a) :
    ResMeets P (storeAt c cur fits bs z tag a s) := by
  simp only [storeAt, meets_bind]
  refine checkEffective_meets (require_meets (require_meets ?_ ..) ..) ..
  split
  next t ht => exact hP t (by rw [State.skipEffect_mem s t ht]; exact h)
  · simp only [meets_bind]
    refine translatePieces_meets (fun ps => ?_) ..
    have hw := State.performStore_wf s.countEffect (chunksOf ps bs) cur (by simpa using h)
    simp only []
    split
    · refine hP _ ?_
      split <;> simpa using hw
    · exact hP _ hw

theorem execSt_keeps (q m z b a d) : KeepsForm (execSt q m z b a d s) :=
  finish_keeps h (by
    split
    · simp +contextual [storeReg, h]
    · simp +contextual [storeQueue, h])

@[simp] theorem mredHome_wf (op z pa v) : Memory.wf (mredHome op z pa v s).state.mem = true := by
  simp only [mredHome]
  split
  · simpa using h
  · exact State.storeLine_wf _ _ _ _ (by simpa using h)

theorem mredWord_keeps (op l z b a d) : KeepsForm (mredWord op l z b a d s) :=
  finish_keeps h (by
    simp only [meets_bind]
    refine checkCap_meets (require_meets (translateAt_meets (fun pa => ?_) ..) ..) ..
    simp only []
    split
    next g u hu => simpa [givenEntry_mem hu] using h
    · simp +contextual [h])

/-! ## Counters -/

@[simp] theorem swardAdd_wf (n v drop) : Memory.wf (swardAdd n v drop s).state.mem = true := by
  simp only [swardAdd]; split <;> simpa using h

@[simp] theorem swardJoin_wf (n) : Memory.wf (swardJoin n s).state.mem = true := by
  simp only [swardJoin]; split <;> simpa using h

@[simp] theorem bumpLine_wf (q pa v) : Memory.wf (bumpLine q pa v s).mem = true := by
  simp only [bumpLine]; split <;> exact State.pokeMem_wf s pa _ h

@[simp] theorem lineAdd_wf (q pa v) : Memory.wf (lineAdd q pa v s).state.mem = true := by
  simp only [lineAdd]; (repeat' split) <;> simp [h]

@[simp] theorem initLine_wf (q pa v) : Memory.wf (initLine q pa v s).state.mem = true := by
  unfold initLine
  (repeat' split) <;> simp [h, State.storeLine_wf]

@[simp] theorem stampLocal_meets {P : Word64 × State → Prop} (hP : ∀ v t, Memory.wf t.mem = true → P (v, t)) (k old v) :
    ResMeets P (stampLocal k old v s) := by
  unfold stampLocal
  split <;> simp +contextual [h, hP]

@[simp] theorem ctaddLocal_meets {P : State → Prop} (hP : ∀ t, Memory.wf t.mem = true → P t) (k b d l) :
    ResMeets P (ctaddLocal k b d l s) := by
  simp only [ctaddLocal, meets_bind]
  refine require_meets (holdEarly_meets (stampLocal_meets h (fun v t ht => hP _ ?_) ..) ..) ..
  split <;> simpa using ht

/-- A stamped counter operation keeps what its home keeps; sending it and doing it over leave memory alone. -/
@[simp] theorem stampedCounter_meets {P : State → Prop} {send again : State → State} {home : State → State.Reply}
    (hP : ∀ t, Memory.wf t.mem = true → P t) (hsend : ∀ u, (send u).mem = u.mem) (hagain : ∀ u, (again u).mem = u.mem)
    (hhome : ∀ u, Memory.wf u.mem = true → Memory.wf (home u).state.mem = true) (maj func operand line d l) :
    ResMeets P (stampedCounter send maj func operand line d l home again s) := by
  unfold stampedCounter
  split
  next g u hu =>
    refine hP _ ?_
    split <;> simpa [hagain, givenEntry_mem hu] using h
  · simp only [meets_bind]
    refine stamped_meets (by simpa [hsend] using h) (fun r hr => hP _ ?_) (fun u hu => (meets_ok _).mpr (hhome u hu)) ..
    split <;> simpa [hagain] using hr

theorem execCtadd_keeps (l sc k b a d) : KeepsForm (execCtadd l sc k b a d s) :=
  finish_keeps h (by
    simp only [meets_bind]
    refine addRef_meets (fun r => ?_) ..
    cases r <;> simp +contextual [h])

theorem execCtwait_keeps (sc k b a) : KeepsForm (execCtwait sc k b a s) :=
  finish_keeps h (by
    simp only [meets_bind]
    refine counterRef_meets (fun r => ?_) ..
    simp only []
    split <;> simp +contextual [h])

theorem execCtwaitt_keeps (sc k b a d) : KeepsForm (execCtwaitt sc k b a d s) :=
  finish_keeps h (by
    simp only [meets_bind]
    refine timedRef_meets (fun r => ?_) ..
    simp only [meets_ite]
    refine ⟨fun _ => by simp +contextual, fun _ => ⟨fun _ => by simp [h], fun _ => ?_⟩⟩
    split <;> simp +contextual [h])

theorem execCtread_keeps (l sc k a d) : KeepsForm (execCtread l sc k a d s) :=
  finish_keeps h (by
    simp only [meets_bind]
    refine counterRef_meets (fun r => ?_) ..
    simp only []
    split
    next g u hu => simpa [givenEntry_mem hu] using h
    · split <;> simp [h])

theorem execCtinit_keeps (b a) : KeepsForm (execCtinit b a s) :=
  finish_keeps h (by
    simp only [meets_bind]
    refine counterRef_meets (fun r => ?_) ..
    cases r <;> simp +contextual [h])

theorem arriveWord_keeps (drop a) : KeepsForm (arriveWord drop a s) := finish_keeps h (by simp +contextual [h])

theorem execCtarrJoin_keeps (sc a) : KeepsForm (execCtarrJoin sc a s) := finish_keeps h (by simp +contextual [h])

/-! ## Vector words -/

omit h in
@[simp] theorem readSource_meets {P : Vec512 × State → Prop} (hP : ∀ v t, t.mem = s.mem → P (v, t)) (r) : ResMeets P (readSource r s) := by
  unfold readSource
  split
  · exact hP _ _ rfl
  · exact popQueue_meets fun v l => hP _ _ (by simp)

omit h in
@[simp] theorem readSources_meets {P : List Vec512 × State → Prop} (hP : ∀ v t, t.mem = s.mem → P (v, t)) (l) :
    ResMeets P (readSources s l) := by
  induction l generalizing s P with
  | nil => exact hP _ _ rfl
  | cons r l ih =>
    simp only [readSources, meets_bind]
    refine readSource_meets (fun v t ht => ?_) r
    exact (ih (P := fun p => P (v :: p.1, p.2)) fun vs u hu => hP _ _ (hu.trans ht) :)

omit h in
@[simp] theorem writeResult_meets {P : State → Prop} (hP : ∀ t, t.mem = s.mem → P t) (d v fl) : ResMeets P (writeResult d v fl s) := by
  simp [writeResult, hP]

theorem vecWord_keeps (srcs d e kills f) : KeepsForm (vecWord srcs d e kills f s) :=
  finish_keeps h (by
    simp only [meets_bind]
    refine checkQueues_meets (checkViews_meets (readSources_meets (fun v t ht => ?_) ..) ..) ..
    exact writeResult_meets (fun u hu => by simpa [hu, ht] using h) ..)

end

end Sys2Proof.Machine
end

section
/-! The canonical form of memory (O51): matrix words and copy jobs. -/

namespace Sys2Proof.Machine

open Sys2Proof

/-! ## Matrix words and the other vector words -/

section
variable {s : State} (h : Memory.wf s.mem = true)
include h

omit h in
theorem pairFirst_mem {x : PairRec × State} (hx : pairFirst s = some x) : x.2.mem = s.mem := by
  unfold pairFirst at hx
  (repeat' split at hx) <;> cases hx
  simp

/-- What the second member of a redundant pair does with the first's reply. -/
theorem pairRemote_meets (p l regs) : ∀ r ∈ pairRemote p l regs s, ResMeets (fun t => Memory.wf t.mem = true) r := by
  intro r hr
  obtain ⟨⟨x, t⟩, hx, rfl⟩ := Option.map_eq_some_iff.mp hr
  have ht : t.mem = s.mem := pairFirst_mem hx
  simp only [meets_ite, meets_ok, meets_raise, implies_true, and_true]
  intro _
  (repeat' split) <;> simpa [ht] using h

theorem execMmarAcc_keeps (k y t p) : KeepsForm (execMmarAcc k y t p s) :=
  finish_keeps h (by
    simp only [meets_bind]
    refine checkSlotCap_meets (commandShape_meets (fun sh => checkCount_meets ?_ ..) ..) ..
    split
    next r hr => exact pairRemote_meets h _ _ _ r hr
    · simp [h])

theorem execMmarNew_keeps (l k y t p) : KeepsForm (execMmarNew l k y t p s) :=
  finish_keeps h (by
    simp only [meets_bind]
    refine checkSlotCap_meets (commandShape_meets (fun sh => checkCount_meets ?_ ..) ..) ..
    split
    next r hr => exact pairRemote_meets h _ _ _ r hr
    · simp [h])

theorem execMmarZero_keeps (k p) : KeepsForm (execMmarZero k p s) :=
  finish_keeps h (by
    simp only [meets_bind]
    refine checkSlotCap_meets (checkCount_meets ?_ ..) ..
    split
    next r hr => exact pairRemote_meets h _ _ _ r hr
    · simp [h])

/-! ## Copy jobs -/

omit h in
@[simp] theorem submitCard_meets {P : State → Prop} (hP : ∀ t, t.mem = s.mem → P t) (c a) : ResMeets P (submitCard c a s) := by
  simp only [submitCard, meets_bind]
  refine Meets.imp (P := fun _ => True) ?_ fun n _ => readBlock_meets (fun bs ps => checkCard_meets ?_ ..) ..
  · split
    · trivial
    · exact reserveCard_meets (fun _ => trivial) _
  · split
    next x v hx => simpa using fun _ _ => hP _ (by simpa using pairFirst_mem hx)
    · exact hP _ (by simp)

theorem execCpyj_keeps (a) : KeepsForm (execCpyj a s) := finish_keeps h (by simp +contextual [h])

omit h in
@[simp] theorem readRun_meets {P : List Byte × State → Prop} (hP : ∀ bs t, t.mem = s.mem → P (bs, t)) (q j row o n) :
    ResMeets P (readRun q j row o n s) := by
  simp only [readRun, meets_bind]
  refine translatePieces_meets (fun ps => ?_) ..
  simp only []
  split <;> simp [hP]

omit h in
@[simp] theorem writeRun_meets {P : List (Nat × List Byte) × State → Prop} (hP : ∀ l t, t.mem = s.mem → P (l, t)) (q j row o bs) :
    ResMeets P (writeRun q j row o bs s) := by
  simp only [writeRun, meets_bind]
  refine translatePieces_meets (fun ps => ?_) ..
  simp only []
  split <;> simp [hP]

omit h in
@[simp] theorem sectorReads_meets {P : List (Nat × Nat × List Byte) × State → Prop} (hP : ∀ l t, t.mem = s.mem → P (l, t)) (q j runs) :
    JobMeets P (sectorReads q j s runs) := by
  induction runs generalizing s P with
  | nil => exact hP _ _ rfl
  | cons x r ih =>
    obtain ⟨row, o, n⟩ := x
    simp only [sectorReads, meets_bind, meets_onSide]
    refine readRun_meets (fun bs t ht => ?_) ..
    exact (ih (P := fun p => P ((row, o, bs) :: p.1, p.2)) fun l u hu => hP _ _ (hu.trans ht) :)

omit h in
@[simp] theorem sectorWrites_meets {P : List (Nat × List Byte) × State → Prop} (hP : ∀ l t, t.mem = s.mem → P (l, t)) (q j runs) :
    JobMeets P (sectorWrites q j s runs) := by
  induction runs generalizing s P with
  | nil => exact hP _ _ rfl
  | cons x r ih =>
    obtain ⟨row, o, bs⟩ := x
    simp only [sectorWrites, meets_bind, meets_onSide]
    refine writeRun_meets (fun cs t ht => ?_) ..
    exact (ih (P := fun p => P (cs ++ p.1, p.2)) fun l u hu => hP _ _ (hu.trans ht) :)

@[simp] theorem stampedAdd_wf (q j keep sector v pa) : Memory.wf (stampedAdd q j keep sector v pa s).2.mem = true := by
  simp only [stampedAdd]
  (repeat' split) <;> simp [h]

@[simp] theorem engineAdd_wf (q j sector v pa) : Memory.wf (engineAdd q j sector v pa s).2.mem = true := stampedAdd_wf h ..

@[simp] theorem completionAdd_wf (q j sector v pa) : Memory.wf (completionAdd q j sector v pa s).2.2.mem = true := by
  simp only [completionAdd]
  split
  · split <;> simp [h]
  · exact engineAdd_wf (by simpa using h) ..
  · exact h

@[simp] theorem pauseJob_wf (c e j) : Memory.wf (pauseJob c e j s).2.mem = true := State.pokeMem_wf _ _ _ h

/-- A job that stops keeps the canonical form where its keeping does. -/
theorem stopJob_wf {put : Job → State → State} (hp : ∀ j s, (put j s).mem = s.mem) (c e j kind f) :
    Memory.wf (stopJob put c e j kind f s).mem = true := by
  simp only [stopJob]
  (repeat' split) <;> simp [hp, h]

@[simp] theorem stopJob_setJob_wf (c' e' c e j kind f) : Memory.wf (stopJob (setJob c' e') c e j kind f s).mem = true :=
  stopJob_wf h (setJob_mem c' e') c e j kind f

@[simp] theorem countSector_wf (q c e k j pa) : Memory.wf (countSector q c e k j pa s).mem = true := by
  simp only [countSector]
  (repeat' split) <;> simp [h]

theorem sectorOutcome_meets (c e k j) : JobMeets (fun t => Memory.wf t.mem = true) (sectorOutcome c e k j s) := by
  simp only [sectorOutcome, meets_bind]
  refine sectorReads_meets (fun runs t ht => sectorWrites_meets (fun chunks u hu => ?_) ..) ..
  have hu' : Memory.wf u.mem = true := by rw [hu, ht]; exact h
  refine Meets.imp (P := fun p : Nat × State => Memory.wf p.2.mem = true) ?_ fun p hp => ?_
  · split
    · exact (meets_onSide _ _).mpr (counterPlace_meets (fun _ => hu') j)
    · exact hu'
  · refine (meets_ok _).mpr (countSector_wf ?_ ..)
    have hw := State.storeBytes_wf ⟨j.world, some c⟩ chunks 0
      ((sendWrites j (cardCap j.card 16 j.dstTag) chunks p.2).recordChunks j.part chunks) (by simpa [State.recordChunks_mem] using hp)
    split
    · simpa using hw
    · exact hw

@[simp] theorem landFlight_wf (c e l) : Memory.wf (landFlight c e l s).mem = true := by
  induction l generalizing s with
  | nil => exact h
  | cons k r ih =>
    refine ih ?_
    split
    next j _ =>
      have hj := sectorOutcome_meets h c e k j
      split
      next t ht => rw [ht] at hj; simpa using hj
      · exact h
    · exact h

@[simp] theorem failSector_wf (c e k j kind f) : Memory.wf (failSector c e k j kind f s).mem = true := by
  have ht : Memory.wf (if codePauses f.code then landFlight c e (inFlight c k j s) s else s).mem = true := by
    split
    · exact landFlight_wf h ..
    · exact h
  simp only [failSector]
  split
  · exact stopJob_setJob_wf ht ..
  · exact ht

@[simp] theorem landSector_wf (c e k j) : Memory.wf (landSector c e k j s).mem = true := by
  unfold landSector
  split
  · simpa using h
  · have hj := sectorOutcome_meets h c e k j
    split
    next t ht => rw [ht] at hj; exact hj
    · exact failSector_wf h ..
    next f hf => rw [hf] at hj; exact hj s h

theorem trySectorLand_wf (c e k) : ∀ t ∈ trySectorLand c e k s, Memory.wf t.mem = true := by
  intro t ht
  obtain ⟨j, _, rfl⟩ := Option.map_eq_some_iff.mp ht
  exact landSector_wf h ..

@[simp] theorem endEmpty_wf (c e j) : Memory.wf (endEmpty c e j s).mem = true := by
  unfold endEmpty
  split
  · simpa using h
  · have hj := counterPlace_meets (s := s) (P := fun p => Memory.wf p.2.mem = true) (fun _ => h) j
    split
    · simp [h]
    next f hf => rw [hf] at hj; exact hj s h
    next pa t ht =>
      rw [ht] at hj
      have ht : Memory.wf t.mem = true := hj
      have hc := completionAdd_wf ht ⟨j.world, some c⟩ j none 1 pa
      simp only []
      split
      · exact stopJob_setJob_wf hc ..
      · exact hc

theorem tryCopyJobStart_wf (c e) : ∀ t ∈ tryCopyJobStart c e s, Memory.wf t.mem = true := by
  intro t ht
  obtain ⟨j, _, rfl⟩ := Option.map_eq_some_iff.mp ht
  simp only []
  (repeat' split) <;> simp [h]

end

end Sys2Proof.Machine
end

section
/-! The canonical form of memory (O51): words of threads, gates and the system. -/

namespace Sys2Proof.Machine

open Sys2Proof

theorem Meets.of_ok {ε α : Type} {Q : ε → Prop} {P : α → Prop} {r : Except ε α} {a : α} (h : Meets Q P r) (hr : r = .ok a) : P a := by
  subst hr; exact h

theorem Meets.of_error {ε α : Type} {Q : ε → Prop} {P : α → Prop} {r : Except ε α} {e : ε} (h : Meets Q P r) (hr : r = .error e) : Q e := by
  subst hr; exact h

@[simp] theorem meets_map {ε α β : Type} {Q : ε → Prop} {P : β → Prop} (r : Except ε α) (f : α → β) :
    Meets Q P (r.map f) ↔ Meets Q (fun a => P (f a)) r := by
  cases r <;> rfl

/-- A branch with one more step in front satisfies what the other branch does where the step lets it. -/
theorem Meets.ite_of_else {ε α : Type} {Q : ε → Prop} {P : α → Prop} {c : Prop} [Decidable c] {x y : Except ε α} (hx : Meets Q P y → Meets Q P x)
    (hy : Meets Q P y) : Meets Q P (if c then x else y) := by
  split
  · exact hx hy
  · exact hy

/-- A word that fails keeps the canonical form. -/
theorem finish_error_keeps {s : State} {e : Exn} (hs : Memory.wf s.mem = true) (he : e.KeepsForm) : KeepsForm (s.finish (.error e)) :=
  finish_keeps hs he

/-! ## Words of threads, gates and the system -/

section
variable {s : State} (h : Memory.wf s.mem = true)
include h

theorem execSpawn_keeps (l a d) : KeepsForm (execSpawn l a d s) :=
  finish_keeps h (by
    simp only [meets_bind]
    refine readBlock_meets (fun bs ps => checkTemplate_meets (fun home => ?_) ..) ..
    simp only []
    split
    next v u hv => simpa [givenValue_mem hv] using h
    · simp [h])

@[simp] theorem dropAll_meets {P : State → Prop} (hP : ∀ t, Memory.wf t.mem = true → P t) (l) : ResMeets P (dropAll s l) := by
  induction l generalizing s with
  | nil => exact hP _ h
  | cons n r ih =>
    simp only [dropAll, meets_bind]
    refine Meets.imp (P := fun t : State => Memory.wf t.mem = true) ?_ fun t ht => ih ht
    split
    · exact stampedCounter_meets h (fun _ ht => ht) (fun _ => rfl) (maskAgain_mem _ _ _) (fun _ hu => swardAdd_wf hu ..) ..
    · exact h

theorem execExit_keeps (a) : KeepsForm (execExit a s) := by
  unfold execExit
  split
  on_goal 1 => rename_i t ht; refine keepsForm_next (Meets.of_ok (Q := Exn.KeepsForm) (P := fun t => Memory.wf t.mem = true) ?_ ht)
  on_goal 2 => rename_i e he; refine finish_error_keeps h (Meets.of_error (Q := Exn.KeepsForm) (P := fun t => Memory.wf t.mem = true) ?_ he)
  all_goals
    simp only [meets_bind]
    refine requireBalanced_meets (require_meets ?_ ..) ..
    split
    · split <;> simp +contextual [h]
    · simp +contextual [h]

omit h in
@[simp] theorem firstRequest_meets (n a d) : ResMeets (fun t => Memory.wf t.mem = true) (firstRequest n a d s) := by
  unfold firstRequest
  (repeat' split) <;> simp +contextual

theorem execSysc_keeps (n a d) : KeepsForm (execSysc n a d s) :=
  finish_keeps h (by
    split
    · split <;> simp [h]
    · simp
    · split
      next v u hv => simpa [givenValue_mem hv] using h
      · split
        · split <;> simp [h]
        · exact firstRequest_meets ..)

theorem execStep_keeps : KeepsForm (execStep s) := finish_keeps (by simpa using h) (by simp)

theorem execGetid_keeps (sel d) : KeepsForm (execGetid sel d s) :=
  finish_keeps h (by
    split
    next v u hv => simpa [givenValue_mem hv] using h
    · simp [h])

theorem execGcall_keeps (a) : KeepsForm (execGcall a s) :=
  finishTransfer_keeps (by simpa using h) (by simp [h])

theorem execGret_keeps : KeepsForm (execGret s) := by
  have ht : Memory.wf s.landAll.mem = true := by simpa using h
  simp only [execGret]
  split
  · exact finish_keeps ht trivial
  · split
    · exact finish_keeps ht ((meets_map _ _).mpr (requireBalanced_meets ht _))
    · split
      · exact finish_keeps ht trivial
      · split
        next x hx => exact finish_error_keeps ht ((checkTransfer_meets (P := fun _ => True) trivial _).of_error hx)
        · split
          · exact keepsForm_next (by simpa using h)
          · split
            · exact keepsForm_next (by simpa using h)
            · exact finishTransfer_keeps ht (by simp [h])

theorem execGmake_keeps (a d) : KeepsForm (execGmake a d s) :=
  finish_keeps h (by
    simp only [meets_bind]
    refine readBlock_meets (fun bs ps => nameFault_meets (checkCap_meets (nameFault_meets (plainCapOk_meets ?_ ..) _) ..) _) ..
    refine Meets.ite_of_else (fun hy => (meets_bind _ _).mpr (nameFault_meets (plainCapOk_meets hy ..) _)) ?_
    split
    · trivial
    · refine (meets_bind _ _).mpr (nameFault_meets (translatePieces_meets (fun _ => ?_) ..) _)
      simp only []
      split <;> simp [h])

omit h in
theorem revoke_meets {P : State × Stall → Prop} (hP : ∀ t k, t.mem = s.mem → P (t, k)) (eject a) : ResMeets P (revoke eject a s) := by
  simp only [revoke, meets_bind]
  refine require_meets ?_ ..
  split
  · simp only [meets_bind]
    refine require_meets (require_meets (hP _ _ ?_) ..) ..
    split <;> simp
  · simp only [meets_bind]
    refine require_meets (hP _ _ ?_) ..
    split <;> simp

theorem execGrevoke_keeps (a) : KeepsForm (execGrevoke a s) := finish_keeps h (by simp +contextual [revoke_meets, h])

theorem execGrevokeEject_keeps (a) : KeepsForm (execGrevokeEject a s) :=
  finish_keeps h (by
    split
    · simp [h]
    · simp only [meets_bind]
      refine revoke_meets (fun t k ht => ?_) ..
      simp [ht, h])

theorem execXext_keeps (e n a d) : KeepsForm (execXext e n a d s) :=
  finish_keeps h (by
    simp only [meets_bind]
    refine checkQueues_meets (checkViews_meets (readSource_meets (fun v t ht => ?_) _) ..) ..
    have ht : t.mem = s.mem := by rw [ht]; split <;> simp
    simpa [ht] using h)

theorem sysWrite_meets (n v) : ResMeets (fun t => Memory.wf t.mem = true) (sysWrite n v s) := by simp [sysWrite, h]

theorem execSwr_keeps (n a) : KeepsForm (execSwr n a s) :=
  finish_keeps h ((meets_bind _ _).mpr ((sysWrite_meets h ..).imp fun t ht => by simpa using ht))

theorem tretWord_keeps (skip) : KeepsForm (tretWord skip s) := by
  unfold tretWord
  split
  · exact finish_keeps h ((meets_map _ _).mpr (requireBalanced_meets h _))
  · split
    · exact finish_keeps h trivial
    · split
      · exact keepsForm_next (by simpa using h)
      · exact finish_keeps h trivial

@[simp] theorem storeImage_wf (c r ps) : Memory.wf (storeImage c r ps s).mem = true := by
  exact State.performStore_wf s _ c.cursor h

theorem execCtxst_keeps (a d) : KeepsForm (execCtxst a d s) :=
  finish_keeps h (by
    simp only [meets_bind]
    refine checkCap_meets (require_meets ?_ ..) ..
    split
    · trivial
    · simp only [meets_bind]
      refine translatePieces_meets (fun ps => ?_) ..
      simp only []
      split
      · simp
      · split
        · simp
        · split <;> simp [h])

theorem execCtxld_keeps (a d) : KeepsForm (execCtxld a d s) :=
  finish_keeps h (by
    simp only [meets_bind]
    refine checkCap_meets (require_meets (translatePieces_meets (fun ps => ?_) ..) ..) ..
    simp only []
    split
    · trivial
    · simp only [meets_bind]
      refine require_meets ?_ ..
      split
      · trivial
      · simp only [meets_bind]
        refine require_meets ?_ ..
        split
        · trivial
        · refine Meets.ite_of_else (fun _ => trivial) ?_
          simp [h])

end

end Sys2Proof.Machine
end

section
/-! The canonical form of memory (O51): events of the host, Moaly, the kills, the keys, the pages, the peers and recovery. -/

namespace Sys2Proof.Machine

open Sys2Proof

/-! ## Moaly's calls, the host's region and the dispatcher -/

section
variable {s : State} (h : Memory.wf s.mem = true)
include h

@[simp] theorem zeroFill_wf (a n) : Memory.wf (s.zeroFill a n).mem = true := State.zeroFill_wf s a n h

omit h in
@[simp] theorem Memory.wf_write {m : List Host.Cell} (hm : Memory.wf m = true) (a bs) : Memory.wf (Cells.write m a bs) = true :=
  Cells.wf_write bs m a hm

@[simp] theorem storeLine_wf (q pa bs) : Memory.wf (s.storeLine q pa bs).mem = true := State.storeLine_wf s q pa bs h

@[simp] theorem storeBytes_wf (q off l) : Memory.wf (s.storeBytes q off l).1.mem = true := State.storeBytes_wf q l off s h

/-- A fold over updates that keep the canonical form keeps it. -/
theorem foldl_wf {α : Type} {f : State → α → State} (hf : ∀ u x, Memory.wf u.mem = true → Memory.wf (f u x).mem = true) (l : List α) :
    Memory.wf (l.foldl f s).mem = true := by
  induction l generalizing s with
  | nil => exact h
  | cons x r ih => exact ih (hf s x h)

theorem serveUnit_meets (w e) : ResMeets (fun p => Memory.wf p.2.mem = true) (serveUnit w e s) := by
  simp [serveUnit, h, State.recordChunks_mem]

theorem serveCall_meets (w refuse grant e) : ResMeets (fun p => Memory.wf p.2.mem = true) (serveCall w refuse grant e s) := by
  simp only [serveCall, meets_ite]
  refine ⟨fun _ => h, fun _ => ⟨fun _ => trivial, fun _ => ?_⟩⟩
  split
  · simp [serveCounter, h]
  · simp [serveCap, h]
  · simp [serveProg, h]
  · unfold serveAllot
    split
    · trivial
    · exact h
  · exact serveUnit_meets h ..
  · trivial

theorem trySyscReply_wf (w refuse grant) : ∀ t ∈ trySyscReply w refuse grant s, Memory.wf t.mem = true := by
  intro t ht
  obtain ⟨e, _, ht⟩ := Option.bind_eq_some_iff.mp ht
  have hc := serveCall_meets h w refuse grant e
  split at ht
  next v u hu =>
    split at ht
    · cases ht
    · cases ht; simpa using hc.of_ok hu
  · split at ht
    · cases ht
    · cases ht; simpa using h
  next f hf => cases ht; exact hc.of_error hf s h

theorem execHaltResume_keeps (stop) : KeepsForm (execHaltResume stop s) := keepsForm_next (by simpa using h)

@[simp] theorem clearGo_wf (slot) : Memory.wf (clearGo slot s).mem = true := State.pokeMem_wf _ _ _ h

@[simp] theorem putSlot_wf (slot off bs) : Memory.wf (putSlot slot off bs s).mem = true := by
  unfold putSlot
  split
  · exact h
  · exact storeLine_wf h ..
  · exact State.storePlain_wf h ..

@[simp] theorem takeGo_wf (slot) : Memory.wf (takeGo slot s).mem = true := by
  unfold takeGo
  (repeat' split) <;> simp [h]

@[simp] theorem storeSlot_wf (slot off bs) : Memory.wf (storeSlot slot off bs s).mem = true := by
  simp only [storeSlot]
  (repeat' split) <;> simp [h]

@[simp] theorem storeEntry_wf (entry off bs) : Memory.wf (storeEntry entry off bs s).mem = true := by
  simp only [storeEntry]
  split <;> simp [h]

@[simp] theorem storeEntries_wf (offset bs l) : Memory.wf (storeEntries offset bs l s).mem = true := by
  induction l generalizing s with
  | nil => exact h
  | cons e r ih => exact ih (storeEntry_wf h ..)

@[simp] theorem storeHdm_wf (offset bs) : Memory.wf (storeHdm offset bs s).mem = true := by
  unfold storeHdm
  (repeat' split) <;> simp [h]

@[simp] theorem storeHdmLines_wf (l) : Memory.wf (storeHdmLines l s).mem = true := by
  induction l generalizing s with
  | nil => exact h
  | cons x r ih => exact ih (storeHdm_wf h ..)

theorem execHostMemoryAccess_keeps (acc) : KeepsForm (execHostMemoryAccess acc s) := by
  refine keepsForm_next ?_
  split
  · simp [State.clearTags_mem, h]
  · exact h
  · split
    · exact h
    · split
      · exact h
      · split <;> simp [h]

@[simp] theorem writeRecord_wf (w entry bs) : Memory.wf (writeRecord w entry bs s).mem = true := State.pokeMem_wf _ _ _ h

@[simp] theorem counterReply_wf (w offset value status) : Memory.wf (counterReply w offset value status s).mem = true := writeRecord_wf h ..

theorem takeRecord_wf (slot ok) : ∀ p ∈ takeRecord slot ok s, Memory.wf p.2.mem = true := by
  intro p hp
  unfold takeRecord at hp
  split at hp
  · cases hp; exact clearGo_wf h ..
  · cases hp

@[simp] theorem addRecord_wf (w bs) : Memory.wf (addRecord w bs s).mem = true := by
  simp only [addRecord]
  (repeat' split) <;> simp [h]

@[simp] theorem waitRecord_wf (w bs) : Memory.wf (waitRecord w bs s).mem = true := by
  simp only [waitRecord]
  (repeat' split) <;> simp [h]

/-- A counter record keeps what its service keeps. -/
theorem tryCounterRecord_wf {serve : Nat → List Byte → State → State}
    (hserve : ∀ w bs u, Memory.wf u.mem = true → Memory.wf (serve w bs u).mem = true)
    (type slot answers) : ∀ t ∈ tryCounterRecord type slot answers serve s, Memory.wf t.mem = true := by
  intro t ht
  obtain ⟨x, hx, rfl⟩ := Option.map_eq_some_iff.mp ht
  exact hserve _ _ _ (takeRecord_wf h _ _ x (Option.filter_eq_some_iff.mp hx).1)

theorem tryInvalidRecordType_wf (slot) : ∀ t ∈ tryInvalidRecordType slot s, Memory.wf t.mem = true := by
  intro t ht
  obtain ⟨x, hx, rfl⟩ := Option.map_eq_some_iff.mp ht
  simpa using takeRecord_wf h _ _ x hx

theorem tryHostWaitReply_wf (id) : ∀ t ∈ tryHostWaitReply id s, Memory.wf t.mem = true := by
  intro t ht
  obtain ⟨x, _, ht⟩ := Option.bind_eq_some_iff.mp ht
  obtain ⟨a, _, rfl⟩ := Option.map_eq_some_iff.mp ht
  exact counterReply_wf (by simpa using h) ..

/-! ## Launches -/

@[simp] theorem advanceLaunch_wf (l) : Memory.wf (advanceLaunch l s).mem = true := by
  simp only [advanceLaunch]
  (repeat' split) <;> simp [h]

omit h in
theorem checkPlacement_state {p r g a b args} {q : LaunchPlan} (hq : checkPlacement p r g a b args s = .inr q) : q.state = s := by
  simp only [checkPlacement] at hq
  split at hq
  · cases hq
  · split at hq
    · cases hq
    · cases hq; rfl

omit h in
/-- A launch whose checks have passed is performed in the state in which they were made. -/
theorem checkLaunch_meets (w p r) : ResMeets (fun c => ∀ q, c = .inr q → q.state = s) (checkLaunch w p r s) := by
  unfold checkLaunch
  split
  · simp
  · split
    · split
      · simp
      · split
        next f hf =>
          exact Meets.of_error (r := if r.args = 0 then _ else _) (Q := Exn.KeepsForm) (P := fun _ => True) (by
            split
            · trivial
            · exact readArgs_meets (fun _ => trivial) ..) hf
        · simp
        next args t ht =>
          have hst : t = s := by
            split at ht
            · cases ht; rfl
            · exact (readArgs_meets (P := fun p => p.2 = s) (fun _ => rfl) ..).of_ok ht
          subst hst
          intro q hq
          exact checkPlacement_state hq
    · simp


theorem tryLaunch_meets (slot bs) : ResMeets (fun t => Memory.wf t.mem = true) (tryLaunch slot bs s) := by
  simp only [tryLaunch, meets_ite, meets_hold, meets_bind]
  refine ⟨fun _ u hu => hu, fun _ => (checkLaunch_meets ..).imp fun c hc => ?_⟩
  split
  · simp [h]
  next q => simp [performLaunch, hc q rfl, h]

theorem tryHeldLaunch_wf (slot) : ∀ t ∈ tryHeldLaunch slot s, Memory.wf t.mem = true := by
  intro t ht
  unfold tryHeldLaunch at ht
  split at ht
  next x _ =>
    have hc := tryLaunch_meets (s := s.modHub fun h => { h with held := h.held.filter fun y => y != x }) h slot x.bytes
    split at ht
    next u hu => cases ht; exact hc.of_ok hu
    next f hf =>
      split at ht
      · cases ht; exact hc.of_error hf s h
      · cases ht
    · cases ht
  · obtain ⟨l, _, rfl⟩ := Option.map_eq_some_iff.mp ht
    exact advanceLaunch_wf h ..

theorem tryLaunchRecord_wf (slot) : ∀ t ∈ tryLaunchRecord slot s, Memory.wf t.mem = true := by
  intro t ht
  unfold tryLaunchRecord at ht
  split at ht
  next bs u hu =>
    have hu := takeRecord_wf h _ _ _ hu
    have hc := tryLaunch_meets hu slot bs
    cases ht
    split
    next v hv => exact hc.of_ok hv
    next f hf => exact hc.of_error hf _ hu
    · exact hu
  · exact tryHeldLaunch_wf h slot t ht

@[simp] theorem freeAllocs_wf (id l) : Memory.wf (freeAllocs id l s).mem = true := by
  induction l generalizing s with
  | nil => exact h
  | cons c r ih => exact ih (foldl_wf h (fun u x hu => zeroFill_wf hu ..) _)

@[simp] theorem closeLaunch_wf (id) : Memory.wf (closeLaunch id s).mem = true := freeAllocs_wf h ..

@[simp] theorem writeCompletion_wf (l st) : Memory.wf (writeCompletion l st s).mem = true :=
  writeRecord_wf h l.world _ _

theorem tryCompletionRecord_wf (id) : ∀ t ∈ tryCompletionRecord id s, Memory.wf t.mem = true := by
  intro t ht
  obtain ⟨l, _, ht⟩ := Option.bind_eq_some_iff.mp ht
  split at ht
  · split at ht
    · cases ht; exact closeLaunch_wf h ..
    · cases ht
  · obtain ⟨st, _, rfl⟩ := Option.map_eq_some_iff.mp ht
    simp only []
    split <;> simp [h]

/-! ## Hints and translation -/

theorem retireHint_keeps : KeepsForm (retireHint s) := keepsForm_next (by simpa using h)

theorem execSig_keeps (crc len) : KeepsForm (execSig crc len s) := by
  unfold execSig
  split
  · split
    · exact finish_keeps h trivial
    · exact keepsForm_next (by simpa using h)
  · exact retireHint_keeps h

theorem intWord_keeps (d v) : KeepsForm (intWord d v s) := finish_keeps h (by simp [h])

theorem failJob_wf {put : Job → State → State} (hp : ∀ j s, (put j s).mem = s.mem) (pasid page c e j) :
    Memory.wf (failJob pasid page put c e j s).mem = true := by
  unfold failJob
  split
  · exact stopJob_wf h hp ..
  · exact h

theorem tryPriResponse_wf (pasid page code) : ∀ t ∈ tryPriResponse pasid page code s, Memory.wf t.mem = true := by
  intro t ht
  simp only [tryPriResponse] at ht
  split at ht
  · cases ht
  · split at ht
    · cases ht
      exact everyJob_keeps (P := fun u => Memory.wf u.mem = true) (fun put c e j u hp hu => by rw [resumeOn_mem hp]; exact hu) h
    · cases ht
      exact everyJob_keeps (P := fun u => Memory.wf u.mem = true) (fun put c e j u hp hu => failJob_wf hu hp ..) h

theorem execAtsResponse_keeps (pasid page answer) : KeepsForm (execAtsResponse pasid page answer s) := by
  unfold execAtsResponse
  split
  · exact keepsForm_next h
  · exact happen_keeps_of_mem h (fun t ht => tryAtsResponse_mem _ _ _ _ t ht)

theorem execAtsInvalidation_keeps (pasid page) : KeepsForm (execAtsInvalidation pasid page s) := keepsForm_next h

theorem execTranslationInvalidation_keeps (w address entry) : KeepsForm (execTranslationInvalidation w address entry s) :=
    keepsForm_next (by simpa using h)

@[simp] theorem pushFrame_wf (w f) : Memory.wf (pushFrame w f s).mem = true := zeroFill_wf h ..

theorem tryPgfreeFramePush_wf (w) : ∀ t ∈ tryPgfreeFramePush w s, Memory.wf t.mem = true := by
  intro t ht
  unfold tryPgfreeFramePush at ht
  split at ht
  · cases ht
  · split at ht
    · cases ht
    · cases ht; exact pushFrame_wf (by simpa using h) ..

/-! ## Kills, keys and turnover -/

@[simp] theorem returnFrames_wf (w l) : Memory.wf (returnFrames w l s).mem = true := by
  induction l generalizing s with
  | nil => exact h
  | cons x r ih => exact ih (pushFrame_wf h ..)

@[simp] theorem returnFar_wf (k l) : Memory.wf (returnFar k l s).mem = true := by
  induction l generalizing s with
  | nil => exact h
  | cons x r ih =>
    refine ih ?_
    split
    · exact zeroFill_wf h ..
    · exact h

@[simp] theorem returnPages_wf (k) : Memory.wf (returnPages k s).mem = true :=
  returnFar_wf (returnFrames_wf (by simpa using h) ..) ..

@[simp] theorem finishKill_wf (k) : Memory.wf (finishKill k s).mem = true := by
  simp only [finishKill]
  (repeat' split) <;> simp [h]

theorem tryGenerationBumpAck_wf (id home) : ∀ t ∈ tryGenerationBumpAck id home s, Memory.wf t.mem = true := by
  intro t ht
  obtain ⟨k, _, rfl⟩ := Option.map_eq_some_iff.mp ht
  simp only []
  split <;> simp [h]

theorem execWorldKill_keeps (w) : KeepsForm (execWorldKill w s) := keepsForm_next (by simpa using h)

@[simp] theorem scrubCluster_wf (c) : Memory.wf (scrubCluster c s).mem = true := zeroFill_wf (by simpa using h) ..

@[simp] theorem scrubAll_wf (l) : Memory.wf (scrubAll l s).mem = true := by
  induction l generalizing s with
  | nil => exact h
  | cons c r ih => exact ih (scrubCluster_wf h c)

@[simp] theorem writeDlatch_wf (die v) : Memory.wf (writeDlatch die v s).mem = true := by
  simp only [writeDlatch, scrubDie]
  (repeat' split) <;> simp [h]

theorem execDlatchWrite_keeps (die v) : KeepsForm (execDlatchWrite die v s) := keepsForm_next (writeDlatch_wf h ..)

theorem execTurnoverStart_keeps (w) : KeepsForm (execTurnoverStart w s) := keepsForm_next (by simpa using h)

@[simp] theorem completeAll_wf (l) : Memory.wf (completeAll l s).mem = true := by
  induction l generalizing s with
  | nil => exact h
  | cons x r ih =>
    refine ih ?_
    simp only []
    split
    · exact h
    · exact writeRecord_wf h ..

@[simp] theorem turnStop_wf (w) : Memory.wf (turnStop w s).mem = true := by simp [turnStop, h]

@[simp] theorem zeroLines_wf (w l) : Memory.wf (zeroLines w l s).mem = true := by
  induction l generalizing s with
  | nil => exact h
  | cons x r ih =>
    refine ih ?_
    split
    · exact zeroFill_wf h ..
    · exact h

@[simp] theorem pushAll_wf (w l) : Memory.wf (pushAll w l s).mem = true := by
  induction l generalizing s with
  | nil => exact h
  | cons f r ih => exact ih (pushFrame_wf h ..)

@[simp] theorem turnFrames_wf (w) : Memory.wf (turnFrames w s).mem = true := zeroLines_wf (pushAll_wf h ..) ..

@[simp] theorem scrubBuffers_wf (w gone) : Memory.wf (scrubBuffers w gone s).mem = true :=
  foldl_wf (foldl_wf (foldl_wf h (fun _ _ hu => zeroFill_wf hu ..) _) (fun _ _ hu => zeroFill_wf hu ..) _) (fun _ _ hu => zeroFill_wf hu ..) _

@[simp] theorem turnScrub_wf (w) : Memory.wf (turnScrub w s).mem = true := by simp [turnScrub, h]

@[simp] theorem turnOrder_wf (n bad w) : Memory.wf (turnOrder n bad w s).mem = true := by
  unfold turnOrder
  split <;> simp [h]

theorem tryTurnoverOrderComplete_wf : ∀ t ∈ tryTurnoverOrderComplete s, Memory.wf t.mem = true := by
  simp only [tryTurnoverOrderComplete]
  (repeat' split) <;> simp [h]

@[simp] theorem serveWrite_wf (page offset v) : Memory.wf (serveWrite page offset v s).mem = true := by
  unfold serveWrite
  (repeat' split) <;> simp [h]

theorem execHubRegisterWrite_keeps (trusted page offset write) : KeepsForm (execHubRegisterWrite trusted page offset write s) := by
  simp only [execHubRegisterWrite]
  split
  · refine keepsForm_next ?_
    (repeat' split) <;> simp [h]
  · refine keepsForm_next ?_
    split <;> simp [h]

/-! ## Pages, switches and peers -/

@[simp] theorem pgallocHome_wf (z va) : Memory.wf (pgallocHome z va s).state.mem = true := by
  simp only [pgallocHome]
  split
  · exact h
  · split
    · exact h
    next frame t ht =>
      have ht : t.mem = s.mem := State.popFrame_mem _ _ _ _ ht
      simpa [ht] using h

theorem execPgalloc_keeps (l z a d) : KeepsForm (execPgalloc l z a d s) :=
  finish_keeps h (by
    simp only [meets_bind]
    refine checkCap_meets (require_meets ?_ ..) ..
    split
    next g u hu => simpa [givenValue_mem hu] using h
    · simp +contextual [h])

theorem execPgfree_keeps (z a) : KeepsForm (execPgfree z a s) :=
  finish_keeps h (by
    simp only [meets_bind]
    refine checkCap_meets ?_ ..
    split
    next u hu => simpa [State.skipEffect_mem s u hu] using h
    · simp only [meets_bind]
      refine stamped_meets (by simpa using h) (fun r hr => by simpa using hr) (fun u hu => ?_) ..
      split
      · split
        · simpa using hu
        · trivial
      · trivial
      · trivial)

/-- A stamped operation of a peer keeps what its home keeps. -/
theorem peerStamped_wf {home : State → State.Reply} (hhome : Memory.wf (home s).state.mem = true) (f maj func v) :
    Memory.wf (peerStamped f maj func v home s).mem = true := by
  unfold peerStamped
  split
  · simpa using h
  · simpa using hhome

@[simp] theorem peerAdd_wf (f v) : Memory.wf (peerAdd f v s).mem = true := by
  unfold peerAdd
  split
  · exact peerStamped_wf h (lineAdd_wf h ..) ..
  · simp [h]

@[simp] theorem peerWrite_wf (f bs) : Memory.wf (peerWrite f bs s).mem = true := by simp [peerWrite, h]

@[simp] theorem applyFlit_wf (f) : Memory.wf (applyFlit f s).mem = true := by
  have ht : Memory.wf (endPeerStep f s).mem = true := h
  unfold applyFlit
  split
  · simpa using h
  · simp only []
    split
    · exact peerAdd_wf ht ..
    · exact peerStamped_wf ht (initLine_wf ht ..) ..
    · simpa using ht
    · simpa using ht
    · exact peerWrite_wf ht ..
    · simpa using ht

@[simp] theorem applyFlits_wf (l) : Memory.wf (applyFlits l s).mem = true := by
  induction l generalizing s with
  | nil => exact h
  | cons f r ih => exact ih (by simpa using applyFlit_wf h f)

@[simp] theorem takeFlit_wf (f) : Memory.wf (takeFlit f s).mem = true := by simpa [takeFlit] using applyFlit_wf h f

@[simp] theorem takeEarly_wf (src n) : Memory.wf (takeEarly src n s).mem = true := by
  induction n generalizing s with
  | zero => exact h
  | succ n ih =>
    unfold takeEarly
    split
    · exact ih (takeFlit_wf (by simpa using h) _)
    · exact h

@[simp] theorem retryFlits_wf : Memory.wf (retryFlits s).mem = true := foldl_wf h (fun _ _ hu => takeEarly_wf hu ..) _

theorem execNelturFlit_keeps (f) : KeepsForm (execNelturFlit f s) := by
  refine keepsForm_next ?_
  split
  · exact h
  · exact takeEarly_wf (by simpa using h) ..

theorem tryPartitionResume_wf (p) : ∀ t ∈ tryPartitionResume p s, Memory.wf t.mem = true := by
  simp [tryPartitionResume, h]

/-! ## Recovery and the platform -/

theorem execUncorrectableError_keeps (address) : KeepsForm (execUncorrectableError address s) := by
  refine keepsForm_next ?_
  split
  · simpa using h
  · exact h

theorem execCorrectedError_keeps (row) : KeepsForm (execCorrectedError row s) := keepsForm_next h

@[simp] theorem restorePart_wf (q cells tags l) : Memory.wf (restorePart q cells tags l s).mem = true := by
  induction l generalizing s with
  | nil => exact h
  | cons x r ih => exact ih (storeLine_wf h ..)

@[simp] theorem restoreLine_wf (w keep cells tags line) : Memory.wf (restoreLine w keep cells tags line s).mem = true := by
  simp only [restoreLine]
  split <;> simp [h]

@[simp] theorem restoreLines_wf (w keep cells tags l) : Memory.wf (restoreLines w keep cells tags l s).mem = true := by
  induction l generalizing s with
  | nil => exact h
  | cons x r ih => exact ih (restoreLine_wf h ..)

@[simp] theorem restoreUndo_wf (w keep l) : Memory.wf (restoreUndo w keep l s).mem = true := by
  induction l generalizing s with
  | nil => exact h
  | cons x r ih => exact ih (restoreLine_wf h ..)

@[simp] theorem restorePages_wf (w keep l) : Memory.wf (restorePages w keep l s).mem = true := by
  induction l generalizing s with
  | nil => exact h
  | cons x r ih => exact ih (restoreLines_wf h ..)

@[simp] theorem restoreStep_wf (p e) : Memory.wf (restoreStep p e s).mem = true := by simp [restoreStep, h]

theorem tryStepReplay_wf (p) : ∀ t ∈ tryStepReplay p s, Memory.wf t.mem = true := by
  intro t ht
  obtain ⟨e, _, ht⟩ := Option.bind_eq_some_iff.mp ht
  split at ht
  · cases ht; simpa using h
  · split at ht
    · cases ht
    · cases ht; exact restoreStep_wf h ..

theorem execReset_keeps : KeepsForm (execReset s) := keepsForm_next (Cells.wfFrom_filter _ _ _ h)
theorem execPowerLimit_keeps (mhz) : KeepsForm (execPowerLimit mhz s) := keepsForm_next h
theorem execLinkFailure_keeps (link) : KeepsForm (execLinkFailure link s) := keepsForm_next h
theorem execLinkRetrainComplete_keeps (link) : KeepsForm (execLinkRetrainComplete link s) := keepsForm_next h
theorem execExpanderRemoval_keeps (expander) : KeepsForm (execExpanderRemoval expander s) := keepsForm_next h

end

end Sys2Proof.Machine
end

section
/-! The canonical form of memory (O51): every instruction and the step. -/

namespace Sys2Proof.Machine

open Sys2Proof

theorem trySwitchStop_mem (p s) : ∀ t ∈ trySwitchStop p s, t.mem = s.mem := by
  simp only [trySwitchStop]
  split <;> simp

theorem tryEngineStop_mem (c s) : ∀ t ∈ tryEngineStop c s, t.mem = s.mem := by
  simp only [tryEngineStop]
  (repeat' split) <;> simp

/-! ## Words of one shape -/

section
variable {s : State} (h : Memory.wf s.mem = true)
include h

theorem vecWord1_keeps (e a d f) : KeepsForm (vecWord1 e a d f s) := by
  unfold vecWord1; exact vecWord_keeps h ..

theorem vecWord2_keeps (e ka kb b a d f) : KeepsForm (vecWord2 e ka kb b a d f s) := by
  unfold vecWord2; exact vecWord_keeps h ..

theorem vecWordD_keeps (e ka kb b a d f) : KeepsForm (vecWordD e ka kb b a d f s) := by
  unfold vecWordD; exact vecWord_keeps h ..

theorem intWord1_keeps (e a d f) : KeepsForm (intWord1 e a d f s) := by
  unfold intWord1; exact vecWord1_keeps h ..

theorem intWord2_keeps (e ka kb b a d f) : KeepsForm (intWord2 e ka kb b a d f s) := by
  unfold intWord2; exact vecWord2_keeps h ..

theorem floatWord1_keeps (e a d f) : KeepsForm (floatWord1 e a d f s) := by
  unfold floatWord1; exact vecWord1_keeps h ..

theorem floatWord2_keeps (e ka kb b a d f) : KeepsForm (floatWord2 e ka kb b a d f s) := by
  unfold floatWord2; exact vecWord2_keeps h ..

theorem fusedWord_keeps (negP negC r e c b a d) : KeepsForm (fusedWord negP negC r e c b a d s) := by
  unfold fusedWord; exact vecWord_keeps h ..

theorem intCompare_keeps (r ka kb u e b a d) : KeepsForm (intCompare r ka kb u e b a d s) := by
  unfold intCompare; exact vecWord2_keeps h ..

theorem floatCompare_keeps (r ka kb e b a d) : KeepsForm (floatCompare r ka kb e b a d s) := by
  unfold floatCompare; exact vecWord2_keeps h ..

theorem threshold_keeps (r ka kb e b a d) : KeepsForm (threshold r ka kb e b a d s) := by
  unfold threshold; exact vecWord2_keeps h ..

theorem reduceWord_keeps (e a d f) : KeepsForm (reduceWord e a d f s) := by
  unfold reduceWord; exact vecWord1_keeps h ..

theorem execCpperm_keeps (b a d) : KeepsForm (execCpperm b a d s) := by
  refine derive_keeps h ?_ ..; exact fun _ => trivial
theorem execCpaddr_keeps (b a d) : KeepsForm (execCpaddr b a d s) := by
  refine derive_keeps h ?_ ..; exact fun _ => trivial
theorem execCpinc_keeps (b a d) : KeepsForm (execCpinc b a d s) := by
  refine derive_keeps h ?_ ..; exact fun _ => trivial
theorem execCpget_keeps (sel a d) : KeepsForm (execCpget sel a d s) := finish_keeps h (by simp [h])
theorem execCptest_keeps (b a d) : KeepsForm (execCptest b a d s) := finish_keeps h (by simp [h])
theorem execCpmove_keeps (a d) : KeepsForm (execCpmove a d s) := finish_keeps h (by simp [h])
theorem execPref_keeps (m z b a) : KeepsForm (execPref m z b a s) := finish_keeps h (by simp [h])
theorem execCpyq_keeps (a d) : KeepsForm (execCpyq a d s) := finish_keeps h (by simp [h])
theorem execXins_keeps (e n a d) : KeepsForm (execXins e n a d s) := finish_keeps h (by simp [h])
theorem execXview_keeps (b a d) : KeepsForm (execXview b a d s) := finish_keeps h (by simp [h])
theorem execXshape_keeps (a n) : KeepsForm (execXshape a n s) := finish_keeps h (by simp [h])
theorem execXflags_keeps (a d) : KeepsForm (execXflags a d s) := finish_keeps h (by simp [h])
theorem execMfmt_keeps (b a) : KeepsForm (execMfmt b a s) := finish_keeps h (by simp [h])
theorem execMmaAcc_keeps (k y t p) : KeepsForm (execMmaAcc k y t p s) := finish_keeps h (by simp [h])
theorem execMmaNew_keeps (l k y t p) : KeepsForm (execMmaNew l k y t p s) := finish_keeps h (by simp [h])
theorem execMmaZero_keeps (k p) : KeepsForm (execMmaZero k p s) := finish_keeps h (by simp [h])
theorem execAread_keeps (e blk a d) : KeepsForm (execAread e blk a d s) := finish_keeps h (by simp [h])
theorem execArel_keeps (a) : KeepsForm (execArel a s) := finish_keeps h (by simp [h])
theorem execAllot_keeps (a d) : KeepsForm (execAllot a d s) := finish_keeps h (by simp [h])
theorem execTime_keeps (d) : KeepsForm (execTime d s) := finish_keeps h (by simp [h])
theorem execDstat_keeps (sel d) : KeepsForm (execDstat sel d s) := finish_keeps h (by simp [h])
theorem execSrd_keeps (n d) : KeepsForm (execSrd n d s) := by
  simp only [execSrd]
  exact finish_keeps h (by simp [h])
theorem execEngrd_keeps (n a d) : KeepsForm (execEngrd n a d s) := finish_keeps h (by simp [h])
theorem execEngwr_keeps (n a d) : KeepsForm (execEngwr n a d s) := finish_keeps h (by simp [h])
theorem execDbgstop_keeps (n) : KeepsForm (execDbgstop n s) := finish_keeps h (by simp [h])
theorem execHaltg_keeps (a d) : KeepsForm (execHaltg a d s) := finish_keeps h (by (repeat' split) <;> simp [h])
theorem execYield_keeps : KeepsForm (execYield  s) := finish_keeps h (by split <;> simp [h])
theorem execIllegalInstruction_keeps : KeepsForm (execIllegalInstruction  s) := finish_keeps h trivial

end

/-! ## Every instruction, and the step -/

/-- Every instruction keeps the canonical form of memory, group by group: words by the operation that they share, events by what they attempt. -/
theorem exec_keeps {s : State} (h : Memory.wf s.mem = true) (i : Instr) : KeepsForm (exec i s) := by
  cases i <;> simp only [exec]
  case add | sub | mul | mulh | and | or | xor | shl | shr | sra | min | max | slt | slo | addi | andi | ori | xori | shli | shri | srai |
    slti | ahi => exact intWord_keeps h ..
  case cpbound => exact execCpbound_keeps h ..
  case cpperm => exact execCpperm_keeps h ..
  case cpaddr => exact execCpaddr_keeps h ..
  case cpinc => exact execCpinc_keeps h ..
  case cpget => exact execCpget_keeps h ..
  case cptest => exact execCptest_keeps h ..
  case cpmove => exact execCpmove_keeps h ..
  case beq | bne | blt | bge | blo | bhs | btag | bnotag => exact branchWord_keeps h ..
  case jmp => exact execJmp_keeps h ..
  case call => exact execCall_keeps h ..
  case callr => exact execCallr_keeps h ..
  case jmpr => exact execJmpr_keeps h ..
  case ret => exact execRet_keeps h ..
  case enter => exact execEnter_keeps h ..
  case ld => exact execLd_keeps h ..
  case st => exact execSt_keeps h ..
  case mredAdd | mredAnd | mredOr | mredXor | mredMin | mredMax | mredMinUn | mredMaxUn | mredAddFloat | mredMinFloat | mredMaxFloat =>
    exact mredWord_keeps h ..
  case pref => exact execPref_keeps h ..
  case pgalloc => exact execPgalloc_keeps h ..
  case pgfree => exact execPgfree_keeps h ..
  case ctadd => exact execCtadd_keeps h ..
  case ctwait => exact execCtwait_keeps h ..
  case ctwaitt => exact execCtwaitt_keeps h ..
  case ctread => exact execCtread_keeps h ..
  case ctinit => exact execCtinit_keeps h ..
  case ctarr | ctarrDrop => exact arriveWord_keeps h ..
  case ctarrJoin => exact execCtarrJoin_keeps h ..
  case cpyj => exact execCpyj_keeps h ..
  case cpyq => exact execCpyq_keeps h ..
  case vadd | vsub | vmul | vmulh | vand | vor | vxor | vshl | vshr | vsra | vmin | vmax => exact intWord2_keeps h ..
  case vmad | vsel => exact vecWordD_keeps h ..
  case vabs | vclz | vpop => exact intWord1_keeps h ..
  case fadd | fsub | fmul | fmin | fmax | fdiv => exact floatWord2_keeps h ..
  case fabs | fneg | vbcast | vslide | fcvtFromFc | fcvtToFc | icvtToInt | icvtToFloat => exact vecWord1_keeps h ..
  case fsgn | vperm | vpack => exact vecWord2_keeps h ..
  case ffma | ffms | ffnma | ffnms => exact fusedWord_keeps h ..
  case fsqrt | frcp | frsq | fexp2 | flog2 => exact floatWord1_keeps h ..
  case vcmpEq | vcmpNe | vcmpLt | vcmpLe | vcmpGt | vcmpGe => exact intCompare_keeps h ..
  case fcmpEq | fcmpNe | fcmpLt | fcmpLe | fcmpGt | fcmpGe => exact floatCompare_keeps h ..
  case fthrGe | fthrLt => exact threshold_keeps h ..
  case vredAdd | vredMin | vredMax | fredAdd | fredMin | fredMax => exact reduceWord_keeps h ..
  case xins => exact execXins_keeps h ..
  case xext => exact execXext_keeps h ..
  case xmov | xli | xliHi | xliLo => exact vecWord_keeps h ..
  case xview => exact execXview_keeps h ..
  case xshape => exact execXshape_keeps h ..
  case xflags => exact execXflags_keeps h ..
  case mfmt => exact execMfmt_keeps h ..
  case mmaAcc => exact execMmaAcc_keeps h ..
  case mmaNew => exact execMmaNew_keeps h ..
  case mmaZero => exact execMmaZero_keeps h ..
  case mmarAcc => exact execMmarAcc_keeps h ..
  case mmarNew => exact execMmarNew_keeps h ..
  case mmarZero => exact execMmarZero_keeps h ..
  case aread => exact execAread_keeps h ..
  case arel => exact execArel_keeps h ..
  case spawn => exact execSpawn_keeps h ..
  case exit => exact execExit_keeps h ..
  case sysc => exact execSysc_keeps h ..
  case allot => exact execAllot_keeps h ..
  case getid => exact execGetid_keeps h ..
  case time => exact execTime_keeps h ..
  case gcall => exact execGcall_keeps h ..
  case gmake => exact execGmake_keeps h ..
  case grevoke => exact execGrevoke_keeps h ..
  case grevokeEject => exact execGrevokeEject_keeps h ..
  case dstat => exact execDstat_keeps h ..
  case srd => exact execSrd_keeps h ..
  case swr => exact execSwr_keeps h ..
  case ctxst => exact execCtxst_keeps h ..
  case ctxld => exact execCtxld_keeps h ..
  case engrd => exact execEngrd_keeps h ..
  case engwr => exact execEngwr_keeps h ..
  case dbgstop => exact execDbgstop_keeps h ..
  case haltg => exact execHaltg_keeps h ..
  case hint | nop => exact retireHint_keeps h ..
  case sig => exact execSig_keeps h ..
  case launchRecord => exact happen_keeps h (tryLaunchRecord_wf h _)
  case counterRecordAdd => exact happen_keeps h (tryCounterRecord_wf h (fun _ _ _ hu => addRecord_wf hu ..) _ _ _)
  case counterRecordWait => exact happen_keeps h (tryCounterRecord_wf h (fun _ _ _ hu => waitRecord_wf hu ..) _ _ _)
  case invalidRecordType => exact happen_keeps h (tryInvalidRecordType_wf h _)
  case hostWaitReply => exact happen_keeps h (tryHostWaitReply_wf h _)
  case completionRecord => exact happen_keeps h (tryCompletionRecord_wf h _)
  case waiterWake => exact happen_keeps_of_mem h (tryWaiterWake_mem _ s)
  case waitLimitExpiry => exact happen_keeps_of_mem h (tryWaitLimitExpiry_mem _ s)
  case park => exact happen_keeps_of_mem h (tryPark_mem _ s)
  case continuationTake => exact happen_keeps_of_mem h (tryContinuationTake_mem _ _ s)
  case quantumEnd => exact happen_keeps_of_mem h (tryQuantumEnd_mem _ s)
  case priorityAging => exact happen_keeps_of_mem h (tryPriorityAging_mem _ s)
  case steal => exact happen_keeps_of_mem h (trySteal_mem _ _ s)
  case allotmentExhausted => exact happen_keeps_of_mem h (tryAllotmentExhausted_mem _ s)
  case continuationLimitRelease => exact happen_keeps_of_mem h (tryContinuationLimitRelease_mem _ s)
  case syscReply => exact happen_keeps h (trySyscReply_wf h _ _ _)
  case streamEntryComplete => exact happen_keeps_of_mem h (tryStreamEntryComplete_mem _ s)
  case lookaheadWrite => exact happen_keeps_of_mem h (tryLookaheadWrite_mem _ s)
  case copyQueueGrant => exact happen_keeps_of_mem h (tryCopyQueueGrant_mem _ s)
  case copyJobStart => exact happen_keeps h (tryCopyJobStart_wf h _ _)
  case sectorLand => exact happen_keeps h (trySectorLand_wf h _ _ _)
  case priResponse => exact happen_keeps h (tryPriResponse_wf h _ _ _)
  case atsResponse => exact execAtsResponse_keeps h ..
  case atsInvalidation => exact execAtsInvalidation_keeps h ..
  case invalidationCompletion => exact happen_keeps_of_mem h (tryInvalidationCompletion_mem _ _ s)
  case translationInvalidation => exact execTranslationInvalidation_keeps h ..
  case matrixQueueGrant => exact happen_keeps_of_mem h (tryMatrixQueueGrant_mem _ s)
  case matrixCommandStart => exact happen_keeps_of_mem h (tryMatrixCommandStart_mem _ s)
  case matrixCommandComplete => exact happen_keeps_of_mem h (tryMatrixCommandComplete_mem _ _ s)
  case areadTileWrite => exact happen_keeps_of_mem h (tryAreadTileWrite_mem _ _ s)
  case slotRelease => exact happen_keeps_of_mem h (trySlotRelease_mem _ _ s)
  case domainKill => exact happen_keeps_of_mem h (tryDomainKill_mem _ _ s)
  case worldKill => exact execWorldKill_keeps h ..
  case generationBumpAck => exact happen_keeps h (tryGenerationBumpAck_wf h _ _)
  case killUnwind => exact happen_keeps_of_mem h (tryKillUnwind_mem _ s)
  case ejectUnwind | budgetEnd => exact happen_keeps_of_mem h (tryUnwind_mem _ _ s)
  case farGateLanding => exact happen_keeps_of_mem h (tryFarGateLanding_mem _ s)
  case farGateReturn => exact happen_keeps_of_mem h (tryFarGateReturn_mem _ s)
  case rekey => exact happen_keeps_of_mem h (tryRekey_mem _ s)
  case keySweepLine => exact happen_keeps_of_mem h (tryKeySweepLine_mem _ _ s)
  case keySlotDestroy => exact happen_keeps_of_mem h (tryKeySlotDestroy_mem _ s)
  case dlatchWrite => exact execDlatchWrite_keeps h ..
  case turnoverStart => exact execTurnoverStart_keeps h ..
  case hubRegisterWrite => exact execHubRegisterWrite_keeps h ..
  case switchAnnounce => exact happen_keeps_of_mem h (trySwitchAnnounce_mem _ _ _ s)
  case switchStop => exact happen_keeps_of_mem h (trySwitchStop_mem _ s)
  case bankSwap => exact happen_keeps_of_mem h (tryBankSwap_mem _ s)
  case partitionResume => exact happen_keeps h (tryPartitionResume_wf h _)
  case stepBoundary => exact happen_keeps_of_mem h (tryStepBoundary_mem _ s)
  case stepReplay => exact happen_keeps h (tryStepReplay_wf h _)
  case replayResume => exact happen_keeps_of_mem h (tryReplayResume_mem _ s)
  case taskRerun => exact happen_keeps_of_mem h (tryTaskRerun_mem _ s)
  case uncorrectableError => exact execUncorrectableError_keeps h ..
  case powerLimit => exact execPowerLimit_keeps h ..
  case nelturFlit => exact execNelturFlit_keeps h ..
  case linkFailure => exact execLinkFailure_keeps h ..
  case expanderRemoval => exact execExpanderRemoval_keeps h ..
  case hostMemoryAccess => exact execHostMemoryAccess_keeps h ..
  case haltResume => exact execHaltResume_keeps h ..
  case engineStop => exact happen_keeps_of_mem h (tryEngineStop_mem _ s)
  case engineResume => exact happen_keeps_of_mem h (tryEngineResume_mem _ s)
  case engineEntryWrite => exact happen_keeps_of_mem h (tryEngineEntryWrite_mem _ _ _ s)
  case faultedResume => exact happen_keeps_of_mem h (tryFaultedResume_mem _ _ s)
  case faultedFree => exact happen_keeps_of_mem h (tryFaultedFree_mem _ s)
  case domainCreate => exact happen_keeps_of_mem h (tryDomainCreate_mem _ _ s)
  case worldKeyLoad => exact happen_keeps_of_mem h (tryWorldKeyLoad_mem _ s)
  case faultQueueDrain => exact happen_keeps_of_mem h (tryFaultQueueDrain_mem _ s)
  case linkRetrainComplete => exact execLinkRetrainComplete_keeps h ..
  case correctedError => exact execCorrectedError_keeps h ..
  case pgfreeFramePush => exact happen_keeps h (tryPgfreeFramePush_wf h _)
  case partitionSave => exact happen_keeps_of_mem h (tryPartitionSave_mem _ s)
  case recordModeRerun => exact happen_keeps_of_mem h (tryRecordModeRerun_mem _ s)
  case gret => exact execGret_keeps h ..
  case tret | tretSkip => exact tretWord_keeps h ..
  case yield => exact execYield_keeps h ..
  case step => exact execStep_keeps h ..
  case illegalInstruction => exact execIllegalInstruction_keeps h ..
  case turnoverOrderComplete => exact happen_keeps h (tryTurnoverOrderComplete_wf h)
  case sounariReport => exact happen_keeps_of_mem h (trySounariReport_mem s)
  case softRepair => exact happen_keeps_of_mem h (trySoftRepair_mem s)
  case softRepairComplete => exact happen_keeps_of_mem h (trySoftRepairComplete_mem s)
  case reset => exact execReset_keeps h ..
  case bringupStageComplete => exact happen_keeps_of_mem h (tryBringupStageComplete_mem s)

section
variable {s : State} (h : Memory.wf s.mem = true)
include h

omit h in
theorem wordVerdict_meets {P : Unit → Prop} (hP : P ()) (i) : ResMeets P (wordVerdict i s) := by
  simp only [wordVerdict]
  split
  · trivial
  · simp [checkerVerdict, hP]

theorem runWord_keeps (i) : KeepsForm (runWord i s) := by
  have hi : Memory.wf (atIssue i s).mem = true := by simpa using h
  unfold runWord
  split
  · exact keepsForm_next h
  · split
    next e he => exact finish_error_keeps hi ((wordVerdict_meets (P := fun _ => True) trivial i).of_error he)
    · split
      · exact keepsForm_next h
      · exact exec_keeps hi i

theorem fetchAndRun_keeps : KeepsForm (fetchAndRun s) := by
  have hf : ResMeets (fun p => Memory.wf p.2.mem = true) (fetch s) := fetch_meets fun _ => by simpa using h
  unfold fetchAndRun
  split
  · exact finish_error_keeps (by simpa using h) trivial
  next f he => exact finish_error_keeps h (hf.of_error he)
  next w t ht =>
    have ht : Memory.wf t.mem = true := hf.of_ok ht
    split
    · exact execIllegalInstruction_keeps ht
    · exact runWord_keeps ht _

theorem issueFocused_keeps : KeepsForm (issueFocused s) := by
  unfold issueFocused
  split
  · exact keepsForm_next (by simpa using h)
  · exact fetchAndRun_keeps h

theorem perform_keeps (a) : KeepsForm (perform a s) := by
  cases a with
  | word t => exact issueFocused_keeps (s := s.focus t) (by simpa using h)
  | event e => exact exec_keeps h e

theorem draw_keeps (l) : KeepsForm (draw l s) := by
  unfold draw
  split
  · exact perform_keeps (by simpa using h) _
  · exact keepsForm_next h

@[simp] theorem settled_wf : Memory.wf (settled s).mem = true := by simp [settled, h]

omit h in
theorem andPass_keeps {o : Out} (ho : KeepsForm o) : KeepsForm (andPass o) := by
  cases o with
  | next t => exact keepsForm_next (by simpa using settled_wf (ho.next t rfl))
  | fault f => exact ⟨fun t ht => by cases ht⟩
  | refused r => exact ⟨fun t ht => by cases ht⟩

theorem advanceMachine_keeps : KeepsForm (advanceMachine s) := by
  unfold advanceMachine
  split
  · exact andPass_keeps (exec_keeps (by simpa using h) _)
  · split
    · split
      · exact ⟨fun t ht => by cases ht⟩
      · exact andPass_keeps (keepsForm_next h)
    · exact andPass_keeps (perform_keeps h _)
    · exact andPass_keeps (draw_keeps h _)

end

/-- Settles O51: memory changes only where bytes are put, zero-filled or filtered, each of which keeps the form, and every instruction's
computation carries that through its checks, its waits and its ends. -/
theorem memoryStaysCanonical : Obligations.MemoryStaysCanonical := by
  unfold Obligations.MemoryStaysCanonical
  intro s t h ht
  exact (advanceMachine_keeps h).next t ht

end Sys2Proof.Machine
end

section
/-! Loads into the load queues (O10). -/

namespace Sys2Proof.Machine

open Sys2Proof

/-! ## What an access that passes its checks shows -/

@[simp] theorem require_true (code : BitVec 8) (addr : Word64) : require true code addr = .ok () := rfl

theorem of_require {p : Bool} {code : BitVec 8} {addr : Word64} (h : require p code addr = .ok ()) : p = true := by
  cases p with
  | true => rfl
  | false => cases h

@[simp] theorem Res.ok_bind {α β : Type} (a : α) (f : α → Res β) : (Except.ok a >>= f : Res β) = f a := rfl

@[simp] theorem Res.error_bind {α β : Type} (e : Exn) (f : α → Res β) : (Except.error e >>= f : Res β) = .error e := rfl

section
variable {s t : State} {who : Who} {c : Cap} {cur name : Word64} {n : Nat} {need : Need} {ps : List (Nat × Nat)}

theorem State.rights_of_checkCap (h : s.checkCap who c cur n need name = .ok ()) : s.checkRights who c cur n need name = .ok () := by
  obtain ⟨⟨⟩, hr, _⟩ := Res.bind_ok h
  exact hr

theorem State.unsealed_of_rights (h : s.checkRights who c cur n need name = .ok ()) : c.sealed = false := by
  obtain ⟨_, _, h⟩ := Res.bind_ok h
  obtain ⟨_, _, h⟩ := Res.bind_ok h
  split at h
  · cases h
  · obtain ⟨⟨⟩, hs, _⟩ := Res.bind_ok h
    have hs := of_require hs
    simp only [Bool.and_eq_true, Bool.not_eq_true'] at hs
    exact hs.1

theorem State.unsealed_of_checkCap (h : s.checkCap who c cur n need name = .ok ()) : c.sealed = false :=
  State.unsealed_of_rights (State.rights_of_checkCap h)

theorem Reaches.checked (h : Reaches s c cur n need name ps t) : s.checkCap s.who c cur n need name = .ok () := by
  obtain ⟨⟨⟩, hc, _⟩ := Res.bind_ok h
  exact hc

theorem Reaches.translated (h : Reaches s c cur n need name ps t) :
    s.translatePieces s.who c.space need (piecesAt (pageStep c.space) (addrOf c.space cur) n) = .ok (ps, t) := by
  obtain ⟨_, _, ht⟩ := Res.bind_ok h
  exact ht

theorem Reaches.state (h : Reaches s c cur n need name ps t) : t = s := State.access_state h

end

/-! ## Loads -/

section
variable {s t : State} {m : BitVec 2} {z : BitVec 3} {b a : RegNum} {cur : Word64} {c : Cap} {ps : List (Nat × Nat)}

/-- Checks 1 to 4 of an exact sum. -/
theorem checkEffective_of_fits (n : Nat) (need : Need) : checkEffective c cur true n need a s = s.checkCap s.who c cur n need (regName a) := by
  unfold checkEffective State.checkCap
  rfl

theorem capAligned_of (h : z = 7 → cur.toNat % 16 = 0) : capAligned z cur = true := by
  unfold capAligned
  by_cases hz : z = 7
  · simp [h hz]
  · simp only [bne_iff_ne.mpr hz, Bool.true_or]

/-- The value of a load of the pieces. -/
def loadedVal (c : Cap) (z : BitVec 3) (ps : List (Nat × Nat)) (s : State) : TaskVal :=
  ⟨⟨BitVec.ofNat 128 (leNat ((s.readPieces ps).take 16)),
    z == 7 && c.permLC && (c.space == 1 || c.space == 2) && ((ps.head?.map fun p => s.tagAt p.1).getD false)⟩, vecOfBytes (s.readPieces ps)⟩

theorem readMemory_of_reaches (h : Reaches s c cur (accessSize z) needLoad (regName a) ps t) (hz : z = 7 → cur.toNat % 16 = 0) :
    readMemory c z cur true a s = .ok (loadedVal c z ps s, s.piecesFault s.req (addrOf c.space cur) ps, noteReads ps s) := by
  have hs := h.state
  subst hs
  simp only [readMemory, checkEffective_of_fits, h.checked, capAligned_of hz, require_true, h.translated, Res.ok_bind, loadedVal]
  cases ps <;> rfl

theorem loadValue_of_reaches (h : Reaches s c cur (accessSize z) needLoad (regName a) ps t) (hz : z = 7 → cur.toNat % 16 = 0)
    (hf : s.piecesFault s.req (addrOf c.space cur) ps = none) (hg : s.givenEntry = none) :
    loadValue c z cur true a s = .ok (loadedVal c z ps s, none, (noteReads ps s).logValue (loadedVal c z ps s) (loadEntrySize z)) := by
  simp only [loadValue, hg, readMemory_of_reaches h hz, hf, Res.ok_bind, Option.map_none]

end

/-! ## The base update -/

section
variable {m : BitVec 2} {b a : RegNum} {c : Cap} {n : Nat} {ds : List RegNum} {s u x : State}

theorem setQueue_writeReg (q : Nat) (l : List QEntry) (d : RegNum) (v : Cap) : (u.writeReg d v).setQueue q l = (u.setQueue q l).writeReg d v := by
  by_cases h : d = 0
  · rw [State.writeReg_a0 u v h, State.writeReg_a0 _ v h]
  · rw [State.writeReg_of_ne u v h, State.writeReg_of_ne _ v h]
    unfold State.setQueue
    match q with
    | 0 | 1 | 2 | _ + 3 => rfl

theorem setQueue_updateBase (q : Nat) (l : List QEntry) : (updateBase a m b n c u).setQueue q l = updateBase a m b n c (u.setQueue q l) := by
  simp only [updateBase]
  split
  · rfl
  · exact setQueue_writeReg ..

theorem updateBase_reg (hc : c.sealed = false) (hu : u.reg a = c) : (updateBase a m b n c u).reg a = written a (baseAfter c m b n) := by
  by_cases hm : m.toNat < 2
  · simp only [updateBase, baseAfter, hm, if_true, hu, written]
    split
    next ha => rw [← hu, State.reg_a0 u ha]
    · rfl
  · simp [updateBase, baseAfter, hm, hc]

theorem updateBase_queue (q : Nat) : (updateBase a m b n c u).queue q = u.queue q := by
  simp only [updateBase, State.writeReg]
  (repeat' split) <;> rfl

theorem updateBase_pc : (updateBase a m b n c u).pc = u.pc := by
  simp only [updateBase]
  split <;> simp

theorem Made.updateBase (h : Made [] x s u) : Made (basesOf m a) x s (updateBase a m b n c u) := by
  have h' : Made (basesOf m a) x s u := h.widen (by simp)
  unfold Machine.updateBase
  by_cases hm : m.toNat < 2
  · simpa [hm] using h'
  · simpa only [hm, if_false] using h'.writeReg a _ (by simp [basesOf, hm])

end

/-! ## A load into a load queue -/

theorem exec_ld (q m : BitVec 2) (l : BitVec 4) (z : BitVec 3) (b a d : RegNum) (s : State) :
    exec (.ld q m l z b a d) s = execLd q m l z b a d s := rfl

section
variable {s u x : State} {ds : List RegNum}

/-- The state `s` but for what memory's homes and the load queues of `t` hold. -/
def loadsOf (s t : State) : State := (homesOf s t).modCtx fun c => { c with lq0 := t.thr.ctx.lq0, lq1 := t.thr.ctx.lq1 }

theorem loadsOf_eq_of_agrees (h : Agrees x u) : loadsOf s u = loadsOf s x :=
  calc loadsOf s u = loadsOf s { x with thr := u.thr } := congrArg _ h.machine
    _ = loadsOf s { x with thr := { x.thr with ctx := u.thr.ctx, stall := u.thr.stall } } :=
      congrArg (fun y => loadsOf s { x with thr := y }) h.thread
    _ = loadsOf s x := by rw [h.context]; rfl

theorem Becomes.of_loads (h : Becomes ds x s u) (hx : loadsOf s x = x) : Becomes ds (loadsOf s u) s u := by
  rw [loadsOf_eq_of_agrees h.rest, hx]; exact h

theorem loadsOf_noteReads (ps : List (Nat × Nat)) : loadsOf s (noteReads ps s) = noteReads ps s := by
  unfold noteReads
  split <;> rfl

theorem noteReads_ctx (ps : List (Nat × Nat)) (s : State) : (noteReads ps s).thr.ctx = s.thr.ctx := by
  unfold noteReads
  split <;> rfl

theorem loadsOf_logValue (v : TaskVal) (k : Nat) (h : loadsOf s x = x) : loadsOf s (x.logValue v k) = x.logValue v k := by
  unfold State.logValue State.logEntry
  split
  · split <;> (conv_rhs => rw [← h]) <;> rfl
  · exact h

theorem loadsOf_setQueue {q : Nat} (hq : q < 2) (l : List QEntry) (h : loadsOf s x = x) : loadsOf s (x.setQueue q l) = x.setQueue q l := by
  conv_rhs => rw [← h]
  match q, hq with
  | 0, _ => rfl
  | 1, _ => rfl

theorem queue_setQueue {q : Nat} (hq : q < 4) (l : List QEntry) : (x.setQueue q l).queue q = l := by
  match q, hq with
  | 0, _ | 1, _ | 2, _ | 3, _ => rfl

theorem queue_setQueue_ne {q r : Nat} (hq : q < 4) (hr : r < 4) (h : r ≠ q) (l : List QEntry) : (x.setQueue q l).queue r = x.queue r := by
  match q, hq, r, hr with
  | 0, _, 1, _ | 0, _, 2, _ | 0, _, 3, _ | 1, _, 0, _ | 1, _, 2, _ | 1, _, 3, _ => rfl
  | 2, _, 0, _ | 2, _, 1, _ | 2, _, 3, _ | 3, _, 0, _ | 3, _, 1, _ | 3, _, 2, _ => rfl
  | 0, _, 0, _ | 1, _, 1, _ | 2, _, 2, _ | 3, _, 3, _ => exact absurd rfl h

end

section
variable {s t : State} {q m : BitVec 2} {l : BitVec 4} {z : BitVec 3} {b a d : RegNum} {ps : List (Nat × Nat)}

/-- The state in which the entry of a load has been pushed and the load logged, before the base update. -/
def queueLoaded (q : Nat) (c : Cap) (z : BitVec 3) (ps : List (Nat × Nat)) (s : State) : State :=
  ((noteReads ps s).logValue (loadedVal c z ps s) (loadEntrySize z)).setQueue q (s.queue q ++ [⟨vecOfBytes (s.readPieces ps), none, true⟩])

theorem exec_ld_queue (hq : q = 1 ∨ q = 2) (hroom : (s.queue (q.toNat - 1)).length < Config.lqDepth)
    (hfit : effectiveFits (s.reg a) m b (accessSize z) s = true)
    (hr : Reaches s (s.reg a) (effective (s.reg a) m b (accessSize z) s) (accessSize z) needLoad (regName a) ps t) (hz : z ≠ 7)
    (hf : s.piecesFault s.req (addrOf (s.reg a).space (effective (s.reg a) m b (accessSize z) s)) ps = none) (hg : s.givenEntry = none) :
    exec (.ld q m l z b a d) s =
      s.finish (.ok (updateBase a m b (accessSize z) (s.reg a) (queueLoaded (q.toNat - 1) (s.reg a) z ps s)).advance) := by
  have hq2 : q.toNat - 1 < 2 := by rcases hq with rfl | rfl <;> decide
  have hq0 : q ≠ 0 := by rcases hq with rfl | rfl <;> decide
  have hd : State.queueDepth (q.toNat - 1) = Config.lqDepth := if_pos hq2
  have hqueue : ∀ u : State, u.thr.ctx = s.thr.ctx → u.queue (q.toNat - 1) = s.queue (q.toNat - 1) := fun u hu => by
    unfold State.queue
    rw [hu]
  rw [exec_ld, execLd, if_neg hq0]
  simp only [loadQueue, hd, hroom, decide_true, require_true, Res.ok_bind, hfit, loadValue_of_reaches hr (fun h => absurd h hz) hf hg,
    State.pushQueue, updateBase_queue, hqueue _ ((State.logValue_ctx ..).trans (noteReads_ctx ps s)), if_true, setQueue_updateBase]
  rfl

theorem queueLoaded_eq_loadsOf {q : Nat} (hq : q < 2) (c : Cap) : loadsOf s (queueLoaded q c z ps s) = queueLoaded q c z ps s :=
  loadsOf_setQueue hq _ (loadsOf_logValue _ _ (loadsOf_noteReads ps))

theorem setQueue_ctx {u v : State} (h : u.thr.ctx = v.thr.ctx) (q : Nat) (es : List QEntry) :
    (u.setQueue q es).thr.ctx = (v.setQueue q es).thr.ctx := by
  unfold State.setQueue
  exact congrArg (fun c : Ctx => match q with
    | 0 => { c with lq0 := es } | 1 => { c with lq1 := es } | 2 => { c with sq0 := es } | _ => { c with sq1 := es }) h

theorem queueLoaded_ctx (q : Nat) (c : Cap) :
    (queueLoaded q c z ps s).thr.ctx = (s.setQueue q (s.queue q ++ [⟨vecOfBytes (s.readPieces ps), none, true⟩])).thr.ctx :=
  setQueue_ctx ((State.logValue_ctx ..).trans (noteReads_ctx ps s)) q _

theorem queueLoaded_byteAt (q : Nat) (c : Cap) (x : Nat) : (queueLoaded q c z ps s).byteAt x = s.byteAt x := by
  simp [queueLoaded, State.byteAt]

theorem setQueue_keeps (q : Nat) (es : List QEntry) : (s.setQueue q es).thr.ctx.regs = s.thr.ctx.regs ∧
    (s.setQueue q es).thr.ctx.regMarks = s.thr.ctx.regMarks ∧ (s.setQueue q es).thr.ctx.code = s.thr.ctx.code := by
  match q with
  | 0 | 1 | 2 | _ + 3 => exact ⟨rfl, rfl, rfl⟩

theorem queueLoaded_reg (q : Nat) (c : Cap) (r : RegNum) : (queueLoaded q c z ps s).reg r = s.reg r := by
  simp only [State.reg_eq, queueLoaded_ctx, (setQueue_keeps (s := s) q _).1]

theorem queueLoaded_pc (q : Nat) (c : Cap) : (queueLoaded q c z ps s).pc = s.pc := by
  simp only [State.pc, queueLoaded_ctx, (setQueue_keeps (s := s) q _).2.2]

theorem queueLoaded_made (q : Nat) (c : Cap) : Made [] (queueLoaded q c z ps s) s (queueLoaded q c z ps s) :=
  Made.self _ _ (by rw [queueLoaded_ctx]; exact (setQueue_keeps q _).1) (by rw [queueLoaded_ctx]; exact (setQueue_keeps q _).2.1)

theorem State.queue_congr {u v : State} (h : u.thr.ctx = v.thr.ctx) (r : Nat) : u.queue r = v.queue r := by
  unfold State.queue
  rw [h]

theorem end_updateBase_queue {n : Nat} {c : Cap} {u : State} (r : Nat) :
    (updateBase a m b n c u).advance.clearStall.complete.queue r = u.queue r := by
  rw [← updateBase_queue (a := a) (m := m) (b := b) (n := n) (c := c) (u := u)]
  unfold State.queue
  match r with
  | 0 | 1 | 2 | _ + 3 => rfl

/-- A word that ends at the next word. -/
theorem Completes.of_finish {i : Instr} {s u : State} {p : State → Prop} (h : exec i s = s.finish (.ok u.advance)) (hpc : u.pc = s.pc)
    (hp : p u.advance.clearStall.complete) : Completes i s (s.pc + 4) p :=
  ⟨_, h, by rw [State.end_pc, State.advance_pc, hpc], rfl, hp⟩

/-- Settles O10: the word pushes the entry over the state that the load left, then updates its base. -/
theorem loadQueue_obligation : Obligations.LoadQueue := by
  unfold Obligations.LoadQueue
  intro q m l z b a d s t ps
  dsimp only
  intro hq hz hroom hfit hr hf hg
  obtain rfl : t = s := hr.state
  have hq2 : q.toNat - 1 < 2 := by rcases hq with rfl | rfl <;> decide
  obtain ⟨ho, hne⟩ : 2 - q.toNat < 4 ∧ 2 - q.toNat ≠ q.toNat - 1 := by rcases hq with rfl | rfl <;> decide
  have hexec := exec_ld_queue (l := l) (d := d) hq hroom hfit hr hz hf hg
  have hqueue := State.queue_congr (queueLoaded_ctx (s := t) (z := z) (ps := ps) (q.toNat - 1) (t.reg a))
  have hpc := queueLoaded_pc (s := t) (z := z) (ps := ps) (q.toNat - 1) (t.reg a)
  have hreg := queueLoaded_reg (s := t) (z := z) (ps := ps) (q.toNat - 1) (t.reg a) a
  have hloads := queueLoaded_eq_loadsOf (s := t) (z := z) (ps := ps) hq2 (t.reg a)
  have hbytes := queueLoaded_byteAt (s := t) (z := z) (ps := ps) (q.toNat - 1) (t.reg a)
  have hmade := queueLoaded_made (s := t) (z := z) (ps := ps) (q.toNat - 1) (t.reg a)
  revert hexec hqueue hpc hreg hloads hbytes hmade
  generalize queueLoaded (q.toNat - 1) (t.reg a) z ps t = x
  intro hexec hqueue hpc hreg hloads hbytes hmade
  have hbecomes := (hmade.updateBase (m := m) (b := b) (a := a) (c := t.reg a) (n := accessSize z)).advance.complete
  have hend := fun r => end_updateBase_queue (m := m) (b := b) (a := a) (c := t.reg a) (n := accessSize z) (u := x) r
  refine Completes.of_finish hexec (updateBase_pc.trans hpc) ⟨?_, ?_, ?_, hbecomes.of_loads hloads, fun y => ?_⟩
  · rw [State.end_reg, State.advance_reg, updateBase_reg (State.unsealed_of_checkCap hr.checked) hreg]
  · rw [hend, hqueue, queue_setQueue (by omega)]
  · rw [hend, hqueue, queue_setQueue_ne (by omega) ho hne]
  · rw [hbecomes.rest.bytes, hbytes]

end

end Sys2Proof.Machine
end

section
/-! Refused accesses (O12): a first touch of a page of which another domain of the world maps a part. -/

namespace Sys2Proof.Machine

open Sys2Proof

/-! ## A first touch of a page of which another domain maps a part -/

/-- Every table entry of a type has that type, whatever its other fields. -/
theorem pteType_pteBits (owner frame : Nat) (x w r : Bool) (ty : BitVec 2) : pteType (pteBits owner frame x w r ty) = ty.toNat := by
  have h : (pteBits owner frame x w r ty).extractLsb' 0 2 = ty := by
    apply BitVec.eq_of_getLsbD_eq
    intro i hi
    simp only [pteBits, BitVec.getLsbD_extractLsb', BitVec.getLsbD_append, Nat.zero_add, hi, decide_true, Bool.true_and]
    simp (disch := omega) only [if_pos, if_true]
  rw [pteType, h]

/-- A page with a leaf below one of its 512 entries. -/
theorem leafBelow_of_child {w : World} {lv entry i : Nat} (ht : pteType (NMap.getD w.ptes entry 0) = 1) (hi : i < 512)
    (h : leafBelow w lv (pteFrame (NMap.getD w.ptes entry 0) + i * 8) = true) : leafBelow w (lv + 1) entry = true := by
  simp only [leafBelow, ht]
  exact List.any_eq_true.mpr ⟨i, List.mem_range.mpr hi, h⟩

theorem coveredAt_of_le {w : World} {va target lv base : Nat} (h : lv + 1 ≤ target) :
    coveredAt w va target (lv + 1) base = leafBelow w (lv + 1) (entryAt base (lv + 1) va) := by
  simp only [coveredAt, h, if_true]

theorem coveredAt_of_table {w : World} {va target lv base : Nat} (h : target < lv + 1)
    (ht : pteType (NMap.getD w.ptes (entryAt base (lv + 1) va) 0) = 1) :
    coveredAt w va target (lv + 1) base = coveredAt w va target lv (pteFrame (NMap.getD w.ptes (entryAt base (lv + 1) va) 0)) := by
  simp only [coveredAt, Nat.not_le.mpr h, if_false, ht]

/-- Where no domain maps the whole page and some domain maps a part of it, a first touch splits the entry. -/
theorem fillTouch_of_covered {who : Who} {va lv owner entry : Nat} {r w x : Bool} {s : State} (hn : s.worldFrame who.world va (pageBytes lv) = none)
    (hlv : 1 < lv) (hc : (s.world who.world).covered va lv = true) :
    State.fillTouch who va lv owner entry r w x s = some (s.splitTouch who.world entry) := by
  simp only [State.fillTouch, hn, hlv, hc, decide_true, Bool.and_self, if_true]

theorem State.world_modThr (s : State) (f : Thread → Thread) (w : Nat) : (s.modThr f).world w = s.world w := rfl

/-- A split entry leads to a table. -/
theorem pteType_splitTouch (w entry : Nat) (s : State) : pteType (NMap.getD ((s.splitTouch w entry).world w).ptes entry 0) = 1 := by
  simp only [State.splitTouch, State.setPte, State.world_modWorld, NMap.getD_set_self, pteType_pteBits]
  rfl

/-- A load whose first byte lies in a page that nothing has touched waits, and the wait fills or splits the page's entry. -/
theorem readMemory_of_touch {c : Cap} {z : BitVec 3} {cur : Word64} {a : RegNum} {s u : State} {lv owner entry k : Nat} {r w x : Bool}
    {ps : List (Nat × Nat)} (hc : s.checkCap s.who c cur (accessSize z) needLoad (regName a) = .ok ()) (hz : z = 7 → cur.toNat % 16 = 0)
    (hs : c.space = 2) (hp : piecesAt (pageStep c.space) (addrOf c.space cur) (accessSize z) = (addrOf c.space cur, k) :: ps)
    (hw : s.walk s.who (addrOf c.space cur) = .touch lv owner entry r w x)
    (hf : State.fillTouch s.who (addrOf c.space cur) lv owner entry r w x s = some u) :
    readMemory c z cur true a s =
      .error (.hold fun t => (State.fillTouch s.who (addrOf c.space cur) lv owner entry r w x t).getD t) := by
  simp only [hs] at hp hw hf ⊢
  simp only [readMemory, checkEffective_of_fits, hc, capAligned_of hz, require_true, Res.ok_bind, hs, hp, State.translatePieces,
    State.placeAt, State.translateDevice, hw, hf, Res.error_bind]

/-- A load into a register whose bytes wait. -/
theorem exec_ld_of_hold {m : BitVec 2} {l : BitVec 4} {z : BitVec 3} {b a d : RegNum} {s : State} {f : State → State}
    (hfit : effectiveFits (s.reg a) m b (accessSize z) s = true) (hg : s.givenEntry = none)
    (h : readMemory (s.reg a) z (effective (s.reg a) m b (accessSize z) s) true a s = .error (.hold f)) :
    exec (.ld 0 m l z b a d) s = s.finish (.error (.hold f)) := by
  rw [exec_ld, execLd, if_pos rfl]
  simp only [loadReg, loadValue, hfit, hg, h, Res.error_bind]

/-- Tables of two domains. In those at 0x10000 the 32 MiB page 0 is first-touch; in those at 0x60000 the 64 KiB page 0 is mapped. -/
def twoTables : NMap Word64 :=
  [(0x10000, pteBits 0 0x20000 false false false 1), (0x20000, pteBits 0 0x30000 false false false 1),
   (0x30000, pteBits 0 0 true true true 3),
   (0x60000, pteBits 0 0x70000 false false false 1), (0x70000, pteBits 0 0x80000 false false false 1),
   (0x80000, pteBits 0 0x90000 false false false 1), (0x90000, pteBits 1 0x140000 true true true 2)]

/-- A world whose domains 0 and 1 have these tables, with a frame of 32 MiB on its stack. -/
def twoDomains : World := { World.empty with
  domains := [(0, { Domain.free with state := .live, ptroot := 0x10000 }), (1, { Domain.free with state := .live, ptroot := 0x60000 })]
  ptes := twoTables, free32m := [0x2000000] }

/-- A running thread of domain 0 whose a1 is a DEVICE capability at the 64 KiB page 2. -/
def touchState : State := { State.reset with
  worlds := [(1, twoDomains)], parts := [(0, { Partition.empty with world := 1 })]
  thr := { Thread.vacant with
    tid := 1, cref := 1, world := 1, status := .running, place := some 0
    ctx := { Ctx.empty with regs := Ctx.empty.regs.set 1 ⟨capBits 2 0x0FF 0 16 0 0x10000 0x20000, true⟩ } } }

theorem touchState_addr : addrOf (touchState.reg 1).space (effective (touchState.reg 1) 0 0 (accessSize 3) touchState) = 0x20000 := by decide

theorem touchState_checked : touchState.checkCap touchState.who (touchState.reg 1) (effective (touchState.reg 1) 0 0 (accessSize 3) touchState)
    (accessSize 3) needLoad (regName 1) = .ok () := rfl

theorem touchState_walk : touchState.walk touchState.who
    (addrOf (touchState.reg 1).space (effective (touchState.reg 1) 0 0 (accessSize 3) touchState)) = .touch 2 0 0x30000 true true true := by
  rw [touchState_addr]
  decide

theorem twoDomains_leafBelow : leafBelow twoDomains 2 0x80000 = true :=
  leafBelow_of_child (i := 0) (by decide) (by decide) (by
    have hframe : pteFrame (NMap.getD twoDomains.ptes 0x80000 0) + 0 * 8 = 0x90000 := by decide
    rw [hframe]
    decide)

theorem touchState_covered : (touchState.world touchState.who.world).covered 0x20000 2 = true := by
  have h4 : coveredAt twoDomains 0x20000 2 4 0x60000 = coveredAt twoDomains 0x20000 2 3 0x70000 :=
    (coveredAt_of_table (by decide) (by decide)).trans (congrArg _ (by decide))
  have h3 : coveredAt twoDomains 0x20000 2 3 0x70000 = coveredAt twoDomains 0x20000 2 2 0x80000 :=
    (coveredAt_of_table (by decide) (by decide)).trans (congrArg _ (by decide))
  have h2 : coveredAt twoDomains 0x20000 2 2 0x80000 = leafBelow twoDomains 2 0x80000 :=
    (coveredAt_of_le (by decide)).trans (congrArg _ (by decide))
  exact List.any_eq_true.mpr ⟨_, List.mem_cons_of_mem _ (List.mem_singleton.mpr rfl), h4.trans (h3.trans (h2.trans twoDomains_leafBelow))⟩

theorem touchState_fillTouch : State.fillTouch touchState.who
    (addrOf (touchState.reg 1).space (effective (touchState.reg 1) 0 0 (accessSize 3) touchState)) 2 0 0x30000 true true true touchState =
    some (touchState.splitTouch 1 0x30000) := by
  rw [touchState_addr]
  exact fillTouch_of_covered (by decide) (by decide) touchState_covered

theorem exec_touchState : exec (.ld 0 0 0 3 0 1 2) touchState = .next
    ((touchState.splitTouch 1 0x30000).modThr fun h => { h with waitSince := touchState.now }) := by
  have hread := readMemory_of_touch (z := 3) (k := 8) (ps := []) touchState_checked (by decide) (by decide) (by decide) touchState_walk
    touchState_fillTouch
  have hstall : touchState.thr.stall.isNone = true := rfl
  rw [exec_ld_of_hold (by decide) rfl hread]
  simp only [State.finish, State.finishWith, hstall, if_true, touchState_fillTouch, Option.getD_some]

/-- Refutes O12, in its clause on a first touch (R342): where another domain of the world maps a smaller page in the range of the
touched entry, the load makes a table of the entry (log entry 63), and no leaf stands there yet. -/
theorem not_refusedAccessTraps : ¬ Obligations.RefusedAccessTraps := by
  unfold Obligations.RefusedAccessTraps
  intro h
  obtain ⟨_, _, _, _, _, htouch, _⟩ := h 0 0 0 3 0 1 2 touchState (plainFault 0 0)
  obtain ⟨t, ht, _, _, _, frame, hentry⟩ := htouch 2 0 0x30000 true true true (by decide) (by decide) rfl touchState_checked (by decide)
    touchState_walk (by rw [Option.isSome_iff_exists]; exact ⟨_, touchState_fillTouch⟩)
  rw [exec_touchState] at ht
  cases ht
  have hleaf := congrArg pteType hentry
  rw [pteType_pteBits, State.world_modThr] at hleaf
  exact absurd ((pteType_splitTouch 1 0x30000 touchState).symm.trans hleaf) (by decide)

end Sys2Proof.Machine
end

section
/-! Engines and units (O55): clusters, arrivals of record mode, completion adds in a thread's own counter. -/

namespace Sys2Proof.Machine

open Sys2Proof

/-! ## Clusters, engines and units -/

section
variable (s : State) (c : Nat)

@[simp] theorem State.cluster_modCluster (f : Cluster → Cluster) : (s.modCluster c f).cluster c = f (s.cluster c) := NMap.getD_set_self ..

@[simp] theorem engineOf_modEngine (f : Engine → Engine) : engineOf c (modEngine c f s) = f (engineOf c s) := by
  simp only [engineOf, modEngine, State.cluster_modCluster]

theorem jobAt_setJob (e i : Nat) (j : Job) : jobAt c i (setJob c e j s) = if i = e then some j else jobAt c i s := by
  simp only [jobAt, setJob, engineOf_modEngine, NMap.get?_set]

@[simp] theorem jobAt_setJob_self (e : Nat) (j : Job) : jobAt c e (setJob c e j s) = some j := by simp [jobAt_setJob]

end

theorem State.cluster_congr {s t : State} (h : t.clusters = s.clusters) (c : Nat) : t.cluster c = s.cluster c := by
  rw [State.cluster, h]; rfl

theorem State.world_congr {s t : State} (h : t.worlds = s.worlds) (w : Nat) : t.world w = s.world w := by
  rw [State.world, h]; rfl

theorem jobAt_congr {s t : State} (h : t.clusters = s.clusters) (c e : Nat) : jobAt c e t = jobAt c e s := by
  simp only [jobAt, engineOf, State.cluster_congr h]

theorem sameBytes_of_mem {s t : State} (h : t.mem = s.mem) : SameBytes s t := fun a => by rw [State.byteAt, h]; rfl

/-! ## Noted arrivals -/

/-- What noting arrivals of record mode leaves as it is: all but where the threads' logs stand. -/
structure Noted (s t : State) : Prop where
  mem : t.mem = s.mem
  tags : t.tags = s.tags
  clusters : t.clusters = s.clusters
  worlds : t.worlds = s.worlds
  poison : t.poison = s.poison
  thr : ∃ l b, t.thr = { s.thr with recGiving := l, record := b }
  unrecorded : s.thr.status ≠ .vacant → s.thr.record = false → t.thr = s.thr
  rest : ∀ g ∈ t.rest, ∃ x ∈ s.rest, g.tid = x.tid ∧ g.cref = x.cref

section
variable {s t u : State}

theorem Noted.refl (s : State) : Noted s s :=
  ⟨rfl, rfl, rfl, rfl, rfl, ⟨s.thr.recGiving, s.thr.record, rfl⟩, fun _ _ => rfl, fun g h => ⟨g, h, rfl, rfl⟩⟩

theorem Noted.ctx (h : Noted s t) : t.thr.ctx = s.thr.ctx := by obtain ⟨_, _, h⟩ := h.thr; rw [h]
theorem Noted.status (h : Noted s t) : t.thr.status = s.thr.status := by obtain ⟨_, _, h⟩ := h.thr; rw [h]
theorem Noted.tid (h : Noted s t) : t.thr.tid = s.thr.tid := by obtain ⟨_, _, h⟩ := h.thr; rw [h]

theorem Noted.trans (h : Noted s t) (g : Noted t u) : Noted s u where
  mem := g.mem.trans h.mem
  tags := g.tags.trans h.tags
  clusters := g.clusters.trans h.clusters
  worlds := g.worlds.trans h.worlds
  poison := g.poison.trans h.poison
  thr := by
    obtain ⟨_, _, e⟩ := h.thr
    obtain ⟨l, b, e'⟩ := g.thr
    exact ⟨l, b, by rw [e', e]⟩
  unrecorded := fun hv hr => by
    have e := h.unrecorded hv hr
    exact (g.unrecorded (by rw [e]; exact hv) (by rw [e]; exact hr)).trans e
  rest := fun x hx => by
    obtain ⟨y, hy, e1, e2⟩ := g.rest x hx
    obtain ⟨z, hz, e3, e4⟩ := h.rest y hy
    exact ⟨z, hz, e1.trans e3, e2.trans e4⟩

/-- An update of one thread's log. -/
theorem noted_modThread {s u : State} {t : Nat} {f : Thread → Thread} {x : Thread} (ht : s.thread? t = some x) (hx : x.record = true)
    (hu : u.thr = s.thr ∧ u.rest = s.rest ∧ u.mem = s.mem ∧ u.tags = s.tags ∧ u.clusters = s.clusters ∧ u.worlds = s.worlds ∧
      u.poison = s.poison)
    (hf : ∀ g, ∃ l b, f g = { g with recGiving := l, record := b }) : Noted s (u.modThread t f) := by
  obtain ⟨hthr, hrest, hmem, htags, hcl, hw, hp⟩ := hu
  have hkeep : ∀ g, (f g).tid = g.tid ∧ (f g).cref = g.cref := fun g => by
    obtain ⟨_, _, e⟩ := hf g
    rw [e]; exact ⟨rfl, rfl⟩
  unfold State.modThread
  by_cases h : (u.thr.status != .vacant && u.thr.tid == t) = true
  · rw [if_pos h]
    have hown : s.thr = x := by
      rw [hthr] at h
      simpa [State.thread?, h] using ht
    refine ⟨hmem, htags, hcl, hw, hp, ?_, fun _ hr => ?_, fun g hg => ⟨g, hrest ▸ hg, rfl, rfl⟩⟩
    · rw [← hthr]; exact hf _
    · rw [hown, hx] at hr; cases hr
  · rw [if_neg h]
    refine ⟨hmem, htags, hcl, hw, hp, ⟨s.thr.recGiving, s.thr.record, hthr⟩, fun _ _ => hthr, fun g hg => ?_⟩
    obtain ⟨y, hy, rfl⟩ := List.mem_map.mp hg
    refine ⟨y, hrest ▸ hy, ?_⟩
    split
    · exact hkeep y
    · exact ⟨rfl, rfl⟩

theorem noted_noteArrival (t : Nat) (v : Arrival) (s : State) : Noted s (s.noteArrival t v) := by
  unfold State.noteArrival
  split
  · exact .refl s
  next x hx =>
    split
    · exact .refl s
    next hr =>
      have hrec : x.record = true := by simpa using hr
      split
      · split
        · exact noted_modThread hx hrec ⟨rfl, rfl, rfl, rfl, rfl, rfl, rfl⟩ fun g => ⟨_, g.record, rfl⟩
        · exact noted_modThread hx hrec ⟨rfl, rfl, rfl, rfl, rfl, rfl, rfl⟩ fun g => ⟨_, _, rfl⟩
      · split
        · exact .refl s
        · split
          · exact noted_modThread hx hrec ⟨rfl, rfl, rfl, rfl, rfl, rfl, rfl⟩ fun g => ⟨g.recGiving, _, rfl⟩
          · exact ⟨rfl, rfl, rfl, rfl, rfl, ⟨s.thr.recGiving, s.thr.record, rfl⟩, fun _ _ => rfl, fun g h => ⟨g, h, rfl, rfl⟩⟩

theorem noted_foldl {α : Type} (f : State → α → State) (hf : ∀ s x, Noted s (f s x)) (l : List α) : ∀ s, Noted s (l.foldl f s) := by
  induction l with
  | nil => exact .refl
  | cons x r ih => intro s; exact (hf s x).trans (ih _)

theorem noted_noteEach (p : Thread → Bool) (v : Arrival) (s : State) : Noted s (s.noteEach p v) :=
  noted_foldl _ (fun u t => noted_noteArrival t v u) _ s

theorem noted_noteChoice (engine : Bool) (c t : Nat) (waiting : List Nat) (s : State) : Noted s (noteChoice engine c t waiting s) :=
  (noted_noteArrival ..).trans (noted_foldl _ (fun u x => noted_noteArrival x _ u) _ _)

/-! ## Completion adds in the thread's own counter -/

/-- The thread whose word issues runs without a record-mode log, is the thread `t`, and has no other member of a redundant pair. -/
structure CountsAlone (t : Nat) (s : State) : Prop where
  plain : plainRun s
  tid : s.thr.tid = t
  others : ∀ g ∈ s.rest, g.tid ≠ t ∧ g.cref ≠ s.thr.cref

theorem CountsAlone.of_homesOnly {n : Nat} (h : CountsAlone n s) (g : HomesOnly s t) : CountsAlone n t :=
  ⟨by rw [plainRun, g.thr]; exact h.plain, by rw [g.thr]; exact h.tid, by rw [g.thr, g.rest]; exact h.others⟩

theorem CountsAlone.of_noted {n : Nat} (h : CountsAlone n s) (g : Noted s t) : CountsAlone n t := by
  obtain ⟨hs, hr⟩ := h.plain
  have he := g.unrecorded hs hr
  refine ⟨by rw [plainRun, he]; exact ⟨hs, hr⟩, by rw [he]; exact h.tid, fun x hx => ?_⟩
  obtain ⟨y, hy, e1, e2⟩ := g.rest x hx
  rw [he, e1, e2]
  exact h.others y hy

theorem CountsAlone.own {n : Nat} (h : CountsAlone n s) (both : Bool) : countsFor n both s s.thr = true := by
  simp [countsFor, h.tid]

theorem CountsAlone.other {n : Nat} (h : CountsAlone n s) (both : Bool) {g : Thread} (hg : g ∈ s.rest) : countsFor n both s g = false := by
  obtain ⟨h1, h2⟩ := h.others g hg
  simp [countsFor, State.pairOf, State.thread?, h.plain.1, h.tid, h1, Ne.symm h2]

theorem CountsAlone.any {n : Nat} (h : CountsAlone n s) (both : Bool) (p : Thread → Bool) :
    (s.threads.any fun g => countsFor n both s g && p g) = p s.thr := by
  have hrest : (s.rest.any fun g => countsFor n both s g && p g) = false := by
    rw [List.any_eq_false]
    intro g hg
    simp [h.other both hg]
  rw [State.threads, if_neg h.plain.1, List.any_cons, hrest, h.own both, Bool.true_and, Bool.or_false]

/-- A completion add of a thread without a log. -/
theorem CountsAlone.addToK_thr {n : Nat} (h : CountsAlone n s) (k : BitVec 4) (both : Bool) (v pc : Word64) :
    (addToK n k both v pc s).thr = addOwnK k v ⟨0x20, k.setWidth 64, pc, s.nextId⟩ s.thr := by
  have hn := noted_noteEach (countsFor n both s) (.completion k v) s
  have he := hn.unrecorded h.plain.1 h.plain.2
  show (State.modAll _ _).thr = _
  rw [State.modAll]
  simp only [he, h.plain.1, if_false, h.own both, if_true]

theorem addToK_clusters (n : Nat) (k : BitVec 4) (both : Bool) (v pc : Word64) (s : State) : (addToK n k both v pc s).clusters = s.clusters :=
  (noted_noteEach (countsFor n both s) (.completion k v) s).clusters

theorem addToK_tags (n : Nat) (k : BitVec 4) (both : Bool) (v pc : Word64) (s : State) : (addToK n k both v pc s).tags = s.tags :=
  (noted_noteEach (countsFor n both s) (.completion k v) s).tags

theorem addOwnK_of_fits {k : BitVec 4} {v : Word64} {f : Deferred} {h : Thread} (hv : h.ctx.kctr[k.toNat].toNat + v.toNat < 2 ^ 64) :
    (addOwnK k v f h).ctx.kctr = h.ctx.kctr.set k.toNat (h.ctx.kctr[k.toNat] + v) := by
  simp only [addOwnK, hv, if_true]

theorem addOwnK_of_over {k : BitVec 4} {v : Word64} {f : Deferred} {h : Thread} (hv : 2 ^ 64 ≤ h.ctx.kctr[k.toNat].toNat + v.toNat) :
    (addOwnK k v f h).ctx = { h.ctx with late := h.ctx.late ++ [f] } := by
  simp only [addOwnK, Nat.not_lt.mpr hv, if_false]

end

end Sys2Proof.Machine
end

section
/-! Engines and units (O55): jobs that stop, and what a sector leaves as it is. -/

namespace Sys2Proof.Machine

open Sys2Proof

/-! ## A job that a failure stops -/

section
variable {c e : Nat} {kind : BitVec 8} {f : FaultInfo} {j : Job} {s : State}

@[simp] theorem setJob_thr (j : Job) : (setJob c e j s).thr = s.thr := rfl
@[simp] theorem setJob_worlds (j : Job) : (setJob c e j s).worlds = s.worlds := rfl
@[simp] theorem setJob_now (j : Job) : (setJob c e j s).now = s.now := rfl
@[simp] theorem hostFault_thr (f : FaultInfo) : (s.hostFault f).thr = s.thr := rfl
@[simp] theorem hostFault_worlds (f : FaultInfo) : (s.hostFault f).worlds = s.worlds := rfl
@[simp] theorem hostFault_now (f : FaultInfo) : (s.hostFault f).now = s.now := rfl

theorem sendPri_homesOnly (k : Nat × Nat) (s : State) : HomesOnly s (s.sendPri k) := by
  unfold State.sendPri
  split
  · exact .refl s
  · split <;> exact ⟨rfl, rfl, rfl⟩

theorem sendPri_clusters (k : Nat × Nat) (s : State) : (s.sendPri k).clusters = s.clusters := by
  unfold State.sendPri
  split
  · rfl
  · split <;> rfl

/-- The job with the failure that it meets. -/
def metFault (kind : BitVec 8) (f : FaultInfo) (j : Job) : Job :=
  { j with fault := f.code, faultAddr := f.addr, faultKind := kind, owed := false }

/-- The job once its record is written: paused with its bitmap record, or FAULTED. -/
def stoppedJob (c e : Nat) (kind : BitVec 8) (f : FaultInfo) (j : Job) : Job :=
  if codePauses f.code then { metFault kind f j with state := .paused, bmap := bitmapAddr j.part c e }
  else { metFault kind f j with state := .faulted, bmap := 0 }

/-- From `s`, the job has stopped in `t` with its record at the end of its world's fault queue. -/
structure Stops (c e : Nat) (kind : BitVec 8) (f : FaultInfo) (j : Job) (s t : State) : Prop where
  job : jobAt c e t = some (stoppedJob c e kind f j)
  queue : (t.world j.world).faultQ = (s.world j.world).faultQ ++ [jobRecord c e (metFault kind f j) s]
  thr : t.thr = s.thr
  mem : t.mem = if codePauses f.code then Cells.write s.mem (paSave j.part (bitmapOffset c e)) (bitmapBytes j) else s.mem

/-- A job that has stopped FAULTED leaves memory as it was. -/
theorem Stops.faulted {t : State} (h : Stops c e kind f j s t) (hp : codePauses f.code = false) :
    jobAt c e t = some { metFault kind f j with state := .faulted, bmap := 0 } ∧ t.mem = s.mem := by
  have hjob := h.job
  have hmem := h.mem
  rw [stoppedJob, hp] at hjob
  rw [hp] at hmem
  exact ⟨hjob, hmem⟩

theorem Stops.paused {t : State} (h : Stops c e kind f j s t) (hp : codePauses f.code = true) :
    jobAt c e t = some { metFault kind f j with state := .paused, bmap := bitmapAddr j.part c e } := by
  rw [h.job, stoppedJob, if_pos hp]

theorem Stops.sendPri {t : State} (h : Stops c e kind f j s t) (k : Nat × Nat) : Stops c e kind f j s (t.sendPri k) where
  job := by rw [jobAt_congr (sendPri_clusters k t)]; exact h.job
  queue := by rw [State.world_congr (sendPri_homesOnly k t).worlds]; exact h.queue
  thr := (sendPri_homesOnly k t).thr.trans h.thr
  mem := by rw [State.sendPri_mem]; exact h.mem

theorem bitmapBytes_congr {x y : Job} (hc : x.card = y.card) (hl : x.landed = y.landed) : bitmapBytes x = bitmapBytes y := by
  rw [bitmapBytes, bitmapBytes, firstUnlanded, firstUnlanded, hc, hl]

/-- The record of a job is written where the job has met its failure. -/
theorem writeJobRecord_stops {y : Job} {t : State}
    (hy : y = if codePauses f.code then { metFault kind f j with state := .paused, bmap := bitmapAddr j.part c e } else metFault kind f j)
    (hw : t.worlds = s.worlds) (hn : t.now = s.now) (ht : t.thr = s.thr)
    (hm : t.mem = if codePauses f.code then Cells.write s.mem (paSave j.part (bitmapOffset c e)) (bitmapBytes j) else s.mem) :
    Stops c e kind f j s (writeJobRecord (setJob c e) c e y t) where
  job := by
    rw [writeJobRecord, jobAt_setJob_self, hy, stoppedJob]
    by_cases hp : codePauses f.code = true <;> simp [hp, metFault]
  queue := by
    have hj : y.world = j.world ∧ jobRecord c e y t = jobRecord c e (metFault kind f j) s := by
      rw [hy, jobRecord, hn]
      split <;> exact ⟨rfl, rfl⟩
    show ((t.pushFault y.world (jobRecord c e y t)).world j.world).faultQ = _
    rw [hj.2, hj.1, State.pushFault, State.world_modWorld, State.world_congr hw]
  thr := ht
  mem := hm

/-- While the fault queue has room, a job that meets a failure stops with its record. -/
theorem stopJob_stops (h : s.faultQueueFull j.world = false) : Stops c e kind f j s (stopJob (setJob c e) c e j kind f s) := by
  obtain ⟨y, t, he, hs⟩ : ∃ y t, stopJob (setJob c e) c e j kind f s = (match f.pri with
      | some k => (writeJobRecord (setJob c e) c e y t).sendPri k
      | none => writeJobRecord (setJob c e) c e y t) ∧ Stops c e kind f j s (writeJobRecord (setJob c e) c e y t) := by
    unfold stopJob
    simp only [h, Bool.false_or, Bool.false_eq_true, if_false]
    by_cases hp : codePauses f.code = true
    · simp only [hp, if_true, pauseJob]
      refine ⟨_, _, rfl, ?_⟩
      refine writeJobRecord_stops (if_pos hp).symm (by simp) (by simp) (by simp) ?_
      simp only [hp, if_true, State.hostFault_mem, setJob_mem, State.pokeMem_mem]
      exact congrArg _ (bitmapBytes_congr rfl rfl)
    · rw [if_neg hp]
      refine ⟨_, _, rfl, ?_⟩
      exact writeJobRecord_stops (if_neg hp).symm (by simp) (by simp) (by simp) (by simp [hp])
  rw [he]
  split
  · exact hs.sendPri _
  · exact hs

end

/-! ## What a sector leaves as it is -/

section
variable {q : Req} {j : Job} {s t : State}

theorem sendRequest_homesOnly (pa world cref stepNo sseq gen sector op) (s : State) :
    HomesOnly s (s.sendRequest pa world cref stepNo sseq gen sector op) := by
  unfold State.sendRequest
  split
  · exact ⟨rfl, rfl, rfl⟩
  · exact .refl s

theorem homesOnly_foldl {α : Type} (f : State → α → State) (hf : ∀ s x, HomesOnly s (f s x)) (l : List α) :
    ∀ s, HomesOnly s (l.foldl f s) := by
  induction l with
  | nil => exact .refl
  | cons x r ih => intro s; exact (hf s x).trans (ih _)

theorem readRun_homesOnly {row o n : Nat} {bs : List Byte} (h : readRun q j row o n s = .ok (bs, t)) : HomesOnly s t := by
  obtain ⟨⟨ps, u⟩, hp, hrun⟩ := Res.bind_ok h
  have hu := State.translatePieces_state _ hp
  subst hu
  dsimp only at hrun
  split at hrun
  · cases hrun
  · cases hrun
    exact homesOnly_foldl _ (fun u x => sendRequest_homesOnly ..) _ _

theorem writeRun_state {row o : Nat} {bs : List Byte} {cs : List (Nat × List Byte)} (h : writeRun q j row o bs s = .ok (cs, t)) : t = s := by
  obtain ⟨⟨ps, u⟩, hp, hrun⟩ := Res.bind_ok h
  have hu := State.translatePieces_state _ hp
  subst hu
  dsimp only at hrun
  split at hrun
  · cases hrun
  · cases hrun; rfl

/-- What a result bound to a continuation gave. -/
theorem JobRes.bind_ok {α β : Type} {x : JobRes α} {f : α → JobRes β} {b : β} (h : x >>= f = .ok b) : ∃ a, x = .ok a ∧ f a = .ok b := by
  cases x with
  | ok a => exact ⟨a, rfl, h⟩
  | error e => cases h

theorem onSide_ok {α : Type} {k : BitVec 8} {r : Res α} {a : α} (h : onSide k r = .ok a) : r = .ok a := by
  cases r with
  | ok x => cases h; rfl
  | error e => cases h

theorem sectorReads_homesOnly (l : List (Nat × Nat × Nat)) : ∀ {s t : State} {parts : List (Nat × Nat × List Byte)},
    sectorReads q j s l = .ok (parts, t) → HomesOnly s t := by
  induction l with
  | nil => intro s t parts h; cases h; exact .refl s
  | cons x r ih =>
    intro s t parts h
    obtain ⟨⟨bs, u⟩, hu, h⟩ := JobRes.bind_ok h
    obtain ⟨⟨rest, v⟩, hv, h⟩ := JobRes.bind_ok h
    cases h
    exact (readRun_homesOnly (onSide_ok hu)).trans (ih hv)

theorem sectorWrites_state (l : List (Nat × Nat × List Byte)) : ∀ {s t : State} {chunks : List (Nat × List Byte)},
    sectorWrites q j s l = .ok (chunks, t) → t = s := by
  induction l with
  | nil => intro s t chunks h; cases h; rfl
  | cons x r ih =>
    intro s t chunks h
    obtain ⟨⟨cs, u⟩, hu, h⟩ := JobRes.bind_ok h
    obtain ⟨⟨rest, v⟩, hv, h⟩ := JobRes.bind_ok h
    cases h
    exact (ih hv).trans (writeRun_state (onSide_ok hu))

theorem counterPlace_state {pa : Nat} (h : counterPlace j s = .ok (pa, t)) : t = s := by
  unfold counterPlace at h
  dsimp only at h
  split at h
  · exact State.translateAt_state h
  · cases h; rfl

theorem storeBytes_homesOnly (l : List (Nat × List Byte)) : ∀ (off : Nat) (s : State), HomesOnly s (s.storeBytes q off l).1 := by
  induction l with
  | nil => intro off s; exact .refl s
  | cons x r ih =>
    intro off s
    rw [State.storeBytes]
    split
    · exact (homesOnly_notePort ..).trans (ih _ _)
    · exact (homesOnly_storeLine ..).trans (ih _ _)

theorem takeTags_homesOnly (landed : List Nat) (old : State) (l : List Nat) : ∀ s : State, HomesOnly s (takeTags j landed old l s) := by
  induction l with
  | nil => exact .refl
  | cons g r ih =>
    intro s
    rw [takeTags]
    refine HomesOnly.trans ?_ (ih _)
    split
    · split
      · exact homesOnly_setTag ..
      · exact .refl s
    · exact .refl s

/-- The state once the bytes and the tags of a sector have landed, before its add. -/
def sectorStored (q : Req) (j : Job) (n : Nat) (chunks : List (Nat × List Byte)) (v : State) : State :=
  let w := (((sendWrites j (cardCap j.card 16 j.dstTag) chunks v).recordChunks j.part chunks).storeBytes q 0 chunks).1
  if carriesTags j then takeTags j (NSet.add j.landed n) v (sectorGranules j n) w else w

theorem sectorStored_homesOnly (n : Nat) (chunks : List (Nat × List Byte)) (v : State) : HomesOnly v (sectorStored q j n chunks v) := by
  have hw : HomesOnly v (((sendWrites j (cardCap j.card 16 j.dstTag) chunks v).recordChunks j.part chunks).storeBytes q 0 chunks).1 :=
    ((homesOnly_foldl _ (fun u x => sendRequest_homesOnly ..) _ _).trans (homesOnly_recordChunks ..)).trans (storeBytes_homesOnly ..)
  unfold sectorStored
  dsimp only
  split
  · exact hw.trans (takeTags_homesOnly ..)
  · exact hw

end

/-! ## A sector lands -/

section
variable {c e n pa : Nat} {j : Job} {s t u v : State} {parts : List (Nat × Nat × List Byte)} {chunks : List (Nat × List Byte)}

/-- The job with one more sector. -/
def landedJob (n : Nat) (j : Job) : Job :=
  { j with landed := NSet.add j.landed n, state := if (NSet.add j.landed n).length = sectorCount j.card then .done else .running }

/-- The sector may land now. -/
structure MayLand (c e n : Nat) (j : Job) (s : State) : Prop where
  job : jobAt c e s = some j
  running : j.state = .running
  engine : engineRuns c j s = true
  inStream : n < sectorCount j.card
  fresh : n ∉ j.landed
  window : n < firstUnlanded j + 4096
  ascends : n = firstUnlanded j ∨ j.ascendTo ≤ firstUnlanded j
  starts : draining c j s = false
  due : addHeld j n s = false

theorem exec_sectorLand (c e n : Nat) (s : State) : exec (.sectorLand c e n) s = happen (trySectorLand c e n s) s := rfl

theorem exec_sectorLand_of_mayLand (h : MayLand c e n j s) : exec (.sectorLand c e n) s = .next (landSector c e n j s) := by
  have hin : inWindow c j n s = true := by
    simp [inWindow, h.inStream, h.fresh, h.window, h.ascends, h.starts]
  have htry : trySectorLand c e n s = some (landSector c e n j s) := by
    simp [trySectorLand, h.job, Option.filter, h.running, h.engine, hin, h.due]
  rw [exec_sectorLand, htry]
  rfl

/-- A sector whose places are all known. -/
theorem landSector_of_places (hk : jobKilled j s = false) (hr : sectorReads ⟨j.world, some c⟩ j s (sectorRuns j.card n) = .ok (parts, t))
    (hw : sectorWrites ⟨j.world, some c⟩ j t parts = .ok (chunks, u))
    (hp : if sectorCounts j then counterPlace j u = .ok (pa, v) else v = u) :
    ∃ pa', (sectorCounts j = true → pa' = pa) ∧
      landSector c e n j s = countSector ⟨j.world, some c⟩ c e n j pa' (sectorStored ⟨j.world, some c⟩ j n chunks v) := by
  refine ⟨if sectorCounts j then pa else 0, fun h => if_pos h, ?_⟩
  have ho : sectorOutcome c e n j s = .ok (countSector ⟨j.world, some c⟩ c e n j (if sectorCounts j then pa else 0)
      (sectorStored ⟨j.world, some c⟩ j n chunks v)) := by
    unfold sectorOutcome
    dsimp only
    rw [hr]
    show (do let (chunks, u) ← sectorWrites ⟨j.world, some c⟩ j t parts; _) = _
    rw [hw]
    by_cases hc : sectorCounts j = true
    · rw [if_pos hc] at hp
      simp only [hc, if_true, bind, Except.bind, hp, onSide]
      rfl
    · rw [if_neg hc] at hp
      subst hp
      simp only [hc, bind, Except.bind]
      rfl
  simp only [landSector, hk, ho, Bool.false_eq_true, if_false]

theorem homesOnly_of_places (hr : sectorReads ⟨j.world, some c⟩ j s (sectorRuns j.card n) = .ok (parts, t))
    (hw : sectorWrites ⟨j.world, some c⟩ j t parts = .ok (chunks, u))
    (hp : if sectorCounts j then counterPlace j u = .ok (pa, v) else v = u) :
    HomesOnly s (sectorStored ⟨j.world, some c⟩ j n chunks v) := by
  have hu : HomesOnly s u := by rw [sectorWrites_state _ hw]; exact sectorReads_homesOnly _ hr
  have hv : v = u := by
    split at hp
    · exact counterPlace_state hp
    · exact hp
  exact hu.trans (hv ▸ sectorStored_homesOnly ..)

end

end Sys2Proof.Machine
end

section
/-! Engines and units (O55): the add of a sector. -/

namespace Sys2Proof.Machine

open Sys2Proof

/-! ## The add of a sector -/

theorem NSet.add_length {m : List Nat} {k : Nat} (h : k ∉ m) : (NSet.add m k).length = m.length + 1 := by
  induction m with
  | nil => rfl
  | cons j r ih =>
    obtain ⟨hj, hr⟩ := not_or.mp (fun g => h (List.mem_cons.mpr g))
    simp only [NSet.add]
    split
    · rfl
    · rw [List.length_cons, ih hr, List.length_cons]

section
variable {q : Req} {c e n pa : Nat} {j : Job} {z t : State} {code : BitVec 8} {addr v : Word64}

/-- What a sector adds. -/
def sectorAdd (n : Nat) (j : Job) : Word64 := if ctlAddm (cardCtl j.card) then 1 else BitVec.ofNat 64 (sectorBytes j.card n)

/-- The sector that an add goes with: none for that of the whole job. -/
def addSector (n : Nat) (j : Job) : Option Nat := if ctlAddm (cardCtl j.card) then none else some n

theorem sectorCounts_iff (j : Job) : sectorCounts j = true ↔ ctlAddm (cardCtl j.card) = false ∨ j.landed.length + 1 = sectorCount j.card := by
  simp [sectorCounts]

/-- The end of a sector whose add gives a code. -/
theorem countSector_of_counts (hf : n ∉ j.landed) (hc : sectorCounts j = true)
    (h : completionAdd q j (addSector n j) (sectorAdd n j) pa z = (code, addr, t)) :
    countSector q c e n j pa z = if code ≠ 0 then stopJob (setJob c e) c e { j with landed := NSet.add j.landed n } 3 (plainFault code addr) t
      else setJob c e (landedJob n j) t := by
  have hl := NSet.add_length hf
  unfold countSector
  dsimp only
  by_cases ha : ctlAddm (cardCtl j.card) = true
  · have hall : j.landed.length + 1 = sectorCount j.card := by simpa [ha] using (sectorCounts_iff j).mp hc
    simp only [addSector, sectorAdd, ha, if_true] at h
    simp only [ha, hl, hall, Bool.not_true, Bool.false_eq_true, if_false, decide_true, if_true, h, landedJob]
  · have ha : ctlAddm (cardCtl j.card) = false := by simpa using ha
    simp only [addSector, sectorAdd, ha, Bool.false_eq_true, if_false] at h
    simp only [ha, Bool.not_false, if_true, h, landedJob, decide_eq_true_eq]

/-- A sector without an add. -/
theorem countSector_of_no_counts (hf : n ∉ j.landed) (hc : sectorCounts j = false) :
    countSector q c e n j pa z = setJob c e (landedJob n j) z := by
  have hl := NSet.add_length hf
  have hno : ¬ (ctlAddm (cardCtl j.card) = false ∨ j.landed.length + 1 = sectorCount j.card) :=
    fun h => by rw [(sectorCounts_iff j).mpr h] at hc; cases hc
  obtain ⟨ha, hall⟩ := not_or.mp hno
  have ha : ctlAddm (cardCtl j.card) = true := by simpa using ha
  simp [countSector, landedJob, ha, hl, hall]

theorem completionAdd_of_no_counter (h : ctlCkind (cardCtl j.card) ≠ 1 ∧ ctlCkind (cardCtl j.card) ≠ 2) (sec : Option Nat) :
    completionAdd q j sec v pa z = (0, 0, z) := by
  unfold completionAdd
  dsimp only
  split
  · exact absurd ‹_› h.1
  · exact absurd ‹_› h.2
  · rfl

/-- An add in kN of the thread itself: made, or past 2^64 - 1 refused. -/
theorem completionAdd_local (h : ctlCkind (cardCtl j.card) = 1) (hm : CountsAlone j.tid z) (sec : Option Nat) :
    completionAdd q j sec v pa z =
      if 2 ^ 64 ≤ z.thr.ctx.kctr[(ctlKnum (cardCtl j.card)).toNat].toNat + v.toNat then (0x20, (ctlKnum (cardCtl j.card)).setWidth 64, z)
      else (0, 0, addToK j.tid (ctlKnum (cardCtl j.card)) true v 0 z) := by
  have hany := hm.any true fun g => decide (2 ^ 64 ≤ g.ctx.kctr[(ctlKnum (cardCtl j.card)).toNat].toNat + v.toNat)
  simp only [completionAdd, h, hany, decide_eq_true_eq]

/-! ### At the home of a memory counter -/

theorem sendRequest_ctrRefusal (pa world cref stepNo sseq gen sector op) (s : State) (q : Req) (x : Nat) :
    ctrRefusal q x (s.sendRequest pa world cref stepNo sseq gen sector op) = ctrRefusal q x s := by
  unfold State.sendRequest
  split <;> rfl

theorem sendRequest_now (pa world cref stepNo sseq gen sector op) (s : State) :
    (s.sendRequest pa world cref stepNo sseq gen sector op).now = s.now := by
  unfold State.sendRequest
  split <;> rfl

theorem sendRequest_sheaf (pa world cref stepNo sseq gen sector op) (s : State) :
    (s.sendRequest pa world cref stepNo sseq gen sector op).sheaf = s.sheaf := by
  unfold State.sendRequest
  split <;> rfl

/-- An operation whose stamp the home does not hold yet: what the line does, and a new entry of the sheaf where one is kept. -/
theorem stampedAdd_of_fresh {k : Stamp} {keep : Bool} {sec : Option Nat} {s : State}
    (h : keep = false ∨ s.sheafFind k.world k.part k.cref k.stepNo k.sseq = none) :
    ∃ l, stampedAdd q k keep sec v pa s = ((lineAdd q pa v s).fault, { (lineAdd q pa v s).state with sheaf := l }) := by
  have hheld : (if keep then s.sheafFind k.world k.part k.cref k.stepNo k.sseq else none) = none := by
    rcases h with h | h <;> simp [h]
  unfold stampedAdd
  rw [hheld]
  cases keep
  · exact ⟨(lineAdd q pa v s).state.sheaf, rfl⟩
  · exact ⟨_, rfl⟩

theorem noteRead_homesOnly (q : Req) (pa n : Nat) (s : State) : HomesOnly s (s.noteRead q pa n) := by
  unfold State.noteRead
  split
  · exact homesOnly_notePort ..
  · exact .refl s

theorem bumpLine_homesOnly (q : Req) (pa : Nat) (v : Word64) (s : State) : HomesOnly s (bumpLine q pa v s) := by
  unfold bumpLine
  dsimp only
  split <;> exact ⟨rfl, rfl, rfl⟩

theorem lineAdd_homesOnly (q : Req) (pa : Nat) (v : Word64) (s : State) : HomesOnly s (lineAdd q pa v s).state := by
  unfold lineAdd
  split
  · exact noteRead_homesOnly ..
  · dsimp only
    split
    · exact .refl s
    · exact bumpLine_homesOnly ..

theorem notePort_now (s : State) (q : Req) (pa : Nat) : (s.notePort q pa).now = s.now := by
  unfold State.notePort
  split <;> rfl

theorem lineAdd_now (q : Req) (pa : Nat) (v : Word64) (s : State) : (lineAdd q pa v s).state.now = s.now := by
  unfold lineAdd State.noteRead bumpLine
  split
  · dsimp only
    split
    · exact notePort_now ..
    · rfl
  · dsimp only
    split
    · rfl
    · split <;> rfl

theorem lineAdd_of_refusal {s : State} (h : ctrRefusal q pa s = some code) :
    (lineAdd q pa v s).fault = code ∧ (lineAdd q pa v s).state.mem = s.mem := by
  simp only [lineAdd, h, State.noteRead_mem, and_self]

theorem toNat_readNat (s : State) (pa : Nat) : (BitVec.ofNat 64 (s.readNat pa 8)).toNat = s.readNat pa 8 := by
  have h : s.readNat pa 8 < 2 ^ 64 := s.readNat_lt pa 8
  rw [BitVec.toNat_ofNat, Nat.mod_eq_of_lt h]

theorem lineAdd_of_over {s : State} (h : ctrRefusal q pa s = none) (hv : 2 ^ 64 ≤ s.readNat pa 8 + v.toNat) :
    (lineAdd q pa v s).fault = 0x20 ∧ (lineAdd q pa v s).state.mem = s.mem := by
  simp only [lineAdd, h, toNat_readNat, ge_iff_le, hv, if_true, and_self]

theorem lineAdd_of_fits {s : State} (h : ctrRefusal q pa s = none) (hv : s.readNat pa 8 + v.toNat < 2 ^ 64) :
    (lineAdd q pa v s).fault = 0 ∧ (lineAdd q pa v s).state.mem = Cells.write s.mem pa (toLe 8 (s.readNat pa 8 + v.toNat)) := by
  have hsum : (BitVec.ofNat 64 (s.readNat pa 8) + v).toNat = s.readNat pa 8 + v.toNat := by
    rw [BitVec.toNat_add, toNat_readNat, Nat.mod_eq_of_lt hv]
  simp only [lineAdd, h, toNat_readNat, ge_iff_le, Nat.not_le.mpr hv, if_false, bumpLine]
  refine ⟨trivial, ?_⟩
  split <;> simp only [State.pokeMem_mem, bytesOf64, hsum]

/-- The add of a job at a memory home that does not hold its stamp yet. -/
theorem completionAdd_memory {sec : Option Nat} (h : ctlCkind (cardCtl j.card) = 2)
    (hs : Config.sheafSlots ≤ j.sseq ∨ z.sheafFind j.world j.part j.cref j.stepNo j.sseq = none) :
    ∃ u t, HomesOnly z t ∧ t.now = z.now ∧ u.mem = z.mem ∧ ctrRefusal q pa u = ctrRefusal q pa z ∧ t.mem = (lineAdd q pa v u).state.mem ∧
      completionAdd q j sec v pa z = ((lineAdd q pa v u).fault, (cardCap j.card 128 j.ccapTag).cursor, t) := by
  obtain ⟨u, hu⟩ : ∃ u, u = z.sendRequest pa j.world j.cref j.stepNo j.sseq (cardCap j.card 128 j.ccapTag).gen sec (.counterAdd v) :=
    ⟨_, rfl⟩
  have hfresh : decide (j.sseq < Config.sheafSlots) = false ∨ u.sheafFind j.world j.part j.cref j.stepNo j.sseq = none := by
    rcases hs with hs | hs
    · exact .inl (by simpa using hs)
    · exact .inr (by rw [State.sheafFind, hu, sendRequest_sheaf]; exact hs)
  obtain ⟨l, hl⟩ := stampedAdd_of_fresh (q := q) (pa := pa) (v := v) (k := ⟨j.world, j.part, j.cref, j.stepNo, j.sseq⟩) (sec := sec) hfresh
  have hhomes : HomesOnly z u := by rw [hu]; exact sendRequest_homesOnly ..
  refine ⟨u, { (lineAdd q pa v u).state with sheaf := l }, hhomes.trans ((lineAdd_homesOnly q pa v u).trans ⟨rfl, rfl, rfl⟩),
    (lineAdd_now q pa v u).trans (by rw [hu, sendRequest_now]), by rw [hu, State.sendRequest_mem], by rw [hu, sendRequest_ctrRefusal], rfl, ?_⟩
  simp only [completionAdd, h, engineAdd, ← hu, hl]

end

end Sys2Proof.Machine
end

section
/-! Engines and units (O55): entries are granted and jobs start. -/

namespace Sys2Proof.Machine

open Sys2Proof

/-! ## Entries are granted and jobs start -/

theorem exec_copyQueueGrant (c : Nat) (s : State) : exec (.copyQueueGrant c) s = happen (tryCopyQueueGrant c s) s := rfl
theorem exec_copyJobStart (c e : Nat) (s : State) : exec (.copyJobStart c e) s = happen (tryCopyJobStart c e s) s := rfl

/-- An update that keeps a thread's name and its status is found under its name. -/
theorem State.thread?_modThread_of_status {s : State} {k : Nat} {g : Thread} {f : Thread → Thread} (h : s.thread? k = some g)
    (ht : ∀ x, (f x).tid = x.tid) (hs : ∀ x, (f x).status = x.status) : (s.modThread k f).thread? k = some (f g) := by
  by_cases hv : g.status = .vacant
  · have hown : ¬ (s.thr.status != .vacant && s.thr.tid == k) = true := by
      intro hc
      rw [State.thread?, if_pos hc, Option.some.injEq] at h
      rw [h, hv] at hc
      exact absurd hc (by simp)
    have hfind : (s.rest.find? fun x => x.tid == k) = some g := by rwa [State.thread?, if_neg hown] at h
    have hk : (g.tid == k) = true := by simpa using List.find?_some hfind
    have hf : ((fun x : Thread => x.tid == k) ∘ fun x => if x.tid == k then f x else x) = fun x => x.tid == k := by
      funext x
      simp only [Function.comp]
      split <;> simp [ht]
    rw [State.modThread, if_neg hown, State.thread?, if_neg hown, List.find?_map, hf, hfind, Option.map_some, if_pos hk]
  · exact State.thread?_modThread h ht (by rw [hs]; exact hv)

section
variable {c e n pa : Nat} {j : Job} {s t u v : State} {h : Thread}

/-- The thread that has waited longest for a card entry gets one. -/
theorem happens_copyQueueGrant (ho : oldestCardWaiter c s = some h) (ht : s.thread? h.tid = some h) (hx : (engineOf c s).stop = false)
    (hn : (s.threads.filter (grantedCard c s)).length < freeEntries (engineOf c s)) :
    Happens (.copyQueueGrant c) s fun t => t.thread? h.tid = some { h with stall := some (.copyGranted c) } ∧ SameBytes s t :=
  Happens.of_some (exec_copyQueueGrant c s) (t := s.modThread h.tid fun x => { x with stall := some (.copyGranted c) })
    (by simp [tryCopyQueueGrant, ho, Option.filter, hx, hn])
    ⟨State.thread?_modThread_of_status ht (fun _ => rfl) fun _ => rfl, sameBytes_of_mem (by simp)⟩

/-- The job may start now. -/
structure MayStart (c e : Nat) (j : Job) (s : State) : Prop where
  job : jobAt c e s = some j
  queued : j.state = .queued
  edges : edgesOver c j s = true
  starts : draining c j s = false
  engine : engineRuns c j s = true
  chosen : choiceHeld true c j.tid (engineRequests c s) s = false
  due : emptyHeld j s = false

/-- What a job that starts does, over the state in which the engine's choice is noted. -/
def startedJob (c e : Nat) (j : Job) (t : State) : State :=
  if jobKilled j t then setJob c e (endJob j) t
  else if sectorCount j.card = 0 then endEmpty c e j t else setJob c e { j with state := .running } t

theorem tryCopyJobStart_of_mayStart (h : MayStart c e j s) :
    tryCopyJobStart c e s = some (startedJob c e j (noteChoice true c j.tid (engineRequests c s) s)) := by
  simp [tryCopyJobStart, jobStartable, h.job, Option.filter, h.queued, h.edges, h.starts, h.engine, h.chosen, h.due, startedJob]

theorem jobKilled_congr (hw : t.worlds = s.worlds) (j : Job) : jobKilled j t = jobKilled j s := by
  rw [jobKilled, State.world_congr hw]; rfl

/-- A job that ends up as `y`, without a byte changed. -/
theorem happens_copyJobStart (h : MayStart c e j s) (y : Job) {p : State → Prop}
    (hy : ∀ t, Noted s t → ∃ u, startedJob c e j t = setJob c e y u ∧ u.mem = s.mem ∧ p (setJob c e y u)) :
    Happens (.copyJobStart c e) s fun t => jobAt c e t = some y ∧ SameBytes s t ∧ p t := by
  obtain ⟨u, hu, hm, hp⟩ := hy _ (noted_noteChoice true c j.tid (engineRequests c s) s)
  refine Happens.of_some (exec_copyJobStart c e s) (tryCopyJobStart_of_mayStart h) ?_
  rw [hu]
  exact ⟨jobAt_setJob_self .., sameBytes_of_mem hm, hp⟩

/-- A job of a killed domain ends where it would start. -/
theorem happens_copyJobStart_of_killed (h : MayStart c e j s) (hk : jobKilled j s = true) :
    Happens (.copyJobStart c e) s fun t =>
      jobAt c e t = some { j with state := .faulted, fault := 0x06, bmap := 0, owed := false } ∧ SameBytes s t := by
  obtain ⟨t, he, hj, hm, _⟩ := happens_copyJobStart h (endJob j) (p := fun _ => True) fun t hn =>
    ⟨t, by simp [startedJob, jobKilled_congr hn.worlds, hk], hn.mem, trivial⟩
  exact ⟨t, he, hj, hm⟩

theorem happens_copyJobStart_of_sectors (h : MayStart c e j s) (hk : jobKilled j s = false) (hn : sectorCount j.card ≠ 0) :
    Happens (.copyJobStart c e) s fun t => jobAt c e t = some { j with state := .running } ∧ SameBytes s t := by
  obtain ⟨t, he, hj, hm, _⟩ := happens_copyJobStart h { j with state := .running } (p := fun _ => True) fun t hn' =>
    ⟨t, by simp [startedJob, jobKilled_congr hn'.worlds, hk, hn], hn'.mem, trivial⟩
  exact ⟨t, he, hj, hm⟩

/-- A job with no elements that adds for each sector ends at once. -/
theorem happens_copyJobStart_of_empty (h : MayStart c e j s) (hk : jobKilled j s = false) (hn : sectorCount j.card = 0)
    (ha : ctlAddm (cardCtl j.card) = false) :
    Happens (.copyJobStart c e) s fun t => jobAt c e t = some { j with state := .done } ∧ SameBytes s t := by
  obtain ⟨t, he, hj, hm, _⟩ := happens_copyJobStart h { j with state := .done } (p := fun _ => True) fun t hn' =>
    ⟨t, by simp [startedJob, jobKilled_congr hn'.worlds, hk, hn, endEmpty, ha], hn'.mem, trivial⟩
  exact ⟨t, he, hj, hm⟩

theorem counterPlace_of_local (h : ctlCkind (cardCtl j.card) = 1) (s : State) : counterPlace j s = .ok (0, s) := by
  simp [counterPlace, h]

/-- A job with no elements that adds 1 to kN of its thread once it has ended. -/
theorem happens_copyJobStart_of_add (h : MayStart c e j s) (hk : jobKilled j s = false) (hn : sectorCount j.card = 0)
    (ha : ctlAddm (cardCtl j.card) = true) (hc : ctlCkind (cardCtl j.card) = 1) (hm : CountsAlone j.tid s)
    (hv : s.thr.ctx.kctr[(ctlKnum (cardCtl j.card)).toNat].toNat + 1 < 2 ^ 64) :
    Happens (.copyJobStart c e) s fun t => jobAt c e t = some { j with state := .done } ∧ SameBytes s t ∧
      t.thr.ctx.kctr = s.thr.ctx.kctr.set (ctlKnum (cardCtl j.card)).toNat (s.thr.ctx.kctr[(ctlKnum (cardCtl j.card)).toNat] + 1) := by
  refine happens_copyJobStart h { j with state := .done } fun t hn' => ?_
  have hm' := hm.of_noted hn'
  have hctx := hn'.ctx
  have hfits : ¬ 2 ^ 64 ≤ t.thr.ctx.kctr[(ctlKnum (cardCtl j.card)).toNat].toNat + (1 : Word64).toNat := by
    rw [hctx]
    exact Nat.not_le.mpr hv
  have hadd := completionAdd_local (q := ⟨j.world, some c⟩) (v := 1) (pa := 0) hc hm' none
  rw [if_neg hfits] at hadd
  refine ⟨addToK j.tid (ctlKnum (cardCtl j.card)) true 1 0 t, ?_, by rw [addToK_mem, hn'.mem], ?_⟩
  · simp only [startedJob, jobKilled_congr hn'.worlds, hk, hn, endEmpty, ha, counterPlace_of_local hc, hadd, Bool.false_eq_true, if_false,
      if_true, Bool.not_true, ne_eq, not_true_eq_false]
  · show (addToK j.tid (ctlKnum (cardCtl j.card)) true 1 0 t).thr.ctx.kctr = _
    rw [hm'.addToK_thr, addOwnK_of_fits (Nat.not_le.mp hfits), hctx]

end

end Sys2Proof.Machine
end

section
/-! Engines and units (O55): sectors land or fail. -/

namespace Sys2Proof.Machine

open Sys2Proof

/-! ## Sectors land -/

section
variable {c e n pa : Nat} {j : Job} {s t u v z : State}

/-- A sector of a job whose domain has been killed ends the job. -/
theorem happens_sectorLand_of_killed (h : MayLand c e n j s) (hk : jobKilled j s = true) :
    Happens (.sectorLand c e n) s fun t =>
      jobAt c e t = some { j with state := .faulted, fault := 0x06, bmap := 0, owed := false } ∧ SameBytes s t :=
  ⟨_, exec_sectorLand_of_mayLand h, by simp [landSector, hk, endJob], sameBytes_of_mem (by simp [landSector, hk])⟩

/-- The bytes, the tags and the threads of the state `z`, in which a sector has landed, and its add still to be made. -/
structure SectorLands (c e n pa : Nat) (j : Job) (s z : State) : Prop where
  may : MayLand c e n j s
  homes : HomesOnly s z
  lands : ∃ pa', (sectorCounts j = true → pa' = pa) ∧ landSector c e n j s = countSector ⟨j.world, some c⟩ c e n j pa' z

theorem SectorLands.happens (h : SectorLands c e n pa j s z) (hc : sectorCounts j = true) {p : State → Prop}
    (hp : p (countSector ⟨j.world, some c⟩ c e n j pa z)) : Happens (.sectorLand c e n) s p := by
  obtain ⟨pa', hpa, hl⟩ := h.lands
  refine ⟨_, exec_sectorLand_of_mayLand h.may, ?_⟩
  rw [hl, hpa hc]
  exact hp

/-- A sector without an add, or a card without a counter. -/
theorem SectorLands.happens_uncounted (h : SectorLands c e n pa j s z)
    (hc : sectorCounts j = false ∨ (ctlCkind (cardCtl j.card) ≠ 1 ∧ ctlCkind (cardCtl j.card) ≠ 2)) :
    Happens (.sectorLand c e n) s fun x => x.mem = z.mem ∧ x.tags = z.tags ∧ jobAt c e x = some (landedJob n j) := by
  obtain ⟨pa', hpa, hl⟩ := h.lands
  have hcount : countSector ⟨j.world, some c⟩ c e n j pa' z = setJob c e (landedJob n j) z := by
    by_cases hs : sectorCounts j = true
    · have hk := hc.resolve_left (by simp [hs])
      rw [countSector_of_counts h.may.fresh hs (completionAdd_of_no_counter hk _), if_neg (by simp)]
    · exact countSector_of_no_counts h.may.fresh (by simpa using hs)
  refine ⟨_, exec_sectorLand_of_mayLand h.may, ?_⟩
  rw [hl, hcount]
  exact ⟨rfl, rfl, jobAt_setJob_self ..⟩

/-- The job after an add that its counter refuses, with the record of the fault. -/
def RefusedAdd (c e n : Nat) (j : Job) (s z : State) (code : BitVec 8) (addr : Word64) (x : State) : Prop :=
  SameBytes z x ∧ x.thr.ctx.kctr = s.thr.ctx.kctr ∧
  jobAt c e x = some { landedJob n j with fault := code, faultAddr := addr, faultKind := 3, owed := false, state := .faulted, bmap := 0 } ∧
  (x.world j.world).faultQ = (z.world j.world).faultQ ++ [⟨addr, code, 3, BitVec.ofNat 8 c, BitVec.ofNat 8 e,
    BitVec.ofNat 32 (landedJob n j).landed.length, (landedJob n j).cardAddr, BitVec.ofNat 64 z.now⟩]

/-- An add that leaves a code other than a missing page's ends the job with a record. -/
theorem SectorLands.happens_refused (h : SectorLands c e n pa j s z) (hc : sectorCounts j = true) {code : BitVec 8} {addr : Word64}
    (ha : completionAdd ⟨j.world, some c⟩ j (addSector n j) (sectorAdd n j) pa z = (code, addr, t)) (hcode : code ≠ 0)
    (hp : codePauses code = false) (ht : HomesOnly z t) (hm : t.mem = z.mem) (hn : t.now = z.now)
    (hroom : z.faultQueueFull j.world = false) : Happens (.sectorLand c e n) s (RefusedAdd c e n j s z code addr) := by
  have hroom' : t.faultQueueFull j.world = false := by
    rw [State.faultQueueFull, State.world_congr ht.worlds]
    exact hroom
  refine h.happens hc ?_
  rw [countSector_of_counts h.may.fresh hc ha, if_pos hcode]
  have hstops : Stops c e 3 (plainFault code addr) { j with landed := NSet.add j.landed n } t _ := stopJob_stops hroom'
  obtain ⟨hjob, hmem⟩ := hstops.faulted hp
  refine ⟨sameBytes_of_mem (hmem.trans hm), by rw [hstops.thr, ht.thr, h.homes.thr], hjob, ?_⟩
  rw [hstops.queue, State.world_congr ht.worlds, jobRecord, hn]
  rfl

/-- An add in kN of the thread that has had the card accepted. -/
theorem SectorLands.happens_local (h : SectorLands c e n pa j s z) (hc : sectorCounts j = true) (hk : ctlCkind (cardCtl j.card) = 1)
    (hm : CountsAlone j.tid s) :
    let count := s.thr.ctx.kctr[(ctlKnum (cardCtl j.card)).toNat]
    (count.toNat + (sectorAdd n j).toNat < 2 ^ 64 → Happens (.sectorLand c e n) s fun x => x.mem = z.mem ∧ x.tags = z.tags ∧
      jobAt c e x = some (landedJob n j) ∧
      x.thr.ctx.kctr = s.thr.ctx.kctr.set (ctlKnum (cardCtl j.card)).toNat (count + sectorAdd n j)) ∧
    (2 ^ 64 ≤ count.toNat + (sectorAdd n j).toNat → z.faultQueueFull j.world = false →
      Happens (.sectorLand c e n) s (RefusedAdd c e n j s z 0x20 ((ctlKnum (cardCtl j.card)).setWidth 64))) := by
  intro count
  have hz := hm.of_homesOnly h.homes
  have hadd := completionAdd_local (q := ⟨j.world, some c⟩) (v := sectorAdd n j) (pa := pa) hk hz (addSector n j)
  rw [h.homes.thr] at hadd
  refine ⟨fun hv => ?_, fun hv hroom => ?_⟩
  · rw [if_neg (Nat.not_le.mpr hv)] at hadd
    refine h.happens hc ?_
    rw [countSector_of_counts h.may.fresh hc hadd, if_neg (by simp)]
    refine ⟨(setJob_mem ..).trans (addToK_mem ..), addToK_tags _ _ _ _ 0 z, jobAt_setJob_self .., ?_⟩
    rw [setJob_thr, hz.addToK_thr, h.homes.thr, addOwnK_of_fits hv]
  · rw [if_pos hv] at hadd
    exact h.happens_refused hc hadd (by decide) (by decide) (.refl z) rfl rfl hroom

theorem State.readFault_code {q : Req} {m : Nat} {f : BitVec 8 × Nat} (h : s.readFault q pa m = some f) : f.1 = 0x40 ∨ f.1 = 0x18 := by
  unfold State.readFault at h
  dsimp only at h
  split at h
  · cases h; exact .inl rfl
  · split at h
    · cases h; exact .inr rfl
    · cases h

theorem codePauses_ctrRefusal {q : Req} {code : BitVec 8} (h : ctrRefusal q pa s = some code) : code ≠ 0 ∧ codePauses code = false := by
  have hcode : code = 0x40 ∨ code = 0x18 ∨ code = 0x21 := by
    unfold ctrRefusal at h
    split at h
    next f hf =>
      cases h
      rcases State.readFault_code hf with h | h
      · exact .inl h
      · exact .inr (.inl h)
    next =>
      split at h
      · cases h
      · cases h; exact .inr (.inr rfl)
  rcases hcode with rfl | rfl | rfl <;> decide

theorem State.readNat_of_write {x : Nat} (hm : t.mem = Cells.write z.mem pa (toLe 8 x)) (hx : x < 2 ^ 64) : t.readNat pa 8 = x := by
  have hread := Cells.read_write z.mem pa (toLe 8 x)
  rw [toLe_length] at hread
  rw [State.readNat, State.readMem, hm, hread, leNat_toLe]
  exact Nat.mod_eq_of_lt hx

theorem State.byteAt_of_write {x a : Nat} (hm : t.mem = Cells.write z.mem pa (toLe 8 x)) (ha : a < pa ∨ pa + 8 ≤ a) :
    t.byteAt a = z.byteAt a := by
  rw [State.byteAt, hm]
  exact Cells.get_write_outside _ _ _ _ (by rwa [toLe_length])

/-- An add into a memory counter at its home. -/
theorem SectorLands.happens_memory (h : SectorLands c e n pa j s z) (hc : sectorCounts j = true) (hk : ctlCkind (cardCtl j.card) = 2)
    (hs : Config.sheafSlots ≤ j.sseq ∨ z.sheafFind j.world j.part j.cref j.stepNo j.sseq = none) :
    let old := z.readNat pa 8
    let at_ := (cardCap j.card 128 j.ccapTag).cursor
    (ctrRefusal ⟨j.world, some c⟩ pa z = none → pa % 64 = 0 → old + (sectorAdd n j).toNat < 2 ^ 64 → Happens (.sectorLand c e n) s fun x =>
      x.readNat pa 8 = old + (sectorAdd n j).toNat ∧ (∀ a, a < pa ∨ pa + 8 ≤ a → x.byteAt a = z.byteAt a) ∧
      jobAt c e x = some (landedJob n j)) ∧
    (ctrRefusal ⟨j.world, some c⟩ pa z = none → 2 ^ 64 ≤ old + (sectorAdd n j).toNat → z.faultQueueFull j.world = false →
      Happens (.sectorLand c e n) s (RefusedAdd c e n j s z 0x20 at_)) ∧
    ∀ code, ctrRefusal ⟨j.world, some c⟩ pa z = some code → z.faultQueueFull j.world = false →
      Happens (.sectorLand c e n) s (RefusedAdd c e n j s z code at_) := by
  intro old at_
  obtain ⟨u, t, ht, hn, hu, hr, hm, hadd⟩ := completionAdd_memory (q := ⟨j.world, some c⟩) (pa := pa) (v := sectorAdd n j)
    (sec := addSector n j) hk hs
  have hold : u.readNat pa 8 = old := by rw [State.readNat, State.readMem, hu]; rfl
  rw [← hr]
  refine ⟨fun hnone _ hv => ?_, fun hnone hv hroom => ?_, fun code hcode hroom => ?_⟩
  · obtain ⟨hf, hmem⟩ := lineAdd_of_fits hnone (hold ▸ hv)
    rw [hf] at hadd
    rw [hmem, hold, hu] at hm
    refine h.happens hc ?_
    rw [countSector_of_counts h.may.fresh hc hadd, if_neg (by simp)]
    exact ⟨State.readNat_of_write ((setJob_mem ..).trans hm) hv, fun a ha => State.byteAt_of_write ((setJob_mem ..).trans hm) ha,
      jobAt_setJob_self ..⟩
  · obtain ⟨hf, hmem⟩ := lineAdd_of_over hnone (hold ▸ hv)
    rw [hf] at hadd
    exact h.happens_refused hc hadd (by decide) (by decide) ht (hm.trans (hmem.trans hu)) hn hroom
  · obtain ⟨hf, hmem⟩ := lineAdd_of_refusal (v := sectorAdd n j) hcode
    obtain ⟨h0, hp⟩ := codePauses_ctrRefusal hcode
    rw [hf] at hadd
    exact h.happens_refused hc hadd h0 hp ht (hm.trans (hmem.trans hu)) hn hroom

/-! ### Sectors that fail -/

theorem happens_sectorLand_of_hold (h : MayLand c e n j s) (hk : jobKilled j s = false) {k : BitVec 8} {f : State → State}
    (ho : sectorOutcome c e n j s = .error (k, .hold f)) : Happens (.sectorLand c e n) s (· = State.heldBy f s) :=
  ⟨_, exec_sectorLand_of_mayLand h, by simp only [landSector, hk, ho, Bool.false_eq_true, if_false]⟩

/-- A missing page pauses the job once the sectors in flight have landed. -/
theorem happens_sectorLand_of_pause (h : MayLand c e n j s) (hk : jobKilled j s = false) {k : BitVec 8} {f : FaultInfo}
    (ho : sectorOutcome c e n j s = .error (k, .fault f)) (hp : codePauses f.code = true) {y : Job}
    (hy : jobAt c e (landFlight c e (inFlight c n j s) s) = some y) (hrun : y.state = .running)
    (hroom : (landFlight c e (inFlight c n j s) s).faultQueueFull y.world = false) :
    Happens (.sectorLand c e n) s (Stops c e k f y (landFlight c e (inFlight c n j s) s)) := by
  refine ⟨_, exec_sectorLand_of_mayLand h, ?_⟩
  have hl : landSector c e n j s = stopJob (setJob c e) c e y k f (landFlight c e (inFlight c n j s) s) := by
    simp [landSector, hk, ho, failSector, hp, hy, Option.filter, hrun]
  rw [hl]
  exact stopJob_stops hroom

/-- Any other failure ends the job. -/
theorem happens_sectorLand_of_fault (h : MayLand c e n j s) (hk : jobKilled j s = false) {k : BitVec 8} {f : FaultInfo}
    (ho : sectorOutcome c e n j s = .error (k, .fault f)) (hp : codePauses f.code = false) (hroom : s.faultQueueFull j.world = false) :
    Happens (.sectorLand c e n) s (Stops c e k f j s) := by
  refine ⟨_, exec_sectorLand_of_mayLand h, ?_⟩
  have hl : landSector c e n j s = stopJob (setJob c e) c e j k f s := by
    simp [landSector, hk, ho, failSector, hp, h.job, Option.filter, h.running]
  rw [hl]
  exact stopJob_stops hroom

theorem bitmapBytes_length (j : Job) : (bitmapBytes j).length = 520 := by
  simp [bitmapBytes, toLe_length]

/-- A job that has paused has its bitmap record in its partition's save area. -/
theorem Stops.bitmap {k : BitVec 8} {f : FaultInfo} (h : Stops c e k f j s t) (hp : codePauses f.code = true) :
    t.readMem (paSave j.part (bitmapOffset c e)) 520 = bitmapBytes j := by
  have hread := Cells.read_write s.mem (paSave j.part (bitmapOffset c e)) (bitmapBytes j)
  rw [bitmapBytes_length] at hread
  rw [State.readMem, h.mem, if_pos hp, hread]

end

end Sys2Proof.Machine
end

section
/-! Engines and units (O55): entries and slots of a matrix unit, grants, and commands that start. -/

namespace Sys2Proof.Machine

open Sys2Proof

/-! ## A unit, its entries and its slots -/

section
variable {c k n : Nat} {s t : State} {m : MCmd}

@[simp] theorem unit_modUnit (c : Nat) (f : MUnit → MUnit) (s : State) : ((modUnit c f s).cluster c).mat = f (s.cluster c).mat := by
  simp only [modUnit, State.cluster_modCluster]

theorem slotAt_congr (h : (t.cluster c).mat.slots = (s.cluster c).mat.slots) (k : Nat) : slotAt c k t = slotAt c k s := by
  rw [slotAt, slotAt, h]

@[simp] theorem cmds_dropCmd (c id : Nat) (s : State) :
    ((dropCmd c id s).cluster c).mat.cmds = (s.cluster c).mat.cmds.filter fun x => x.id != id := by
  simp only [dropCmd, unit_modUnit]

@[simp] theorem slots_dropCmd (c id : Nat) (s : State) : ((dropCmd c id s).cluster c).mat.slots = (s.cluster c).mat.slots := by
  simp only [dropCmd, unit_modUnit]

theorem id_ne_of_dropCmd {id : Nat} {y : MCmd} (h : y ∈ ((dropCmd c id s).cluster c).mat.cmds) : y.id ≠ id := by
  rw [cmds_dropCmd] at h
  simpa using (List.mem_filter.mp h).2

theorem dropCmd_homesOnly (c id : Nat) (s : State) : HomesOnly s (dropCmd c id s) := ⟨rfl, rfl, rfl⟩

theorem snapSlot_keeps (p c k : Nat) (s : State) : HomesOnly s (snapSlot p c k s) ∧ (snapSlot p c k s).clusters = s.clusters := by
  unfold snapSlot
  dsimp only
  split <;> exact ⟨⟨rfl, rfl, rfl⟩, rfl⟩

theorem slotAt_setSlot (p c k i : Nat) (x : MSlot) (s : State) : slotAt c i (setSlot p c k x s) = if i = k then x else slotAt c i s := by
  rw [slotAt, setSlot, unit_modUnit, NMap.getD, NMap.get?_set]
  split
  · rfl
  · rw [State.cluster_congr (snapSlot_keeps p c k s).2]; rfl

theorem setSlot_homesOnly (p c k : Nat) (x : MSlot) (s : State) : HomesOnly s (setSlot p c k x s) :=
  (snapSlot_keeps p c k s).1.trans ⟨rfl, rfl, rfl⟩

/-! ## Grants -/

theorem exec_matrixQueueGrant (c : Nat) (s : State) : exec (.matrixQueueGrant c) s = happen (tryMatrixQueueGrant c s) s := rfl

/-- A thread that waits for an entry of a unit is granted one. -/
def grantEntry (h : Thread) : Thread := { h with stall := match h.stall with
  | some (.matrixQueue q _ k) => some (.matrixGranted q k)
  | y => y }

/-- A thread that waits for an entry gets it. -/
theorem happens_matrixQueueGrant_of_thread {h : Thread} {o : Nat} {core : Option Nat} (ho : oldestWaiter c s = some (.thread h.tid o))
    (ht : s.thread? h.tid = some h) (hs : h.stall = some (.matrixQueue c o core)) :
    Happens (.matrixQueueGrant c) s fun t => t.thread? h.tid = some { h with stall := some (.matrixGranted c core) } ∧ SameBytes s t := by
  have htry : tryMatrixQueueGrant c s = some (s.modThread h.tid grantEntry) := by
    rw [tryMatrixQueueGrant, ho]
    rfl
  refine Happens.of_some (exec_matrixQueueGrant c s) htry ⟨?_, sameBytes_of_mem (by simp)⟩
  rw [State.thread?_modThread_of_status (f := grantEntry) ht (fun _ => rfl) fun _ => rfl, grantEntry, hs]

/-- The slot that a `.new` receives depends on the slots of its unit and on the partitions alone. -/
theorem allocSlot_congr (hs : ∀ k, slotAt c k t = slotAt c k s) (hp : t.parts = s.parts) (core : Option Nat) :
    allocSlot c core t = allocSlot c core s := by
  have hpart : ∀ p, t.part p = s.part p := fun p => by rw [State.part, hp]; rfl
  have hclaim : ∀ k, slotClaimable c k t = slotClaimable c k s := fun k => by simp only [slotClaimable, hs, hpart]
  have hheld : ∀ k, heldBy c k t = heldBy c k s := fun k => by simp only [heldBy, hs, hclaim]
  have hfree : ∀ k, slotFree c k t = slotFree c k s := fun k => by simp only [slotFree, hs]
  have htake : mayTake c core t = mayTake c core s := by
    funext k
    simp only [mayTake, hfree, hclaim, slotSaved, hp]
  have howed : owedSlots c t = owedSlots c s := by simp only [owedSlots, hheld]
  have hmany : freeSlots c core t = freeSlots c core s := by rw [freeSlots, htake]; rfl
  have hfirst : (fun k => slotFree c k t && mayTake c core t k) = fun k => slotFree c k s && mayTake c core s k := by
    funext k
    rw [hfree, htake]
  have hroom : ∀ k, decide (heldBy c k t < 2) = decide (heldBy c k s < 2) := fun k => by rw [hheld]
  unfold allocSlot
  rw [howed, hmany, hfirst, htake]
  cases core <;> simp only [hroom]

theorem saveSlot_keeps (c k : Nat) (s : State) : HomesOnly s (saveSlot c k s) ∧ (saveSlot c k s).clusters = s.clusters :=
  ⟨⟨rfl, rfl, rfl⟩, rfl⟩

/-- A slot taken from a state of the same slots and worlds. -/
theorem slotAt_takeSlot (hs : slotAt c k t = slotAt c k s) (hw : t.worlds = s.worlds) :
    slotAt c k (takeSlot c k m t) = slotTaken c k m.core m.world m.domain m.part s := by
  rw [takeSlot, slotAt_setSlot, if_pos rfl, hs, State.world_congr hw, slotTaken]

theorem takeSlot_homesOnly (c k : Nat) (m : MCmd) (s : State) : HomesOnly s (takeSlot c k m s) := by
  refine HomesOnly.trans ?_ (setSlot_homesOnly ..)
  split
  · exact (saveSlot_keeps c k s).1
  · exact .refl s

theorem cmds_acceptCmd (c : Nat) (m : MCmd) (s : State) : ((acceptCmd c m s).cluster c).mat.cmds = (s.cluster c).mat.cmds ++ [m] := by
  rw [acceptCmd, unit_modUnit]
  rfl

theorem slotAt_acceptCmd (c k : Nat) (m : MCmd) (s : State) : slotAt c k (acceptCmd c m s) = slotAt c k s :=
  slotAt_congr (by rw [acceptCmd, unit_modUnit]; rfl) k

/-- The result of a queued `.new` reaches the windows of the thread whose word issues. -/
theorem fillResult_pend (id : Nat) (v : Cap) (hs : s.thr.status ≠ .vacant) :
    (fillResult id v s).thr.ctx.pend = s.thr.ctx.pend.map (State.fillWrite id v) := by
  rw [fillResult, State.modAll, if_neg hs]

/-- A `.new` that waits for an entry gets a slot and is accepted. -/
theorem happens_matrixQueueGrant_of_cmd (ho : oldestWaiter c s = some (.cmd m)) (ha : allocSlot c m.core s = some k)
    (hv : s.thr.status ≠ .vacant) :
    Happens (.matrixQueueGrant c) s fun t =>
      let x := slotTaken c k m.core m.world m.domain m.part s
      { m with queued := false, slot := some k, sinc := x.sinc } ∈ (t.cluster c).mat.cmds ∧
      slotAt c k t = x ∧ SameBytes s t ∧ t.thr.ctx.pend = s.thr.ctx.pend.map (State.fillWrite m.id (slotCap c k x.sinc x.gen)) := by
  have hslots : ∀ i, slotAt c i (dropCmd c m.id s) = slotAt c i s := slotAt_congr (slots_dropCmd ..)
  have halloc : allocSlot c m.core (dropCmd c m.id s) = some k := (allocSlot_congr hslots rfl m.core).trans ha
  obtain ⟨u, hu⟩ : ∃ u, u = noteSlot c (some k) { m with queued := false } (dropCmd c m.id s) := ⟨_, rfl⟩
  have hn : Noted (dropCmd c m.id s) u := by rw [hu]; exact noted_noteEach ..
  obtain ⟨x, hx⟩ : ∃ x, x = slotTaken c k m.core m.world m.domain m.part s := ⟨_, rfl⟩
  have htaken : slotAt c k (takeSlot c k { m with queued := false } u) = x := by
    rw [hx]
    exact slotAt_takeSlot ((slotAt_congr (by rw [State.cluster_congr hn.clusters]) k).trans (hslots k)) hn.worlds
  have hhomes := takeSlot_homesOnly c k { m with queued := false } u
  have hmem : (takeSlot c k { m with queued := false } u).mem = s.mem := by simp [hn.mem]
  refine Happens.of_some (exec_matrixQueueGrant c s) (t := fillResult m.id (slotCap c k x.sinc x.gen)
    (acceptCmd c { m with queued := false, slot := some k, sinc := x.sinc } (takeSlot c k { m with queued := false } u))) ?_ ?_
  · rw [tryMatrixQueueGrant, ho, Option.map_some]
    simp only [acceptQueued, acceptNew, halloc, ← hu, htaken]
  · rw [← hx]
    refine ⟨?_, ?_, sameBytes_of_mem ?_, ?_⟩
    · show _ ∈ ((acceptCmd c _ _).cluster c).mat.cmds
      rw [cmds_acceptCmd]
      exact List.mem_append_right _ (List.mem_singleton.mpr rfl)
    · exact (slotAt_acceptCmd c k _ _).trans htaken
    · simpa using hmem
    · have hthr : (acceptCmd c { m with queued := false, slot := some k, sinc := x.sinc }
          (takeSlot c k { m with queued := false } u)).thr = u.thr := hhomes.thr
      rw [fillResult_pend, hthr, hn.ctx]
      · rfl
      · rw [hthr, hn.status]; exact hv

/-! ## Commands start -/

theorem exec_matrixCommandStart (c : Nat) (s : State) : exec (.matrixCommandStart c) s = happen (tryMatrixCommandStart c s) s := rfl

theorem operandPoison_congr (h : t.poison = s.poison) (m : MCmd) : operandPoison m t = operandPoison m s := by
  rw [operandPoison, h]; rfl

/-- A command whose operands are poisoned takes no effect. -/
theorem happens_matrixCommandStart_of_poison {l : Nat} (hs : nextStart c s = some m) (hp : operandPoison m s = some l)
    (hv : s.thr.status ≠ .vacant) (ht : s.thr.tid = m.tid) :
    Happens (.matrixCommandStart c) s fun t => (∀ y ∈ (t.cluster c).mat.cmds, y.id ≠ m.id) ∧
      (t.cluster c).mat.slots = (s.cluster c).mat.slots ∧
      t.thr.ctx.late = s.thr.ctx.late ++ [⟨0x40, BitVec.ofNat 64 (l * 64), m.pc, m.id⟩] ∧ SameBytes s t := by
  obtain ⟨u, hu⟩ : ∃ u, u = noteChoice false c m.tid (unitRequests c s) s := ⟨_, rfl⟩
  have hn : Noted s u := by rw [hu]; exact noted_noteChoice ..
  have hcl := State.cluster_congr hn.clusters c
  have hown : refuseCmd c l m u = { dropCmd c m.id u with thr := { u.thr with ctx := { u.thr.ctx with
      late := u.thr.ctx.late ++ [⟨0x40, BitVec.ofNat 64 (l * 64), m.pc, m.id⟩] } } } := by
    have hd : (dropCmd c m.id u).thr.tid = m.tid := hn.tid.trans ht
    rw [refuseCmd, ← hd, State.modThread_own _ (by rw [(dropCmd_homesOnly c m.id u).thr, hn.status]; exact hv)]
    rfl
  refine Happens.of_some (exec_matrixCommandStart c s) (t := refuseCmd c l m u) ?_ ?_
  · rw [tryMatrixCommandStart, hs, Option.map_some]
    simp only [← hu, operandPoison_congr hn.poison, hp]
  · rw [hown]
    refine ⟨fun y hy => id_ne_of_dropCmd hy, ?_, ?_, sameBytes_of_mem hn.mem⟩
    · exact (slots_dropCmd c m.id u).trans (by rw [hcl])
    · simp only [hn.ctx]

/-- A command starts, and the round goes on after its core. -/
theorem happens_matrixCommandStart (hs : nextStart c s = some m) (hp : operandPoison m s = none) :
    Happens (.matrixCommandStart c) s fun t => SameBytes s t ∧ (t.cluster c).mat.lastCore = roundPlace m.core ∧
      (t.cluster c).mat.slots = (s.cluster c).mat.slots ∧ ∀ y ∈ (t.cluster c).mat.cmds, y.id = m.id → y.started = true := by
  obtain ⟨u, hu⟩ : ∃ u, u = noteChoice false c m.tid (unitRequests c s) s := ⟨_, rfl⟩
  have hn : Noted s u := by rw [hu]; exact noted_noteChoice ..
  refine Happens.of_some (exec_matrixCommandStart c s) (t := startCmd c m u) ?_ ?_
  · rw [tryMatrixCommandStart, hs, Option.map_some]
    simp only [← hu, operandPoison_congr hn.poison, hp]
  · rw [startCmd, unit_modUnit]
    refine ⟨sameBytes_of_mem hn.mem, rfl, by rw [State.cluster_congr hn.clusters], fun y hy hid => ?_⟩
    obtain ⟨x, _, rfl⟩ := List.mem_map.mp hy
    by_cases hx : x.id = m.id
    · rw [if_pos hx]
    · rw [if_neg hx] at hid
      exact absurd hid hx

end

end Sys2Proof.Machine
end

section
/-! Engines and units (O55): commands that complete, tiles, releases, and engines that stop and go on. -/

namespace Sys2Proof.Machine

open Sys2Proof

/-! ## Commands complete -/

section
variable {c k n : Nat} {s t : State} {m : MCmd}

theorem exec_matrixCommandComplete (c n : Nat) (s : State) :
    exec (.matrixCommandComplete c n) s = happen (tryMatrixCommandComplete c n s) s := rfl
theorem exec_areadTileWrite (c n : Nat) (s : State) : exec (.areadTileWrite c n) s = happen (tryAreadTileWrite c n s) s := rfl
theorem exec_slotRelease (c n : Nat) (s : State) : exec (.slotRelease c n) s = happen (trySlotRelease c n s) s := rfl

theorem onSaved_keeps (c k : Nat) (m : MCmd) (f : MSlot → MSlot) (s : State) :
    HomesOnly s (onSaved c k m f s) ∧ (onSaved c k m f s).clusters = s.clusters := by
  unfold onSaved
  dsimp only
  split <;> exact ⟨⟨rfl, rfl, rfl⟩, rfl⟩

theorem onSlot_homesOnly (c : Nat) (m : MCmd) (f : MSlot → MSlot) (s : State) : HomesOnly s (onSlot c m f s) := by
  unfold onSlot
  dsimp only
  split
  · exact setSlot_homesOnly ..
  · exact (onSaved_keeps ..).1

/-- What a command does to the slots of its unit. -/
theorem slotAt_onSlot (c : Nat) (m : MCmd) (f : MSlot → MSlot) (s : State) (i : Nat) :
    slotAt c i (onSlot c m f s) =
      if i = m.slot.getD 0 ∧ slotIs c (m.slot.getD 0) m.sinc s = true then f (slotAt c i s) else slotAt c i s := by
  unfold onSlot
  dsimp only
  by_cases hs : slotIs c (m.slot.getD 0) m.sinc s = true
  · rw [if_pos hs, slotAt_setSlot]
    by_cases hi : i = m.slot.getD 0
    · rw [if_pos hi, if_pos ⟨hi, hs⟩, hi]
    · rw [if_neg hi, if_neg fun h => hi h.1]
  · rw [if_neg hs, if_neg fun h => hs h.2]
    exact slotAt_congr (by rw [State.cluster_congr (onSaved_keeps ..).2]) i

theorem comesLater_of_no_record {h : Thread} (hr : h.record = false) (v : Arrival) : State.comesLater h v = false := by
  unfold State.comesLater
  split
  · simp [hr]
  · rfl

theorem CountsAlone.addToKHeld {t : Nat} (h : CountsAlone t s) (k : BitVec 4) (both : Bool) (v : Word64) :
    addToKHeld t k both v s = false := by
  rw [Machine.addToKHeld, State.heldEach, h.any both, comesLater_of_no_record h.plain.2]

theorem slotAt_addToK (t : Nat) (k : BitVec 4) (both : Bool) (v pc : Word64) (s : State) (i : Nat) :
    slotAt c i (addToK t k both v pc s) = slotAt c i s :=
  slotAt_congr (by rw [State.cluster_congr (addToK_clusters ..)]) i

/-- A command changes its slot and counts. -/
theorem happens_matrixCommandComplete (hs : startedCmd c n s = some m) (hm : CountsAlone m.tid s) :
    Happens (.matrixCommandComplete c n) s fun t =>
      let k := m.slot.getD 0
      let count := s.thr.ctx.kctr[m.kctr.toNat]
      slotAt c k t = (if slotIs c k m.sinc s then applyCmd (slotSide c) m (slotAt c k s) else slotAt c k s) ∧
      (∀ i, i ≠ k → slotAt c i t = slotAt c i s) ∧ (∀ y ∈ (t.cluster c).mat.cmds, y.id ≠ n) ∧ SameBytes s t ∧
      (count.toNat + 1 < 2 ^ 64 → t.thr.ctx.kctr = s.thr.ctx.kctr.set m.kctr.toNat (count + 1)) ∧
      (2 ^ 64 ≤ count.toNat + 1 → t.thr.ctx.kctr = s.thr.ctx.kctr ∧ ∃ f ∈ t.thr.ctx.late, f.code = 0x20 ∧ f.orig = m.pc) := by
  obtain ⟨u, hu⟩ : ∃ u, u = onSlot c m (applyCmd (slotSide c) m) s := ⟨_, rfl⟩
  have hhomes : HomesOnly s (dropCmd c n u) := by
    rw [hu]
    exact (onSlot_homesOnly ..).trans (dropCmd_homesOnly ..)
  have hthr := (hm.of_homesOnly hhomes).addToK_thr m.kctr m.core.isNone 1 m.pc
  rw [hhomes.thr] at hthr
  have hslot : ∀ i, slotAt c i (addToK m.tid m.kctr m.core.isNone 1 m.pc (dropCmd c n u)) = slotAt c i u := fun i =>
    (slotAt_addToK ..).trans (slotAt_congr (slots_dropCmd ..) i)
  refine Happens.of_some (exec_matrixCommandComplete c n s) (t := addToK m.tid m.kctr m.core.isNone 1 m.pc (dropCmd c n u)) ?_
    ⟨?_, fun i hi => ?_, fun y hy => ?_, sameBytes_of_mem ?_, fun hv => ?_, fun hv => ?_⟩
  · simp [tryMatrixCommandComplete, hs, Option.filter, hm.addToKHeld, ← hu]
  · rw [hslot, hu, slotAt_onSlot]
    simp only [true_and]
  · rw [hslot, hu, slotAt_onSlot, if_neg fun h => hi h.1]
  · rw [State.cluster_congr (addToK_clusters ..)] at hy
    exact id_ne_of_dropCmd hy
  · simp [hu]
  · rw [hthr, addOwnK_of_fits hv]
  · rw [hthr, addOwnK_of_over hv]
    exact ⟨rfl, _, List.mem_append_right _ (List.mem_singleton.mpr rfl), rfl, rfl⟩

/-! ## Tiles and releases -/

/-- An `aread` writes the tile of its slot in its thread's window. -/
theorem happens_areadTileWrite (hr : readyEntry .aread c n s = some m) (hv : s.thr.status ≠ .vacant) (ht : s.thr.tid = m.tid)
    (hs : slotIs c (m.slot.getD 0) m.sinc s = true) :
    Happens (.areadTileWrite c n) s fun t => SameBytes s t ∧ (∀ y ∈ (t.cluster c).mat.cmds, y.id ≠ n) ∧
      t.thr.ctx.win = Cells.write s.thr.ctx.win m.tileOff (readTile (slotSide c) m (slotAt c (m.slot.getD 0) s)) := by
  refine Happens.of_some (exec_areadTileWrite c n s) (t := dropCmd c n (s.nextTick.modThread m.tid fun h => { h with ctx := { h.ctx with
    win := Cells.write h.ctx.win m.tileOff (readTile (slotSide c) m (slotAt c (m.slot.getD 0) s)) } })) ?_
    ⟨sameBytes_of_mem (by simp), fun y hy => id_ne_of_dropCmd hy, ?_⟩
  · simp only [tryAreadTileWrite, hr, Option.map_some, hs, if_true]
  · have hown : s.nextTick.thr.tid = m.tid := ht
    rw [(dropCmd_homesOnly ..).thr, ← hown, State.modThread_own (s := s.nextTick) _ hv]
    rfl

/-- The slot after the end of its incarnation. -/
theorem slotAt_endSlot (p c k : Nat) (s : State) :
    let old := slotAt c k s
    let new := slotAt c k (endSlot p c k s)
    let next := max (old.sinc.toNat + 1) old.next
    new.used = false ∧ new.elems = [] ∧ (next < 2 ^ 46 → new.sinc.toNat = next ∧ new.retired = false) ∧
      (2 ^ 46 ≤ next → new.retired = true) := by
  intro old new next
  by_cases hn : 2 ^ 46 ≤ next
  · have hnew : new = { MSlot.free with sinc := old.sinc, next := next, retired := true } := by
      show slotAt c k (endSlot p c k s) = _
      rw [endSlot, if_pos hn, slotAt_setSlot, if_pos rfl]
    rw [hnew]
    exact ⟨rfl, rfl, fun h => absurd hn (Nat.not_le.mpr h), fun _ => rfl⟩
  · have hnew : new = { MSlot.free with sinc := BitVec.ofNat 46 next, next := next } := by
      show slotAt c k (endSlot p c k s) = _
      rw [endSlot, if_neg hn, slotAt_setSlot, if_pos rfl]
    rw [hnew]
    refine ⟨rfl, rfl, fun h => ⟨?_, rfl⟩, fun h => absurd h hn⟩
    rw [BitVec.toNat_ofNat, Nat.mod_eq_of_lt h]

/-- An `arel` ends the incarnation of its slot. -/
theorem happens_slotRelease (hr : readyEntry .arel c n s = some m) :
    Happens (.slotRelease c n) s fun t =>
      let old := slotAt c (m.slot.getD 0) s
      let new := slotAt c (m.slot.getD 0) t
      let next := max (old.sinc.toNat + 1) old.next
      (∀ y ∈ (t.cluster c).mat.cmds, y.id ≠ n) ∧ SameBytes s t ∧
      (slotIs c (m.slot.getD 0) m.sinc s = false → new = old) ∧
      (slotIs c (m.slot.getD 0) m.sinc s = true → new.used = false ∧ (∀ i v, NMap.get? new.elems i ≠ some v) ∧
        (next < 2 ^ 46 → new.sinc.toNat = next ∧ new.retired = false) ∧ (2 ^ 46 ≤ next → new.retired = true)) := by
  refine Happens.of_some (exec_slotRelease c n s) (t := dropCmd c n (if slotIs c (m.slot.getD 0) m.sinc s then
    endSlot m.part c (m.slot.getD 0) s else s)) (by rw [trySlotRelease, hr]; rfl)
    ⟨fun y hy => id_ne_of_dropCmd hy, sameBytes_of_mem ?_, fun hs => ?_, fun hs => ?_⟩
  · split <;> simp
  · rw [slotAt_congr (slots_dropCmd ..), hs]
    rfl
  · rw [slotAt_congr (slots_dropCmd ..), if_pos hs]
    obtain ⟨hu, he, hn, hret⟩ := slotAt_endSlot m.part c (m.slot.getD 0) s
    refine ⟨hu, fun i v => ?_, hn, hret⟩
    rw [he]
    exact fun h => by cases h

/-! ## Engines stop and go on -/

theorem exec_engineStop (c : Nat) (s : State) : exec (.engineStop c) s = happen (tryEngineStop c s) s := rfl
theorem exec_engineResume (c : Nat) (s : State) : exec (.engineResume c) s = happen (tryEngineResume c s) s := rfl
theorem exec_engineEntryWrite (c e : Nat) (v : Word64) (s : State) :
    exec (.engineEntryWrite c e v) s = happen (tryEngineEntryWrite c e v s) s := rfl

/-- An event that changes an engine alone. -/
theorem happens_modEngine {i : Instr} {r : Option State} {f : Engine → Engine} (h : exec i s = happen r s) (hr : r = some (modEngine c f s)) :
    Happens i s fun t => engineOf c t = f (engineOf c s) ∧ SameBytes s t :=
  Happens.of_some h hr ⟨engineOf_modEngine .., sameBytes_of_mem (by simp)⟩

theorem happens_engineStop (h : (engineOf c s).stop = false) :
    Happens (.engineStop c) s fun t => engineOf c t = { engineOf c s with stop := true } ∧ SameBytes s t :=
  happens_modEngine (f := fun x => { x with stop := true }) (exec_engineStop c s) (by simp only [tryEngineStop, h, Bool.not_false, if_true])

theorem happens_engineStop_of_drained (h : (engineOf c s).stop = true) (hs : (engineOf c s).stopped = false) (hd : engineDrained c s = true) :
    Happens (.engineStop c) s fun t => engineOf c t = { engineOf c s with stopped := true } ∧ SameBytes s t :=
  happens_modEngine (f := fun x => { x with stopped := true }) (exec_engineStop c s) (by
    simp only [tryEngineStop, h, hs, hd, Bool.not_true, Bool.false_eq_true, if_false, Bool.not_false, Bool.and_self, if_true])

theorem happens_engineResume (h : (engineOf c s).stop = true) :
    Happens (.engineResume c) s fun t => engineOf c t = { engineOf c s with stop := false, stopped := false } ∧ SameBytes s t :=
  happens_modEngine (f := writeEngctl 0) (exec_engineResume c s) (by rw [tryEngineResume, if_pos h])

end

end Sys2Proof.Machine
end

section
/-! Engines and units (O55): META of an entry, and the statement. -/

namespace Sys2Proof.Machine

open Sys2Proof

/-! ## META of an entry -/

section
variable {c e i : Nat} {v : Word64} {s t : State} {b x : Job} {g : Engine}

/-- An entry with a META written to it, before it takes its place in the order of the queue. -/
def metaJob (v : Word64) (s : State) (x : Job) : Job :=
  { x with
    srcTag := v.getLsbD 3 && tagAllowed (cardCap x.card 0 true), dstTag := v.getLsbD 4 && tagAllowed (cardCap x.card 16 true)
    ccapTag := v.getLsbD 5 && tagAllowed (cardCap x.card 128 true), state := metaState v, fault := v.extractLsb' 8 8
    landed := bmapLanded x.bmap x.part (v.toNat / 2 ^ 24) s }

theorem writeMeta_of_zero (h : v.toNat % 8 = 0) : writeMeta i v b s g = { g with entries := NMap.del g.entries i } := by
  rw [writeMeta, if_pos h]

/-- A META enters the entry, at the end of the queue where the job is queued, running or paused. -/
theorem writeMeta_of_ne (h : v.toNat % 8 ≠ 0) : ∃ o d r w,
    (writeMeta i v b s g).entries = NMap.set g.entries i { metaJob v s (NMap.getD g.entries i b) with
      order := o, deps := d, readFoot := r, writeFoot := w } ∧
    (jobLive (metaJob v s (NMap.getD g.entries i b)) = true → o = g.nextOrder ∧ (writeMeta i v b s g).nextOrder = g.nextOrder + 1) := by
  unfold writeMeta
  rw [if_neg h]
  dsimp only
  split
  · exact ⟨_, _, _, _, rfl, fun _ => ⟨rfl, rfl⟩⟩
  next hl => exact ⟨_, _, _, _, rfl, fun h => absurd h hl⟩

theorem writeMeta_other (h : i ≠ e) : NMap.get? (writeMeta e v b s g).entries i = NMap.get? g.entries i := by
  by_cases hz : v.toNat % 8 = 0
  · rw [writeMeta_of_zero hz, NMap.get?_del, if_neg h]
  · obtain ⟨_, _, _, _, he, _⟩ := writeMeta_of_ne (i := e) (b := b) (s := s) (g := g) hz
    rw [he, NMap.get?_set_ne _ _ h]

theorem metaState_one (h : v.toNat % 8 = 1) : metaState v = .queued := by simp only [metaState, h]
theorem metaState_two (h : v.toNat % 8 = 2) : metaState v = .running := by simp only [metaState, h]
theorem metaState_three (h : v.toNat % 8 = 3) : metaState v = .paused := by simp only [metaState, h]

theorem jobLive_metaJob (h : v.toNat % 8 ≠ 0) (hl : v.toNat % 8 ≤ 3) : jobLive (metaJob v s x) = true := by
  have hcases : v.toNat % 8 = 1 ∨ v.toNat % 8 = 2 ∨ v.toNat % 8 = 3 := by omega
  rcases hcases with h | h | h
  · simp [jobLive, metaJob, metaState_one h]
  · simp [jobLive, metaJob, metaState_two h]
  · simp [jobLive, metaJob, metaState_three h]

/-- What a META makes of an entry of a stopped engine. -/
theorem happens_engineEntryWrite (hx : (engineOf c s).stopped = true) (he : e < 64) (v : Word64) :
    Happens (.engineEntryWrite c e v) s fun t =>
      (v.toNat % 8 = 0 → jobAt c e t = none) ∧ (∀ i, i ≠ e → jobAt c i t = jobAt c i s) ∧ SameBytes s t ∧
      (v.toNat % 8 ≠ 0 → ∃ z, jobAt c e t = some z ∧ z.fault = v.extractLsb' 8 8 ∧
        (v.toNat % 8 = 1 → z.state = .queued) ∧ (v.toNat % 8 = 2 → z.state = .running) ∧ (v.toNat % 8 = 3 → z.state = .paused) ∧
        (v.toNat % 8 ≤ 3 → z.order = (engineOf c s).nextOrder ∧ (engineOf c t).nextOrder = (engineOf c s).nextOrder + 1) ∧
        (jobAt c e s = none → z.card = List.replicate 176 0) ∧
        ∀ y, jobAt c e s = some y → z.card = y.card ∧ z.bmap = y.bmap ∧ z.landed = bmapLanded y.bmap y.part (v.toNat / 2 ^ 24) s ∧
          (z.srcTag = true ↔ v.getLsbD 3 = true ∧ tagAllowed (cardCap y.card 0 true) = true) ∧
          (z.dstTag = true ↔ v.getLsbD 4 = true ∧ tagAllowed (cardCap y.card 16 true) = true) ∧
          (z.ccapTag = true ↔ v.getLsbD 5 = true ∧ tagAllowed (cardCap y.card 128 true) = true)) := by
  refine Happens.of_some (exec_engineEntryWrite c e v s) (t := modEngine c (writeMeta e v (blankJob s) s) s)
    (by simp only [tryEngineEntryWrite, hx, he, decide_true, Bool.and_self, if_true])
    ⟨fun hz => ?_, fun i hi => ?_, sameBytes_of_mem (by simp), fun hz => ?_⟩
  · rw [jobAt, engineOf_modEngine, writeMeta_of_zero hz, NMap.get?_del, if_pos rfl]
  · rw [jobAt, engineOf_modEngine, writeMeta_other hi]
    rfl
  · obtain ⟨o, d, r, w, hent, hlive⟩ := writeMeta_of_ne (i := e) (b := blankJob s) (s := s) (g := engineOf c s) hz
    refine ⟨_, by rw [jobAt, engineOf_modEngine, hent, NMap.get?_set_self], rfl, metaState_one, metaState_two, metaState_three, fun hl => ?_,
      fun hn => ?_, fun y hy => ?_⟩
    · rw [engineOf_modEngine]
      exact hlive (jobLive_metaJob hz hl)
    · have hg : NMap.getD (engineOf c s).entries e (blankJob s) = blankJob s := by rw [NMap.getD]; exact congrArg (Option.getD · _) hn
      rw [hg]
      rfl
    · have hg : NMap.getD (engineOf c s).entries e (blankJob s) = y := by rw [NMap.getD]; exact congrArg (Option.getD · _) hy
      rw [hg]
      exact ⟨rfl, rfl, rfl, Bool.and_eq_true_iff, Bool.and_eq_true_iff, Bool.and_eq_true_iff⟩

end

theorem codePauses_of_ne {code : BitVec 8} (h10 : code ≠ 0x10) (h11 : code ≠ 0x11) : codePauses code = false := by
  rw [codePauses, beq_eq_false_iff_ne.mpr h10, beq_eq_false_iff_ne.mpr h11]
  rfl

/-- Settles O55: one lemma for each event of an engine or a unit. -/
theorem enginesAndUnits : Obligations.EnginesAndUnits := by
  unfold Obligations.EnginesAndUnits
  intro c e n s j h m x unit q runs ctl mine count record stops
  have hmay : runs → MayLand c e n j s := fun ⟨h1, h2, h3, h4, h5, h6, h7, h8, h9⟩ => ⟨h1, h2, h3, h4, h5, h6, h7, h8, h9⟩
  have halone : mine → CountsAlone j.tid s := fun ⟨hp, ht, ho⟩ => ⟨hp, ht, ho⟩
  refine ⟨happens_copyQueueGrant, ?_, fun hr => happens_sectorLand_of_killed (hmay hr), ?_,
    fun k f hr hk => happens_sectorLand_of_hold (hmay hr) hk, ?_, fun o core => happens_matrixQueueGrant_of_thread,
    fun k ho ha hv _ => happens_matrixQueueGrant_of_cmd ho ha hv, fun l => happens_matrixCommandStart_of_poison, happens_matrixCommandStart,
    fun hs hp ht ho => happens_matrixCommandComplete hs ⟨hp, ht, ho⟩, happens_areadTileWrite, happens_slotRelease, happens_engineStop,
    happens_engineStop_of_drained, happens_engineResume, fun v hx he => happens_engineEntryWrite hx he v⟩
  · intro hj hq he hd hr hc hh
    have hstart : MayStart c e j s := ⟨hj, hq, he, hd, hr, hc, hh⟩
    exact ⟨happens_copyJobStart_of_killed hstart, fun hk => ⟨happens_copyJobStart_of_sectors hstart hk,
      happens_copyJobStart_of_empty hstart hk, fun hn ha hck hm => happens_copyJobStart_of_add hstart hk hn ha hck (halone hm)⟩⟩
  · intro parts chunks t u v pa hr hk hrd hwr hpl w z add landed refused
    have hlands : SectorLands c e n pa j s z := ⟨hmay hr, homesOnly_of_places hrd hwr hpl, landSector_of_places hk hrd hwr hpl⟩
    refine ⟨sectorCounts_iff j, hlands.happens_uncounted, fun hc hck hm => ?_, fun hc hck hs => ?_⟩
    · obtain ⟨hfits, hover⟩ := hlands.happens_local hc hck (halone hm)
      exact ⟨hfits, fun hv hroom => hover hv hroom⟩
    · obtain ⟨hfits, hover, hrefused⟩ := hlands.happens_memory hc hck hs
      exact ⟨hfits, fun hn hv hroom => hover hn hv hroom, fun code hcode hroom => hrefused code hcode hroom⟩
  · intro k f hr hk ho recorded
    refine ⟨fun hcode => ?_, fun h10 h11 hroom => ?_⟩
    · intro t y hy hrun hw hroom
      have hp : codePauses f.code = true := by rcases hcode with h | h <;> rw [h] <;> rfl
      obtain ⟨v, hv, hst⟩ := happens_sectorLand_of_pause (hmay hr) hk ho hp hy hrun (hw ▸ hroom)
      have hqueue := hst.queue
      rw [hw] at hqueue
      exact ⟨v, hv, hqueue, hst.paused hp, hst.bitmap hp⟩
    · have hp := codePauses_of_ne h10 h11
      obtain ⟨v, hv, hst⟩ := happens_sectorLand_of_fault (hmay hr) hk ho hp hroom
      obtain ⟨hjob, hmem⟩ := hst.faulted hp
      exact ⟨v, hv, hst.queue, hjob, sameBytes_of_mem hmem⟩

end Sys2Proof.Machine
end

section
/-! Translation (O56): updates of every job, in the engines and in the save areas; the jobs that an answer of the host resumes. -/

namespace Sys2Proof.Machine

open Sys2Proof

/-! ## Every job, as one list -/

/-- The entries of engines, each with its cluster. -/
def entriesOf (l : List (Nat × Cluster)) : List (Nat × Nat × Job) := l.flatMap fun x => x.2.engine.entries.map fun y => (x.1, y)

/-- The entries that stand in save areas, each with its partition. -/
def savedOf (l : List (Nat × Partition)) : List (Nat × SavedJob) := l.flatMap fun x => x.2.savedJobs.map fun y => (x.1, y)

section
variable {f : Nat → Nat → Job → State → State} {g : (Job → State → State) → Nat → Nat → Job → State → State}

theorem eachEntry_eq_foldl (c : Nat) (l : List (Nat × Job)) : ∀ s, eachEntry f c l s = l.foldl (fun u y => f c y.1 y.2 u) s := by
  induction l with
  | nil => exact fun _ => rfl
  | cons y r ih => exact fun s => ih _

theorem eachJob_eq_foldl (l : List (Nat × Cluster)) : ∀ s, eachJob f l s = (entriesOf l).foldl (fun u x => f x.1 x.2.1 x.2.2 u) s := by
  induction l with
  | nil => exact fun _ => rfl
  | cons x r ih =>
    intro s
    rw [entriesOf, List.flatMap_cons, List.foldl_append, List.foldl_map, ← eachEntry_eq_foldl]
    exact ih _

theorem eachSaved_eq_foldl (p : Nat) (l : List SavedJob) :
    ∀ s, eachSaved g p l s = l.foldl (fun u y => g (setSaved p y.cluster y.entry) y.cluster y.entry y.job u) s := by
  induction l with
  | nil => exact fun _ => rfl
  | cons y r ih => exact fun s => ih _

theorem eachSavedIn_eq_foldl (l : List (Nat × Partition)) : ∀ s, eachSavedIn g l s =
    (savedOf l).foldl (fun u x => g (setSaved x.1 x.2.cluster x.2.entry) x.2.cluster x.2.entry x.2.job u) s := by
  induction l with
  | nil => exact fun _ => rfl
  | cons x r ih =>
    intro s
    rw [savedOf, List.flatMap_cons, List.foldl_append, List.foldl_map, ← eachSaved_eq_foldl]
    exact ih _

/-- An update keeps over every job what it keeps where it puts a job back in an engine, and in a save area. -/
theorem everyJob_keeps_each {P : State → Prop} (hjob : ∀ c e j u, P u → P (g (setJob c e) c e j u))
    (hsaved : ∀ p c e c' e' j u, P u → P (g (setSaved p c e) c' e' j u)) {s : State} (h : P s) : P (everyJob g s) :=
  eachSavedIn_keeps (fun c e c' e' p j => hsaved p c' e' c e j) _ _ (eachJob_keeps hjob _ _ h)

end

theorem mem_entriesOf_of_jobAt {c e : Nat} {j : Job} {s : State} (h : jobAt c e s = some j) : (c, e, j) ∈ entriesOf s.clusters := by
  rw [jobAt, engineOf, State.cluster, NMap.getD] at h
  cases hc : NMap.get? s.clusters c with
  | none => rw [hc] at h; cases h
  | some x =>
    rw [hc] at h
    exact List.mem_flatMap.mpr ⟨(c, x), NMap.mem_of_get? hc, List.mem_map.mpr ⟨(e, j), NMap.mem_of_get? h, rfl⟩⟩

theorem mem_savedOf_of_part {p : Nat} {y : SavedJob} {s : State} (h : y ∈ (s.part p).savedJobs) : (p, y) ∈ savedOf s.parts := by
  rw [State.part, NMap.getD] at h
  cases hp : NMap.get? s.parts p with
  | none => rw [hp] at h; cases h
  | some x =>
    rw [hp] at h
    exact List.mem_flatMap.mpr ⟨(p, x), NMap.mem_of_get? hp, List.mem_map.mpr ⟨y, h, rfl⟩⟩

/-- What the steps of a fold keep once it holds, and one step of it brings about, holds at its end; every step keeps `I`. -/
theorem foldl_reaches {α : Type} {g : State → α → State} {l : List α} {I P : State → Prop} {x : α} {s : State}
    (hI : ∀ u, I u → ∀ y ∈ l, I (g u y)) (hP : ∀ u, I u → P u → ∀ y ∈ l, P (g u y)) (hx : x ∈ l) (hg : ∀ u, I u → P (g u x)) (hs : I s) :
    P (l.foldl g s) := by
  obtain ⟨a, b, rfl⟩ := List.append_of_mem hx
  have ha : I (a.foldl g s) := List.foldlRecOn a g hs fun u hu y hy => hI u hu y (List.mem_append_left _ hy)
  rw [List.foldl_append, List.foldl_cons]
  refine (List.foldlRecOn (motive := fun u => I u ∧ P u) b g ⟨hI _ ha x hx, hg _ ha⟩ fun u hu y hy => ?_).2
  have hy' := List.mem_append_right a (List.mem_cons_of_mem x hy)
  exact ⟨hI u hu.1 y hy', hP u hu.1 hu.2 y hy'⟩

/-! ## Where a job is put back -/

section
variable {c e p : Nat} {j : Job} {s : State}

@[simp] theorem setJob_hub : (setJob c e j s).hub = s.hub := rfl
@[simp] theorem setJob_parts : (setJob c e j s).parts = s.parts := rfl
@[simp] theorem setSaved_hub : (setSaved p c e j s).hub = s.hub := rfl
@[simp] theorem setSaved_worlds : (setSaved p c e j s).worlds = s.worlds := rfl
@[simp] theorem setSaved_clusters : (setSaved p c e j s).clusters = s.clusters := rfl

end

theorem jobAt_setJob_any (c e i k : Nat) (j : Job) (s : State) :
    jobAt c e (setJob i k j s) = if c = i ∧ e = k then some j else jobAt c e s := by
  by_cases hc : c = i
  · subst hc
    simp only [jobAt_setJob, true_and]
  · rw [if_neg fun h => hc h.1]
    have hcl : (setJob i k j s).cluster c = s.cluster c := NMap.getD_set_ne _ _ _ hc
    rw [jobAt, engineOf, hcl]
    rfl

/-- The save area of a partition holds an entry of that place whose job satisfies `q`. -/
def savedWith (p c e : Nat) (q : Job → Prop) (s : State) : Prop := ∃ z ∈ (s.part p).savedJobs, z.cluster = c ∧ z.entry = e ∧ q z.job

section
variable {p c e : Nat} {q : Job → Prop} {j : Job} {s : State}

theorem part_setSaved_self : ((setSaved p c e j s).part p).savedJobs =
    (s.part p).savedJobs.map fun y => if y.cluster == c && y.entry == e then { y with job := j } else y := by
  rw [setSaved, State.modPart, State.setPart, State.part, NMap.getD_set_self]

theorem part_setSaved_ne {i : Nat} (h : p ≠ i) : (setSaved i c e j s).part p = s.part p := NMap.getD_set_ne _ _ _ h

/-- The job that a place of a save area takes stands there. -/
theorem savedWith_setSaved {r : Job → Prop} (h : savedWith p c e r s) (hq : q j) : savedWith p c e q (setSaved p c e j s) := by
  obtain ⟨z, hz, rfl, rfl, -⟩ := h
  refine ⟨{ z with job := j }, ?_, rfl, rfl, hq⟩
  rw [part_setSaved_self]
  exact List.mem_map.mpr ⟨z, hz, by simp⟩

/-- An entry that satisfies `q` stays one where a job that satisfies `q` is put back. -/
theorem savedWith_kept (p' c' e' : Nat) (h : savedWith p c e q s) (hq : q j) : savedWith p c e q (setSaved p' c' e' j s) := by
  obtain ⟨z, hz, hc, he, hz'⟩ := h
  by_cases hp : p = p'
  · subst hp
    refine ⟨if z.cluster == c' && z.entry == e' then { z with job := j } else z, ?_, ?_⟩
    · rw [part_setSaved_self]
      exact List.mem_map.mpr ⟨z, hz, rfl⟩
    · split
      · exact ⟨hc, he, hq⟩
      · exact ⟨hc, he, hz'⟩
  · exact ⟨z, by rw [part_setSaved_ne hp]; exact hz, hc, he, hz'⟩

end

/-! ## Jobs that run on -/

/-- Every domain is as it was. -/
def SameDomains (s t : State) : Prop := ∀ w d, (t.world w).dom d = (s.world w).dom d

/-- Whether a job waits for a page depends on the domains alone. -/
theorem pausedOn_congr {s t : State} (h : SameDomains s t) (pasid page : Nat) (j : Job) :
    pausedOn pasid page j t = pausedOn pasid page j s := by
  rw [pausedOn, h j.world j.domain, pausedOn]

theorem sameDomains_of_worlds {s t : State} (h : t.worlds = s.worlds) : SameDomains s t := fun w d => by rw [State.world_congr h]

/-- From `s`, nothing that the host, the tables or memory hold has changed in `t`. -/
structure OnlyJobs (s t : State) : Prop where
  mem : t.mem = s.mem
  hub : t.hub = s.hub
  worlds : t.worlds = s.worlds

section
variable {pasid page : Nat} {put : Job → State → State} {c e : Nat} {j : Job} {s t : State}

theorem resumeOn_of_paused (h : pausedOn pasid page j s = true) : resumeOn pasid page put c e j s = put (resumeJob j) s := if_pos h

theorem OnlyJobs.paused (h : OnlyJobs s t) (j : Job) : pausedOn pasid page j t = pausedOn pasid page j s :=
  pausedOn_congr (sameDomains_of_worlds h.worlds) ..

/-- What the answer to a page request keeps of a job that it lets run on, if it does. -/
theorem resumeOn_keeps {P : State → Prop} (hput : P (put (resumeJob j) s)) (h : P s) : P (resumeOn pasid page put c e j s) := by
  unfold resumeOn
  split
  · exact hput
  · exact h

theorem OnlyJobs.trans {u : State} (h : OnlyJobs s t) (g : OnlyJobs t u) : OnlyJobs s u :=
  ⟨g.mem.trans h.mem, g.hub.trans h.hub, g.worlds.trans h.worlds⟩

theorem onlyJobs_setJob (c e : Nat) (j : Job) (s : State) : OnlyJobs s (setJob c e j s) := ⟨rfl, rfl, rfl⟩
theorem onlyJobs_setSaved (p c e : Nat) (j : Job) (s : State) : OnlyJobs s (setSaved p c e j s) := ⟨rfl, rfl, rfl⟩

theorem OnlyJobs.resumeJob_engine (h : OnlyJobs s t) (c e : Nat) (j : Job) : OnlyJobs s (resumeOn pasid page (setJob c e) c e j t) :=
  resumeOn_keeps (h.trans (onlyJobs_setJob ..)) h

theorem OnlyJobs.resumeJob_saved (h : OnlyJobs s t) (p i k c e : Nat) (j : Job) :
    OnlyJobs s (resumeOn pasid page (setSaved p i k) c e j t) :=
  resumeOn_keeps (h.trans (onlyJobs_setSaved ..)) h

theorem onlyJobs_everyJob_resumeOn (s : State) : OnlyJobs s (everyJob (resumeOn pasid page) s) :=
  everyJob_keeps_each (fun c e j _ h => h.resumeJob_engine c e j) (fun p c e c' e' j _ h => h.resumeJob_saved p c e c' e' j) ⟨rfl, rfl, rfl⟩

theorem resumeJob_state_ne_paused (j : Job) : (resumeJob j).state ≠ .paused := by
  unfold resumeJob
  split <;> simp

theorem jobAt_resumeOn (i k : Nat) : jobAt c e (resumeOn pasid page (setJob i k) i k j s) =
    if pausedOn pasid page j s = true ∧ c = i ∧ e = k then some (resumeJob j) else jobAt c e s := by
  by_cases h : pausedOn pasid page j s = true
  · rw [resumeOn_of_paused h, jobAt_setJob_any]
    simp only [h, true_and]
  · rw [resumeOn, if_neg h, if_neg fun hc => h hc.1]

/-- The jobs of the engines run on; those of the save areas come after them. -/
def resumeEngines (pasid page : Nat) (s : State) : State := eachJob (fun c e => resumeOn pasid page (setJob c e) c e) s.clusters s

theorem everyJob_resumeOn (s : State) :
    everyJob (resumeOn pasid page) s = eachSavedIn (resumeOn pasid page) s.parts (resumeEngines pasid page s) := rfl

theorem onlyJobs_resumeEngines (s : State) : OnlyJobs s (resumeEngines pasid page s) :=
  eachJob_keeps (fun c e j _ h => h.resumeJob_engine c e j) _ _ ⟨rfl, rfl, rfl⟩

theorem resumeEngines_parts (s : State) : (resumeEngines pasid page s).parts = s.parts :=
  eachJob_keeps (P := fun u => u.parts = s.parts) (fun _ _ _ _ hu => resumeOn_keeps (P := fun u => u.parts = s.parts) hu hu) _ _ rfl

theorem everyJob_resumeOn_clusters (s : State) : (everyJob (resumeOn pasid page) s).clusters = (resumeEngines pasid page s).clusters :=
  eachSavedIn_keeps (P := fun u => u.clusters = (resumeEngines pasid page s).clusters)
    (fun _ _ _ _ _ _ _ hu => resumeOn_keeps (P := fun u => u.clusters = (resumeEngines pasid page s).clusters) hu hu) _ _ rfl

/-- The job at a place runs on in `t` as one that was paused in `s` in an entry of that place. -/
def RunsOn (pasid page c e : Nat) (s t : State) : Prop :=
  ∃ x ∈ entriesOf s.clusters, x.1 = c ∧ x.2.1 = e ∧ pausedOn pasid page x.2.2 s = true ∧ jobAt c e t = some (resumeJob x.2.2)

/-- A paused job of an engine runs on. -/
theorem runsOn_resumeEngines (hj : jobAt c e s = some j) (hp : pausedOn pasid page j s = true) :
    RunsOn pasid page c e s (resumeEngines pasid page s) := by
  rw [resumeEngines, eachJob_eq_foldl]
  refine foldl_reaches (I := OnlyJobs s) (fun u hu y _ => hu.resumeJob_engine ..) (fun u hu ⟨x, hx, hc, he, hxp, hxj⟩ y hy => ?_)
    (mem_entriesOf_of_jobAt hj) (fun u hu => ?_) ⟨rfl, rfl, rfl⟩
  · by_cases h : pausedOn pasid page y.2.2 u = true ∧ c = y.1 ∧ e = y.2.1
    · exact ⟨y, hy, h.2.1.symm, h.2.2.symm, (hu.paused _).symm.trans h.1, by rw [jobAt_resumeOn, if_pos h]⟩
    · exact ⟨x, hx, hc, he, hxp, by rw [jobAt_resumeOn, if_neg h, hxj]⟩
  · exact ⟨(c, e, j), mem_entriesOf_of_jobAt hj, rfl, rfl, hp, by rw [jobAt_resumeOn, if_pos ⟨(hu.paused _).trans hp, rfl, rfl⟩]⟩

theorem jobAt_everyJob_resumeOn (hj : jobAt c e s = some j) (hp : pausedOn pasid page j s = true) :
    ∃ x ∈ s.clusters, x.1 = c ∧ ∃ y ∈ x.2.engine.entries, y.1 = e ∧ pausedOn pasid page y.2 s = true ∧
      jobAt c e (everyJob (resumeOn pasid page) s) = some (resumeJob y.2) := by
  obtain ⟨x, hx, hc, he, hxp, hxj⟩ := runsOn_resumeEngines hj hp
  obtain ⟨k, hk, hxk⟩ := List.mem_flatMap.mp hx
  obtain ⟨y, hy, rfl⟩ := List.mem_map.mp hxk
  exact ⟨k, hk, hc, y, hy, he, hxp, by rw [jobAt_congr (everyJob_resumeOn_clusters s), hxj]⟩

/-- A paused job that stands in a save area is no longer paused. -/
theorem saved_everyJob_resumeOn {p : Nat} {y : SavedJob} (hy : y ∈ (s.part p).savedJobs) (hp : pausedOn pasid page y.job s = true) :
    savedWith p y.cluster y.entry (fun j => j.state ≠ .paused) (everyJob (resumeOn pasid page) s) := by
  have hpart : (resumeEngines pasid page s).part p = s.part p := by
    rw [State.part, resumeEngines_parts]
    rfl
  rw [everyJob_resumeOn, eachSavedIn_eq_foldl]
  refine foldl_reaches (I := fun u => OnlyJobs s u ∧ savedWith p y.cluster y.entry (fun _ => True) u) (fun u hu x _ => ?_)
    (fun u _ hs x _ => ?_) (mem_savedOf_of_part hy) (fun u hu => ?_) ⟨onlyJobs_resumeEngines s, y, hpart ▸ hy, rfl, rfl, trivial⟩
  · exact ⟨hu.1.resumeJob_saved .., resumeOn_keeps (savedWith_kept _ _ _ hu.2 trivial) hu.2⟩
  · exact resumeOn_keeps (savedWith_kept _ _ _ hs (resumeJob_state_ne_paused _)) hs
  · rw [resumeOn_of_paused ((hu.1.paused _).trans hp)]
    exact savedWith_setSaved hu.2 (resumeJob_state_ne_paused _)

end

end Sys2Proof.Machine
end

section
/-! Translation (O56): the jobs that a failed page request ends. -/

namespace Sys2Proof.Machine

open Sys2Proof

/-! ## What a job that stops keeps -/

section
variable {P : State → Prop} {put : Job → State → State} {c e : Nat} {j : Job} {kind : BitVec 8} {f : FaultInfo} {s : State}

/-- A job that stops without a page request keeps what its parts keep: its bitmap record, its place, the hub's log, its fault record. -/
theorem stopJob_keeps (hput : ∀ j u, P u → P (put j u)) (hpush : ∀ w r u, P u → P (u.pushFault w r))
    (hhost : ∀ f u, f.pri = none → P u → P (u.hostFault f)) (hpoke : ∀ p off bs u, P u → P (u.pokeMem (paSave p off) bs))
    (hf : f.pri = none) (h : P s) : P (stopJob put c e j kind f s) := by
  have hrecord : ∀ y u, P u → P (writeJobRecord put c e y u) := fun y u hu => hput _ _ (hpush _ _ _ hu)
  have hstop : ∀ y u, P u → P ((put y u).hostFault { f with pri := none }) := fun y u hu => hhost _ _ rfl (hput _ _ hu)
  have hpause : ∀ x, P (pauseJob c e x s).2 := fun x => hpoke _ _ _ _ h
  simp only [stopJob, hf]
  split <;> split
  · exact hstop _ _ (hpause _)
  · exact hstop _ _ h
  · exact hrecord _ _ (hstop _ _ (hpause _))
  · exact hrecord _ _ (hstop _ _ h)

end

/-! ## What ending jobs leaves of the rest -/

theorem State.world_modWorld_any (s : State) (w v : Nat) (f : World → World) :
    (s.modWorld w f).world v = if v = w then f (s.world w) else s.world v := by
  by_cases h : v = w
  · rw [h, if_pos rfl, State.world_modWorld]
  · rw [if_neg h]
    exact NMap.getD_set_ne _ _ _ h

theorem sameDomains_pushFault (s : State) (w : Nat) (r : FaultRec) : SameDomains s (s.pushFault w r) := fun v d => by
  rw [State.pushFault, State.world_modWorld_any]
  split
  next h => subst h; rfl
  · rfl

/-- A write into a save area leaves every byte below the save areas as it is. -/
theorem byteAt_pokeMem_save {a : Nat} (h : a < 6 * regionSize) (p off : Nat) (bs : List Byte) (s : State) :
    (s.pokeMem (paSave p off) bs).byteAt a = s.byteAt a := by
  refine Cells.get_write_outside _ _ _ _ (.inl ?_)
  have hsave : 6 * regionSize ≤ (6 + p) * regionSize := Nat.mul_le_mul_right _ (by omega)
  unfold paSave
  omega

/-- From `s`, jobs have ended in `t`: the page requests and the domains are as they were, and so is memory below the save areas. -/
structure EndsJobs (s t : State) : Prop where
  priFailed : t.hub.priFailed = s.hub.priFailed
  priOut : t.hub.priOut = s.hub.priOut
  domains : SameDomains s t
  bytes : ∀ a, a < 6 * regionSize → t.byteAt a = s.byteAt a

section
variable {pasid page : Nat} {put : Job → State → State} {c e : Nat} {j : Job} {kind : BitVec 8} {addr : Word64} {f : FaultInfo} {s t u : State}

theorem EndsJobs.refl (s : State) : EndsJobs s s := ⟨rfl, rfl, fun _ _ => rfl, fun _ _ => rfl⟩

theorem EndsJobs.trans (h : EndsJobs s t) (g : EndsJobs t u) : EndsJobs s u :=
  ⟨g.priFailed.trans h.priFailed, g.priOut.trans h.priOut, fun w d => (g.domains w d).trans (h.domains w d),
    fun a ha => (g.bytes a ha).trans (h.bytes a ha)⟩

theorem OnlyJobs.endsJobs (h : OnlyJobs s t) : EndsJobs s t :=
  ⟨by rw [h.hub], by rw [h.hub], sameDomains_of_worlds h.worlds, fun a _ => sameBytes_of_mem h.mem a⟩

theorem EndsJobs.stops (h : EndsJobs s t) (hput : ∀ j u, OnlyJobs u (put j u)) (hf : f.pri = none) :
    EndsJobs s (stopJob put c e j kind f t) :=
  stopJob_keeps (fun j u hu => hu.trans (hput j u).endsJobs)
    (fun w r u hu => hu.trans ⟨rfl, rfl, sameDomains_pushFault u w r, fun _ _ => rfl⟩)
    (fun f u hf hu => hu.trans ⟨rfl, by simp only [State.hostFault, State.modHub_hub, hf], fun _ _ => rfl, fun _ _ => rfl⟩)
    (fun p off bs u hu => hu.trans ⟨rfl, rfl, fun _ _ => rfl, fun a ha => byteAt_pokeMem_save ha p off bs u⟩) hf h

/-! ## The jobs of a failed page -/

theorem failJob_of_paused (h : pausedOn pasid page j s = true) :
    failJob pasid page put c e j s = stopJob put c e j j.faultKind (plainFault 0x12 j.faultAddr) s := if_pos h

theorem failJob_of_not_paused (h : pausedOn pasid page j s = false) : failJob pasid page put c e j s = s :=
  if_neg (Bool.eq_false_iff.mp h)

/-- What the failure of a page request keeps of a job that it ends, if it does. -/
theorem failJob_keeps {P : State → Prop} (hstop : P (stopJob put c e j j.faultKind (plainFault 0x12 j.faultAddr) s)) (h : P s) :
    P (failJob pasid page put c e j s) := by
  unfold failJob
  split
  · exact hstop
  · exact h

theorem EndsJobs.failJob_engine (h : EndsJobs s t) (c e : Nat) (j : Job) : EndsJobs s (failJob pasid page (setJob c e) c e j t) :=
  failJob_keeps (h.stops (onlyJobs_setJob c e) rfl) h

theorem EndsJobs.failJob_saved (h : EndsJobs s t) (p i k c e : Nat) (j : Job) : EndsJobs s (failJob pasid page (setSaved p i k) c e j t) :=
  failJob_keeps (h.stops (onlyJobs_setSaved p i k) rfl) h

theorem endsJobs_everyJob_failJob (s : State) : EndsJobs s (everyJob (failJob pasid page) s) :=
  everyJob_keeps_each (fun c e j _ h => h.failJob_engine c e j) (fun p c e c' e' j _ h => h.failJob_saved p c e c' e' j) (.refl s)

theorem stopJob_setSaved_clusters (p i k : Nat) : (stopJob (setSaved p i k) c e j kind (plainFault 0x12 addr) s).clusters = s.clusters :=
  stopJob_keeps (P := fun u => u.clusters = s.clusters) (fun _ _ h => h) (fun _ _ _ h => h) (fun _ _ _ h => h) (fun _ _ _ _ h => h) rfl rfl

/-- The jobs of the engines that wait for the page end; those of the save areas come after them. -/
def failEngines (pasid page : Nat) (s : State) : State := eachJob (fun c e => failJob pasid page (setJob c e) c e) s.clusters s

/-- A job of an engine, given with its place, ends FAULTED with code 0x12 (R345). -/
def endEntry (s : State) (x : Nat × Nat × Job) : State :=
  stopJob (setJob x.1 x.2.1) x.1 x.2.1 x.2.2 x.2.2.faultKind (plainFault 0x12 x.2.2.faultAddr) s

theorem foldl_failJob (l : List (Nat × Nat × Job)) : ∀ t, EndsJobs s t →
    l.foldl (fun u x => failJob pasid page (setJob x.1 x.2.1) x.1 x.2.1 x.2.2 u) t =
      (l.filter fun x => pausedOn pasid page x.2.2 s).foldl endEntry t := by
  induction l with
  | nil => exact fun _ _ => rfl
  | cons x r ih =>
    intro t ht
    have hcongr : pausedOn pasid page x.2.2 t = pausedOn pasid page x.2.2 s := pausedOn_congr ht.domains ..
    rw [List.foldl_cons, ih _ (ht.failJob_engine ..)]
    cases hx : pausedOn pasid page x.2.2 s with
    | true =>
      rw [List.filter_cons_of_pos (by exact hx), List.foldl_cons, failJob_of_paused (hcongr.trans hx)]
      rfl
    | false => rw [List.filter_cons_of_neg (by rw [hx]; decide), failJob_of_not_paused (hcongr.trans hx)]

/-- Of the jobs of the engines, those that wait for the page end, one after the other, and no other. -/
theorem failEngines_eq_foldl (s : State) : failEngines pasid page s =
    ((entriesOf s.clusters).filter fun x => pausedOn pasid page x.2.2 s).foldl endEntry s := by
  rw [failEngines, eachJob_eq_foldl, foldl_failJob _ _ (.refl s)]

theorem everyJob_failJob_clusters (s : State) : (everyJob (failJob pasid page) s).clusters = (failEngines pasid page s).clusters :=
  eachSavedIn_keeps (P := fun u => u.clusters = (failEngines pasid page s).clusters) (fun _ _ _ _ _ _ _ hu =>
    failJob_keeps (P := fun u => u.clusters = (failEngines pasid page s).clusters) ((stopJob_setSaved_clusters ..).trans hu) hu) _ _ rfl

/-- Where one job of the engines waits for the page and its world's fault queue has room, it is FAULTED with code 0x12 (R345). -/
theorem jobAt_everyJob_failJob (hroom : s.faultQueueFull j.world = false)
    (hone : ((entriesOf s.clusters).filter fun x => pausedOn pasid page x.2.2 s) = [(c, e, j)]) :
    ∃ y, jobAt c e (everyJob (failJob pasid page) s) = some y ∧ y.state = .faulted ∧ y.fault = 0x12 := by
  have hstops : Stops c e j.faultKind (plainFault 0x12 j.faultAddr) j s (endEntry s (c, e, j)) := stopJob_stops hroom
  have hend : failEngines pasid page s = endEntry s (c, e, j) := by rw [failEngines_eq_foldl, hone, List.foldl_cons, List.foldl_nil]
  rw [jobAt_congr (everyJob_failJob_clusters s), hend]
  exact ⟨_, (hstops.faulted rfl).1, rfl, rfl⟩

end

/-! ## PRI_RESPONSE (R344, R345) -/

theorem exec_priResponse (pasid page : Nat) (code : PriCode) (s : State) :
    exec (.priResponse pasid page code) s = happen (tryPriResponse pasid page code s) s := rfl

/-- The hub remembers that the request for a page has failed. -/
def rememberFailure (key : Nat × Nat) (h : Hub) : Hub := { h with priFailed := h.priFailed.filter (· != key) ++ [key] }

theorem not_mem_filter_ne (key : Nat × Nat) (l : List (Nat × Nat)) : key ∉ l.filter (· != key) := by simp

theorem endPri_priOut {key : Nat × Nat} {h : Hub} (hq : key ∉ h.priQueue) : key ∉ (endPri key h).priOut := by
  simp only [endPri]
  split
  next k hk =>
    have hne : key ≠ k := fun he => hq (he ▸ List.mem_of_find?_eq_some hk)
    simp [hne]
  next => exact not_mem_filter_ne key h.priOut

section
variable {pasid page : Nat} {s : State}

theorem tryPriResponse_of_none (code : PriCode) (h : (pasid, page) ∉ s.hub.priOut) : tryPriResponse pasid page code s = none := by
  simp [tryPriResponse, h]

theorem tryPriResponse_success (h : (pasid, page) ∈ s.hub.priOut) : tryPriResponse pasid page .success s =
    some (everyJob (resumeOn pasid page) (s.modHub fun x => forgetPage (pasid, page) (endPri (pasid, page) x))) := by
  simp [tryPriResponse, h, State.modHub]

theorem tryPriResponse_failure {code : PriCode} (h : (pasid, page) ∈ s.hub.priOut) (hc : code ≠ .success) :
    tryPriResponse pasid page code s =
      some (everyJob (failJob pasid page) (s.modHub fun x => rememberFailure (pasid, page) (endPri (pasid, page) x))) := by
  cases code with
  | success => exact absurd rfl hc
  | invalidRequest => simp [tryPriResponse, h, State.modHub, rememberFailure]
  | responseFailure => simp [tryPriResponse, h, State.modHub, rememberFailure]

/-- An answer to no outstanding request is discarded (R354). -/
theorem happens_priResponse_of_none (h : (pasid, page) ∉ s.hub.priOut) (code : PriCode) : Happens (.priResponse pasid page code) s (· = s) :=
  ⟨s, by rw [exec_priResponse, tryPriResponse_of_none code h]; rfl, rfl⟩

theorem happens_priResponse_success (h : (pasid, page) ∈ s.hub.priOut) : Happens (.priResponse pasid page .success) s fun t =>
    (pasid, page) ∉ t.hub.noAnswer ∧ (pasid, page) ∉ t.hub.priFailed ∧ SameBytes s t ∧
    ((pasid, page) ∉ s.hub.priQueue → (pasid, page) ∉ t.hub.priOut) ∧
    (∀ c e j, jobAt c e s = some j → pausedOn pasid page j s = true → ∃ x ∈ s.clusters, x.1 = c ∧ ∃ y ∈ x.2.engine.entries,
      y.1 = e ∧ pausedOn pasid page y.2 s = true ∧ jobAt c e t = some (resumeJob y.2)) ∧
    ∀ p, ∀ y ∈ (s.part p).savedJobs, pausedOn pasid page y.job s = true →
      ∃ z ∈ (t.part p).savedJobs, z.cluster = y.cluster ∧ z.entry = y.entry ∧ z.job.state ≠ .paused := by
  have hjobs := onlyJobs_everyJob_resumeOn (pasid := pasid) (page := page)
    (s.modHub fun x => forgetPage (pasid, page) (endPri (pasid, page) x))
  refine Happens.of_some (exec_priResponse ..) (tryPriResponse_success h) ⟨?_, ?_, sameBytes_of_mem hjobs.mem, fun hq => ?_,
    fun c e j hj hp => jobAt_everyJob_resumeOn (s := s.modHub _) hj hp, fun p y hy hp => saved_everyJob_resumeOn (s := s.modHub _) hy hp⟩
  · rw [hjobs.hub]
    exact not_mem_filter_ne _ _
  · rw [hjobs.hub]
    exact not_mem_filter_ne _ _
  · rw [hjobs.hub]
    exact endPri_priOut hq

theorem faultQueueFull_of_empty {w : Nat} (h : (s.world w).faultQ = []) : s.faultQueueFull w = false := by
  rw [State.faultQueueFull, h]
  rfl

theorem happens_priResponse_failure {code : PriCode} (h : (pasid, page) ∈ s.hub.priOut) (hc : code ≠ .success) :
    Happens (.priResponse pasid page code) s fun t =>
      (pasid, page) ∈ t.hub.priFailed ∧ ((pasid, page) ∉ s.hub.priQueue → (pasid, page) ∉ t.hub.priOut) ∧
      (∀ a, a < 6 * regionSize → t.byteAt a = s.byteAt a) ∧
      ∀ c e j, jobAt c e s = some j → (s.world j.world).faultQ = [] →
        ((entriesOf s.clusters).filter fun x => pausedOn pasid page x.2.2 s) = [(c, e, j)] →
        ∃ y, jobAt c e t = some y ∧ y.state = .faulted ∧ y.fault = 0x12 := by
  have hjobs := endsJobs_everyJob_failJob (pasid := pasid) (page := page)
    (s.modHub fun x => rememberFailure (pasid, page) (endPri (pasid, page) x))
  refine Happens.of_some (exec_priResponse ..) (tryPriResponse_failure h hc) ⟨?_, fun hq => ?_, hjobs.bytes,
    fun c e j _ hroom hone => jobAt_everyJob_failJob (s := s.modHub _) (faultQueueFull_of_empty hroom) hone⟩
  · rw [hjobs.priFailed]
    exact List.mem_append_right _ List.mem_cons_self
  · rw [hjobs.priOut]
    exact endPri_priOut hq

end

end Sys2Proof.Machine
end

section
/-! Translation (O56): answers to translation requests, invalidations, table entries, returned frames, and the statement. -/

namespace Sys2Proof.Machine

open Sys2Proof

/-! ## ATS_RESPONSE (R344, R346, R393) -/

theorem exec_atsResponse_of_held {pasid page : Nat} {s : State} (h : answerHeld pasid page s = true) (a : AtsAnswer) :
    exec (.atsResponse pasid page a) s = .next { s with inputs := .atsResponse pasid page a :: s.inputs } := if_pos h

theorem exec_atsResponse_of_free {pasid page : Nat} {s : State} (h : answerHeld pasid page s = false) (a : AtsAnswer) :
    exec (.atsResponse pasid page a) s = happen (tryAtsResponse pasid page a s) s := if_neg (Bool.eq_false_iff.mp h)

/-- An answer that an invalidation has overtaken waits for no record-mode log. -/
theorem answerHeld_of_stale {pasid page : Nat} {s : State} (h : (pasid, page) ∈ s.hub.atsStale) : answerHeld pasid page s = false := by
  simp [answerHeld, h]

@[simp] theorem State.modThread_hub (s : State) (t : Nat) (f : Thread → Thread) : (s.modThread t f).hub = s.hub := by
  unfold State.modThread
  split <;> rfl

@[simp] theorem State.noteArrival_atsOut (t : Nat) (v : Arrival) (s : State) : (s.noteArrival t v).hub.atsOut = s.hub.atsOut := by
  unfold State.noteArrival
  repeat' split
  all_goals simp [State.logEvent]

@[simp] theorem noteAnswers_atsOut (pasid page : Nat) (l : List Thread) (s : State) : (noteAnswers pasid page l s).hub.atsOut = s.hub.atsOut := by
  induction l generalizing s with
  | nil => rfl
  | cons h r ih =>
    rw [noteAnswers, ih]
    split
    · exact State.noteArrival_atsOut ..
    · rfl

/-- A translation enters the hub's cache in place of what that holds for the page, and the hub forgets the page's failures. -/
def enterCache (x : AtcEntry) (h : Hub) : Hub :=
  { forgetPage (x.pasid, x.page) h with atc := x :: h.atc.filter fun e => !(e.pasid == x.pasid && e.page == x.page) }

theorem enterCache_atsOut (x : AtcEntry) (h : Hub) : (enterCache x h).atsOut = h.atsOut := rfl

theorem enterCache_find (x : AtcEntry) (h : Hub) : (enterCache x h).atc.find? (fun e => e.pasid == x.pasid && e.page == x.page) = some x :=
  List.find?_cons_of_pos (by simp)

/-- The threads that wait for the answer to a request have noted it, and the request is out no more. -/
def answered (pasid page : Nat) (s : State) : State :=
  noteAnswers pasid page s.threads (s.modHub fun h => { h with atsOut := h.atsOut.filter (· != (pasid, page)) })

section
variable {pasid page : Nat} {s : State}

@[simp] theorem answered_mem : (answered pasid page s).mem = s.mem := noteAnswers_mem ..

theorem answered_atsOut : (pasid, page) ∉ (answered pasid page s).hub.atsOut := by
  rw [answered, noteAnswers_atsOut]
  exact not_mem_filter_ne _ _

theorem tryAtsResponse_of_stale (h : (pasid, page) ∈ s.hub.atsStale) (a : AtsAnswer) :
    tryAtsResponse pasid page a s = some (s.modHub fun x => { x with atsStale := x.atsStale.erase (pasid, page) }) := by
  simp [tryAtsResponse, h]

theorem tryAtsResponse_translation (ho : (pasid, page) ∈ s.hub.atsOut) (hs : (pasid, page) ∉ s.hub.atsStale) (frame : Nat) (r w : Bool) :
    tryAtsResponse pasid page (.translation frame r w) s =
      some ((answered pasid page s).modHub (enterCache ⟨pasid, page, frame, r, w⟩)) := by
  simp [tryAtsResponse, answered, ho, hs, State.modHub, enterCache]

theorem tryAtsResponse_notPresent (ho : (pasid, page) ∈ s.hub.atsOut) (hs : (pasid, page) ∉ s.hub.atsStale) :
    tryAtsResponse pasid page .notPresent s = some ((answered pasid page s).modHub fun h => { h with
      noAnswer := h.noAnswer.filter (· != (pasid, page)) ++ [(pasid, page)] }) := by
  simp [tryAtsResponse, answered, ho, hs]

theorem happens_atsResponse_of_stale (h : (pasid, page) ∈ s.hub.atsStale) (a : AtsAnswer) : Happens (.atsResponse pasid page a) s fun t =>
    t = s.modHub fun x => { x with atsStale := s.hub.atsStale.erase (pasid, page) } :=
  Happens.of_some (exec_atsResponse_of_free (answerHeld_of_stale h) a) (tryAtsResponse_of_stale h a) rfl

theorem happens_atsResponse_translation (ho : (pasid, page) ∈ s.hub.atsOut) (hs : (pasid, page) ∉ s.hub.atsStale)
    (hh : answerHeld pasid page s = false) (frame : Nat) (r u : Bool) :
    Happens (.atsResponse pasid page (.translation frame r u)) s fun t => (pasid, page) ∉ t.hub.atsOut ∧
      t.hub.atc.find? (fun e => e.pasid == pasid && e.page == page) = some ⟨pasid, page, frame, r, u⟩ ∧ SameBytes s t := by
  refine Happens.of_some (exec_atsResponse_of_free hh _) (tryAtsResponse_translation ho hs frame r u)
    ⟨?_, enterCache_find ⟨pasid, page, frame, r, u⟩ _, sameBytes_of_mem ((State.modHub_mem ..).trans answered_mem)⟩
  rw [State.modHub_hub, enterCache_atsOut]
  exact answered_atsOut

theorem happens_atsResponse_notPresent (ho : (pasid, page) ∈ s.hub.atsOut) (hs : (pasid, page) ∉ s.hub.atsStale)
    (hh : answerHeld pasid page s = false) : Happens (.atsResponse pasid page .notPresent) s fun t =>
      (pasid, page) ∉ t.hub.atsOut ∧ (pasid, page) ∈ t.hub.noAnswer ∧ SameBytes s t :=
  Happens.of_some (exec_atsResponse_of_free hh _) (tryAtsResponse_notPresent ho hs)
    ⟨answered_atsOut, List.mem_append_right _ List.mem_cons_self, sameBytes_of_mem answered_mem⟩

end

/-! ## Invalidations (R343, R346) -/

theorem exec_invalidationCompletion (pasid page : Nat) (s : State) :
    exec (.invalidationCompletion pasid page) s = happen (tryInvalidationCompletion pasid page s) s := rfl

theorem tryInvalidationCompletion_of_mem {pasid page : Nat} {s : State} (h : (pasid, page) ∈ s.hub.invOut) :
    tryInvalidationCompletion pasid page s = some (s.modHub fun x => { x with invOut := x.invOut.erase (pasid, page) }) := by
  simp [tryInvalidationCompletion, h]

theorem happens_atsInvalidation (pasid page : Nat) (s : State) : Happens (.atsInvalidation pasid page) s fun t =>
    t.hub.atc.find? (fun e => e.pasid == pasid && e.page == page) = none ∧ (pasid, page) ∉ t.hub.noAnswer ∧
    (pasid, page) ∈ t.hub.invOut ∧ (pasid, page) ∉ t.hub.atsOut ∧ ((pasid, page) ∈ s.hub.atsOut → (pasid, page) ∈ t.hub.atsStale) ∧
    t.hub.priFailed = s.hub.priFailed ∧ SameBytes s t := by
  refine ⟨_, rfl, List.find?_eq_none.mpr fun e he => ?_, not_mem_filter_ne _ _, List.mem_append_right _ List.mem_cons_self,
    not_mem_filter_ne _ _, fun ho => List.mem_append_right _ (List.mem_filter.mpr ⟨ho, beq_self_eq_true _⟩), rfl, fun _ => rfl⟩
  exact Bool.eq_false_iff.mp (Bool.not_eq_true' _ ▸ (List.mem_filter.mp he).2)

theorem happens_invalidationCompletion {pasid page : Nat} {s : State} (h : (pasid, page) ∈ s.hub.invOut) :
    Happens (.invalidationCompletion pasid page) s fun t => t.hub.invOut = s.hub.invOut.erase (pasid, page) ∧ SameBytes s t :=
  Happens.of_some (exec_invalidationCompletion ..) (tryInvalidationCompletion_of_mem h) ⟨rfl, fun _ => rfl⟩

theorem happens_translationInvalidation (w a : Nat) (v : Word64) (s : State) : Happens (.translationInvalidation w a v) s fun t =>
    SameBytes s t ∧ ∀ k, NMap.get? (t.world w).ptes k = if k = a / 8 * 8 then some v else NMap.get? (s.world w).ptes k :=
  ⟨s.setPte w (a / 8 * 8) v, rfl, fun _ => rfl, fun k => by rw [State.setPte, State.world_modWorld, NMap.get?_set]⟩

/-! ## PGFREE_FRAME_PUSH (R142) -/

theorem Cells.get_clear (m : List Host.Cell) (a n x : Nat) : Cells.get (Cells.clear m a n) x = if a ≤ x ∧ x < a + n then 0 else Cells.get m x := by
  induction m with
  | nil => simp [Cells.clear, Cells.get, unlisted]
  | cons c r ih =>
    obtain ⟨b, v⟩ := c
    unfold Cells.clear at ih ⊢
    by_cases hb : b < a ∨ a + n ≤ b
    · rw [List.filter_cons_of_pos (by simpa using hb)]
      simp only [Cells.get, ih]
      split
      · rw [if_neg (by omega)]
      · rfl
    · rw [List.filter_cons_of_neg (by simpa using hb), ih]
      by_cases hx : a ≤ x ∧ x < a + n
      · rw [if_pos hx, if_pos hx]
      · rw [if_neg hx, if_neg hx, Cells.get, if_neg (by omega)]

theorem State.byteAt_zeroFill (s : State) (a n x : Nat) : (s.zeroFill a n).byteAt x = if a ≤ x ∧ x < a + n then 0 else s.byteAt x :=
  Cells.get_clear ..

theorem exec_pgfreeFramePush (w : Nat) (s : State) : exec (.pgfreeFramePush w) s = happen (tryPgfreeFramePush w s) s := rfl

/-- The stack of its size takes a frame. -/
def takeFrame (f : FreeFrame) (x : World) : World := match f.size.toNat with
  | 0 => { x with free64k := f.frame :: x.free64k }
  | 1 => { x with free32m := f.frame :: x.free32m }
  | _ => { x with free16g := f.frame :: x.free16g }

theorem takeFrame_freeing (f : FreeFrame) (x : World) : (takeFrame f x).freeing = x.freeing := by
  unfold takeFrame
  split <;> rfl

section
variable {w : Nat} {f : FreeFrame} {s : State}

theorem pushFrame_byteAt (x : Nat) : (pushFrame w f s).byteAt x =
    if paDevice f.frame ≤ x ∧ x < paDevice f.frame + pageBytes (f.size.toNat + 1) then 0 else s.byteAt x := State.byteAt_zeroFill ..

theorem pushFrame_world : (pushFrame w f s).world w = takeFrame f (s.world w) := State.world_modWorld ..

theorem tryPgfreeFramePush_of_free {r : List FreeFrame} (h : (s.world w).freeing = f :: r) (hh : frameHeld f s = false) :
    tryPgfreeFramePush w s = some (pushFrame w f (s.modWorld w fun x => { x with freeing := r })) := by
  simp [tryPgfreeFramePush, h, hh]

theorem happens_pgfreeFramePush {r : List FreeFrame} (h : (s.world w).freeing = f :: r) (hh : frameHeld f s = false) :
    Happens (.pgfreeFramePush w) s fun t => (t.world w).freeing = r ∧
      (∀ x, t.byteAt x = if paDevice f.frame ≤ x ∧ x < paDevice f.frame + pageBytes (f.size.toNat + 1) then 0 else s.byteAt x) ∧
      (f.size = 0 → (t.world w).free64k = f.frame :: (s.world w).free64k) ∧
      (f.size = 1 → (t.world w).free32m = f.frame :: (s.world w).free32m) ∧
      (f.size = 2 → (t.world w).free16g = f.frame :: (s.world w).free16g) := by
  have hworld : (pushFrame w f (s.modWorld w fun x => { x with freeing := r })).world w =
      takeFrame f { s.world w with freeing := r } := by rw [pushFrame_world, State.world_modWorld]
  refine Happens.of_some (exec_pgfreeFramePush w s) (tryPgfreeFramePush_of_free h hh) ⟨?_, fun x => pushFrame_byteAt x, ?_, ?_, ?_⟩
  · rw [hworld, takeFrame_freeing]
  all_goals
    intro hsize
    rw [hworld, takeFrame, hsize]
    rfl

end

/-! ## The statement -/

/-- Settles O56: one lemma for each event of the translation. -/
theorem translationEvents : Obligations.TranslationEvents := by
  unfold Obligations.TranslationEvents
  intro w pasid page s key here
  exact ⟨happens_priResponse_of_none, fun h => ⟨happens_priResponse_success h, fun _ => happens_priResponse_failure h⟩,
    fun _ hh a => ⟨_, exec_atsResponse_of_held hh a, rfl⟩, happens_atsResponse_of_stale,
    fun ho hs hh => ⟨happens_atsResponse_translation ho hs hh, happens_atsResponse_notPresent ho hs hh⟩,
    happens_atsInvalidation pasid page s, happens_invalidationCompletion, fun a v => happens_translationInvalidation w a v s,
    fun _ _ => happens_pgfreeFramePush⟩

end Sys2Proof.Machine
end

section
/-! Integer words (O1). -/

namespace Sys2Proof.Machine

open Sys2Proof

/-! ## Integer words (R123, R124) -/

theorem gives_intWord {i : Instr} {s : State} {d : RegNum} {v w : Word64} (h : exec i s = intWord d v s) (hv : v = w) :
    Gives i s d (Cap.ofInt w) := by
  subst hv; exact Gives.of_writeReg h

theorem shiftLeft_eq_ofNat (x : Word64) (k : Nat) : x <<< k = BitVec.ofNat 64 (x.toNat * 2 ^ k) := by
  apply BitVec.eq_of_toNat_eq
  simp [Nat.shiftLeft_eq]

theorem shiftRight_eq_ofNat (x : Word64) (k : Nat) : x >>> k = BitVec.ofNat 64 (x.toNat / 2 ^ k) := by
  rw [← Nat.shiftRight_eq_div_pow, ← BitVec.toNat_ushiftRight, BitVec.ofNat_toNat, BitVec.setWidth_eq]

theorem sshiftRight_eq_ofInt (x : Word64) (k : Nat) : x.sshiftRight k = BitVec.ofInt 64 (x.toInt / 2 ^ k) := by
  rw [BitVec.sshiftRight, Int.shiftRight_eq_div_pow]; rfl

theorem add_eq_ofNat (x y : Word64) : x + y = BitVec.ofNat 64 (x.toNat + y.toNat) := by
  apply BitVec.eq_of_toNat_eq; simp

theorem mul_eq_ofNat (x y : Word64) : x * y = BitVec.ofNat 64 (x.toNat * y.toNat) := by
  apply BitVec.eq_of_toNat_eq; simp

theorem sub_eq_ofInt (x y : Word64) : x - y = BitVec.ofInt 64 ((x.toNat : Int) - y.toNat) := by
  apply BitVec.eq_of_toInt_eq
  rw [BitVec.toInt_sub, BitVec.toInt_ofInt, BitVec.toInt_eq_toNat_bmod, BitVec.toInt_eq_toNat_bmod]
  simp [Int.sub_bmod_bmod]

theorem ofInt_min (x y : Word64) : (if x.slt y then x else y) = BitVec.ofInt 64 (min x.toInt y.toInt) := by
  by_cases h : x.toInt < y.toInt
  · rw [if_pos (BitVec.slt_iff_toInt_lt.mpr h), min_eq_left h.le, BitVec.ofInt_toInt]
  · rw [if_neg (fun g => h (BitVec.slt_iff_toInt_lt.mp g)), min_eq_right (not_lt.mp h), BitVec.ofInt_toInt]

theorem ofInt_max (x y : Word64) : (if x.slt y then y else x) = BitVec.ofInt 64 (max x.toInt y.toInt) := by
  by_cases h : x.toInt < y.toInt
  · rw [if_pos (BitVec.slt_iff_toInt_lt.mpr h), max_eq_right h.le, BitVec.ofInt_toInt]
  · rw [if_neg (fun g => h (BitVec.slt_iff_toInt_lt.mp g)), max_eq_left (not_lt.mp h), BitVec.ofInt_toInt]

theorem truth_slt (x y : Word64) : truth (x.slt y) = if x.toInt < y.toInt then 1 else 0 := by
  simp only [truth, BitVec.slt_iff_toInt_lt]

theorem truth_ult (x y : Word64) : truth (x.ult y) = if x.toNat < y.toNat then 1 else 0 := by
  simp only [truth, BitVec.ult_iff_lt, BitVec.lt_def]

theorem signExtend_shiftLeft_eq_ofInt {n : Nat} (o : BitVec n) (k : Nat) : o.signExtend 64 <<< k = BitVec.ofInt 64 (o.toInt * 2 ^ k) := by
  have hp : BitVec.twoPow 64 k = BitVec.ofInt 64 (2 ^ k) := by
    rw [show (2 : Int) ^ k = ((2 ^ k : Nat) : Int) by norm_cast, BitVec.ofInt_natCast]
    apply BitVec.eq_of_toNat_eq
    simp
  rw [BitVec.shiftLeft_eq_mul_twoPow, hp, BitVec.signExtend, BitVec.ofInt_mul]

/-- Settles O1: each word writes its result; the results are those of the statement by the arithmetic above. -/
theorem integerWords : Obligations.IntegerWords := by
  unfold Obligations.IntegerWords
  intro k i h n b a d s
  dsimp only
  have hz : shiftedB k b s = BitVec.ofNat 64 ((s.int b).toNat * 2 ^ k.toNat) := shiftLeft_eq_ofNat _ _
  rw [← hz]
  exact ⟨gives_intWord rfl (add_eq_ofNat ..), gives_intWord rfl (sub_eq_ofInt ..), gives_intWord rfl (mul_eq_ofNat ..),
    gives_intWord rfl rfl, gives_intWord rfl rfl, gives_intWord rfl rfl, gives_intWord rfl rfl,
    gives_intWord rfl (shiftLeft_eq_ofNat ..), gives_intWord rfl (shiftRight_eq_ofNat ..), gives_intWord rfl (sshiftRight_eq_ofInt ..),
    gives_intWord rfl (ofInt_min ..), gives_intWord rfl (ofInt_max ..), gives_intWord rfl (truth_slt ..), gives_intWord rfl (truth_ult ..),
    gives_intWord rfl (add_eq_ofNat ..), gives_intWord rfl rfl, gives_intWord rfl rfl, gives_intWord rfl rfl,
    gives_intWord rfl (shiftLeft_eq_ofNat ..), gives_intWord rfl (shiftRight_eq_ofNat ..), gives_intWord rfl (sshiftRight_eq_ofInt ..),
    gives_intWord rfl (truth_slt ..), gives_intWord rfl (signExtend_shiftLeft_eq_ofInt ..)⟩

end Sys2Proof.Machine
end

section
/-! Capability words (O2, O3). -/

namespace Sys2Proof.Machine

open Sys2Proof

/-! ## The fields of a capability that is built or changed (R78) -/

section
variable (c : Cap) (p : BitVec 9)

theorem Cap.setPerm_bits_high : (c.setPerm p).bits.extractLsb' 125 3 = c.bits.extractLsb' 125 3 := by
  apply BitVec.eq_of_getLsbD_eq
  intro i hi
  simp only [Cap.setPerm, BitVec.getLsbD_extractLsb', BitVec.getLsbD_append, hi, decide_true, Bool.true_and]
  rw [if_neg (by omega), show 125 + i - (9 + 116) = i by omega]
  simp [hi]

theorem Cap.setPerm_bits_low {j n : Nat} (h : j + n ≤ 116) : (c.setPerm p).bits.extractLsb' j n = c.bits.extractLsb' j n := by
  apply BitVec.eq_of_getLsbD_eq
  intro i hi
  simp only [Cap.setPerm, BitVec.getLsbD_extractLsb', BitVec.getLsbD_append, hi, decide_true, Bool.true_and]
  rw [if_pos (by omega)]
  simp [show j + i < 116 by omega]

@[simp] theorem Cap.setPerm_space : (c.setPerm p).space = c.space := by rw [Cap.space, Cap.setPerm_bits_high]; rfl
@[simp] theorem Cap.setPerm_gen : (c.setPerm p).gen = c.gen := by rw [Cap.gen, Cap.setPerm_bits_low _ _ (by omega)]; rfl
@[simp] theorem Cap.setPerm_expo : (c.setPerm p).expo = c.expo := by rw [Cap.expo, Cap.setPerm_bits_low _ _ (by omega)]; rfl
@[simp] theorem Cap.setPerm_mant : (c.setPerm p).mant = c.mant := by rw [Cap.mant, Cap.setPerm_bits_low _ _ (by omega)]; rfl
@[simp] theorem Cap.setPerm_lenm : (c.setPerm p).lenm = c.lenm := by rw [Cap.lenm, Cap.setPerm_bits_low _ _ (by omega)]; rfl

end

/-- The tag of a capability whose cursor moves stays only where the bounds decode alike (R81). -/
theorem Cap.moveTo_tag_iff (c : Cap) (v : Word64) :
    (c.moveTo v).tag = true ↔ c.tag = true ∧ (c.moveTo v).base = c.base ∧ (c.moveTo v).top = c.top := by
  simp only [Cap.moveTo, Bool.and_eq_true, decide_eq_true_eq, and_assoc]
  rfl

/-- A capability with the bounds fields of `cpbound`: everything else stays. -/
def Cap.withBounds (c : Cap) (e nb l : Nat) : Cap :=
  ⟨c.bits.extractLsb' 104 24 ++ (BitVec.ofNat 6 e ++ (BitVec.ofNat 17 nb ++ (BitVec.ofNat 17 l ++ c.cursor))), c.tag⟩

section
variable (c : Cap) (e nb l : Nat)

theorem Cap.withBounds_bits_high {j n : Nat} (h : 104 ≤ j) (hn : j + n ≤ 128) :
    (c.withBounds e nb l).bits.extractLsb' j n = c.bits.extractLsb' j n := by
  apply BitVec.eq_of_getLsbD_eq
  intro i hi
  simp only [Cap.withBounds, BitVec.getLsbD_extractLsb', BitVec.getLsbD_append, hi, decide_true, Bool.true_and]
  rw [if_neg (by omega), show 104 + (j + i - (6 + (17 + (17 + 64)))) = j + i by omega]
  simp [show j + i - (6 + (17 + (17 + 64))) < 24 by omega]

theorem Cap.withBounds_space : (c.withBounds e nb l).space = c.space := by rw [Cap.space, Cap.withBounds_bits_high _ _ _ _ (by omega) (by omega)]; rfl
theorem Cap.withBounds_perm : (c.withBounds e nb l).perm = c.perm := by rw [Cap.perm, Cap.withBounds_bits_high _ _ _ _ (by omega) (by omega)]; rfl
theorem Cap.withBounds_gen : (c.withBounds e nb l).gen = c.gen := by rw [Cap.gen, Cap.withBounds_bits_high _ _ _ _ (by omega) (by omega)]; rfl

theorem Cap.withBounds_cursor : (c.withBounds e nb l).cursor = c.cursor := by
  apply BitVec.eq_of_getLsbD_eq
  intro i hi
  simp only [Cap.withBounds, Cap.cursor, BitVec.getLsbD_extractLsb', BitVec.getLsbD_append, hi, decide_true, Bool.true_and, Nat.zero_add]
  rw [if_pos (by omega), if_pos (by omega), if_pos (by omega), if_pos trivial]

theorem Cap.withBounds_expo : (c.withBounds e nb l).expo = e % 2 ^ 6 := by
  have h : (c.withBounds e nb l).bits.extractLsb' 98 6 = BitVec.ofNat 6 e := by
    apply BitVec.eq_of_getLsbD_eq
    intro i hi
    simp only [Cap.withBounds, BitVec.getLsbD_extractLsb', BitVec.getLsbD_append, hi, decide_true, Bool.true_and]
    rw [if_pos (by omega), if_neg (by omega), show 98 + i - (17 + (17 + 64)) = i by omega]
  rw [Cap.expo, h, BitVec.toNat_ofNat]

theorem Cap.withBounds_mant : (c.withBounds e nb l).mant = nb % 2 ^ 17 := by
  have h : (c.withBounds e nb l).bits.extractLsb' 81 17 = BitVec.ofNat 17 nb := by
    apply BitVec.eq_of_getLsbD_eq
    intro i hi
    simp only [Cap.withBounds, BitVec.getLsbD_extractLsb', BitVec.getLsbD_append, hi, decide_true, Bool.true_and]
    rw [if_pos (by omega), if_pos (by omega), if_neg (by omega), show 81 + i - (17 + 64) = i by omega]
  rw [Cap.mant, h, BitVec.toNat_ofNat]

theorem Cap.withBounds_lenm : (c.withBounds e nb l).lenm = l % 2 ^ 17 := by
  have h : (c.withBounds e nb l).bits.extractLsb' 64 17 = BitVec.ofNat 17 l := by
    apply BitVec.eq_of_getLsbD_eq
    intro i hi
    simp only [Cap.withBounds, BitVec.getLsbD_extractLsb', BitVec.getLsbD_append, hi, decide_true, Bool.true_and]
    rw [if_pos (by omega), if_pos (by omega), if_pos (by omega), if_neg (by omega), show 64 + i - 64 = i by omega]
  rw [Cap.lenm, h, BitVec.toNat_ofNat]

end

/-! ## `cpbound` (R126) -/

/-- The length mantissa that [lo, hi) takes at an exponent, rounded outward. -/
def boundLen (lo hi e : Nat) : Nat := (hi + 2 ^ e - 1) / 2 ^ e - lo / 2 ^ e

theorem boundExpo_of_least {lo hi e : Nat} (he : e ≤ 47) (hf : boundLen lo hi e ≤ 2 ^ 16) (hl : ∀ k, k < e → ¬ boundLen lo hi k ≤ 2 ^ 16) :
    boundExpo lo hi = some e := by
  unfold boundExpo firstIdx
  rw [List.find?_range_eq_some]
  exact ⟨decide_eq_true hf, List.mem_range.mpr (by omega), fun k hk => by simpa [boundLen] using hl k hk⟩

theorem boundExpo_of_none {lo hi : Nat} (h : ∀ k, k ≤ 47 → ¬ boundLen lo hi k ≤ 2 ^ 16) : boundExpo lo hi = none := by
  unfold boundExpo firstIdx
  rw [List.find?_eq_none]
  intro k hk
  simpa [boundLen] using h k (by have := List.mem_range.mp hk; omega)

/-- The bounds of the exponent `e` around [lo, hi) leave those of `c`. -/
def boundsOutside (c : Cap) (lo hi e : Nat) : Prop :=
  c.base > (lo / 2 ^ e * 2 ^ e : Nat) ∨ (((hi + 2 ^ e - 1) / 2 ^ e * 2 ^ e : Nat) : Int) > c.top

section
variable {c : Cap} {len e : Nat}

theorem Cap.narrow_of_inside (hb : boundExpo c.addr (c.addr + len) = some e) (h : ¬ (c.tag = true ∧ boundsOutside c c.addr (c.addr + len) e)) :
    c.narrow len = some (c.withBounds e (c.addr / 2 ^ e) (boundLen c.addr (c.addr + len) e)) := by
  simp only [Cap.narrow, hb]
  exact if_neg (by simpa [boundsOutside] using h)

theorem Cap.narrow_of_outside (hb : boundExpo c.addr (c.addr + len) = some e) (ht : c.tag = true)
    (h : boundsOutside c c.addr (c.addr + len) e) : c.narrow len = none := by
  simp only [Cap.narrow, hb]
  exact if_pos (by simpa [boundsOutside, ht] using h)

theorem Cap.narrow_of_none (hb : boundExpo c.addr (c.addr + len) = none) : c.narrow len = if c.tag = true then none else some c := by
  simp only [Cap.narrow, hb]

end

/-! ## Derivations and their sources -/

section
variable {i : Instr} {s : State} {a d : RegNum} {r : Cap → Res Cap} {x : Cap} {code : BitVec 8} {addr : Word64}

theorem unsealed_source {c : Cap} (h : ¬ (c.tag = true ∧ c.sealed = true)) : (!(c.tag && c.sealed)) = true := by
  rw [Bool.not_eq_true', Bool.and_eq_false_iff]
  simpa [← Bool.not_eq_true, imp_iff_not_or] using h

/-- A derivation from a source that is not sealed, or no capability. -/
theorem gives_derive (h : exec i s = derive a d r s) (hs : ¬ ((s.reg a).tag = true ∧ (s.reg a).sealed = true)) (hr : r (s.reg a) = .ok x) :
    Gives i s d x := by
  refine Gives.of_writeReg (h.trans ?_)
  have hreq := unsealed_source hs
  simp only [derive, hreq, require_true, hr, Res.ok_bind]

theorem traps_derive (h : exec i s = derive a d r s) (hs : ¬ ((s.reg a).tag = true ∧ (s.reg a).sealed = true))
    (hr : r (s.reg a) = raise code addr) : Traps i s code addr := by
  refine h.trans ?_
  have hreq := unsealed_source hs
  simp only [derive, hreq, require_true, hr, Res.ok_bind]
  rfl

theorem traps_derive_sealed (h : exec i s = derive a d r s) (ht : (s.reg a).tag = true) (hs : (s.reg a).sealed = true) :
    Traps i s 0x05 (a.setWidth 64) := by
  refine h.trans ?_
  simp only [derive, ht, hs]
  rfl

end

/-- What `cpbound` derives from its source. -/
def boundOf (len : Nat) (c : Cap) : Res Cap :=
  match c.narrow len with
  | some x => .ok x
  | none => raise 0x04 (BitVec.ofNat 64 (firstOutside c.addr c.base c.top))

theorem exec_cpbound (b a d : RegNum) (s : State) : exec (.cpbound b a d) s = derive a d (boundOf (s.int b).toNat) s := rfl

section
variable {b a d : RegNum} {s : State} {x : Cap}

theorem gives_cpbound (hs : ¬ ((s.reg a).tag = true ∧ (s.reg a).sealed = true)) (hx : (s.reg a).narrow (s.int b).toNat = some x) :
    Gives (.cpbound b a d) s d x := gives_derive (exec_cpbound b a d s) hs (by rw [boundOf, hx])

theorem traps_cpbound (hs : ¬ ((s.reg a).tag = true ∧ (s.reg a).sealed = true)) (hx : (s.reg a).narrow (s.int b).toNat = none) :
    Traps (.cpbound b a d) s 0x04 (BitVec.ofNat 64 (firstOutside (s.reg a).addr (s.reg a).base (s.reg a).top)) :=
  traps_derive (exec_cpbound b a d s) hs (by rw [boundOf, hx])

end

/-- Settles O2: `boundExpo` is the least exponent that fits, and `narrow` decides by it. -/
theorem cpboundResult : Obligations.CpboundResult := by
  unfold Obligations.CpboundResult
  intro b a d s e
  dsimp only
  intro hs
  refine ⟨fun he hf hl => ?_, fun hn => ?_⟩
  · have hb : boundExpo (s.reg a).addr ((s.reg a).addr + (s.int b).toNat) = some e := boundExpo_of_least he hf hl
    refine ⟨fun ho => ?_, fun ht ho => traps_cpbound hs (Cap.narrow_of_outside hb ht ho)⟩
    refine ⟨_, gives_cpbound hs (Cap.narrow_of_inside hb ho), rfl, Cap.withBounds_cursor .., Cap.withBounds_space .., Cap.withBounds_perm ..,
      Cap.withBounds_gen .., ?_, Cap.withBounds_mant .., ?_⟩
    · rw [Cap.withBounds_expo]; omega
    · rw [Cap.withBounds_lenm]; exact Nat.mod_eq_of_lt (Nat.lt_of_le_of_lt hf (by decide))
  · have hb : boundExpo (s.reg a).addr ((s.reg a).addr + (s.int b).toNat) = none := boundExpo_of_none hn
    refine ⟨fun ht => traps_cpbound hs ?_, fun ht => ⟨s.reg a, gives_cpbound hs ?_, ht, rfl⟩⟩
    · rw [Cap.narrow_of_none hb, if_pos ht]
    · rw [Cap.narrow_of_none hb, if_neg (by simp [ht])]

theorem exec_cpperm (b a d : RegNum) (s : State) :
    exec (.cpperm b a d) s = derive a d (fun c => .ok (c.setPerm (c.perm &&& (s.int b).setWidth 9))) s := rfl

theorem exec_cpaddr (b a d : RegNum) (s : State) : exec (.cpaddr b a d) s = derive a d (fun c => .ok (c.moveTo (s.int b))) s := rfl

theorem exec_cpinc (b a d : RegNum) (s : State) :
    exec (.cpinc b a d) s = derive a d (fun c => .ok (c.moveTo (cursorAdd c.space c.cursor (s.int b)))) s := rfl

theorem setWidth_eq_extract (x : Word64) : x.setWidth 9 = x.extractLsb' 0 9 := by
  apply BitVec.eq_of_getLsbD_eq
  intro i hi
  simp [hi]

/-- Settles O3: each derivation writes what it makes of an unsealed source, and a sealed one traps. -/
theorem capabilityWords : Obligations.CapabilityWords := by
  unfold Obligations.CapabilityWords
  intro k b a d s
  dsimp only
  refine ⟨fun hs => ⟨?_, ?_, ?_⟩, Gives.of_writeReg rfl, Gives.of_writeReg rfl, Gives.of_writeReg rfl, fun ht hs => ?_⟩
  · exact ⟨_, gives_derive (exec_cpperm b a d s) hs rfl, by simp [setWidth_eq_extract]⟩
  · exact ⟨_, gives_derive (exec_cpaddr b a d s) hs rfl, rfl, Cap.moveTo_tag_iff (s.reg a) (s.int b)⟩
  · exact ⟨_, gives_derive (exec_cpinc b a d s) hs rfl, rfl, Cap.moveTo_tag_iff (s.reg a) _⟩
  · exact ⟨traps_derive_sealed (exec_cpbound b a d s) ht hs, traps_derive_sealed (exec_cpperm b a d s) ht hs,
      traps_derive_sealed (exec_cpaddr b a d s) ht hs, traps_derive_sealed (exec_cpinc b a d s) ht hs⟩

end Sys2Proof.Machine
end

section
/-! Control transfer (O4, O5, O8). -/

namespace Sys2Proof.Machine

open Sys2Proof

/-! ## The end of a transfer -/

theorem written_of_ne {d : RegNum} {c : Cap} (h : d ≠ 0) : written d c = c := if_neg h

section
variable {i : Instr} {s t : State} {v : Word64} {code : BitVec 8} {addr : Word64}

theorem checkTransfer_of_mayTransfer (h : mayTransfer s) : s.checkTransfer = .ok () := by
  have hk : (!(s.sigChecked && s.thr.ctx.checker.inBlock && decide (1 < s.thr.ctx.checker.left))) = true := by
    rw [Bool.not_eq_true', ← Bool.not_eq_true]
    simpa only [mayTransfer, Bool.and_eq_true, decide_eq_true_eq, and_assoc] using h
  unfold State.checkTransfer
  dsimp only
  rw [hk, require_true]

theorem traps_of_finishTransfer (h : exec i s = s.finishTransfer (raise code addr)) : Traps i s code addr := h

theorem traps_of_finish (h : exec i s = s.finish (raise code addr)) : Traps i s code addr := h

/-- A word that lands where its meaning has put the program counter. -/
theorem Lands.of_finishTransfer {p : State → Prop} (h : exec i s = s.finishTransfer (.ok t)) (hc : mayTransfer s) (hpc : t.pc = v)
    (hb : ∀ a, t.byteAt a = s.byteAt a) (hp : p t.clearStall.countWindows.land) : Lands i s v p :=
  ⟨_, h.trans (State.finishTransfer_ok _ _ (checkTransfer_of_mayTransfer hc)), hpc, rfl, rfl, hb, hp⟩

theorem jumpTo_of_covers (h : codeCovers s.thr.ctx.code v = true) : jumpTo v s = .ok (s.setPc v) := if_pos h

theorem jumpTo_of_not_covers (h : codeCovers s.thr.ctx.code v = false) : jumpTo v s = raise 0x04 v := if_neg (by simp [h])

end

theorem relTarget_eq {n : Nat} (o : BitVec n) (s : State) : relTarget o s = s.pc + BitVec.ofInt 64 (o.toInt * 4) :=
  congrArg (s.pc + ·) (signExtend_shiftLeft_eq_ofInt o 2)

/-! ## Branches (R127, R128) -/

theorem branchesOn_of_branchWord {i : Instr} {s : State} {o : BitVec 13} {taken : Bool} {p : Prop} (h : exec i s = branchWord o taken s)
    (hp : taken = true ↔ p) : BranchesOn i s (s.pc + BitVec.ofInt 64 (o.toInt * 4)) p := by
  rw [← relTarget_eq]
  refine ⟨fun g hc hm => ?_, fun g => ?_, fun g hc => ?_⟩
  · rw [branchWord, if_pos (hp.mpr g), jumpTo_of_covers hc] at h
    exact Transfers.of_setPc h (checkTransfer_of_mayTransfer hm)
  · rw [branchWord, if_neg fun e => g (hp.mp e)] at h
    exact Passes.of_advance h
  · rw [branchWord, if_pos (hp.mpr g), jumpTo_of_not_covers hc] at h
    exact traps_of_finishTransfer h

/-- Settles O4: each branch is a `branchWord` under its condition. -/
theorem branchWords : Obligations.BranchWords := by
  unfold Obligations.BranchWords
  intro o b a s
  dsimp only
  refine ⟨branchesOn_of_branchWord rfl beq_iff_eq, branchesOn_of_branchWord rfl bne_iff_ne, branchesOn_of_branchWord rfl BitVec.slt_iff_toInt_lt,
    branchesOn_of_branchWord rfl ?_, branchesOn_of_branchWord rfl ?_, branchesOn_of_branchWord rfl ?_, branchesOn_of_branchWord rfl Iff.rfl,
    branchesOn_of_branchWord rfl (by simp)⟩
  · rw [Bool.not_eq_true', ← Bool.not_eq_true, BitVec.slt_iff_toInt_lt, not_lt]
  · rw [BitVec.ult_iff_lt, BitVec.lt_def]
  · rw [Bool.not_eq_true', ← Bool.not_eq_true, BitVec.ult_iff_lt, BitVec.lt_def, not_lt]

/-! ## The link of a call (R130) -/

section
variable (c : Cap) (v : Word64)

theorem Cap.setCursor_bits_high {j n : Nat} (h : 64 ≤ j) (hn : j + n ≤ 128) :
    (c.setCursor v).bits.extractLsb' j n = c.bits.extractLsb' j n := by
  apply BitVec.eq_of_getLsbD_eq
  intro i hi
  simp only [Cap.setCursor, BitVec.getLsbD_extractLsb', BitVec.getLsbD_append, hi, decide_true, Bool.true_and]
  rw [if_neg (by omega), show 64 + (j + i - 64) = j + i by omega]
  simp [show j + i - 64 < 64 by omega]

theorem Cap.moveTo_bits : (c.moveTo v).bits = (c.setCursor v).bits := rfl

@[simp] theorem Cap.moveTo_cursor : (c.moveTo v).cursor = v := Cap.setCursor_cursor c v
@[simp] theorem Cap.moveTo_space : (c.moveTo v).space = c.space := by rw [Cap.space, Cap.moveTo_bits, Cap.setCursor_bits_high _ _ (by omega) (by omega)]; rfl
@[simp] theorem Cap.moveTo_perm : (c.moveTo v).perm = c.perm := by rw [Cap.perm, Cap.moveTo_bits, Cap.setCursor_bits_high _ _ (by omega) (by omega)]; rfl
@[simp] theorem Cap.moveTo_gen : (c.moveTo v).gen = c.gen := by rw [Cap.gen, Cap.moveTo_bits, Cap.setCursor_bits_high _ _ (by omega) (by omega)]; rfl
@[simp] theorem Cap.moveTo_expo : (c.moveTo v).expo = c.expo := by rw [Cap.expo, Cap.moveTo_bits, Cap.setCursor_bits_high _ _ (by omega) (by omega)]; rfl
@[simp] theorem Cap.moveTo_mant : (c.moveTo v).mant = c.mant := by rw [Cap.mant, Cap.moveTo_bits, Cap.setCursor_bits_high _ _ (by omega) (by omega)]; rfl
@[simp] theorem Cap.moveTo_lenm : (c.moveTo v).lenm = c.lenm := by rw [Cap.lenm, Cap.moveTo_bits, Cap.setCursor_bits_high _ _ (by omega) (by omega)]; rfl

variable (x : Bool)

@[simp] theorem Cap.setSeal_space : (c.setSeal x).space = c.space := Cap.setPerm_space ..
@[simp] theorem Cap.setSeal_gen : (c.setSeal x).gen = c.gen := Cap.setPerm_gen ..
@[simp] theorem Cap.setSeal_expo : (c.setSeal x).expo = c.expo := Cap.setPerm_expo ..
@[simp] theorem Cap.setSeal_mant : (c.setSeal x).mant = c.mant := Cap.setPerm_mant ..
@[simp] theorem Cap.setSeal_lenm : (c.setSeal x).lenm = c.lenm := Cap.setPerm_lenm ..
@[simp] theorem Cap.setSeal_base : (c.setSeal x).base = c.base := by simp [Cap.base, Cap.boundsFrom, Cap.addr]
@[simp] theorem Cap.setSeal_top : (c.setSeal x).top = c.top := by simp [Cap.top, Cap.boundsFrom, Cap.addr]

@[simp] theorem Cap.setSeal_sealed : (c.setSeal x).sealed = x := by
  rw [Cap.sealed, Cap.setSeal, Cap.setPerm_perm, BitVec.getLsbD_append]
  cases x <;> rfl

theorem Cap.setSeal_perm_low : (c.setSeal x).perm.extractLsb' 0 8 = c.perm.extractLsb' 0 8 := by
  apply BitVec.eq_of_getLsbD_eq
  intro i hi
  rw [Cap.setSeal, Cap.setPerm_perm, BitVec.getLsbD_extractLsb', BitVec.getLsbD_append, if_pos (by omega)]
  simp [hi]

end

theorem isLink_linkOf (s : State) : IsLink (linkOf s) s.thr.ctx.code (s.pc + 4) := by
  refine ⟨?_, by simp [linkOf], by simp [linkOf], by simp [linkOf], by simp [linkOf], by simp [linkOf], by simp [linkOf], by simp [linkOf], ?_⟩
  · simpa [linkOf] using Cap.moveTo_tag_iff s.thr.ctx.code (s.pc + 4)
  · rw [linkOf, Cap.setSeal_perm_low, Cap.moveTo_perm]

/-! ## Jumps and calls (R130) -/

section
variable {s : State} {r a d : RegNum} {z : Bool}

theorem deeper_writeReg (u : State) (d : RegNum) (v : Cap) : deeper (u.writeReg d v) = (deeper u).writeReg d v := by
  by_cases h : d = 0
  · rw [State.writeReg_a0 u v h, State.writeReg_a0 _ v h]
  · rw [State.writeReg_of_ne u v h, State.writeReg_of_ne _ v h]; rfl

theorem enterCode_writeReg (u : State) (x : Cap) (d : RegNum) (v : Cap) : enterCode x (u.writeReg d v) = (enterCode x u).writeReg d v := by
  by_cases h : d = 0
  · rw [State.writeReg_a0 u v h, State.writeReg_a0 _ v h]
  · rw [State.writeReg_of_ne u v h, State.writeReg_of_ne _ v h]; rfl

/-- A good target passes every check. -/
theorem checkTarget_of_ok (h : TargetOk r z s) : checkTarget r z s = .ok () := by
  obtain ⟨ha, ht, hg, hs, hx, hsp, hc, hb⟩ := h
  have hspace : ((s.reg r).space == 1 || (s.reg r).space == 2) = true ∧
      ((s.reg r).space != 1 || s.diesServe s.thr.world (s.reg r).addr 4) = true := by
    rcases hsp with ⟨h1, hd⟩ | h2
    · simp [h1, hd]
    · simp [h2]
  unfold checkTarget
  simp only [ha, ht, hg, hs, hx, hc, hb, hspace.1, hspace.2, beq_self_eq_true, Bool.or_true, Bool.and_self, require_true, Res.ok_bind]

theorem exec_jmp (o : BitVec 21) (s : State) : exec (.jmp o) s = s.finishTransfer (jumpTo (relTarget o s) s) := rfl

theorem exec_call (o : BitVec 21) (d : RegNum) (s : State) : exec (.call o d) s =
    s.finishTransfer (do
      let t ← jumpTo (relTarget o s) s
      .ok (deeper (t.writeReg d (linkOf s)))) := rfl

theorem exec_callr (a d : RegNum) (s : State) : exec (.callr a d) s =
    s.finishTransfer (do
      checkTarget a false s
      .ok (deeper (enterCode (s.reg a) (s.writeReg d (linkOf s))))) := rfl

theorem exec_jmpr (a : RegNum) (s : State) : exec (.jmpr a) s =
    s.finishTransfer (do
      checkTarget a false s
      .ok (enterCode (s.reg a) s)) := rfl

theorem exec_ret (a : RegNum) (s : State) : exec (.ret a) s =
    s.finishTransfer (do
      checkTarget a true s
      .ok (returnStep (enterCode ((s.reg a).setSeal false) s))) := rfl

end

/-- Settles O5: each word passes its check and makes the states of the statement. -/
theorem jumpsAndCalls : Obligations.JumpsAndCalls := by
  unfold Obligations.JumpsAndCalls
  intro o a d s hm
  dsimp only
  rw [← relTarget_eq]
  refine ⟨fun hc => ⟨?_, fun hd => ?_⟩, fun hc => ⟨?_, fun _ => ?_⟩, fun ht => ⟨?_, ?_⟩⟩
  · exact Transfers.of_setPc (by rw [exec_jmp, jumpTo_of_covers hc]) (checkTransfer_of_mayTransfer hm)
  · have h : exec (.call o d) s = s.finishTransfer (.ok (((deeper s).setPc (relTarget o s)).writeReg d (linkOf s))) := by
      rw [exec_call, jumpTo_of_covers hc, Res.ok_bind, deeper_writeReg]; rfl
    refine Lands.of_finishTransfer h hm (by simp) (fun x => by rw [State.byteAt, State.writeReg_mem]; rfl) ⟨?_, ?_⟩
    · rw [State.land_reg, State.reg_writeReg, written_of_ne hd]; exact isLink_linkOf s
    · exact ((((Made.self (deeper s) s rfl rfl).setPc _).widen (by simp)).writeReg d _ (by simp)).land
  · exact traps_of_finishTransfer (by rw [exec_jmp, jumpTo_of_not_covers hc])
  · exact traps_of_finishTransfer (by rw [exec_call, jumpTo_of_not_covers hc]; rfl)
  · have h : exec (.jmpr a) s = s.finishTransfer (.ok (enterCode (s.reg a) s)) := by rw [exec_jmpr, checkTarget_of_ok ht]; rfl
    exact Lands.of_finishTransfer h hm rfl (fun _ => rfl) (Made.self (enterCode (s.reg a) s) s rfl rfl).land
  · have h : exec (.callr a d) s = s.finishTransfer (.ok ((enterCode (s.reg a) (deeper s)).writeReg d (linkOf s))) := by
      rw [exec_callr, checkTarget_of_ok ht, Res.ok_bind, enterCode_writeReg, deeper_writeReg]; rfl
    refine Lands.of_finishTransfer h hm (by simp; rfl) (fun x => by rw [State.byteAt, State.writeReg_mem]; rfl) ⟨fun hd => ?_, ?_⟩
    · rw [State.land_reg, State.reg_writeReg, written_of_ne hd]; exact isLink_linkOf s
    · exact (((Made.self (enterCode (s.reg a) (deeper s)) s rfl rfl).widen (by simp)).writeReg d _ (by simp)).land

/-! ## Targets that fail (R75, R82, R130) -/

section
variable {s : State} {a d : RegNum} {z : Bool} {code : BitVec 8} {addr : Word64}

theorem traps_callr_jmpr (h : checkTarget a false s = raise code addr) : Traps (.callr a d) s code addr ∧ Traps (.jmpr a) s code addr :=
  ⟨traps_of_finishTransfer (by rw [exec_callr, h]; rfl), traps_of_finishTransfer (by rw [exec_jmpr, h]; rfl)⟩

theorem traps_ret (h : checkTarget a true s = raise code addr) : Traps (.ret a) s code addr :=
  traps_of_finishTransfer (by rw [exec_ret, h]; rfl)

theorem require_false (code : BitVec 8) (addr : Word64) : require false code addr = raise code addr := rfl

theorem Res.raise_bind {α β : Type} (code : BitVec 8) (addr : Word64) (f : α → Res β) : (raise code addr >>= f) = raise code addr := rfl

/-- What is wrong with a target beyond its alignment, its tag and its generation. -/
def targetWrong (a : RegNum) (s : State) (z : Bool) : Prop :=
  (s.reg a).sealed ≠ z ∨ (s.reg a).permX = false ∨ ((s.reg a).space ≠ 1 ∧ (s.reg a).space ≠ 2) ∨
    ((s.reg a).space = 1 ∧ s.diesServe s.thr.world (s.reg a).addr 4 = false)

/-- The test of the fourth check. -/
theorem targetWrong_iff : ((s.reg a).sealed == z && (s.reg a).permX && ((s.reg a).space == 1 || (s.reg a).space == 2) &&
    ((s.reg a).space != 1 || s.diesServe s.thr.world (s.reg a).addr 4)) = false ↔ targetWrong a s z := by
  simp only [targetWrong, Bool.and_eq_false_iff, Bool.or_eq_false_iff, beq_eq_false_iff_ne, bne_eq_false_iff_eq, or_assoc]

theorem checkTarget_of_unaligned (ht : (z && isReturnToken (s.reg a)) = false) (h : (s.reg a).cursor.toNat % 4 ≠ 0) :
    checkTarget a z s = raise 0x01 0 := by
  unfold checkTarget
  simp only [ht, beq_eq_false_iff_ne.mpr h, Bool.or_self, require_false, Res.raise_bind]

/-- The first check of a target passes. -/
def targetPlaced (a : RegNum) (z : Bool) (s : State) : Prop := (z && isReturnToken (s.reg a) || (s.reg a).cursor.toNat % 4 == 0) = true

theorem targetPlaced_of_aligned (h : (s.reg a).cursor.toNat % 4 = 0) : targetPlaced a z s := by simp [targetPlaced, h]

theorem checkTarget_of_untagged (hp : targetPlaced a z s) (h : (s.reg a).tag = false) : checkTarget a z s = raise 0x03 (a.setWidth 64) := by
  unfold targetPlaced at hp
  unfold checkTarget
  simp only [hp, h, require_true, Res.ok_bind, require_false, Res.raise_bind]
  rfl

theorem checkTarget_of_old (hp : targetPlaced a z s) (ht : (s.reg a).tag = true) (h : s.genOk s.who (s.reg a) (s.reg a).addr 4 = false) :
    checkTarget a z s = raise 0x06 (s.reg a).cursor := by
  unfold targetPlaced at hp
  unfold checkTarget
  simp only [hp, ht, h, require_true, Res.ok_bind, require_false, Res.raise_bind]

theorem checkTarget_of_wrong (hp : targetPlaced a z s) (ht : (s.reg a).tag = true) (hg : s.genOk s.who (s.reg a) (s.reg a).addr 4 = true)
    (h : targetWrong a s z) : checkTarget a z s = raise 0x05 (a.setWidth 64) := by
  unfold targetPlaced at hp
  unfold checkTarget
  simp only [hp, ht, hg, targetWrong_iff.mpr h, require_true, Res.ok_bind, require_false, Res.raise_bind]
  rfl

theorem checkTarget_of_bounds (hp : targetPlaced a z s) (ht : (s.reg a).tag = true) (hg : s.genOk s.who (s.reg a) (s.reg a).addr 4 = true)
    (hw : ¬ targetWrong a s z) (h : codeCovers (s.reg a) (s.reg a).cursor = false ∨ (s.reg a).boundsOk = false) :
    checkTarget a z s = raise 0x04 (s.reg a).cursor := by
  have hw := Bool.eq_true_of_not_eq_false (fun e => hw (targetWrong_iff.mp e))
  unfold targetPlaced at hp
  unfold checkTarget
  simp only [hp, ht, hg, hw, Bool.and_eq_false_iff.mpr h, require_true, Res.ok_bind, require_false]

/-- A return token is tagged, passes the check of the generation, and has no X. -/
theorem checkTarget_of_token (h : isReturnToken (s.reg a) = true) : checkTarget a true s = raise 0x05 (a.setWidth 64) := by
  obtain ⟨⟨ht, hs⟩, hp⟩ : ((s.reg a).tag = true ∧ (s.reg a).space = 5) ∧ (s.reg a).perm = 0x100 := by
    simpa only [isReturnToken, Bool.and_eq_true, beq_iff_eq] using h
  refine checkTarget_of_wrong (by simp [targetPlaced, h]) ht ?_ (.inr (.inl ?_))
  · simp only [State.genOk, hs, h, Bool.true_or]
  · rw [Cap.permX, hp]; rfl

end

/-- Settles O8: the first check that fails names the fault. -/
theorem badTargetTraps : Obligations.BadTargetTraps := by
  unfold Obligations.BadTargetTraps
  intro a d s
  dsimp only
  refine ⟨fun ha => ⟨?_, fun hn => ?_⟩, fun h => ?_, fun ha ht => ?_, fun ha ht hg => ?_, fun ha ht hg => ⟨fun hw => ?_, fun hw => ?_, fun hb => ⟨fun hw => ?_, fun hw => ?_⟩⟩⟩
  · exact traps_callr_jmpr (checkTarget_of_unaligned (Bool.false_and _) ha)
  · exact traps_ret (checkTarget_of_unaligned (by rw [hn, Bool.and_false]) ha)
  · exact traps_ret (checkTarget_of_token h)
  · exact ⟨traps_callr_jmpr (checkTarget_of_untagged (targetPlaced_of_aligned ha) ht), traps_ret (checkTarget_of_untagged (targetPlaced_of_aligned ha) ht)⟩
  · exact ⟨traps_callr_jmpr (checkTarget_of_old (targetPlaced_of_aligned ha) ht hg), traps_ret (checkTarget_of_old (targetPlaced_of_aligned ha) ht hg)⟩
  · exact traps_callr_jmpr (checkTarget_of_wrong (targetPlaced_of_aligned ha) ht hg hw)
  · exact traps_ret (checkTarget_of_wrong (targetPlaced_of_aligned ha) ht hg hw)
  · exact traps_callr_jmpr (checkTarget_of_bounds (targetPlaced_of_aligned ha) ht hg hw hb)
  · exact traps_ret (checkTarget_of_bounds (targetPlaced_of_aligned ha) ht hg hw hb)

end Sys2Proof.Machine
end

section
/-! Returns and frames (O6, O7): what the completion of earlier execute-half words changes, then `ret` and `enter`. -/

namespace Sys2Proof.Machine

open Sys2Proof

/-! ## Store queues of which more is ready (R186) -/

theorem moreReady_refl (l : List QEntry) : moreReady l l := List.forall₂_same.mpr fun x _ => by rw [Bool.or_self]

theorem readier_trans {x y z : QEntry} (h : y = { x with ready := x.ready || y.ready }) (g : z = { y with ready := y.ready || z.ready }) :
    z = { x with ready := x.ready || z.ready } := by
  cases x; cases y; cases z
  simp only [QEntry.mk.injEq] at h g ⊢
  grind

theorem moreReady_trans {l m n : List QEntry} (h : moreReady l m) (g : moreReady m n) : moreReady l n := by
  unfold moreReady at h g ⊢
  induction h generalizing n with
  | nil => exact g
  | cons hx _ ih =>
    cases g with
    | cons hy g => exact .cons (readier_trans hx hy) (ih g)

theorem moreReady_readyFirst (l : List QEntry) : moreReady l (State.readyFirst l) := by
  induction l with
  | nil => exact .nil
  | cons x r ih =>
    unfold State.readyFirst
    split
    · exact .cons (by rw [Bool.or_self]) ih
    · exact .cons (by simp) (moreReady_refl r)

/-! ## Earlier words complete (R191) -/

section
variable {s t u : State}

theorem StreamRan.refl (s : State) : StreamRan s s := ⟨rfl, List.suffix_refl _, moreReady_refl _, moreReady_refl _⟩

theorem StreamRan.trans (h : StreamRan s t) (g : StreamRan t u) : StreamRan s u :=
  ⟨g.flags.trans h.flags, g.stream.trans h.stream, moreReady_trans h.sq0 g.sq0, moreReady_trans h.sq1 g.sq1⟩

theorem streamOf_trans (h : t = streamOf s t) (g : u = streamOf t u) : u = streamOf s u := g.trans (by rw [h]; rfl)

theorem streamRan_completeOldest (s : State) : StreamRan s s.completeOldest := by
  cases h : s.thr.ctx.stream with
  | nil => rw [State.completeOldest, h]; exact .refl s
  | cons e r =>
    rw [State.completeOldest_of_entry h]
    refine ⟨?_, ⟨[e], by rw [h]; rfl⟩, ?_, ?_⟩
    · simp only [allFlags, h, List.foldl_cons]; rfl
    · dsimp only [State.modCtx]
      split
      · exact moreReady_readyFirst _
      · exact moreReady_refl _
    · dsimp only [State.modCtx]
      split
      · exact moreReady_readyFirst _
      · exact moreReady_refl _

theorem completeOldest_eq_streamOf (s : State) : s.completeOldest = streamOf s s.completeOldest := by
  unfold State.completeOldest
  split <;> rfl

theorem completeOldest_stream (s : State) : s.completeOldest.thr.ctx.stream = s.thr.ctx.stream.tail := by
  unfold State.completeOldest
  split
  next h => rw [h]; rfl
  next h => rw [h]; rfl

theorem streamRan_completeN (n : Nat) : ∀ s : State, StreamRan s (s.completeN n) := by
  induction n with
  | zero => exact .refl
  | succ n ih => exact fun s => (streamRan_completeOldest s).trans (ih _)

theorem completeN_eq_streamOf (n : Nat) : ∀ s : State, s.completeN n = streamOf s (s.completeN n) := by
  induction n with
  | zero => exact fun s => rfl
  | succ n ih => exact fun s => streamOf_trans (completeOldest_eq_streamOf s) (ih _)

theorem completeN_stream (n : Nat) : ∀ s : State, (s.completeN n).thr.ctx.stream = s.thr.ctx.stream.drop n := by
  induction n with
  | zero => exact fun s => rfl
  | succ n ih => exact fun s => (ih _).trans (by rw [completeOldest_stream, List.drop_tail])

theorem allFlags_of_ctx (hs : t.thr.ctx.stream = s.thr.ctx.stream) (hx : t.thr.ctx.xflags = s.thr.ctx.xflags) : allFlags t = allFlags s := by
  rw [allFlags, hs, hx]; rfl

theorem drain_eq_streamOf (s : State) : s.drain = streamOf s s.drain := completeN_eq_streamOf _ s
theorem drain_flags (s : State) : allFlags s.drain = allFlags s := (streamRan_completeN _ s).flags
theorem drain_stream (s : State) : s.drain.thr.ctx.stream = [] := (completeN_stream _ s).trans List.drop_length

theorem drain_regs (s : State) : s.drain.thr.ctx.regs = s.thr.ctx.regs := by rw [drain_eq_streamOf]; rfl
theorem drain_regMarks (s : State) : s.drain.thr.ctx.regMarks = s.thr.ctx.regMarks := by rw [drain_eq_streamOf]; rfl
theorem drain_win (s : State) : s.drain.thr.ctx.win = s.thr.ctx.win := by rw [drain_eq_streamOf]; rfl
theorem drain_wstack (s : State) : s.drain.thr.ctx.wstack = s.thr.ctx.wstack := by rw [drain_eq_streamOf]; rfl
theorem drain_dstack (s : State) : s.drain.thr.ctx.dstack = s.thr.ctx.dstack := by rw [drain_eq_streamOf]; rfl
theorem drain_code (s : State) : s.drain.thr.ctx.code = s.thr.ctx.code := by rw [drain_eq_streamOf]; rfl

/-- Words complete alike under any code capability. -/
theorem completeN_enterCode (x : Cap) (n : Nat) : ∀ s : State, (enterCode x s).completeN n = enterCode x (s.completeN n) := by
  induction n with
  | zero => exact fun s => rfl
  | succ n ih =>
    intro s
    have h : (enterCode x s).completeOldest = enterCode x s.completeOldest := by
      cases h : s.thr.ctx.stream with
      | nil => rw [State.completeOldest, State.completeOldest, h, show (enterCode x s).thr.ctx.stream = [] from h]
      | cons e r => rw [State.completeOldest_of_entry h, State.completeOldest_of_entry (s := enterCode x s) (e := e) (r := r) h]; rfl
    rw [State.completeN, h, ih]
    rfl

theorem drain_enterCode (x : Cap) (s : State) : (enterCode x s).drain = enterCode x s.drain := completeN_enterCode x _ s

end

/-! ## `ret` (R130, R131) -/

/-- The record of a frame that `enter` opened at this depth stands on top. -/
theorem frameOpen_eq_some {s : State} {r : WRec} (h : frameOpen s = some r) :
    ∃ l, s.thr.ctx.wstack = r :: l ∧ (!r.mark && r.depth == s.thr.ctx.cdepth) = true := by
  unfold frameOpen at h
  cases hw : s.thr.ctx.wstack with
  | nil => rw [hw] at h; cases h
  | cons x l =>
    rw [hw] at h
    obtain ⟨hx, hp⟩ := Option.filter_eq_some_iff.mp h
    obtain rfl := Option.some.inj hx
    exact ⟨l, rfl, hp⟩

theorem frameOpen_eq_none {s : State} (h : frameOpen s = none) {r : WRec} {l : List WRec} (hw : s.thr.ctx.wstack = r :: l) :
    (!r.mark && r.depth == s.thr.ctx.cdepth) = false := by
  unfold frameOpen at h
  rw [hw] at h
  simpa using h

/-- One depth up. -/
def shallower (s : State) : State := s.modCtx fun c => { c with cdepth := c.cdepth - 1 }

/-- The frame of the record `r`, which is popped, becomes the window again. -/
def reopened (r : WRec) (s : State) : State := s.modCtx fun c => { c with wstack := c.wstack.tail, wbase := r.base, fs := r.size }

theorem returnStep_of_frame {s : State} {r : WRec} (h : frameOpen s = some r) : returnStep s = shallower (reopened r s.drain) := by
  obtain ⟨l, hw, hp⟩ := frameOpen_eq_some h
  have htail : s.drain.thr.ctx.wstack.tail = l := by rw [drain_wstack, hw]; rfl
  unfold returnStep
  simp only [hw, hp, if_true]
  unfold shallower reopened
  simp only [State.modCtx, htail]

theorem returnStep_of_leaf {s : State} (h : frameOpen s = none) : returnStep s = shallower s := by
  unfold returnStep
  cases hw : s.thr.ctx.wstack with
  | nil => rfl
  | cons r l => simp only [frameOpen_eq_none h hw]; rfl

/-- The state that a return makes out of the state `m`: the code capability, and one depth up. -/
def returned (x : Cap) (m : State) : State := m.modCtx fun c => { c with code := x, cdepth := c.cdepth - 1 }

theorem shallower_reopened_enterCode (x : Cap) (r : WRec) (m : State) :
    shallower (reopened r (enterCode x m)) = returned x (reopened r m) := rfl

theorem shallower_enterCode (x : Cap) (m : State) : shallower (enterCode x m) = returned x m := rfl

/-- What a return lands with, over a state `m` in which no register and no byte has changed. -/
theorem lands_returned {i : Instr} {s m : State} {x : Cap} {v : Word64} (h : exec i s = s.finishTransfer (.ok (returned x m))) (hc : mayTransfer s)
    (hv : x.cursor = v) (hm : m.mem = s.mem) (hr : m.thr.ctx.regs = s.thr.ctx.regs) (hk : m.thr.ctx.regMarks = s.thr.ctx.regMarks) :
    Lands i s v fun t => t.thr.ctx.code = x ∧ allFlags t = allFlags m ∧ t.thr.ctx.stream = m.thr.ctx.stream ∧ Becomes [] (returned x m) s t :=
  Lands.of_finishTransfer h hc hv (fun a => congrArg (fun l => Cells.get l a) hm)
    ⟨rfl, allFlags_of_ctx rfl rfl, rfl, (Made.self (returned x m) s hr hk).land⟩

theorem Lands.imp {i : Instr} {s : State} {v : Word64} {p q : State → Prop} (h : Lands i s v p) (hq : ∀ t, p t → q t) : Lands i s v q := by
  obtain ⟨t, he, hpc, hs, hl, hb, hp⟩ := h
  exact ⟨t, he, hpc, hs, hl, hb, hq t hp⟩

/-- Settles O6: the frame of this depth comes back after every earlier word has completed; a leaf only goes up. -/
theorem retRestoresWindow : Obligations.RetRestoresWindow := by
  unfold Obligations.RetRestoresWindow
  intro a s hm ht
  dsimp only
  have hexec : exec (.ret a) s = s.finishTransfer (.ok (returnStep (enterCode ((s.reg a).setSeal false) s))) := by
    rw [exec_ret, checkTarget_of_ok ht]; rfl
  have hcode : ∀ x : Cap, x = (s.reg a).setSeal false → x.sealed = false ∧ x.tag = true ∧ x.space = (s.reg a).space := by
    rintro x rfl
    exact ⟨Cap.setSeal_sealed .., ht.tagged, Cap.setSeal_space ..⟩
  cases hf : frameOpen s with
  | some r =>
    rw [returnStep_of_frame (s := enterCode ((s.reg a).setSeal false) s) hf, drain_enterCode, shallower_reopened_enterCode] at hexec
    refine (lands_returned hexec hm (Cap.setSeal_cursor ..) (State.drain_mem s) (drain_regs s) (drain_regMarks s)).imp ?_
    intro t ⟨hc, hfl, hst, hb⟩
    obtain ⟨h1, h2, h3⟩ := hcode _ hc
    exact ⟨h1, h2, h3, (hfl.trans (allFlags_of_ctx rfl rfl)).trans (drain_flags s), hst.trans (drain_stream s), hb⟩
  | none =>
    rw [returnStep_of_leaf (s := enterCode ((s.reg a).setSeal false) s) hf, shallower_enterCode] at hexec
    refine (lands_returned hexec hm (Cap.setSeal_cursor ..) rfl rfl rfl).imp ?_
    intro t ⟨hc, _, _, hb⟩
    obtain ⟨h1, h2, h3⟩ := hcode _ hc
    exact ⟨h1, h2, h3, hb⟩

/-! ## `enter` (R131, R132) -/

/-- The frame that `enter` makes: over the caller's top bytes, or the frame of this call in its place. -/
def enterBase (g : BitVec 3) (s : State) : Nat :=
  if (frameOpen s).isSome then s.thr.ctx.wbase else s.thr.ctx.wbase + s.thr.ctx.fs - g.toNat * 64

def enterStack (s : State) : List WRec :=
  if (frameOpen s).isSome then s.thr.ctx.wstack else ⟨s.thr.ctx.wbase, s.thr.ctx.fs, s.thr.ctx.cdepth, false⟩ :: s.thr.ctx.wstack

/-- The state `m` with another frame. -/
def framedAt (ws : List WRec) (base size : Nat) (ds : List DomEntry) (m : State) : State :=
  m.modCtx fun x => { x with wstack := ws, wbase := base, fs := size, dstack := State.raiseHigh (base + size) ds }

/-- The state with the frame of `enter`, once every earlier execute-half word has completed. -/
def entered (f : BitVec 13) (g : BitVec 3) (s : State) : State :=
  framedAt (enterStack s) (enterBase g s) (f.toNat * 64) s.thr.ctx.dstack s.drain

/-- A word that goes on in another frame of the state `m`. -/
theorem completes_framedAt {i : Instr} {s m : State} {ws : List WRec} {base size : Nat} {ds : List DomEntry}
    (h : exec i s = s.finish (.ok (framedAt ws base size ds m).advance)) (hc : m.thr.ctx.code = s.thr.ctx.code) :
    Completes i s (s.pc + 4) fun t => allFlags t = allFlags m ∧ t.thr.ctx.stream = m.thr.ctx.stream ∧ t.thr.ctx.win = m.thr.ctx.win ∧
      t.thr.ctx.wbase = base ∧ t.thr.ctx.fs = size ∧ t.thr.ctx.wstack = ws ∧ Frame [] (framedAt ws base size ds m) t :=
  Completes.of_finish h (congrArg Cap.cursor hc) ⟨allFlags_of_ctx rfl rfl, rfl, rfl, rfl, rfl, rfl,
    (Made.start [] (framedAt ws base size ds m)).advance.complete.frame⟩

theorem Completes.imp {i : Instr} {s : State} {v : Word64} {p q : State → Prop} (h : Completes i s v p) (hq : ∀ t, p t → q t) :
    Completes i s v q := by
  obtain ⟨t, he, hpc, hs, hp⟩ := h
  exact ⟨t, he, hpc, hs, hq t hp⟩

theorem frameOpen_isSome (s : State) : (frameOpen s).isSome = match s.thr.ctx.wstack with
    | r :: _ => !r.mark && r.depth == s.thr.ctx.cdepth
    | [] => false := by
  unfold frameOpen
  cases s.thr.ctx.wstack with
  | nil => rfl
  | cons r l => simp only [List.head?_cons, Option.filter_some]; split <;> simp_all

/-- The bounds of the spill area hold the frame (R132). -/
def spillHolds (f : BitVec 13) (g : BitVec 3) (s : State) : Bool :=
  enterBase g s + f.toNat * 64 - residentWindow == 0 ||
    decide (enterBase g s + f.toNat * 64 - residentWindow ≤ Config.spillBytes s.thr.tid)

theorem exec_enter (f : BitVec 13) (g : BitVec 3) (s : State) : exec (.enter f g) s = s.finish (do
    require (decide (g.toNat * 64 ≤ s.thr.ctx.fs) && decide (g.toNat * 64 ≤ f.toNat * 64)) 0x04 0
    require (spillHolds f g s) 0x04 (BitVec.ofNat 64 (s.thr.ctx.spill + Config.spillBytes s.thr.tid))
    .ok (entered f g s).advance) := by
  have hs : s.drain.thr.ctx.wstack = s.thr.ctx.wstack ∧ s.drain.thr.ctx.dstack = s.thr.ctx.dstack ∧ s.drain.thr.ctx.wbase = s.thr.ctx.wbase ∧
      s.drain.thr.ctx.fs = s.thr.ctx.fs ∧ s.drain.thr.ctx.cdepth = s.thr.ctx.cdepth := by
    rw [drain_eq_streamOf]; exact ⟨rfl, rfl, rfl, rfl, rfl⟩
  obtain ⟨h1, h2, h3, h4, h5⟩ := hs
  show execEnter f g s = _
  unfold execEnter entered framedAt enterStack spillHolds enterBase
  rw [frameOpen_isSome]
  simp only [State.modCtx, h1, h2, h3, h4, h5] <;> rfl

/-- Settles O7: the checks of the size and of the spill area decide between the new frame and the faults. -/
theorem enterOpensFrame : Obligations.EnterOpensFrame := by
  unfold Obligations.EnterOpensFrame
  intro f g s _
  dsimp only
  have hsize : ∀ {p q : Prop} [Decidable p] [Decidable q], p → q → (decide p && decide q) = true := fun hp hq => by simp [hp, hq]
  refine ⟨fun ha hf hsp => ?_, fun h => ?_, fun ha hf hsp hres => ?_⟩
  · have hspill : spillHolds f g s = true := by
      have hsp : enterBase g s + f.toNat * 64 ≤ residentWindow ∨ enterBase g s + f.toNat * 64 ≤ residentWindow + Config.spillBytes s.thr.tid := hsp
      simp only [spillHolds, Bool.or_eq_true, beq_iff_eq, decide_eq_true_eq]
      omega
    have hexec : exec (.enter f g) s = s.finish (.ok (entered f g s).advance) := by
      rw [exec_enter, hsize ha hf, hspill]; rfl
    refine (completes_framedAt hexec (drain_code s)).imp ?_
    intro t ⟨hfl, hst, hwin, hbase, hfs, hws, hframe⟩
    rw [hws]
    exact ⟨hfl.trans (drain_flags s), hst.trans (drain_stream s), hwin.trans (drain_win s), hbase, hfs, rfl, hframe⟩
  · have hbad : (decide (g.toNat * 64 ≤ s.thr.ctx.fs) && decide (g.toNat * 64 ≤ f.toNat * 64)) = false := by
      rw [Bool.and_eq_false_iff, decide_eq_false_iff_not, decide_eq_false_iff_not]; omega
    exact traps_of_finish (by rw [exec_enter, hbad]; rfl)
  · have hspill : spillHolds f g s = false := by
      have h1 : residentWindow + Config.spillBytes s.thr.tid < enterBase g s + f.toNat * 64 := hsp
      simp only [spillHolds, Bool.or_eq_false_iff, beq_eq_false_iff_ne, decide_eq_false_iff_not]
      omega
    exact traps_of_finish (by rw [exec_enter, hsize ha hf, hspill]; rfl)

end Sys2Proof.Machine
end

section
/-! What the memory reductions combine (O14). -/

namespace Sys2Proof.Machine

open Sys2Proof

/-! ## Integers (R137) -/

/-- Two's complement of a code of its width. -/
theorem signedOf_eq_toInt {w m : Nat} (hw : 0 < w) (hm : m < 2 ^ w) : signedOf w m = (BitVec.ofNat w m).toInt := by
  have hp : 2 ^ w = 2 * 2 ^ (w - 1) := by rw [← Nat.pow_succ', show (w - 1).succ = w by omega]
  have hc : ((2 ^ w : Nat) : Int) = (2 : Int) ^ w := by push_cast; rfl
  rw [BitVec.toInt_eq_toNat_cond, BitVec.toNat_ofNat, signedOf, Nat.mod_eq_of_lt hm, hc]
  split <;> split <;> omega

theorem accessSize_pos (z : BitVec 3) : 0 < accessSize z := by
  unfold accessSize
  split
  · decide
  · exact Nat.two_pow_pos _

section
variable {z : BitVec 3} {m v : Nat}

theorem combine_min (hm : m < 2 ^ (8 * accessSize z)) (hv : v < 2 ^ (8 * accessSize z)) : combine .min z m v =
    (if (BitVec.ofNat (8 * accessSize z) m).toInt ≤ (BitVec.ofNat (8 * accessSize z) v).toInt then m else v, 0) := by
  have hw : 0 < 8 * accessSize z := by have := accessSize_pos z; omega
  simp only [combine, signedOf_eq_toInt hw hm, signedOf_eq_toInt hw hv, ← not_lt, ite_not]

theorem combine_max (hm : m < 2 ^ (8 * accessSize z)) (hv : v < 2 ^ (8 * accessSize z)) : combine .max z m v =
    (if (BitVec.ofNat (8 * accessSize z) v).toInt ≤ (BitVec.ofNat (8 * accessSize z) m).toInt then m else v, 0) := by
  have hw : 0 < 8 * accessSize z := by have := accessSize_pos z; omega
  simp only [combine, signedOf_eq_toInt hw hm, signedOf_eq_toInt hw hv, gt_iff_lt, ← not_lt, ite_not]

theorem combine_minUn : combine .minUn z m v = (min m v, 0) := by
  simp only [combine, Prod.mk.injEq, and_true]
  split <;> omega

theorem combine_maxUn : combine .maxUn z m v = (max m v, 0) := by
  simp only [combine, Prod.mk.injEq, and_true]
  split <;> omega

end

/-! ## The order of the codes of f32 and bf16 (R138, R164, R166) -/

/-- The magnitude of the code `k` without its sign, `p` fraction bits wide, in units of the least one; that of an infinity continues the
scale upward. -/
def magUnits (p k : Nat) : Nat := if k < 2 ^ p then k else (2 ^ p + k % 2 ^ p) * 2 ^ (k / 2 ^ p - 1)

theorem magUnits_lt_succ (p k : Nat) : magUnits p k < magUnits p (k + 1) := by
  have hp : 0 < 2 ^ p := Nat.two_pow_pos p
  have hk := Nat.div_add_mod k (2 ^ p)
  have hr := Nat.mod_lt k hp
  by_cases hlast : k % 2 ^ p + 1 = 2 ^ p
  · have hq : (k + 1) / 2 ^ p = k / 2 ^ p + 1 := by
      rw [Nat.div_eq_of_lt_le] <;> simp only [Nat.add_mul, Nat.mul_comm (2 ^ p)] at * <;> omega
    have hm : (k + 1) % 2 ^ p = 0 := by
      have := Nat.div_add_mod (k + 1) (2 ^ p)
      rw [hq, Nat.mul_add] at this
      omega
    have hbig : ¬ k + 1 < 2 ^ p := fun h => by rw [Nat.mod_eq_of_lt (by omega)] at hlast; omega
    rw [magUnits, magUnits, if_neg hbig, hq, hm, Nat.add_zero, Nat.add_sub_cancel]
    split
    next h => rw [Nat.div_eq_of_lt h, Nat.pow_zero]; omega
    next h =>
      have h1 : 1 ≤ k / 2 ^ p := (Nat.one_le_div_iff hp).mpr (not_lt.mp h)
      obtain ⟨q, hq⟩ : ∃ q, k / 2 ^ p = q + 1 := ⟨k / 2 ^ p - 1, by omega⟩
      rw [hq, Nat.add_sub_cancel, Nat.pow_succ', ← Nat.mul_assoc]
      exact Nat.mul_lt_mul_of_pos_right (by omega) (Nat.two_pow_pos q)
  · have hq : (k + 1) / 2 ^ p = k / 2 ^ p := by
      rw [Nat.div_eq_of_lt_le] <;> simp only [Nat.add_mul, Nat.mul_comm (2 ^ p)] at * <;> omega
    have hm : (k + 1) % 2 ^ p = k % 2 ^ p + 1 := by
      have := Nat.div_add_mod (k + 1) (2 ^ p)
      rw [hq] at this
      omega
    rw [magUnits, magUnits, hq, hm]
    by_cases h : k < 2 ^ p
    · have h1 : k + 1 < 2 ^ p := by rw [Nat.mod_eq_of_lt h] at hlast; omega
      rw [if_pos h, if_pos h1]; omega
    · rw [if_neg h, if_neg (by omega)]
      exact Nat.mul_lt_mul_of_pos_right (by omega) (Nat.two_pow_pos _)

theorem magUnits_strictMono (p : Nat) : StrictMono (magUnits p) := strictMono_nat_of_lt_succ (magUnits_lt_succ p)

theorem magUnits_zero (p : Nat) : magUnits p 0 = 0 := if_pos (Nat.two_pow_pos p)

theorem magUnits_eq_zero (p k : Nat) : magUnits p k = 0 ↔ k = 0 :=
  ⟨fun h => (magUnits_strictMono p).injective (h.trans (magUnits_zero p).symm), fun h => h ▸ magUnits_zero p⟩

/-- A number with a sign, in units. -/
def signedUnits (neg : Bool) (u : Nat) : Int := if neg then -(u : Int) else u

/-- The formats of the float reductions: a sign, 8 exponent bits, and infinities. -/
def isWide (f : Fmt) : Prop := f = .f32 ∨ f = .bf16

/-- The value of the code with the sign `neg` and the magnitude `k`: the infinity, or a finite value in units of 2^-(126 + p). -/
def Stands (p : Nat) (neg : Bool) (k : Nat) : Num → Prop
  | .nan _ => False
  | .inf n => n = neg ∧ k = 255 * 2 ^ p
  | .fin n m e => n = neg ∧ k < 255 * 2 ^ p ∧ -(126 + p : Int) ≤ e ∧ m * 2 ^ (e + 126 + p).toNat = magUnits p k

/-- What a code that is no NaN stands for. -/
theorem stands_decodeNum {f : Fmt} (hf : isWide f) {c : Nat} (hc : c < 2 ^ (fmtFrac f + 9)) (hn : (decodeNum f c).isNan = false) :
    Stands (fmtFrac f) (decide (2 ^ (fmtFrac f + 8) ≤ c)) (c % 2 ^ (fmtFrac f + 8)) (decodeNum f c) := by
  obtain ⟨p, hp⟩ : ∃ p, p = fmtFrac f := ⟨_, rfl⟩
  have hdec : decodeNum f c = decodeIeee f c := by rcases hf with rfl | rfl <;> rfl
  have hw : fmtBits f - 1 - fmtFrac f = 8 ∧ fmtBias f = 127 ∧ fmtHasInf f = true ∧ (f == .e4m3) = false := by
    rcases hf with rfl | rfl <;> decide
  obtain ⟨hw, hb, hi, h4⟩ := hw
  rw [← hp] at hw hc ⊢
  rw [hdec] at hn ⊢
  unfold decodeIeee at hn ⊢
  simp only [← hp, hw, hb, hi, h4, Bool.true_and, Bool.false_and, beq_iff_eq, Bool.false_eq_true, if_false] at hn ⊢
  have hneg : (c / 2 ^ (8 + p) % 2 == 1) = decide (2 ^ (p + 8) ≤ c) := by
    have hlt : c / 2 ^ (p + 8) < 2 := (Nat.div_lt_iff_lt_mul (Nat.two_pow_pos _)).mpr (by rw [← Nat.pow_succ']; exact hc)
    rw [Nat.add_comm 8 p, Bool.beq_eq_decide_eq, decide_eq_decide, Nat.mod_eq_of_lt hlt, ← Nat.one_le_div_iff (Nat.two_pow_pos _)]
    omega
  have hex : c / 2 ^ p % 2 ^ 8 = c % 2 ^ (p + 8) / 2 ^ p := by rw [Nat.pow_add, Nat.mod_mul_right_div_self]
  have hfr : c % 2 ^ p = c % 2 ^ (p + 8) % 2 ^ p := (Nat.mod_mod_of_dvd _ (Nat.pow_dvd_pow _ (by omega))).symm
  rw [hneg, hex, hfr] at hn ⊢
  have hk : c % 2 ^ (p + 8) < 256 * 2 ^ p := by
    have := Nat.mod_lt c (Nat.two_pow_pos (p + 8))
    rw [Nat.pow_add 2 p 8] at this ⊢
    omega
  generalize decide (2 ^ (p + 8) ≤ c) = neg at hn ⊢
  generalize c % 2 ^ (p + 8) = k at hn hk ⊢
  have hpos : 0 < 2 ^ p := Nat.two_pow_pos p
  have hdm := Nat.div_add_mod k (2 ^ p)
  have hq : k / 2 ^ p < 256 := (Nat.div_lt_iff_lt_mul hpos).mpr hk
  split at hn
  next htop =>
    split at hn
    next h0 =>
      simp only [htop, h0, if_true, Stands, true_and]
      rw [htop, h0] at hdm
      omega
    · simp [Num.isNan] at hn
  next htop =>
    have hfin : k < 255 * 2 ^ p := (Nat.div_lt_iff_lt_mul hpos).mp (by omega)
    rw [if_neg htop]
    by_cases h0 : k / 2 ^ p = 0
    · have hsmall : k < 2 ^ p := by rwa [Nat.div_eq_zero_iff_lt hpos] at h0
      rw [if_pos h0]
      refine ⟨rfl, hfin, by omega, ?_⟩
      rw [show ((1 : Int) - (127 : Nat) - p + 126 + p).toNat = 0 by omega, magUnits, if_pos hsmall, Nat.mod_eq_of_lt hsmall]
      omega
    · have hbig : ¬ k < 2 ^ p := by rwa [Nat.div_eq_zero_iff_lt hpos] at h0
      rw [if_neg h0]
      refine ⟨rfl, hfin, by generalize k / 2 ^ p = q at h0; omega, ?_⟩
      have hexp : ∀ q : Nat, ((q : Int) - (127 : Nat) - p + 126 + p).toNat = q - 1 := fun q => by omega
      rw [hexp, magUnits, if_neg hbig]

theorem compare_int (a b : Int) : compare a b = if a < b then .lt else if a = b then .eq else .gt := rfl

theorem compare_congr {a b c d : Int} (hl : a < b ↔ c < d) (he : a = b ↔ c = d) : compare a b = compare c d := by
  simp only [compare_int, hl, he]

theorem compare_mul_pos {a b c : Int} (hc : 0 < c) : compare (a * c) (b * c) = compare a b := by
  simp only [compare_int, Int.mul_lt_mul_right hc, Int.mul_eq_mul_right_iff hc.ne']

/-- Alignment to an exponent, in units. -/
theorem alignTo_units {p k m : Nat} {n : Bool} {e low : Int} (hlow : low ≤ e) (hmin : -(126 + p : Int) ≤ low)
    (h : m * 2 ^ (e + 126 + p).toNat = magUnits p k) :
    alignTo n m e low * (2 ^ (low + 126 + p).toNat : Nat) = signedUnits n (magUnits p k) := by
  have hsum : (e - low).toNat + (low + 126 + p).toNat = (e + 126 + p).toNat := by omega
  have hu : ((m * 2 ^ (e - low).toNat : Nat) : Int) * (2 ^ (low + 126 + p).toNat : Nat) = (magUnits p k : Nat) := by
    rw [← Nat.cast_mul, Nat.mul_assoc, ← Nat.pow_add, hsum, h]
  cases n
  · simpa only [alignTo, signedUnits, Bool.false_eq_true, if_false] using hu
  · simpa only [alignTo, signedUnits, if_true, Int.neg_mul, neg_inj] using hu

theorem signedUnits_lt {p k j : Nat} (h : k < j) (n m : Bool) :
    (signedUnits n (magUnits p k) < signedUnits m (magUnits p j) ↔ m = false) ∧
    (signedUnits m (magUnits p j) < signedUnits n (magUnits p k) ↔ m = true) := by
  have hlt : magUnits p k < magUnits p j := magUnits_strictMono p h
  cases n <;> cases m <;> simp [signedUnits] <;> omega

/-- Two values are compared as their units. -/
theorem numCmp_of_stands {p k j : Nat} {n m : Bool} {x y : Num} (hx : Stands p n k x) (hy : Stands p m j y) :
    numCmp x y = compare (signedUnits n (magUnits p k)) (signedUnits m (magUnits p j)) := by
  match x, y, hx, hy with
  | .fin a ma ea, .fin b mb eb, ⟨ha, _, hea, hma⟩, ⟨hb, _, heb, hmb⟩ =>
    subst ha hb
    have hlow : ∃ low, low = if ea ≤ eb then ea else eb := ⟨_, rfl⟩
    obtain ⟨low, hl⟩ := hlow
    have h1 : low ≤ ea ∧ low ≤ eb ∧ -(126 + p : Int) ≤ low := by rw [hl]; split <;> omega
    obtain ⟨h1, h2, h3⟩ := h1
    rw [← alignTo_units h1 h3 hma, ← alignTo_units h2 h3 hmb, compare_mul_pos (by exact_mod_cast Nat.two_pow_pos _), hl]
    rfl
  | .inf a, .inf b, ⟨ha, hk⟩, ⟨hb, hj⟩ =>
    subst ha hb
    have hpos : 0 < magUnits p j := (magUnits_zero p).symm.trans_lt (magUnits_strictMono p (by rw [hj]; positivity))
    rw [hk, ← hj]
    cases a <;> cases b <;> simp [numCmp, compare_int, signedUnits, hpos.ne', Int.not_lt.mpr (Int.natCast_nonneg (magUnits p j))]
  | .inf a, .fin b mb eb, ⟨ha, hk⟩, ⟨hb, hj, _⟩ =>
    subst ha
    obtain ⟨h1, h2⟩ := signedUnits_lt (p := p) (hk ▸ hj : j < k) m a
    cases a
    · have := h1.mpr rfl
      simp only [numCmp, compare_int, Bool.false_eq_true, if_false]
      rw [if_neg (by omega), if_neg (by omega)]
    · rw [compare_int, if_pos (h2.mpr rfl)]; rfl
  | .fin a ma ea, .inf b, ⟨ha, hk, _⟩, ⟨hb, hj⟩ =>
    subst hb
    obtain ⟨h1, h2⟩ := signedUnits_lt (p := p) (hj ▸ hk : k < j) n b
    cases b
    · rw [compare_int, if_pos (h1.mpr rfl)]; rfl
    · have := h2.mpr rfl
      simp only [numCmp, compare_int, if_true]
      rw [if_neg (by omega), if_neg (by omega)]

theorem stands_isZero {p k : Nat} {n : Bool} {x : Num} (h : Stands p n k x) : x.isZero = decide (k = 0) := by
  have hinj := magUnits_eq_zero p k
  match x, h with
  | .inf a, ⟨_, hk⟩ =>
    have : k ≠ 0 := by rw [hk]; positivity
    simp [Num.isZero, this]
  | .fin a 0 e, ⟨_, _, _, hm⟩ => simp [Num.isZero, ← hinj, ← hm]
  | .fin a (m + 1) e, ⟨_, _, _, hm⟩ =>
    have : k ≠ 0 := fun h => by
      rw [h, magUnits_zero] at hm
      exact absurd hm (by positivity)
    simp [Num.isZero, this]

theorem stands_sign {p k : Nat} {n : Bool} {x : Num} (h : Stands p n k x) : x.sign = n := by
  match x, h with
  | .inf a, ⟨ha, _⟩ => exact ha
  | .fin a m e, ⟨ha, _⟩ => exact ha

/-- The order of the codes that are no NaN: −0 stands just below +0. -/
def codeKey (half c : Nat) : Int := if c < half then (c : Int) else (half : Int) - 1 - c

theorem codeKey_cases {half a : Nat} (ha : a < 2 * half) :
    (decide (half ≤ a) = false ∧ codeKey half a = (a % half : Nat)) ∨ (decide (half ≤ a) = true ∧ codeKey half a = -1 - (a % half : Nat)) := by
  unfold codeKey
  by_cases h : half ≤ a
  · rw [Nat.mod_eq_sub_mod h, Nat.mod_eq_of_lt (by omega), if_neg (by omega)]
    exact .inr ⟨decide_eq_true h, by omega⟩
  · rw [Nat.mod_eq_of_lt (by omega), if_pos (by omega)]
    exact .inl ⟨decide_eq_false h, rfl⟩

/-- Units order codes as their keys do, but for the two zeros. -/
theorem compare_units_eq_keys {p half a b : Nat} (ha : a < 2 * half) (hb : b < 2 * half)
    (hz : ¬ (a % half = 0 ∧ b % half = 0 ∧ decide (half ≤ a) ≠ decide (half ≤ b))) :
    compare (signedUnits (decide (half ≤ a)) (magUnits p (a % half))) (signedUnits (decide (half ≤ b)) (magUnits p (b % half))) =
      compare (codeKey half a) (codeKey half b) := by
  have hlt := (magUnits_strictMono p).lt_iff_lt (a := a % half) (b := b % half)
  have hgt := (magUnits_strictMono p).lt_iff_lt (a := b % half) (b := a % half)
  have hza := magUnits_eq_zero p (a % half)
  have hzb := magUnits_eq_zero p (b % half)
  rcases codeKey_cases ha with ⟨h1, k1⟩ | ⟨h1, k1⟩ <;> rcases codeKey_cases hb with ⟨h2, k2⟩ | ⟨h2, k2⟩ <;>
    rw [h1, h2] at hz ⊢ <;> rw [k1, k2] <;>
    simp only [signedUnits, Bool.false_eq_true, if_false, if_true, ne_eq, not_true, and_false, reduceCtorEq, not_false_eq_true, and_true] at hz ⊢ <;>
    exact compare_congr (by omega) (by omega)

/-- How `floatPick` compares two values that are no NaN: the zeros by their signs. -/
def pickOrder (x y : Num) : Ordering :=
  if x.isZero && y.isZero && x.sign != y.sign then (if x.sign then .lt else .gt) else numCmp x y

theorem floatPick_of_no_nan {f : Fmt} {greater : Bool} {m v : Nat} (hx : (decodeNum f m).isNan = false) (hy : (decodeNum f v).isNan = false) :
    floatPick f greater m v =
      (if (if greater then pickOrder (decodeNum f m) (decodeNum f v) != .lt else pickOrder (decodeNum f m) (decodeNum f v) != .gt) then m else v,
        0) := by
  have sig : ∀ x : Num, x.isNan = false → x.isSNan = false := fun x h => by cases x <;> simp_all [Num.isNan, Num.isSNan]
  unfold floatPick
  simp only [sig _ hx, sig _ hy, hx, hy, Bool.or_self, Bool.and_self, Bool.false_eq_true, if_false]
  rfl

theorem pickOrder_eq_keys {f : Fmt} (hf : isWide f) {m v : Nat} (hm : m < 2 ^ (fmtFrac f + 9)) (hv : v < 2 ^ (fmtFrac f + 9))
    (hx : (decodeNum f m).isNan = false) (hy : (decodeNum f v).isNan = false) :
    pickOrder (decodeNum f m) (decodeNum f v) = compare (codeKey (2 ^ (fmtFrac f + 8)) m) (codeKey (2 ^ (fmtFrac f + 8)) v) := by
  have sx := stands_decodeNum hf hm hx
  have sy := stands_decodeNum hf hv hy
  have hdouble : 2 ^ (fmtFrac f + 9) = 2 * 2 ^ (fmtFrac f + 8) := Nat.pow_succ'
  rw [hdouble] at hm hv
  unfold pickOrder
  rw [stands_isZero sx, stands_isZero sy, stands_sign sx, stands_sign sy]
  split
  next hz =>
    simp only [Bool.and_eq_true, decide_eq_true_eq, bne_iff_ne] at hz
    obtain ⟨⟨h1, h2⟩, hne⟩ := hz
    rcases codeKey_cases hm with ⟨n1, k1⟩ | ⟨n1, k1⟩ <;> rcases codeKey_cases hv with ⟨n2, k2⟩ | ⟨n2, k2⟩ <;>
      rw [n1, n2] at hne <;> rw [n1, k1, k2, h1, h2]
    exacts [absurd rfl hne, rfl, rfl, absurd rfl hne]
  next hz =>
    rw [numCmp_of_stands sx sy]
    exact compare_units_eq_keys hm hv fun ⟨h1, h2, h3⟩ => hz (by simp [h1, h2, h3])

theorem compare_ne_gt (a b : Int) : (compare a b != .gt) = decide (a ≤ b) := by
  rw [compare_int]
  by_cases h : a < b
  · simp [h, h.le]
  · by_cases e : a = b
    · simp [e]
    · simp [h, e, show ¬ a ≤ b by omega]

theorem compare_ne_lt (a b : Int) : (compare a b != .lt) = decide (b ≤ a) := by
  rw [compare_int]
  by_cases h : a < b
  · simp [h]
  · by_cases e : a = b
    · simp [e]
    · simp [h, e, show b ≤ a by omega]

section
variable {f : Fmt} {m v : Nat}

theorem floatPick_min (hf : isWide f) (hm : m < 2 ^ (fmtFrac f + 9)) (hv : v < 2 ^ (fmtFrac f + 9)) (hx : (decodeNum f m).isNan = false)
    (hy : (decodeNum f v).isNan = false) : floatPick f false m v =
      (if codeKey (2 ^ (fmtFrac f + 8)) m ≤ codeKey (2 ^ (fmtFrac f + 8)) v then m else v, 0) := by
  rw [floatPick_of_no_nan hx hy, pickOrder_eq_keys hf hm hv hx hy, compare_ne_gt]
  simp

theorem floatPick_max (hf : isWide f) (hm : m < 2 ^ (fmtFrac f + 9)) (hv : v < 2 ^ (fmtFrac f + 9)) (hx : (decodeNum f m).isNan = false)
    (hy : (decodeNum f v).isNan = false) : floatPick f true m v =
      (if codeKey (2 ^ (fmtFrac f + 8)) v ≤ codeKey (2 ^ (fmtFrac f + 8)) m then m else v, 0) := by
  rw [floatPick_of_no_nan hx hy, pickOrder_eq_keys hf hm hv hx hy, compare_ne_lt]
  simp

variable (greater : Bool)

theorem floatPick_of_snan (h : (decodeNum f m).isSNan = true ∨ (decodeNum f v).isSNan = true) : floatPick f greater m v = (canonNan f, fInvalid) :=
  if_pos (by simpa using h)

/-- A minimum or maximum where some operand may be a quiet NaN. -/
theorem floatPick_of_nan (hm : (decodeNum f m).isSNan = false) (hv : (decodeNum f v).isSNan = false) :
    ((decodeNum f m).isNan = true → (decodeNum f v).isNan = true → floatPick f greater m v = (canonNan f, 0)) ∧
    ((decodeNum f m).isNan = true → (decodeNum f v).isNan = false → floatPick f greater m v = (v, 0)) ∧
    ((decodeNum f m).isNan = false → (decodeNum f v).isNan = true → floatPick f greater m v = (m, 0)) := by
  unfold floatPick
  refine ⟨fun h g => ?_, fun h g => ?_, fun h g => ?_⟩ <;> simp [hm, hv, h, g]

end

/-! ## The reductions (R137, R138) -/

/-- The format of a float reduction. -/
def redFmt (z : BitVec 3) : Fmt := if z = 1 then .bf16 else .f32

theorem redFmt_wide (z : BitVec 3) : isWide (redFmt z) := by
  unfold redFmt isWide
  split <;> simp

theorem redFmt_bits {z : BitVec 3} (h : z = 1 ∨ z = 2) : 8 * accessSize z = fmtFrac (redFmt z) + 9 := by
  rcases h with rfl | rfl <;> decide

theorem combine_minFloat (z : BitVec 3) (m v : Nat) : combine .minFloat z m v = floatPick (redFmt z) false m v := rfl
theorem combine_maxFloat (z : BitVec 3) (m v : Nat) : combine .maxFloat z m v = floatPick (redFmt z) true m v := rfl
theorem combine_addFloat (z : BitVec 3) (m v : Nat) : combine .addFloat z m v = floatAdd (redFmt z) 0 m v := rfl

/-- Settles O14: the integer reductions by two's complement, the float ones by the order of the codes. -/
theorem reductionValues : Obligations.ReductionValues := by
  unfold Obligations.ReductionValues
  refine ⟨fun z m v _ hm hv => ?_, fun z m v hz hm hv => ?_, by decide, by decide, by decide, by decide, by decide, by decide, by decide, by decide,
    by decide⟩
  · exact ⟨rfl, rfl, rfl, rfl, combine_min hm hv, combine_max hm hv, combine_minUn, combine_maxUn⟩
  · dsimp only
    rw [← redFmt, combine_minFloat, combine_maxFloat, combine_addFloat]
    rw [redFmt_bits hz] at hm hv ⊢
    rw [Nat.add_sub_assoc (by decide : 1 ≤ 9)]
    have hf := redFmt_wide z
    refine ⟨fun h => ⟨floatPick_of_snan _ h, floatPick_of_snan _ h⟩, fun hsm hsv => ?_, rfl⟩
    obtain ⟨n1, n2, n3⟩ := floatPick_of_nan false hsm hsv
    obtain ⟨x1, x2, x3⟩ := floatPick_of_nan true hsm hsv
    exact ⟨fun h g => ⟨n1 h g, x1 h g⟩, fun h g => ⟨n2 h g, x2 h g⟩, fun h g => ⟨n3 h g, x3 h g⟩,
      fun h g => ⟨floatPick_min hf hm hv h g, floatPick_max hf hm hv h g⟩⟩

end Sys2Proof.Machine
end

section
/-! Results that come at once or through a lookahead window, `pref`, and loads into access registers (O9, O15). -/

namespace Sys2Proof.Machine

open Sys2Proof

/-! ## `pref` (R140) -/

theorem exec_pref (m : BitVec 2) (z : BitVec 3) (b a : RegNum) (s : State) :
    exec (.pref m z b a) s = s.finish (.ok (updateBase a m b 64 (s.reg a) s).advance) := rfl

/-- The base of a post-increment form, whatever the seal of its capability (R79). -/
theorem updateBase_reg_postInc {m : BitVec 2} {b a : RegNum} {c : Cap} {n : Nat} {u : State} (hm : 2 ≤ m.toNat) :
    (updateBase a m b n c u).reg a = written a (if c.sealed = true then State.untag (baseAfter c m b n) else baseAfter c m b n) := by
  have hm : ¬ m.toNat < 2 := by omega
  simp [updateBase, baseAfter, hm]

/-- Settles O15: `pref` is its base update and nothing else. -/
theorem prefChangesBaseOnly : Obligations.PrefChangesBaseOnly := by
  unfold Obligations.PrefChangesBaseOnly
  intro m z b a s
  exact Completes.of_finish (exec_pref m z b a s) updateBase_pc
    ⟨fun hm => by rw [State.end_reg, State.advance_reg, updateBase_reg_postInc hm], ((Made.start [] s).updateBase).advance.complete.frame⟩

/-! ## Results through the lookahead window (R93) -/

section
variable {ds : List RegNum} {m s u : State} (l : BitVec 4) (d : RegNum) (c : Cap)

/-- The window of such a result. -/
def windowOf : PendWrite := ⟨d, some c, none, l.toNat + 1, none⟩

theorem deliver_of_zero (x : State) : x.deliver d 0 (some c) none = x.writeReg d c := rfl

theorem deliver_of_ne_zero {l : BitVec 4} (hl : l ≠ 0) (x : State) : x.deliver d l (some c) none = opened x l d c := if_neg hl

theorem Agrees.opened (h : Agrees m u) : Agrees (opened m l d c) (opened u l d c) where
  context := congrArg (fun k : Ctx => { k with pend := u.thr.ctx.pend ++ [windowOf l d c] }) h.context
  thread := congrArg (fun h : Thread => { h with ctx := (Machine.opened u l d c).thr.ctx }) h.thread
  machine := congrArg (fun x : State => { x with thr := (Machine.opened u l d c).thr }) h.machine

/-- One more window opens over the state of a word. -/
theorem Made.opened (h : Made ds m s u) : Made ds (opened m l d c) s (opened u l d c) where
  regs := h.regs
  marks := h.marks
  marksKept := h.marksKept
  lateKept := h.lateKept
  lateNew := h.lateNew
  code := h.code
  pend := congrArg (· ++ [windowOf l d c]) h.pend
  rest := h.rest.opened l d c

/-- A result at the end of a word. -/
theorem Made.delivered (h : Made ds m s u) : Delivered l d c ds m s (u.deliver d l (some c) none).advance.clearStall.complete := by
  unfold Delivered
  split
  next hl =>
    subst hl
    exact ⟨by rw [State.end_reg, State.advance_reg, deliver_of_zero, State.reg_writeReg], ((h.widen fun r hr => List.mem_cons_of_mem d hr).writeReg d c (by simp)).advance.complete⟩
  next hl =>
    rw [deliver_of_ne_zero d c hl]
    exact (h.opened l d c).advance.complete

theorem deliver_pc (v : Option Cap) (k : Option Deferred) (x : State) : (x.deliver d l v k).pc = x.pc := by
  unfold State.deliver
  split
  · match k, v with
    | some f, _ => exact State.markReg_pc x d f
    | none, some c => exact State.writeReg_pc x d c
    | none, none => rfl
  · rfl

theorem deliver_byteAt (v : Option Cap) (k : Option Deferred) (x : State) (y : Nat) : (x.deliver d l v k).byteAt y = x.byteAt y := by
  rw [State.byteAt, State.deliver_mem]; rfl

/-- A result leaves every other register, and its own until the window ends. -/
theorem deliver_reg_ne {l : BitVec 4} {d r : RegNum} (h : r ≠ d ∨ l ≠ 0) (c : Cap) (x : State) : (x.deliver d l (some c) none).reg r = x.reg r := by
  by_cases hl : l = 0
  · subst hl
    exact State.reg_writeReg_ne x c (h.resolve_right fun g => g rfl)
  · rw [deliver_of_ne_zero d c hl]; rfl

end

/-! ## Reads that nothing refuses leave nothing at the ports (R336) -/

section
variable {s : State} {q : Req}

theorem portAdmits_of_opens {pa : Nat} (h : s.opens q pa = true) : s.portAdmits q pa = true := by
  simp only [State.opens, State.serves, Bool.and_eq_true] at h
  exact h.1.1

/-- Every line of a read that nothing refuses is opened. -/
theorem opens_of_readFault_none {pa n : Nat} (h : s.readFault q pa n = none) {l : Nat} (hl : l ∈ blocksOf 64 pa n) : s.opens q (l * 64) = true := by
  unfold State.readFault at h
  dsimp only at h
  split at h
  · cases h
  · split at h
    · cases h
    next hf => simpa using List.find?_eq_none.mp hf l hl

theorem portEvent_of_no_fault {a : Nat} {ps : List (Nat × Nat)} (h : s.piecesFault q a ps = none) : s.portEvent q ps = none := by
  induction ps generalizing a with
  | nil => rfl
  | cons p r ih =>
    obtain ⟨pa, n⟩ := p
    unfold State.piecesFault at h
    split at h
    · cases h
    next hf =>
      have hnone : (blocksOf 64 pa n).find? (fun l => !s.portAdmits q (l * 64)) = none := by
        rw [List.find?_eq_none]
        intro l hl
        simp [portAdmits_of_opens (opens_of_readFault_none hf hl)]
      unfold State.portEvent
      rw [hnone]
      exact ih h

theorem noteReads_of_no_fault {a : Nat} {ps : List (Nat × Nat)} (h : s.piecesFault s.req a ps = none) : noteReads ps s = s := by
  rw [noteReads, portEvent_of_no_fault h]

end

/-! ## A load into an access register -/

section
variable {s : State} {m : BitVec 2} {l : BitVec 4} {z : BitVec 3} {b a d : RegNum} {ps : List (Nat × Nat)}

/-- The state in which a load has been logged. -/
def loadLogged (c : Cap) (z : BitVec 3) (ps : List (Nat × Nat)) (s : State) : State :=
  s.logValue (loadedVal c z ps s) (loadEntrySize z)

theorem exec_ld_reg (hfit : effectiveFits (s.reg a) m b (accessSize z) s = true)
    (hr : Reaches s (s.reg a) (effective (s.reg a) m b (accessSize z) s) (accessSize z) needLoad (regName a) ps s)
    (hz : z = 7 → (effective (s.reg a) m b (accessSize z) s).toNat % 16 = 0)
    (hf : s.piecesFault s.req (addrOf (s.reg a).space (effective (s.reg a) m b (accessSize z) s)) ps = none) (hg : s.givenEntry = none) :
    exec (.ld 0 m l z b a d) s =
      s.finish (.ok ((updateBase a m b (accessSize z) (s.reg a) (loadLogged (s.reg a) z ps s)).deliver d l
        (some (loadedVal (s.reg a) z ps s).val) none).advance) := by
  rw [exec_ld, execLd, if_pos rfl]
  simp only [loadReg, hfit, loadValue_of_reaches hr hz hf hg, noteReads_of_no_fault hf, Res.ok_bind]
  rfl

theorem logValue_reg (v : TaskVal) (k : Nat) (r : RegNum) : (s.logValue v k).reg r = s.reg r := by
  simp only [State.reg_eq, State.logValue_ctx]

/-- Settles O9: the load is logged, the base updated, and the value delivered over that state. -/
theorem loadRegister : Obligations.LoadRegister := by
  unfold Obligations.LoadRegister
  intro m l z b a d s t ps
  dsimp only
  intro hfit hr hz hf hg
  obtain rfl : t = s := hr.state
  have hexec := exec_ld_reg (l := l) (d := d) hfit hr hz hf hg
  have hctx : (loadLogged (t.reg a) z ps t).thr.ctx = t.thr.ctx := State.logValue_ctx ..
  have hmem : (loadLogged (t.reg a) z ps t).mem = t.mem := State.logValue_mem ..
  have hreg : (loadLogged (t.reg a) z ps t).reg a = t.reg a := logValue_reg ..
  have hmade : Made [] (loadLogged (t.reg a) z ps t) t (loadLogged (t.reg a) z ps t) := Made.self _ _ (by rw [hctx]) (by rw [hctx])
  have hpc : (loadLogged (t.reg a) z ps t).pc = t.pc := by rw [State.pc, hctx]; rfl
  refine Completes.of_finish hexec (by rw [deliver_pc, updateBase_pc, hpc]) ⟨fun hd => ?_, ?_, fun x => ?_⟩
  · rw [State.end_reg, State.advance_reg, deliver_reg_ne hd, updateBase_reg (State.unsealed_of_checkCap hr.checked) hreg]
  · exact hmade.updateBase.delivered l d _
  · rw [State.end_byteAt]
    exact (deliver_byteAt ..).trans (by rw [State.byteAt, updateBase_mem, hmem]; rfl)

end

end Sys2Proof.Machine
end

section
/-! The memory reductions (O13). A store to FAR looks for the expander behind its own first byte, a read for the one behind the first byte
of the line: where an expander ends inside a line, a home that refuses nothing drops the store. -/

namespace Sys2Proof.Machine

open Sys2Proof Sys2Proof.Tests

/-- The sample with a frame of FAR behind which the one expander holds 8 bytes; a11 names the 8 bytes after those. -/
def farEdge : State := { with11 (cap 3 0x0FF 8 0x10000 8) with
  hub := { hub0 with farFrames := [(0, (1, 0))], expanders := [⟨0, 0, 8, true⟩] } }

theorem farEdge_checked : farEdge.checkCap farEdge.who (farEdge.reg 11) (farEdge.reg 11).cursor (accessSize 3) needMred
    (regName 11) = .ok () := rfl

theorem farEdge_translated : ∃ t, farEdge.translateAt farEdge.who (farEdge.reg 11).space (farEdge.reg 11).addr needMred =
    .ok (paFar 8, t) ∧ homeRefusal farEdge.req (paFar 8) (accessSize 3) t = none ∧ t.readNat (paFar 8) (accessSize 3) = 0 := by
  refine ⟨farEdge, rfl, ?_, ?_⟩ <;> decide

theorem exec_farEdge : nextIs (exec (.mredAdd 0 3 4 11 5) farEdge) (fun u => u.readNat (paFar 8) (accessSize 3) == 0) = true := by
  decide

theorem farEdge_fresh : freshStamp farEdge := by
  constructor <;> decide

/-- Refutes O13, in its clause on the bits in place: the home takes the reduction of `farEdge`, answers with the old bits and drops the
store, so that its bytes stay 0 where the sum is 5. -/
theorem not_memoryReductions : ¬ Obligations.MemoryReductions := by
  unfold Obligations.MemoryReductions
  intro h
  obtain ⟨t, htranslated, hhome, hold⟩ := farEdge_translated
  obtain ⟨u, hu, _, _, hread, _⟩ := h 0 3 4 11 5 farEdge t (paFar 8) (.mredAdd 0 3 4 11 5) .add (by simp) (by decide) farEdge_checked
    (by decide) htranslated hhome farEdge_fresh
  have hzero := exec_farEdge
  rw [hu] at hzero
  rw [hold] at hread
  have hsum : (combine .add 3 0 ((farEdge.int 4).toNat % 2 ^ (8 * accessSize 3))).1 % 2 ^ (8 * accessSize 3) = 5 := by decide
  rw [hsum] at hread
  rw [nextIs, hread] at hzero
  exact absurd hzero (by decide)

end Sys2Proof.Machine
end

section
/-! Stamped operations (R387): what the issue changes before the home is reached, what the homes and the logs change, and how the reply
reaches the thread. -/

namespace Sys2Proof.Machine

open Sys2Proof

/-! ## Before the home: the flit, the count of effects, the stamp -/

/-- The state `s` but for what the issue of a stamped operation may change before its home is reached: the flits sent, the step's
restartability, the task's count and the stamp itself. -/
def issuedOf (s z : State) : State :=
  { s with parts := z.parts, hub := { s.hub with sent := z.hub.sent, sentSeq := z.hub.sentSeq },
           thr := { s.thr with task := z.thr.task, ctx := { s.thr.ctx with sseq := s.thr.ctx.sseq + 1, stamped := s.thr.ctx.stamped + 1 } } }

section
variable (s : State) (q : Req) (pa n : Nat) (z : State)

theorem issuedOf_readFault : (issuedOf s z).readFault q pa n = s.readFault q pa n := rfl
theorem issuedOf_ctrRefusal : ctrRefusal q pa (issuedOf s z) = ctrRefusal q pa s := rfl
theorem issuedOf_serves : (issuedOf s z).serves q pa = s.serves q pa := rfl
theorem issuedOf_isCounterLine : (issuedOf s z).isCounterLine pa = s.isCounterLine pa := rfl
theorem issuedOf_isPoisoned : (issuedOf s z).isPoisoned pa = s.isPoisoned pa := rfl
theorem issuedOf_takesStore : takesStore (issuedOf s z) q pa = takesStore s q pa := rfl
theorem issuedOf_readNat : (issuedOf s z).readNat pa n = s.readNat pa n := rfl
theorem issuedOf_world (w : Nat) : (issuedOf s z).world w = s.world w := rfl

end

theorem useStamp_eq (s : State) : s.useStamp = issuedOf s s.useStamp := by
  unfold State.useStamp
  dsimp only
  split <;> rfl

theorem countEffect_eq (s : State) : s.countEffect = s.modThr fun h => { h with task := s.countEffect.thr.task } := by
  unfold State.countEffect
  split <;> rfl

/-- The state `s` but for the flits that `z` has sent. -/
def sentOf (s z : State) : State := { s with hub := { s.hub with sent := z.hub.sent, sentSeq := z.hub.sentSeq } }

theorem sendCounter_eq (r : CtrRef) (a : RegNum) (op : FlitOp) (s : State) :
    sendCounter r a op s = sentOf s (sendCounter r a op s) := by
  unfold sendCounter State.sendRequest
  split
  · split <;> rfl
  · rfl

section
variable {send : State → State} (hsend : ∀ x, send x = sentOf x (send x))
include hsend

theorem send_thr (x : State) : (send x).thr = x.thr := by rw [hsend]; rfl

theorem send_sheaf (x : State) : (send x).sheaf = x.sheaf := by rw [hsend]; rfl

theorem send_curPart (x : State) : (send x).curPart = x.curPart := by rw [hsend]; rfl

/-- What the home of a counter operation meets. -/
theorem issued_eq (s : State) : (send s.countEffect).useStamp = issuedOf s (send s.countEffect).useStamp :=
  calc (send s.countEffect).useStamp = issuedOf (send s.countEffect) (send s.countEffect).useStamp := useStamp_eq _
    _ = issuedOf (sentOf s.countEffect (send s.countEffect)) (send s.countEffect).useStamp := by rw [← hsend]
    _ = issuedOf s (send s.countEffect).useStamp := by
      generalize (send s.countEffect).useStamp = z
      rw [countEffect_eq]
      rfl

end

/-! ## At the home: a stamp that it does not hold -/

/-- The entry that a stamped operation leaves in the sheaf. -/
def sheafEntry (s : State) (maj func : BitVec 8) (operand : Word64) (r : State.Reply) : SheafEntry :=
  ⟨s.thr.world, s.thr.part, s.thr.cref, s.curPart.stepNo, s.thr.ctx.stamped, maj, func, operand, r.result, r.fault, false, []⟩

/-- A state with the sheaf that a stamped operation leaves. -/
def sheafed (s : State) (maj func : BitVec 8) (operand : Word64) (r : State.Reply) : State :=
  { r.state with sheaf := if s.stampKept then r.state.sheaf ++ [sheafEntry s maj func operand r] else r.state.sheaf }

theorem stamped_of_fresh {s : State} (hf : s.sheafFind s.thr.world s.thr.part s.thr.cref s.curPart.stepNo s.thr.ctx.stamped = none)
    (maj func : BitVec 8) (operand line : Word64) (apply : State → Res State.Reply) :
    s.stamped maj func operand line apply =
      (apply s.useStamp).bind fun r => .ok { r with state := sheafed s maj func operand r } := by
  simp only [State.stamped, hf, ite_self, sheafed, sheafEntry]
  congr 1
  funext r
  cases s.stampKept <;> rfl

/-! ## After the home: the logs -/

/-- The state `x` but for the sheaf and the thread's task log. -/
def logsOf (x t : State) : State :=
  { x with sheaf := t.sheaf, thr := { x.thr with task := t.thr.task, restartable := t.thr.restartable } }

theorem logEntry_eq (x : State) (v : TaskEntry) (k : Nat) : x.logEntry v k = logsOf x (x.logEntry v k) := by
  unfold State.logEntry
  split
  · split <;> rfl
  · rfl

theorem noteCounter_of_plain {s : State} (h : plainRun s) (v : Word64) : s.noteCounter v = s :=
  State.noteArrival_of_no_record _ h.1 h.2

theorem holdEarly_of_plain {s : State} (h : plainRun s) (v : Word64) : holdEarly v s = .ok () := by
  have hearly : s.arrivesEarly v = false := by
    unfold State.arrivesEarly State.comesLater
    (repeat' split) <;> simp [h.2]
  rw [holdEarly, hearly]
  rfl

/-- What an operation does whose stamp no home holds. -/
theorem stamped_issued_of_fresh {send : State → State} (hsend : ∀ x, send x = sentOf x (send x)) {s : State} (hf : freshStamp s)
    (maj func : BitVec 8) (operand line : Word64) (apply : State → Res State.Reply) :
    (send s.countEffect).stamped maj func operand line apply = (apply (send s.countEffect).useStamp).bind fun r =>
      .ok { r with state := sheafed (send s.countEffect) maj func operand r } := by
  have hthr : s.countEffect.thr.ctx = s.thr.ctx ∧ s.countEffect.thr.world = s.thr.world ∧ s.countEffect.thr.part = s.thr.part ∧
      s.countEffect.thr.cref = s.thr.cref ∧ s.countEffect.sheaf = s.sheaf ∧ s.countEffect.curPart = s.curPart := by
    rw [countEffect_eq]
    exact ⟨rfl, rfl, rfl, rfl, rfl, rfl⟩
  obtain ⟨hctx, hworld, hpart, hcref, hsheaf, hcur⟩ := hthr
  refine stamped_of_fresh ?_ ..
  rw [send_thr hsend, send_curPart hsend, hctx, hworld, hpart, hcref, hcur, State.sheafFind, send_sheaf hsend, hsheaf]
  exact hf.2

/-- A counter operation whose stamp no home holds: the home's reply, with what it leaves in the logs. -/
theorem stampedCounter_of_fresh {send again : State → State} (hsend : ∀ x, send x = sentOf x (send x))
    (hagain : ∀ u l, again { u with sheaf := l } = { again u with sheaf := l }) {s : State} (hf : freshStamp s)
    (maj func : BitVec 8) (operand line : Word64) (d : RegNum) (l : BitVec 4) (home : State → State.Reply)
    (hplain : plainRun (home (send s.countEffect).useStamp).state) (hkeeps : ∀ u, plainRun u → plainRun (again u)) :
    let x := home (send s.countEffect).useStamp
    ∃ t, t = logsOf (if x.fault = 0 then again x.state else x.state) t ∧
      stampedCounter send maj func operand line d l home again s = .ok (takeReply d l x.result x.fault line s t) := by
  intro x
  have hstamped : (send s.countEffect).stamped maj func operand line (fun u => .ok (home u)) =
      .ok { x with state := sheafed (send s.countEffect) maj func operand x } := stamped_issued_of_fresh hsend hf ..
  obtain ⟨sh, hsh⟩ : ∃ sh, sheafed (send s.countEffect) maj func operand x = { x.state with sheaf := sh } := ⟨_, rfl⟩
  have hafter : (if x.fault = 0 then again { x.state with sheaf := sh } else { x.state with sheaf := sh }) =
      { (if x.fault = 0 then again x.state else x.state) with sheaf := sh } := by
    split
    · exact hagain ..
    · rfl
  have hrun : plainRun (if x.fault = 0 then again x.state else x.state) := by
    split
    · exact hkeeps _ hplain
    · exact hplain
  refine ⟨({ (if x.fault = 0 then again x.state else x.state) with sheaf := sh }).logEntry ⟨⟨Cap.ofInt x.result, 0⟩, x.fault⟩ 0, ?_, ?_⟩
  · rw [logEntry_eq]
    rfl
  · simp only [stampedCounter, hf.1, hstamped, hsh, Res.ok_bind, hafter]
    rw [noteCounter_of_plain (s := { (if x.fault = 0 then again x.state else x.state) with sheaf := sh }) hrun]

/-- The same where the home changes no more than memory's homes do. -/
theorem stampedCounter_at_homes {home : State → State.Reply} (hhome : ∀ z, homesOf z (home z).state = (home z).state) {s : State}
    (hs : plainRun s) (hf : freshStamp s) (r : CtrRef) (a : RegNum) (op : FlitOp) (maj func : BitVec 8) (operand line : Word64)
    (d : RegNum) (l : BitVec 4) :
    ∃ z t, z = issuedOf s z ∧ t = logsOf (home z).state t ∧ stampedCounter (sendCounter r a op) maj func operand line d l home id s =
      .ok (takeReply d l (home z).result (home z).fault line s t) := by
  have hz := issued_eq (sendCounter_eq r a op) s
  have hplain : plainRun (home (sendCounter r a op s.countEffect).useStamp).state := by
    rw [← hhome, hz]
    exact hs
  obtain ⟨t, ht, hword⟩ := stampedCounter_of_fresh (again := id) (sendCounter_eq r a op) (fun _ _ => rfl) hf maj func operand line d l home
    hplain (fun _ h => h)
  exact ⟨_, t, hz, by simpa using ht, hword⟩

/-! ## The reply -/

section
variable {l : BitVec 4} {d : RegNum} {v line : Word64} {c : Cap} {code : BitVec 8} {old m s u : State}

theorem takeReply_of_ok : takeReply d l v 0 line old u = if d = 0 then u else u.deliver d l (some (Cap.ofInt v)) none := rfl

theorem takeReply_pc (x : State) : (takeReply d l v code line old x).pc = x.pc := by
  have hfresh : ∀ y : State, y.fresh.2.pc = y.pc := fun _ => rfl
  have hdefer : ∀ (y : State) (f : Deferred), (y.defer f).pc = y.pc := fun _ _ => rfl
  unfold takeReply
  dsimp only
  (repeat' split) <;> simp only [hfresh, hdefer, deliver_pc]

theorem Made.replied (h : Made [] m s u) :
    Replied l d (Cap.ofInt v) m s (takeReply d l v 0 line old u).advance.clearStall.complete := by
  rw [Replied, takeReply_of_ok]
  split
  · exact h.advance.complete
  · exact h.delivered ..

/-- A reply leaves the machine as it is but for the thread. -/
theorem Delivered.machine (h : Delivered l d c [] m s u) : u = { m with thr := u.thr } := by
  unfold Delivered at h
  split at h
  · exact h.2.rest.machine
  · exact h.rest.machine

theorem Replied.machine (h : Replied l d c m s u) : u = { m with thr := u.thr } := by
  unfold Replied at h
  split at h
  · exact h.rest.machine
  · exact h.machine

theorem stampedOf_eq_of_agrees (h : Agrees m u) : stampedOf s u = stampedOf s m :=
  calc stampedOf s u = stampedOf s { m with thr := u.thr } := congrArg _ h.machine
    _ = stampedOf s { m with thr := { m.thr with ctx := u.thr.ctx, stall := u.thr.stall } } :=
      congrArg (fun y => stampedOf s { m with thr := y }) h.thread
    _ = stampedOf s m := rfl

theorem Becomes.stampedOf_eq {ds : List RegNum} (h : Becomes ds m s u) : stampedOf s u = stampedOf s m := stampedOf_eq_of_agrees h.rest

theorem Delivered.stampedOf_eq (h : Delivered l d c [] m s u) : stampedOf s u = stampedOf s m := by
  unfold Delivered at h
  split at h
  · exact h.2.stampedOf_eq
  · exact h.stampedOf_eq

theorem Replied.stampedOf_eq (h : Replied l d c m s u) : stampedOf s u = stampedOf s m := by
  unfold Replied at h
  split at h
  · exact Becomes.stampedOf_eq h
  · exact h.stampedOf_eq

end

theorem stampedOf_of_home {s z x t : State} (hz : z = issuedOf s z) (hx : homesOf z x = x) (ht : t = logsOf x t) : stampedOf s t = t := by
  rw [ht, ← hx, hz]
  rfl

/-- A state whose registers and marks are those of `s`, as a stamped operation leaves it. -/
theorem Made.stamped {s t : State} (h : stampedOf s t = t) : Made [] t s t :=
  Made.self t s (by rw [← h]; rfl) (by rw [← h]; rfl)

end Sys2Proof.Machine
end

section
/-! Counters (O17, O18, O20, O21): adds, reads, waits and the making of a counter line. -/

namespace Sys2Proof.Machine

open Sys2Proof

theorem exec_ctadd (l : BitVec 4) (sc k : BitVec 2) (b a d : RegNum) (s : State) :
    exec (.ctadd l sc k b a d) s = execCtadd l sc k b a d s := rfl

theorem counterRef_state {k : BitVec 2} {a : RegNum} {need : Need} {s t : State} {r : CtrRef} (h : counterRef k a need s = .ok (r, t)) : t = s := by
  have hm := counterRef_meets (s := s) (P := fun x => x.2 = s) (fun _ => rfl) k a need
  rw [h] at hm
  exact hm

/-! ## An add at a memory home -/

section
variable {q : Req} {pa : Nat} {v : Word64} {s : State}

theorem homesOf_noteRead (z : State) (q : Req) (pa n : Nat) : homesOf z (z.noteRead q pa n) = z.noteRead q pa n := by
  unfold State.noteRead State.notePort
  (repeat' split) <;> rfl

theorem homesOf_bumpLine (z : State) (q : Req) (pa : Nat) (v : Word64) : homesOf z (bumpLine q pa v z) = bumpLine q pa v z := by
  unfold bumpLine
  dsimp only
  split <;> rfl

theorem homesOf_lineAdd (z : State) (q : Req) (pa : Nat) (v : Word64) : homesOf z (lineAdd q pa v z).state = (lineAdd q pa v z).state := by
  unfold lineAdd
  split
  · exact homesOf_noteRead ..
  · dsimp only
    split
    · rfl
    · exact homesOf_bumpLine ..

theorem lineAdd_ctrLines (z : State) (q : Req) (pa : Nat) (v : Word64) : (lineAdd q pa v z).state.ctrLines = z.ctrLines := by
  unfold lineAdd State.noteRead State.notePort bumpLine
  dsimp only
  (repeat' split) <;> rfl

theorem lineAdd_result {z : State} (h : ctrRefusal q pa z = none) (hv : z.readNat pa 8 + v.toNat < 2 ^ 64) :
    (lineAdd q pa v z).result = BitVec.ofNat 64 (z.readNat pa 8) := by
  simp only [lineAdd, h, toNat_readNat, ge_iff_le, Nat.not_le.mpr hv, if_false]

end

/-- `ctadd` on a line, on a stamp that no home holds. -/
theorem exec_ctadd_line {l : BitVec 4} {sc : BitVec 2} {b a d : RegNum} {s t : State} {pa : Nat} (hs : plainRun s) (hf : freshStamp s)
    (hr : counterRef 1 a needCounter s = .ok (.mem pa, t)) :
    ∃ z u, z = issuedOf s z ∧ u = logsOf (lineAdd s.req pa (s.int b) z).state u ∧
      exec (.ctadd l sc 1 b a d) s = s.finish (.ok (takeReply d l (lineAdd s.req pa (s.int b) z).result
        (lineAdd s.req pa (s.int b) z).fault (s.int a) s u).advance) := by
  obtain rfl := counterRef_state hr
  obtain ⟨z, u, hz, hu, hword⟩ := stampedCounter_at_homes (fun z => homesOf_lineAdd z t.req pa (t.int b)) hs hf (.mem pa) a
    (.counterAdd (t.int b)) 0x18 1 (t.int b) (t.int a) d l
  refine ⟨z, u, hz, hu, ?_⟩
  have haddr : addRef 1 a t = .ok (.mem pa, t) := by
    rw [addRef, if_neg (by simp)]
    exact hr
  rw [exec_ctadd, execCtadd]
  simp only [haddr, Res.ok_bind, holdEarly_of_plain hs, hword]

theorem byteAt_of_mem {s u : State} (h : u.mem = s.mem) (x : Nat) : u.byteAt x = s.byteAt x := by
  rw [State.byteAt, h]
  rfl

/-- A byte that a write of `n` bytes does not reach. -/
theorem byteAt_of_write {s u : State} {pa : Nat} {bs : List Byte} (h : u.mem = Cells.write s.mem pa bs) {x : Nat}
    (hx : x < pa ∨ pa + bs.length ≤ x) : u.byteAt x = s.byteAt x := by
  rw [State.byteAt, h, Cells.get_write_outside _ _ _ _ hx]
  rfl

/-- The number in 8 bytes that hold it. -/
theorem readNat_of_write {s u : State} {pa x : Nat} (h : u.mem = Cells.write s.mem pa (toLe 8 x)) (hx : x < 2 ^ 64) :
    u.readNat pa 8 = x := by
  have hread := Cells.read_write s.mem pa (toLe 8 x)
  rw [toLe_length] at hread
  rw [State.readNat, State.readMem, h, hread, leNat_toLe]
  exact Nat.mod_eq_of_lt hx

/-- The register, the window or the thread on which a refused reply leaves its fault (R93, R364). -/
theorem takeReply_fault {l : BitVec 4} {d : RegNum} {v line : Word64} {code : BitVec 8} (hc : code ≠ 0) (old x : State) :
    let f : Deferred := ⟨code, line, old.pc, x.nextId⟩
    let u := takeReply d l v code line old x
    (∀ r, u.reg r = x.reg r) ∧ u.mem = x.mem ∧ u.ctrLines = x.ctrLines ∧
      if d = 0 then f ∈ u.thr.ctx.late
      else if l = 0 then NMap.get? u.thr.ctx.regMarks d.toNat = some f
      else u.thr.ctx.pend = x.thr.ctx.pend ++ [⟨d, none, some f, l.toNat + 1, none⟩] := by
  intro f u
  have hu : u = (if d = 0 then x.defer f else x.deliver d l none (some f)).fresh.2 := if_neg hc
  rw [hu]
  by_cases hd : d = 0
  · simp only [hd, if_true]
    exact ⟨fun _ => rfl, rfl, rfl, List.mem_append_right _ (List.mem_singleton.mpr rfl)⟩
  · by_cases hl : l = 0
    · simp only [hd, if_false, hl, State.deliver, if_true, State.markReg]
      exact ⟨fun _ => rfl, rfl, rfl, NMap.get?_set_self ..⟩
    · simp only [hd, if_false, hl, State.deliver]
      exact ⟨fun _ => rfl, rfl, rfl, rfl⟩

/-- Settles O18: the home's reply to an add that fits, and to one that it refuses. -/
theorem memoryCounterAdd : Obligations.MemoryCounterAdd := by
  unfold Obligations.MemoryCounterAdd
  intro l sc b a d s t pa hs hf hr hctr
  obtain ⟨z, x, hz, hx, hexec⟩ := exec_ctadd_line (l := l) (sc := sc) (b := b) (d := d) hs hf hr
  obtain rfl := counterRef_state hr
  have hctr' : ctrRefusal t.req pa z = none := by rw [hz]; exact hctr
  have hread : z.readNat pa 8 = t.readNat pa 8 := by rw [hz]; rfl
  have hzmem : z.mem = t.mem := by rw [hz]; rfl
  have hstamped := stampedOf_of_home hz (homesOf_lineAdd ..) hx
  have hpc : x.pc = t.pc := by rw [← hstamped]; rfl
  have hlines : x.ctrLines = t.ctrLines := by
    rw [hx]
    exact (lineAdd_ctrLines ..).trans (by rw [hz]; rfl)
  have hmem : x.mem = (lineAdd t.req pa (t.int b) z).state.mem := by rw [hx]; rfl
  constructor
  · intro hsum
    rw [← hread] at hsum
    obtain ⟨hfault, hwrite⟩ := lineAdd_of_fits hctr' hsum
    rw [hread, hzmem] at hwrite
    rw [lineAdd_result hctr' hsum, hfault, hread] at hexec
    have hreply := (Made.stamped hstamped).replied (l := l) (d := d) (v := BitVec.ofNat 64 (t.readNat pa 8)) (line := t.int a) (old := t)
    have hmachine := hreply.machine
    have hu := (congrArg State.mem hmachine).trans (hmem.trans hwrite)
    refine Completes.of_finish hexec ((takeReply_pc x).trans hpc) ⟨?_, readNat_of_write hu (by omega),
      (congrArg State.ctrLines hmachine).trans hlines, fun y hy => byteAt_of_write hu (by rwa [toLe_length])⟩
    rw [hreply.stampedOf_eq, hstamped]
    exact hreply
  · intro hsum
    rw [← hread] at hsum
    obtain ⟨hfault, hsame⟩ := lineAdd_of_over hctr' hsum
    rw [hfault] at hexec
    have hreg : ∀ r, x.reg r = t.reg r := fun r => by rw [← hstamped]; rfl
    have hpend : x.thr.ctx.pend = t.thr.ctx.pend := by rw [← hstamped]; rfl
    have hleft := takeReply_fault (l := l) (d := d) (v := (lineAdd t.req pa (t.int b) z).result) (line := t.int a) (code := 0x20)
      (by decide) t x
    have hpc' := (takeReply_pc (l := l) (d := d) (v := (lineAdd t.req pa (t.int b) z).result) (code := 0x20) (line := t.int a)
      (old := t) x).trans hpc
    generalize takeReply d l _ 0x20 _ t x = y at hexec hleft hpc'
    obtain ⟨hregs, hmemory, hctrs, hmark⟩ := hleft
    have hbytes : y.mem = t.mem := hmemory.trans (hmem.trans (hsame.trans hzmem))
    have hb : ∀ i, y.advance.clearStall.complete.byteAt i = t.byteAt i :=
      byteAt_of_mem (by rw [State.complete_mem, State.clearStall_mem, State.advance_mem, hbytes])
    have hc : y.advance.clearStall.complete.ctrLines = t.ctrLines := by
      rw [State.complete_ctrLines, State.clearStall_ctrLines, State.advance_ctrLines, hctrs, hlines]
    refine Completes.of_finish hexec hpc' ⟨hb, fun r => ?_, hc, ⟨0x20, t.int a, t.pc, x.nextId⟩, rfl, rfl, ?_⟩

    · rw [State.end_reg, State.advance_reg, hregs, hreg]
    · split
      next hd => simpa only [if_pos hd, State.complete_ctx_late, State.clearStall_thr_ctx, State.advance_ctx_late] using hmark
      next hd =>
        rw [if_neg hd] at hmark
        split
        next hl =>
          simpa only [if_pos hl, State.complete_ctx_regMarks, State.clearStall_thr_ctx, State.advance_ctx_regMarks] using hmark
        next hl =>
          rw [if_neg hl] at hmark
          have hcount : y.advance.clearStall.complete.thr.ctx.pend = y.thr.ctx.pend.map fun p => { p with left := p.left - 1 } := rfl
          rw [hcount, hmark, hpend, List.map_append]
          rfl

/-! ## An add to a local counter -/

section
variable {l : BitVec 4} {b d : RegNum} {s t : State} {n : BitVec 4} {old w : Word64}

/-- The end of an add to a local counter, over what its stamp has left. -/
theorem completes_setLocal {i : Instr} (ht : stampedOf s t = t) (hmem : t.mem = s.mem) (hworlds : t.worlds = s.worlds)
    (hexec : exec i s = s.finish (.ok (if d = 0 then setLocal n w t else (setLocal n w t).deliver d l (some (Cap.ofInt old)) none).advance)) :
    Completes i s (s.pc + 4) fun u =>
      (Replied l d (Cap.ofInt old) ((stampedOf s u).modCtx fun x => { x with kctr := x.kctr.set n.toNat w }) s u ∧
        (∀ x, u.byteAt x = s.byteAt x) ∧ u.worlds = s.worlds) ∧ u.sheaf = t.sheaf := by
  have hmade : Made [] (setLocal n w t) s (setLocal n w t) := Made.self _ s (by rw [← ht]; rfl) (by rw [← ht]; rfl)
  have hreply := hmade.replied (l := l) (d := d) (v := old) (line := 0) (old := s)
  rw [takeReply_of_ok] at hreply
  have hpc : (if d = 0 then setLocal n w t else (setLocal n w t).deliver d l (some (Cap.ofInt old)) none).pc = s.pc := by
    have ht' : (setLocal n w t).pc = s.pc := by rw [← ht]; rfl
    split
    · exact ht'
    · rw [deliver_pc, ht']
  have hstamp : stampedOf s (setLocal n w t) = t := ht
  have hmachine := hreply.machine
  refine Completes.of_finish hexec hpc ⟨⟨?_, byteAt_of_mem ((congrArg State.mem hmachine).trans hmem),
    (congrArg State.worlds hmachine).trans hworlds⟩, (congrArg State.sheaf hmachine).trans rfl⟩
  rw [hreply.stampedOf_eq, hstamp]
  exact hreply

theorem useStamp_stamped (s : State) : stampedOf s s.useStamp = s.useStamp := by
  rw [useStamp_eq]
  rfl

theorem useStamp_sheafed (s : State) (sh : List SheafEntry) :
    stampedOf s { s.useStamp with sheaf := sh } = { s.useStamp with sheaf := sh } := by
  rw [useStamp_eq]
  rfl

theorem useStamp_worlds (s : State) : s.useStamp.worlds = s.worlds := by
  rw [useStamp_eq]
  rfl

theorem useStamp_sheaf (s : State) : s.useStamp.sheaf = s.sheaf := by
  rw [useStamp_eq]
  rfl

theorem stampLocal_of_unpaired (h : s.thr.paired = false) (v : Word64) : stampLocal n old v s = .ok (old, s.useStamp) := by
  rw [stampLocal, h]
  rfl

theorem stampLocal_of_first (h : s.thr.paired = true)
    (hf : s.sheafFind s.thr.world s.thr.part s.thr.cref s.curPart.stepNo s.thr.ctx.stamped = none) (v : Word64) :
    ∃ e, stampLocal n old v s = .ok (old, { s.useStamp with sheaf := s.sheaf ++ [e] }) ∧ e.cref = s.thr.cref ∧
      e.sseq = s.thr.ctx.stamped ∧ e.maj = 0x18 ∧ e.func = 0 ∧ e.operand = v ∧ e.result = old := by
  refine ⟨sheafEntry s 0x18 0 v ⟨old, 0, s.useStamp⟩, ?_, rfl, rfl, rfl, rfl, rfl, rfl⟩
  have hkept : s.stampKept = true := by simp [State.stampKept, h]
  have hstamped := stamped_of_fresh hf 0x18 0 v (n.setWidth 64) fun u => .ok ⟨old, 0, u⟩
  rw [stampLocal, if_pos h, hstamped]
  simp only [Except.bind, Res.ok_bind, sheafed, hkept, if_true, useStamp_sheaf]

theorem stampLocal_of_second (h : s.thr.paired = true) {e : SheafEntry}
    (hf : s.sheafFind s.thr.world s.thr.part s.thr.cref s.curPart.stepNo s.thr.ctx.stamped = some e) {v : Word64}
    (hsame : State.sameStamp e 0x18 0 v = true) :
    ∃ l, stampLocal n old v s = .ok (e.result, { s.useStamp with sheaf := l }) := by
  have hkept : s.stampKept = true := by simp [State.stampKept, h]
  refine ⟨s.sheaf.map fun x => if x == e then { x with second := true } else x, ?_⟩
  simp only [stampLocal, if_pos h, State.stamped, hkept, if_true, hf, hsame, Bool.not_true, Bool.and_false, Bool.false_eq_true, if_false,
    Res.ok_bind]

end

theorem exec_ctadd_local (l : BitVec 4) (sc : BitVec 2) (b a d : RegNum) (s : State) :
    exec (.ctadd l sc 0 b a d) s = s.finish (do .ok (← ctaddLocal (a.setWidth 4) b d l s).advance) := rfl

/-- `ctadd` on a local counter whose sum fits, after what its stamp has left. -/
theorem exec_ctadd_local_of_fits {l : BitVec 4} {sc : BitVec 2} {b a d : RegNum} {s t : State} {old : Word64} (hs : plainRun s)
    (hsum : s.thr.ctx.kctr[(a.setWidth 4).toNat].toNat + (s.int b).toNat < 2 ^ 64)
    (hstamp : stampLocal (a.setWidth 4) s.thr.ctx.kctr[(a.setWidth 4).toNat] (s.int b) s = .ok (old, t)) (ht : stampedOf s t = t) :
    let x := setLocal (a.setWidth 4) (BitVec.ofNat 64 (s.thr.ctx.kctr[(a.setWidth 4).toNat].toNat + (s.int b).toNat)) t
    exec (.ctadd l sc 0 b a d) s = s.finish (.ok (if d = 0 then x else x.deliver d l (some (Cap.ofInt old)) none).advance) := by
  have hplain : plainRun t := by rw [← ht]; exact hs
  have hadd : s.thr.ctx.kctr[(a.setWidth 4).toNat] + s.int b =
      BitVec.ofNat 64 (s.thr.ctx.kctr[(a.setWidth 4).toNat].toNat + (s.int b).toNat) := by
    apply BitVec.eq_of_toNat_eq
    simp [BitVec.toNat_add]
  rw [exec_ctadd_local]
  simp only [ctaddLocal, hsum, decide_true, require_true, Res.ok_bind, holdEarly_of_plain hs, hstamp, noteCounter_of_plain hplain, hadd]

/-- Settles O17: the stamp of an unpaired thread, of the first member of a pair, of the second. -/
theorem localCounterAdd : Obligations.LocalCounterAdd := by
  unfold Obligations.LocalCounterAdd
  intro l sc b a d s _ hs n old sum stamp added
  refine ⟨fun hsum => ⟨fun hp => ?_, fun hp hf => ?_, fun e hp hf hmaj hfunc hop hres => ?_⟩, fun hsum => ?_⟩
  · exact (completes_setLocal (useStamp_stamped s) (by simp) (useStamp_worlds s)
      (exec_ctadd_local_of_fits hs hsum (stampLocal_of_unpaired hp _) (useStamp_stamped s))).imp
      fun u hu => ⟨hu.1, hu.2.trans (useStamp_sheaf s)⟩
  · obtain ⟨e, hstamp, hentry⟩ := stampLocal_of_first (n := n) (old := old) hp hf (s.int b)
    have ht := useStamp_sheafed s (s.sheaf ++ [e])
    exact (completes_setLocal ht (by simp) (useStamp_worlds s) (exec_ctadd_local_of_fits hs hsum hstamp ht)).imp
      fun u hu => ⟨hu.1, e, hu.2, hentry⟩
  · obtain ⟨sh, hstamp⟩ := stampLocal_of_second (n := n) (old := old) (v := s.int b) hp hf (by simp [State.sameStamp, hmaj, hfunc, hop])
    have ht := useStamp_sheafed s sh
    rw [hres] at hstamp
    exact (completes_setLocal ht (by simp) (useStamp_worlds s) (exec_ctadd_local_of_fits hs hsum hstamp ht)).imp fun u hu => hu.1
  · have hover : decide (s.thr.ctx.kctr[(a.setWidth 4).toNat].toNat + (s.int b).toNat < 2 ^ 64) = false := by
      simpa only [decide_eq_false_iff_not, Nat.not_lt] using hsum
    refine traps_of_finish ?_
    rw [exec_ctadd_local]
    simp only [ctaddLocal, hover, require_false, Res.raise_bind, n]

end Sys2Proof.Machine
end

section
/-! Counters that are read and waited for (O20). -/

namespace Sys2Proof.Machine

open Sys2Proof

theorem exec_ctwait (sc k : BitVec 2) (b a : RegNum) (s : State) : exec (.ctwait sc k b a) s = execCtwait sc k b a s := rfl

theorem exec_ctwaitt (sc k : BitVec 2) (b a d : RegNum) (s : State) : exec (.ctwaitt sc k b a d) s = execCtwaitt sc k b a d s := rfl

theorem exec_ctread (l : BitVec 4) (sc k : BitVec 2) (a d : RegNum) (s : State) : exec (.ctread l sc k a d) s = execCtread l sc k a d s := rfl

/-- A place of a peer is translated only where a path reaches the peer (R260). -/
theorem peerReached_of_placeAt {s t : State} {who : Who} {addr pa : Nat} {need : Need} (h : s.placeAt who 7 addr need = .ok (pa, t)) :
    s.peerReached (addr / 2 ^ 48 % 4096) = true := by
  simp only [State.placeAt] at h
  split at h
  next hp => exact hp
  · cases h

/-- A counter that an operand names is not one of a peer that no path reaches. -/
theorem unreachedPeer_of_counterRef {k : BitVec 2} {a : RegNum} {need : Need} {s t : State} {r : CtrRef}
    (h : counterRef k a need s = .ok (r, t)) : unreachedPeer k a s = false := by
  by_cases hk : k = 1 ∧ (s.reg a).space = 7
  · obtain ⟨rfl, hspace⟩ := hk
    rw [counterRef, if_neg (by decide), if_pos rfl] at h
    obtain ⟨_, _, h⟩ := Res.bind_ok h
    obtain ⟨_, _, h⟩ := Res.bind_ok h
    obtain ⟨x, hx, _⟩ := Res.bind_ok h
    obtain ⟨y, hy, _⟩ := Res.bind_ok hx
    rw [hspace] at hy
    rw [unreachedPeer, peerReached_of_placeAt hy, Bool.not_true, Bool.and_false]
  · rw [unreachedPeer]
    rcases not_and_or.mp hk with hk | hk
    · rw [beq_eq_false_iff_ne.mpr hk, Bool.false_and, Bool.false_and]
    · rw [beq_eq_false_iff_ne.mpr hk, Bool.and_false, Bool.false_and]

theorem timedRef_of_counterRef {k : BitVec 2} {a : RegNum} {s t : State} {r : CtrRef} (h : counterRef k a needCounter s = .ok (r, t)) :
    timedRef k a s = .ok (r, t) := by
  rw [timedRef, unreachedPeer_of_counterRef h]
  exact h

section
variable {k : BitVec 2} {a : RegNum} {s : State} {r : CtrRef} (hs : plainRun s) (hr : counterRef k a needCounter s = .ok (r, s))
  (hf : ctrFault r s.req s = none)

theorem sendCounter_plain (op : FlitOp) (hs : plainRun s) : plainRun (sendCounter r a op s) := by
  rw [plainRun, send_thr (sendCounter_eq r a op)]
  exact hs

include hr hf

theorem exec_ctwait_of_met {sc : BitVec 2} {b : RegNum} (hmet : s.int b ≤ ctrValue r s.thr s) :
    exec (.ctwait sc k b a) s = s.finish (.ok (sendCounter r a (.counterWait (s.int b) none) s).advance) := by
  rw [exec_ctwait, execCtwait]
  simp only [hr, Res.ok_bind, hf, hmet, if_true]

theorem exec_ctwait_of_unmet {sc : BitVec 2} {b : RegNum} (hmet : ¬ s.int b ≤ ctrValue r s.thr s) :
    exec (.ctwait sc k b a) s = s.finish (.error (.hold fun x =>
      waitRequest r (s.int b) none none (counterName k a s) none (sendCounter r a (.counterWait (s.int b) none) x))) := by
  rw [exec_ctwait, execCtwait]
  simp only [hr, Res.ok_bind, hf, hmet, if_false]

theorem exec_ctwaitt_of_unmet {sc : BitVec 2} {b d : RegNum} (hmet : ¬ s.int b ≤ ctrValue r s.thr s) (hd : s.int d ≠ 0) :
    exec (.ctwaitt sc k b a d) s = s.finish (.error (.hold fun x =>
      waitRequest r (s.int b) (some (s.now + (s.int d).toNat)) (some d) (counterName k a s) none
        (sendCounter r a (.counterWait (s.int b) (some (s.int d).toNat)) x))) := by
  rw [exec_ctwaitt, execCtwaitt]
  simp only [timedRef_of_counterRef hr, unreachedPeer_of_counterRef hr, Res.ok_bind, hf, hmet, hd, or_self, if_false, Bool.false_and,
    Bool.false_eq_true]

include hs

theorem exec_ctwaitt_of_met {sc : BitVec 2} {b d : RegNum} (hmet : s.int b ≤ ctrValue r s.thr s ∨ s.int d = 0) :
    exec (.ctwaitt sc k b a d) s = s.finish (.ok ((sendCounter r a (.counterWait (s.int b) (some (s.int d).toNat)) s).writeReg d
      (Cap.ofInt (ctrValue r s.thr s))).advance) := by
  rw [exec_ctwaitt, execCtwaitt]
  simp only [timedRef_of_counterRef hr, unreachedPeer_of_counterRef hr, Res.ok_bind, hf, hmet, if_true, if_false, Bool.false_and,
    Bool.false_eq_true, holdEarly_of_plain hs, noteCounter_of_plain (sendCounter_plain _ hs), State.writeInt]

theorem exec_ctread_of_ok {l : BitVec 4} {sc : BitVec 2} {d : RegNum} (hg : s.givenEntry = none) :
    exec (.ctread l sc k a d) s = s.finish (.ok (((sendCounter r a .counterRead s).logValue ⟨Cap.ofInt (ctrValue r s.thr s), 0⟩ 16).deliver
      d l (some (Cap.ofInt (ctrValue r s.thr s))) none).advance) := by
  rw [exec_ctread, execCtread]
  simp only [hr, Res.ok_bind, hg, hf, holdEarly_of_plain hs, noteCounter_of_plain (sendCounter_plain _ hs)]

end

/-- A word that waits is held where it stands. -/
theorem exec_of_hold {i : Instr} {s : State} {f : State → State} (h : exec i s = s.finish (.error (.hold f))) :
    ∃ u, exec i s = .next u ∧ u.thr.ctx = (f s).thr.ctx ∧ u.thr.wait = (f s).thr.wait ∧ u.mem = (f s).mem := by
  rw [h, State.finish, State.finishWith]
  split <;> exact ⟨_, rfl, rfl, rfl, rfl⟩

/-- An unmet wait: the thread stays at its word, its registers and memory stay, and the request waits at the home (R256). -/
theorem waits_of_request {i : Instr} {r : CtrRef} {a : RegNum} {op : FlitOp} {v : Word64} {lim : Option Nat} {dst : Option RegNum}
    {name : Word64} {s : State}
    (h : exec i s = s.finish (.error (.hold fun x => waitRequest r v lim dst name none (sendCounter r a op x)))) :
    ∃ u, exec i s = .next u ∧ u.pc = s.pc ∧ (∀ x, u.reg x = s.reg x) ∧ (∀ x, u.byteAt x = s.byteAt x) ∧
      u.thr.wait = some ⟨r, v, lim, dst, s.nextId, name, none, s.now, .held⟩ := by
  obtain ⟨u, hu, hctx, hwait, hmem⟩ := exec_of_hold h
  have hsend : sendCounter r a op s = sentOf s (sendCounter r a op s) := sendCounter_eq r a op s
  have hctx' : u.thr.ctx = s.thr.ctx := hctx.trans (by rw [hsend]; rfl)
  refine ⟨u, hu, by rw [State.pc, hctx', State.pc], fun x => by rw [State.reg_eq, State.reg_eq, hctx'],
    byteAt_of_mem (hmem.trans (by rw [hsend]; rfl)), hwait.trans (by rw [hsend]; rfl)⟩

/-- What is sent for a counter leaves the registers and their marks. -/
theorem Made.sent (ds : List RegNum) (r : CtrRef) (a : RegNum) (op : FlitOp) (s : State) :
    Made ds (sendCounter r a op s) s (sendCounter r a op s) :=
  (Made.self _ s (by rw [send_thr (sendCounter_eq r a op)]) (by rw [send_thr (sendCounter_eq r a op)])).widen (by simp)

theorem Made.sentLogged (r : CtrRef) (a : RegNum) (op : FlitOp) (v : TaskVal) (k : Nat) (s : State) :
    Made [] ((sendCounter r a op s).logValue v k) s ((sendCounter r a op s).logValue v k) := by
  refine Made.self _ s ?_ ?_ <;> rw [State.logValue_ctx, send_thr (sendCounter_eq r a op)]

theorem Becomes.byteAt {ds : List RegNum} {m s u : State} (h : Becomes ds m s u) (hm : m.mem = s.mem) (x : Nat) : u.byteAt x = s.byteAt x :=
  (h.rest.bytes x).trans (byteAt_of_mem hm x)

/-- Settles O20. -/
theorem counterReadsAndWaits : Obligations.CounterReadsAndWaits := by
  unfold Obligations.CounterReadsAndWaits
  intro l sc k b a d s t r hs hg hr hf
  obtain rfl := counterRef_state hr
  intro v waits asks
  have hpc : ∀ op, (asks op).pc = t.pc := fun op => by rw [State.pc, send_thr (sendCounter_eq r a op), State.pc]
  have hmem : ∀ op, (asks op).mem = t.mem := fun op => sendCounter_mem ..
  refine ⟨?_, fun hmet => ?_, fun hmet => ?_, fun hunmet => ⟨?_, fun hd => ?_⟩⟩
  · have hdone := (Made.sentLogged r a .counterRead ⟨Cap.ofInt v, 0⟩ 16 t).delivered l d (Cap.ofInt v)
    refine Completes.of_finish (exec_ctread_of_ok hs hr hf hg) ?_ ⟨hdone, byteAt_of_mem ((congrArg State.mem hdone.machine).trans ?_)⟩
    · rw [deliver_pc, State.pc, State.logValue_ctx]
      exact hpc _
    · exact (State.logEntry_mem ..).trans (hmem _)
  · have hdone := (Made.sent [] r a (.counterWait (t.int b) none) t).advance.complete
    exact Completes.of_finish (exec_ctwait_of_met hr hf hmet) (hpc _) ⟨hdone, hdone.byteAt (hmem _)⟩
  · have hdone := ((Made.sent [d] r a (.counterWait (t.int b) (some (t.int d).toNat)) t).writeReg d (Cap.ofInt v) (by simp)).advance.complete
    refine Completes.of_finish (exec_ctwaitt_of_met hs hr hf hmet) ((State.writeReg_pc ..).trans (hpc _)) ⟨?_, hdone, hdone.byteAt (hmem _)⟩
    rw [State.end_reg, State.advance_reg, State.reg_writeReg]
  · exact waits_of_request (exec_ctwait_of_unmet hr hf (Nat.not_le.mpr hunmet))
  · exact waits_of_request (exec_ctwaitt_of_unmet hr hf (Nat.not_le.mpr hunmet) hd)

end Sys2Proof.Machine
end

section
/-! A store at the home of its line: the bytes, the tags, and the making of a counter line (O21). -/

namespace Sys2Proof.Machine

open Sys2Proof

/-! ## Bytes and tags -/

theorem Cells.write_append (xs ys : List Byte) : ∀ (m : List Host.Cell) (a : Nat),
    Cells.write m a (xs ++ ys) = Cells.write (Cells.write m a xs) (a + xs.length) ys := by
  induction xs with
  | nil => intro m a; rfl
  | cons v r ih =>
    intro m a
    simp only [List.cons_append, Cells.write, ih, List.length_cons]
    congr 1
    omega

theorem State.tagAt_clearTags (s : State) (pa n x : Nat) :
    (s.clearTags pa n).tagAt x = if n ≠ 0 ∧ pa / 16 ≤ x / 16 ∧ x / 16 ≤ (pa + n - 1) / 16 then false else s.tagAt x := by
  unfold State.clearTags
  by_cases hn : n = 0
  · simp [hn]
  · have hend : pa / 16 ≤ (pa + n - 1) / 16 := Nat.div_le_div_right (by omega)
    have hmem : x / 16 ∈ NSet.clear s.tags (pa / 16) ((pa + n - 1) / 16 - pa / 16 + 1) ↔
        x / 16 ∈ s.tags ∧ ¬ (pa / 16 ≤ x / 16 ∧ x / 16 ≤ (pa + n - 1) / 16) := by
      simp only [NSet.clear, List.mem_filter, Bool.or_eq_true, decide_eq_true_eq]
      exact and_congr_right fun _ => by omega
    simp only [hn, if_false, ne_eq, not_false_eq_true, true_and, State.tagAt]
    rw [Bool.eq_iff_iff, List.contains_iff_mem, hmem]
    split
    next h => simp [h]
    next h => simp [h]

/-- The tags of the granules that a store touches are clear. -/
theorem State.tagAt_clearTags_inside (s : State) {pa n x : Nat} (hl : pa ≤ x) (hu : x < pa + n) : (s.clearTags pa n).tagAt x = false := by
  rw [State.tagAt_clearTags, if_pos ⟨by omega, Nat.div_le_div_right hl, Nat.div_le_div_right (by omega)⟩]

/-! ## A store of bytes that lie in one line -/

section
variable {q : Req} {pa : Nat} {bs : List Byte} {s : State}

theorem homesOf_storeLine (z : State) (q : Req) (pa : Nat) (bs : List Byte) : homesOf z (z.storeLine q pa bs) = z.storeLine q pa bs := by
  unfold State.storeLine State.notePort State.clearTags
  dsimp only
  (repeat' split) <;> rfl

theorem storeLine_ctrLines (z : State) (q : Req) (pa : Nat) (bs : List Byte) : (z.storeLine q pa bs).ctrLines = z.ctrLines := by
  unfold State.storeLine State.notePort State.clearTags
  dsimp only
  (repeat' split) <;> rfl

/-- The bytes and the tags of a store that its home takes. -/
theorem storeLine_of_taken (hfar : regionOf pa = 2 → s.farBacked pa = true) (hserves : s.serves q pa = true) :
    (s.storeLine q pa bs).mem = Cells.write s.mem pa bs ∧ (s.storeLine q pa bs).tags = (s.clearTags pa bs.length).tags := by
  have hbacked : (regionOf pa == 2 && !s.farBacked pa) = false := by
    by_cases h : regionOf pa = 2
    · simp [hfar h]
    · simp [h]
  unfold State.storeLine State.clearTags
  simp only [hbacked, hserves, Bool.not_true, Bool.false_eq_true, if_false]
  (repeat' split) <;> exact ⟨rfl, rfl⟩

end

/-! ## Making a counter line -/

theorem exec_ctinit_eq (b a : RegNum) (s : State) : exec (.ctinit b a) s = execCtinit b a s := rfl

section
variable {q : Req} {pa : Nat} {v : Word64} {s : State}

theorem homesOf_initLine (z : State) (q : Req) (pa : Nat) (v : Word64) : homesOf z (initLine q pa v z).state = (initLine q pa v z).state := by
  unfold initLine
  (repeat' split)
  · unfold State.notePort
    split <;> rfl
  · rfl
  · rfl
  · dsimp only
    rw [← homesOf_storeLine]
    rfl

/-- The bytes of a counter line that has just been made. -/
def lineBytes (v : Word64) : List Byte := bytesOf64 v ++ List.replicate 56 0

theorem lineBytes_length (v : Word64) : (lineBytes v).length = 64 := by
  rw [lineBytes, List.length_append, bytesOf64, toLe_length, List.length_replicate]

theorem initLine_of_unmarked (hserves : s.serves q pa = true) (hclean : s.isPoisoned pa = false) (hmark : s.isCounterLine pa = false) :
    initLine q pa v s = ⟨0, 0, { s.storeLine q pa (lineBytes v) with ctrLines := NSet.add (s.storeLine q pa (lineBytes v)).ctrLines (pa / 64) }⟩ := by
  simp only [initLine, hserves, hclean, hmark, Bool.not_true, Bool.false_eq_true, if_false, lineBytes]

theorem initLine_of_marked (hserves : s.serves q pa = true) (hclean : s.isPoisoned pa = false) (hmark : s.isCounterLine pa = true) :
    initLine q pa v s = ⟨0, 0x21, s⟩ := by
  simp only [initLine, hserves, hclean, hmark, Bool.not_true, Bool.false_eq_true, if_false, if_true]

/-- The line that a `ctinit` has made: the value, zeros above it. -/
theorem byteAt_of_lineBytes {u : State} (hu : u.mem = Cells.write s.mem pa (lineBytes v)) :
    u.readNat pa 8 = v.toNat ∧ ∀ x, pa + 8 ≤ x → x < pa + 64 → u.byteAt x = 0 := by
  have hlen : (bytesOf64 v).length = 8 := toLe_length ..
  constructor
  · have hread := Cells.read_write s.mem pa (bytesOf64 v)
    rw [hlen] at hread
    rw [State.readNat, State.readMem, hu, lineBytes, Cells.write_append, Cells.read_write_outside _ _ _ _ _ (by omega), hread, bytesOf64,
      leNat_toLe]
    exact Nat.mod_eq_of_lt v.isLt
  · intro x hl hx
    rw [State.byteAt, hu, Cells.get_write, lineBytes_length, if_pos ⟨by omega, hx⟩, lineBytes, List.getElem?_append_right (by omega),
      List.getElem?_replicate, hlen]
    split <;> rfl

end

/-- Settles O21. -/
theorem counterInit : Obligations.CounterInit := by
  unfold Obligations.CounterInit
  intro b a s t pa hs hf hr hline hserves hclean htakes
  obtain ⟨z, x, hz, hx, hword⟩ := stampedCounter_at_homes (fun z => homesOf_initLine z s.req pa (s.int b)) hs hf (.mem pa) a
    (.counterInit (s.int b)) 0x1A 1 (s.int b) (s.int a) 0 0
  have hexec : exec (.ctinit b a) s = s.finish (.ok (takeReply 0 0 (initLine s.req pa (s.int b) z).result
      (initLine s.req pa (s.int b) z).fault (s.int a) s x).advance) := by
    rw [exec_ctinit_eq, execCtinit]
    obtain rfl := counterRef_state hr
    simp only [hr, Res.ok_bind, hword]
  obtain rfl := counterRef_state hr
  have hserves' : z.serves t.req pa = true := by rw [hz]; exact hserves
  have hclean' : z.isPoisoned pa = false := by rw [hz]; exact hclean
  have hzmem : z.mem = t.mem := by rw [hz]; rfl
  have hzlines : z.ctrLines = t.ctrLines := by rw [hz]; rfl
  have hstamped := stampedOf_of_home hz (homesOf_initLine ..) hx
  have hpc : x.pc = t.pc := by rw [← hstamped]; rfl
  refine ⟨fun hmark => ?_, fun hmark => ?_⟩
  · have hhome := initLine_of_unmarked (v := t.int b) hserves' hclean' (by rw [hz]; exact hmark)
    have htaken : takesStore t t.req pa := htakes pa (by omega) (by omega) hmark
    obtain ⟨hmem, htags⟩ := storeLine_of_taken (q := t.req) (pa := pa) (bs := lineBytes (t.int b)) (s := z)
      (by rw [hz]; exact htaken.2.1) hserves'
    have hexec' : exec (.ctinit b a) t = t.finish (.ok x.advance) := by
      rw [hexec, hhome]
      rfl
    have hdone := (Made.stamped hstamped).advance.complete
    have hxmem : x.advance.clearStall.complete.mem = Cells.write t.mem pa (lineBytes (t.int b)) := by
      rw [State.complete_mem, State.clearStall_mem, State.advance_mem, hx, hhome, ← hzmem]
      exact hmem
    obtain ⟨hvalue, hzeros⟩ := byteAt_of_lineBytes hxmem
    refine Completes.of_finish hexec' hpc ⟨hvalue, hzeros, ?_, fun y hl hu => ?_, fun y hy => byteAt_of_write hxmem (by rwa [lineBytes_length]), ?_⟩
    · rw [State.isCounterLine, State.complete_ctrLines, State.clearStall_ctrLines, State.advance_ctrLines, hx, hhome, List.contains_iff_mem]
      exact (NSet.mem_add ..).mpr (.inl rfl)
    · rw [State.tagAt, State.complete_tags, State.clearStall_tags, State.advance_tags, hx, hhome]
      have htag := z.tagAt_clearTags_inside (n := (lineBytes (t.int b)).length) hl (by rwa [lineBytes_length])
      rw [State.tagAt, ← htags] at htag
      exact htag
    · rw [hdone.stampedOf_eq, hstamped]
      exact hdone
  · have hhome := initLine_of_marked (v := t.int b) hserves' hclean' (by rw [hz]; exact hmark)
    rw [hhome] at hexec hx
    obtain ⟨_, hmem, hctrs, hlate⟩ := takeReply_fault (l := 0) (d := 0) (v := 0) (line := t.int a) (code := 0x21) (by decide) t x
    have hpc' := (takeReply_pc (l := 0) (d := 0) (v := 0) (code := 0x21) (line := t.int a) (old := t) x).trans hpc
    have hxmem : x.mem = t.mem := by rw [hx]; exact hzmem
    have hxlines : x.ctrLines = t.ctrLines := by rw [hx]; exact hzlines
    generalize takeReply 0 0 0 0x21 (t.int a) t x = y at hexec hmem hctrs hlate hpc'
    refine Completes.of_finish hexec hpc' ⟨byteAt_of_mem ?_, ?_, ⟨0x21, t.int a, t.pc, x.nextId⟩, ?_, rfl, rfl⟩
    · rw [State.complete_mem, State.clearStall_mem, State.advance_mem, hmem, hxmem]
    · rw [State.complete_ctrLines, State.clearStall_ctrLines, State.advance_ctrLines, hctrs, hxlines]
    · simpa only [if_pos, State.complete_ctx_late, State.clearStall_thr_ctx, State.advance_ctx_late] using hlate

end Sys2Proof.Machine
end

section
/-! The sward tree (O19): what a drop that takes effect changes, and how the group value settles. -/

namespace Sys2Proof.Machine

open Sys2Proof

/-! ## Group values -/

section
variable (s : State) (k : SwKey) (v : Word64)

theorem swValue_setSwValue_self : swValue (setSwValue s k v) k = v := by
  simp [swValue, setSwValue]

theorem swValue_setSwValue_ne {j : SwKey} (h : j ≠ k) : swValue (setSwValue s k v) j = swValue s j := by
  have hk : (k == j) = false := beq_eq_false_iff_ne.mpr (Ne.symm h)
  have hfind : (s.swards.filter fun x => x.1 != k).find? (fun x => x.1 == j) = s.swards.find? fun x => x.1 == j := by
    rw [List.find?_filter]
    congr 1
    funext x
    by_cases hx : x.1 = j
    · simp [hx, h]
    · simp [hx]
  simp only [swValue, setSwValue, List.find?_cons, hk, hfind]

end

/-! ## A member that leaves -/

section
variable (n : BitVec 4) (h : Thread)

theorem toNat_ne_of_ne {n m : BitVec 4} (h : m ≠ n) : n.toNat ≠ m.toNat := fun e => h (BitVec.toNat_inj.mp e.symm)

theorem treeOf_leaveTree : treeOf (leaveTree n h) n = SwTree.none := Vector.getElem_set_self ..

theorem swmask_leaveTree_ne {m : BitVec 4} (hm : m ≠ n) : (leaveTree n h).ctx.swmask[m.toNat] = h.ctx.swmask[m.toNat] := by
  unfold leaveTree
  dsimp only
  split
  · exact Vector.getElem_set_ne _ _ (toNat_ne_of_ne hm)
  · rfl

theorem span_leaveTree : (leaveTree n h).ctx.swmask[n.toNat].span = h.ctx.swmask[n.toNat].span := by
  unfold leaveTree
  dsimp only
  split
  · rw [Vector.getElem_set_self]
  · rfl

theorem swKey_leaveTree : swKey (leaveTree n h) n = swKey h n := by
  simp only [swKey, span_leaveTree]
  rfl

theorem inGroup_leaveTree (k : SwKey) : inGroup k n (leaveTree n h) = inGroup k n h := by
  rw [inGroup, swKey_leaveTree]
  rfl

theorem leaveTree_sameButMask : sameButMask h (leaveTree n h) := rfl

end

theorem sameButMask.refl (h : Thread) : sameButMask h h := rfl

theorem sameButMask.trans {x y z : Thread} (h : sameButMask x y) (g : sameButMask y z) : sameButMask x z := by
  unfold sameButMask at h g ⊢
  rw [g, h]

theorem sameButMask.count {x y : Thread} (h : sameButMask x y) : y.ctx.swcount = x.ctx.swcount := by rw [h]

theorem sameButMask.sward {x y : Thread} (h : sameButMask x y) : sameButSward x y := by
  rw [sameButSward, h.count]
  exact h

theorem sameButSward.trans {x y z : Thread} (h : sameButSward x y) (g : sameButSward y z) : sameButSward x z := by
  unfold sameButSward at h g ⊢
  rw [g, h]

/-! ## One round: the value rises, and the droppers that it reaches leave -/

/-- Whether the drop of a member takes effect at the value `v`. -/
def dropReached (k : SwKey) (n : BitVec 4) (v : Nat) (h : Thread) : Bool :=
  inGroup k n h && (treeOf h n).member && (treeOf h n).dropAt.any fun c => decide (c.toNat ≤ v)

/-- A thread after the value `v`. -/
def afterValue (k : SwKey) (n : BitVec 4) (v : Nat) (h : Thread) : Thread := if dropReached k n v h then leaveTree n h else h

theorem leaveDropped_eq (k : SwKey) (n : BitVec 4) (v : Nat) (s : State) : leaveDropped k n v s =
    { s.modAll (afterValue k n v) with leavers := s.leavers.filter fun x => !(x.key == k && decide (x.dropAt.toNat ≤ v)) } := rfl

section
variable (k : SwKey) (n : BitVec 4) (v : Nat) (h : Thread)

theorem afterValue_sameButMask : sameButMask h (afterValue k n v h) := by
  unfold afterValue
  split
  · exact leaveTree_sameButMask n h
  · exact .refl h

theorem afterValue_inGroup : inGroup k n (afterValue k n v h) = inGroup k n h := by
  unfold afterValue
  split
  · exact inGroup_leaveTree n h k
  · rfl

theorem afterValue_swmask_ne {m : BitVec 4} (hm : m ≠ n) : (afterValue k n v h).ctx.swmask[m.toNat] = h.ctx.swmask[m.toNat] := by
  unfold afterValue
  split
  · exact swmask_leaveTree_ne n h hm
  · rfl

/-- Who counts in the minimum after the value has counted in it before, with the same count. -/
theorem afterValue_counts (hc : (treeOf (afterValue k n v h) n).member = true) : afterValue k n v h = h := by
  unfold afterValue at hc ⊢
  split
  next hr =>
    rw [if_pos hr, treeOf_leaveTree] at hc
    exact absurd hc (by decide)
  next => rfl

end

/-! ## What the tree may change -/

/-- The state `s` but for the group values, the threads' sward registers and the exited members of `t`. -/
def treesOf (s t : State) : State :=
  { s with swards := t.swards, rest := t.rest, leavers := t.leavers
           thr := { s.thr with ctx := { s.thr.ctx with
             swmask := t.thr.ctx.swmask, swcount := t.thr.ctx.swcount, swtree := t.thr.ctx.swtree } } }

/-- From `s` to `t` the value of the group `k` on counter `n` has settled further: counts stay, only masks and trees of members change,
no value falls, and no other group's changes. -/
structure Settles (k : SwKey) (n : BitVec 4) (s t : State) : Prop where
  trees : t = treesOf s t
  count : t.thr.ctx.swcount = s.thr.ctx.swcount
  span : swKey t.thr n = swKey s.thr n
  masks : ∀ m, m ≠ n → ownMask m t = ownMask m s
  rest : List.Forall₂ sameButMask s.rest t.rest
  others : ∀ j, j ≠ k → swValue t j = swValue s j
  rises : (swValue s k).toNat ≤ (swValue t k).toNat

section
variable {k : SwKey} {n : BitVec 4} {s t u : State}

theorem forall₂_sameButMask_refl (l : List Thread) : List.Forall₂ sameButMask l l := List.forall₂_same.mpr fun x _ => .refl x

theorem forall₂_comp {α : Type} {r p q : α → α → Prop} (hr : ∀ x y z, r x y → p y z → q x z) {l m n : List α} (h : List.Forall₂ r l m)
    (g : List.Forall₂ p m n) : List.Forall₂ q l n := by
  induction h generalizing n with
  | nil =>
    cases g
    exact .nil
  | cons hx _ ih =>
    cases g with
    | cons gx gr => exact .cons (hr _ _ _ hx gx) (ih gr)

theorem Settles.refl (k : SwKey) (n : BitVec 4) (s : State) : Settles k n s s :=
  ⟨rfl, rfl, rfl, fun _ _ => rfl, forall₂_sameButMask_refl _, fun _ _ => rfl, le_rfl⟩

theorem Settles.trans (h : Settles k n s t) (g : Settles k n t u) : Settles k n s u where
  trees := g.trees.trans (by rw [h.trees]; rfl)
  count := g.count.trans h.count
  span := g.span.trans h.span
  masks := fun m hm => (g.masks m hm).trans (h.masks m hm)
  rest := forall₂_comp (r := sameButMask) (p := sameButMask) (fun _ _ _ => sameButMask.trans) h.rest g.rest
  others := fun j hj => (g.others j hj).trans (h.others j hj)
  rises := h.rises.trans g.rises

end

/-- One round of settling at the value `v`. -/
def round (k : SwKey) (n : BitVec 4) (v : Nat) (s : State) : State := leaveDropped k n v (setSwValue s k (BitVec.ofNat 64 v))

section
variable (k : SwKey) (n : BitVec 4) {v : Nat} {s : State}

theorem round_thr (hs : s.thr.status ≠ .vacant) : (round k n v s).thr = afterValue k n v s.thr := if_neg hs

theorem round_swValue (hv : v < 2 ^ 64) : (swValue (round k n v s) k).toNat = v := by
  have h : swValue (round k n v s) k = BitVec.ofNat 64 v := swValue_setSwValue_self s k _
  rw [h, BitVec.toNat_ofNat, Nat.mod_eq_of_lt hv]

theorem round_settles (hs : s.thr.status ≠ .vacant) (hv : v < 2 ^ 64) (hle : (swValue s k).toNat ≤ v) : Settles k n s (round k n v s) where
  trees := by
    have hthr := (afterValue_sameButMask k n v s.thr).sward
    rw [sameButSward, ← round_thr k n hs] at hthr
    have hround : round k n v s =
        { s with
          swards := (round k n v s).swards
          rest := (round k n v s).rest
          leavers := (round k n v s).leavers
          thr := (round k n v s).thr } := rfl
    exact hround.trans (by rw [hthr]; rfl)
  count := by
    rw [round_thr k n hs, afterValue_sameButMask]
  span := by
    rw [round_thr k n hs]
    unfold afterValue
    split
    · exact swKey_leaveTree n s.thr
    · rfl
  masks := fun m hm => by
    rw [ownMask, round_thr k n hs]
    exact afterValue_swmask_ne k n v s.thr hm
  rest := List.forall₂_map_right_iff.mpr (List.forall₂_same.mpr fun x _ => afterValue_sameButMask k n v x)
  others := fun j hj => swValue_setSwValue_ne s k _ hj
  rises := by rwa [round_swValue k n hv]

end

/-! ## Who counts in the minimum -/

/-- The thread's count is one of the group's member counts. -/
def countsIn (k : SwKey) (n : BitVec 4) (h : Thread) : Bool := inGroup k n h && (treeOf h n).member && h.member == 0

theorem memberCounts_eq (s : State) (k : SwKey) (n : BitVec 4) : memberCounts s k n =
    ((s.threads.filter (countsIn k n)).map fun h => h.ctx.swcount[n.toNat].toNat) ++
      (s.leavers.filter fun x => x.key == k).map fun x => x.count.toNat := rfl

/-- A map that leaves what it does not throw out of a filter. -/
theorem filter_map_sublist {α : Type} {f : α → α} {p : α → Bool} (hf : ∀ x, p (f x) = true → f x = x) (l : List α) :
    ((l.map f).filter p).Sublist (l.filter p) := by
  have hmap : (l.filter (p ∘ f)).map f = l.filter (p ∘ f) :=
    (List.map_congr_left fun x hx => hf x (by simpa using (List.mem_filter.mp hx).2)).trans (List.map_id _)
  rw [List.filter_map, hmap]
  exact List.monotone_filter_right l fun x hx => by
    have hx' := hf x hx
    rwa [Function.comp, hx'] at hx

theorem threads_round (k : SwKey) (n : BitVec 4) (v : Nat) {s : State} (hs : s.thr.status ≠ .vacant) :
    (round k n v s).threads = s.threads.map (afterValue k n v) := by
  have hstatus : (afterValue k n v s.thr).status ≠ .vacant := by
    rw [afterValue_sameButMask]
    exact hs
  have hthr := round_thr k n (v := v) hs
  rw [State.threads, hthr, if_neg hstatus, State.threads, if_neg hs]
  rfl

theorem memberCounts_round (k : SwKey) (n : BitVec 4) (v : Nat) {s : State} (hs : s.thr.status ≠ .vacant) :
    (memberCounts (round k n v s) k n).Sublist (memberCounts s k n) := by
  have hkeep : ∀ x, countsIn k n (afterValue k n v x) = true → afterValue k n v x = x := fun x hx => by
    simp only [countsIn, Bool.and_eq_true] at hx
    exact afterValue_counts k n v x hx.1.2
  rw [memberCounts_eq, memberCounts_eq, threads_round k n v hs]
  refine ((filter_map_sublist hkeep _).map _).append (List.Sublist.map _ (List.Sublist.filter _ ?_))
  exact List.filter_sublist ..

theorem memberCounts_lt {s : State} {k : SwKey} {n : BitVec 4} {m : Nat} (h : m ∈ memberCounts s k n) : m < 2 ^ 64 := by
  rw [memberCounts_eq, List.mem_append, List.mem_map, List.mem_map] at h
  obtain ⟨x, _, rfl⟩ | ⟨x, _, rfl⟩ := h <;> exact BitVec.isLt _

theorem memberCounts_length (s : State) (k : SwKey) (n : BitVec 4) : (memberCounts s k n).length ≤ s.threads.length + s.leavers.length := by
  rw [memberCounts_eq, List.length_append, List.length_map, List.length_map]
  exact Nat.add_le_add (List.length_filter_le ..) (List.length_filter_le ..)

/-! ## The least count -/

theorem leastOf_eq_min? (l : List Nat) : leastOf l = l.min? := by cases l <;> rfl

theorem leastOf_eq_some {l : List Nat} {x : Nat} (h : leastOf l = some x) : x ∈ l ∧ ∀ y ∈ l, x ≤ y :=
  List.min?_eq_some_iff.mp ((leastOf_eq_min? l).symm.trans h)

theorem leastOf_eq_none {l : List Nat} (h : leastOf l = none) : l = [] := List.min?_eq_none_iff.mp ((leastOf_eq_min? l).symm.trans h)

/-! ## Settling: rounds until no member leaves -/

/-- The group value is at most every member count. -/
def belowCounts (k : SwKey) (n : BitVec 4) (s : State) : Prop := ∀ m ∈ memberCounts s k n, (swValue s k).toNat ≤ m

/-- The value of the next round. -/
def nextValue (k : SwKey) (x : Nat) (s : State) : Nat := max x (swValue s k).toNat

section
variable {k : SwKey} {n : BitVec 4} {s : State} {x fuel : Nat}

theorem nextValue_lt (h : x ∈ memberCounts s k n) : nextValue k x s < 2 ^ 64 := max_lt (memberCounts_lt h) (BitVec.isLt _)

theorem settle_succ_none (h : leastOf (memberCounts s k n) = none) : settle k n (fuel + 1) s = s := by rw [settle, h]

theorem settle_succ_some (h : leastOf (memberCounts s k n) = some x) : settle k n (fuel + 1) s =
    if memberCounts (round k n (nextValue k x s) s) k n = memberCounts s k n then round k n (nextValue k x s) s
    else settle k n fuel (round k n (nextValue k x s) s) := by
  rw [settle, h]
  rfl

theorem round_nextValue_settles (hs : s.thr.status ≠ .vacant) (h : leastOf (memberCounts s k n) = some x) :
    Settles k n s (round k n (nextValue k x s) s) :=
  round_settles k n hs (nextValue_lt (leastOf_eq_some h).1) (le_max_right ..)

theorem Settles.status {t : State} (h : Settles k n s t) : t.thr.status = s.thr.status := by rw [h.trees]; rfl

theorem settle_settles (hs : s.thr.status ≠ .vacant) : Settles k n s (settle k n fuel s) := by
  induction fuel generalizing s with
  | zero => exact .refl k n s
  | succ fuel ih =>
    cases h : leastOf (memberCounts s k n) with
    | none => rw [settle_succ_none h]; exact .refl k n s
    | some x =>
      have hround := round_nextValue_settles hs h
      rw [settle_succ_some h]
      split
      · exact hround
      · exact hround.trans (ih (by rwa [hround.status]))

/-- With enough fuel for every member to leave, the group value is at the end the least of the members' counts (R254; that the value is
evaluated again when a dropper leaves is log entry 82). -/
theorem settle_least (hs : s.thr.status ≠ .vacant) (hb : belowCounts k n s) (hfuel : (memberCounts s k n).length < fuel) :
    belowCounts k n (settle k n fuel s) ∧
      (memberCounts (settle k n fuel s) k n ≠ [] →
        (swValue (settle k n fuel s) k).toNat ∈ memberCounts (settle k n fuel s) k n) := by
  induction fuel generalizing s with
  | zero => exact absurd hfuel (Nat.not_lt_zero _)
  | succ fuel ih =>
    cases h : leastOf (memberCounts s k n) with
    | none =>
      rw [settle_succ_none h]
      exact ⟨hb, fun hne => absurd (leastOf_eq_none h) hne⟩
    | some x =>
      obtain ⟨hx, hleast⟩ := leastOf_eq_some h
      have hnext : nextValue k x s = x := max_eq_left (hb x hx)
      have hvalue : (swValue (round k n x s) k).toNat = x := round_swValue k n (memberCounts_lt hx)
      have hsub := memberCounts_round k n x hs
      have hbelow : belowCounts k n (round k n x s) := fun m hm => by
        rw [hvalue]
        exact hleast m (hsub.subset hm)
      have hround := round_nextValue_settles hs h
      rw [settle_succ_some h, hnext]
      rw [hnext] at hround
      split
      next he => exact ⟨hbelow, fun _ => by rw [hvalue, he]; exact hx⟩
      next hne =>
        refine ih (by rwa [hround.status]) hbelow ?_
        have hlt := lt_of_le_of_ne hsub.length_le fun e => hne (hsub.eq_of_length e)
        omega

end

/-! ## The drop of the issuing thread -/

/-- The thread's drop at the count `c` stands at the tree and has not been reached, or it has been and the thread has left. -/
def dropDue (k : SwKey) (n : BitVec 4) (c : Word64) (s : State) : Prop :=
  (ownTree n s = ⟨true, some c⟩ ∧ (swValue s k).toNat < c.toNat) ∨ (ownTree n s = SwTree.none ∧ c.toNat ≤ (swValue s k).toNat)

section
variable {k : SwKey} {n : BitVec 4} {s : State} {c : Word64} {v fuel : Nat}

theorem ownTree_round (hs : s.thr.status ≠ .vacant) : ownTree n (round k n v s) = treeOf (afterValue k n v s.thr) n := by
  rw [ownTree, round_thr k n hs]

theorem dropDue_round (hs : s.thr.status ≠ .vacant) (hk : swKey s.thr n = k) (hv : v < 2 ^ 64) (ht : ownTree n s = ⟨true, some c⟩) :
    dropDue k n c (round k n v s) := by
  have hgroup : inGroup k n s.thr = true := by simp [inGroup, hs, hk]
  have hreached : dropReached k n v s.thr = decide (c.toNat ≤ v) := by
    rw [ownTree] at ht
    simp [dropReached, hgroup, ht]
  rw [dropDue, ownTree_round hs, round_swValue k n hv, afterValue, hreached]
  by_cases hc : c.toNat ≤ v
  · rw [if_pos (decide_eq_true hc)]
    exact .inr ⟨treeOf_leaveTree n s.thr, hc⟩
  · rw [if_neg (by simpa using hc)]
    exact .inl ⟨ht, Nat.lt_of_not_le hc⟩

theorem dropDue_round_of_dropDue (hs : s.thr.status ≠ .vacant) (hk : swKey s.thr n = k) (hv : v < 2 ^ 64) (hle : (swValue s k).toNat ≤ v)
    (hd : dropDue k n c s) : dropDue k n c (round k n v s) := by
  obtain ⟨ht, _⟩ | ⟨ht, hc⟩ := hd
  · exact dropDue_round hs hk hv ht
  · have hreached : dropReached k n v s.thr = false := by
      rw [ownTree] at ht
      simp [dropReached, ht, SwTree.none]
    refine .inr ⟨?_, by rw [round_swValue k n hv]; omega⟩
    rw [ownTree_round hs, afterValue, hreached]
    exact ht

theorem dropDue_settle (hs : s.thr.status ≠ .vacant) (hk : swKey s.thr n = k) (hd : dropDue k n c s) : dropDue k n c (settle k n fuel s) := by
  induction fuel generalizing s with
  | zero => exact hd
  | succ fuel ih =>
    cases h : leastOf (memberCounts s k n) with
    | none => rw [settle_succ_none h]; exact hd
    | some x =>
      have hround := round_nextValue_settles hs h
      have hdue := dropDue_round_of_dropDue hs hk (nextValue_lt (leastOf_eq_some h).1) (le_max_right x _) hd
      rw [settle_succ_some h]
      split
      · exact hdue
      · exact ih (by rwa [hround.status]) (hround.span.trans hk) hdue

theorem dropDue_settle_succ (hs : s.thr.status ≠ .vacant) (hk : swKey s.thr n = k) (ht : ownTree n s = ⟨true, some c⟩)
    (hm : memberCounts s k n ≠ []) : dropDue k n c (settle k n (fuel + 1) s) := by
  cases h : leastOf (memberCounts s k n) with
  | none => exact absurd (leastOf_eq_none h) hm
  | some x =>
    have hround := round_nextValue_settles hs h
    have hdue := dropDue_round hs hk (nextValue_lt (leastOf_eq_some h).1) ht
    rw [settle_succ_some h]
    split
    · exact hdue
    · exact dropDue_settle (by rwa [hround.status]) (hround.span.trans hk) hdue

end

end Sys2Proof.Machine
end

section
/-! Arrivals at the sward tree (O19). -/

namespace Sys2Proof.Machine

open Sys2Proof

/-! ## The member's own count -/

/-- A thread with a count and what the tree holds of it. -/
def withMember (n : BitVec 4) (c : Word64) (x : SwTree) (h : Thread) : Thread :=
  { h with ctx := { h.ctx with swcount := h.ctx.swcount.set n.toNat c, swtree := h.ctx.swtree.set n.toNat x } }

/-- The same in the members of the pair of the issuing thread of `s`, and no other thread. -/
def memberOf (n : BitVec 4) (c : Word64) (x : SwTree) (s : State) (h : Thread) : Thread :=
  if h.cref == s.thr.cref && h.world == s.thr.world then withMember n c x h else h

theorem setMember_eq (n : BitVec 4) (c : Word64) (x : SwTree) (s : State) : setMember n c x s = s.modAll (memberOf n c x s) := rfl

section
variable (n : BitVec 4) (c : Word64) (x : SwTree) {s : State} (hs : s.thr.status ≠ .vacant)
include hs

theorem setMember_thr : (setMember n c x s).thr = withMember n c x s.thr := by
  have hself : memberOf n c x s s.thr = withMember n c x s.thr := if_pos (by simp)
  rw [setMember_eq, State.modAll, if_neg hs, hself]

theorem setMember_trees : setMember n c x s = treesOf s (setMember n c x s) := by
  have hmember : setMember n c x s = { s with thr := (setMember n c x s).thr, rest := (setMember n c x s).rest } := rfl
  exact hmember.trans (by rw [treesOf, setMember_thr n c x hs]; rfl)

theorem setMember_threads : (setMember n c x s).threads = s.threads.map (memberOf n c x s) := by
  have hself : memberOf n c x s s.thr = withMember n c x s.thr := if_pos (by simp)
  have hthr := setMember_thr n c x hs
  rw [State.threads, hthr, if_neg (by exact hs), State.threads, if_neg hs, List.map_cons, hself]
  rfl

theorem setMember_ownTree : ownTree n (setMember n c x s) = x := by
  rw [ownTree, setMember_thr n c x hs]
  exact Vector.getElem_set_self ..

/-- After the arrival no member's count lies below a value that lay below every count and below the new one. -/
theorem setMember_belowCounts {k : SwKey} (hb : belowCounts k n s) (hc : (swValue s k).toNat ≤ c.toNat) :
    belowCounts k n (setMember n c x s) := by
  intro m hm
  have hvalue : swValue (setMember n c x s) k = swValue s k := rfl
  rw [memberCounts_eq, setMember_threads n c x hs, List.mem_append, List.mem_map] at hm
  rw [hvalue]
  obtain ⟨h, hh, rfl⟩ | hm := hm
  · obtain ⟨hmem, hcounts⟩ := List.mem_filter.mp hh
    obtain ⟨y, hy, rfl⟩ := List.mem_map.mp hmem
    by_cases hpair : (y.cref == s.thr.cref && y.world == s.thr.world) = true
    · have hy' : memberOf n c x s y = withMember n c x y := if_pos hpair
      rwa [hy', withMember, Vector.getElem_set_self]
    · have hy' : memberOf n c x s y = y := if_neg hpair
      rw [hy'] at hcounts ⊢
      refine hb _ ?_
      rw [memberCounts_eq, List.mem_append, List.mem_map]
      exact .inl ⟨y, List.mem_filter.mpr ⟨hy, hcounts⟩, rfl⟩
  · refine hb m ?_
    rw [memberCounts_eq, List.mem_append]
    exact .inr hm

/-- A member that is no second of a pair counts. -/
theorem memberCounts_ne_nil (hm : s.thr.member = 0) (ht : (ownTree n s).member = true) : memberCounts s (swKey s.thr n) n ≠ [] := by
  have hcounts : countsIn (swKey s.thr n) n s.thr = true := by
    rw [ownTree] at ht
    simp [countsIn, inGroup, hs, ht, hm]
  have hmem : s.thr.ctx.swcount[n.toNat].toNat ∈ memberCounts s (swKey s.thr n) n := by
    rw [memberCounts_eq, List.mem_append, List.mem_map]
    refine .inl ⟨s.thr, List.mem_filter.mpr ⟨?_, hcounts⟩, rfl⟩
    rw [State.threads, if_neg hs]
    exact List.mem_cons_self
  exact List.ne_nil_of_mem hmem

end

/-! ## States with the same trees -/

/-- The two states hold the same of every group of the counter `n`, and the same counts and masks of the thread's other counters. -/
structure SameTrees (n : BitVec 4) (s t : State) : Prop where
  swards : t.swards = s.swards
  rest : t.rest = s.rest
  leavers : t.leavers = s.leavers
  status : t.thr.status = s.thr.status
  key : swKey t.thr n = swKey s.thr n
  member : t.thr.member = s.thr.member
  counts : t.thr.ctx.swcount = s.thr.ctx.swcount
  tree : t.thr.ctx.swtree = s.thr.ctx.swtree
  masks : ∀ m, m ≠ n → ownMask m t = ownMask m s
  mem : t.mem = s.mem

section
variable {n : BitVec 4} {s t u : State}

theorem SameTrees.trans (h : SameTrees n s t) (g : SameTrees n t u) : SameTrees n s u :=
  ⟨g.swards.trans h.swards, g.rest.trans h.rest, g.leavers.trans h.leavers, g.status.trans h.status, g.key.trans h.key,
    g.member.trans h.member, g.counts.trans h.counts, g.tree.trans h.tree, fun m hm => (g.masks m hm).trans (h.masks m hm), g.mem.trans h.mem⟩

theorem SameTrees.swValue (h : SameTrees n s t) (k : SwKey) : swValue t k = swValue s k := by rw [Machine.swValue, h.swards]; rfl

theorem SameTrees.ownTree (h : SameTrees n s t) : ownTree n t = ownTree n s := by
  simp only [Machine.ownTree, treeOf, h.tree]

theorem SameTrees.memberCounts (h : SameTrees n s t) (hs : s.thr.status ≠ .vacant) (k : SwKey) : memberCounts t k n = memberCounts s k n := by
  have hcounts : countsIn k n t.thr = countsIn k n s.thr := by
    simp only [countsIn, inGroup, treeOf, h.status, h.key, h.tree, h.member]
  rw [memberCounts_eq, memberCounts_eq, h.leavers, State.threads, State.threads, h.status, if_neg hs, if_neg hs, h.rest,
    List.filter_cons, List.filter_cons, hcounts]
  split <;> simp only [List.map_cons, h.counts]

theorem SameTrees.belowCounts (h : SameTrees n s t) (hs : s.thr.status ≠ .vacant) (k : SwKey) : belowCounts k n t ↔ belowCounts k n s := by
  rw [Machine.belowCounts, Machine.belowCounts, h.memberCounts hs, h.swValue]

theorem SameTrees.of_agrees (h : Agrees s t) : SameTrees n s t := by
  obtain ⟨hctx, hthr, hmachine⟩ := h
  constructor
  · rw [hmachine]
  · rw [hmachine]
  · rw [hmachine]
  · rw [hthr]
  · rw [swKey, swKey, hthr, hctx]
  · rw [hthr]
  · rw [hctx]
  · rw [hctx]
  · intro m _
    rw [ownMask, hctx]
    rfl
  · rw [hmachine]

theorem SameTrees.issued (s z : State) : SameTrees n s (issuedOf s z) := ⟨rfl, rfl, rfl, rfl, rfl, rfl, rfl, rfl, fun _ _ => rfl, rfl⟩

theorem SameTrees.logs (x t : State) : SameTrees n x (logsOf x t) := ⟨rfl, rfl, rfl, rfl, rfl, rfl, rfl, rfl, fun _ _ => rfl, rfl⟩

theorem SameTrees.setMask {m : SwMask} (h : m.span = (ownMask n s).span) : SameTrees n s (setMask n m s) := by
  refine ⟨rfl, rfl, rfl, rfl, ?_, rfl, rfl, rfl, fun j hj => ?_, rfl⟩
  · simp only [swKey, Machine.setMask, State.modCtx, Vector.getElem_set_self, h]
    rfl
  · simp only [ownMask, Machine.setMask, State.modCtx, Vector.getElem_set_ne _ _ (toNat_ne_of_ne hj)]

theorem SameTrees.maskAgain (j d : Bool) (s : State) : SameTrees n s (maskAgain n j d s) := by
  unfold Machine.maskAgain
  dsimp only
  split
  · exact .setMask rfl
  · split
    · exact .setMask rfl
    · exact ⟨rfl, rfl, rfl, rfl, rfl, rfl, rfl, rfl, fun _ _ => rfl, rfl⟩

end

/-! ## An arrival -/

/-- What an arrival at the count `c` of the thread of `s` leaves of the counter `n`, of its group's value and of the other threads. -/
structure Arrived (n : BitVec 4) (s : State) (c : Word64) (u : State) : Prop where
  count : ownCount n u = c
  rises : (swValue s (swKey s.thr n)).toNat ≤ (swValue u (swKey s.thr n)).toNat
  mem : u.mem = s.mem
  least : belowCounts (swKey s.thr n) n s → (swValue s (swKey s.thr n)).toNat ≤ c.toNat →
    belowCounts (swKey s.thr n) n u ∧
      (memberCounts u (swKey s.thr n) n ≠ [] → (swValue u (swKey s.thr n)).toNat ∈ memberCounts u (swKey s.thr n) n)
  rest : List.Forall₂ (fun x y => sameButMask x y ∨ (x.cref = s.thr.cref ∧ x.world = s.thr.world ∧ sameButSward x y)) s.rest u.rest
  others : ∀ j, j ≠ swKey s.thr n → swValue u j = swValue s j
  ownOthers : ∀ k : BitVec 4, k ≠ n → ownCount k u = ownCount k s ∧ ownMask k u = ownMask k s

section
variable {n : BitVec 4} {s t u : State} {c : Word64}

theorem Arrived.right (h : Arrived n s c t) (ht : t.thr.status ≠ .vacant) (g : SameTrees n t u) : Arrived n s c u where
  count := by
    rw [ownCount, g.counts]
    exact h.count
  rises := by
    rw [g.swValue]
    exact h.rises
  mem := g.mem.trans h.mem
  least := by
    rw [g.belowCounts ht, g.memberCounts ht, g.swValue]
    exact h.least
  rest := by
    rw [g.rest]
    exact h.rest
  others := fun j hj => (g.swValue j).trans (h.others j hj)
  ownOthers := fun k hk => by
    refine ⟨?_, (g.masks k hk).trans (h.ownOthers k hk).2⟩
    rw [ownCount, g.counts]
    exact (h.ownOthers k hk).1

theorem Arrived.left (h : Arrived n t c u) (hs : s.thr.status ≠ .vacant) (g : SameTrees n s t) (hcref : t.thr.cref = s.thr.cref)
    (hworld : t.thr.world = s.thr.world) : Arrived n s c u where
  count := h.count
  rises := by
    rw [← g.key, ← g.swValue]
    exact h.rises
  mem := h.mem.trans g.mem
  least := by
    have hl := h.least
    rwa [g.belowCounts hs, g.swValue, g.key] at hl
  rest := by
    rw [← g.rest, ← hcref, ← hworld]
    exact h.rest
  others := fun j hj => (h.others j (by rwa [g.key])).trans (g.swValue j)
  ownOthers := fun k hk => by
    refine ⟨(h.ownOthers k hk).1.trans ?_, (h.ownOthers k hk).2.trans (g.masks k hk)⟩
    rw [ownCount, ownCount, g.counts]

end

/-- An arrival of the issuing thread with the count `c`: the tree holds `x` of it, and the group value settles. -/
def arrival (n : BitVec 4) (c : Word64) (x : SwTree) (s : State) : State := settleAll (swKey s.thr n) n (setMember n c x s)

section
variable (n : BitVec 4) (c : Word64) (x : SwTree) {s : State} (hs : s.thr.status ≠ .vacant)
include hs

theorem setMember_status : (setMember n c x s).thr.status ≠ .vacant := by
  rw [setMember_thr n c x hs]
  exact hs

theorem setMember_key : swKey (setMember n c x s).thr n = swKey s.thr n := by
  rw [setMember_thr n c x hs]
  rfl

theorem arrival_settles : Settles (swKey s.thr n) n (setMember n c x s) (arrival n c x s) := settle_settles (setMember_status n c x hs)

theorem arrival_trees : arrival n c x s = treesOf s (arrival n c x s) :=
  (arrival_settles n c x hs).trees.trans (by rw [setMember_trees n c x hs]; rfl)

theorem arrival_status : (arrival n c x s).thr.status ≠ .vacant := by
  rw [(arrival_settles n c x hs).status]
  exact setMember_status n c x hs

omit hs in
/-- Each other thread after the arrival. -/
theorem memberOf_rest (h : Thread) :
    sameButMask h (memberOf n c x s h) ∨ (h.cref = s.thr.cref ∧ h.world = s.thr.world ∧ sameButSward h (memberOf n c x s h)) := by
  by_cases hpair : (h.cref == s.thr.cref && h.world == s.thr.world) = true
  · rw [memberOf, if_pos hpair]
    simp only [Bool.and_eq_true, beq_iff_eq] at hpair
    exact .inr ⟨hpair.1, hpair.2, rfl⟩
  · rw [memberOf, if_neg hpair]
    exact .inl (.refl h)

theorem arrived_arrival : Arrived n s c (arrival n c x s) where
  count := by
    rw [ownCount, (arrival_settles n c x hs).count, setMember_thr n c x hs]
    exact Vector.getElem_set_self ..
  rises := (arrival_settles n c x hs).rises
  mem := (settleAll_mem ..).trans (setMember_mem ..)
  least := fun hb hc =>
    settle_least (setMember_status n c x hs) (setMember_belowCounts n c x hs hb hc) (Nat.lt_succ_of_le (memberCounts_length ..))
  rest := by
    have hset : List.Forall₂ (fun h y => sameButMask h y ∨ (h.cref = s.thr.cref ∧ h.world = s.thr.world ∧ sameButSward h y)) s.rest
        (setMember n c x s).rest := List.forall₂_map_right_iff.mpr (List.forall₂_same.mpr fun h _ => memberOf_rest n c x h)
    refine forall₂_comp (fun _ _ _ h g => ?_) hset (arrival_settles n c x hs).rest
    exact h.imp (·.trans g) fun ⟨hcref, hworld, hsward⟩ => ⟨hcref, hworld, hsward.trans g.sward⟩
  others := (arrival_settles n c x hs).others
  ownOthers := fun k hk => by
    constructor
    · simp only [ownCount, (arrival_settles n c x hs).count, setMember_thr n c x hs, withMember,
        Vector.getElem_set_ne _ _ (toNat_ne_of_ne hk)]
    · rw [(arrival_settles n c x hs).masks k hk, ownMask, setMember_thr n c x hs]
      rfl

end

/-! ## The words -/

section
variable {n : BitVec 4} {s m u : State} {l : BitVec 4} {d : RegNum} {c : Cap}

theorem Replied.agrees (h : Replied l d c m s u) : Agrees m u ∨ Agrees (opened m l d c) u := by
  unfold Replied Delivered at h
  split at h
  · exact .inl h.rest
  · split at h
    · exact .inl h.2.rest
    · exact .inr h.rest

theorem swardsOf_eq_of_agrees (h : Agrees m u) : swardsOf s u = swardsOf s m :=
  calc swardsOf s u = swardsOf s { m with thr := u.thr } := congrArg _ h.machine
    _ = swardsOf s { m with thr := { m.thr with ctx := u.thr.ctx, stall := u.thr.stall } } :=
      congrArg (fun y => swardsOf s { m with thr := y }) h.thread
    _ = swardsOf s m := by rw [h.context]; rfl

theorem Replied.swardsOf_eq (h : Replied l d c m s u) : swardsOf s u = swardsOf s m := by
  obtain h | h := h.agrees
  · exact swardsOf_eq_of_agrees h
  · exact (swardsOf_eq_of_agrees h).trans rfl

theorem SameTrees.of_opened (m : State) (l : BitVec 4) (d : RegNum) (c : Cap) : SameTrees n m (opened m l d c) :=
  ⟨rfl, rfl, rfl, rfl, rfl, rfl, rfl, rfl, fun _ _ => rfl, rfl⟩

theorem Replied.sameTrees (h : Replied l d c m s u) : SameTrees n m u := by
  obtain h | h := h.agrees
  · exact .of_agrees h
  · exact (SameTrees.of_opened m l d c).trans (.of_agrees h)

theorem ownMask_of_agrees (h : Agrees m u) : ownMask n u = ownMask n m := by
  rw [ownMask, h.context]
  rfl

theorem Replied.ownMask (h : Replied l d c m s u) : ownMask n u = ownMask n m := by
  obtain h | h := h.agrees
  · exact ownMask_of_agrees h
  · exact (ownMask_of_agrees h).trans rfl

end

section
variable {n : BitVec 4} {j dr : Bool}

theorem maskAgain_sheaf (u : State) (l : List SheafEntry) :
    maskAgain n j dr { u with sheaf := l } = { maskAgain n j dr u with sheaf := l } := by
  unfold maskAgain
  dsimp only
  (repeat' split) <;> rfl

theorem maskAgain_trees (u : State) : maskAgain n j dr u = treesOf u (maskAgain n j dr u) := by
  unfold maskAgain
  dsimp only
  (repeat' split) <;> rfl

theorem maskAgain_none : maskAgain n false false = id := rfl

theorem swardsOf_issued (s z : State) : swardsOf s (issuedOf s z) = issuedOf s z := by
  have hstamped : stampedOf s (issuedOf s z) = issuedOf s z := rfl
  rw [swardsOf, hstamped]

theorem swardsOf_trees {s z : State} (h : swardsOf s z = z) (y : State) : swardsOf s (treesOf z y) = treesOf z y := by
  rw [← h]
  rfl

theorem swardsOf_logs {s x : State} (h : swardsOf s x = x) (t : State) : swardsOf s (logsOf x t) = logsOf x t := by
  rw [← h]
  rfl

theorem swardsOf_of_home {s z y x t : State} (hz : z = issuedOf s z) (hy : y = treesOf z y) (hx : x = treesOf y x) (ht : t = logsOf x t) :
    swardsOf s t = t := by
  have hsz : swardsOf s z = z := by rw [hz, swardsOf_issued]
  have hsy : swardsOf s y = y := by rw [hy, swardsOf_trees hsz]
  have hsx : swardsOf s x = x := by rw [hx, swardsOf_trees hsy]
  rw [ht, swardsOf_logs hsx]

/-- A word whose home takes an arrival of the thread. -/
theorem completes_arrival {i : Instr} {s : State} {l : BitVec 4} {d : RegNum} {maj func : BitVec 8} {operand line old c : Word64}
    {home : State → State.Reply} {x : SwTree} (hs : plainRun s) (hf : freshStamp s)
    (hexec : exec i s = s.finish (do
      let u ← stampedCounter id maj func operand line d l home (maskAgain n j dr) s
      .ok u.advance))
    (hhome : ∀ z, SameTrees n s z → ownMask n z = ownMask n s → home z = ⟨old, 0, arrival n c x z⟩) :
    ∃ z y, SameTrees n s z ∧ y = arrival n c x z ∧ Arrived n s c y ∧ y.thr.status ≠ .vacant ∧
      Completes i s (s.pc + 4) fun u => SameTrees n y u ∧ ownMask n u = ownMask n (maskAgain n j dr y) ∧
        Replied l d (Cap.ofInt old) (swardsOf s u) s u := by
  have hz := issued_eq (send := id) (fun _ => rfl) s
  obtain ⟨z, hzdef⟩ : ∃ z, z = s.countEffect.useStamp := ⟨_, rfl⟩
  have hzs : z = issuedOf s z := hzdef.trans (hz.trans (by rw [hzdef]; rfl))
  have hsame : SameTrees n s z := by rw [hzs]; exact .issued s z
  have hstatus : z.thr.status ≠ .vacant := by rw [hsame.status]; exact hs.1
  have hreply : home z = ⟨old, 0, arrival n c x z⟩ := hhome z hsame (by rw [hzs]; rfl)
  have hplainz : plainRun z := by rw [hzs]; exact hs
  have htrees := arrival_trees n c x hstatus
  have hplain : plainRun (home (id s.countEffect).useStamp).state := by
    rw [id, ← hzdef, hreply, htrees]
    exact hplainz
  obtain ⟨t, ht, hword⟩ := stampedCounter_of_fresh (send := id) (fun _ => rfl) (maskAgain_sheaf (n := n) (j := j) (dr := dr)) hf maj func
    operand line d l home hplain (fun u hu => by rw [maskAgain_trees]; exact hu)
  rw [id, ← hzdef, hreply] at ht hword
  obtain ⟨y, hy⟩ : ∃ y, y = arrival n c x z := ⟨_, rfl⟩
  rw [← hy] at htrees ht
  have hmask := maskAgain_trees (n := n) (j := j) (dr := dr) y
  replace ht : t = logsOf (maskAgain n j dr y) t := ht
  have hwards : swardsOf s t = t := swardsOf_of_home hzs htrees hmask ht
  have hmade : Made [] t s t := Made.self t s (by rw [← hwards]; rfl) (by rw [← hwards]; rfl)
  have hpc : t.pc = s.pc := by rw [← hwards]; rfl
  have hdone := hmade.replied (l := l) (d := d) (v := old) (line := line) (old := s)
  have hend : exec i s = s.finish (.ok (takeReply d l old 0 line s t).advance) := by
    rw [hexec, hword]
    rfl
  have hyt : SameTrees n y t := by
    rw [ht]
    exact (SameTrees.maskAgain j dr y).trans (.logs _ t)
  have harrived := (arrived_arrival n c x hstatus).left hs.1 hsame (by rw [hzs]; rfl) (by rw [hzs]; rfl)
  rw [← hy] at harrived
  refine ⟨z, y, hsame, hy, harrived, by rw [hy]; exact arrival_status n c x hstatus,
    Completes.of_finish hend ((takeReply_pc t).trans hpc) ⟨hyt.trans hdone.sameTrees, hdone.ownMask.trans (by rw [ht]; rfl), ?_⟩⟩
  rw [hdone.swardsOf_eq, hwards]
  exact hdone

end

theorem exec_ctarr (sc : BitVec 2) (a : RegNum) (s : State) : exec (.ctarr sc a) s = arriveWord false a s := rfl
theorem exec_ctarrDrop (sc : BitVec 2) (a : RegNum) (s : State) : exec (.ctarrDrop sc a) s = arriveWord true a s := rfl
theorem exec_ctarrJoin (sc : BitVec 2) (a : RegNum) (s : State) : exec (.ctarrJoin sc a) s = execCtarrJoin sc a s := rfl

theorem madeBefore_of_fresh {s : State} (h : freshStamp s) : madeBefore s = false := by
  rw [madeBefore, h.1, h.2]
  simp

section
variable {s : State} {a : RegNum}

/-- A member's `ctadd` on its sward counter, whose stamp no home holds. -/
theorem exec_ctadd_sward (hs : plainRun s) (hf : freshStamp s) (hm : (ownMask (a.setWidth 4) s).member = true) (l : BitVec 4) (sc : BitVec 2)
    (b d : RegNum) : exec (.ctadd l sc 2 b a d) s = s.finish (do
      let u ← stampedCounter id 0x18 2 (s.int b) (regName a) d l (swardAdd (a.setWidth 4) (s.int b) false)
        (maskAgain (a.setWidth 4) false false) s
      .ok u.advance) := by
  have href : addRef 2 a s = .ok (.sward (a.setWidth 4), s) := by
    rw [addRef, madeBefore_of_fresh hf]
    simp [counterRef, hm]
  rw [exec_ctadd, execCtadd]
  simp only [href, Res.ok_bind, holdEarly_of_plain hs, maskAgain_none]

theorem exec_ctadd_sward_none (hf : freshStamp s) (hm : (ownMask (a.setWidth 4) s).member = false) (l : BitVec 4) (sc : BitVec 2)
    (b d : RegNum) : exec (.ctadd l sc 2 b a d) s = s.finish (raise 0x21 (regName a)) := by
  have href : addRef 2 a s = raise 0x21 (regName a) := by
    rw [addRef, madeBefore_of_fresh hf]
    simp [counterRef, hm]
  rw [exec_ctadd, execCtadd]
  simp only [href, Res.raise_bind]

theorem arriveWord_of_member (hm : (ownMask (a.setWidth 4) s).member = true) (drop : Bool) : arriveWord drop a s = s.finish (do
      let u ← stampedCounter id 0x1B (if drop then 1 else 0) 0 (regName a) 0 0 (swardAdd (a.setWidth 4) 1 drop)
        (maskAgain (a.setWidth 4) false drop) s
      .ok u.advance) := by
  simp only [arriveWord, hm, Bool.true_or, require_true, Res.ok_bind]

theorem arriveWord_of_none (hf : freshStamp s) (hm : (ownMask (a.setWidth 4) s).member = false) (drop : Bool) :
    arriveWord drop a s = s.finish (raise 0x21 (regName a)) := by
  simp only [arriveWord, hm, madeBefore_of_fresh hf, Bool.or_self, require_false, Res.raise_bind]

theorem exec_ctarrJoin_of_none (hm : (ownMask (a.setWidth 4) s).member = false) (hspan : (ownMask (a.setWidth 4) s).span ≠ 0)
    (sc : BitVec 2) : exec (.ctarrJoin sc a) s = s.finish (do
      let u ← stampedCounter id 0x1B 2 0 (regName a) 0 0 (swardJoin (a.setWidth 4)) (maskAgain (a.setWidth 4) true false) s
      .ok u.advance) := by
  have hspan' : ((ownMask (a.setWidth 4) s).span != 0) = true := bne_iff_ne.mpr hspan
  rw [exec_ctarrJoin, execCtarrJoin]
  simp only [hm, hspan', Bool.not_false, Bool.true_or, Bool.and_self, require_true, Res.ok_bind]

theorem exec_ctarrJoin_of_member (hf : freshStamp s) (hm : (ownMask (a.setWidth 4) s).member = true ∨ (ownMask (a.setWidth 4) s).span = 0)
    (sc : BitVec 2) : exec (.ctarrJoin sc a) s = s.finish (raise 0x21 (regName a)) := by
  have hno : ((ownMask (a.setWidth 4) s).span != 0 && (!(ownMask (a.setWidth 4) s).member || madeBefore s)) = false := by
    rw [madeBefore_of_fresh hf]
    rcases hm with hm | hm <;> simp [hm]
  rw [exec_ctarrJoin, execCtarrJoin]
  simp only [hno, require_false, Res.raise_bind]

end

section
variable {n : BitVec 4} {s z : State}

/-- The tree's answer to an add that fits. -/
theorem swardAdd_of_fits {v : Word64} (drop : Bool) (hsame : SameTrees n s z) (hv : (ownCount n s).toNat + v.toNat < 2 ^ 64) :
    swardAdd n v drop z = ⟨swValue s (swKey s.thr n), 0, arrival n (ownCount n s + v)
      { ownTree n s with dropAt := dropCount (ownTree n s) drop (ownCount n s + v) } z⟩ := by
  have hcount : ownCount n z = ownCount n s := by rw [ownCount, ownCount, hsame.counts]
  simp only [swardAdd, hcount, hsame.key, hsame.swValue, hsame.ownTree, ge_iff_le, Nat.not_le.mpr hv, if_false]
  rw [arrival, hsame.key]

/-- The tree's answer to a join. -/
theorem swardJoin_of_fits (hsame : SameTrees n s z) (hv : (swValue s (swKey s.thr n)).toNat + 1 < 2 ^ 64) :
    swardJoin n z = ⟨0, 0, arrival n (swValue s (swKey s.thr n) + 1) ⟨true, none⟩ z⟩ := by
  simp only [swardJoin, hsame.key, hsame.swValue, ge_iff_le, Nat.not_le.mpr hv, if_false]
  rw [arrival, hsame.key]

end

section
variable {n : BitVec 4}

/-- What a drop leaves in the thread's own mask. -/
theorem ownMask_drop (y : State) : (ownMask n (maskAgain n false true y)).dropping = (ownTree n y).dropAt.isSome ∧
    (ownMask n (maskAgain n false true y)).member = (ownTree n y).dropAt.isSome := by
  simp [maskAgain, ownMask, setMask, State.modCtx]

theorem ownMask_join (y : State) : (ownMask n (maskAgain n true false y)).member = true := by
  simp [maskAgain, ownMask, setMask, State.modCtx]

/-- A member's drop is due at the tree after its arrival there. -/
theorem dropDue_arrival {z : State} {c : Word64} (hs : z.thr.status ≠ .vacant) (hm : z.thr.member = 0) :
    dropDue (swKey z.thr n) n c (arrival n c ⟨true, some c⟩ z) := by
  have hkey := setMember_key n c ⟨true, some c⟩ hs
  have htree := setMember_ownTree n c ⟨true, some c⟩ hs
  refine dropDue_settle_succ (setMember_status n c _ hs) hkey htree ?_
  rw [← hkey]
  refine memberCounts_ne_nil n (setMember_status n c _ hs) ?_ (by rw [htree])
  rw [setMember_thr n c _ hs]
  exact hm

/-- A drop that is due stands in the mask until the value has reached it. -/
theorem dropDue_isSome {k : SwKey} {c : Word64} {y : State} (h : dropDue k n c y) :
    (ownTree n y).dropAt.isSome = true ↔ (swValue y k).toNat < c.toNat := by
  obtain ⟨ht, hv⟩ | ⟨ht, hv⟩ := h
  · simp [ht, hv]
  · simp [ht, SwTree.none, hv]

end

/-- Settles O19: the arrival at the tree, whose rounds end with the least count, and the drop that they reach or do not. -/
theorem swardArrivals : Obligations.SwardArrivals := by
  unfold Obligations.SwardArrivals
  intro l sc b a d s _ hs hf n key value own arrived
  have hArrived : ∀ {c : Word64} {count : Nat} {y u : State}, c.toNat = count → Arrived n s c y → y.thr.status ≠ .vacant → SameTrees n y u →
      arrived count u := by
    rintro c _ y u rfl hy hstatus hu
    obtain ⟨hcount, hrises, hmem, hleast, hrest, hothers, hown⟩ := hy.right hstatus hu
    exact ⟨congrArg BitVec.toNat hcount, hrises, byteAt_of_mem hmem, hleast, hrest, hothers, hown⟩
  refine ⟨fun hm => ⟨fun hv => ?_, fun hv => ⟨?_, ?_⟩⟩, fun hm hspan hv => ?_, fun hm => ⟨?_, ?_, ?_⟩, fun hm => ?_⟩
  · obtain ⟨z, y, _, _, hy, hstatus, hdone⟩ := completes_arrival hs hf (exec_ctadd_sward hs hf hm l sc b d)
      fun z hz _ => swardAdd_of_fits false hz hv
    exact hdone.imp fun u ⟨hu, _, hreply⟩ => ⟨hArrived (by rw [BitVec.toNat_add, Nat.mod_eq_of_lt hv]) hy hstatus hu, hreply⟩
  · have hv' : (ownCount n s).toNat + (1 : Word64).toNat < 2 ^ 64 := hv
    obtain ⟨z, y, _, _, hy, hstatus, hdone⟩ := completes_arrival hs hf ((exec_ctarr sc a s).trans (arriveWord_of_member hm false))
      fun z hz _ => swardAdd_of_fits false hz hv'
    exact hdone.imp fun u ⟨hu, _, hreply⟩ => ⟨hArrived (by rw [BitVec.toNat_add, Nat.mod_eq_of_lt hv']; rfl) hy hstatus hu, hreply⟩
  · have hv' : (ownCount n s).toNat + (1 : Word64).toNat < 2 ^ 64 := hv
    have hc : (ownCount n s + 1).toNat = own + 1 := by rw [BitVec.toNat_add, Nat.mod_eq_of_lt hv']; rfl
    obtain ⟨z, y, hz, hyz, hy, hstatus, hdone⟩ := completes_arrival hs hf ((exec_ctarrDrop sc a s).trans (arriveWord_of_member hm true))
      fun z hz _ => swardAdd_of_fits true hz hv'
    refine hdone.imp fun u ⟨hu, hmask, hreply⟩ => ⟨hArrived hc hy hstatus hu, hreply, ?_, fun hfirst htree => ?_⟩
    · rw [hmask, (ownMask_drop y).1, (ownMask_drop y).2]
    · rw [htree] at hyz
      have hdue := dropDue_arrival (n := n) (z := z) (c := ownCount n s + 1) (by rw [hz.status]; exact hs.1) (hz.member.trans hfirst)
      rw [hz.key] at hdue
      rw [hmask, (ownMask_drop y).2, hu.swValue, ← hc, hyz]
      exact dropDue_isSome hdue
  · have hc : (value + 1).toNat = value.toNat + 1 := by rw [BitVec.toNat_add]; exact Nat.mod_eq_of_lt hv
    obtain ⟨z, y, _, _, hy, hstatus, hdone⟩ := completes_arrival hs hf (exec_ctarrJoin_of_none hm hspan sc)
      fun z hz _ => swardJoin_of_fits hz hv
    exact hdone.imp fun u ⟨hu, hmask, hreply⟩ => ⟨hArrived hc hy hstatus hu, hreply, by rw [hmask]; exact ownMask_join y⟩
  · exact exec_ctadd_sward_none hf hm l sc b d
  · exact (exec_ctarr sc a s).trans (arriveWord_of_none hf hm false)
  · exact (exec_ctarrDrop sc a s).trans (arriveWord_of_none hf hm true)
  · exact exec_ctarrJoin_of_member hf hm sc

end Sys2Proof.Machine
end

section
/-! Pages (O16): what the walker writes, and the stamped words that ask it. -/

namespace Sys2Proof.Machine

open Sys2Proof

theorem exec_pgalloc (l : BitVec 4) (z : BitVec 3) (a d : RegNum) (s : State) : exec (.pgalloc l z a d) s = execPgalloc l z a d s := rfl

theorem exec_pgfree (z : BitVec 3) (a : RegNum) (s : State) : exec (.pgfree z a) s = execPgfree z a s := rfl

/-- What the walker meets. -/
theorem countEffect_useStamp_eq (s : State) : s.countEffect.useStamp = issuedOf s s.countEffect.useStamp :=
  issued_eq (send := id) (fun _ => rfl) s

/-! ## Entries and stacks of the walker -/

/-- The stacks of free frames of a world. -/
def frameStacks (w : World) : List Nat × List Nat × List Nat := (w.free64k, w.free32m, w.free16g)

theorem stacks_of_eq {x y : World} (h : frameStacks x = frameStacks y) :
    x.free64k = y.free64k ∧ x.free32m = y.free32m ∧ x.free16g = y.free16g := by
  simpa only [frameStacks, Prod.mk.injEq] using h

theorem homesOf_trans {s t u : State} (h : t = homesOf s t) (g : u = homesOf t u) : u = homesOf s u := g.trans (by rw [h]; rfl)

section
variable (s : State) (w entry : Nat) (e : Word64)

theorem setPte_homes : s.setPte w entry e = homesOf s (s.setPte w entry e) := rfl

theorem setPte_ptes (k : Nat) : NMap.getD ((s.setPte w entry e).world w).ptes k 0 = if k = entry then e else NMap.getD (s.world w).ptes k 0 := by
  rw [State.setPte, State.world_modWorld, NMap.getD, NMap.get?_set]
  split <;> rfl

theorem setPte_stacks : frameStacks ((s.setPte w entry e).world w) = frameStacks (s.world w) := by
  rw [State.setPte, State.world_modWorld]
  rfl

theorem setPte_freeing : ((s.setPte w entry e).world w).freeing = (s.world w).freeing := by
  rw [State.setPte, State.world_modWorld]

end

section
variable {w va target : Nat} {leaf : Word64}

theorem mapLeaf_homes (lv : Nat) : ∀ (base : Nat) (s : State), mapLeaf w va target leaf lv base s = homesOf s (mapLeaf w va target leaf lv base s) := by
  induction lv with
  | zero => intro base s; rfl
  | succ lv ih =>
    intro base s
    simp only [mapLeaf]
    split
    · rfl
    · split
      · exact ih _ _
      · exact homesOf_trans rfl (ih _ _)

theorem mapLeaf_stacks (lv : Nat) : ∀ (base : Nat) (s : State),
    frameStacks ((mapLeaf w va target leaf lv base s).world w) = frameStacks (s.world w) := by
  induction lv with
  | zero => intro base s; rfl
  | succ lv ih =>
    intro base s
    simp only [mapLeaf]
    split
    · exact setPte_stacks ..
    · split
      · exact ih _ _
      · rw [ih, setPte_stacks, State.world_modWorld]
        rfl

theorem leafEntry_of_ptes {x y : World} (h : x.ptes = y.ptes) (lv : Nat) : ∀ base, leafEntry x va target lv base = leafEntry y va target lv base := by
  induction lv with
  | zero => intro base; rfl
  | succ lv ih =>
    intro base
    simp only [leafEntry, h, ih]

/-- At the end of existing tables the walker writes the leaf and nothing else. -/
theorem mapLeaf_of_leafEntry (lv : Nat) : ∀ (base entry : Nat) (s : State), leafEntry (s.world w) va target lv base = some entry →
    mapLeaf w va target leaf lv base s = s.setPte w entry leaf := by
  induction lv with
  | zero => intro base entry s h; cases h
  | succ lv ih =>
    intro base entry s h
    simp only [leafEntry] at h
    simp only [mapLeaf]
    split at h
    next hle =>
      rw [if_pos hle]
      cases h
      rfl
    next hle =>
      rw [if_neg hle]
      split at h
      next htype =>
        rw [htype]
        exact ih _ _ s h
      next => cases h

end

/-- The frame that a world's stack gives, and what is left of it. -/
theorem popFrame_eq_some {s t : State} {w level frame : Nat} (h : s.popFrame w level = some (frame, t)) :
    t = { s with worlds := t.worlds } ∧ (t.world w).ptes = (s.world w).ptes := by
  have hset : ∀ x : World, (s.setWorld w x).world w = x := fun x => NMap.getD_set_self ..
  unfold State.popFrame at h
  dsimp only at h
  (repeat' split at h) <;> cases h <;> exact ⟨rfl, by rw [hset]⟩

/-- The stacks stand in the worlds alone. -/
theorem popFrame_of_worlds {s z : State} (h : z.worlds = s.worlds) (w level : Nat) :
    z.popFrame w level = (s.popFrame w level).map fun p => (p.1, { z with worlds := p.2.worlds }) := by
  have hw : z.world w = s.world w := by rw [State.world, h]; rfl
  have hset : ∀ x : World, z.setWorld w x = { z with worlds := (s.setWorld w x).worlds } := fun x => by rw [State.setWorld, h]; rfl
  unfold State.popFrame
  rw [hw]
  dsimp only
  (repeat' split) <;> simp only [Option.map_none, Option.map_some, hset]

/-! ## pgalloc -/

section
variable {z : BitVec 3} {va : Nat} {s : State}

/-- A translation covers some byte of the page that `pgalloc` names. -/
def pageTaken (z : BitVec 3) (va : Nat) (s : State) : Prop :=
  coveredAt (s.world s.thr.world) va (levelOf z) 4 s.curDomain.ptroot = true ∨ (s.world s.thr.world).covered va (levelOf z) = true

theorem pgallocHome_of_taken (h : pageTaken z va s) : pgallocHome z va s = ⟨2, 0, s⟩ := by
  rw [pgallocHome]
  exact if_pos (by rwa [Bool.or_eq_true])

theorem pgallocHome_of_empty (h : ¬ pageTaken z va s) (hp : s.popFrame s.thr.world (levelOf z) = none) : pgallocHome z va s = ⟨1, 0, s⟩ := by
  simp only [pgallocHome, hp]
  exact if_neg fun e => h (by rwa [Bool.or_eq_true] at e)

theorem pgallocHome_of_frame {frame : Nat} {t : State} (h : ¬ pageTaken z va s) (hp : s.popFrame s.thr.world (levelOf z) = some (frame, t)) :
    pgallocHome z va s = ⟨0, 0, mapLeaf s.thr.world va (levelOf z) (freshLeaf s.thr.ctx.domain frame) 4 s.curDomain.ptroot t⟩ := by
  simp only [pgallocHome, hp]
  exact if_neg fun e => h (by rwa [Bool.or_eq_true] at e)

end

/-- What the walker answers reaches the register or the window. -/
theorem completes_pgalloc {l : BitVec 4} {z : BitVec 3} {a d : RegNum} {s y x : State} {v : Word64} (hf : freshStamp s)
    (hcheck : s.checkCap s.who (s.reg a) (s.reg a).cursor (pageBytes (levelOf z)) needPage (regName a) = .ok ())
    (halign : (s.reg a).cursor.toNat % pageBytes (levelOf z) = 0) (hy : y = s.countEffect.useStamp)
    (hhome : pgallocHome z (s.reg a).cursor.toNat y = ⟨v, 0, x⟩) (hx : x = homesOf y x) (hmem : x.mem = s.mem) :
    Completes (.pgalloc l z a d) s (s.pc + 4) fun u => (∀ b, u.byteAt b = s.byteAt b) ∧
      Delivered l d (Cap.ofInt v) [] (stampedOf s u) s u ∧ u.worlds = x.worlds := by
  have hys : y = issuedOf s y := by
    rw [hy]
    exact countEffect_useStamp_eq s
  have hstamped := stamped_issued_of_fresh (send := id) (fun _ => rfl) hf 0x14 0 (s.reg a).cursor (s.reg a).cursor fun u =>
    .ok (pgallocHome z (s.reg a).cursor.toNat u)
  simp only [id, ← hy, hhome, Except.bind] at hstamped
  have hgiven : s.givenValue = none := by rw [State.givenValue, hf.1]; rfl
  obtain ⟨t, htdef⟩ : ∃ t, t = (sheafed s.countEffect 0x14 0 (s.reg a).cursor ⟨v, 0, x⟩).logValue ⟨Cap.ofInt v, 0⟩ 0 := ⟨_, rfl⟩
  have hexec : exec (.pgalloc l z a d) s = s.finish (.ok (t.deliver d l (some (Cap.ofInt v)) none).advance) := by
    have haligned : ((s.reg a).cursor.toNat % pageBytes (levelOf z) == 0) = true := beq_iff_eq.mpr halign
    rw [exec_pgalloc, execPgalloc]
    simp only [hcheck, Res.ok_bind, haligned, require_true, hgiven, hstamped, htdef]
  have ht : t = logsOf x t := by
    rw [htdef, State.logValue, logEntry_eq]
    rfl
  have hts : stampedOf s t = t := stampedOf_of_home hys hx.symm ht
  have hpc : t.pc = s.pc := by rw [← hts]; rfl
  have hdone := (Made.stamped hts).delivered l d (Cap.ofInt v)
  refine Completes.of_finish hexec ((deliver_pc ..).trans hpc) ⟨byteAt_of_mem ((congrArg State.mem hdone.machine).trans ?_), ?_,
    (congrArg State.worlds hdone.machine).trans ?_⟩
  · rw [ht]
    exact hmem
  · rw [hdone.stampedOf_eq, hts]
    exact hdone
  · rw [ht]
    rfl

/-! ## pgfree -/

/-- Clearing entries one by one keeps what the clearing of each keeps. -/
theorem unmapFrame_keeps {P : State → Prop} {w : Nat} (hP : ∀ t k, P t → P (t.setPte w k 0)) (frame : Nat) {s : State} (h : P s) :
    P (unmapFrame w frame s) := by
  unfold unmapFrame
  generalize (s.world w).domains.flatMap _ = l
  induction l generalizing s with
  | nil => exact h
  | cons x r ih =>
    rw [List.foldl_cons]
    refine ih ?_
    split
    · exact hP s x.1 h
    · exact h

/-- The page's entry is clear, and the frame is on its way back. -/
def freed (w entry frame : Nat) (z : BitVec 3) (s : State) : State :=
  (unmapFrame w frame (s.setPte w entry 0)).modWorld w fun x => { x with freeing := x.freeing ++ [⟨frame, z.setWidth 2⟩] }

section
variable (w entry frame : Nat) (z : BitVec 3) (s : State)

theorem freed_homes : freed w entry frame z s = homesOf s (freed w entry frame z s) :=
  homesOf_trans (unmapFrame_keeps (P := fun t => t = homesOf s t) (fun _ _ h => homesOf_trans h (setPte_homes ..)) frame
    (setPte_homes s w entry 0)) rfl

theorem freed_mem : (freed w entry frame z s).mem = s.mem := (unmapFrame_mem ..).trans (State.setPte_mem ..)

theorem freed_ptes : NMap.getD ((freed w entry frame z s).world w).ptes entry 0 = 0 := by
  rw [freed, State.world_modWorld]
  refine unmapFrame_keeps (P := fun t => NMap.getD (t.world w).ptes entry 0 = 0) (fun t k h => ?_) frame ?_
  · rw [setPte_ptes, h, ite_self]
  · rw [setPte_ptes, if_pos rfl]

theorem freed_freeing : ((freed w entry frame z s).world w).freeing = (s.world w).freeing ++ [⟨frame, z.setWidth 2⟩] := by
  have hkept : ((unmapFrame w frame (s.setPte w entry 0)).world w).freeing = (s.world w).freeing :=
    unmapFrame_keeps (P := fun t => (t.world w).freeing = (s.world w).freeing) (fun t k h => (setPte_freeing ..).trans h) frame
      (setPte_freeing ..)
  rw [freed, State.world_modWorld, hkept]

end

/-- What a `pgfree` does at its walker. -/
def pgfreeHome (z : BitVec 3) (va : Word64) (s : State) : Res State.Reply :=
  match s.walk s.who va.toNat with
  | .page frame size _ entry _ _ _ =>
    if size = pageBytes (levelOf z) then .ok ⟨0, 0, freed s.thr.world entry frame z s⟩ else raise 0x12 va
  | .bad => raise 0x12 va
  | _ => raise 0x10 va

section
variable {z : BitVec 3} {va : Word64} {s : State} {frame size lv owner entry : Nat} {r w x : Bool}

theorem pgfreeHome_of_page (h : s.walk s.who va.toNat = .page frame size owner entry r w x) (hsize : size = pageBytes (levelOf z)) :
    pgfreeHome z va s = .ok ⟨0, 0, freed s.thr.world entry frame z s⟩ := by
  simp only [pgfreeHome, h, hsize, if_true]

theorem pgfreeHome_of_page_ne (h : s.walk s.who va.toNat = .page frame size owner entry r w x) (hsize : size ≠ pageBytes (levelOf z)) :
    pgfreeHome z va s = raise 0x12 va := by
  simp only [pgfreeHome, h, hsize, if_false]

theorem pgfreeHome_of_absent (h : s.walk s.who va.toNat = .absent) : pgfreeHome z va s = raise 0x10 va := by
  simp only [pgfreeHome, h]

theorem pgfreeHome_of_touch (h : s.walk s.who va.toNat = .touch lv owner entry r w x) : pgfreeHome z va s = raise 0x10 va := by
  simp only [pgfreeHome, h]

theorem pgfreeHome_of_bad (h : s.walk s.who va.toNat = .bad) : pgfreeHome z va s = raise 0x12 va := by
  simp only [pgfreeHome, h]

end

section
variable {z : BitVec 3} {a : RegNum} {s : State} (hf : freshStamp s) (hskip : s.skipEffect = none)
  (hcheck : s.checkCap s.who (s.reg a) (BitVec.ofNat 64 ((s.reg a).cursor.toNat / pageBytes (levelOf z) * pageBytes (levelOf z)))
    (pageBytes (levelOf z)) needPage (regName a) = .ok ())
include hf hskip hcheck

theorem exec_pgfree_of_fresh : exec (.pgfree z a) s = s.finish (do
    let r ← pgfreeHome z (s.reg a).cursor s.countEffect.useStamp
    .ok (sheafed s.countEffect 0x14 1 (s.reg a).cursor r).advance) := by
  have hstamped := stamped_issued_of_fresh (send := id) (fun _ => rfl) hf 0x14 1 (s.reg a).cursor (s.reg a).cursor (pgfreeHome z (s.reg a).cursor)
  have hdo : exec (.pgfree z a) s = s.finish (do
      let r ← s.countEffect.stamped 0x14 1 (s.reg a).cursor (s.reg a).cursor (pgfreeHome z (s.reg a).cursor)
      .ok r.state.advance) := by
    rw [exec_pgfree, execPgfree]
    simp only [hcheck, Res.ok_bind, hskip]
    rfl
  rw [hdo]
  simp only [id] at hstamped
  rw [hstamped]
  cases pgfreeHome z (s.reg a).cursor s.countEffect.useStamp <;> rfl

theorem completes_pgfree {frame size owner entry : Nat} {r w x : Bool}
    (hwalk : s.walk s.who (s.reg a).cursor.toNat = .page frame size owner entry r w x) (hsize : size = pageBytes (levelOf z)) :
    Completes (.pgfree z a) s (s.pc + 4) fun u => Becomes [] (stampedOf s u) s u ∧ (∀ b, u.byteAt b = s.byteAt b) ∧
      NMap.getD (u.world s.thr.world).ptes entry 0 = 0 ∧
      (u.world s.thr.world).freeing = (s.world s.thr.world).freeing ++ [⟨frame, z.setWidth 2⟩] := by
  obtain ⟨y, hydef⟩ : ∃ y, y = s.countEffect.useStamp := ⟨_, rfl⟩
  have hy : y = issuedOf s y := by
    rw [hydef]
    exact countEffect_useStamp_eq s
  have hwalk' : y.walk y.who (s.reg a).cursor.toNat = .page frame size owner entry r w x := by rw [hy]; exact hwalk
  have hworld : y.thr.world = s.thr.world := by rw [hy]; rfl
  have hhome : pgfreeHome z (s.reg a).cursor y = .ok ⟨0, 0, freed s.thr.world entry frame z y⟩ := by
    rw [pgfreeHome_of_page hwalk' hsize, hworld]
  obtain ⟨t, htdef⟩ : ∃ t, t = sheafed s.countEffect 0x14 1 (s.reg a).cursor ⟨0, 0, freed s.thr.world entry frame z y⟩ := ⟨_, rfl⟩
  have hexec : exec (.pgfree z a) s = s.finish (.ok t.advance) := by
    rw [exec_pgfree_of_fresh hf hskip hcheck, ← hydef, hhome, htdef]
    rfl
  have ht : t = logsOf (freed s.thr.world entry frame z y) t := by
    rw [htdef]
    rfl
  have hts : stampedOf s t = t := stampedOf_of_home hy (freed_homes ..).symm ht
  have hdone := (Made.stamped hts).advance.complete
  have hpc : t.pc = s.pc := by rw [← hts]; rfl
  have hmem : t.mem = s.mem := by rw [ht]; exact (freed_mem _ _ _ z y).trans (by rw [hy]; rfl)
  have hend : t.advance.clearStall.complete.world s.thr.world = (freed s.thr.world entry frame z y).world s.thr.world := by
    rw [State.world, State.complete_worlds, State.clearStall_worlds, State.advance_worlds, ht]
    rfl
  refine Completes.of_finish hexec hpc ⟨?_, hdone.byteAt hmem, ?_, ?_⟩
  · rw [hdone.stampedOf_eq, hts]
    exact hdone
  · rw [hend, freed_ptes]
  · rw [hend, freed_freeing, hy]
    rfl

theorem traps_pgfree {code : BitVec 8} (hhome : ∀ y, y = issuedOf s y → pgfreeHome z (s.reg a).cursor y = raise code (s.reg a).cursor) :
    Traps (.pgfree z a) s code (s.reg a).cursor := by
  refine traps_of_finish ?_
  rw [exec_pgfree_of_fresh hf hskip hcheck, hhome _ (countEffect_useStamp_eq s)]
  rfl

end

section
variable {z : BitVec 3} {va : Nat} {s y : State} (hy : y = issuedOf s y)
include hy

theorem pageTaken_of_issued : pageTaken z va y ↔ pageTaken z va s := by
  rw [hy]
  rfl

/-- The walker pops the frame and writes the leaf. -/
theorem pgallocHome_of_frame_issued {frame : Nat} {t : State} (hcov : ¬ pageTaken z va s)
    (hp : s.popFrame s.thr.world (levelOf z) = some (frame, t)) :
    ∃ x, pgallocHome z va y = ⟨0, 0, x⟩ ∧ x = homesOf y x ∧ x.mem = s.mem ∧
      frameStacks (x.world s.thr.world) = frameStacks (t.world s.thr.world) ∧
      ∀ entry, leafEntry (s.world s.thr.world) va (levelOf z) 4 s.curDomain.ptroot = some entry → ∀ k,
        NMap.getD (x.world s.thr.world).ptes k 0 =
          if k = entry then freshLeaf s.thr.ctx.domain frame else NMap.getD (s.world s.thr.world).ptes k 0 := by
  have hworld : y.thr.world = s.thr.world := by rw [hy]; rfl
  have hdomain : y.thr.ctx.domain = s.thr.ctx.domain := by rw [hy]; rfl
  have hroot : y.curDomain.ptroot = s.curDomain.ptroot := by rw [hy]; rfl
  have hpop : y.popFrame y.thr.world (levelOf z) = some (frame, { y with worlds := t.worlds }) := by
    rw [popFrame_of_worlds (s := s) (by rw [hy]; rfl), hworld, hp]
    rfl
  have hpopped : ({ y with worlds := t.worlds } : State).world s.thr.world = t.world s.thr.world := rfl
  refine ⟨_, pgallocHome_of_frame (fun h => hcov ((pageTaken_of_issued hy).mp h)) hpop, homesOf_trans rfl (mapLeaf_homes ..), ?_, ?_, ?_⟩
  · rw [mapLeaf_mem, hy]
    rfl
  · rw [hworld, mapLeaf_stacks, hpopped]
  · intro entry hentry k
    have hptes := (popFrame_eq_some hp).2
    have hentry' : leafEntry (({ y with worlds := t.worlds } : State).world s.thr.world) va (levelOf z) 4 s.curDomain.ptroot = some entry :=
      (leafEntry_of_ptes hptes 4 _).trans hentry
    rw [hworld, hroot, hdomain, mapLeaf_of_leafEntry _ _ _ _ hentry', setPte_ptes, hpopped, hptes]

theorem walk_issued : y.walk y.who va = s.walk s.who va := by
  rw [hy]
  rfl

end

/-- Settles O16: the answers of the walker to `pgalloc`, and what `pgfree` meets at the end of the walk. -/
theorem pageWords : Obligations.PageWords := by
  unfold Obligations.PageWords
  intro l z a d s _ hf c lv w va root n page
  refine ⟨fun hcheck halign => ?_, fun hcheck hskip => ⟨fun frame size owner entry r w' x hwalk => ⟨fun hsize => ?_, fun hsize => ?_⟩,
    fun hwalk => ?_, fun lv' owner entry r w' x hwalk => ?_, fun hwalk => ?_⟩⟩
  · obtain ⟨y, hydef⟩ : ∃ y, y = s.countEffect.useStamp := ⟨_, rfl⟩
    have hy : y = issuedOf s y := by
      rw [hydef]
      exact countEffect_useStamp_eq s
    have hworlds : y.worlds = s.worlds := by rw [hy]; rfl
    have hmem : y.mem = s.mem := by rw [hy]; rfl
    have hstate : ∀ {u x : State}, u.worlds = x.worlds → ∀ k, u.world k = x.world k := fun h k => by rw [State.world, h]; rfl
    by_cases hcov : coveredAt w va lv 4 root = true ∨ w.covered va lv = true
    · refine (completes_pgalloc hf hcheck halign hydef (pgallocHome_of_taken ((pageTaken_of_issued hy).mpr hcov)) rfl hmem).imp
        fun u ⟨hbytes, hreply, hu⟩ => ⟨hbytes, ?_⟩
      have hsame := hstate (hu.trans hworlds) s.thr.world
      simpa only [if_pos hcov, hsame, w, and_true] using hreply
    · cases hframe : s.popFrame s.thr.world lv with
      | none =>
        have hpop : y.popFrame y.thr.world lv = none := by
          have hworld : y.thr.world = s.thr.world := by rw [hy]; rfl
          rw [popFrame_of_worlds hworlds, hworld, hframe]
          rfl
        refine (completes_pgalloc hf hcheck halign hydef (pgallocHome_of_empty (fun h => hcov ((pageTaken_of_issued hy).mp h)) hpop) rfl
          hmem).imp fun u ⟨hbytes, hreply, hu⟩ => ⟨hbytes, ?_⟩
        have hsame := hstate (hu.trans hworlds) s.thr.world
        simpa only [if_neg hcov, hsame, w, and_true] using hreply
      | some p =>
        obtain ⟨frame, t⟩ := p
        obtain ⟨x, hhome, hx, hxmem, hstacks, hentries⟩ := pgallocHome_of_frame_issued hy hcov hframe
        refine (completes_pgalloc hf hcheck halign hydef hhome hx hxmem).imp fun u ⟨hbytes, hreply, hu⟩ => ⟨hbytes, ?_⟩
        have hsame := hstate hu s.thr.world
        simp only [if_neg hcov, hsame]
        exact ⟨hreply, stacks_of_eq hstacks, hentries⟩
  · exact completes_pgfree hf hskip hcheck hwalk hsize
  · exact traps_pgfree hf hskip hcheck fun y hy => pgfreeHome_of_page_ne ((walk_issued hy).trans hwalk) hsize
  · exact traps_pgfree hf hskip hcheck fun y hy => pgfreeHome_of_absent ((walk_issued hy).trans hwalk)
  · exact traps_pgfree hf hskip hcheck fun y hy => pgfreeHome_of_touch ((walk_issued hy).trans hwalk)
  · exact traps_pgfree hf hskip hcheck fun y hy => pgfreeHome_of_bad ((walk_issued hy).trans hwalk)

end Sys2Proof.Machine
end

section
/-! A store cut into chunks (O11): the pieces of an access, the lines of a piece, and what memory holds when every chunk has been written. -/

namespace Sys2Proof.Machine

open Sys2Proof

/-! ## Blocks -/

theorem mem_blocksOf {g a n k : Nat} : k ∈ blocksOf g a n ↔ n ≠ 0 ∧ a / g ≤ k ∧ k ≤ (a + n - 1) / g := by
  unfold blocksOf
  by_cases hn : n = 0
  · simp [hn]
  · have hle : a / g ≤ (a + n - 1) / g := Nat.div_le_div_right (by omega)
    simp only [hn, if_false, ne_eq, not_false_eq_true, true_and, List.mem_map, List.mem_range]
    constructor
    · rintro ⟨i, hi, rfl⟩
      omega
    · rintro ⟨hl, hu⟩
      exact ⟨k - a / g, by omega, by omega⟩

/-- The block of each byte of a range is one of the range's blocks. -/
theorem mem_blocksOf_of_byte {g a n x : Nat} (hl : a ≤ x) (hu : x < a + n) : x / g ∈ blocksOf g a n :=
  mem_blocksOf.mpr ⟨by omega, Nat.div_le_div_right hl, Nat.div_le_div_right (by omega)⟩

/-- A block of a range meets it. -/
theorem block_meets {g a n k : Nat} (hg : 0 < g) (h : k ∈ blocksOf g a n) : k * g < a + n ∧ a < k * g + g := by
  obtain ⟨hn, hl, hu⟩ := mem_blocksOf.mp h
  have hlast : k * g ≤ a + n - 1 := (Nat.mul_le_mul_right g hu).trans (Nat.div_mul_le_self ..)
  have hfirst : a < (a / g + 1) * g := by
    rw [Nat.add_mul, one_mul]
    exact Nat.lt_div_mul_add hg
  have hnext : (a / g + 1) * g ≤ (k + 1) * g := Nat.mul_le_mul_right g (by omega)
  rw [Nat.add_mul k, one_mul] at hnext
  exact ⟨by omega, by omega⟩

/-! ## Pieces -/

/-- The sum of the sizes of pieces. -/
def totalOf (ps : List (Nat × Nat)) : Nat := (ps.map (·.2)).sum

/-- The pieces of a range make up the range. -/
theorem totalOf_piecesAt {g : Nat} (hg : 0 < g) (a n : Nat) : totalOf (piecesAt g a n) = n := by
  have hsum : ∀ j, 0 < n → j ≤ (a + n - 1) / g - a / g + 1 →
      (((List.range j).map fun i => min (a + n) ((i + a / g) * g + g) - max a ((i + a / g) * g)).sum = min (a + n) ((j + a / g) * g) - a) := by
    intro j hn hj
    have hspan : a / g ≤ (a + n - 1) / g := Nat.div_le_div_right (by omega)
    induction j with
    | zero =>
      have hle : (0 + a / g) * g ≤ a := by rw [Nat.zero_add]; exact Nat.div_mul_le_self ..
      simp only [List.range_zero, List.map_nil, List.sum_nil]
      omega
    | succ j ih =>
      have hmem : j + a / g ∈ blocksOf g a n := mem_blocksOf.mpr ⟨by omega, by omega, by omega⟩
      obtain ⟨hlast, hfirst⟩ := block_meets hg hmem
      have hnext : (j + 1 + a / g) * g = (j + a / g) * g + g := by ring
      rw [List.range_succ, List.map_append, List.sum_append, ih (by omega), List.map_singleton, List.sum_singleton, hnext]
      generalize (j + a / g) * g = p at *
      omega
  unfold totalOf piecesAt blocksOf
  by_cases hn : n = 0
  · simp [hn]
  · have hend : a + n ≤ ((a + n - 1) / g - a / g + 1 + a / g) * g := by
      have hle : a / g ≤ (a + n - 1) / g := Nat.div_le_div_right (by omega)
      have hmul : (a + n - 1) / g - a / g + 1 + a / g = (a + n - 1) / g + 1 := by omega
      rw [hmul, Nat.add_mul, one_mul]
      have := Nat.lt_div_mul_add (a := a + n - 1) hg
      omega
    have hall := hsum _ (by omega) le_rfl
    simp only [hn, if_false, List.map_map]
    exact hall.trans (by omega)

theorem piecesAt_pos {g a n : Nat} (hg : 0 < g) {p : Nat × Nat} (h : p ∈ piecesAt g a n) : 0 < p.2 := by
  obtain ⟨k, hk, rfl⟩ := List.mem_map.mp h
  obtain ⟨hl, hu⟩ := block_meets hg hk
  obtain ⟨hn, _, _⟩ := mem_blocksOf.mp hk
  dsimp only
  omega

/-- Translation keeps the sizes of the pieces. -/
theorem translatePieces_sizes {who : Who} {space : Nat} {need : Need} (l : List (Nat × Nat)) :
    ∀ {s t : State} {ps : List (Nat × Nat)}, s.translatePieces who space need l = .ok (ps, t) → ps.map (·.2) = l.map (·.2) := by
  induction l with
  | nil => intro s t ps h; cases h; rfl
  | cons x r ih =>
    intro s t ps h
    obtain ⟨⟨pa, u⟩, hp, h⟩ := Res.bind_ok h
    obtain ⟨_, _, h⟩ := Res.bind_ok h
    obtain ⟨⟨qs, v⟩, hq, h⟩ := Res.bind_ok h
    cases h
    rw [List.map_cons, List.map_cons, ih hq]

/-! ## The lines of a piece -/

theorem mem_lineChunks {pa : Nat} {bs : List Byte} {c : Nat × List Byte} (h : c ∈ lineChunks pa bs) :
    ∃ l ∈ blocksOf 64 pa bs.length, c = (max pa (l * 64),
      (bs.drop (max pa (l * 64) - pa)).take (min (pa + bs.length) (l * 64 + 64) - max pa (l * 64))) := by
  obtain ⟨l, hl, rfl⟩ := List.mem_map.mp h
  exact ⟨l, hl, rfl⟩

/-- A chunk lies in its piece, is not empty, and holds the piece's bytes at its place. -/
theorem lineChunks_inside {pa : Nat} {bs : List Byte} {c : Nat × List Byte} (h : c ∈ lineChunks pa bs) :
    pa ≤ c.1 ∧ c.1 < pa + bs.length ∧ 0 < c.2.length ∧ c.1 + c.2.length ≤ pa + bs.length ∧
      ∀ i, i < c.2.length → c.2[i]? = bs[c.1 - pa + i]? := by
  obtain ⟨l, hl, rfl⟩ := mem_lineChunks h
  obtain ⟨hlo, hhi⟩ := block_meets (by decide) hl
  obtain ⟨hn, _, _⟩ := mem_blocksOf.mp hl
  simp only [List.length_take, List.length_drop]
  refine ⟨by omega, by omega, by omega, by omega, fun i hi => ?_⟩
  rw [List.getElem?_take, if_pos (by omega), List.getElem?_drop]

/-- Every byte of a piece lies in a chunk. -/
theorem lineChunks_cover {pa x : Nat} {bs : List Byte} (hl : pa ≤ x) (hu : x < pa + bs.length) :
    ∃ c ∈ lineChunks pa bs, c.1 ≤ x ∧ x < c.1 + c.2.length := by
  refine ⟨_, List.mem_map.mpr ⟨x / 64, mem_blocksOf_of_byte hl hu, rfl⟩, ?_⟩
  simp only [List.length_take, List.length_drop]
  omega

/-! ## The chunks of a store -/

theorem chunksOf_inside {c : Nat × List Byte} : ∀ {ps : List (Nat × Nat)} {bs : List Byte}, c ∈ chunksOf ps bs →
    ∃ p ∈ ps, p.1 ≤ c.1 ∧ 0 < c.2.length ∧ c.1 + c.2.length ≤ p.1 + p.2
  | [], _, h => nomatch h
  | (pa, n) :: r, bs, h => by
    rcases List.mem_append.mp h with h | h
    · obtain ⟨hl, _, hpos, hu, _⟩ := lineChunks_inside h
      have hlen : (bs.take n).length ≤ n := List.length_take_le ..
      exact ⟨(pa, n), List.mem_cons_self, hl, hpos, by omega⟩
    · obtain ⟨p, hp, hin⟩ := chunksOf_inside h
      exact ⟨p, List.mem_cons_of_mem _ hp, hin⟩

theorem totalOf_cons (p : Nat × Nat) (r : List (Nat × Nat)) : totalOf (p :: r) = p.2 + totalOf r := by
  rw [totalOf, List.map_cons, List.sum_cons, totalOf]

theorem chunksOf_cover {x : Nat} : ∀ {ps : List (Nat × Nat)} {bs : List Byte}, bs.length = totalOf ps → inPieces ps x →
    ∃ c ∈ chunksOf ps bs, c.1 ≤ x ∧ x < c.1 + c.2.length
  | [], _, _, ⟨_, hp, _⟩ => nomatch hp
  | (pa, n) :: r, bs, hlen, ⟨p, hp, hl, hu⟩ => by
    rw [totalOf_cons] at hlen
    rcases List.mem_cons.mp hp with rfl | hp
    · obtain ⟨c, hc, hcover⟩ := lineChunks_cover (bs := bs.take n) hl (by rw [List.length_take]; dsimp only at hu hlen; omega)
      exact ⟨c, List.mem_append_left _ hc, hcover⟩
    · obtain ⟨c, hc, hcover⟩ := chunksOf_cover (bs := bs.drop n) (by rw [List.length_drop]; dsimp only at hlen; omega) ⟨p, hp, hl, hu⟩
      exact ⟨c, List.mem_append_right _ hc, hcover⟩

/-- Memory after each chunk has been written. -/
def writeChunks : List Host.Cell → List (Nat × List Byte) → List Host.Cell
  | m, [] => m
  | m, c :: r => writeChunks (Cells.write m c.1 c.2) r

theorem writeChunks_append (k l : List (Nat × List Byte)) : ∀ m, writeChunks m (k ++ l) = writeChunks (writeChunks m k) l := by
  induction k with
  | nil => intro m; rfl
  | cons c r ih => intro m; exact ih _

theorem get_writeChunks_outside {x : Nat} {l : List (Nat × List Byte)} (h : ∀ c ∈ l, x < c.1 ∨ c.1 + c.2.length ≤ x) :
    ∀ m, Cells.get (writeChunks m l) x = Cells.get m x := by
  induction l with
  | nil => intro m; rfl
  | cons c r ih =>
    intro m
    exact (ih (fun d hd => h d (List.mem_cons_of_mem _ hd)) _).trans (Cells.get_write_outside _ _ _ _ (h c List.mem_cons_self))

/-- A byte whose chunks agree on it. -/
theorem get_writeChunks_inside {x : Nat} {v : Byte} {l : List (Nat × List Byte)}
    (hv : ∀ c ∈ l, c.1 ≤ x → x < c.1 + c.2.length → c.2[x - c.1]? = some v) (hx : ∃ c ∈ l, c.1 ≤ x ∧ x < c.1 + c.2.length) :
    ∀ m, Cells.get (writeChunks m l) x = v := by
  induction l with
  | nil => obtain ⟨_, hc, _⟩ := hx; exact nomatch hc
  | cons c r ih =>
    intro m
    have hv' : ∀ d ∈ r, d.1 ≤ x → x < d.1 + d.2.length → d.2[x - d.1]? = some v := fun d hd => hv d (List.mem_cons_of_mem _ hd)
    by_cases hr : ∃ d ∈ r, d.1 ≤ x ∧ x < d.1 + d.2.length
    · exact ih hv' hr _
    · have hout : ∀ d ∈ r, x < d.1 ∨ d.1 + d.2.length ≤ x := fun d hd => by
        by_contra hcon
        exact hr ⟨d, hd, by omega, by omega⟩
      obtain ⟨d, hd, hl, hu⟩ := hx
      rcases List.mem_cons.mp hd with rfl | hd
      · refine (get_writeChunks_outside hout _).trans ?_
        rw [Cells.get_write, if_pos ⟨hl, hu⟩, hv d List.mem_cons_self hl hu]
        rfl
      · exact absurd ⟨d, hd, hl, hu⟩ hr

/-- The lines of a piece write its bytes. -/
theorem get_writeChunks_lineChunks {pa x : Nat} {bs : List Byte} (hl : pa ≤ x) (hu : x < pa + bs.length) (m : List Host.Cell) :
    Cells.get (writeChunks m (lineChunks pa bs)) x = bs[x - pa]'(by omega) := by
  refine get_writeChunks_inside (fun c hc hcl hcu => ?_) (lineChunks_cover hl hu) m
  obtain ⟨hpa, _, _, _, hbytes⟩ := lineChunks_inside hc
  have hplace : c.1 - pa + (x - c.1) = x - pa := by omega
  rw [hbytes _ (by omega), hplace, List.getElem?_eq_getElem]

theorem read_of_get {m : List Host.Cell} {a : Nat} {bs : List Byte}
    (h : ∀ i (hi : i < bs.length), Cells.get m (a + i) = bs[i]) : Cells.read m a bs.length = bs := by
  apply List.ext_getElem?
  intro i
  by_cases hi : i < bs.length
  · rw [Cells.read_getElem? _ _ _ _ hi, h i hi, List.getElem?_eq_getElem]
  · rw [List.getElem?_eq_none (by rw [Cells.read_length]; omega), List.getElem?_eq_none (by omega)]

/-- The bytes of the pieces in memory. -/
def piecesIn (m : List Host.Cell) : List (Nat × Nat) → List Byte
  | [] => []
  | p :: r => Cells.read m p.1 p.2 ++ piecesIn m r

theorem readPieces_eq (s : State) : ∀ ps, s.readPieces ps = piecesIn s.mem ps
  | [] => rfl
  | (pa, n) :: r => by rw [State.readPieces, piecesIn, readPieces_eq s r]; rfl

/-- Pieces that share no byte hold, when all chunks have been written, the bytes of the store. -/
theorem piecesIn_writeChunks : ∀ (ps : List (Nat × Nat)) (bs : List Byte) (m : List Host.Cell), bs.length = totalOf ps → piecesApart ps →
    piecesIn (writeChunks m (chunksOf ps bs)) ps = bs
  | [], bs, _, hlen, _ => (List.eq_nil_of_length_eq_zero hlen).symm
  | (pa, n) :: r, bs, m, hlen, hapart => by
    obtain ⟨hhead, hrest⟩ := List.pairwise_cons.mp hapart
    rw [totalOf_cons] at hlen
    have hn : (bs.take n).length = n := by rw [List.length_take]; dsimp only at hlen; omega
    have hfirst : Cells.read (writeChunks m (chunksOf ((pa, n) :: r) bs)) pa (bs.take n).length = bs.take n := by
      refine read_of_get fun i hi => ?_
      rw [chunksOf, writeChunks_append, get_writeChunks_outside, get_writeChunks_lineChunks (by omega) (by omega)]
      · congr 1
        omega
      · intro c hc
        obtain ⟨p, hp, hl, _, hu⟩ := chunksOf_inside hc
        have := hhead p hp
        dsimp only at this
        omega
    rw [hn] at hfirst
    rw [piecesIn, hfirst, chunksOf, writeChunks_append, piecesIn_writeChunks r (bs.drop n) _
      (by rw [List.length_drop]; dsimp only at hlen; omega) hrest, List.take_append_drop]

end Sys2Proof.Machine
end

section
/-! Stores at their homes (O11): the chunks of a store, the step records, the fault that a refused part leaves, and the words. -/

namespace Sys2Proof.Machine

open Sys2Proof

theorem homesOf_self (s : State) : s = homesOf s s := rfl

/-! ## One chunk -/

section
variable {q : Req} {pa : Nat} {bs : List Byte} {s : State}

/-- What a chunk that its home takes changes. -/
def lineStored (s t : State) : State := { s with mem := t.mem, tags := t.tags, poison := t.poison, broken := t.broken, seals := t.seals }

theorem storeLine_eq_of_taken (hfar : regionOf pa = 2 → s.farBacked pa = true) (hserves : s.serves q pa = true) :
    s.storeLine q pa bs = lineStored s (s.storeLine q pa bs) := by
  have hbacked : (regionOf pa == 2 && !s.farBacked pa) = false := by
    by_cases h : regionOf pa = 2
    · simp [hfar h]
    · simp [h]
  unfold State.storeLine State.clearTags
  simp only [hbacked, hserves, Bool.not_true, Bool.false_eq_true, if_false]
  (repeat' split) <;> rfl

theorem takesStore_lineStored (s t : State) (q : Req) (x : Nat) : takesStore (lineStored s t) q x = takesStore s q x := rfl

theorem storeRefusal_of_takes (h : takesStore s q pa) : s.storeRefusal q pa = none := by
  obtain ⟨hmark, _, hserves, _⟩ := h
  simp [State.storeRefusal, hserves, hmark]

/-- A store that drops bytes or tags clears tags and sets none. -/
theorem storeLine_tags (s : State) (q : Req) (pa : Nat) (bs : List Byte) :
    (s.storeLine q pa bs).tags = s.tags ∨ (s.storeLine q pa bs).tags = (s.clearTags pa bs.length).tags := by
  unfold State.storeLine
  split
  · exact .inl rfl
  · split
    · refine .inl ?_
      unfold State.notePort
      split <;> rfl
    · refine .inr ?_
      unfold State.clearTags
      dsimp only
      (repeat' split) <;> rfl

end

/-! ## The chunks of a store -/

section
variable {q : Req}

theorem storeBytes_homes (l : List (Nat × List Byte)) : ∀ (off : Nat) (s : State), (s.storeBytes q off l).1 = homesOf s (s.storeBytes q off l).1 := by
  induction l with
  | nil => intro off s; rfl
  | cons c r ih =>
    intro off s
    obtain ⟨pa, bs⟩ := c
    unfold State.storeBytes
    split
    · have hnote : s.notePort q pa = homesOf s (s.notePort q pa) := by
        unfold State.notePort
        split <;> rfl
      exact homesOf_trans hnote (ih _ _)
    · exact homesOf_trans (homesOf_storeLine s q pa bs).symm (ih _ _)

/-- What a step of a store does to the tag of one granule: nothing, or it clears it, where the chunk touches the granule. -/
theorem storeLine_tagAt (s : State) (q : Req) (pa : Nat) (bs : List Byte) (x : Nat) :
    (s.storeLine q pa bs).tagAt x = s.tagAt x ∨ ((s.storeLine q pa bs).tagAt x = false ∧ ∃ y, y / 16 = x / 16 ∧ pa ≤ y ∧ y < pa + bs.length) := by
  rcases storeLine_tags s q pa bs with h | h
  · exact .inl (by rw [State.tagAt, h]; rfl)
  · have htag : (s.storeLine q pa bs).tagAt x = (s.clearTags pa bs.length).tagAt x := by rw [State.tagAt, h]; rfl
    rw [htag, State.tagAt_clearTags]
    split
    next hin =>
      refine .inr ⟨rfl, max pa (x / 16 * 16), ?_⟩
      omega
    next => exact .inl rfl

theorem notePort_tagAt (s : State) (q : Req) (pa x : Nat) : (s.notePort q pa).tagAt x = s.tagAt x := by
  unfold State.notePort
  split <;> rfl

/-- A granule that no chunk touches keeps its tag. -/
theorem storeBytes_tagAt_apart {x : Nat} (l : List (Nat × List Byte)) : ∀ (off : Nat) (s : State),
    (∀ c ∈ l, ∀ y, y / 16 = x / 16 → ¬ (c.1 ≤ y ∧ y < c.1 + c.2.length)) → (s.storeBytes q off l).1.tagAt x = s.tagAt x := by
  induction l with
  | nil => intro off s _; rfl
  | cons c r ih =>
    intro off s h
    obtain ⟨pa, bs⟩ := c
    have hr := fun d hd => h d (List.mem_cons_of_mem (pa, bs) hd)
    unfold State.storeBytes
    split
    · rw [ih _ _ hr, notePort_tagAt]
    · rw [ih _ _ hr]
      rcases storeLine_tagAt s q pa bs x with e | ⟨_, y, hy, hin⟩
      · exact e
      · exact absurd hin (h (pa, bs) List.mem_cons_self y hy)

/-- A tag that is clear stays clear. -/
theorem storeBytes_tagAt_clear {x : Nat} (l : List (Nat × List Byte)) : ∀ (off : Nat) (s : State),
    s.tagAt x = false → (s.storeBytes q off l).1.tagAt x = false := by
  induction l with
  | nil => intro off s h; exact h
  | cons c r ih =>
    intro off s h
    obtain ⟨pa, bs⟩ := c
    unfold State.storeBytes
    split
    · exact ih _ _ (by rwa [notePort_tagAt])
    · refine ih _ _ ?_
      rcases storeLine_tagAt s q pa bs x with e | ⟨e, _⟩
      · rw [e, h]
      · exact e

/-- Chunks that their homes take: the bytes, no refusal, and the tags of the granules that they touch. -/
theorem storeBytes_of_takes (l : List (Nat × List Byte)) : ∀ (off : Nat) (s : State), (∀ c ∈ l, takesStore s q c.1) →
    (s.storeBytes q off l).1.mem = writeChunks s.mem l ∧ (s.storeBytes q off l).2 = none ∧
      ∀ c ∈ l, ∀ x, c.1 ≤ x → x < c.1 + c.2.length → (s.storeBytes q off l).1.tagAt x = false := by
  induction l with
  | nil => intro off s _; exact ⟨rfl, rfl, fun _ hc => nomatch hc⟩
  | cons c r ih =>
    intro off s h
    obtain ⟨pa, bs⟩ := c
    have hhead := h (pa, bs) List.mem_cons_self
    obtain ⟨hmem, htags⟩ := storeLine_of_taken (bs := bs) hhead.2.1 hhead.2.2.1
    have hrest : ∀ d ∈ r, takesStore (s.storeLine q pa bs) q d.1 := fun d hd => by
      rw [storeLine_eq_of_taken hhead.2.1 hhead.2.2.1, takesStore_lineStored]
      exact h d (List.mem_cons_of_mem _ hd)
    obtain ⟨hm, hnone, hclear⟩ := ih (off + bs.length) _ hrest
    have hstore : s.storeBytes q off ((pa, bs) :: r) = (s.storeLine q pa bs).storeBytes q (off + bs.length) r := by
      rw [State.storeBytes, storeRefusal_of_takes hhead]
    rw [hstore]
    refine ⟨by rw [hm, hmem]; rfl, hnone, fun d hd x hl hu => ?_⟩
    rcases List.mem_cons.mp hd with rfl | hd
    · refine storeBytes_tagAt_clear _ _ _ ?_
      have hclear := s.tagAt_clearTags_inside hl hu
      rw [State.tagAt] at hclear ⊢
      rw [htags]
      exact hclear
    · exact hclear d hd x hl hu

end

/-! ## A plain store -/

/-- The state `s` but for the step records of `t`. -/
def partsOf (s t : State) : State := { s with parts := t.parts }

theorem partsOf_trans {s t u : State} (h : t = partsOf s t) (g : u = partsOf t u) : u = partsOf s u := g.trans (by rw [h]; rfl)

theorem recordLine_eq (s : State) (p pa n : Nat) : s.recordLine p pa n = partsOf s (s.recordLine p pa n) := by
  unfold State.recordLine
  simp only []
  (repeat' split) <;> rfl

theorem recordChunks_eq (p : Nat) (l : List (Nat × List Byte)) : ∀ s : State, s.recordChunks p l = partsOf s (s.recordChunks p l) := by
  induction l with
  | nil => intro s; rfl
  | cons c r ih =>
    intro s
    exact partsOf_trans (recordLine_eq s p c.1 c.2.length) (ih _)

/-- The state `s` but for the homes and the deferred faults of `t`. -/
def lateOf (s t : State) : State := (homesOf s t).modCtx fun c => { c with late := t.thr.ctx.late }

/-- A plain store, as one run of its chunks over the state with its step records. -/
theorem performStore_eq (s : State) (l : List (Nat × List Byte)) (cur : Word64) : ∃ v : State, v = partsOf s v ∧
    s.performStore l cur = lateOf s (s.performStore l cur) ∧
    (s.performStore l cur).mem = (v.storeBytes s.req 0 l).1.mem ∧ (s.performStore l cur).tags = (v.storeBytes s.req 0 l).1.tags := by
  obtain ⟨w, hw⟩ : ∃ w, w = l.filter fun x => (s.storeRefusal s.req x.1).isNone := ⟨_, rfl⟩
  obtain ⟨v, hv⟩ : ∃ v, v = s.recordChunks s.thr.part w := ⟨_, rfl⟩
  have hparts : v = partsOf s v := by rw [hv]; exact recordChunks_eq ..
  refine ⟨v, hparts, ?_⟩
  have hhomes : (v.storeBytes s.req 0 l).1 = homesOf s (v.storeBytes s.req 0 l).1 := homesOf_trans (by rw [hparts]; rfl) (storeBytes_homes ..)
  have hstore : s.performStore l cur = match (v.storeBytes s.req 0 l).2 with
      | none => (v.storeBytes s.req 0 l).1
      | some (code, off) => ((v.storeBytes s.req 0 l).1.defer ⟨code, (cur + BitVec.ofNat 64 off) &&& ~~~63, s.pc,
          (v.storeBytes s.req 0 l).1.nextId⟩).fresh.2 := by
    rw [hv, hw]
    rfl
  rw [hstore]
  split
  · exact ⟨by rw [hhomes]; rfl, rfl, rfl⟩
  · exact ⟨by rw [hhomes]; rfl, rfl, rfl⟩

/-! ## The state from which a word stores -/

section
variable {s : State} {f : Ctx → Ctx}

theorem translateDevice_modCtx {who : Who} {a pa : Nat} {need : Need} (h : s.translateDevice who a need = .ok (pa, s)) :
    (s.modCtx f).translateDevice who a need = .ok (pa, s.modCtx f) := by
  have hwalk : (s.modCtx f).walk who a = s.walk who a := rfl
  unfold State.translateDevice at h ⊢
  rw [hwalk]
  dsimp only at h ⊢
  split at h
  · cases h
  · cases h
  · split at h
    next hok => rw [if_pos hok]; cases h; rfl
    next => cases h
  · split at h <;> cases h

theorem translateHost_modCtx {who : Who} {a pa : Nat} {need : Need} (h : s.translateHost who a need = .ok (pa, s)) :
    (s.modCtx f).translateHost who a need = .ok (pa, s.modCtx f) := by
  have hhub : (s.modCtx f).hub = s.hub := rfl
  have hworld : ∀ w, (s.modCtx f).world w = s.world w := fun _ => rfl
  unfold State.translateHost at h ⊢
  simp only [hhub, hworld]
  dsimp only at h
  split at h
  · split at h
    next hok => rw [if_pos hok]; cases h; rfl
    next => cases h
  · split at h
    · split at h <;> cases h
    · cases h

/-- Translation looks at nothing of the thread's context. -/
theorem placeAt_modCtx {who : Who} {space a pa : Nat} {need : Need} (h : s.placeAt who space a need = .ok (pa, s)) :
    (s.modCtx f).placeAt who space a need = .ok (pa, s.modCtx f) := by
  unfold State.placeAt at h ⊢
  split at h
  · cases h; rfl
  · exact translateDevice_modCtx h
  · have hfar : (s.modCtx f).hub = s.hub := rfl
    rw [hfar]
    split at h
    · split at h
      next hw => rw [if_pos hw]; cases h; rfl
      next => cases h
    · cases h
  · exact translateHost_modCtx h
  · have hpeer : ∀ n, (s.modCtx f).peerReached n = s.peerReached n := fun _ => rfl
    split at h
    next hp => simp only [hpeer, hp, if_true]; cases h; rfl
    next => cases h

theorem translatePieces_modCtx {who : Who} {space : Nat} {need : Need} (l : List (Nat × Nat)) :
    ∀ {ps : List (Nat × Nat)}, s.translatePieces who space need l = .ok (ps, s) →
      (s.modCtx f).translatePieces who space need l = .ok (ps, s.modCtx f) := by
  induction l with
  | nil => intro ps h; cases h; rfl
  | cons x r ih =>
    intro ps h
    obtain ⟨⟨pa, u⟩, hp, h⟩ := Res.bind_ok h
    have hu := State.placeAt_state hp
    rw [hu] at hp h
    obtain ⟨⟨⟩, hn, h⟩ := Res.bind_ok h
    obtain ⟨⟨qs, v⟩, hq, h⟩ := Res.bind_ok h
    have hv := State.translatePieces_state _ hq
    rw [hv] at hq h
    cases h
    have hn' : (s.modCtx f).answersNow pa x.2 = .ok () := hn
    simp only [State.translatePieces, placeAt_modCtx hp, Res.ok_bind, hn', ih hq]

end

end Sys2Proof.Machine
end

section
/-! The stores (O11): the value of a register or the oldest entry of a store queue, at its homes. -/

namespace Sys2Proof.Machine

open Sys2Proof

theorem exec_st (q m : BitVec 2) (z : BitVec 3) (b a d : RegNum) (s : State) : exec (.st q m z b a d) s = execSt q m z b a d s := rfl

/-! ## At the homes -/

/-- The tag of a capability's granule after its store, where the home of the bytes took it. -/
def tagStored (tag : Bool) (ps : List (Nat × Nat)) (t u : State) : State :=
  match tag, ps with
  | true, p :: _ => if (t.storeRefusal t.req p.1).isSome then u else u.setTag p.1 true
  | _, _ => u

/-- From `t`, the bytes `bs` have been stored at the pieces `ps`, with the tag `tag`. -/
structure Stored (ps : List (Nat × Nat)) (bs : List Byte) (tag : Bool) (t x : State) : Prop where
  late : x = lateOf t x
  outside : ∀ y, ¬ inPieces ps y → x.byteAt y = t.byteAt y
  apart : ∀ y, granuleApart ps y → x.tagAt y = t.tagAt y
  taken : piecesApart ps → (∀ y, inPieces ps y → takesStore t t.req y) → x.readPieces ps = bs ∧
    (tag = true → ∀ p, ps = [p] → x.tagAt p.1 = true) ∧ (tag = false → ∀ y, inPieces ps y → x.tagAt y = false)

section
variable {ps : List (Nat × Nat)} {bs : List Byte} {tag : Bool} {t : State}

theorem tagStored_mem (u : State) : (tagStored tag ps t u).mem = u.mem := by
  unfold tagStored
  (repeat' split) <;> rfl

theorem tagStored_late {u : State} (h : u = lateOf t u) : tagStored tag ps t u = lateOf t (tagStored tag ps t u) := by
  unfold tagStored
  split
  · split
    · exact h
    · rw [h]
      rfl
  · exact h

theorem tagAt_setTag (u : State) (pa y : Nat) (x : Bool) : (u.setTag pa x).tagAt y = if y / 16 = pa / 16 then x else u.tagAt y := by
  rw [Bool.eq_iff_iff]
  simp only [State.tagAt, State.setTag, List.contains_iff_mem]
  cases x
  · simp only [NSet.assign, Bool.false_eq_true, if_false, NSet.mem_del]
    split <;> simp [*]
  · simp only [NSet.assign, if_true, NSet.mem_add]
    split <;> simp [*]

theorem tagStored_apart {u : State} (hpos : ∀ p ∈ ps, 0 < p.2) {y : Nat} (hy : granuleApart ps y) :
    (tagStored tag ps t u).tagAt y = u.tagAt y := by
  unfold tagStored
  split
  next p r =>
    split
    · rfl
    · rw [tagAt_setTag, if_neg]
      intro hgranule
      exact hy p.1 hgranule.symm ⟨p, List.mem_cons_self, le_rfl, Nat.lt_add_of_pos_right (hpos p List.mem_cons_self)⟩
  · rfl

/-- A store at its homes. -/
theorem stored_performStore (hlen : bs.length = totalOf ps) (hpos : ∀ p ∈ ps, 0 < p.2) (cur : Word64) :
    Stored ps bs tag t (tagStored tag ps t (t.countEffect.performStore (chunksOf ps bs) cur)) := by
  obtain ⟨v, hv, hlate, hmem, htags⟩ := performStore_eq t.countEffect (chunksOf ps bs) cur
  obtain ⟨u, hu⟩ : ∃ u, u = t.countEffect.performStore (chunksOf ps bs) cur := ⟨_, rfl⟩
  rw [← hu] at hlate hmem htags ⊢
  have hcount := countEffect_eq t
  have hreq : t.countEffect.req = t.req := by rw [hcount]; rfl
  have htakes : ∀ y, takesStore v t.req y = takesStore t t.req y := fun y => by rw [hv, hcount]; rfl
  have hvmem : v.mem = t.mem := by rw [hv, hcount]; rfl
  have hvtags : ∀ y, v.tagAt y = t.tagAt y := fun y => by rw [hv, hcount]; rfl
  have hutag : ∀ y, u.tagAt y = (v.storeBytes t.req 0 (chunksOf ps bs)).1.tagAt y := fun y => by rw [State.tagAt, htags, hreq]; rfl
  refine ⟨tagStored_late (hlate.trans (by rw [hcount]; rfl)), fun y hy => ?_, fun y hy => ?_, fun hapart htake => ?_⟩
  · have hout := State.storeBytes_outside t.req (chunksOf ps bs) y 0 v fun c hc => by
      obtain ⟨p, hp, hl, _, hr⟩ := chunksOf_inside hc
      by_contra hin
      exact hy ⟨p, hp, by omega, by omega⟩
    rw [byteAt_of_mem (tagStored_mem u), State.byteAt, hmem, hreq]
    exact hout.trans (byteAt_of_mem hvmem y)
  · rw [tagStored_apart hpos hy, hutag, storeBytes_tagAt_apart, hvtags]
    intro c hc w hw hin
    obtain ⟨p, hp, hl, _, hr⟩ := chunksOf_inside hc
    exact hy w hw ⟨p, hp, by omega, by omega⟩
  · have hchunks : ∀ c ∈ chunksOf ps bs, takesStore v t.req c.1 := fun c hc => by
      obtain ⟨p, hp, hl, hlen, hr⟩ := chunksOf_inside hc
      rw [htakes]
      exact htake c.1 ⟨p, hp, hl, by omega⟩
    obtain ⟨hwritten, _, hclear⟩ := storeBytes_of_takes (chunksOf ps bs) 0 v hchunks
    refine ⟨?_, fun htag p hp => ?_, fun htag y hy => ?_⟩
    · rw [readPieces_eq, tagStored_mem, hmem, hreq, hwritten]
      exact piecesIn_writeChunks ps bs _ hlen hapart
    · have hhead : takesStore t t.req p.1 := by
        rw [hp] at htake hpos
        exact htake p.1 ⟨p, List.mem_singleton.mpr rfl, le_rfl, Nat.lt_add_of_pos_right (hpos p (List.mem_singleton.mpr rfl))⟩
      have hset : tagStored tag ps t u = u.setTag p.1 true := by
        rw [htag, hp, tagStored, storeRefusal_of_takes hhead]
        rfl
      rw [hset, tagAt_setTag, if_pos rfl]
    · obtain ⟨c, hc, hl, hr⟩ := chunksOf_cover hlen hy
      have hnone : tagStored tag ps t u = u := by rw [htag]; rfl
      rw [hnone, hutag]
      exact hclear c hc y hl hr

end

/-! ## At the word -/

section
variable {s t : State} {c : Cap} {cur name : Word64} {n : Nat} {ps : List (Nat × Nat)} {z : BitVec 3} {a : RegNum} {bs : List Byte} {tag : Bool}

/-- The right that a tagged value needs besides. -/
theorem checkCap_storeNeed (h : tag = true → c.permSC = true) :
    s.checkCap s.who c cur n (storeNeed tag) name = s.checkCap s.who c cur n needStore name := by
  cases tag with
  | false => rfl
  | true => simp [State.checkCap, State.checkRights, storeNeed, needStore, h rfl]

theorem skipEffect_streamOf (h : s.skipEffect = none) : (streamOf s t).skipEffect = none := by
  have htask : (streamOf s t).thr.task = s.thr.task := rfl
  unfold State.skipEffect at h ⊢
  rw [htask]
  cases hs : s.thr.task with
  | none => rfl
  | some k =>
    simp only [hs] at h ⊢
    split at h
    next hk => exact if_pos hk
    next => cases h

theorem storeAt_of_reaches (ht : t = streamOf s t) (hr : Reaches s c cur bs.length needStore (regName a) ps s)
    (halign : z = 7 → cur.toNat % 16 = 0) (htag : tag = true → c.permSC = true ∧ c.space ≠ 3 ∧ c.space ≠ 4) (hskip : s.skipEffect = none) :
    storeAt c cur true bs z tag a t = .ok (tagStored tag ps t (t.countEffect.performStore (chunksOf ps bs) cur)) := by
  have hcheck : t.checkCap t.who c cur bs.length (storeNeed tag) (regName a) = .ok () := by
    have hs : s.checkCap s.who c cur bs.length (storeNeed tag) (regName a) = .ok () :=
      (checkCap_storeNeed fun h => (htag h).1).trans hr.checked
    rw [ht]
    exact hs
  have hspace : (!(tag && (c.space == 3 || c.space == 4))) = true := by
    cases htagv : tag with
    | false => rfl
    | true => simp [htag htagv]
  have hskip' : t.skipEffect = none := ht ▸ skipEffect_streamOf hskip
  have htrans : t.translatePieces t.who c.space needStore (piecesAt (pageStep c.space) (addrOf c.space cur) bs.length) = .ok (ps, t) := by
    rw [ht]
    exact translatePieces_modCtx _ hr.translated
  simp only [storeAt, checkEffective_of_fits, hcheck, Res.ok_bind, capAligned_of halign, hspace, require_true, hskip', htrans]
  cases tag with
  | false => rfl
  | true =>
    cases ps with
    | nil => rfl
    | cons p r => rfl

theorem totalOf_of_reaches (hr : Reaches s c cur n needStore name ps t) : totalOf ps = n ∧ ∀ p ∈ ps, 0 < p.2 := by
  have hstep : 0 < pageStep c.space := by
    unfold pageStep hostPage
    split <;> decide
  have hsizes := translatePieces_sizes _ hr.translated
  refine ⟨?_, fun p hp => ?_⟩
  · rw [totalOf, hsizes]
    exact totalOf_piecesAt hstep _ _
  · have hmem : p.2 ∈ (piecesAt (pageStep c.space) (addrOf c.space cur) n).map (·.2) := by
      rw [← hsizes]
      exact List.mem_map_of_mem hp
    obtain ⟨x, hx, hxp⟩ := List.mem_map.mp hmem
    rw [← hxp]
    exact piecesAt_pos hstep hx

end

/-! ## The end of the word -/

theorem Becomes.of_late {ds : List RegNum} {m s u : State} (h : Becomes ds m s u) :
    Becomes ds (m.modCtx fun x => { x with late := u.thr.ctx.late }) s u where
  regs := h.regs
  marks := h.marks
  marksKept := h.marksKept
  lateKept := fun _ hx => hx
  lateNew := fun _ hx => .inl hx
  code := h.code
  windows := h.windows
  rest := ⟨h.rest.context, h.rest.thread, h.rest.machine⟩

/-- The state `s` but for what the homes, the stream and the faults with no register of `t` are. -/
def storedOf (s t : State) : State := (streamOf (homesOf s t) t).modCtx fun x => { x with late := t.thr.ctx.late }

theorem storedOf_eq_of_agrees {s x u : State} (h : Agrees x u) :
    storedOf s u = (storedOf s x).modCtx fun c => { c with late := u.thr.ctx.late } :=
  calc storedOf s u = storedOf s { x with thr := u.thr } := congrArg _ h.machine
    _ = storedOf s { x with thr := { x.thr with ctx := u.thr.ctx, stall := u.thr.stall } } :=
      congrArg (fun y => storedOf s { x with thr := y }) h.thread
    _ = (storedOf s x).modCtx fun c => { c with late := u.thr.ctx.late } := by rw [h.context]; rfl

theorem queue_of_agrees {x u : State} (h : Agrees x u) (k : Nat) : u.queue k = x.queue k := by
  unfold State.queue
  split <;> rw [h.context]

/-- What a store leaves, when its base has been updated. -/
theorem completes_stored {i : Instr} {m : BitVec 2} {a b : RegNum} {n : Nat} {s t x : State}
    (hexec : exec i s = s.finish (.ok (updateBase a m b n (s.reg a) x).advance)) (ht : t = streamOf s t) (hx : x = lateOf t x)
    (hc : (s.reg a).sealed = false) :
    Completes i s (s.pc + 4) fun u => u.reg a = written a (baseAfter (s.reg a) m b n) ∧ u.mem = x.mem ∧ u.tags = x.tags ∧
      (∀ k, u.queue k = t.queue k) ∧ u.thr.ctx.stream = t.thr.ctx.stream ∧ allFlags u = allFlags t ∧
      Becomes (basesOf m a) (storedOf s u) s u := by
  have hstored : x = storedOf s x :=
    calc x = lateOf t x := hx
      _ = storedOf s (lateOf t x) := by rw [ht]; rfl
      _ = storedOf s x := by rw [← hx]
  have hreg : x.reg a = s.reg a := by rw [State.reg_eq, State.reg_eq, hstored]; rfl
  have hpc : x.pc = s.pc := by rw [hstored]; rfl
  have hmade : Made [] x s x := Made.self x s (by rw [hstored]; rfl) (by rw [hstored]; rfl)
  have hdone := (hmade.updateBase (m := m) (a := a) (b := b) (n := n) (c := s.reg a)).advance.complete
  refine Completes.of_finish hexec (updateBase_pc.trans hpc) ⟨?_, (congrArg State.mem hdone.rest.machine).trans rfl,
    (congrArg State.tags hdone.rest.machine).trans rfl, fun k => ?_, ?_, ?_, ?_⟩
  · rw [State.end_reg, State.advance_reg, updateBase_reg hc hreg]
  · rw [queue_of_agrees hdone.rest, hx]
    rfl
  · rw [hdone.rest.context, hx]
    rfl
  · exact allFlags_of_ctx (by rw [hdone.rest.context, hx]; rfl) (by rw [hdone.rest.context, hx]; rfl)
  · rw [storedOf_eq_of_agrees hdone.rest, ← hstored]
    exact hdone.of_late

/-! ## The oldest entry of a store queue -/

section
variable {q : Nat} {s : State} {e : QEntry} {r : List QEntry}

/-- The stream without the words up to the one that pushed the oldest entry. -/
theorem filter_drop_findIdx {α : Type} (p : α → Bool) (l : List α) : (l.drop (l.findIdx p + 1)).filter p = (l.filter p).tail := by
  induction l with
  | nil => rfl
  | cons x l ih =>
    cases hx : p x
    · simp [List.findIdx_cons, hx, ih]
    · simp [List.findIdx_cons, hx]

/-- What the thread has left when the word that pushed the oldest entry of a store queue has completed and the entry is popped. -/
structure Popped (q : Nat) (e : QEntry) (r : List QEntry) (s t : State) : Prop where
  stream : t = streamOf s t
  own : moreReady r (t.queue q)
  others : ∀ k, k = 2 ∨ k = 3 → k ≠ q → moreReady (s.queue k) (t.queue k)
  flags : allFlags t = allFlags s
  suffix : t.thr.ctx.stream <:+ s.thr.ctx.stream
  ready : e.ready = true → t.thr.ctx.stream = s.thr.ctx.stream ∧ t.queue q = r ∧ ∀ k, k = 2 ∨ k = 3 → k ≠ q → t.queue k = s.queue k
  pending : e.ready = false → t.thr.ctx.stream.filter (fun y => y.dkind.toNat == q) = (s.thr.ctx.stream.filter fun y => y.dkind.toNat == q).tail

theorem streamRan_queue {s t : State} (h : StreamRan s t) {k : Nat} (hk : k = 2 ∨ k = 3) : moreReady (s.queue k) (t.queue k) := by
  rcases hk with rfl | rfl
  · exact h.sq0
  · exact h.sq1

theorem setQueue_streamOf (hq : q = 2 ∨ q = 3) {s t : State} (h : t = streamOf s t) (l : List QEntry) :
    t.setQueue q l = streamOf s (t.setQueue q l) := by
  rw [h]
  rcases hq with rfl | rfl <;> rfl

theorem setQueue_stream (hq : q = 2 ∨ q = 3) (t : State) (l : List QEntry) : (t.setQueue q l).thr.ctx.stream = t.thr.ctx.stream ∧
    (t.setQueue q l).thr.ctx.xflags = t.thr.ctx.xflags := by
  rcases hq with rfl | rfl <;> exact ⟨rfl, rfl⟩

/-- Popping from a state in which some of the earlier words have completed. -/
theorem popped_of_streamRan (hq : q = 2 ∨ q = 3) {t : State} (hran : StreamRan s t) (ht : t = streamOf s t) {l : List QEntry} (hl : moreReady r l)
    (hready : e.ready = true → t = s ∧ l = r)
    (hpend : e.ready = false → t.thr.ctx.stream.filter (fun y => y.dkind.toNat == q) = (s.thr.ctx.stream.filter fun y => y.dkind.toNat == q).tail) :
    Popped q e r s (t.setQueue q l) := by
  have hlt : ∀ {k}, k = 2 ∨ k = 3 → k < 4 := fun hk => by omega
  obtain ⟨hstream, hxflags⟩ := setQueue_stream hq t l
  have hne : ∀ k, k = 2 ∨ k = 3 → k ≠ q → (t.setQueue q l).queue k = t.queue k := fun k hk hkq => queue_setQueue_ne (hlt hq) (hlt hk) hkq l
  refine ⟨setQueue_streamOf hq ht l, ?_, fun k hk hkq => ?_, (allFlags_of_ctx hstream hxflags).trans hran.flags, ?_, fun he => ?_, fun he => ?_⟩
  · rw [queue_setQueue (hlt hq)]
    exact hl
  · rw [hne k hk hkq]
    exact streamRan_queue hran hk
  · rw [hstream]
    exact hran.stream
  · obtain ⟨hts, hlr⟩ := hready he
    refine ⟨by rw [hstream, hts], by rw [queue_setQueue (hlt hq), hlr], fun k hk hkq => by rw [hne k hk hkq, hts]⟩
  · rw [hstream]
    exact hpend he

theorem popQueue_completeHead (hq : q = 2 ∨ q = 3) (h : s.queue q = e :: r) :
    ∃ t, (s.completeHead q).popQueue q = .ok (e.data, t) ∧ Popped q e r s t := by
  cases he : e.ready with
  | true =>
    have hhead : s.completeHead q = s := by simp only [State.completeHead, h, he, if_true]
    refine ⟨s.setQueue q r, by rw [hhead, State.popQueue, h], ?_⟩
    exact popped_of_streamRan hq (.refl s) rfl (moreReady_refl r) (fun _ => ⟨rfl, rfl⟩) fun hf => by rw [he] at hf; cases hf
  | false =>
    obtain ⟨k, hk⟩ : ∃ k, k = s.thr.ctx.stream.findIdx (fun y => y.dkind.toNat == q) + 1 := ⟨_, rfl⟩
    have hhead : s.completeHead q = s.completeN k := by simp only [State.completeHead, h, he, Bool.false_eq_true, if_false, hk]
    have hran := streamRan_completeN k s
    have hqueue := streamRan_queue hran hq
    rw [h] at hqueue
    cases hl : (s.completeN k).queue q with
    | nil => rw [hl] at hqueue; cases hqueue
    | cons e' r' =>
      rw [hl] at hqueue
      obtain ⟨hx, hr⟩ := List.forall₂_cons.mp hqueue
      have hdata : e'.data = e.data := by rw [hx]
      refine ⟨(s.completeN k).setQueue q r', by rw [hhead, State.popQueue, hl, ← hdata], ?_⟩
      refine popped_of_streamRan hq hran (completeN_eq_streamOf k s) hr (fun hf => by rw [he] at hf; cases hf) fun _ => ?_
      rw [completeN_stream, hk]
      exact filter_drop_findIdx ..

end

/-! ## The words -/

theorem take_toLe (x : Nat) : ∀ (n m : Nat), n ≤ m → (toLe m x).take n = toLe n x := by
  intro n m h
  induction n generalizing m x with
  | zero => rfl
  | succ n ih =>
    obtain ⟨m, rfl⟩ : ∃ k, m = k + 1 := ⟨m - 1, by omega⟩
    rw [toLe, toLe, List.take_succ_cons, ih _ _ (by omega)]

theorem accessSize_le (z : BitVec 3) : accessSize z ≤ 64 := by
  revert z
  decide

/-- The bytes and the tags after a store, as the statement has them. -/
theorem Stored.at_end {ps : List (Nat × Nat)} {bs : List Byte} {tag : Bool} {s t x u : State} (h : Stored ps bs tag t x)
    (ht : t = streamOf s t) (hmem : u.mem = x.mem) (htags : u.tags = x.tags) :
    (∀ y, ¬ inPieces ps y → u.byteAt y = s.byteAt y) ∧
      (piecesApart ps → (∀ y, inPieces ps y → takesStore s s.req y) → u.readPieces ps = bs ∧
        (tag = true → ∀ p, ps = [p] → u.tagAt p.1 = true) ∧ (tag = false → ∀ y, inPieces ps y → u.tagAt y = false)) ∧
      ∀ y, granuleApart ps y → u.tagAt y = s.tagAt y := by
  have htag : ∀ y, u.tagAt y = x.tagAt y := fun y => by rw [State.tagAt, htags]; rfl
  have hbytes : t.mem = s.mem := by rw [ht]; rfl
  refine ⟨fun y hy => (byteAt_of_mem hmem y).trans ((h.outside y hy).trans (byteAt_of_mem hbytes y)), fun hapart htake => ?_, fun y hy => ?_⟩
  · obtain ⟨hread, hset, hclear⟩ := h.taken hapart fun y hy => by rw [ht]; exact htake y hy
    refine ⟨?_, fun he p hp => (htag _).trans (hset he p hp), fun he y hy => (htag y).trans (hclear he y hy)⟩
    rw [readPieces_eq, hmem, ← readPieces_eq]
    exact hread
  · rw [htag, h.apart y hy, ht]
    rfl

/-- A store of a register's value. -/
theorem exec_st_reg {m : BitVec 2} {z : BitVec 3} {b a d : RegNum} {s : State} {ps : List (Nat × Nat)}
    (hfit : effectiveFits (s.reg a) m b (accessSize z) s = true)
    (hr : Reaches s (s.reg a) (effective (s.reg a) m b (accessSize z) s) (accessSize z) needStore (regName a) ps s)
    (halign : z = 7 → (effective (s.reg a) m b (accessSize z) s).toNat % 16 = 0)
    (htag : (z == 7 && (s.reg d).tag) = true → (s.reg a).permSC = true ∧ (s.reg a).space ≠ 3 ∧ (s.reg a).space ≠ 4)
    (hskip : s.skipEffect = none) :
    exec (.st 0 m z b a d) s = s.finish (.ok (updateBase a m b (accessSize z) (s.reg a)
      (tagStored (z == 7 && (s.reg d).tag) ps s (s.countEffect.performStore (chunksOf ps (toLe (accessSize z) (s.reg d).bits.toNat))
        (effective (s.reg a) m b (accessSize z) s)))).advance) := by
  have hlen : (toLe (accessSize z) (s.reg d).bits.toNat).length = accessSize z := toLe_length ..
  have hstore := storeAt_of_reaches (t := s) (bs := toLe (accessSize z) (s.reg d).bits.toNat) (tag := z == 7 && (s.reg d).tag)
    rfl (by rw [hlen]; exact hr) halign htag hskip
  rw [exec_st, execSt, if_pos rfl]
  simp only [storeReg, storeBytesOf, hfit, hstore, Res.ok_bind]

/-- A store of the oldest entry of a store queue. -/
theorem exec_st_queue {q m : BitVec 2} {z : BitVec 3} {b a d : RegNum} {s t : State} {ps : List (Nat × Nat)} {v : Vec512} (hq : q ≠ 0)
    (hpop : (s.completeHead (q.toNat + 1)).popQueue (q.toNat + 1) = .ok (v, t)) (ht : t = streamOf s t)
    (hfit : effectiveFits (s.reg a) m b (accessSize z) s = true)
    (hr : Reaches s (s.reg a) (effective (s.reg a) m b (accessSize z) s) (accessSize z) needStore (regName a) ps s)
    (halign : z = 7 → (effective (s.reg a) m b (accessSize z) s).toNat % 16 = 0) (hskip : s.skipEffect = none) :
    exec (.st q m z b a d) s = s.finish (.ok (updateBase a m b (accessSize z) (s.reg a)
      (tagStored false ps t (t.countEffect.performStore (chunksOf ps (toLe (accessSize z) v.toNat))
        (effective (s.reg a) m b (accessSize z) s)))).advance) := by
  have hbytes : (bytesOf512 v).take (accessSize z) = toLe (accessSize z) v.toNat := take_toLe _ _ _ (accessSize_le z)
  have hlen : (toLe (accessSize z) v.toNat).length = accessSize z := toLe_length ..
  have hstore := storeAt_of_reaches (bs := toLe (accessSize z) v.toNat) (tag := false) ht (by rw [hlen]; exact hr) halign
    (fun h => absurd h (by decide)) hskip
  rw [exec_st, execSt, if_neg hq]
  simp only [storeQueue, hpop, hbytes, hfit, hstore, Res.ok_bind]

/-- Settles O11: the value of the register, or the entry that the queue gives when the word that pushed it has completed. -/
theorem storeWords : Obligations.StoreWords := by
  unfold Obligations.StoreWords
  intro q m z b a d s t ps e r c n cur tagged data hq hfit hr halign htag hskip
  obtain rfl : t = s := hr.state
  obtain ⟨htotal, hpos⟩ := totalOf_of_reaches hr
  have hsealed := State.unsealed_of_checkCap hr.checked
  by_cases hq0 : q = 0
  · subst hq0
    have hstored := stored_performStore (tag := tagged) (t := t) (bs := toLe n (t.reg d).bits.toNat) ((toLe_length ..).trans htotal.symm) hpos cur
    refine (completes_stored (exec_st_reg hfit hr halign (htag rfl) hskip) rfl hstored.late hsealed).imp
      fun u ⟨hreg, hmem, htags, hqueue, hstream, hflags, hbecomes⟩ => ?_
    obtain ⟨hbytes, htaken, hapart⟩ := hstored.at_end rfl hmem htags
    refine ⟨hreg, hbytes, fun hp hx => ?_, hapart, ?_⟩
    · obtain ⟨hread, hset, hclear⟩ := htaken hp hx
      exact ⟨hread, fun h => hset h.2, fun h => hclear (Bool.eq_false_iff.mpr fun htrue => h ⟨rfl, htrue⟩)⟩
    · refine ⟨?_, ?_, hflags, hstream ▸ List.suffix_refl _, fun _ => ⟨hstream, hqueue 2, hqueue 3⟩, fun h => absurd rfl h, hbecomes⟩
      · exact hqueue 2 ▸ moreReady_refl _
      · exact hqueue 3 ▸ moreReady_refl _
  · obtain ⟨hz, hqk, hhead⟩ := hq.resolve_left hq0
    have hk : q.toNat + 1 = 2 ∨ q.toNat + 1 = 3 := by
      rcases hqk with rfl | rfl
      · exact .inl rfl
      · exact .inr rfl
    obtain ⟨t', hpop, hpopped⟩ := popQueue_completeHead hk hhead
    have hstored := stored_performStore (tag := false) (t := t') (bs := toLe n e.data.toNat) ((toLe_length ..).trans htotal.symm) hpos cur
    refine (completes_stored (exec_st_queue hq0 hpop hpopped.stream hfit hr halign hskip) hpopped.stream hstored.late hsealed).imp
      fun u ⟨hreg, hmem, htags, hqueue, hstream, hflags, hbecomes⟩ => ?_
    obtain ⟨hbytes, htaken, hapart⟩ := hstored.at_end hpopped.stream hmem htags
    have hdata : (if q = 0 then toLe n (t.reg d).bits.toNat else toLe n e.data.toNat) = toLe n e.data.toNat := if_neg hq0
    refine ⟨hreg, hbytes, fun hp hx => ?_, hapart, ?_⟩
    · obtain ⟨hread, _, hclear⟩ := htaken hp hx
      exact ⟨hread.trans hdata.symm, fun h => absurd h.1 hq0, fun _ => hclear rfl⟩
    · obtain ⟨_, hown, hothers, hallFlags, hsuffix, hready, hpending⟩ := hpopped
      rw [hqueue 2, hqueue 3, hflags, hstream]
      rcases hqk with rfl | rfl
      · exact ⟨hown, hothers 3 (.inr rfl) (by decide), hallFlags, hsuffix,
          fun h => (hready (h.resolve_left hq0)).imp_right (.imp_right fun h => h 3 (.inr rfl) (by decide)), fun _ => hpending, hbecomes⟩
      · exact ⟨hothers 2 (.inl rfl) (by decide), hown, hallFlags, hsuffix,
          fun h => (hready (h.resolve_left hq0)).imp_right fun h => ⟨h.2 2 (.inl rfl) (by decide), h.1⟩, fun _ => hpending, hbecomes⟩

end Sys2Proof.Machine
end

section
/-! The words of the copy engines (O34): a card accepted at a free entry, the paused jobs set going, the status words. -/

namespace Sys2Proof.Machine

open Sys2Proof

/-! ## A card at its entry -/

theorem exec_cpyj (a : RegNum) (s : State) : exec (.cpyj a) s = execCpyj a s := rfl

theorem exec_cpyq (a d : RegNum) (s : State) : exec (.cpyq a d) s = execCpyq a d s := rfl

section
variable {s t u : State} {c : Cap} {name : Word64} {m n cl : Nat} {need : Need} {bs card : List Byte} {qs : List (Nat × Nat)}

theorem readBlock_state (h : s.readBlock c m need name = .ok (bs, qs, t)) : t = s := by
  obtain ⟨_, _, h⟩ := Res.bind_ok h
  obtain ⟨_, _, h⟩ := Res.bind_ok h
  obtain ⟨_, hpieces, h⟩ := Res.bind_ok h
  obtain ⟨_, _, h⟩ := Res.bind_ok h
  cases h
  exact State.translatePieces_state _ hpieces

theorem checkCard_state {at_ : Word64} {st dt ct : Bool} (h : checkCard card at_ st dt ct s = .ok u) : u = s := by
  have hmeets := checkCard_meets (P := (· = s)) rfl card at_ st dt ct
  rw [h] at hmeets
  exact hmeets

theorem pairFirst_of_unpaired (h : s.thr.paired = false) : pairFirst s = none := by
  simp [pairFirst, h]

theorem notePair_of_unpaired (h : s.thr.paired = false) (regs : List Cap) (reply : Option Cap) (cmd : Option Nat) :
    notePair card regs reply cmd s = s := by
  simp [notePair, h]

/-- The entry of the lowest number is free for a word that has been granted it, and for one that finds more entries free than
granted and no earlier word waiting. -/
theorem reserveCard_of_free (hfree : freeEntry (engineOf cl s) = some n) (hstop : (engineOf cl s).stop = false)
    (hturn : s.thr.stall = some (.copyGranted cl) ∨
      ((s.threads.filter fun h => h.tid != s.thr.tid && grantedCard cl s h).length < freeEntries (engineOf cl s) ∧
        ∀ h ∈ s.threads, h.tid ≠ s.thr.tid → matrixRuns h.part s = true → waitsCard cl h = false)) :
    reserveCard cl s = .ok n := by
  simp only [reserveCard, hfree, hstop, Bool.not_false, Bool.true_and]
  refine if_pos ?_
  rcases hturn with hgranted | ⟨hroom, hwaits⟩
  · simp [hgranted]
  · have hqueued : (s.threads.any fun h => h.tid != s.thr.tid && waitsCard cl h && matrixRuns h.part s) = false := by
      rw [List.any_eq_false]
      intro h hmem hbad
      simp only [Bool.and_eq_true, bne_iff_ne] at hbad
      obtain ⟨⟨hother, hwait⟩, hruns⟩ := hbad
      rw [hwaits h hmem hother hruns] at hwait
      cases hwait
    simp [hroom, hqueued]

theorem recordJob_eq (reads writes : List Range) (s : State) : recordJob card reads writes s = partsOf s (recordJob card reads writes s) := by
  unfold recordJob
  dsimp only
  (repeat' split) <;> rfl

/-- The state before the job of a card enters its queue. -/
theorem recordJob_useStamp_eq (reads writes : List Range) (s : State) :
    (recordJob card reads writes s).useStamp = issuedOf s (recordJob card reads writes s).useStamp :=
  (useStamp_eq _).trans (by rw [recordJob_eq]; rfl)

end

/-- The engine of the thread's cluster, once a card has been accepted at the entry `n`. -/
structure CardAccepted (n : Nat) (j : Job) (s x : State) : Prop where
  jobs : ∀ k, jobAt s.thr.cluster k x = if k = n then some j else jobAt s.thr.cluster k s
  order : (engineOf s.thr.cluster x).nextOrder = (engineOf s.thr.cluster s).nextOrder + 1
  bytes : x.mem = s.mem
  rest : x = { stampedOf s x with clusters := x.clusters }

section
variable {s : State}

/-- A job that enters its queue where the card's stamp has been used. -/
theorem cardAccepted_of_issued {y : State} (hy : y = issuedOf s y) (n : Nat) (j : Job) :
    CardAccepted n j s (modEngine s.thr.cluster (fun x => { x with nextOrder := x.nextOrder + 1 }) (setJob s.thr.cluster n j y)) where
  jobs k := by
    have hjobs : jobAt s.thr.cluster k y = jobAt s.thr.cluster k s := by rw [hy]; rfl
    have hset := jobAt_setJob (c := s.thr.cluster) (s := y) n k j
    rw [hjobs] at hset
    rw [← hset, jobAt, engineOf_modEngine]
    rfl
  order := by
    have horder : (engineOf s.thr.cluster y).nextOrder = (engineOf s.thr.cluster s).nextOrder := by rw [hy]; rfl
    rw [engineOf_modEngine, ← horder]
    simp only [setJob, engineOf_modEngine]
  bytes := by rw [hy]; rfl
  rest := by rw [hy]; rfl

theorem CardAccepted.endTask {n : Nat} {j : Job} {x : State} (h : CardAccepted n j s x) : CardAccepted n j s x.endTask where
  jobs := h.jobs
  order := h.order
  bytes := h.bytes
  rest := by rw [h.rest]; rfl

theorem engineOf_of_clusters {c : Nat} {t : State} (h : t.clusters = s.clusters) : engineOf c t = engineOf c s := by
  rw [engineOf, State.cluster, h]
  rfl

theorem jobAt_of_clusters {c k : Nat} {t : State} (h : t.clusters = s.clusters) : jobAt c k t = jobAt c k s := by
  rw [jobAt, engineOf_of_clusters h]
  rfl

theorem Agrees.clusters {m u : State} (h : Agrees m u) : u.clusters = m.clusters := by rw [h.machine]

theorem Agrees.restartable {m u : State} (h : Agrees m u) : u.thr.restartable = m.thr.restartable := by rw [h.thread]

/-- What a word leaves that has had a card accepted. -/
theorem completes_cardAccepted {i : Instr} {n : Nat} {j : Job} {x : State} (hexec : exec i s = s.finish (.ok x.advance))
    (hx : CardAccepted n j s x) (hrestart : x.thr.restartable = false) : Completes i s (s.pc + 4) fun v =>
      (∀ k, jobAt s.thr.cluster k v = if k = n then some j else jobAt s.thr.cluster k s) ∧
        (engineOf s.thr.cluster v).nextOrder = (engineOf s.thr.cluster s).nextOrder + 1 ∧ v.thr.restartable = false ∧ SameBytes s v ∧
        Becomes [] { stampedOf s v with clusters := v.clusters } s v := by
  obtain ⟨hjobs, horder, hbytes, hrest⟩ := hx
  have hmade : Made [] x s x := Made.self _ s (by rw [hrest]; rfl) (by rw [hrest]; rfl)
  have hdone := hmade.advance.complete
  have hclusters := hdone.rest.clusters
  refine Completes.of_finish hexec (by rw [State.pc, hrest]; rfl) ⟨fun k => (jobAt_of_clusters hclusters).trans (hjobs k),
    (congrArg Engine.nextOrder (engineOf_of_clusters hclusters)).trans horder, hdone.rest.restartable.trans hrestart,
    fun y => (hdone.rest.bytes y).trans (byteAt_of_mem hbytes y), ?_⟩
  have hstart : { stampedOf s x.advance.clearStall.complete with clusters := x.advance.clearStall.complete.clusters } = x := by
    rw [hdone.stampedOf_eq, hclusters]
    exact hrest.symm
  rw [hstart]
  exact hdone

end

/-! ## The paused jobs -/

theorem NMap.get?_map_val {α : Type} (f : α → α) (l : NMap α) (k : Nat) :
    NMap.get? (l.map fun x => (x.1, f x.2)) k = (NMap.get? l k).map f := by
  induction l with
  | nil => rfl
  | cons x r ih =>
    by_cases h : k = x.1
    · simp [NMap.get?, h]
    · simp [NMap.get?, h, ih]

theorem jobAt_resumeWhere (c k : Nat) (p : Job → Bool) (s : State) : jobAt c k (resumeWhere c p s) =
    (jobAt c k s).map fun j => if j.state = .paused ∧ j.owed = false ∧ p j = true then resumeJob j else j := by
  have hentries : ((engineOf c s).entries.map fun x => if p x.2 && x.2.state == .paused && !x.2.owed then (x.1, resumeJob x.2) else x) =
      (engineOf c s).entries.map fun x => (x.1, if x.2.state = .paused ∧ x.2.owed = false ∧ p x.2 = true then resumeJob x.2 else x.2) := by
    refine List.map_congr_left fun x _ => ?_
    by_cases h : x.2.state = .paused ∧ x.2.owed = false ∧ p x.2 = true
    · simp [h]
    · rw [if_neg h, if_neg]
      simpa using fun hp hs => by simpa [hp, hs] using h
  rw [jobAt, resumeWhere, engineOf_modEngine, hentries, NMap.get?_map_val (fun j => if j.state = .paused ∧ j.owed = false ∧ p j = true then resumeJob j else j)]
  rfl

theorem unitsOf_eq_of_agrees {m s u : State} (h : Agrees m u) : unitsOf s u = unitsOf s m :=
  calc unitsOf s u = unitsOf s { m with thr := u.thr } := congrArg _ h.machine
    _ = unitsOf s { m with thr := { m.thr with ctx := u.thr.ctx, stall := u.thr.stall } } :=
      congrArg (fun y => unitsOf s { m with thr := y }) h.thread
    _ = unitsOf s m := by rw [h.context]; rfl

/-- A word that sets the paused jobs of an engine going. -/
theorem completes_resumed {i : Instr} {s : State} {c : Nat} {p : Job → Bool} (hexec : exec i s = s.finish (.ok (resumeWhere c p s).endTask.advance)) :
    Completes i s (s.pc + 4) fun v =>
      (∀ k, jobAt c k v = (jobAt c k s).map fun j => if j.state = .paused ∧ j.owed = false ∧ p j = true then resumeJob j else j) ∧
        SameBytes s v ∧ Becomes [] (unitsOf s v) s v := by
  obtain ⟨x, hx⟩ : ∃ x, x = (resumeWhere c p s).endTask := ⟨_, rfl⟩
  rw [← hx] at hexec
  have hclusters : x.clusters = (resumeWhere c p s).clusters := by rw [hx]; rfl
  have hunits : unitsOf s x = x := by rw [hx]; rfl
  have hdone : Becomes [] x s x.advance.clearStall.complete :=
    (Made.self x s (by rw [hx]; rfl) (by rw [hx]; rfl)).advance.complete
  refine Completes.of_finish hexec (by rw [hx]; rfl) ⟨fun k => ?_, fun y => (hdone.rest.bytes y).trans (byteAt_of_mem (by rw [hx]; rfl) y), ?_⟩
  · exact (jobAt_of_clusters (hdone.rest.clusters.trans hclusters)).trans (jobAt_resumeWhere ..)
  · rw [unitsOf_eq_of_agrees hdone.rest, hunits]
    exact hdone

/-! ## The words -/

section
variable {a d : RegNum} {s : State}

theorem unit_guard (h : (s.reg a).tag = true ∧ (s.reg a).space = 6) : ((s.reg a).tag && (s.reg a).space == 6) = true := by
  simp [h.1, h.2]

theorem card_guard (h : ¬ ((s.reg a).tag = true ∧ (s.reg a).space = 6)) : ¬ ((s.reg a).tag && (s.reg a).space == 6) = true := by
  simpa using h

/-- `cpyj` with an engine capability. -/
theorem exec_cpyj_unit (hunit : (s.reg a).tag = true ∧ (s.reg a).space = 6) (hslot : checkSlotCap (s.reg a) ⟨1, false, false, true⟩ a s = .ok ()) :
    exec (.cpyj a) s = s.finish (.ok (resumeWhere (curCluster (s.reg a).cursor) (fun j => pausePresent j s) s).endTask.advance) := by
  simp only [exec_cpyj, execCpyj, if_pos (unit_guard hunit), hslot, Res.ok_bind]

/-- `cpyj` with a card. -/
theorem exec_cpyj_card {n : Nat} {bs : List Byte} {qs : List (Nat × Nat)} (hcard : ¬ ((s.reg a).tag = true ∧ (s.reg a).space = 6))
    (hpair : s.thr.paired = false) (hreserve : reserveCard s.thr.cluster s = .ok n)
    (hread : s.readBlock (s.reg a) 192 needRead12 (regName a) = .ok (bs, qs, s))
    (hcheck : checkCard (bs.take 176) (s.reg a).cursor (s.tagAt (State.placeIn qs 0)) (s.tagAt (State.placeIn qs 16))
      (s.tagAt (State.placeIn qs 128)) s = .ok s) :
    exec (.cpyj a) s = s.finish (.ok (acceptJob n (bs.take 176) (s.reg a).cursor (s.tagAt (State.placeIn qs 0))
      (s.tagAt (State.placeIn qs 16)) (s.tagAt (State.placeIn qs 128)) s).endTask.advance) := by
  simp only [exec_cpyj, execCpyj, if_neg (card_guard hcard), submitCard, pairFirst_of_unpaired hpair, Option.isSome_none, Bool.false_eq_true,
    if_false, hreserve, hread, hcheck, notePair_of_unpaired hpair, Res.ok_bind]

/-- What `cpyq` writes for the place of a card. -/
def cardStatus (e : Engine) (at_ : Word64) : Word64 :=
  match latestJob e at_ with
  | some (k, j) => jobStatus k j
  | none => 0

theorem exec_cpyq_card {ps : List (Nat × Nat)} (hcard : ¬ ((s.reg a).tag = true ∧ (s.reg a).space = 6))
    (hr : Reaches s (s.reg a) (s.reg a).cursor 1 needRead12 (regName a) ps s) :
    exec (.cpyq a d) s = s.finish (.ok (s.writeReg d (Cap.ofInt (cardStatus (engineOf s.thr.cluster s) (s.reg a).cursor))).advance) := by
  have hreach : s.access s.who (s.reg a) (s.reg a).cursor 1 needRead12 (regName a) = .ok (ps, s) := hr
  simp only [exec_cpyq, execCpyq, if_neg (card_guard hcard), hreach, Res.ok_bind]
  rfl

theorem exec_cpyq_unit (hunit : (s.reg a).tag = true ∧ (s.reg a).space = 6) (hslot : checkSlotCap (s.reg a) ⟨1, true, false, false⟩ a s = .ok ()) :
    exec (.cpyq a d) s = s.finish (.ok (s.writeReg d (Cap.ofInt (engineStatus (engineOf (curCluster (s.reg a).cursor) s)))).advance) := by
  simp only [exec_cpyq, execCpyq, if_pos (unit_guard hunit), hslot, Res.ok_bind]
  rfl

end

/-- Settles O34: the job of the card at its entry, the engine's jobs one by one, and the two status words. -/
theorem copyWords : Obligations.CopyWords := by
  unfold Obligations.CopyWords
  intro a d s t u n bs qs c cl e card tag source dest unit
  refine ⟨fun hcard hpair hfree hstop hturn hread hcheck => ?_, fun hunit hslot => ?_, fun hunit hslot => ?_, fun hcard ps hr => ?_⟩
  · obtain rfl := readBlock_state hread
    obtain rfl := checkCard_state hcheck
    have hexec := exec_cpyj_card hcard hpair (reserveCard_of_free hfree hstop hturn) hread hcheck
    refine (completes_cardAccepted hexec (cardAccepted_of_issued (recordJob_useStamp_eq ..) n _).endTask rfl).imp
      fun v ⟨hjobs, horder, hrestart, hbytes, hbecomes⟩ =>
        ⟨⟨_, (hjobs n).trans (if_pos rfl), ?_⟩, fun k hk => (hjobs k).trans (if_neg hk), horder, hrestart, hbytes, hbecomes⟩
    exact ⟨rfl, rfl, rfl, rfl, rfl, rfl, rfl, rfl, rfl, rfl, rfl, rfl, rfl⟩
  · exact completes_resumed (exec_cpyj_unit hunit hslot)
  · exact Gives.of_writeReg (exec_cpyq_unit hunit hslot)
  · obtain rfl := hr.state
    have hdone := ((Made.start [d] t).writeReg d (Cap.ofInt (cardStatus (engineOf t.thr.cluster t) (t.reg a).cursor)) (by simp)).advance.complete
    refine Completes.of_finish (exec_cpyq_card hcard hr) (by simp) ⟨?_, hdone, hdone.rest.bytes⟩
    rw [State.end_reg, State.advance_reg, State.reg_writeReg]
    rfl

end Sys2Proof.Machine
end

section
/-! Rounding into a format (O25): the choice between the two neighbours of a value, and the grid of an IEEE-style format. -/

namespace Sys2Proof.Machine

open Sys2Proof

/-! ## Exact magnitudes -/

/-- The magnitude m * 2^e. -/
def magOf (m : Nat) (e : ℤ) : ℚ := m * (2 : ℚ) ^ e

theorem magOf_nonneg (m : Nat) (e : ℤ) : 0 ≤ magOf m e := by
  unfold magOf
  positivity

theorem magOf_zero (e : ℤ) : magOf 0 e = 0 := by rw [magOf, Nat.cast_zero, zero_mul]

theorem magOf_two_mul (m : Nat) (e : ℤ) : magOf (2 * m) e = 2 * magOf m e := by
  rw [magOf, magOf, Nat.cast_mul, Nat.cast_ofNat, mul_assoc]

theorem magOf_mul (ma mb : Nat) (ea eb : ℤ) : magOf (ma * mb) (ea + eb) = magOf ma ea * magOf mb eb := by
  rw [magOf, magOf, magOf, zpow_add₀ two_ne_zero, Nat.cast_mul, mul_mul_mul_comm]

/-- Another unit. -/
theorem magOf_add (m : Nat) (e d : ℤ) : magOf m (e + d) = magOf m e * 2 ^ d := by
  rw [magOf, magOf, zpow_add₀ two_ne_zero, mul_assoc]

theorem magOf_of_nonneg (m : Nat) {e : ℤ} (h : 0 ≤ e) : magOf m e = (m * 2 ^ e.toNat : Nat) := by
  rw [magOf, ← Int.toNat_of_nonneg h, zpow_natCast, Int.toNat_natCast]
  norm_cast

/-! ## The choice between two neighbours (R173) -/

/-- The modes that round away from zero on the side of the sign `neg`. -/
abbrev roundsAway (r : BitVec 2) (neg : Bool) : Prop := (r = 2 ∧ neg = true) ∨ (r = 3 ∧ neg = false)

theorem mode_cases (r : BitVec 2) : r = 0 ∨ r = 1 ∨ r = 2 ∨ r = 3 := by
  revert r
  decide

theorem roundsUp_iff {r : BitVec 2} {neg odd : Bool} {x k : Nat} : roundsUp r neg odd x k false = true ↔
    (r = 0 ∧ (2 ^ k < 2 * x ∨ (2 * x = 2 ^ k ∧ odd = true))) ∨ (roundsAway r neg ∧ 0 < x) := by
  rcases mode_cases r with rfl | rfl | rfl | rfl <;> simp [roundsUp, roundsAway, Nat.pos_iff_ne_zero]

section
variable {near away : Prop} {a lo hi : ℚ} {c k : Nat}

/-- A member of the grid goes to itself. -/
theorem roundedCode_self (h : lo < hi) : roundedCode near away lo lo hi c c :=
  ⟨fun hup => by rcases hup with ⟨-, h1 | ⟨h1, -⟩⟩ | ⟨-, h1⟩ <;> linarith, fun _ => rfl⟩

theorem roundedCode_eq_self (h : lo < hi) (hr : roundedCode near away lo lo hi c k) : k = c :=
  hr.2 fun hup => by rcases hup with ⟨-, h1 | ⟨h1, -⟩⟩ | ⟨-, h1⟩ <;> linarith

/-- One of the two neighbours is taken. -/
theorem roundedCode_cases (h : roundedCode near away a lo hi c k) : k = c ∨ k = c + 1 := by
  by_cases hup : (near ∧ (lo + hi < 2 * a ∨ (2 * a = lo + hi ∧ c % 2 = 1))) ∨ (away ∧ lo < a)
  · exact .inr (h.1 hup)
  · exact .inl (h.2 hup)

/-- The choice does not change with the unit, nor with an even number of codes below. -/
theorem roundedCode_scale {t : ℚ} (ht : 0 < t) {d : Nat} (hd : d % 2 = 0) (h : roundedCode near away a lo hi c k) :
    roundedCode near away (a * t) (lo * t) (hi * t) (d + c) (d + k) := by
  have hmid : lo * t + hi * t < 2 * (a * t) ↔ lo + hi < 2 * a := by
    rw [← add_mul, ← mul_assoc, mul_lt_mul_iff_left₀ ht]
  have htie : 2 * (a * t) = lo * t + hi * t ↔ 2 * a = lo + hi := by
    rw [← add_mul, ← mul_assoc, mul_left_inj' ht.ne']
  have hodd : (d + c) % 2 = 1 ↔ c % 2 = 1 := by omega
  unfold roundedCode at h ⊢
  rw [hmid, htie, hodd, mul_lt_mul_iff_left₀ ht, add_assoc, add_right_inj, add_right_inj]
  exact h

end

/-! ## Rounding to a whole number of units -/

/-- The magnitude `a`, of the sign `neg`, rounded to a whole number: between `n` and `n + 1`, with the mark of an inexact result. -/
structure RoundsUnit (r : BitVec 2) (neg : Bool) (a : ℚ) (n : Nat) (y : Nat × Bool) : Prop where
  le : (n : ℚ) ≤ a
  lt : a < (n : ℚ) + 1
  code : roundedCode (r = 0) (roundsAway r neg) a n (n + 1) n y.1
  inexact : y.2 = true ↔ (n : ℚ) ≠ a

theorem roundShift_roundsUnit (r : BitVec 2) (neg : Bool) (m k : Nat) :
    RoundsUnit r neg (magOf m (-k)) (m / 2 ^ k) (roundShift r neg m k false) := by
  have hP : (0 : ℚ) < 2 ^ k := by positivity
  have hm : (m : ℚ) = (m / 2 ^ k : Nat) * 2 ^ k + (m % 2 ^ k : Nat) := by exact_mod_cast (Nat.div_add_mod' m (2 ^ k)).symm
  have hx : ((m % 2 ^ k : Nat) : ℚ) < 2 ^ k := by exact_mod_cast Nat.mod_lt m (Nat.two_pow_pos k)
  obtain ⟨a, ha⟩ : ∃ a : ℚ, a = magOf m (-k) := ⟨_, rfl⟩
  have hrest : ((m % 2 ^ k : Nat) : ℚ) = (a - (m / 2 ^ k : Nat)) * 2 ^ k := by
    rw [sub_mul, ha, magOf, zpow_neg, zpow_natCast, inv_mul_cancel_right₀ hP.ne']
    linarith
  rw [← ha]
  unfold roundShift
  generalize m / 2 ^ k = n at hrest ⊢
  generalize m % 2 ^ k = x at hx hrest ⊢
  have hpos : 0 < x ↔ (n : ℚ) < a := by
    rw [← Nat.cast_pos (α := ℚ), hrest, mul_pos_iff_of_pos_right hP, sub_pos]
  have hmid : 2 ^ k < 2 * x ↔ (n : ℚ) + (n + 1) < 2 * a := by
    rw [← Nat.cast_lt (α := ℚ)]
    push_cast
    rw [hrest]
    constructor <;> intro h <;> nlinarith
  have htie : 2 * x = 2 ^ k ↔ 2 * a = (n : ℚ) + (n + 1) := by
    rw [← Nat.cast_inj (R := ℚ)]
    push_cast
    rw [hrest, ← mul_assoc, mul_eq_right₀ hP.ne']
    constructor <;> intro h <;> linarith
  have hle : (n : ℚ) ≤ a := by
    rw [← sub_nonneg]
    exact nonneg_of_mul_nonneg_left (hrest ▸ Nat.cast_nonneg x) hP
  refine ⟨hle, ?_, ?_, ?_⟩
  · rw [← sub_lt_iff_lt_add']
    exact (mul_lt_iff_lt_one_left hP).mp (hrest ▸ hx)
  · unfold roundedCode
    rw [← hmid, ← htie, ← hpos, ← beq_iff_eq (a := n % 2), ← roundsUp_iff]
    exact ⟨fun h => if_pos h, fun h => if_neg h⟩
  · simp only [Bool.or_false, bne_iff_ne, ← Nat.pos_iff_ne_zero, hpos]
    exact ⟨ne_of_lt, lt_of_le_of_ne hle⟩

/-- The magnitude m * 2^d rounded to a whole number, as `roundIeee` and `roundInt` do. -/
def roundUnit (r : BitVec 2) (neg : Bool) (m : Nat) (d : ℤ) : Nat × Bool :=
  if 0 ≤ d then (m * 2 ^ d.toNat, false) else roundShift r neg m (-d).toNat false

theorem roundUnit_roundsUnit (r : BitVec 2) (neg : Bool) (m : Nat) (d : ℤ) :
    ∃ n, RoundsUnit r neg (magOf m d) n (roundUnit r neg m d) := by
  unfold roundUnit
  split
  next h =>
    rw [magOf_of_nonneg m h]
    exact ⟨_, le_rfl, lt_add_one _, roundedCode_self (lt_add_one _), by simp⟩
  next h =>
    have hd : magOf m d = magOf m (-(-d).toNat) := congrArg (magOf m) (by omega)
    rw [hd]
    exact ⟨_, roundShift_roundsUnit ..⟩

section
variable {r : BitVec 2} {neg : Bool} {a : ℚ} {n : Nat} {y : Nat × Bool}

theorem RoundsUnit.exact_iff (h : RoundsUnit r neg a n y) : (y.1 : ℚ) = a ↔ y.2 = false := by
  obtain ⟨hle, hlt, hcode, hinexact⟩ := h
  rw [← Bool.not_eq_true, hinexact, not_not]
  constructor
  · intro hy
    rcases roundedCode_cases hcode with h | h
    · rwa [← h]
    · rw [h] at hy
      push_cast at hy
      linarith
  · intro hn
    rw [← hn] at hcode
    rwa [roundedCode_eq_self (lt_add_one _) hcode]

theorem RoundsUnit.floor (h : RoundsUnit r neg a n y) : ⌊a⌋ = n := Int.floor_eq_iff.mpr ⟨h.le, h.lt⟩

/-- Toward zero. -/
theorem RoundsUnit.eq_floor (h : RoundsUnit r neg a n y) (hr : r ≠ 0) (hdir : ¬ roundsAway r neg) : (y.1 : ℤ) = ⌊a⌋ := by
  rw [h.floor, h.code.2 fun hup => hup.elim (fun h => hr h.1) (fun h => hdir h.1)]

/-- Away from zero. -/
theorem RoundsUnit.eq_ceil (h : RoundsUnit r neg a n y) (hr : r ≠ 0) (hdir : roundsAway r neg) : (y.1 : ℤ) = ⌈a⌉ := by
  symm
  rw [Int.ceil_eq_iff]
  have hle := h.le
  have hlt := h.lt
  by_cases hn : (n : ℚ) < a
  · rw [h.code.1 (.inr ⟨hdir, hn⟩)]
    push_cast
    constructor <;> linarith
  · rw [h.code.2 fun hup => hup.elim (fun h => hr h.1) (fun h => hn h.2)]
    push_cast
    constructor <;> linarith

/-- To the nearest, at a tie to the even one. -/
theorem RoundsUnit.nearest (h : RoundsUnit 0 neg a n y) : |a - y.1| ≤ 1 / 2 ∧ (|a - y.1| = 1 / 2 → y.1 % 2 = 0) := by
  have hle := h.le
  have hlt := h.lt
  have hcode := h.code
  by_cases hup : (n : ℚ) + (n + 1) < 2 * a ∨ (2 * a = (n : ℚ) + (n + 1) ∧ n % 2 = 1)
  · rw [hcode.1 (.inl ⟨rfl, hup⟩)]
    push_cast
    rw [abs_of_neg (by linarith)]
    refine ⟨by rcases hup with h | ⟨h, -⟩ <;> linarith, fun he => ?_⟩
    rcases hup with h | ⟨-, h⟩
    · linarith
    · omega
  · rw [hcode.2 fun h => h.elim (fun h => hup h.2) (fun h => by simp [roundsAway] at h)]
    rw [not_or, not_lt, not_and] at hup
    rw [abs_of_nonneg (by linarith)]
    refine ⟨by linarith, fun he => ?_⟩
    have := hup.2 (by linarith)
    omega

end

/-! ## The grid of an IEEE-style format (R164, R173) -/

/-- The grid in units of its least member above zero. -/
theorem gridValue_eq_units (f : Fmt) (c : Nat) :
    gridValue f c = (magUnits (fmtFrac f) c : ℚ) * 2 ^ (1 - (fmtBias f : ℤ) - fmtFrac f) := by
  unfold gridValue magUnits
  simp only [Nat.div_eq_zero_iff_lt (Nat.two_pow_pos _)]
  split
  · rfl
  next h =>
    have h1 : 1 ≤ c / 2 ^ fmtFrac f := (Nat.one_le_div_iff (Nat.two_pow_pos _)).mpr (not_lt.mp h)
    rw [show ((c / 2 ^ fmtFrac f : Nat) : ℤ) - fmtBias f - fmtFrac f = (c / 2 ^ fmtFrac f - 1 : Nat) + (1 - (fmtBias f : ℤ) - fmtFrac f) by omega,
      zpow_add₀ two_ne_zero, zpow_natCast, ← mul_assoc]
    push_cast
    rfl

theorem gridValue_strictMono (f : Fmt) : StrictMono (gridValue f) := fun a b h => by
  rw [gridValue_eq_units, gridValue_eq_units, mul_lt_mul_iff_left₀ (by positivity)]
  exact_mod_cast magUnits_strictMono _ h

theorem gridValue_zero (f : Fmt) : gridValue f 0 = 0 := by
  rw [gridValue_eq_units, magUnits_zero, Nat.cast_zero, zero_mul]

/-- A significand `n` at the `j`-th exponent: 2^(p + 1) there is the first member of the next one. -/
theorem magUnits_scaled {p j n : Nat} (hn : n ≤ 2 ^ (p + 1)) (hj : j = 0 ∨ 2 ^ p ≤ n) : magUnits p (j * 2 ^ p + n) = n * 2 ^ j := by
  have hp : 0 < 2 ^ p := Nat.two_pow_pos p
  have hnormal : ∀ i x, x < 2 ^ p → magUnits p (x + 2 ^ p * (i + 1)) = (2 ^ p + x) * 2 ^ i := fun i x hx => by
    rw [magUnits, if_neg (by rw [Nat.mul_succ]; omega), Nat.add_mul_mod_self_left, Nat.mod_eq_of_lt hx, Nat.add_mul_div_left _ _ hp,
      Nat.div_eq_of_lt hx, Nat.zero_add, Nat.add_sub_cancel]
  rw [Nat.pow_succ] at hn
  by_cases hsmall : n < 2 ^ p
  · obtain rfl : j = 0 := by omega
    rw [Nat.zero_mul, Nat.zero_add, Nat.pow_zero, Nat.mul_one, magUnits, if_pos hsmall]
  · by_cases hlast : n = 2 ^ p * 2
    · rw [show j * 2 ^ p + n = 0 + 2 ^ p * (j + 1 + 1) by rw [hlast]; ring, hnormal _ _ hp, hlast]
      ring
    · obtain ⟨x, rfl⟩ : ∃ x, n = 2 ^ p + x := ⟨n - 2 ^ p, by omega⟩
      rw [← hnormal j x (by omega)]
      congr 1
      ring

theorem gridValue_scaled {f : Fmt} {j n : Nat} (hn : n ≤ 2 ^ (fmtFrac f + 1)) (hj : j = 0 ∨ 2 ^ fmtFrac f ≤ n) :
    gridValue f (j * 2 ^ fmtFrac f + n) = n * (2 : ℚ) ^ (j + (1 - (fmtBias f : ℤ)) - fmtFrac f) := by
  rw [gridValue_eq_units, magUnits_scaled hn hj, add_sub_assoc, zpow_add₀ two_ne_zero, zpow_natCast]
  push_cast
  ring

/-- Only one code lies below a value and its successor above. -/
theorem code_unique {f : Fmt} {a : ℚ} {c d : Nat} (hle : gridValue f c ≤ a) (hlt : a < gridValue f (c + 1)) (hd : gridValue f d = a) : c = d := by
  rw [← hd, (gridValue_strictMono f).le_iff_le] at hle
  rw [← hd, (gridValue_strictMono f).lt_iff_lt] at hlt
  omega

/-! ## RoundTo into an IEEE-style format (R173-R175, R179) -/

/-- A magnitude above zero, between the powers of two around it. -/
theorem zpow_log2_le {m : Nat} (hm : m ≠ 0) (e : ℤ) :
    (2 : ℚ) ^ (e + (Nat.log2 m : ℤ)) ≤ magOf m e ∧ magOf m e < 2 ^ (e + (Nat.log2 m : ℤ) + 1) := by
  have h1 : ((2 : ℚ) ^ Nat.log2 m) ≤ m := by exact_mod_cast Nat.log2_self_le hm
  have h2 : (m : ℚ) < 2 ^ (Nat.log2 m + 1) := by exact_mod_cast Nat.lt_log2_self
  have he : (0 : ℚ) < 2 ^ e := by positivity
  constructor
  · rw [add_comm, zpow_add₀ two_ne_zero, zpow_natCast]
    exact mul_le_mul_of_nonneg_right h1 he.le
  · rw [add_assoc, add_comm, zpow_add₀ two_ne_zero]
    exact mul_lt_mul_of_pos_right (by exact_mod_cast h2) he

section
variable {a : ℚ} {p n : Nat} {q top low : ℤ}

theorem lt_zpow_iff (hge : 2 ^ top ≤ a) (hlt : a < 2 ^ (top + 1)) : a < 2 ^ low ↔ top < low :=
  ⟨fun h => (zpow_lt_zpow_iff_right₀ one_lt_two).mp (hge.trans_lt h), fun h => hlt.trans_le (zpow_le_zpow_right₀ one_le_two h)⟩

/-- The significand in a unit not too small fits the fraction and its leading bit. -/
theorem significand_lt (hlt : a * 2 ^ q < 2 ^ (top + 1)) (hq : top ≤ p + q) (hn : (n : ℚ) ≤ a) : n < 2 ^ (p + 1) := by
  have h : a * 2 ^ q < 2 ^ ((p + 1 : Nat) : ℤ) * 2 ^ q := by
    rw [← zpow_add₀ two_ne_zero]
    exact hlt.trans_le (zpow_le_zpow_right₀ one_le_two (by omega))
  rw [mul_lt_mul_iff_left₀ (by positivity), zpow_natCast] at h
  exact_mod_cast hn.trans_lt h

/-- In a unit not too large it has its leading bit. -/
theorem le_significand (hge : 2 ^ top ≤ a * 2 ^ q) (hq : p + q ≤ top) (hn : a < (n : ℚ) + 1) : 2 ^ p ≤ n := by
  have h : (2 : ℚ) ^ (p : ℤ) * 2 ^ q ≤ a * 2 ^ q := by
    rw [← zpow_add₀ two_ne_zero]
    exact (zpow_le_zpow_right₀ one_le_two hq).trans hge
  rw [mul_le_mul_iff_left₀ (by positivity), zpow_natCast] at h
  exact Nat.lt_succ_iff.mp (by exact_mod_cast h.trans_lt hn)

end

theorem aboveMax_eq (f : Fmt) (r : BitVec 2) (neg : Bool) : aboveMax f r neg =
    signBit f neg + (if fmtHasInf f = true ∧ (r = 0 ∨ roundsAway r neg) then infCode f else fmtMaxCode f) := by
  rcases mode_cases r with rfl | rfl | rfl | rfl <;> cases neg <;> cases h : fmtHasInf f <;> simp [aboveMax, roundsAway, h]

/-- `roundIeee` of a magnitude above zero, through `roundUnit`: the significand at the exponent of the magnitude, the least one at least. -/
theorem roundIeee_eq_roundUnit {f : Fmt} {r : BitVec 2} {neg : Bool} {m : Nat} (hm : m ≠ 0) (e : ℤ) :
    let low := 1 - (fmtBias f : ℤ)
    let top := e + (Nat.log2 m : ℤ)
    let y := roundUnit r neg m (e - (max top low - fmtFrac f))
    let k := (max top low - low).toNat * 2 ^ fmtFrac f + y.1
    roundIeee f r neg m e false = if fmtMaxCode f < k then (aboveMax f r neg, fOverflow ||| fInexact)
      else (signBit f neg + k, flagIf y.2 fInexact ||| flagIf (y.2 && decide (top < low)) fUnderflow) := by
  intro low top y k
  have hem : (if top < low then low else top) = max top low := by
    rw [max_def]
    split <;> split <;> omega
  have hy : (if max top low - fmtFrac f ≤ e then (m * 2 ^ (e - (max top low - fmtFrac f)).toNat, false)
      else roundShift r neg m (max top low - fmtFrac f - e).toNat false) = y := by
    simp only [y, roundUnit, sub_nonneg, neg_sub]
  unfold roundIeee
  simp only [hm, decide_false, Bool.false_and, Bool.false_eq_true, if_false, gt_iff_lt]
  change (if fmtMaxCode f < ((if top < low then low else top) - low).toNat * 2 ^ fmtFrac f +
    (if (if top < low then low else top) - fmtFrac f ≤ e then _ else _ : Nat × Bool).1 then _ else _) = _
  rw [hem, hy]

/-- What `roundIeee` gives once the member `k` of the grid is chosen. -/
def gridResult (f : Fmt) (r : BitVec 2) (neg : Bool) (a : ℚ) (k : Nat) : Nat × Flags :=
  if fmtMaxCode f < k then (aboveMax f r neg, fOverflow ||| fInexact)
  else (signBit f neg + k, if gridValue f k = a then 0 else
    fInexact ||| if a < (2 : ℚ) ^ (1 - (fmtBias f : ℤ)) then fUnderflow else 0)

theorem flags_of_inexact (b p : Bool) : (flagIf b fInexact ||| flagIf (b && p) fUnderflow) =
    if b = false then 0 else fInexact ||| if p = true then fUnderflow else 0 := by
  cases b <;> cases p <;> rfl

/-- RoundTo goes to one of the two members of the grid around the magnitude. -/
theorem roundIeee_on_grid {f : Fmt} (hp : fmtFrac f ≠ 0) (r : BitVec 2) (neg : Bool) (m : Nat) (e : ℤ) :
    ∃ c k, gridValue f c ≤ magOf m e ∧ magOf m e < gridValue f (c + 1) ∧
      roundedCode (r = 0) (roundsAway r neg) (magOf m e) (gridValue f c) (gridValue f (c + 1)) c k ∧
      roundIeee f r neg m e false = gridResult f r neg (magOf m e) k := by
  by_cases hm : m = 0
  · have hlt : gridValue f 0 < gridValue f 1 := gridValue_strictMono f Nat.zero_lt_one
    rw [hm, magOf_zero, ← gridValue_zero f]
    exact ⟨0, 0, le_rfl, hlt, roundedCode_self hlt, by rw [gridResult, if_neg (Nat.not_lt_zero _), if_pos rfl]; rfl⟩
  rw [roundIeee_eq_roundUnit hm]
  obtain ⟨hge, hlt⟩ := zpow_log2_le hm e
  generalize hlow : 1 - (fmtBias f : ℤ) = low
  generalize e + (Nat.log2 m : ℤ) = top at hge hlt ⊢
  have hsub : magOf m e < 2 ^ low ↔ top < low := lt_zpow_iff hge hlt
  obtain ⟨j, hj⟩ : ∃ j : Nat, max top low - low = j := ⟨(max top low - low).toNat, by omega⟩
  obtain ⟨q, hq⟩ : ∃ q, q = max top low - (fmtFrac f : ℤ) := ⟨_, rfl⟩
  obtain ⟨n, hn⟩ := roundUnit_roundsUnit r neg m (e - q)
  have hpos : (0 : ℚ) < 2 ^ q := by positivity
  have hmag : magOf m e = magOf m (e - q) * 2 ^ q := by rw [← magOf_add, sub_add_cancel]
  rw [← hq, hj, Int.toNat_natCast]
  generalize roundUnit r neg m (e - q) = y at hn ⊢
  generalize magOf m (e - q) = a at hn hmag
  have hbelow : n < 2 ^ (fmtFrac f + 1) := significand_lt (hmag ▸ hlt) (by omega) hn.le
  have habove : j = 0 ∨ 2 ^ fmtFrac f ≤ n := or_iff_not_imp_left.mpr fun _ => le_significand (hmag ▸ hge) (by omega) hn.lt
  have hgrid : ∀ i, n ≤ i → i ≤ n + 1 → gridValue f (j * 2 ^ fmtFrac f + i) = i * (2 : ℚ) ^ q := fun i h1 h2 => by
    rw [gridValue_scaled (by omega) (by omega), hlow, hq]
    congr 2
    omega
  have hlo := hgrid n le_rfl (Nat.le_succ n)
  have hhi : gridValue f (j * 2 ^ fmtFrac f + n + 1) = ((n : ℚ) + 1) * 2 ^ q := by
    rw [add_assoc, hgrid _ (Nat.le_succ n) le_rfl, Nat.cast_succ]
  refine ⟨j * 2 ^ fmtFrac f + n, j * 2 ^ fmtFrac f + y.1, ?_, ?_, ?_, ?_⟩
  · rw [hlo, hmag]
    exact mul_le_mul_of_nonneg_right hn.le hpos.le
  · rw [hhi, hmag]
    exact mul_lt_mul_of_pos_right hn.lt hpos
  · rw [hlo, hhi, hmag]
    exact roundedCode_scale hpos (Nat.even_iff.mp ((Even.pow_of_ne_zero even_two hp).mul_left j)) hn.code
  · have hy : n ≤ y.1 ∧ y.1 ≤ n + 1 := by rcases roundedCode_cases hn.code with h | h <;> omega
    have hexact : gridValue f (j * 2 ^ fmtFrac f + y.1) = magOf m e ↔ y.2 = false := by
      rw [hgrid _ hy.1 hy.2, hmag, mul_left_inj' hpos.ne', hn.exact_iff]
    simp only [gridResult, hexact, hlow, hsub, flags_of_inexact, decide_eq_true_eq]

/-! ## Codes that hold a value (R164, R166) -/

/-- The formats whose codes have an exponent field. -/
def isIeee (f : Fmt) : Prop := f ∈ [Fmt.f32, .bf16, .e5m2, .e4m3, .e2m1]

theorem isIeee_cases {f : Fmt} (hf : isIeee f) : f = .f32 ∨ f = .bf16 ∨ f = .e5m2 ∨ f = .e4m3 ∨ f = .e2m1 := by
  simpa [isIeee] using hf

theorem fmtFrac_ne_zero {f : Fmt} (hf : isIeee f) : fmtFrac f ≠ 0 := by
  rcases isIeee_cases hf with rfl | rfl | rfl | rfl | rfl <;> decide

theorem decodeNum_ieee {f : Fmt} (hf : isIeee f) (c : Nat) : decodeNum f c = decodeIeee f c := by
  rcases isIeee_cases hf with rfl | rfl | rfl | rfl | rfl <;> rfl

theorem roundTo_ieee {f : Fmt} (hf : isIeee f) (r : BitVec 2) (neg : Bool) (m : Nat) (e : ℤ) :
    roundTo f r (.fin neg m e) = roundIeee f r neg m e false := by
  rcases isIeee_cases hf with rfl | rfl | rfl | rfl | rfl <;> rfl

/-- The sign bit and the magnitude of a code. -/
theorem signBit_add_mod {f : Fmt} {c : Nat} (hc : c < 2 ^ fmtBits f) :
    signBit f (c / 2 ^ (fmtBits f - 1) % 2 == 1) + c % 2 ^ (fmtBits f - 1) = c := by
  have hbits : 2 ^ fmtBits f = 2 ^ (fmtBits f - 1) * 2 := by cases f <;> rfl
  have hdiv : c / 2 ^ (fmtBits f - 1) < 2 := Nat.div_lt_of_lt_mul (hbits ▸ hc)
  have hmod := Nat.div_add_mod c (2 ^ (fmtBits f - 1))
  unfold signBit
  generalize 2 ^ (fmtBits f - 1) = half at *
  generalize c / half = q at *
  obtain rfl | rfl : q = 0 ∨ q = 1 := by omega
  · simpa using hmod
  · simpa using hmod

/-- Without the codes of the infinities and NaNs, those up to the greatest finite one are left. -/
theorem le_fmtMaxCode {f : Fmt} (hf : isIeee f) {x : Nat} (hx : x < 2 ^ (fmtBits f - 1))
    (hinf : ¬ (fmtHasInf f && x / 2 ^ fmtFrac f == 2 ^ (fmtBits f - 1 - fmtFrac f) - 1) = true)
    (hnan : ¬ (f == .e4m3 && x / 2 ^ fmtFrac f == 2 ^ (fmtBits f - 1 - fmtFrac f) - 1 && x % 2 ^ fmtFrac f == 7) = true) :
    x ≤ fmtMaxCode f := by
  rcases isIeee_cases hf with rfl | rfl | rfl | rfl | rfl <;>
    simp [fmtHasInf, fmtBits, fmtFrac, fmtMaxCode] at hx hinf hnan ⊢ <;> omega

/-- The magnitude of a code that stands for a finite value is a code of the grid, and not above the greatest. -/
theorem decodeIeee_finite {f : Fmt} (hf : isIeee f) {c m : Nat} {neg : Bool} {e : ℤ} (h : decodeIeee f c = .fin neg m e) :
    neg = (c / 2 ^ (fmtBits f - 1) % 2 == 1) ∧ gridValue f (c % 2 ^ (fmtBits f - 1)) = magOf m e ∧
      c % 2 ^ (fmtBits f - 1) ≤ fmtMaxCode f := by
  have hwidth : fmtBits f - 1 - fmtFrac f + fmtFrac f = fmtBits f - 1 := by cases f <;> rfl
  have hexp : c / 2 ^ fmtFrac f % 2 ^ (fmtBits f - 1 - fmtFrac f) = c % 2 ^ (fmtBits f - 1) / 2 ^ fmtFrac f := by
    rw [← hwidth, Nat.add_comm, Nat.pow_add, Nat.mod_mul_right_div_self, Nat.add_sub_cancel_left]
  have hfrac : c % 2 ^ fmtFrac f = c % 2 ^ (fmtBits f - 1) % 2 ^ fmtFrac f :=
    (Nat.mod_mod_of_dvd _ (Nat.pow_dvd_pow _ (by omega))).symm
  have hx : c % 2 ^ (fmtBits f - 1) < 2 ^ (fmtBits f - 1) := Nat.mod_lt _ (Nat.two_pow_pos _)
  unfold decodeIeee at h
  simp only [hwidth, hexp, hfrac] at h
  generalize c % 2 ^ (fmtBits f - 1) = x at hx h ⊢
  split at h
  · split at h <;> cases h
  next hinf =>
  split at h
  · cases h
  next hnan =>
  split at h
  next hsub =>
    obtain ⟨rfl, rfl, rfl⟩ := Num.fin.inj h
    refine ⟨rfl, ?_, le_fmtMaxCode hf hx hinf hnan⟩
    rw [gridValue, if_pos hsub, Nat.mod_eq_of_lt ((Nat.div_eq_zero_iff_lt (Nat.two_pow_pos _)).mp hsub), magOf]
  next hnormal =>
    obtain ⟨rfl, rfl, rfl⟩ := Num.fin.inj h
    exact ⟨rfl, if_neg hnormal, le_fmtMaxCode hf hx hinf hnan⟩

/-- A code that stands for a finite value is what this value rounds to. -/
theorem roundTo_decodeIeee {f : Fmt} (hf : isIeee f) (r : BitVec 2) {c m : Nat} {neg : Bool} {e : ℤ} (hc : c < 2 ^ fmtBits f)
    (h : decodeNum f c = .fin neg m e) : roundTo f r (.fin neg m e) = (c, 0) := by
  rw [decodeNum_ieee hf] at h
  obtain ⟨hneg, hgrid, hmax⟩ := decodeIeee_finite hf h
  obtain ⟨d, k, hle, hlt, hcode, hround⟩ := roundIeee_on_grid (fmtFrac_ne_zero hf) r neg m e
  obtain rfl := code_unique hle hlt hgrid
  rw [← hgrid] at hcode
  obtain rfl := roundedCode_eq_self (gridValue_strictMono f (Nat.lt_succ_self _)) hcode
  rw [roundTo_ieee hf, hround, gridResult, if_neg (not_lt.mpr hmax), if_pos hgrid, hneg, signBit_add_mod hc]

end Sys2Proof.Machine
end

section
/-! Rounding into a tapered format (O25). -/

namespace Sys2Proof.Machine

open Sys2Proof

/-! ## The tapered formats (R169, R173-R176) -/

/-- The formats whose exponent is a run of bits. -/
def isTapered (f : Fmt) : Prop := f ∈ [Fmt.t8, .t6]

theorem isTapered_cases {f : Fmt} (hf : isTapered f) : f = .t8 ∨ f = .t6 := by
  simpa [isTapered] using hf

theorem roundTo_tapered {f : Fmt} (hf : isTapered f) (r : BitVec 2) (neg : Bool) (m : Nat) (e : ℤ) :
    roundTo f r (.fin neg m e) = roundTapered f neg m e false := by
  rcases isTapered_cases hf with rfl | rfl <;> rfl

theorem taperedVal_lt_succ : (∀ c < 0x7F, taperedVal 8 c < taperedVal 8 (c + 1)) ∧ ∀ c < 0x1F, taperedVal 6 c < taperedVal 6 (c + 1) := by
  decide

theorem taperedValue_lt_succ {f : Fmt} (hf : isTapered f) : ∀ c < fmtMaxCode f, taperedValue f c < taperedValue f (c + 1) := by
  intro c hc
  refine div_lt_div_of_pos_right (Nat.cast_lt.mpr ?_) (by norm_num)
  rcases isTapered_cases hf with rfl | rfl
  · exact taperedVal_lt_succ.1 c hc
  · exact taperedVal_lt_succ.2 c hc

theorem taperedValue_strictMonoOn {f : Fmt} (hf : isTapered f) : StrictMonoOn (taperedValue f) (Set.Iic (fmtMaxCode f)) :=
  strictMonoOn_Iic_of_lt_succ fun c hc => taperedValue_lt_succ hf c hc

theorem taperedValue_zero (f : Fmt) : taperedValue f 0 = 0 := by simp [taperedValue, taperedVal]

/-- `cmpTapered` compares two naturals, which are the two values in one unit. -/
theorem cmpTapered_scaled (m : Nat) (e : ℤ) (v : Nat) : ∃ (l w : Nat) (s : ℚ), 0 < s ∧
    cmpTapered m e false v = (if l < w then .lt else if l = w then .eq else .gt) ∧
    (l : ℚ) = magOf m e * s ∧ (w : ℚ) = v / 4096 * s := by
  have hunit : magOf m (e + 12) = magOf m e * 4096 := by
    rw [magOf_add]
    norm_num
  unfold cmpTapered
  simp only [Bool.not_false, Bool.and_true, decide_eq_true_eq]
  by_cases h : 0 ≤ e + 12
  · rw [if_pos h, if_pos h]
    exact ⟨_, _, 4096, by norm_num, rfl, by rw [← hunit, magOf_of_nonneg m h], by ring⟩
  · rw [if_neg h, if_neg h]
    refine ⟨_, _, 4096 * 2 ^ (-(e + 12)).toNat, by positivity, rfl, ?_, by push_cast; ring⟩
    rw [← mul_assoc, ← hunit, ← zpow_natCast, Int.toNat_of_nonneg (by omega), ← magOf_add, add_neg_cancel, magOf, zpow_zero, mul_one]

/-- The comparison of `roundTapered` is that of the values. -/
theorem cmpTapered_iff (m : Nat) (e : ℤ) (v : Nat) :
    (cmpTapered m e false v = .lt ↔ magOf m e < v / 4096) ∧ (cmpTapered m e false v = .eq ↔ magOf m e = v / 4096) := by
  obtain ⟨l, w, s, hs, hcmp, hl, hw⟩ := cmpTapered_scaled m e v
  have hlt : magOf m e < v / 4096 ↔ l < w := by rw [← Nat.cast_lt (α := ℚ), hl, hw, mul_lt_mul_iff_left₀ hs]
  have heq : magOf m e = v / 4096 ↔ l = w := by rw [← Nat.cast_inj (R := ℚ), hl, hw, mul_left_inj' hs.ne']
  rw [hcmp, hlt, heq]
  constructor <;> split <;> simp <;> omega

theorem length_filter_range {p : Nat → Bool} {c n : Nat} (hc : c ≤ n) (hp : ∀ k ≤ n, p k = true ↔ k ≤ c) :
    ((List.range (n + 1)).filter p).length = c + 1 := by
  obtain ⟨d, rfl⟩ := Nat.exists_eq_add_of_le hc
  rw [Nat.add_right_comm, List.range_add, List.filter_append, List.filter_eq_self.mpr, List.filter_eq_nil_iff.mpr]
  · simp
  · intro k hk
    obtain ⟨i, hi, rfl⟩ := List.mem_map.mp hk
    rw [List.mem_range] at hi
    rw [hp _ (by omega)]
    omega
  · intro k hk
    rw [List.mem_range] at hk
    exact (hp k (by omega)).mpr (by omega)

/-- A magnitude lies at or above one last code up to the greatest. -/
theorem exists_tapered_code {f : Fmt} {a : ℚ} (ha : 0 ≤ a) :
    ∃ c ≤ fmtMaxCode f, taperedValue f c ≤ a ∧ (c < fmtMaxCode f → a < taperedValue f (c + 1)) := by
  refine ⟨Nat.findGreatest (fun c => taperedValue f c ≤ a) (fmtMaxCode f), Nat.findGreatest_le _, ?_, fun h => ?_⟩
  · exact Nat.findGreatest_spec (P := fun c => taperedValue f c ≤ a) (Nat.zero_le _) (by rwa [taperedValue_zero])
  · exact not_le.mp (Nat.findGreatest_is_greatest (P := fun c => taperedValue f c ≤ a) (Nat.lt_succ_self _) h)

/-- The nearer of the codes `c` and `c + 1`, at a tie the even one. -/
def nearerCode (f : Fmt) (a : ℚ) (c : Nat) : Nat :=
  if taperedValue f c + taperedValue f (c + 1) < 2 * a ∨ (2 * a = taperedValue f c + taperedValue f (c + 1) ∧ c % 2 = 1) then c + 1 else c

/-- It is the choice of R173 to the nearest. -/
theorem nearerCode_rounded (f : Fmt) (a : ℚ) (c : Nat) :
    roundedCode True False a (taperedValue f c) (taperedValue f (c + 1)) c (nearerCode f a c) := by
  unfold roundedCode nearerCode
  simp only [true_and, false_and, or_false]
  exact ⟨fun h => if_pos h, fun h => if_neg h⟩

/-- The model's comparison with the sum of the neighbours makes this choice. -/
theorem nearerCode_of_cmp (f : Fmt) (m : Nat) (e : ℤ) (c : Nat) :
    let o := cmpTapered (2 * m) e false (taperedVal (fmtBits f) c + taperedVal (fmtBits f) (c + 1))
    let k := nearerCode f (magOf m e) c
    (o = .lt → k = c) ∧ (o = .gt → k = c + 1) ∧ (o = .eq → k = if c % 2 = 0 then c else c + 1) := by
  intro o k
  have hsum : ((taperedVal (fmtBits f) c + taperedVal (fmtBits f) (c + 1) : Nat) : ℚ) / 4096 = taperedValue f c + taperedValue f (c + 1) := by
    rw [Nat.cast_add, add_div, taperedValue, taperedValue]
  obtain ⟨hlt, heq⟩ : (o = .lt ↔ _) ∧ (o = .eq ↔ _) := cmpTapered_iff (2 * m) e _
  rw [hsum, magOf_two_mul] at hlt heq
  simp only [k, nearerCode]
  generalize taperedValue f c + taperedValue f (c + 1) = mid at hlt heq ⊢
  refine ⟨fun h => ?_, fun h => ?_, fun h => ?_⟩
  · have := hlt.mp h
    exact if_neg (by rintro (h | ⟨h, -⟩) <;> linarith)
  · have h1 : ¬ 2 * magOf m e < mid := fun h' => by simp [hlt.mpr h'] at h
    have h2 : ¬ 2 * magOf m e = mid := fun h' => by simp [heq.mpr h'] at h
    exact if_pos (.inl (lt_of_le_of_ne (not_lt.mp h1) (Ne.symm h2)))
  · rw [heq.mp h]
    rcases Nat.mod_two_eq_zero_or_one c with h2 | h2 <;> simp [h2]

/-- A code of a tapered format with its sign; zero has none. -/
def signedCode (f : Fmt) (neg : Bool) (k : Nat) : Nat := if k = 0 then 0 else signBit f neg + k

theorem signedCode_max {f : Fmt} (hf : isTapered f) (neg : Bool) : signedCode f neg (fmtMaxCode f) = signBit f neg + fmtMaxCode f := by
  rcases isTapered_cases hf with rfl | rfl <;> rfl

/-- RoundTo into a tapered format, from the last code at or below the magnitude. -/
theorem roundTapered_eq {f : Fmt} (hf : isTapered f) {neg : Bool} {m c : Nat} {e : ℤ} (hc : c ≤ fmtMaxCode f)
    (hle : taperedValue f c ≤ magOf m e) (hlt : c < fmtMaxCode f → magOf m e < taperedValue f (c + 1)) :
    roundTapered f neg m e false =
      if taperedValue f c = magOf m e then (signedCode f neg c, 0)
      else if c = fmtMaxCode f then (signedCode f neg c, fOverflow ||| fInexact)
      else (signedCode f neg (nearerCode f (magOf m e) c), fInexact ||| flagIf (c == 0) fUnderflow) := by
  have hbelow : ∀ k ≤ fmtMaxCode f, (cmpTapered m e false (taperedVal (fmtBits f) k) != .lt) = true ↔ k ≤ c := by
    intro k hk
    rw [bne_iff_ne, Ne, (cmpTapered_iff ..).1, ← taperedValue, not_lt]
    refine ⟨fun h => ?_, fun h => ((taperedValue_strictMonoOn hf).le_iff_le hk hc |>.mpr h).trans hle⟩
    by_contra hck
    have hc1 : c + 1 ≤ fmtMaxCode f := by omega
    have := (taperedValue_strictMonoOn hf).le_iff_le hc1 hk |>.mpr (by omega)
    linarith [hlt hc1]
  have hexact : cmpTapered m e false (taperedVal (fmtBits f) c) = .eq ↔ taperedValue f c = magOf m e := by
    rw [(cmpTapered_iff ..).2, ← taperedValue, eq_comm]
  unfold roundTapered
  simp only [length_filter_range hc hbelow, Nat.add_sub_cancel, beq_iff_eq, hexact]
  by_cases h : taperedValue f c = magOf m e
  · rw [if_pos h, if_pos h, signedCode]
  · rw [if_neg h, if_neg h]
    by_cases ht : c = fmtMaxCode f
    · rw [if_pos ht, if_pos ht, ht, signedCode]
    · obtain ⟨hl, hg, he⟩ := nearerCode_of_cmp f m e c
      rw [if_neg ht, if_neg ht, signedCode]
      cases h : cmpTapered (2 * m) e false (taperedVal (fmtBits f) c + taperedVal (fmtBits f) (c + 1))
      · rw [hl h]
      · rw [he h]
      · rw [hg h]

section
variable {f : Fmt} (hf : isTapered f) (r : BitVec 2) {neg : Bool} {m c : Nat} {e : ℤ}
include hf

/-- A member of a tapered format is exact. -/
theorem roundTo_tapered_exact (hc : c ≤ fmtMaxCode f) (h : taperedValue f c = magOf m e) :
    roundTo f r (.fin neg m e) = (signedCode f neg c, 0) := by
  rw [roundTo_tapered hf, roundTapered_eq hf hc h.le (fun hlt => h ▸ taperedValue_lt_succ hf c hlt), if_pos h]

/-- Above the greatest member. -/
theorem roundTo_tapered_above (h : taperedValue f (fmtMaxCode f) < magOf m e) :
    roundTo f r (.fin neg m e) = (signedCode f neg (fmtMaxCode f), fOverflow ||| fInexact) := by
  rw [roundTo_tapered hf, roundTapered_eq hf le_rfl h.le (fun hlt => absurd hlt (lt_irrefl _)), if_neg h.ne, if_pos rfl]

/-- Code 0 is the last at or below the magnitudes under the least member above zero. -/
theorem code_zero_iff_lt (hc : c < fmtMaxCode f) (hle : taperedValue f c ≤ magOf m e) (hlt : magOf m e < taperedValue f (c + 1)) :
    (c == 0) = decide (magOf m e < taperedValue f 1) := by
  rw [Bool.beq_eq_decide_eq, decide_eq_decide]
  refine ⟨fun h => by rwa [h] at hlt, fun h => ?_⟩
  by_contra h0
  have := ((taperedValue_strictMonoOn hf).le_iff_le (show 1 ≤ fmtMaxCode f by omega) hc.le).mpr (Nat.one_le_iff_ne_zero.mpr h0)
  linarith

/-- Below the greatest member: the nearer of the two members around the magnitude. -/
theorem roundTo_tapered_below (h : magOf m e < taperedValue f (fmtMaxCode f)) :
    ∃ c k, c < fmtMaxCode f ∧ taperedValue f c ≤ magOf m e ∧ magOf m e < taperedValue f (c + 1) ∧
      roundedCode True False (magOf m e) (taperedValue f c) (taperedValue f (c + 1)) c k ∧
      roundTo f r (.fin neg m e) = (signedCode f neg k, if taperedValue f k = magOf m e then 0 else
        fInexact ||| if magOf m e < taperedValue f 1 then fUnderflow else 0) := by
  obtain ⟨c, hc, hle, hlt⟩ := exists_tapered_code (f := f) (magOf_nonneg m e)
  have htop : c < fmtMaxCode f := by
    refine lt_of_le_of_ne hc fun hc => ?_
    rw [hc] at hle
    linarith
  have hround := roundTapered_eq hf (neg := neg) hc hle hlt
  replace hlt := hlt htop
  have hcode := nearerCode_rounded f (magOf m e) c
  refine ⟨c, nearerCode f (magOf m e) c, htop, hle, hlt, hcode, ?_⟩
  rw [roundTo_tapered hf, hround]
  by_cases hexact : taperedValue f c = magOf m e
  · rw [← hexact] at hcode
    have hself := roundedCode_eq_self (taperedValue_lt_succ hf c htop) hcode
    rw [if_pos hexact, ← hexact, hself, if_pos rfl]
  · have hnear : taperedValue f (nearerCode f (magOf m e) c) ≠ magOf m e := by
      rcases roundedCode_cases hcode with h | h <;> rw [h]
      · exact hexact
      · exact hlt.ne'
    rw [if_neg hexact, if_neg htop.ne, if_neg hnear, code_zero_iff_lt hf htop hle hlt, flagIf]
    simp only [decide_eq_true_eq]

/-- A code that stands for a finite value is what this value rounds to. -/
theorem roundTo_decodeTapered (hc : c < 2 ^ fmtBits f) (h : decodeNum f c = .fin neg m e) : roundTo f r (.fin neg m e) = (c, 0) := by
  have hdec : decodeNum f c = decodeTapered (fmtBits f) c := by rcases isTapered_cases hf with rfl | rfl <;> rfl
  have hmax : c % 2 ^ (fmtBits f - 1) ≤ fmtMaxCode f := by
    refine Nat.le_of_lt_succ ((Nat.mod_lt _ (Nat.two_pow_pos _)).trans_le ?_)
    rcases isTapered_cases hf with rfl | rfl <;> decide
  have hsign := signBit_add_mod hc
  rw [hdec] at h
  unfold decodeTapered at h
  generalize c % 2 ^ (fmtBits f - 1) = x at *
  simp only at h
  split at h
  next hx =>
    split at h
    · cases h
    next hneg =>
      obtain ⟨rfl, rfl, rfl⟩ := Num.fin.inj h
      rw [hx, eq_false_of_ne_true hneg] at hsign
      rw [roundTo_tapered_exact hf r (Nat.zero_le _) (by rw [taperedValue_zero, magOf_zero]), ← hsign]
      rfl
  next hx =>
    obtain ⟨rfl, rfl, rfl⟩ := Num.fin.inj h
    rw [roundTo_tapered_exact hf r hmax, signedCode, if_neg hx, hsign]
    rw [taperedValue, taperedVal, if_neg hx]
    norm_num [magOf, div_eq_mul_inv]

end

end Sys2Proof.Machine
end

section
/-! Rounding into an integer format (O25). -/

namespace Sys2Proof.Machine

open Sys2Proof

/-! ## The integer formats (R172, R178) -/

/-- A finite value: `neg`, m * 2^e. -/
def realOf (neg : Bool) (m : Nat) (e : ℤ) : ℚ := (if neg then -1 else 1) * magOf m e

theorem isReal_fin (neg : Bool) (m : Nat) (e : ℤ) : IsReal (.fin neg m e) (realOf neg m e) := ⟨neg, m, e, rfl, (mul_assoc ..).symm⟩

theorem isInt_cases {f : Fmt} (hf : f.isFloat = false) : f = .i8 ∨ f = .i16 ∨ f = .i32 ∨ f = .i64 := by
  cases f <;> simp [Fmt.isFloat] at hf ⊢

theorem roundTo_int {f : Fmt} (hf : f.isFloat = false) (r : BitVec 2) (neg : Bool) (m : Nat) (e : ℤ) :
    roundTo f r (.fin neg m e) = roundInt (fmtBits f) r neg m e := by
  rcases isInt_cases hf with rfl | rfl | rfl | rfl <;> rfl

/-- The integer of a sign and a magnitude. -/
def signedInt (neg : Bool) (n : Nat) : ℤ := if neg then -(n : ℤ) else n

/-- Rounding to the integer `z`, by the mode. -/
structure RoundsInt (r : BitVec 2) (neg : Bool) (v : ℚ) (z : ℤ) : Prop where
  nearest : r = 0 → |v - z| ≤ 1 / 2 ∧ (|v - z| = 1 / 2 → z % 2 = 0)
  towardZero : r = 1 → z = if neg then ⌈v⌉ else ⌊v⌋
  down : r = 2 → z = ⌊v⌋
  up : r = 3 → z = ⌈v⌉

theorem RoundsUnit.signed {r : BitVec 2} {neg : Bool} {a : ℚ} {n : Nat} {y : Nat × Bool} (h : RoundsUnit r neg a n y) :
    RoundsInt r neg ((if neg then -1 else 1) * a) (signedInt neg y.1) := by
  have hdist : |(if neg then -1 else 1) * a - (signedInt neg y.1 : ℤ)| = |a - y.1| := by
    cases neg
    · simp [signedInt]
    · rw [← abs_neg]
      simp [signedInt, add_comm, sub_eq_add_neg]
  refine ⟨?_, ?_, ?_, ?_⟩
  · rintro rfl
    rw [hdist]
    obtain ⟨h1, h2⟩ := h.nearest
    refine ⟨h1, fun h => ?_⟩
    have := h2 h
    unfold signedInt
    split <;> omega
  · rintro rfl
    have := h.eq_floor (by decide) (by simp [roundsAway])
    cases neg <;> simp [signedInt, this, Int.ceil_neg]
  · rintro rfl
    cases neg
    · simpa [signedInt] using h.eq_floor (by decide) (by simp [roundsAway])
    · simpa [signedInt, Int.floor_neg] using h.eq_ceil (by decide) (by simp [roundsAway])
  · rintro rfl
    cases neg
    · simpa [signedInt] using h.eq_ceil (by decide) (by simp [roundsAway])
    · simpa [signedInt, Int.ceil_neg] using h.eq_floor (by decide) (by simp [roundsAway])

theorem roundInt_eq_roundUnit {w : Nat} (hw : 0 < w) (r : BitVec 2) (neg : Bool) (m : Nat) (e : ℤ) :
    let y := roundUnit r neg m e
    let z := signedInt neg y.1
    let half : Nat := 2 ^ (w - 1)
    roundInt w r neg m e = if z < -(half : ℤ) then (half, fInvalid) else if (half : ℤ) ≤ z then (half - 1, fInvalid)
      else ((z % 2 ^ w).toNat, flagIf y.2 fInexact) := by
  intro y z half
  have htwo : 2 ^ w = 2 * half := (Nat.two_pow_pred_mul_two hw).symm.trans (Nat.mul_comm ..)
  have hpos : 0 < half := Nat.two_pow_pos _
  have hround : roundInt w r neg m e = if neg && decide (y.1 > half) then (half, fInvalid)
      else if !neg && decide (y.1 ≥ half) then (half - 1, fInvalid)
      else (if neg then (2 ^ w - y.1) % 2 ^ w else y.1, flagIf y.2 fInexact) := rfl
  have hcast : (2 : ℤ) ^ w = (2 * half : Nat) := by rw [← htwo]; norm_cast
  rw [hround, htwo, hcast]
  simp only [z]
  generalize y.1 = n
  cases neg
  · simp only [signedInt, Bool.false_and, Bool.not_false, Bool.true_and, Bool.false_eq_true, if_false, decide_eq_true_eq, ge_iff_le, Nat.cast_le]
    rw [if_neg (by omega : ¬ (n : ℤ) < -(half : ℤ))]
    split
    · rfl
    · rw [← Int.natCast_mod, Int.toNat_natCast, Nat.mod_eq_of_lt (by omega)]
  · simp only [signedInt, Bool.true_and, Bool.not_true, Bool.false_and, Bool.false_eq_true, if_false, if_true, decide_eq_true_eq, gt_iff_lt,
      neg_lt_neg_iff, Nat.cast_lt]
    rw [if_neg (by omega : ¬ (half : ℤ) ≤ -(n : ℤ))]
    split
    · rfl
    · have hmod : -(n : ℤ) % (2 * half : Nat) = ((2 * half - n) % (2 * half) : Nat) := by
        rw [Int.natCast_mod, Nat.cast_sub (by omega), Int.sub_emod_left]
      rw [hmod, Int.toNat_natCast]

theorem roundTo_int_fin {f : Fmt} (hf : f.isFloat = false) (r : BitVec 2) (neg : Bool) (m : Nat) (e : ℤ) :
    let half : Nat := 2 ^ (fmtBits f - 1)
    ∃ z, RoundsInt r neg (realOf neg m e) z ∧
      roundTo f r (.fin neg m e) = if z < -(half : ℤ) then (half, fInvalid) else if (half : ℤ) ≤ z then (half - 1, fInvalid)
        else ((z % 2 ^ fmtBits f).toNat, if (z : ℚ) = realOf neg m e then 0 else fInexact) := by
  intro half
  obtain ⟨n, h⟩ := roundUnit_roundsUnit r neg m e
  refine ⟨_, h.signed, ?_⟩
  have hexact : ((signedInt neg (roundUnit r neg m e).1 : ℤ) : ℚ) = realOf neg m e ↔ (roundUnit r neg m e).2 = false := by
    rw [← h.exact_iff]
    cases neg <;> simp [signedInt, realOf]
  rw [roundTo_int hf, roundInt_eq_roundUnit (by cases f <;> decide)]
  simp only [hexact]
  cases (roundUnit r neg m e).2 <;> rfl

theorem roundTo_decodeInt {f : Fmt} (hf : f.isFloat = false) (r : BitVec 2) {c : Nat} (hc : c < 2 ^ fmtBits f) :
    roundTo f r (decodeNum f c) = (c, 0) := by
  have hw : 0 < fmtBits f := by cases f <;> decide
  have hdec : decodeNum f c = numOfInt (signedOf (fmtBits f) c) := by rcases isInt_cases hf with rfl | rfl | rfl | rfl <;> rfl
  have htwo : 2 ^ fmtBits f = 2 * 2 ^ (fmtBits f - 1) := (Nat.two_pow_pred_mul_two hw).symm.trans (Nat.mul_comm ..)
  have hx : signedOf (fmtBits f) c = if 2 ^ (fmtBits f - 1) ≤ c then (c : ℤ) - (2 ^ fmtBits f : Nat) else c := by
    rw [signedOf, Nat.mod_eq_of_lt hc]
    norm_cast
  have hcast : (2 : ℤ) ^ fmtBits f = (2 ^ fmtBits f : Nat) := by norm_cast
  rw [hdec, numOfInt, roundTo_int hf, roundInt_eq_roundUnit hw, hcast]
  generalize signedOf (fmtBits f) c = x at hx ⊢
  generalize 2 ^ (fmtBits f - 1) = half at hx htwo ⊢
  have hsigned : signedInt (decide (x < 0)) (roundUnit r (decide (x < 0)) x.natAbs 0).1 = x := by
    simp only [roundUnit, le_refl, if_true, Int.toNat_zero, Nat.pow_zero, Nat.mul_one, signedInt, decide_eq_true_eq]
    split <;> omega
  have hmod : x % (2 ^ fmtBits f : Nat) = c := by
    rw [hx]
    split
    · rw [Int.sub_emod_right, ← Int.natCast_mod, Nat.mod_eq_of_lt hc]
    · rw [← Int.natCast_mod, Nat.mod_eq_of_lt hc]
  have hrange : ¬ x < -(half : ℤ) ∧ ¬ (half : ℤ) ≤ x := by
    rw [hx, htwo]
    split <;> omega
  simp only [hsigned, if_neg hrange.1, if_neg hrange.2, hmod]
  rfl

end Sys2Proof.Machine
end

section
/-! Float operations as one rounding of the exact result, and the statement of O25. -/

namespace Sys2Proof.Machine

open Sys2Proof

/-! ## The exact result of an operation, rounded once (R162, R176) -/

theorem rounded_eq_roundTo (f : Fmt) (r : BitVec 2) (x : Num) : rounded f r (x, 0) = roundTo f r x :=
  Prod.ext rfl (BitVec.zero_or ..)

theorem realOf_mul (na nb : Bool) (ma mb : Nat) (ea eb : ℤ) :
    realOf (na != nb) (ma * mb) (ea + eb) = realOf na ma ea * realOf nb mb eb := by
  cases na <;> cases nb <;> simp [realOf, magOf_mul]

theorem realOf_neg (n : Bool) (m : Nat) (e : ℤ) (flip : Bool) :
    realOf (n != flip) m e = if flip then -realOf n m e else realOf n m e := by
  cases n <;> cases flip <;> simp [realOf]

theorem fin_neg (n : Bool) (m : Nat) (e : ℤ) (flip : Bool) :
    (if flip then (Num.fin n m e).neg else .fin n m e) = .fin (n != flip) m e := by
  cases n <;> cases flip <;> rfl

theorem alignTo_eq (n : Bool) (m : Nat) {e low : ℤ} (h : low ≤ e) : (alignTo n m e low : ℚ) * 2 ^ low = realOf n m e := by
  have hmag : ((m * 2 ^ (e - low).toNat : Nat) : ℚ) * 2 ^ low = magOf m e := by
    rw [← magOf_of_nonneg m (sub_nonneg.mpr h), ← magOf_add, sub_add_cancel]
  rw [realOf, ← hmag]
  cases n <;> simp [alignTo]

theorem realOf_zero (n : Bool) (e : ℤ) : realOf n 0 e = 0 := by rw [realOf, magOf_zero, mul_zero]

/-- An integer number of units of 2^low. -/
theorem realOf_natAbs (v low : ℤ) : realOf (decide (v < 0)) v.natAbs low = v * 2 ^ low := by
  rw [realOf, magOf, Nat.cast_natAbs, ← mul_assoc]
  congr 1
  by_cases h : v < 0
  · simp [h, abs_of_neg h]
  · simp [h, abs_of_nonneg (not_lt.mp h)]

/-- The sign of a zero sum: the common one of two zeros, else + but for rounding downward (R176). -/
def zeroSign (r : BitVec 2) (zeros n n' : Bool) : Bool := if zeros && n == n' then n else decide (r = 2)

theorem numAdd_fin_eq (r : BitVec 2) (na nb : Bool) (ma mb : Nat) (ea eb : ℤ) :
    let low := if ea ≤ eb then ea else eb
    let v := alignTo na ma ea low + alignTo nb mb eb low
    numAdd r (.fin na ma ea) (.fin nb mb eb) =
      if ma = 0 ∧ mb = 0 then (.fin (if na == nb then na else r == 2) 0 0, 0)
      else if v = 0 then (.fin (r == 2) 0 0, 0) else (.fin (decide (v < 0)) v.natAbs low, 0) := rfl

/-- The exact sum of two finite values. -/
theorem numAdd_fin (r : BitVec 2) (na nb : Bool) (ma mb : Nat) (ea eb : ℤ) :
    ∃ x, numAdd r (.fin na ma ea) (.fin nb mb eb) = (x, 0) ∧ IsReal x (realOf na ma ea + realOf nb mb eb) ∧
      (realOf na ma ea + realOf nb mb eb = 0 → x.sign = zeroSign r (ma == 0 && mb == 0) na nb) := by
  rw [numAdd_fin_eq]
  have hlow : (if ea ≤ eb then ea else eb) ≤ ea ∧ (if ea ≤ eb then ea else eb) ≤ eb := by split <;> omega
  generalize (if ea ≤ eb then ea else eb) = low at hlow ⊢
  obtain ⟨hla, hlb⟩ := hlow
  have hsum : realOf na ma ea + realOf nb mb eb = (alignTo na ma ea low + alignTo nb mb eb low : ℤ) * 2 ^ low := by
    rw [← alignTo_eq na ma hla, ← alignTo_eq nb mb hlb, Int.cast_add, add_mul]
  by_cases hz : ma = 0 ∧ mb = 0
  · obtain ⟨rfl, rfl⟩ := hz
    refine ⟨_, if_pos ⟨rfl, rfl⟩, ?_, fun _ => ?_⟩
    · simpa [realOf_zero] using isReal_fin (if na == nb then na else r == 2) 0 0
    · simp [Num.sign, zeroSign, Bool.beq_eq_decide_eq]
  · have hzeros : (ma == 0 && mb == 0) = false := by simpa using hz
    rw [if_neg hz, hsum, hzeros]
    generalize alignTo na ma ea low + alignTo nb mb eb low = v
    by_cases h0 : v = 0
    · refine ⟨_, if_pos h0, ?_, fun _ => Bool.beq_eq_decide_eq ..⟩
      simpa [h0, realOf_zero] using isReal_fin (r == 2) 0 0
    · refine ⟨_, if_neg h0, realOf_natAbs v low ▸ isReal_fin .., fun h => absurd h ?_⟩
      exact mul_ne_zero (Int.cast_ne_zero.mpr h0) (by positivity)

theorem roundsOnce_sum (f : Fmt) (r : BitVec 2) (na nb : Bool) (ma mb : Nat) (ea eb : ℤ) :
    RoundsOnce f r (realOf na ma ea + realOf nb mb eb) (zeroSign r (ma == 0 && mb == 0) na nb)
      (rounded f r (numAdd r (.fin na ma ea) (.fin nb mb eb))) := by
  obtain ⟨x, hx, hreal, hsign⟩ := numAdd_fin r na nb ma mb ea eb
  exact ⟨x, hreal, hsign, hx ▸ rounded_eq_roundTo f r x⟩

section
variable {f : Fmt} (r : BitVec 2) {a b c : Nat} {na nb nc : Bool} {ma mb mc : Nat} {ea eb ec : ℤ}
  (ha : decodeNum f a = .fin na ma ea) (hb : decodeNum f b = .fin nb mb eb)
include ha hb

theorem roundsOnce_floatAdd : RoundsOnce f r (realOf na ma ea + realOf nb mb eb) (zeroSign r (ma == 0 && mb == 0) na nb) (floatAdd f r a b) := by
  rw [floatAdd, ha, hb]
  exact roundsOnce_sum ..

theorem roundsOnce_floatSub :
    RoundsOnce f r (realOf na ma ea - realOf nb mb eb) (zeroSign r (ma == 0 && mb == 0) na !nb) (floatSub f r a b) := by
  have hneg : realOf (!nb) mb eb = -realOf nb mb eb := by simpa using realOf_neg nb mb eb true
  rw [floatSub, ha, hb, sub_eq_add_neg, ← hneg]
  exact roundsOnce_sum ..

theorem roundsOnce_floatMul : RoundsOnce f r (realOf na ma ea * realOf nb mb eb) (na != nb) (floatMul f r a b) := by
  rw [floatMul, ha, hb, ← realOf_mul]
  exact ⟨_, isReal_fin .., fun _ => rfl, rounded_eq_roundTo ..⟩

theorem roundsOnce_floatFused (hc : decodeNum f c = .fin nc mc ec) (negP negC : Bool) :
    RoundsOnce f r ((if negP then -(realOf na ma ea * realOf nb mb eb) else realOf na ma ea * realOf nb mb eb) +
        (if negC then -realOf nc mc ec else realOf nc mc ec))
      (zeroSign r (ma * mb == 0 && mc == 0) ((na != nb) != negP) (nc != negC)) (floatFused f r negP negC a b c) := by
  obtain ⟨x, hx, hreal, hsign⟩ := numAdd_fin r ((na != nb) != negP) (nc != negC) (ma * mb) mc (ea + eb) ec
  have hfused : floatFused f r negP negC a b c = rounded f r (x, 0) := by
    simp only [floatFused, ha, hb, hc, numMul, Num.isNan, Bool.false_and, Bool.or_self, Bool.false_eq_true, if_false, fin_neg, hx]
    rfl
  rw [← realOf_mul, ← realOf_neg, ← realOf_neg]
  exact ⟨x, hreal, hsign, hfused.trans (rounded_eq_roundTo f r x)⟩

end

/-! ## The statement -/

/-- NaN and the infinities into a float format (R175, R177). -/
theorem roundTo_float_special {f : Fmt} (hf : f.isFloat = true) (r : BitVec 2) :
    (∀ n, roundTo f r (.nan n) = (canonNan f, if n = true ∨ f = .e2m1 then fInvalid else 0)) ∧
    ∀ neg, roundTo f r (.inf neg) =
      if fmtHasInf f then (signBit f neg + infCode f, 0) else (signBit f neg + fmtMaxCode f, fOverflow ||| fInexact) := by
  constructor <;> intro n
  · cases f <;> cases n <;> simp [Fmt.isFloat, roundTo, flagIf] at hf ⊢
  · cases f <;> simp [Fmt.isFloat, roundTo, fmtHasInf] at hf ⊢

/-- NaN and the infinities into an integer format (R178). -/
theorem roundTo_int_special {f : Fmt} (hf : f.isFloat = false) (r : BitVec 2) :
    (∀ n, roundTo f r (.nan n) = (0, fInvalid)) ∧
    ∀ neg : Bool, roundTo f r (.inf neg) = (if neg then 2 ^ (fmtBits f - 1) else 2 ^ (fmtBits f - 1) - 1, fInvalid) := by
  rcases isInt_cases hf with rfl | rfl | rfl | rfl <;> exact ⟨fun _ => rfl, fun _ => rfl⟩

theorem isIeee_or_tapered_or_int (f : Fmt) : isIeee f ∨ isTapered f ∨ f.isFloat = false := by
  cases f <;> simp [isIeee, isTapered, Fmt.isFloat]

/-- A value that a format holds is what it rounds to. -/
theorem roundTo_decodeNum (f : Fmt) (r : BitVec 2) {c : Nat} (hc : c < 2 ^ fmtBits f) (hnan : ∀ n, decodeNum f c ≠ .nan n)
    (hinf : ∀ n, decodeNum f c ≠ .inf n) : roundTo f r (decodeNum f c) = (c, 0) := by
  cases h : decodeNum f c with
  | nan n => exact absurd h (hnan n)
  | inf n => exact absurd h (hinf n)
  | fin neg m e =>
    rcases isIeee_or_tapered_or_int f with hf | hf | hf
    · exact roundTo_decodeIeee hf r hc h
    · exact roundTo_decodeTapered hf r hc h
    · exact h ▸ roundTo_decodeInt hf r hc

/-- Settles O25: each format's rounding by the two neighbours of the value, and the operations by their exact result. -/
theorem roundingKeepsCodes : Obligations.RoundingKeepsCodes := by
  unfold Obligations.RoundingKeepsCodes
  intro f r top half mag real away
  refine ⟨fun c => roundTo_decodeNum f r, fun hf => ⟨fun c => gridValue_strictMono f (Nat.lt_succ_self c), fun neg m e => ?_⟩,
    fun hf => ⟨taperedValue_lt_succ hf, fun neg m e => ⟨fun h => ?_, fun h => ?_, fun h => ?_⟩⟩, fun hf => ⟨fun neg m e => ?_, ?_⟩,
    fun hf => roundTo_float_special hf r, fun _ a b c na nb nc ma mb mc ea eb ec ha hb hc => ⟨?_, ?_, ?_, fun negP negC => ?_⟩⟩
  · obtain ⟨c, k, hle, hlt, hcode, hround⟩ := roundIeee_on_grid (fmtFrac_ne_zero hf) r neg m e
    refine ⟨c, k, hle, hlt, hcode, fun hk => ?_, fun hk => ?_⟩
    · rw [roundTo_ieee hf, hround, gridResult, if_pos hk, aboveMax_eq]
    · exact (roundTo_ieee hf r neg m e).trans (hround.trans (if_neg (not_lt.mpr hk)))
  · rw [roundTo_tapered_above hf r h, signedCode_max hf]
  · rw [roundTo_tapered_exact hf r le_rfl h.symm, signedCode_max hf]
  · exact roundTo_tapered_below hf r h
  · obtain ⟨z, ⟨hnear, hzero, hdown, hup⟩, hround⟩ := roundTo_int_fin hf r neg m e
    exact ⟨z, hnear, hzero, hdown, hup, hround⟩
  · exact roundTo_int_special hf r
  · exact roundsOnce_floatAdd r ha hb
  · exact roundsOnce_floatSub r ha hb
  · exact roundsOnce_floatMul r ha hb
  · exact roundsOnce_floatFused r ha hb hc negP negC

end Sys2Proof.Machine
end

section
/-! Recovery (O59): the loss of a step where one continuation is listed twice and a kill of its world is still open. -/

namespace Sys2Proof.Machine

open Sys2Proof

/-! ## LOST-STEP of a continuation that is listed twice (R324, R392) -/

/-- A running continuation of partition 0. -/
def twin : Thread := { Thread.vacant with tid := 1, status := .running }

/-- The continuation is the one whose word issues and stands among the others as well. Its partition keeps no step records, an error of
the step waits for recovery, and a kill of the world waits for its homes. -/
def listedTwice : State := { State.reset with
  thr := twin, rest := [twin]
  parts := [(0, { Partition.empty with phase := .active, errors := [⟨0x40, 2, 0, 0, 0, false, false⟩] })]
  hub := { Hub.reset with kills := [⟨0, 0, none, []⟩] } }

theorem exec_stepReplay_listedTwice : exec (.stepReplay 0) listedTwice = .next (lostStep 0 listedTwice) := rfl

/-- Both kills of the name reach the copy whose word issues: it keeps its record until the homes have acknowledged. -/
theorem lostStep_listedTwice : (lostStep 0 listedTwice).thr.status = .killed ∧ (lostStep 0 listedTwice).rest = [twin] := ⟨rfl, rfl⟩

theorem twin_mem_lostStep : twin ∈ (lostStep 0 listedTwice).threads := by
  obtain ⟨hthr, hrest⟩ := lostStep_listedTwice
  rw [State.threads, if_neg (by rw [hthr]; decide), hrest]
  exact List.mem_cons_of_mem _ (List.mem_singleton.mpr rfl)

/-- Refutes O59, in its clause on a lost step (R392): that the threads of one name are equal does not say that there is one. Of a
continuation that is listed twice, once as the one whose word issues, each kill finds that copy while a kill of the world is open, and
the other runs on. -/
theorem not_switchAndRecovery : ¬ Obligations.SwitchAndRecovery := by
  unfold Obligations.SwitchAndRecovery
  intro h
  obtain ⟨_, _, _, _, _, _, _, _, hreplay, _⟩ := h 0 0 0 0 listedTwice
  obtain ⟨_, hlost⟩ := hreplay ⟨0x40, 2, 0, 0, 0, false, false⟩ rfl rfl
  obtain ⟨t, ht, _, _, _, hkilled⟩ := hlost (.inl rfl)
  rw [exec_stepReplay_listedTwice] at ht
  cases ht
  have hmem : ∀ g ∈ listedTwice.threads, g = twin := by
    intro g hg
    have hg' : g ∈ [twin, twin] := hg
    simpa using hg'
  have hstatus : twin.status = .killed := hkilled twin List.mem_cons_self rfl (fun g hg _ => hmem g hg) twin twin_mem_lostStep rfl
  exact absurd hstatus (by decide)

end Sys2Proof.Machine
end

section
/-! Memory errors and repair (O60): marks, broken hardware-owned areas, corrections counted, rows repaired. -/

namespace Sys2Proof.Machine

open Sys2Proof

/-- An event that always happens. -/
theorem Happens.of_next {i : Instr} {s t : State} {p : State → Prop} (h : exec i s = .next t) (hp : p t) : Happens i s p := ⟨t, h, hp⟩

@[simp] theorem State.part_modPart (s : State) (p : Nat) (f : Partition → Partition) : (s.modPart p f).part p = f (s.part p) :=
  NMap.getD_set_self ..

/-! ## UNCORRECTABLE_ERROR (R390, R392) -/

theorem isPoisoned_add (s : State) (n : Nat) : ({ s with poison := NSet.add s.poison (n / 64) } : State).isPoisoned n = true := by
  simp [State.isPoisoned, NSet.mem_add]

/-- A place of memory. -/
theorem exec_uncorrectableError_of_lt {n : Nat} (h : n < 6 * regionSize) (s : State) :
    exec (.uncorrectableError n) s = .next { s with poison := NSet.add s.poison (n / 64) } := by
  show Host.Outcome.next _ = _
  rw [if_neg (Nat.not_le.mpr h)]

/-- A line of a hardware-owned area (log entry 54). -/
theorem exec_uncorrectableError_area {area n : Nat} (ha : 6 ≤ area) (hn : n < regionSize) (s : State) :
    exec (.uncorrectableError (area * regionSize + n)) s = .next (breakArea area n s) := by
  have hdiv : (area * regionSize + n) / regionSize = area := by
    rw [Nat.mul_comm, Nat.mul_add_div (by decide), Nat.div_eq_of_lt hn, Nat.add_zero]
  have hmod : (area * regionSize + n) % regionSize = n := by rw [Nat.mul_add_mod_self_right, Nat.mod_eq_of_lt hn]
  have hle : 6 * regionSize ≤ area * regionSize + n := (Nat.mul_le_mul_right _ ha).trans (Nat.le_add_right ..)
  show Host.Outcome.next _ = _
  rw [if_pos hle, hdiv, hmod]

section
variable {p : Nat} {s : State}

theorem breakArea_save (h : (NMap.get? s.parts p).isSome = true) : breakArea 6 p s = s.modPart p fun x => { x with saveBroken := true } := if_pos h

theorem breakArea_records (h : (NMap.get? s.parts p).isSome = true) :
    breakArea 7 p s = s.modPart p fun x => { x with recordsBroken := true } := if_pos h

/-- A broken line of an area whose lines belong to threads. -/
theorem happens_uncorrectableError_thread {area : Nat} {h : Thread} {f : Thread → Thread} (ha : 6 ≤ area) (hn : p < regionSize)
    (hb : breakArea area p s = s.modThread p f) (ht : ∀ x, (f x).tid = x.tid) (hs : ∀ x, (f x).status = x.status)
    (hp : s.thread? p = some h) :
    Happens (.uncorrectableError (area * regionSize + p)) s fun t => t.thread? p = some (f h) ∧ SameBytes s t :=
  .of_next (exec_uncorrectableError_area ha hn s) (by
    rw [hb]
    exact ⟨State.thread?_modThread_of_status hp ht hs, sameBytes_of_mem (State.modThread_mem ..)⟩)

end

/-! ## CORRECTED_ERROR (R390, R391) -/

theorem exec_correctedError (row : HbmRow) (s : State) : exec (.correctedError row) s = execCorrectedError row s := rfl

/-- What has been counted is forgotten only once it is no longer recent. -/
theorem recentCorrections_corrected (row : HbmRow) (s : State) :
    recentCorrections row (s.modHub fun h => { h with
      corrections := (h.corrections.filter fun c => decide (s.now < c.2 + correctionNs)) ++ [(row, s.now)] }) = recentCorrections row s + 1 := by
  have hnow : s.now < s.now + correctionNs := Nat.lt_add_of_pos_right (by decide)
  have hcount : ∀ l : List (HbmRow × Nat), (((l.filter fun c => decide (s.now < c.2 + correctionNs)) ++ [(row, s.now)]).filter
      fun c => c.1 == row && decide (s.now < c.2 + correctionNs)).length =
        (l.filter fun c => c.1 == row && decide (s.now < c.2 + correctionNs)).length + 1 := fun l => by
    simp [List.filter_filter, hnow]
  exact hcount _

theorem happens_correctedError (row : HbmRow) (s : State) : Happens (.correctedError row) s fun t =>
    recentCorrections row t = recentCorrections row s + 1 ∧ SameBytes s t :=
  .of_next (exec_correctedError row s) ⟨recentCorrections_corrected row s, fun _ => rfl⟩

/-! ## SOFT_REPAIR and its end (R391, R410) -/

theorem exec_softRepair (s : State) : exec .softRepair s = happen (trySoftRepair s) s := rfl
theorem exec_softRepairComplete (s : State) : exec .softRepairComplete s = happen (trySoftRepairComplete s) s := rfl

theorem lt_of_firstIdx {n i : Nat} {p : Nat → Bool} (h : firstIdx n p = some i) : i < n := List.mem_range.mp (List.mem_of_find?_eq_some h)

theorem firstIdx_ne_none {n i : Nat} {p : Nat → Bool} (hi : i < n) (hp : p i = true) : firstIdx n p ≠ none :=
  fun h => absurd hp (List.find?_eq_none.mp h i (List.mem_range.mpr hi))

theorem repairEntry_reserved (row : HbmRow) : repairEntry row >>> 24 <<< 24 = repairEntry row := by
  apply BitVec.eq_of_toNat_eq
  have h : (repairEntry row).toNat = 2 ^ 63 + row.stack % 16 * 2 ^ 58 + row.pch % 512 * 2 ^ 49 + row.bank % 64 * 2 ^ 43 + row.row % 2 ^ 19 * 2 ^ 24 := by
    rw [repairEntry, BitVec.toNat_ofNat, Nat.mod_eq_of_lt]
    omega
  rw [BitVec.toNat_shiftLeft, BitVec.toNat_ushiftRight, h]
  omega

theorem mem_writeRepair {n : Nat} (h : n < 512) (row : HbmRow) (s : State) : repairEntry row ∈ (writeRepair n (repairEntry row) s).hub.repairList := by
  rw [writeRepair, if_pos h]
  simp only [repairEntry_reserved, State.modHub_hub]
  split
  next hlt => exact List.mem_set hlt _
  next => exact List.mem_append_right _ (List.mem_singleton.mpr rfl)

theorem writeRepair_quiesced (n : Nat) (v : Word64) (s : State) : (writeRepair n v s).hub.quiesced = s.hub.quiesced := by
  unfold writeRepair
  split <;> rfl

theorem appendRepair_quiesced (row : HbmRow) (s : State) : (appendRepair row s).hub.quiesced = s.hub.quiesced := by
  unfold appendRepair
  split
  · exact writeRepair_quiesced ..
  · rfl

/-- A place of the list that is not valid is there for the entry. -/
theorem mem_appendRepair {row : HbmRow} {s : State} (h : ∃ i, i < 512 ∧ ((s.hub.repairList[i]?).getD 0).getLsbD 63 = false) :
    repairEntry row ∈ (appendRepair row s).hub.repairList := by
  obtain ⟨i, hi, hv⟩ := h
  unfold appendRepair
  split
  next j hj => exact mem_writeRepair (lt_of_firstIdx hj) row s
  next hnone => exact absurd hnone (firstIdx_ne_none hi (by rw [hv]; rfl))

theorem happens_softRepair {row : HbmRow} {s : State} (h : dueRow s = some row) : Happens .softRepair s fun t =>
    t.hub.quiesced = s.hub.quiesced ++ [row] ∧ SameBytes s t ∧
      ((∃ i, i < 512 ∧ ((s.hub.repairList[i]?).getD 0).getLsbD 63 = false) → repairEntry row ∈ t.hub.repairList) := by
  have htry : trySoftRepair s = some (appendRepair row (s.modHub fun x => { x with quiesced := x.quiesced ++ [row] })) := by
    rw [trySoftRepair, h, Option.map_some]
  exact .of_some (exec_softRepair s) htry ⟨appendRepair_quiesced .., sameBytes_of_mem (appendRepair_mem ..), fun hfree => mem_appendRepair hfree⟩

theorem happens_softRepairComplete {row : HbmRow} {r : List HbmRow} {s : State} (h : s.hub.quiesced = row :: r) :
    Happens .softRepairComplete s fun t => t.hub.quiesced = r ∧ t.hub.spared = s.hub.spared ++ [row] ∧ SameBytes s t := by
  have htry : trySoftRepairComplete s = some (s.modHub fun x => { x with
      quiesced := r, spared := x.spared ++ [row], corrections := x.corrections.filter fun c => c.1 != row }) := by
    rw [trySoftRepairComplete, h]
  exact .of_some (exec_softRepairComplete s) htry ⟨rfl, rfl, fun _ => rfl⟩

end Sys2Proof.Machine
end

section
/-! Reset, bring-up, links and expanders (O60). -/

namespace Sys2Proof.Machine

open Sys2Proof

/-! ## RESET (R408, R411) -/

/-- What lies outside the package after RESET; inside nothing is listed (log entries 3 and 32). -/
theorem Cells.get_filter (p : Nat → Bool) (m : List Host.Cell) (a : Nat) :
    Cells.get (m.filter fun c => p c.1) a = if p a = true then Cells.get m a else 0 := by
  induction m with
  | nil => simp [Cells.get, unlisted]
  | cons c r ih =>
    by_cases hp : p c.1 = true
    · rw [List.filter_cons_of_pos (by exact hp)]
      by_cases ha : a = c.1
      · simp [Cells.get, ha, hp]
      · simp [Cells.get, ha, ih]
    · rw [List.filter_cons_of_neg (by exact hp), ih]
      by_cases ha : a = c.1
      · simp [ha, hp]
      · simp [Cells.get, ha]

theorem NMap.get?_filter {α : Type} (p : Nat → Bool) (m : NMap α) (k : Nat) :
    NMap.get? (m.filter fun c => p c.1) k = if p k = true then NMap.get? m k else none := by
  induction m with
  | nil => simp [NMap.get?]
  | cons c r ih =>
    by_cases hp : p c.1 = true
    · rw [List.filter_cons_of_pos (by exact hp)]
      by_cases hk : k = c.1
      · simp [NMap.get?, hk, hp]
      · simp [NMap.get?, hk, ih]
    · rw [List.filter_cons_of_neg (by exact hp), ih]
      by_cases hk : k = c.1
      · simp [hk, hp]
      · simp [NMap.get?, hk]

theorem contains_filter (p : Nat → Bool) (l : List Nat) (k : Nat) : (l.filter p).contains k = if p k = true then l.contains k else false := by
  rw [Bool.eq_iff_iff]
  by_cases h : p k = true <;> simp [h]

/-- Regions begin at lines. -/
theorem outsidePackage_line (a : Nat) : outsidePackage (a / 64 * 64) = outsidePackage a := by
  have h : regionOf (a / 64 * 64) = regionOf a := by
    unfold regionOf regionSize
    omega
  rw [outsidePackage, outsidePackage, h]

theorem outsidePackage_iff (a : Nat) : outsidePackage a = true ↔ regionOf a = 3 ∨ regionOf a = 4 := by simp [outsidePackage]

theorem exec_reset (s : State) : exec .reset s = execReset s := rfl

theorem happens_reset (s : State) : Happens .reset s fun t =>
    t.hub.stage = 0 ∧ t.threads = [] ∧ t.worlds = [] ∧ t.parts = [] ∧ t.launches = [] ∧ t.sheaf = [] ∧
    t.hub.repairList = s.hub.repairList ∧ t.hub.turns = s.hub.turns ∧ t.hub.links = 0 ∧ t.hub.expanders = [] ∧ t.now = 0 ∧
    ∀ a, if outsidePackage a = true then t.byteAt a = s.byteAt a ∧ t.isCounterLine a = s.isCounterLine a ∧
        t.isPoisoned a = s.isPoisoned a ∧ NMap.get? t.seals (a / 64) = NMap.get? s.seals (a / 64)
      else t.byteAt a = 0 ∧ t.isCounterLine a = false ∧ t.isPoisoned a = false ∧ NMap.get? t.seals (a / 64) = none := by
  refine .of_next (exec_reset s) ⟨rfl, rfl, rfl, rfl, rfl, rfl, rfl, rfl, rfl, rfl, rfl, fun a => ?_⟩
  have hbyte := Cells.get_filter outsidePackage s.mem a
  have hmark := contains_filter (fun l => outsidePackage (l * 64)) s.ctrLines (a / 64)
  have hpoison := contains_filter (fun l => outsidePackage (l * 64)) s.poison (a / 64)
  have hseal := NMap.get?_filter (fun l => outsidePackage (l * 64)) s.seals (a / 64)
  simp only [outsidePackage_line] at hmark hpoison hseal
  by_cases h : outsidePackage a = true
  · simp only [h, if_true] at hbyte hmark hpoison hseal ⊢
    exact ⟨hbyte, hmark, hpoison, hseal⟩
  · simp only [h] at hbyte hmark hpoison hseal ⊢
    exact ⟨hbyte, hmark, hpoison, hseal⟩

/-! ## Bring-up (R408) -/

theorem exec_bringupStageComplete (s : State) : exec .bringupStageComplete s = happen (tryBringupStageComplete s) s := rfl

theorem stageAction_failed (n : Nat) (s : State) : (stageAction n s).hub.failed = s.hub.failed := by
  unfold stageAction
  split <;> rfl

theorem happens_bringupStageComplete {s : State} (hstage : s.hub.stage < 7) (hfailed : s.hub.failed = false) :
    Happens .bringupStageComplete s fun t => SameBytes s t ∧
      (t.hub.stage = s.hub.stage + 1 ∧ t.hub.failed = false ∨ s.hub.stage < 2 ∧ t.hub.stage = s.hub.stage ∧ t.hub.failed = true) := by
  have hgo : (decide (s.hub.stage + 1 ≤ 7) && !s.hub.failed) = true := by simp [hfailed]; omega
  have hmem : ∀ t, tryBringupStageComplete s = some t → SameBytes s t := fun t ht => sameBytes_of_mem (tryBringupStageComplete_mem s t ht)
  by_cases hboot : (decide (s.hub.stage + 1 ≤ 2) && !Config.bootOk s.tick) = true
  · have htry : tryBringupStageComplete s = some (State.nextTick (s.modHub fun h => { h with failed := true })) := by
      simp only [tryBringupStageComplete, hgo, hboot, if_true]
    refine .of_some (exec_bringupStageComplete s) htry ⟨hmem _ htry, .inr ⟨?_, rfl, rfl⟩⟩
    simp only [Bool.and_eq_true, decide_eq_true_eq] at hboot
    omega
  · have htry : tryBringupStageComplete s =
        some (State.nextTick ((stageAction (s.hub.stage + 1) s).modHub fun h => { h with stage := s.hub.stage + 1 })) := by
      simp only [tryBringupStageComplete, hgo, hboot, if_true]
      rfl
    exact .of_some (exec_bringupStageComplete s) htry ⟨hmem _ htry, .inl ⟨rfl, (stageAction_failed ..).trans hfailed⟩⟩

/-! ## Links (R407) -/

theorem exec_linkFailure (n : Nat) (s : State) :
    exec (.linkFailure n) s = .next (s.modHub fun h => { h with links := h.links &&& ~~~(BitVec.ofNat 32 (2 ^ n)) }) := rfl

theorem exec_linkRetrainComplete (n : Nat) (s : State) :
    exec (.linkRetrainComplete n) s = .next (s.modHub fun h => { h with links := h.links ||| BitVec.ofNat 32 (2 ^ n) }) := rfl

theorem getLsbD_ofNat_two_pow {w n : Nat} (h : n < w) (k : Nat) : (BitVec.ofNat w (2 ^ n)).getLsbD k = decide (k = n) := by
  rw [BitVec.getLsbD_ofNat, Nat.testBit_two_pow]
  by_cases hk : n = k
  · simp [← hk, h]
  · simp [hk, Ne.symm hk]

theorem getLsbD_clearBit {w n : Nat} (h : n < w) (x : BitVec w) (k : Nat) :
    (x &&& ~~~(BitVec.ofNat w (2 ^ n))).getLsbD k = (x.getLsbD k && !decide (k = n)) := by
  rw [BitVec.getLsbD_and, BitVec.getLsbD_not, getLsbD_ofNat_two_pow h]
  by_cases hk : k < w
  · simp [hk]
  · simp [BitVec.getLsbD_of_ge x k (by omega)]

theorem getLsbD_setBit {w n : Nat} (h : n < w) (x : BitVec w) (k : Nat) :
    (x ||| BitVec.ofNat w (2 ^ n)).getLsbD k = (x.getLsbD k || decide (k = n)) := by
  rw [BitVec.getLsbD_or, getLsbD_ofNat_two_pow h]

theorem happens_linkFailure {n : Nat} (h : n < 32) (s : State) : Happens (.linkFailure n) s fun t =>
    t.hub.links.getLsbD n = false ∧ SameBytes s t ∧ ∀ k, k ≠ n → t.hub.links.getLsbD k = s.hub.links.getLsbD k := by
  refine .of_next (exec_linkFailure n s) ⟨?_, fun _ => rfl, fun k hk => ?_⟩
  · exact (getLsbD_clearBit h ..).trans (by simp)
  · exact (getLsbD_clearBit h ..).trans (by simp [hk])

theorem happens_linkRetrainComplete {n : Nat} (h : n < 32) (s : State) : Happens (.linkRetrainComplete n) s fun t =>
    t.hub.links.getLsbD n = true ∧ SameBytes s t ∧ ∀ k, k ≠ n → t.hub.links.getLsbD k = s.hub.links.getLsbD k := by
  refine .of_next (exec_linkRetrainComplete n s) ⟨?_, fun _ => rfl, fun k hk => ?_⟩
  · exact (getLsbD_setBit h ..).trans (by simp)
  · exact (getLsbD_setBit h ..).trans (by simp [hk])

/-! ## Expanders (R405) -/

theorem exec_expanderRemoval (n : Nat) (s : State) :
    exec (.expanderRemoval n) s = .next (s.modHub fun h => { h with expanders := dropExpander (n % 4) (n / 4) h.expanders }) := rfl

/-- The expanders of a port. -/
def portExpanders (i : Nat) (l : List Expander) : List Expander := l.filter fun e => e.port == i

theorem portExpanders_cons_self (x : Expander) (l : List Expander) : portExpanders x.port (x :: l) = x :: portExpanders x.port l :=
  List.filter_cons_of_pos (by simp)

theorem portExpanders_cons_ne {i : Nat} {x : Expander} (h : x.port ≠ i) (l : List Expander) : portExpanders i (x :: l) = portExpanders i l :=
  List.filter_cons_of_neg (by simpa using h)

/-- Of one port, one expander is gone; the others stay in their places. -/
theorem portExpanders_dropExpander (port i : Nat) (l : List Expander) : ∀ n k : Nat, (portExpanders i (dropExpander port n l))[k]? =
    if i = port ∧ k = n then ((portExpanders i l)[k]?).map fun e => { e with present := false } else (portExpanders i l)[k]? := by
  induction l with
  | nil => intro n k; simp [dropExpander, portExpanders]
  | cons x r ih =>
    intro n k
    by_cases hx : x.port = port
    · by_cases hi : i = port
      · subst hx hi
        rw [portExpanders_cons_self]
        cases n with
        | zero =>
          have hhead : dropExpander x.port 0 (x :: r) = { x with present := false } :: r := by simp [dropExpander]
          rw [hhead, portExpanders_cons_self { x with present := false } r]
          cases k <;> simp
        | succ n =>
          have htail : dropExpander x.port (n + 1) (x :: r) = x :: dropExpander x.port n r := by simp [dropExpander]
          rw [htail, portExpanders_cons_self]
          cases k with
          | zero => simp
          | succ k => simpa using ih n k
      · have hne : x.port ≠ i := by rw [hx]; exact Ne.symm hi
        cases n with
        | zero =>
          have hhead : dropExpander port 0 (x :: r) = { x with present := false } :: r := by simp [dropExpander, hx]
          rw [hhead, portExpanders_cons_ne (x := { x with present := false }) hne, portExpanders_cons_ne hne, if_neg (fun h => hi h.1)]
        | succ n =>
          have htail : dropExpander port (n + 1) (x :: r) = x :: dropExpander port n r := by simp [dropExpander, hx]
          rw [htail, portExpanders_cons_ne hne, portExpanders_cons_ne hne, ih, if_neg (fun h => hi h.1), if_neg (fun h => hi h.1)]
    · have hother : dropExpander port n (x :: r) = x :: dropExpander port n r := by simp [dropExpander, hx]
      rw [hother]
      by_cases hi : x.port = i
      · subst hi
        rw [portExpanders_cons_self, portExpanders_cons_self]
        cases k with
        | zero => simp [hx]
        | succ k => simpa [hx] using ih n k
      · rw [portExpanders_cons_ne hi, portExpanders_cons_ne hi, ih]

theorem happens_expanderRemoval (n : Nat) (s : State) : Happens (.expanderRemoval n) s fun t => SameBytes s t ∧
    ∀ i k, (portExpanders i t.hub.expanders)[k]? =
      if i = n % 4 ∧ k = n / 4 then ((portExpanders i s.hub.expanders)[k]?).map fun e => { e with present := false }
      else (portExpanders i s.hub.expanders)[k]? :=
  .of_next (exec_expanderRemoval n s) ⟨fun _ => rfl, fun i k => portExpanders_dropExpander (n % 4) i s.hub.expanders (n / 4) k⟩

end Sys2Proof.Machine
end

section
/-! Flits of peers (O60): which flit is taken, what its answers are, and what the waits at the homes make of it. -/

namespace Sys2Proof.Machine

open Sys2Proof

/-! ## Which flit is taken (R406) -/

theorem exec_nelturFlit (f : Flit) (s : State) : exec (.nelturFlit f) s = execNelturFlit f s := rfl

/-- The flits that wait for those before them. -/
def queueFlit (f : Flit) (s : State) : State := s.modHub fun h => { h with peerEarly := h.peerEarly ++ [f] }

/-- No flit of the source of `f` waits. -/
def NoneWaits (f : Flit) (s : State) : Prop := ∀ g ∈ s.hub.peerEarly, g.src ≠ f.src

theorem exec_nelturFlit_of_again {f : Flit} {s : State}
    (h : f.seq < nextSeq f.src s ∨ ∃ g ∈ s.hub.peerEarly, g.src = f.src ∧ g.seq = f.seq) : exec (.nelturFlit f) s = .next s := by
  have hdone : (decide (f.seq < nextSeq f.src s) || s.hub.peerEarly.any fun x => x.src == f.src && x.seq == f.seq) = true := by
    simpa [List.any_eq_true] using h
  rw [exec_nelturFlit, execNelturFlit, hdone, if_pos rfl]

theorem exec_nelturFlit_of_new {f : Flit} {s : State} (hseq : nextSeq f.src s ≤ f.seq) (hq : NoneWaits f s) :
    exec (.nelturFlit f) s = .next (takeEarly f.src (s.hub.peerEarly.length + 1) (queueFlit f s)) := by
  have hnew : (decide (f.seq < nextSeq f.src s) || s.hub.peerEarly.any fun x => x.src == f.src && x.seq == f.seq) = false := by
    simp only [Bool.or_eq_false_iff, decide_eq_false_iff_not, Nat.not_lt, List.any_eq_false]
    exact ⟨hseq, fun g hg => by simp [hq g hg]⟩
  have hlen : (queueFlit f s).hub.peerEarly.length = s.hub.peerEarly.length + 1 := List.length_append
  rw [exec_nelturFlit, execNelturFlit, hnew, if_neg Bool.false_ne_true, ← hlen]
  rfl

/-- Where no flit of the source can go on, nothing is taken. -/
theorem takeEarly_of_none {src : Nat} {s : State} (h : ∀ g ∈ s.hub.peerEarly, g.src = src → g.seq = nextSeq src s → flitHeld g s = true) :
    ∀ n, takeEarly src n s = s
  | 0 => rfl
  | n + 1 => by
    have hnone : (s.hub.peerEarly.find? fun g => g.src == src && g.seq == nextSeq src s && !flitHeld g s) = none := by
      refine List.find?_eq_none.mpr fun g hg hc => ?_
      simp only [Bool.and_eq_true, beq_iff_eq, Bool.not_eq_true'] at hc
      obtain ⟨⟨hsrc, hseq⟩, hheld⟩ := hc
      exact absurd (h g hg hsrc hseq) (by simp [hheld])
    rw [takeEarly, hnone]

theorem flitHeld_queueFlit (f g : Flit) (s : State) : flitHeld g (queueFlit f s) = flitHeld g s := rfl

theorem nextSeq_queueFlit (f : Flit) (src : Nat) (s : State) : nextSeq src (queueFlit f s) = nextSeq src s := rfl

theorem exec_nelturFlit_of_early {f : Flit} {s : State} (h : nextSeq f.src s < f.seq ∨ (f.seq = nextSeq f.src s ∧ flitHeld f s = true))
    (hq : NoneWaits f s) : exec (.nelturFlit f) s = .next (queueFlit f s) := by
  rw [exec_nelturFlit_of_new (by omega) hq, takeEarly_of_none]
  intro g hg hsrc hseq
  rcases List.mem_append.mp hg with hg | hg
  · exact absurd hsrc (hq g hg)
  · obtain rfl := List.mem_singleton.mp hg
    rw [nextSeq_queueFlit] at hseq
    rcases h with h | ⟨-, h⟩
    · omega
    · exact h

section
variable (s : State)

theorem judgeWaits_sent : (judgeWaits s).hub.sent = s.hub.sent := rfl
theorem judgeWaits_peerSeq : (judgeWaits s).hub.peerSeq = s.hub.peerSeq := rfl
theorem judgeWaits_peerEarly : (judgeWaits s).hub.peerEarly = s.hub.peerEarly := rfl
theorem judgeWaits_sheaf : (judgeWaits s).sheaf = s.sheaf := rfl
theorem judgeWaits_ctrLines : (judgeWaits s).ctrLines = s.ctrLines := rfl

variable (f : Flit)

theorem nextSeq_takeFlit : nextSeq f.src (takeFlit f s) = f.seq + 1 := by
  rw [nextSeq, takeFlit, judgeWaits_peerSeq]
  exact NMap.getD_set_self ..

theorem takeFlit_sent : (takeFlit f s).hub.sent = (applyFlit f s).hub.sent := by rw [takeFlit, judgeWaits_sent, State.modHub_hub]
theorem takeFlit_peerEarly : (takeFlit f s).hub.peerEarly = (applyFlit f s).hub.peerEarly := by
  rw [takeFlit, judgeWaits_peerEarly, State.modHub_hub]
theorem takeFlit_mem : (takeFlit f s).mem = (applyFlit f s).mem := by rw [takeFlit, judgeWaits_mem, State.modHub_mem]
theorem takeFlit_sheaf : (takeFlit f s).sheaf = (applyFlit f s).sheaf := by rw [takeFlit, judgeWaits_sheaf, State.modHub_sheaf]
theorem takeFlit_ctrLines : (takeFlit f s).ctrLines = (applyFlit f s).ctrLines := by rw [takeFlit, judgeWaits_ctrLines, State.modHub_ctrLines]

end

/-- The flit that comes next is taken at once, where no other of its source waits. -/
theorem exec_nelturFlit_of_next {f : Flit} {s : State} (hseq : f.seq = nextSeq f.src s) (hheld : flitHeld f s = false) (hq : NoneWaits f s)
    (hearly : (applyFlit f s).hub.peerEarly = s.hub.peerEarly) : exec (.nelturFlit f) s = .next (takeFlit f s) := by
  have hfind : ((queueFlit f s).hub.peerEarly.find? fun g => g.src == f.src && g.seq == nextSeq f.src (queueFlit f s) &&
      !flitHeld g (queueFlit f s)) = some f := by
    have hfirst : (s.hub.peerEarly.find? fun g => g.src == f.src && g.seq == nextSeq f.src (queueFlit f s) &&
        !flitHeld g (queueFlit f s)) = none := by
      refine List.find?_eq_none.mpr fun g hg => ?_
      simp [hq g hg]
    have hself : (f.src == f.src && f.seq == nextSeq f.src (queueFlit f s) && !flitHeld f (queueFlit f s)) = true := by
      simp [nextSeq_queueFlit, flitHeld_queueFlit, hheld, ← hseq]
    have hlist : (queueFlit f s).hub.peerEarly = s.hub.peerEarly ++ [f] := rfl
    rw [hlist, List.find?_append, hfirst, List.find?_singleton, if_pos hself]
    rfl
  have hback : ((queueFlit f s).modHub fun h => { h with peerEarly := h.peerEarly.filter (· != f) }) = s := by
    have hlist : (s.hub.peerEarly ++ [f]).filter (· != f) = s.hub.peerEarly := by
      rw [List.filter_append, List.filter_eq_self.mpr fun g hg => ?_]
      · simp
      · simpa using fun h : g = f => hq g hg (by rw [h])
    show s.modHub (fun h => { h with peerEarly := (s.hub.peerEarly ++ [f]).filter (· != f) }) = s
    rw [hlist]
    rfl
  rw [exec_nelturFlit_of_new hseq.symm.le hq, takeEarly, hfind]
  simp only [hback]
  rw [takeEarly_of_none]
  intro g hg hsrc
  have hg' : g ∈ s.hub.peerEarly := by rwa [takeFlit_peerEarly, hearly] at hg
  exact absurd hsrc (hq g hg')

/-! ## Answers (R406) -/

/-- The answer of the place `i` in the sequence to the source of a flit. -/
def answerOf (f : Flit) (s : State) (i : Nat) (b : SentBody) : SentFlit :=
  ⟨Config.ownPeer, f.src, NMap.getD s.hub.sentSeq f.src 0 + i, f.world, f.cref, f.stepNo, f.sseq, b⟩

/-- Answers leave one after another. -/
def sendAll (f : Flit) (l : List SentBody) (s : State) : State := l.foldl (fun u b => u.sendFlit f.src f.world f.cref f.stepNo f.sseq b) s

theorem sendBytes_eq_sendAll (f : Flit) (c : BitVec 8) (bs : List Byte) (s : State) :
    sendBytes f c bs s = sendAll f ((payloadsOf bs).map fun x => .bytes f.cref x c) s := by
  rw [sendAll, List.foldl_map]
  rfl

/-- Answers change what has been sent, and the numbers of the sequences. -/
theorem sendAll_eq (f : Flit) (l : List SentBody) : ∀ s : State, sendAll f l s = s.modHub fun h => { h with
    sentSeq := (sendAll f l s).hub.sentSeq, sent := h.sent ++ l.mapIdx (answerOf f s) } := by
  induction l with
  | nil =>
    intro s
    show s = s.modHub fun h => { h with sent := h.sent ++ [] }
    simp [State.modHub]
  | cons b r ih =>
    intro s
    have hseq : NMap.getD (s.sendFlit f.src f.world f.cref f.stepNo f.sseq b).hub.sentSeq f.src 0 = NMap.getD s.hub.sentSeq f.src 0 + 1 :=
      NMap.getD_set_self ..
    have hnext : r.mapIdx (answerOf f (s.sendFlit f.src f.world f.cref f.stepNo f.sseq b)) = r.mapIdx fun i => answerOf f s (i + 1) := by
      refine congrArg (fun g => r.mapIdx g) (funext fun i => funext fun x => ?_)
      rw [answerOf, hseq, Nat.add_assoc, Nat.add_comm 1 i]
      rfl
    have hcons : sendAll f (b :: r) s = sendAll f r (s.sendFlit f.src f.world f.cref f.stepNo f.sseq b) := rfl
    rw [hcons]
    conv_lhs => rw [ih]
    rw [List.mapIdx_cons, hnext]
    simp [State.modHub, State.sendFlit, answerOf]

/-! ## A flit that is taken -/

/-- The state `t` is `u`, in which a flit has been applied, once the flit has been counted and its answers have left: what statements
about flits read of it. -/
structure FlitTaken (f : Flit) (l : List SentBody) (s u t : State) : Prop where
  next : nextSeq f.src t = f.seq + 1
  sent : t.hub.sent = s.hub.sent ++ l.mapIdx (answerOf f s)
  mem : t.mem = u.mem
  sheaf : t.sheaf = u.sheaf
  marks : t.ctrLines = u.ctrLines

theorem happens_nelturFlit {f : Flit} {l : List SentBody} {s u : State} {p : State → Prop} (hseq : f.seq = nextSeq f.src s)
    (hheld : flitHeld f s = false) (hq : NoneWaits f s) (happly : applyFlit f s = sendAll f l u) (hhub : u.hub = s.hub)
    (hp : ∀ t, FlitTaken f l s u t → p t) : Happens (.nelturFlit f) s p := by
  have hanswer : answerOf f u = answerOf f s := funext fun i => funext fun b => by rw [answerOf, hhub]; rfl
  have hsend := sendAll_eq f l u
  have hearly : (applyFlit f s).hub.peerEarly = s.hub.peerEarly := by rw [happly, hsend, State.modHub_hub, hhub]
  refine .of_next (exec_nelturFlit_of_next hseq hheld hq hearly) (hp _ ⟨nextSeq_takeFlit s f, ?_, ?_, ?_, ?_⟩)
  · rw [takeFlit_sent, happly, hsend, State.modHub_hub, hhub, hanswer]
  · rw [takeFlit_mem, happly, hsend, State.modHub_mem]
  · rw [takeFlit_sheaf, happly, hsend, State.modHub_sheaf]
  · rw [takeFlit_ctrLines, happly, hsend, State.modHub_ctrLines]

end Sys2Proof.Machine
end

section
/-! Operations of peers at their homes (O60): what each flit leaves, and the answer that it gets. -/

namespace Sys2Proof.Machine

open Sys2Proof

variable {f : Flit} {s : State}

/-! ## The operation of a flit -/

theorem applyFlit_of_refused (h : flitAdmitted f s = false) : applyFlit f s = sendAll f [.answer f.cref 0 0x06] s := by
  rw [applyFlit, h, if_pos (by decide)]
  rfl

section
variable (h : flitAdmitted f s = true)
include h

theorem applyFlit_counterAdd {v : Word64} (hop : f.op = .counterAdd v) : applyFlit f s = peerAdd f v (endPeerStep f s) := by
  simp [applyFlit, h, hop]

theorem applyFlit_counterInit {v : Word64} (hop : f.op = .counterInit v) :
    applyFlit f s = peerStamped f 0x1A 1 v (initLine (flitReq f) (flitPa f) v) (endPeerStep f s) := by
  simp [applyFlit, h, hop]

theorem applyFlit_counterWait {v : Word64} {l : Option Nat} (hop : f.op = .counterWait v l) :
    applyFlit f s = peerWait f v l (endPeerStep f s) := by
  simp [applyFlit, h, hop]

theorem applyFlit_counterRead (hop : f.op = .counterRead) : applyFlit f s = peerRead f (endPeerStep f s) := by
  simp [applyFlit, h, hop]

theorem applyFlit_copyWrite {bs : List Byte} (hop : f.op = .copyWrite bs) : applyFlit f s = peerWrite f bs (endPeerStep f s) := by
  simp [applyFlit, h, hop]

theorem applyFlit_copyRead {n : Nat} (hop : f.op = .copyRead n) : applyFlit f s = peerCopy f n (endPeerStep f s) := by
  simp [applyFlit, h, hop]

end

/-! ## A flit that is answered once -/

/-- The flit has been counted, and one answer has left. -/
def FlitAnswered (f : Flit) (s : State) (b : SentBody) (t : State) : Prop :=
  nextSeq f.src t = f.seq + 1 ∧ t.hub.sent = s.hub.sent ++ [answerOf f s 0 b]

theorem FlitTaken.answered {b : SentBody} {u t : State} (h : FlitTaken f [b] s u t) : FlitAnswered f s b t := ⟨h.next, h.sent⟩

/-- A flit that comes next of its source: no sweep and no repair holds it, and no other flit of its source waits. -/
structure ComesNext (f : Flit) (s : State) : Prop where
  seq : f.seq = nextSeq f.src s
  free : flitHeld f s = false
  alone : NoneWaits f s

theorem ComesNext.happens {l : List SentBody} {u : State} {p : State → Prop} (h : ComesNext f s) (happly : applyFlit f s = sendAll f l u)
    (hhub : u.hub = s.hub) (hp : ∀ t, FlitTaken f l s u t → p t) : Happens (.nelturFlit f) s p :=
  happens_nelturFlit h.seq h.free h.alone happly hhub hp

/-- A flit that changes no byte. -/
theorem ComesNext.answers {b : SentBody} {u : State} (h : ComesNext f s) (happly : applyFlit f s = sendAll f [b] u)
    (hhub : u.hub = s.hub) (hmem : u.mem = s.mem) : Happens (.nelturFlit f) s fun t => FlitAnswered f s b t ∧ SameBytes s t :=
  h.happens happly hhub fun _ ht => ⟨ht.answered, byteAt_of_mem (ht.mem.trans hmem)⟩

theorem happens_flit_refused (h : ComesNext f s) (hadm : flitAdmitted f s = false) :
    Happens (.nelturFlit f) s fun t => FlitAnswered f s (.answer f.cref 0 0x06) t ∧ SameBytes s t :=
  h.answers (applyFlit_of_refused hadm) rfl rfl

/-! ## The stamps that a home holds (R387) -/

/-- The entry of a flit's stamp. -/
def stampEntry (f : Flit) (s : State) : Option SheafEntry := s.sheafFind f.world (peerPart f) f.cref f.stepNo f.sseq

/-- The entry bears the stamp of the flit. -/
def bearsStamp (f : Flit) (e : SheafEntry) : Bool :=
  e.world == f.world && e.part == peerPart f && e.cref == f.cref && e.stepNo == f.stepNo && e.sseq == f.sseq

theorem stampEntry_eq (f : Flit) (s : State) : stampEntry f s = s.sheaf.find? (bearsStamp f) := rfl

/-- An entry for an operation of the flit. -/
def newEntry (f : Flit) (maj func : BitVec 8) (v r : Word64) (code : BitVec 8) : SheafEntry :=
  ⟨f.world, peerPart f, f.cref, f.stepNo, f.sseq, maj, func, v, r, code, false, []⟩

theorem bearsStamp_newEntry (f : Flit) (maj func : BitVec 8) (v r : Word64) (code : BitVec 8) :
    bearsStamp f (newEntry f maj func v r code) = true := by simp [bearsStamp, newEntry]

/-- The end of earlier steps leaves the entry of the flit's own step. -/
theorem stampEntry_endPeerStep (f : Flit) (s : State) : stampEntry f (endPeerStep f s) = stampEntry f s := by
  rw [stampEntry_eq, stampEntry_eq, endPeerStep, List.find?_filter]
  congr 1
  funext e
  by_cases hb : bearsStamp f e = true
  · have hstep : e.stepNo = f.stepNo := by
      simp only [bearsStamp, Bool.and_eq_true, beq_iff_eq] at hb
      obtain ⟨⟨-, hstep⟩, -⟩ := hb
      exact hstep
    simp [hb, hstep]
  · simp [hb]

/-- A stamp that no entry bore is found where its entry has been added. -/
theorem stampEntry_append {e : SheafEntry} {t : State} {l : List SheafEntry} (ht : t.sheaf = l ++ [e]) (hl : l.find? (bearsStamp f) = none)
    (he : bearsStamp f e = true) : stampEntry f t = some e := by
  rw [stampEntry_eq, ht, List.find?_append, hl, List.find?_singleton, if_pos he]
  rfl

theorem peerStamped_of_held {e : SheafEntry} (he : stampEntry f s = some e) (maj func : BitVec 8) (v : Word64) (home : State → State.Reply) :
    peerStamped f maj func v home (endPeerStep f s) =
      sendAll f [.answer f.cref e.result (if State.sameStamp e maj func v = true then e.fault else 0x43)] (endPeerStep f s) := by
  have hfind : (endPeerStep f s).sheafFind f.world (peerPart f) f.cref f.stepNo f.sseq = some e := (stampEntry_endPeerStep f s).trans he
  rw [peerStamped, hfind]
  rfl

theorem peerStamped_of_fresh (he : stampEntry f s = none) (maj func : BitVec 8) (v : Word64) (home : State → State.Reply) :
    let r := home (endPeerStep f s)
    peerStamped f maj func v home (endPeerStep f s) = sendAll f [.answer f.cref r.result r.fault] { r.state with
      sheaf := r.state.sheaf ++ [newEntry f maj func v r.result r.fault] } := by
  have hfind : (endPeerStep f s).sheafFind f.world (peerPart f) f.cref f.stepNo f.sseq = none := (stampEntry_endPeerStep f s).trans he
  rw [peerStamped, hfind]
  rfl

/-! ## Adds (R144, R387) -/

/-- An add that fits changes the line's 8 bytes, and the seal of a sealed line. -/
theorem lineAdd_eq_of_fits {q : Req} {pa : Nat} {v : Word64} {z : State} (h : ctrRefusal q pa z = none) (hv : z.readNat pa 8 + v.toNat < 2 ^ 64) :
    ∃ l, lineAdd q pa v z = ⟨BitVec.ofNat 64 (z.readNat pa 8), 0,
      { z with mem := Cells.write z.mem pa (toLe 8 (z.readNat pa 8 + v.toNat)), seals := l }⟩ := by
  have hsum : (BitVec.ofNat 64 (z.readNat pa 8) + v).toNat = z.readNat pa 8 + v.toNat := by
    rw [BitVec.toNat_add, toNat_readNat, Nat.mod_eq_of_lt hv]
  simp only [lineAdd, h, toNat_readNat, ge_iff_le, Nat.not_le.mpr hv, if_false, bumpLine]
  split
  · exact ⟨_, by rw [← hsum]; rfl⟩
  · exact ⟨z.seals, by rw [← hsum]; rfl⟩

/-- The line holds the sum. -/
def Raised (f : Flit) (v : Word64) (s t : State) : Prop := t.readNat (flitPa f) 8 = s.readNat (flitPa f) 8 + v.toNat

/-- The home of the flit takes the add: no refusal, and no overflow. -/
structure Addable (f : Flit) (v : Word64) (s : State) : Prop where
  taken : ctrRefusal (flitReq f) (flitPa f) s = none
  fits : s.readNat (flitPa f) 8 + v.toNat < 2 ^ 64

/-- The state after an add that fits, with what the home has noted of it. -/
def raised (f : Flit) (v : Word64) (seals : NMap Seal) (entries : List SheafEntry) (s : State) : State :=
  { s with mem := Cells.write s.mem (flitPa f) (toLe 8 (s.readNat (flitPa f) 8 + v.toNat)), seals := seals, sheaf := entries }

theorem Addable.lineAdd_eq {v : Word64} (h : Addable f v s) : ∃ l, lineAdd (flitReq f) (flitPa f) v (endPeerStep f s) =
    ⟨BitVec.ofNat 64 (s.readNat (flitPa f) 8), 0, raised f v l (endPeerStep f s).sheaf s⟩ :=
  lineAdd_eq_of_fits (z := endPeerStep f s) h.taken h.fits

theorem ComesNext.raises {b : SentBody} {v : Word64} {l : NMap Seal} {k : List SheafEntry} {p : State → Prop} (h : ComesNext f s)
    (hfit : Addable f v s) (happly : applyFlit f s = sendAll f [b] (raised f v l k s))
    (hp : ∀ t, FlitAnswered f s b t → Raised f v s t → t.sheaf = k → p t) : Happens (.nelturFlit f) s p :=
  h.happens happly rfl fun t ht => hp t ht.answered (State.readNat_of_write ht.mem hfit.fits) ht.sheaf

section
variable {v : Word64} (h : ComesNext f s) (hadm : flitAdmitted f s = true) (hop : f.op = .counterAdd v)
include h hadm hop

theorem happens_flit_add_held (hsec : f.sector = none) {e : SheafEntry} (he : stampEntry f s = some e) : Happens (.nelturFlit f) s fun t =>
    FlitAnswered f s (.answer f.cref e.result (if State.sameStamp e 0x18 1 v = true then e.fault else 0x43)) t ∧ SameBytes s t := by
  refine h.answers (u := endPeerStep f s) ?_ rfl rfl
  rw [applyFlit_counterAdd hadm hop, peerAdd, hsec]
  exact peerStamped_of_held he ..

theorem happens_flit_add_fresh (hsec : f.sector = none) (he : stampEntry f s = none) (hfit : Addable f v s) :
    Happens (.nelturFlit f) s fun t => FlitAnswered f s (.answer f.cref (BitVec.ofNat 64 (s.readNat (flitPa f) 8)) 0) t ∧
      Raised f v s t ∧ (stampEntry f t).isSome = true := by
  obtain ⟨l, hl⟩ := hfit.lineAdd_eq
  have hpeer := peerStamped_of_fresh he 0x18 1 v (lineAdd (flitReq f) (flitPa f) v)
  rw [hl] at hpeer
  have happly : applyFlit f s = sendAll f [.answer f.cref (BitVec.ofNat 64 (s.readNat (flitPa f) 8)) 0] (raised f v l
      ((endPeerStep f s).sheaf ++ [newEntry f 0x18 1 v (BitVec.ofNat 64 (s.readNat (flitPa f) 8)) 0]) s) := by
    rw [applyFlit_counterAdd hadm hop, peerAdd, hsec]
    exact hpeer
  refine h.raises hfit happly fun t hans hsum hsheaf => ⟨hans, hsum, ?_⟩
  rw [stampEntry_append hsheaf ((stampEntry_endPeerStep f s).trans he) (bearsStamp_newEntry ..)]
  rfl

end

/-! ## The adds of a copy job's sectors (R387) -/

/-- The stamp of a flit. -/
def flitStamp (f : Flit) : Stamp := ⟨f.world, peerPart f, f.cref, f.stepNo, f.sseq⟩

/-- The add of the flit, of the sector `i` of a copy job. -/
def flitSectorAdd (f : Flit) (i : Nat) (v : Word64) (s : State) : BitVec 8 × State :=
  stampedAdd (flitReq f) (flitStamp f) true (some i) v (flitPa f) (endPeerStep f s)

theorem applyFlit_sector {v : Word64} {i : Nat} (hadm : flitAdmitted f s = true) (hop : f.op = .counterAdd v) (hsec : f.sector = some i)
    {x : BitVec 8 × State} (hx : flitSectorAdd f i v s = x) : applyFlit f s = sendAll f [.answer f.cref 0 x.1] x.2 := by
  rw [applyFlit_counterAdd hadm hop, peerAdd, hsec, ← hx]
  rfl

/-- An entry with one more sector's add. -/
def recordSector (i : Nat) (v : Word64) (e : SheafEntry) : SheafEntry := { e with operand := e.operand + v, sectors := NSet.add e.sectors i }

/-- The entry `e` gets one more sector's add, where it stands. -/
def recordAt (e : SheafEntry) (i : Nat) (v : Word64) (x : SheafEntry) : SheafEntry := if x == e then recordSector i v x else x

theorem mem_recordSector (i : Nat) (v : Word64) (e : SheafEntry) : i ∈ (recordSector i v e).sectors := (NSet.mem_add ..).mpr (.inl rfl)

theorem bearsStamp_recordSector (i : Nat) (v : Word64) (e : SheafEntry) : bearsStamp f (recordSector i v e) = bearsStamp f e := rfl

theorem bearsStamp_recordAt (e : SheafEntry) (i : Nat) (v : Word64) (x : SheafEntry) : bearsStamp f (recordAt e i v x) = bearsStamp f x := by
  rw [recordAt]
  split <;> rfl

theorem stampEntry_recordAt {e : SheafEntry} {i : Nat} {v : Word64} {t : State} {l : List SheafEntry} (ht : t.sheaf = l.map (recordAt e i v))
    (he : l.find? (bearsStamp f) = some e) : stampEntry f t = some (recordSector i v e) := by
  have hbears : bearsStamp f ∘ recordAt e i v = bearsStamp f := funext fun x => bearsStamp_recordAt e i v x
  rw [stampEntry_eq, ht, List.find?_map, hbears, he, Option.map_some, recordAt, if_pos (beq_self_eq_true e)]

section
variable {i : Nat} {v : Word64} {e : SheafEntry}

/-- A sector whose add the entry records is absorbed. -/
theorem flitSectorAdd_of_recorded (he : stampEntry f s = some e) (hmaj : e.maj = 0x1C) (hfunc : e.func = 0) (hi : i ∈ e.sectors) :
    flitSectorAdd f i v s = (0, endPeerStep f s) := by
  have hfind : (endPeerStep f s).sheafFind f.world (peerPart f) f.cref f.stepNo f.sseq = some e := (stampEntry_endPeerStep f s).trans he
  simp [flitSectorAdd, stampedAdd, flitStamp, hfind, hmaj, hfunc, hi]

/-- The add of a sector that the entry does not record, where it fits. -/
theorem flitSectorAdd_of_unrecorded (he : stampEntry f s = some e) (hmaj : e.maj = 0x1C) (hfunc : e.func = 0) (hfault : e.fault = 0)
    (hi : i ∉ e.sectors) (hfit : Addable f v s) :
    ∃ l, flitSectorAdd f i v s = (0, raised f v l ((endPeerStep f s).sheaf.map (recordAt e i v)) s) := by
  have hfind : (endPeerStep f s).sheafFind f.world (peerPart f) f.cref f.stepNo f.sseq = some e := (stampEntry_endPeerStep f s).trans he
  have hkind : (e.maj != 0x1C || e.func != 0) = false := by simp [hmaj, hfunc]
  obtain ⟨l, hl⟩ := hfit.lineAdd_eq
  refine ⟨l, ?_⟩
  simp only [flitSectorAdd, stampedAdd, flitStamp, if_true, hfind, hkind, hl, hfault, List.contains_eq_mem, hi, decide_false, bne_self_eq_false,
    Bool.false_eq_true, if_false]
  rfl

/-- The first add of a job's sectors at a home, where it fits. -/
theorem flitSectorAdd_of_fresh (he : stampEntry f s = none) (hfit : Addable f v s) :
    ∃ l r, flitSectorAdd f i v s = (0, raised f v l ((endPeerStep f s).sheaf ++
      [recordSector i v (newEntry f 0x1C 0 0 r 0)]) s) := by
  have hfind : (endPeerStep f s).sheafFind f.world (peerPart f) f.cref f.stepNo f.sseq = none := (stampEntry_endPeerStep f s).trans he
  obtain ⟨l, hl⟩ := hfit.lineAdd_eq
  refine ⟨l, BitVec.ofNat 64 (s.readNat (flitPa f) 8), ?_⟩
  simp only [flitSectorAdd, stampedAdd, flitStamp, if_true, hfind, hl]
  rfl

end

section
variable {v : Word64} {i : Nat} (h : ComesNext f s) (hadm : flitAdmitted f s = true) (hop : f.op = .counterAdd v) (hsec : f.sector = some i)
include h hadm hop hsec

theorem happens_flit_sector_recorded {e : SheafEntry} (he : stampEntry f s = some e) (hmaj : e.maj = 0x1C) (hfunc : e.func = 0)
    (hi : i ∈ e.sectors) : Happens (.nelturFlit f) s fun t => FlitAnswered f s (.answer f.cref 0 0) t ∧ SameBytes s t :=
  h.answers (applyFlit_sector hadm hop hsec (flitSectorAdd_of_recorded he hmaj hfunc hi)) rfl rfl

theorem happens_flit_sector_unrecorded (hfit : Addable f v s)
    (he : ∀ e, stampEntry f s = some e → e.maj = 0x1C ∧ e.func = 0 ∧ e.fault = 0 ∧ i ∉ e.sectors) :
    Happens (.nelturFlit f) s fun t => FlitAnswered f s (.answer f.cref 0 0) t ∧ Raised f v s t ∧
      ∃ e, stampEntry f t = some e ∧ i ∈ e.sectors := by
  cases hentry : stampEntry f s with
  | some e =>
    obtain ⟨hmaj, hfunc, hfault, hi⟩ := he e hentry
    obtain ⟨l, hadd⟩ := flitSectorAdd_of_unrecorded hentry hmaj hfunc hfault hi hfit
    refine h.raises hfit (applyFlit_sector hadm hop hsec hadd) fun t hans hsum hsheaf => ⟨hans, hsum, _,
      stampEntry_recordAt hsheaf ((stampEntry_endPeerStep f s).trans hentry), mem_recordSector i v e⟩
  | none =>
    obtain ⟨l, r, hadd⟩ := flitSectorAdd_of_fresh (i := i) hentry hfit
    refine h.raises hfit (applyFlit_sector hadm hop hsec hadd) fun t hans hsum hsheaf => ⟨hans, hsum, _, stampEntry_append hsheaf
      ((stampEntry_endPeerStep f s).trans hentry) ((bearsStamp_recordSector ..).trans (bearsStamp_newEntry ..)), mem_recordSector i v _⟩

end

/-! ## Other operations on counters -/

theorem happens_flit_init {v : Word64} (h : ComesNext f s) (hadm : flitAdmitted f s = true) (hop : f.op = .counterInit v)
    (he : stampEntry f s = none) (hserves : s.serves (flitReq f) (flitPa f) = true) (hclean : s.isPoisoned (flitPa f) = false)
    (hmark : s.isCounterLine (flitPa f) = false) (hdevice : regionOf (flitPa f) ≠ 2) : Happens (.nelturFlit f) s fun t =>
      FlitAnswered f s (.answer f.cref 0 0) t ∧ t.isCounterLine (flitPa f) = true ∧ t.readNat (flitPa f) 8 = v.toNat := by
  have hinit := initLine_of_unmarked (q := flitReq f) (v := v) (s := endPeerStep f s) hserves hclean hmark
  have hpeer := peerStamped_of_fresh he 0x1A 1 v (initLine (flitReq f) (flitPa f) v)
  have hfar : regionOf (flitPa f) = 2 → (endPeerStep f s).farBacked (flitPa f) = true := fun hr => absurd hr hdevice
  have hstore := storeLine_eq_of_taken (bs := lineBytes v) hfar (s := endPeerStep f s) (q := flitReq f) hserves
  obtain ⟨hmem, -⟩ := storeLine_of_taken (bs := lineBytes v) hfar (s := endPeerStep f s) (q := flitReq f) hserves
  rw [hinit] at hpeer
  rw [← applyFlit_counterInit hadm hop] at hpeer
  refine h.happens hpeer ?_ fun t ht => ⟨ht.answered, ?_, ?_⟩
  · show ((endPeerStep f s).storeLine (flitReq f) (flitPa f) (lineBytes v)).hub = s.hub
    rw [hstore]
    rfl
  · rw [State.isCounterLine, ht.marks]
    simp [NSet.mem_add]
  · exact (byteAt_of_lineBytes (ht.mem.trans hmem)).1

theorem happens_flit_read (h : ComesNext f s) (hadm : flitAdmitted f s = true) (hop : f.op = .counterRead)
    (hok : ctrRefusal (flitReq f) (flitPa f) s = none) : Happens (.nelturFlit f) s fun t =>
      FlitAnswered f s (.answer f.cref (BitVec.ofNat 64 (s.readNat (flitPa f) 8)) 0) t ∧ SameBytes s t := by
  have hok' : ctrRefusal (flitReq f) (flitPa f) (endPeerStep f s) = none := hok
  refine h.answers (u := endPeerStep f s) ?_ rfl rfl
  rw [applyFlit_counterRead hadm hop, peerRead, hok']
  rfl

theorem happens_flit_read_refused (h : ComesNext f s) (hadm : flitAdmitted f s = true) (hop : f.op = .counterRead) {code : BitVec 8}
    (hcode : ctrRefusal (flitReq f) (flitPa f) s = some code) : Happens (.nelturFlit f) s fun t =>
      FlitAnswered f s (.answer f.cref 0 code) t ∧ SameBytes s t := by
  have hcode' : ctrRefusal (flitReq f) (flitPa f) (endPeerStep f s) = some code := hcode
  refine h.answers (u := endPeerStep f s) ?_ rfl rfl
  rw [applyFlit_counterRead hadm hop, peerRead, hcode']
  rfl

end Sys2Proof.Machine
end

section
/-! Waits and copies of peers at their homes (O60). -/

namespace Sys2Proof.Machine

open Sys2Proof

variable {f : Flit} {s : State}

/-! ## Waits (R257, R260) -/

/-- A flit's place lies in DEVICE memory. -/
theorem regionOf_flitPa (f : Flit) : regionOf (flitPa f) = 1 := by
  have hoff : f.target % 2 ^ 48 < 2 ^ 48 := Nat.mod_lt _ (by decide)
  have hsize : regionSize = 2 ^ 64 := rfl
  rw [flitPa, paDevice, regionOf, hsize]
  omega

theorem pathReaches_flitPa (f : Flit) (s : State) : s.pathReaches (flitPa f) = true := by
  rw [State.pathReaches, regionOf_flitPa]
  rfl

theorem lineVerdict_of_ok {thr : Word64} (h : ctrRefusal (flitReq f) (flitPa f) s = none) : lineVerdict (flitReq f) (flitPa f) thr s =
    if thr.toNat ≤ s.readNat (flitPa f) 8 then .met (BitVec.ofNat 64 (s.readNat (flitPa f) 8)) else .held := by
  simp only [lineVerdict, pathReaches_flitPa, h, Bool.not_true, Bool.false_eq_true, if_false, BitVec.le_def, toNat_readNat]

/-- The wait that a flit enters at its home. -/
def waitOf (f : Flit) (v : Word64) (l : Option Nat) (s : State) : PeerWait :=
  ⟨f.src, s.nextId, f.cref, f.world, flitPa f, v, l.map (· + s.now), .held⟩

section
variable {v : Word64} {l : Option Nat} (h : ComesNext f s) (hadm : flitAdmitted f s = true) (hop : f.op = .counterWait v l)
  (hok : ctrRefusal (flitReq f) (flitPa f) s = none)
include h hadm hop hok

theorem happens_flit_wait_met (hv : v.toNat ≤ s.readNat (flitPa f) 8) : Happens (.nelturFlit f) s fun t =>
    FlitAnswered f s (.answer f.cref (BitVec.ofNat 64 (s.readNat (flitPa f) 8)) 0) t ∧ SameBytes s t := by
  have hverdict : lineVerdict (flitReq f) (flitPa f) v (endPeerStep f s) = .met (BitVec.ofNat 64 (s.readNat (flitPa f) 8)) :=
    (lineVerdict_of_ok hok).trans (if_pos hv)
  refine h.answers (u := endPeerStep f s) ?_ rfl rfl
  rw [applyFlit_counterWait hadm hop, peerWait, hverdict]
  rfl

omit h in
theorem applyFlit_wait_held (hv : s.readNat (flitPa f) 8 < v.toNat) : applyFlit f s =
    (endPeerStep f s).fresh.2.modHub fun k => { k with peerWaits := k.peerWaits ++ [waitOf f v l s] } := by
  have hverdict : lineVerdict (flitReq f) (flitPa f) v (endPeerStep f s) = .held :=
    (lineVerdict_of_ok hok).trans (if_neg (Nat.not_le.mpr hv))
  rw [applyFlit_counterWait hadm hop, peerWait, hverdict]
  rfl

omit h hadm hop in
theorem judgePeerWait_waitOf (hv : s.readNat (flitPa f) 8 < v.toNat) : judgePeerWait s (waitOf f v l s) = waitOf f v l s := by
  have hverdict : lineVerdict ⟨f.world, none⟩ (flitPa f) v s = .held := (lineVerdict_of_ok hok).trans (if_neg (Nat.not_le.mpr hv))
  simp only [judgePeerWait, waitOf, hverdict]

theorem happens_flit_wait_held (hv : s.readNat (flitPa f) 8 < v.toNat) : Happens (.nelturFlit f) s fun t => SameBytes s t ∧
    t.hub.sent = s.hub.sent ∧ t.hub.peerWaits = s.hub.peerWaits.map (judgePeerWait s) ++ [waitOf f v l s] := by
  have happly := applyFlit_wait_held hadm hop hok hv
  have hearly : (applyFlit f s).hub.peerEarly = s.hub.peerEarly := by rw [happly]; rfl
  refine .of_next (exec_nelturFlit_of_next h.seq h.free h.alone hearly) ⟨byteAt_of_mem ?_, ?_, ?_⟩
  · rw [takeFlit_mem, happly]
    rfl
  · rw [takeFlit_sent, happly]
    rfl
  · have hjudge : ∀ x, judgePeerWait ((applyFlit f s).modHub fun k => { k with peerSeq := NMap.set k.peerSeq f.src (f.seq + 1) }) x =
        judgePeerWait s x := by
      rw [happly]
      intro x
      rfl
    have hwaits : (applyFlit f s).hub.peerWaits = s.hub.peerWaits ++ [waitOf f v l s] := by rw [happly]; rfl
    show (applyFlit f s).hub.peerWaits.map _ = _
    rw [hwaits, List.map_append, List.map_congr_left fun x _ => hjudge x, List.map_singleton, hjudge, judgePeerWait_waitOf hok hv]

end

/-! ## Copies (R154) -/

theorem storeBytes_hub {q : Req} (l : List (Nat × List Byte)) : ∀ (off : Nat) (s : State), (∀ c ∈ l, takesStore s q c.1) →
    (s.storeBytes q off l).1.hub = s.hub := by
  induction l with
  | nil => intro off s _; rfl
  | cons c r ih =>
    intro off s h
    obtain ⟨pa, bs⟩ := c
    have hhead := h (pa, bs) List.mem_cons_self
    have ⟨_, hfar, hserves, _⟩ := hhead
    have hline := storeLine_eq_of_taken (bs := bs) hfar hserves
    have hrest : ∀ d ∈ r, takesStore (s.storeLine q pa bs) q d.1 := fun d hd => by
      rw [hline, takesStore_lineStored]
      exact h d (List.mem_cons_of_mem _ hd)
    rw [State.storeBytes, storeRefusal_of_takes hhead]
    refine (ih (off + bs.length) _ hrest).trans ?_
    rw [hline]
    rfl

theorem readMem_of_writeChunks {t : State} {pa : Nat} {bs : List Byte} {m : List Host.Cell} (h : t.mem = writeChunks m (lineChunks pa bs)) :
    t.readMem pa bs.length = bs := by
  rw [State.readMem, h]
  refine read_of_get fun i hi => ?_
  rw [get_writeChunks_lineChunks (by omega) (by omega)]
  simp

theorem byteAt_of_writeChunks {t : State} {pa x : Nat} {bs : List Byte} (h : t.mem = writeChunks s.mem (lineChunks pa bs))
    (hx : x < pa ∨ pa + bs.length ≤ x) : t.byteAt x = s.byteAt x := by
  rw [State.byteAt, h, get_writeChunks_outside fun c hc => ?_]
  · rfl
  · obtain ⟨hl, -, -, hu, -⟩ := lineChunks_inside hc
    omega

theorem happens_flit_write (h : ComesNext f s) (hadm : flitAdmitted f s = true) {bs : List Byte} (hop : f.op = .copyWrite bs)
    (htakes : ∀ x, flitPa f ≤ x → x < flitPa f + bs.length → takesStore s (flitReq f) x) : Happens (.nelturFlit f) s fun t =>
      FlitAnswered f s (.answer f.cref 0 0) t ∧ t.readMem (flitPa f) bs.length = bs ∧
        ∀ x, x < flitPa f ∨ flitPa f + bs.length ≤ x → t.byteAt x = s.byteAt x := by
  have hchunks : ∀ c ∈ lineChunks (flitPa f) bs, takesStore (endPeerStep f s) (flitReq f) c.1 := fun c hc => by
    obtain ⟨hl, hu, -⟩ := lineChunks_inside hc
    exact htakes c.1 hl hu
  obtain ⟨hmem, hnone, -⟩ := storeBytes_of_takes _ 0 _ hchunks
  have happly : applyFlit f s = sendAll f [.answer f.cref 0 0] ((endPeerStep f s).storeBytes (flitReq f) 0 (lineChunks (flitPa f) bs)).1 := by
    rw [applyFlit_copyWrite hadm hop, peerWrite]
    simp only [hnone]
    rfl
  refine h.happens happly (storeBytes_hub _ 0 _ hchunks) fun t ht => ⟨ht.answered, ?_, fun x hx => ?_⟩
  · exact readMem_of_writeChunks (ht.mem.trans hmem)
  · exact byteAt_of_writeChunks (ht.mem.trans hmem) hx

/-- The pieces of `n` bytes each into which a list is cut. -/
theorem flatten_pieces (n : Nat) : ∀ (m : Nat) (bs : List Byte), bs.length ≤ n * m →
    ((List.range m).map fun i => (bs.drop (n * i)).take n).flatten = bs
  | 0, bs, h => by
    have hnil : bs = [] := List.length_eq_zero_iff.mp (by omega)
    rw [hnil]
    rfl
  | m + 1, bs, h => by
    have hrest := flatten_pieces n m (bs.drop n) (by rw [List.length_drop, Nat.mul_succ] at *; omega)
    have hstep : ∀ i, (bs.drop (n * (i + 1))).take n = ((bs.drop n).drop (n * i)).take n := fun i => by
      rw [List.drop_drop, Nat.mul_succ, Nat.add_comm]
    rw [List.range_succ_eq_map, List.map_cons, List.map_map, List.flatten_cons]
    simp only [Function.comp_def, Nat.succ_eq_add_one, hstep, hrest]
    simp

theorem flatten_payloadsOf (bs : List Byte) : (payloadsOf bs).flatten = bs := by
  refine flatten_pieces Config.flitPayload _ bs ?_
  have hsize : Config.flitPayload = 112 := rfl
  rw [hsize]
  omega

theorem length_of_mem_payloadsOf {bs x : List Byte} (h : x ∈ payloadsOf bs) : x.length ≤ 112 := by
  obtain ⟨i, -, rfl⟩ := List.mem_map.mp h
  exact List.length_take_le ..

section
variable {m : Nat} (h : ComesNext f s) (hadm : flitAdmitted f s = true) (hop : f.op = .copyRead m)
include h hadm hop

theorem happens_flit_copy (hok : s.readFault (flitReq f) (flitPa f) m = none) : Happens (.nelturFlit f) s fun t => SameBytes s t ∧
    nextSeq f.src t = f.seq + 1 ∧ ∃ xs : List (List Byte), xs.flatten = s.readMem (flitPa f) m ∧ (∀ x ∈ xs, x.length ≤ 112) ∧
      t.hub.sent = s.hub.sent ++ xs.mapIdx fun i x => answerOf f s i (.bytes f.cref x 0) := by
  have hok' : (endPeerStep f s).readFault (flitReq f) (flitPa f) m = none := hok
  have happly : applyFlit f s = sendAll f ((payloadsOf (s.readMem (flitPa f) m)).map fun x => .bytes f.cref x 0) (endPeerStep f s) := by
    rw [applyFlit_copyRead hadm hop, peerCopy, hok', ← sendBytes_eq_sendAll]
    rfl
  refine h.happens happly rfl fun t ht => ⟨byteAt_of_mem ht.mem, ht.next, _, flatten_payloadsOf _, fun _ => length_of_mem_payloadsOf, ?_⟩
  rw [ht.sent, List.append_cancel_left_eq]
  refine List.ext_getElem? fun i => ?_
  rw [List.getElem?_mapIdx, List.getElem?_map, List.getElem?_mapIdx, Option.map_map]
  rfl

theorem happens_flit_copy_refused {x : BitVec 8 × Nat} (hx : s.readFault (flitReq f) (flitPa f) m = some x) :
    Happens (.nelturFlit f) s fun t => FlitAnswered f s (.bytes f.cref [] x.1) t ∧ SameBytes s t := by
  have hx' : (endPeerStep f s).readFault (flitReq f) (flitPa f) m = some x := hx
  refine h.answers (u := endPeerStep f s) ?_ rfl rfl
  rw [applyFlit_copyRead hadm hop, peerCopy, hx']
  rfl

end

end Sys2Proof.Machine
end

section
/-! The end of a halt (O60): the cores of a stop go on, and the continuations in their slots with them. -/

namespace Sys2Proof.Machine

open Sys2Proof

theorem exec_haltResume (stop : Nat) (s : State) : exec (.haltResume stop) s = execHaltResume stop s := rfl

/-! ## Threads by name -/

/-- A thread under its name is one of the threads. -/
theorem State.mem_threads_of_thread? {s : State} {p : Nat} {h : Thread} (hp : s.thread? p = some h) : h ∈ s.threads ∧ h.tid = p := by
  by_cases hown : (s.thr.status != .vacant && s.thr.tid == p) = true
  · rw [State.thread?, if_pos hown, Option.some.injEq] at hp
    simp only [Bool.and_eq_true, bne_iff_ne, ne_eq, beq_iff_eq] at hown
    obtain ⟨hlive, htid⟩ := hown
    rw [State.threads, if_neg hlive, ← hp]
    exact ⟨List.mem_cons_self, htid⟩
  · rw [State.thread?, if_neg hown] at hp
    have hmem := List.mem_of_find?_eq_some hp
    refine ⟨?_, by simpa using List.find?_some hp⟩
    rw [State.threads]
    split
    · exact hmem
    · exact List.mem_cons_of_mem _ hmem

/-- An update of another thread. -/
theorem State.thread?_modThread_ne {s : State} {k p : Nat} {f : Thread → Thread} (hkp : k ≠ p)
    (ht : ∀ x, (f x).tid = x.tid) : (s.modThread k f).thread? p = s.thread? p := by
  by_cases hown : (s.thr.status != .vacant && s.thr.tid == k) = true
  · have hne : s.thr.tid ≠ p := by
      simp only [Bool.and_eq_true, beq_iff_eq] at hown
      obtain ⟨-, htid⟩ := hown
      rwa [htid]
    rw [State.modThread, if_pos hown]
    simp [State.thread?, ht, hne]
  · have hrest : ((s.rest.map fun x => if x.tid == k then f x else x).find? fun x => x.tid == p) = s.rest.find? fun x => x.tid == p := by
      have hsame : ((fun x : Thread => x.tid == p) ∘ fun x => if x.tid == k then f x else x) = fun x => x.tid == p := by
        funext x
        simp only [Function.comp]
        split <;> simp [ht]
      rw [List.find?_map, hsame]
      cases hfind : s.rest.find? fun x => x.tid == p with
      | none => rfl
      | some g =>
        have hg : (g.tid == k) = false := by
          have htid := List.find?_some hfind
          simp only [beq_iff_eq] at htid
          simpa [htid] using hkp.symm
        rw [Option.map_some, hg]
        rfl
    rw [State.modThread, if_neg hown, State.thread?, State.thread?, hrest]

theorem State.part_modPart_ne {s : State} {p q : Nat} (f : Partition → Partition) (h : q ≠ p) : (s.modPart p f).part q = s.part q :=
  NMap.getD_set_ne _ _ _ h

@[simp] theorem State.parts_modThread (s : State) (k : Nat) (f : Thread → Thread) : (s.modThread k f).parts = s.parts := by
  unfold State.modThread
  split <;> rfl

@[simp] theorem State.clusters_modThread (s : State) (k : Nat) (f : Thread → Thread) : (s.modThread k f).clusters = s.clusters := by
  unfold State.modThread
  split <;> rfl

theorem State.part_modThread (s : State) (k q : Nat) (f : Thread → Thread) : (s.modThread k f).part q = s.part q := by
  rw [State.part, State.parts_modThread]
  rfl

/-! ## Threads that go on (R192, R392) -/

/-- One continuation goes on, or is refused where its context block cannot be restored. -/
def thawOne (h : Thread) (s : State) : State := if contextWhole h then s.modThread h.tid State.thawThread else refuseBroken h s

theorem thawAll_cons (h : Thread) (r : List Thread) (s : State) : thawAll (h :: r) s = thawAll r (thawOne h s) := rfl

theorem thawAll_append (l m : List Thread) : ∀ s, thawAll (l ++ m) s = thawAll m (thawAll l s) := by
  induction l with
  | nil => intro s; rfl
  | cons h r ih => intro s; exact ih _

/-- What each continuation's going on keeps is kept by all of them. -/
theorem thawAll_keeps {P : State → Prop} : ∀ {l : List Thread}, (∀ h ∈ l, ∀ u, P u → P (thawOne h u)) → ∀ {s}, P s → P (thawAll l s)
  | [], _, _, hs => hs
  | h :: _, hstep, _, hs => thawAll_keeps (fun g hg => hstep g (List.mem_cons_of_mem h hg)) (hstep h List.mem_cons_self _ hs)

/-- What becomes of the thread itself. -/
def thawed (h x : Thread) : Thread := if contextWhole h then State.thawThread x else { x with broken := false, stall := some .recovery }

theorem thawed_tid (h x : Thread) : (thawed h x).tid = x.tid := by
  unfold thawed
  split <;> rfl

theorem thawed_status (h x : Thread) : (thawed h x).status = x.status := by
  unfold thawed
  split <;> rfl

theorem thawThread_thawThread (x : Thread) : State.thawThread (State.thawThread x) = State.thawThread x := by
  have hthaw : State.thaw ∘ State.thaw = State.thaw := rfl
  simp only [State.thawThread, List.map_map, hthaw]

theorem thawed_thawed (h x : Thread) : thawed h (thawed h x) = thawed h x := by
  unfold thawed
  split
  · exact thawThread_thawThread x
  · rfl

/-- The error that a refusal leaves to the recovery of the thread's partition (R392). -/
def refusalError (h : Thread) (s : State) : StepError := ⟨0, h.tid, h.ctx.code.cursor, h.cref, h.member, true, partLives h.part s⟩

/-- The state but for its threads, when one goes on. -/
theorem thawOne_eq (h : Thread) (s : State) : ∃ u, thawOne h s = u.modThread h.tid (thawed h) ∧ u.clusters = s.clusters ∧
    (∀ p, u.thread? p = s.thread? p) ∧
    (u = s ∨ u = s.modPart h.part fun p => { p with
      errors := p.errors ++ [refusalError h s] }) := by
  unfold thawOne thawed refuseBroken
  split
  · exact ⟨s, rfl, rfl, fun _ => rfl, .inl rfl⟩
  · exact ⟨_, rfl, rfl, fun _ => rfl, .inr rfl⟩

theorem thread?_thawOne_self {h x : Thread} {s : State} (hx : s.thread? h.tid = some x) : (thawOne h s).thread? h.tid = some (thawed h x) := by
  obtain ⟨u, hu, -, hthread, -⟩ := thawOne_eq h s
  rw [hu]
  exact State.thread?_modThread_of_status ((hthread _).trans hx) (thawed_tid h) (thawed_status h)

theorem thread?_thawOne_ne {h : Thread} {p : Nat} {s : State} (hp : h.tid ≠ p) : (thawOne h s).thread? p = s.thread? p := by
  obtain ⟨u, hu, -, hthread, -⟩ := thawOne_eq h s
  rw [hu, State.thread?_modThread_ne hp (thawed_tid h), hthread]

/-- The going on of continuations changes no core, in the banks or saved; errors are only added. -/
structure CoresKept (s t : State) : Prop where
  clusters : t.clusters = s.clusters
  phase : ∀ p, (t.part p).phase = (s.part p).phase
  saved : ∀ p, (t.part p).savedCores = (s.part p).savedCores
  errors : ∀ p, (s.part p).errors ⊆ (t.part p).errors

theorem CoresKept.refl (s : State) : CoresKept s s := ⟨rfl, fun _ => rfl, fun _ => rfl, fun _ => List.Subset.refl _⟩

theorem CoresKept.trans {s t u : State} (h : CoresKept s t) (g : CoresKept t u) : CoresKept s u :=
  ⟨g.clusters.trans h.clusters, fun p => (g.phase p).trans (h.phase p), fun p => (g.saved p).trans (h.saved p),
    fun p => List.Subset.trans (h.errors p) (g.errors p)⟩

/-- More errors of a partition. -/
theorem coresKept_modPart (s : State) (q : Nat) (l : List StepError) :
    CoresKept s (s.modPart q fun p => { p with errors := p.errors ++ l }) := by
  refine ⟨rfl, fun p => ?_, fun p => ?_, fun p => ?_⟩ <;> by_cases hp : p = q
  · rw [hp, State.part_modPart]
  · rw [State.part_modPart_ne _ hp]
  · rw [hp, State.part_modPart]
  · rw [State.part_modPart_ne _ hp]
  · rw [hp, State.part_modPart]
    exact List.subset_append_left ..
  · rw [State.part_modPart_ne _ hp]
    exact List.Subset.refl _

theorem coresKept_modThread (s : State) (k : Nat) (f : Thread → Thread) : CoresKept s (s.modThread k f) :=
  ⟨State.clusters_modThread .., fun p => by rw [State.part_modThread], fun p => by rw [State.part_modThread],
    fun p => by rw [State.part_modThread]; exact List.Subset.refl _⟩

theorem coresKept_thawOne (h : Thread) (s : State) : CoresKept s (thawOne h s) := by
  obtain ⟨u, hu, -, -, rfl | rfl⟩ := thawOne_eq h s <;> rw [hu]
  · exact coresKept_modThread ..
  · exact (coresKept_modPart ..).trans (coresKept_modThread ..)

theorem coresKept_thawAll (l : List Thread) (s : State) : CoresKept s (thawAll l s) :=
  thawAll_keeps (P := CoresKept s) (fun h _ u hu => hu.trans (coresKept_thawOne h u)) (.refl s)

theorem coreHalted_of_coresKept {s t : State} (h : CoresKept s t) (x : Thread) : coreHalted x t = coreHalted x s := by
  have hcluster : ∀ c, t.cluster c = s.cluster c := fun c => by rw [State.cluster, h.clusters]; rfl
  have hcore : ∀ c k, coreRec c k t = coreRec c k s := fun c k => by rw [coreRec, hcluster]; rfl
  unfold coreHalted
  simp only [h.phase, h.saved, hcore]

/-- An error that a refusal leaves stands in the thread's partition. -/
def RefusalNoted (h : Thread) (s : State) : Prop := ∃ e ∈ (s.part h.part).errors, e.tid = h.tid ∧ e.save = true

theorem RefusalNoted.of_coresKept {h : Thread} {s t : State} (hs : RefusalNoted h s) (hk : CoresKept s t) : RefusalNoted h t := by
  obtain ⟨e, he, hnote⟩ := hs
  exact ⟨e, hk.errors h.part he, hnote⟩

theorem refusalNoted_thawOne {h : Thread} (hc : contextWhole h = false) (s : State) : RefusalNoted h (thawOne h s) := by
  have hthaw : thawOne h s = refuseBroken h s := by rw [thawOne, hc, if_neg Bool.false_ne_true]
  refine ⟨refusalError h s, ?_, rfl, rfl⟩
  rw [hthaw, refuseBroken, State.part_modThread, State.part_modPart]
  exact List.mem_append_right _ (List.mem_singleton.mpr rfl)

/-- A continuation that goes on among others: what becomes of it, and the error that is noted where it is refused. -/
theorem thread?_thawAll {h : Thread} {s : State} {l : List Thread} (hs : s.thread? h.tid = some h) (hmem : h ∈ l)
    (honly : ∀ g ∈ l, g.tid = h.tid → g = h) : (thawAll l s).thread? h.tid = some (thawed h h) ∧
      (contextWhole h = false → RefusalNoted h (thawAll l s)) := by
  obtain ⟨before, after, rfl, hfirst⟩ := List.eq_append_cons_of_mem hmem
  have hbefore : (thawAll before s).thread? h.tid = some h := by
    refine thawAll_keeps (P := fun u => u.thread? h.tid = some h) (fun g hg u hu => ?_) hs
    have hne : g.tid ≠ h.tid := fun htid => hfirst (honly g (List.mem_append_left _ hg) htid ▸ hg)
    rw [thread?_thawOne_ne hne, hu]
  rw [thawAll_append, thawAll_cons]
  constructor
  · refine thawAll_keeps (P := fun u => u.thread? h.tid = some (thawed h h)) (fun g hg u hu => ?_) (thread?_thawOne_self hbefore)
    by_cases htid : g.tid = h.tid
    · obtain rfl := honly g (List.mem_append_right _ (List.mem_cons_of_mem _ hg)) htid
      rw [thread?_thawOne_self hu, thawed_thawed]
    · rw [thread?_thawOne_ne htid, hu]
  · exact fun hc => (refusalNoted_thawOne hc _).of_coresKept (coresKept_thawAll after _)

/-! ## The cores of a stop -/

theorem resumeSaved_eq (stop : Nat) : resumeSaved stop =
    fun r => if r.halted = true ∧ r.stop = stop then { r with halted := false, stopped := 0 } else r := by
  funext r
  simp [resumeSaved]

theorem resumeCore_eq (stop : Nat) (r : Core) :
    resumeCore stop r = if r.halted = true ∧ r.stop = stop then { r with halted := false, stopped := 0 } else r := by
  simp [resumeCore]

/-- A partition with its saved cores of a stop going on. -/
def resumePart (stop : Nat) (x : Partition) : Partition := { x with savedCores := x.savedCores.map (resumeSaved stop) }

/-- A cluster with its cores of a stop going on. -/
def resumeCluster (stop : Nat) (x : Cluster) : Cluster := { x with cores := x.cores.map fun k => (k.1, resumeCore stop k.2) }

/-- The cores of a stop go on. -/
def resumeCores (stop : Nat) (s : State) : State :=
  { s with parts := s.parts.map fun x => (x.1, resumePart stop x.2), clusters := s.clusters.map fun x => (x.1, resumeCluster stop x.2) }

theorem NMap.getD_map_val {α : Type} (f : α → α) (l : NMap α) (k : Nat) {d : α} (hd : f d = d) :
    NMap.getD (l.map fun x => (x.1, f x.2)) k d = f (NMap.getD l k d) := by
  rw [NMap.getD, NMap.get?_map_val, NMap.getD]
  cases NMap.get? l k with
  | none => exact hd.symm
  | some x => rfl

theorem part_resumeCores (stop : Nat) (s : State) (p : Nat) : (resumeCores stop s).part p = resumePart stop (s.part p) :=
  NMap.getD_map_val (resumePart stop) s.parts p rfl

theorem cluster_resumeCores (stop : Nat) (s : State) (c : Nat) : (resumeCores stop s).cluster c = resumeCluster stop (s.cluster c) :=
  NMap.getD_map_val (resumeCluster stop) s.clusters c rfl

theorem matrixRuns_resumeCores (stop : Nat) (s : State) (p : Nat) : matrixRuns p (resumeCores stop s) = matrixRuns p s := by
  simp only [matrixRuns, part_resumeCores]
  rfl

/-- The continuations whose cores went on. -/
def goneOn (stop : Nat) (s : State) : List Thread :=
  (resumeCores stop s).threads.filter fun h => matrixRuns h.part (resumeCores stop s) && coreHalted h s && !coreHalted h (resumeCores stop s)

theorem execHaltResume_eq (stop : Nat) (s : State) : execHaltResume stop s = .next (thawAll (goneOn stop s) (resumeCores stop s)) := rfl

theorem mem_goneOn {stop : Nat} {s : State} {h : Thread} (hmem : h ∈ s.threads) (hruns : matrixRuns h.part s = true)
    (hhalted : coreHalted h s = true) (hfree : coreHalted h (resumeCores stop s) = false) : h ∈ goneOn stop s := by
  refine List.mem_filter.mpr ⟨hmem, ?_⟩
  rw [matrixRuns_resumeCores, hruns, hhalted, hfree]
  rfl

/-- What statements about the end of a halt read of a state. -/
structure HaltEnded (stop : Nat) (s t : State) : Prop where
  bytes : SameBytes s t
  cores : CoresKept (resumeCores stop s) t
  threads : ∀ h, s.thread? h.tid = some h → (∀ g ∈ s.threads, g.tid = h.tid → g = h) → matrixRuns h.part s = true → coreHalted h s = true →
    coreHalted h t = false → t.thread? h.tid = some (thawed h h) ∧ (contextWhole h = false → RefusalNoted h t)

theorem haltEnded_thawAll (stop : Nat) (s : State) : HaltEnded stop s (thawAll (goneOn stop s) (resumeCores stop s)) := by
  refine ⟨sameBytes_of_mem (thawAll_mem ..), coresKept_thawAll _ _, fun h hs honly hruns hhalted hfree => ?_⟩
  rw [coreHalted_of_coresKept (coresKept_thawAll _ _)] at hfree
  obtain ⟨hmem, -⟩ := State.mem_threads_of_thread? hs
  exact thread?_thawAll (s := resumeCores stop s) hs (mem_goneOn hmem hruns hhalted hfree) fun g hg => honly g (List.mem_of_mem_filter hg)

theorem HaltEnded.savedCores {stop : Nat} {s t : State} (h : HaltEnded stop s t) (p : Nat) : (t.part p).savedCores =
    (s.part p).savedCores.map fun r => if r.halted = true ∧ r.stop = stop then { r with halted := false, stopped := 0 } else r := by
  rw [h.cores.saved, part_resumeCores, resumePart, resumeSaved_eq]

theorem HaltEnded.core {stop : Nat} {s t : State} (h : HaltEnded stop s t) {c k : Nat} {r : Core}
    (hr : NMap.get? (s.cluster c).cores k = some r) : NMap.get? (t.cluster c).cores k =
      some (if r.halted = true ∧ r.stop = stop then { r with halted := false, stopped := 0 } else r) := by
  have hcluster : t.cluster c = resumeCluster stop (s.cluster c) := by
    rw [State.cluster, h.cores.clusters]
    exact cluster_resumeCores stop s c
  rw [hcluster, resumeCluster, NMap.get?_map_val, hr, Option.map_some, resumeCore_eq]

theorem happens_haltResume {stop : Nat} {s : State} {p : State → Prop} (hp : ∀ t, HaltEnded stop s t → p t) :
    Happens (.haltResume stop) s p :=
  .of_next ((exec_haltResume stop s).trans (execHaltResume_eq stop s)) (hp _ (haltEnded_thawAll stop s))

end Sys2Proof.Machine
end

section
/-! The platform's events together (O60). -/

namespace Sys2Proof.Machine

open Sys2Proof

/-- Settles O60: each event by its own equation; a flit by the operation that its home applies (`ComesNext.happens`), the end of a halt by
what each continuation's going on keeps (`thawAll_keeps`). -/
theorem platformEvents : Obligations.PlatformEvents := by
  unfold Obligations.PlatformEvents
  intro n p stop row f s
  refine ⟨fun hn => ?_, fun hp => ⟨fun hpart => ⟨?_, ?_⟩, fun h hh => ⟨?_, ?_, ?_⟩⟩, happens_correctedError row s, happens_softRepair,
    fun r => happens_softRepairComplete, happens_reset s, outsidePackage_iff, happens_bringupStageComplete, ⟨_, rfl, rfl⟩,
    fun hn => ⟨happens_linkFailure hn s, happens_linkRetrainComplete hn s⟩, happens_expanderRemoval n s, fun hagain => ?_,
    fun hearly hquiet => ?_, fun hseq hfree hquiet => ?_, ?_⟩
  · exact .of_next (exec_uncorrectableError_of_lt hn s) ⟨isPoisoned_add s n, fun _ => rfl⟩
  · refine .of_next (exec_uncorrectableError_area (le_refl 6) hp s) ?_
    rw [breakArea_save hpart, State.part_modPart]
    exact ⟨rfl, fun _ => rfl⟩
  · refine .of_next (exec_uncorrectableError_area (area := 7) (by decide) hp s) ?_
    rw [breakArea_records hpart, State.part_modPart]
    exact ⟨rfl, fun _ => rfl⟩
  · exact happens_uncorrectableError_thread (area := 8) (f := fun x => { x with logBroken := true }) (by decide) hp rfl (fun _ => rfl)
      (fun _ => rfl) hh
  · exact happens_uncorrectableError_thread (area := 9) (f := fun x => { x with broken := x.place.isNone || coreHalted x s }) (by decide)
      hp rfl (fun _ => rfl) (fun _ => rfl) hh
  · obtain ⟨t, hexec, hthread, hbytes⟩ := happens_uncorrectableError_thread (area := 10)
      (f := fun x => { x with ctx := { x.ctx with stream := x.ctx.stream.map breakDigits } }) (by decide) hp rfl (fun _ => rfl) (fun _ => rfl) hh
    exact ⟨t, hexec, hbytes, hthread⟩
  · exact .of_next (exec_nelturFlit_of_again hagain) rfl
  · exact .of_next (exec_nelturFlit_of_early hearly hquiet) rfl
  · have hnext : ComesNext f s := ⟨hseq, hfree, hquiet⟩
    refine ⟨happens_flit_refused hnext, fun hadm => ⟨fun v hop => ⟨fun e hsec he => ?_, fun hsec he hfit => ?_, fun i hsec => ⟨?_, ?_⟩⟩,
      fun v hop he hserves hclean hmark => ?_, fun v l hop hok => ⟨?_, ?_⟩, fun hop => ⟨?_, fun code => ?_⟩, fun bs hop => ?_,
      fun m hop => ⟨?_, fun x => ?_⟩⟩⟩
    · exact happens_flit_add_held hnext hadm hop hsec he
    · exact happens_flit_add_fresh hnext hadm hop hsec he ⟨hfit.1, hfit.2⟩
    · exact fun e => happens_flit_sector_recorded hnext hadm hop hsec
    · exact fun he hfit => happens_flit_sector_unrecorded hnext hadm hop hsec ⟨hfit.1, hfit.2⟩ he
    · exact happens_flit_init hnext hadm hop he hserves hclean hmark (by rw [regionOf_flitPa]; decide)
    · exact happens_flit_wait_met hnext hadm hop hok
    · exact happens_flit_wait_held hnext hadm hop hok
    · exact happens_flit_read hnext hadm hop
    · exact happens_flit_read_refused hnext hadm hop
    · exact happens_flit_write hnext hadm hop
    · exact happens_flit_copy hnext hadm hop
    · exact happens_flit_copy_refused hnext hadm hop
  · refine happens_haltResume fun t ht => ⟨ht.bytes, ht.savedCores p, fun c k r => ht.core, fun h hh honly hruns hhalted hfree => ?_⟩
    obtain ⟨-, rfl⟩ := State.mem_threads_of_thread? hh
    obtain ⟨hthread, hnoted⟩ := ht.threads h hh honly hruns hhalted hfree
    refine ⟨fun hwhole => ?_, fun hbroken => ⟨_, hthread, ?_, hnoted hbroken⟩⟩
    · rw [hthread, thawed, if_pos hwhole]
    · rw [thawed, hbroken]
      rfl

end Sys2Proof.Machine
end
